-- ==== Sys2Proof/Word.lean ====
section
/-!
DEFINITION. The word types of the TLV-FV12 model (R4, R5) and their plainest arithmetic.
-/
namespace Sys2Proof

/-- A byte of memory. -/
abbrev Byte := BitVec 8
/-- A core word or Caddie rule word (R5, R61, R79). -/
abbrev Word32 := BitVec 32
/-- A register, an address operand or a channel-engine word (R5, R76). -/
abbrev Word := BitVec 64
/-- The 512 bytes of a v register or of a queue entry (R185, R209). -/
abbrev Row := BitVec 4096

end Sys2Proof
end

