-- ==== Sys2Proof/Syntax.lean ====
section
/-!
DEFINITION. The instruction type of the TLV-FV12: every row of the opcode table. Operands have the width of their
class (Table 3.3), so a register code outside its class cannot be written down. A word's ring bits (R61) belong to every
word alike and are no operand: they stand with the word itself in State.cur. Two kinds of rows have no operands of
their own here: events, whose arguments arrive with them in State.agenda, and the rows that share one word
(BARV, BKARM, GRPGEN), whose operand registers are those of the word in State.cur. Rows with operands come first:
Lean's compiled code numbers at most 245 constructors that carry data.
-/
namespace Sys2Proof

/-- The four ring bits of a core word (R61). -/
structure Ring where
  wb : Bool
  wf : Bool
  sb : Bool
  sf : Bool
  deriving DecidableEq, Repr, Inhabited

/-- No ring bit. -/
def Ring.zero : Ring := ⟨false, false, false, false⟩

/-- The five engines of a core, in the order of the ring (R129). -/
inductive Engine where
  | S | A | M | V | X
  deriving DecidableEq, Repr, Inhabited

/-- A V source selector (Table 3.4). -/
inductive VSrc where
  | v (n : BitVec 5)
  | iq (n : BitVec 3)
  | k (n : BitVec 4)
  deriving DecidableEq, Repr, Inhabited

/-- A V source selector that refuses k registers (R224, R225, R232). -/
inductive VIn where
  | v (n : BitVec 5)
  | iq (n : BitVec 3)
  deriving DecidableEq, Repr, Inhabited

/-- A V destination selector (Table 3.4). -/
inductive VDst where
  | v (n : BitVec 5)
  | oq (n : BitVec 2)
  deriving DecidableEq, Repr, Inhabited

/-- F-slot operations of a CE word (Table 3.13). -/
inductive FOp where
  | fnop | fld | fldw | fldc
  deriving DecidableEq, Repr, Inhabited

/-- A-slot operations of a CE word (Table 3.13). -/
inductive AOp where
  | enop | eadd | esub | emul | efma | ediv | esqrt | ersq | emin | emax | eabs | eneg
  | esel | ecmp | emov | ebc | econst | esrb | esr8 | ebmax | ecvt | epack | ernd | eidx
  deriving DecidableEq, Repr, Inhabited

/-- W-slot operations of a CE word (Table 3.13). -/
inductive WOp where
  | wnop | wst | wstm | wsig
  deriving DecidableEq, Repr, Inhabited

/-- A channel-engine word (Table 3.12). -/
structure CeWord where
  stop : Bool
  lend : Bool
  chk  : Bool
  fop  : FOp
  fdst : BitVec 4
  fap  : BitVec 3
  fimm : BitVec 8
  aop  : AOp
  ad   : BitVec 4
  aa   : BitVec 4
  ab   : BitVec 4
  md   : BitVec 6
  wop  : WOp
  wsrc : BitVec 4
  wap  : BitVec 3
  wimm : BitVec 5
  deriving DecidableEq, Repr, Inhabited

/-- Every row of the opcode table, one constructor each. Words carry their ring bits `r` and operands; events
carry what arrives with them. -/
inductive Instr where
  /-- R360. A CE executes one 64-bit word, its F, A and W slots and control bits taking effect together. -/
  | ceWord (w : CeWord)
  /-- R166. sd := sa + sb, wrapping. -/
  | add (d : BitVec 6) (a : BitVec 6) (b : BitVec 6)
  /-- R166. sd := sa − sb, wrapping. -/
  | sub (d : BitVec 6) (a : BitVec 6) (b : BitVec 6)
  /-- R166. sd := low 64 bits of sa × sb. -/
  | mul (d : BitVec 6) (a : BitVec 6) (b : BitVec 6)
  /-- R166. sd := high 64 bits of the signed product. -/
  | mulh (d : BitVec 6) (a : BitVec 6) (b : BitVec 6)
  /-- R166. sd := high 64 bits of the unsigned product. -/
  | mulhn (d : BitVec 6) (a : BitVec 6) (b : BitVec 6)
  /-- R167. sd := signed quotient truncated toward zero, all ones on division by zero. -/
  | div (d : BitVec 6) (a : BitVec 6) (b : BitVec 6)
  /-- R167. sd := unsigned quotient, all ones on division by zero. -/
  | divn (d : BitVec 6) (a : BitVec 6) (b : BitVec 6)
  /-- R167. sd := signed remainder with the sign of sa. -/
  | rem (d : BitVec 6) (a : BitVec 6) (b : BitVec 6)
  /-- R167. sd := unsigned remainder. -/
  | remn (d : BitVec 6) (a : BitVec 6) (b : BitVec 6)
  /-- R166. sd := sa AND sb. -/
  | and (d : BitVec 6) (a : BitVec 6) (b : BitVec 6)
  /-- R166. sd := sa OR sb. -/
  | or (d : BitVec 6) (a : BitVec 6) (b : BitVec 6)
  /-- R166. sd := sa XOR sb. -/
  | xor (d : BitVec 6) (a : BitVec 6) (b : BitVec 6)
  /-- R166. sd := sa shifted left by sb[5:0]. -/
  | shl (d : BitVec 6) (a : BitVec 6) (b : BitVec 6)
  /-- R166. sd := sa shifted right logically by sb[5:0]. -/
  | shr (d : BitVec 6) (a : BitVec 6) (b : BitVec 6)
  /-- R166. sd := sa shifted right arithmetically by sb[5:0]. -/
  | sra (d : BitVec 6) (a : BitVec 6) (b : BitVec 6)
  /-- R166. sd := signed minimum of sa and sb. -/
  | min (d : BitVec 6) (a : BitVec 6) (b : BitVec 6)
  /-- R166. sd := signed maximum of sa and sb. -/
  | max (d : BitVec 6) (a : BitVec 6) (b : BitVec 6)
  /-- R166. sd := unsigned minimum of sa and sb. -/
  | minn (d : BitVec 6) (a : BitVec 6) (b : BitVec 6)
  /-- R166. sd := unsigned maximum of sa and sb. -/
  | maxn (d : BitVec 6) (a : BitVec 6) (b : BitVec 6)
  /-- R166. sd := count of leading zero bits of sa. -/
  | clz (d : BitVec 6) (a : BitVec 6)
  /-- R166. sd := count of set bits of sa. -/
  | popc (d : BitVec 6) (a : BitVec 6)
  /-- R166. sd := sa + sign-extended immediate. -/
  | addi (d : BitVec 6) (a : BitVec 6) (imm : BitVec 6)
  /-- R166. sd := sa AND zero-extended immediate. -/
  | andi (d : BitVec 6) (a : BitVec 6) (imm : BitVec 6)
  /-- R166. sd := sa OR zero-extended immediate. -/
  | ori (d : BitVec 6) (a : BitVec 6) (imm : BitVec 6)
  /-- R166. sd := sa XOR zero-extended immediate. -/
  | xori (d : BitVec 6) (a : BitVec 6) (imm : BitVec 6)
  /-- R166. sd := sa shifted left by the immediate. -/
  | shli (d : BitVec 6) (a : BitVec 6) (imm : BitVec 6)
  /-- R166. sd := sa shifted right logically by the immediate. -/
  | shri (d : BitVec 6) (a : BitVec 6) (imm : BitVec 6)
  /-- R166. sd := sa shifted right arithmetically by the immediate. -/
  | srai (d : BitVec 6) (a : BitVec 6) (imm : BitVec 6)
  /-- R166. sd := sign-extended immediate. -/
  | ldi (d : BitVec 6) (imm : BitVec 12)
  /-- R169. fd := (sa = sb). -/
  | ceq (d : BitVec 3) (a : BitVec 6) (b : BitVec 6)
  /-- R169. fd := (sa ≠ sb). -/
  | cne (d : BitVec 3) (a : BitVec 6) (b : BitVec 6)
  /-- R169. fd := signed sa < sb. -/
  | clt (d : BitVec 3) (a : BitVec 6) (b : BitVec 6)
  /-- R169. fd := signed sa ≤ sb. -/
  | cle (d : BitVec 3) (a : BitVec 6) (b : BitVec 6)
  /-- R169. fd := unsigned sa < sb. -/
  | cltn (d : BitVec 3) (a : BitVec 6) (b : BitVec 6)
  /-- R169. fd := unsigned sa ≤ sb. -/
  | clen (d : BitVec 3) (a : BitVec 6) (b : BitVec 6)
  /-- R169. fd := fa AND fb. -/
  | fand (d : BitVec 3) (a : BitVec 3) (b : BitVec 3)
  /-- R169. fd := fa OR fb. -/
  | forF (d : BitVec 3) (a : BitVec 3) (b : BitVec 3)
  /-- R169. fd := NOT fa. -/
  | fnot (d : BitVec 3) (a : BitVec 3)
  /-- R169. sd := sa when flag fb is true. -/
  | cmov (d : BitVec 6) (a : BitVec 6) (b : BitVec 3)
  /-- R169. sd := 1 when flag fa is true, else 0. -/
  | ftos (d : BitVec 6) (a : BitVec 3)
  /-- R170. fp32 sum of sa and sb rounded by RNE. -/
  | fadd32 (d : BitVec 6) (a : BitVec 6) (b : BitVec 6)
  /-- R170. fp32 difference of sa and sb rounded by RNE. -/
  | fsub32 (d : BitVec 6) (a : BitVec 6) (b : BitVec 6)
  /-- R170. fp32 product of sa and sb rounded by RNE. -/
  | fmul32 (d : BitVec 6) (a : BitVec 6) (b : BitVec 6)
  /-- R170. fp32 sa × sb + sd with one rounding. -/
  | ffma32 (d : BitVec 6) (a : BitVec 6) (b : BitVec 6)
  /-- R170. Correctly rounded fp32 sa / sb. -/
  | fdiv32 (d : BitVec 6) (a : BitVec 6) (b : BitVec 6)
  /-- R170. Correctly rounded fp32 square root of sa. -/
  | fsqrt32 (d : BitVec 6) (a : BitVec 6)
  /-- R171. fp32 minimum of sa and sb, −0 below +0, NaN-avoiding. -/
  | fmin32 (d : BitVec 6) (a : BitVec 6) (b : BitVec 6)
  /-- R171. fp32 maximum of sa and sb, NaN-avoiding. -/
  | fmax32 (d : BitVec 6) (a : BitVec 6) (b : BitVec 6)
  /-- R171. sd := 1, 2, 4 or 8 for less, equal, greater or unordered fp32 comparison. -/
  | fcmp32 (d : BitVec 6) (a : BitVec 6) (b : BitVec 6)
  /-- R172. Converts sa between fp32, integers and narrower floats by the selector's conversion and mode. -/
  | fcvt (d : BitVec 6) (a : BitVec 6) (imm : BitVec 6)
  /-- R173. Loads 8 bytes of global memory into sd under an ephemeral R footprint. -/
  | gld (d : BitVec 6) (a : BitVec 6) (imm : BitVec 6)
  /-- R173. Stores sd to 8 bytes of global memory under an ephemeral W footprint. -/
  | gst (d : BitVec 6) (a : BitVec 6) (imm : BitVec 6)
  /-- R175. Loads 8 bytes of global memory, writing poison in place of most faults. -/
  | glds (d : BitVec 6) (a : BitVec 6) (imm : BitVec 6)
  /-- R176. Raises POISON when sa is poisoned. -/
  | chk (a : BitVec 6)
  /-- R178. Reads 8 bytes of the kernel's argument window into sd. -/
  | arg (d : BitVec 6) (imm : BitVec 12)
  /-- R180. Performs one indivisible read-modify-write on global memory with the operation held in sd. -/
  | gatom (d : BitVec 6) (a : BitVec 6) (b : BitVec 6)
  /-- R180. Indivisibly compares a global doubleword with sd and stores sb on equality, returning the old value. -/
  | gcas (d : BitVec 6) (a : BitVec 6) (b : BitVec 6)
  /-- R157. Pushes sa into the value FIFO inbound to A. -/
  | puta (a : BitVec 6)
  /-- R157. Pushes sa into the value FIFO inbound to V. -/
  | putv (a : BitVec 6)
  /-- R157. Pushes sa into the value FIFO inbound to M. -/
  | putm (a : BitVec 6)
  /-- R157. Pushes sa into the value FIFO inbound to X. -/
  | putx (a : BitVec 6)
  /-- R157. Pops the FIFO inbound to S from A into sd. -/
  | geta (d : BitVec 6)
  /-- R157. Pops the FIFO inbound to S from V into sd. -/
  | getv (d : BitVec 6)
  /-- R157. Pops the FIFO inbound to S from M into sd. -/
  | getm (d : BitVec 6)
  /-- R157. Pops the FIFO inbound to S from X into sd. -/
  | getx (d : BitVec 6)
  /-- R161. S adds count to a semaphore with release at core scope. -/
  | sig (sem : BitVec 4) (count : BitVec 14)
  /-- R161. S waits until a semaphore holds count and subtracts it, with acquire at core scope. -/
  | wait (sem : BitVec 4) (count : BitVec 14)
  /-- R163. sd := the current value of a semaphore. -/
  | semrd (d : BitVec 6) (imm : BitVec 12)
  /-- R326. Stalls S until its release set is complete at the scope and, for acquire, until earlier loads land. -/
  | fence (kind : BitVec 2) (scope : BitVec 2)
  /-- R334. Claims a global range for the core as a footprint of the mode given and returns the claim number. -/
  | fpclm (d : BitVec 6) (a : BitVec 6) (b : BitVec 6)
  /-- R335. Releases a claim after S's accesses inside it complete. -/
  | fprel (a : BitVec 6)
  /-- R115. sd := CSR n. -/
  | csrr (d : BitVec 6) (imm : BitVec 12)
  /-- R115. CSR n := sa, refused for read-only CSRs and out-of-range WIN. -/
  | csrw (d : BitVec 6) (imm : BitVec 12)
  /-- R117. Raises TRAPI with DETAIL the immediate. -/
  | trap (imm : BitVec 18)
  /-- R118. sd := the core's cycle counter. -/
  | cycle (d : BitVec 6)
  /-- R119. With DBGCTL.EN set, enters the debug monitor with cause DEBUG; otherwise does nothing. -/
  | dbg (imm : BitVec 18)
  /-- R308. Drops the context's translations over a range in every cache of the package and waits for accesses under them. -/
  | tlbi (a : BitVec 6) (b : BitVec 6)
  /-- R277. Submits a job card at a virtual address to Playmaker and returns its submission number. -/
  | qpush (d : BitVec 6) (a : BitVec 6)
  /-- R416. Launches the graph at a header address under a new generation. -/
  | glaunch (d : BitVec 6) (a : BitVec 6)
  /-- R417. Delivers early the token of an EARLY edge from the core's node. -/
  | gtok (d : BitVec 6) (a : BitVec 6)
  /-- R418. Reads Playmaker's state of a graph or one of its nodes. -/
  | gstat (d : BitVec 6) (a : BitVec 6) (b : BitVec 6)
  /-- R419. Cancels a node's cone or a whole running graph. -/
  | gcancel (d : BitVec 6) (a : BitVec 6) (b : BitVec 6)
  /-- R392. Waits for an instance or round of a barrier to complete or be abandoned, with acquire at group scope. -/
  | barw (d : BitVec 6) (a : BitVec 6) (b : BitVec 6)
  /-- R393. Pins the round that new pins of a Whistle see and returns it. -/
  | vpin (d : BitVec 6) (a : BitVec 6)
  /-- R394. Releases the core's pin of a Whistle after its reads through the pin land. -/
  | vunpin (a : BitVec 6)
  /-- R353. Reads a bucket's state, counts of complete and short chunks and duplicates. -/
  | bkqry (d : BitVec 6) (a : BitVec 6)
  /-- R435. Reads a walk request and enqueues the walk at its start Caddie. -/
  | walk (d : BitVec 6) (a : BitVec 6)
  /-- R452. Reads this package's rank, member state, group state and generation of a group. -/
  | grprank (d : BitVec 6) (a : BitVec 6)
  /-- R454. Sends a semaphore increment to a core of a group member's catcher gang after its releases complete. -/
  | rsig (a : BitVec 6) (b : BitVec 6)
  /-- R310. Translates an address as a plain read and reports kind, size, home and cause without faulting. -/
  | pgqry (d : BitVec 6) (a : BitVec 6)
  /-- R69. An S prefix supplying higher immediate bits to the next S word. -/
  | extS (imm : BitVec 18)
  /-- R181. ad := aa + ab, wrapping. -/
  | aadd (d : BitVec 5) (a : BitVec 5) (b : BitVec 5)
  /-- R181. ad := aa − ab, wrapping. -/
  | asub (d : BitVec 5) (a : BitVec 5) (b : BitVec 5)
  /-- R181. ad := low 64 bits of aa × ab. -/
  | amul (d : BitVec 5) (a : BitVec 5) (b : BitVec 5)
  /-- R181. ad := aa AND ab. -/
  | aand (d : BitVec 5) (a : BitVec 5) (b : BitVec 5)
  /-- R181. ad := aa OR ab. -/
  | aor (d : BitVec 5) (a : BitVec 5) (b : BitVec 5)
  /-- R181. ad := aa shifted left by ab[5:0]. -/
  | ashl (d : BitVec 5) (a : BitVec 5) (b : BitVec 5)
  /-- R181. ad := aa shifted right arithmetically by ab[5:0]. -/
  | ashr (d : BitVec 5) (a : BitVec 5) (b : BitVec 5)
  /-- R181. ad := aa + sign-extended immediate. -/
  | aaddi (d : BitVec 5) (a : BitVec 5) (imm : BitVec 6)
  /-- R181. ad := sign-extended immediate. -/
  | aldi (d : BitVec 5) (imm : BitVec 12)
  /-- R181. ad := signed minimum of aa and ab. -/
  | amin (d : BitVec 5) (a : BitVec 5) (b : BitVec 5)
  /-- R181. ad := signed maximum of aa and ab. -/
  | amax (d : BitVec 5) (a : BitVec 5) (b : BitVec 5)
  /-- R182. Loads 8 bytes of scratchpad into ad. -/
  | ald (d : BitVec 5) (a : BitVec 5) (imm : BitVec 6)
  /-- R182. Stores ad to 8 bytes of scratchpad. -/
  | ast (d : BitVec 5) (a : BitVec 5) (imm : BitVec 6)
  /-- R183. Performs an indivisible scratchpad read-modify-write with the operation held in ad. -/
  | aatom (d : BitVec 5) (a : BitVec 5) (b : BitVec 5)
  /-- R183. Indivisibly compares and swaps a scratchpad doubleword. -/
  | acas (d : BitVec 5) (a : BitVec 5) (b : BitVec 5)
  /-- R188. Reads and checks a stream descriptor, enters its footprint and scoreboard range and binds it to a slot. -/
  | bind (d : BitVec 4) (a : BitVec 5)
  /-- R191. Restarts a bound stream with a new BASE, moving its footprint. -/
  | rebind (d : BitVec 4) (a : BitVec 5)
  /-- R192. Ends a stream, draining an out-stream and releasing its footprint. -/
  | unbind (d : BitVec 4)
  /-- R193. Stalls A until an out-stream's queued entries are written at core scope. -/
  | sdrain (d : BitVec 4)
  /-- R194. Advances a stream's position by a number of entries. -/
  | sskip (d : BitVec 4) (a : BitVec 5)
  /-- R195. Reads a stream slot's state into ad. -/
  | sstat (d : BitVec 5) (a : BitVec 4)
  /-- R203. Reads and checks an unfold descriptor and binds it to the unfold unit. -/
  | ufold (a : BitVec 5)
  /-- R198. Ties a ring to a global pattern as a load-mode or store-mode subscription. -/
  | subs (d : BitVec 3) (a : BitVec 5) (b : BitVec 1)
  /-- R200. Returns a load-mode ring slot or hands over a store-mode slot. -/
  | sret (d : BitVec 3)
  /-- R197. Configures a scratchpad ring, or ends it with a count of 0. -/
  | ringcfg (d : BitVec 3) (a : BitVec 5) (b : BitVec 5)
  /-- R161. A adds count to a semaphore with release at core scope. -/
  | sigA (sem : BitVec 4) (count : BitVec 14)
  /-- R161. A waits on and subtracts from a semaphore with acquire at core scope. -/
  | waitA (sem : BitVec 4) (count : BitVec 14)
  /-- R157. A pops its inbound value FIFO into an a register. -/
  | getsA (d : BitVec 5)
  /-- R157. A pushes an a register toward S. -/
  | putsA (a : BitVec 5)
  /-- R69. An A prefix supplying higher immediate bits to the next A word. -/
  | extA (imm : BitVec 18)
  /-- R208. Sets V's element type, rounding, saturation, governing mask and zeroing. -/
  | vcfg (imm : BitVec 17)
  /-- R226. Copies each active element. -/
  | vmov (d : VDst) (a : VSrc)
  /-- R226. Writes element 0 of the source to each active element. -/
  | vbcast (d : VDst) (a : VSrc)
  /-- R215. Element-wise sum, rounded once. -/
  | vadd (d : VDst) (a : VSrc) (b : VSrc)
  /-- R215. Element-wise difference, rounded once. -/
  | vsub (d : VDst) (a : VSrc) (b : VSrc)
  /-- R215. Element-wise product, rounded once. -/
  | vmul (d : VDst) (a : VSrc) (b : VSrc)
  /-- R215. Element-wise a × b + d with one rounding. -/
  | vfma (d : BitVec 5) (a : VSrc) (b : VSrc)
  /-- R217. Element-wise minimum. -/
  | vmin (d : VDst) (a : VSrc) (b : VSrc)
  /-- R217. Element-wise maximum. -/
  | vmax (d : VDst) (a : VSrc) (b : VSrc)
  /-- R217. Element-wise magnitude. -/
  | vabs (d : VDst) (a : VSrc)
  /-- R217. Element-wise negation. -/
  | vneg (d : VDst) (a : VSrc)
  /-- R217. Correctly rounded element-wise division. -/
  | vdiv (d : VDst) (a : VSrc) (b : VSrc)
  /-- R217. Correctly rounded element-wise square root. -/
  | vsqrt (d : VDst) (a : VSrc)
  /-- R217. Correctly rounded element-wise reciprocal. -/
  | vrcp (d : VDst) (a : VSrc)
  /-- R217. Correctly rounded element-wise reciprocal square root. -/
  | vrsq (d : VDst) (a : VSrc)
  /-- R217. Correctly rounded element-wise 2^a. -/
  | vexp2 (d : VDst) (a : VSrc)
  /-- R217. Correctly rounded element-wise log2 a. -/
  | vlog2 (d : VDst) (a : VSrc)
  /-- R216. Element-wise integer sum saturated to the type's range. -/
  | vadds (d : VDst) (a : VSrc) (b : VSrc)
  /-- R216. High half of each integer element product. -/
  | vmulh (d : VDst) (a : VSrc) (b : VSrc)
  /-- R218. Element-wise bitwise AND. -/
  | vand (d : VDst) (a : VSrc) (b : VSrc)
  /-- R218. Element-wise bitwise OR. -/
  | vor (d : VDst) (a : VSrc) (b : VSrc)
  /-- R218. Element-wise bitwise XOR. -/
  | vxor (d : VDst) (a : VSrc) (b : VSrc)
  /-- R218. Element-wise integer left shift. -/
  | vshl (d : VDst) (a : VSrc) (b : VSrc)
  /-- R218. Element-wise logical right shift. -/
  | vshr (d : VDst) (a : VSrc) (b : VSrc)
  /-- R218. Element-wise arithmetic right shift. -/
  | vsra (d : VDst) (a : VSrc) (b : VSrc)
  /-- R219. Writes a mask of element-wise equality. -/
  | vceq (d : BitVec 3) (a : VSrc) (b : VSrc)
  /-- R219. Writes a mask of element-wise inequality. -/
  | vcne (d : BitVec 3) (a : VSrc) (b : VSrc)
  /-- R219. Writes a mask of element-wise less-than. -/
  | vclt (d : BitVec 3) (a : VSrc) (b : VSrc)
  /-- R219. Writes a mask of element-wise less-or-equal. -/
  | vcle (d : BitVec 3) (a : VSrc) (b : VSrc)
  /-- R220. Selects each element from a or b by the governing mask. -/
  | vsel (d : VDst) (a : VSrc) (b : VSrc)
  /-- R220. Writes a one-hot class code for each active float element. -/
  | vclass (d : VDst) (a : VSrc)
  /-- R223. Converts each element in place between paired types of equal width. -/
  | vcvt (d : VDst) (a : VSrc) (sel : BitVec 4)
  /-- R225. Narrows a register group with reciprocal scale and optional clip into one register. -/
  | vcvtq (d : VDst) (a : VIn) (sel : BitVec 6)
  /-- R224. Widens one narrow register exactly into a group of wide registers. -/
  | vwiden (d : VDst) (a : VIn) (sel : BitVec 4)
  /-- R225. Rounds a group of wide registers into one narrow register. -/
  | vnarrow (d : VDst) (a : VIn) (sel : BitVec 5)
  /-- R213. Sets the stochastic-rounding SEED, STEP and IDX from k registers. -/
  | vsrnd (d : BitVec 4) (a : BitVec 4) (b : BitVec 4)
  /-- R227. Compresses the active elements to the front. -/
  | vcomp (d : VDst) (a : VSrc)
  /-- R227. Expands leading elements into the active positions. -/
  | vexpd (d : VDst) (a : VSrc)
  /-- R228. Slides elements up by one, filling element 0 from a k register. -/
  | vslup (d : VDst) (a : VSrc) (b : BitVec 4)
  /-- R228. Slides elements down by one, filling the last from a k register. -/
  | vsldn (d : VDst) (a : VSrc) (b : BitVec 4)
  /-- R229. Gathers elements of a by indices in b. -/
  | vperm (d : VDst) (a : VSrc) (b : VSrc)
  /-- R230. Transposes a register read as rows of C elements. -/
  | vxpose (d : VDst) (a : VSrc) (b : BitVec 4)
  /-- R227. Writes in each element the count of set mask bits below it. -/
  | viota (d : VDst)
  /-- R231. Sums all lanes by a fixed pairwise tree into element 0. -/
  | vrsum (d : VDst) (a : VSrc)
  /-- R231. Reduces all lanes by maximum into element 0. -/
  | vrmax (d : VDst) (a : VSrc)
  /-- R231. Reduces all lanes by minimum into element 0. -/
  | vrmin (d : VDst) (a : VSrc)
  /-- R231. Writes the left-to-right running sum in every element. -/
  | vscan (d : VDst) (a : VSrc)
  /-- R221. md := ma AND mb over all 1,024 bits. -/
  | mand (d : BitVec 3) (a : BitVec 3) (b : BitVec 3)
  /-- R221. md := ma OR mb. -/
  | mor (d : BitVec 3) (a : BitVec 3) (b : BitVec 3)
  /-- R221. md := ma XOR mb. -/
  | mxor (d : BitVec 3) (a : BitVec 3) (b : BitVec 3)
  /-- R221. md := NOT ma. -/
  | mnot (d : BitVec 3) (a : BitVec 3)
  /-- R221. kd := count of set bits among the first n of ma. -/
  | mpop (d : BitVec 4) (a : BitVec 3)
  /-- R221. kd := lowest set bit index of ma below n, or n. -/
  | mfirst (d : BitVec 4) (a : BitVec 3)
  /-- R221. Sets mask bits in the range from ka up to kb. -/
  | mset (d : BitVec 3) (a : BitVec 4) (b : BitVec 4)
  /-- R232. kd := element kb of a register or queue head. -/
  | vtok (d : BitVec 4) (a : VIn) (b : BitVec 4)
  /-- R232. kd := ka + kb, wrapping. -/
  | kadd (d : BitVec 4) (a : BitVec 4) (b : BitVec 4)
  /-- R232. kd := ka + sign-extended immediate. -/
  | kaddi (d : BitVec 4) (a : BitVec 4) (imm : BitVec 6)
  /-- R232. kd := sign-extended immediate. -/
  | kldi (d : BitVec 4) (imm : BitVec 12)
  /-- R232. kd := ka. -/
  | kmov (d : BitVec 4) (a : BitVec 4)
  /-- R161. V adds count to a semaphore with release at core scope. -/
  | sigV (sem : BitVec 4) (count : BitVec 14)
  /-- R161. V waits on and subtracts from a semaphore with acquire at core scope. -/
  | waitV (sem : BitVec 4) (count : BitVec 14)
  /-- R157. V pops its inbound value FIFO into a k register. -/
  | getsV (d : BitVec 4)
  /-- R157. V pushes a k register toward S. -/
  | putsV (a : BitVec 4)
  /-- R69. A V prefix supplying higher immediate bits to the next V word. -/
  | extV (imm : BitVec 18)
  /-- R239. Fills a stationary slot north-loaded, one source row per output column, from an in-queue. -/
  | mldn (d : BitVec 1) (a : BitVec 3) (ft : BitVec 5)
  /-- R239. Fills a stationary slot west-loaded, one source row per reduction index, from an in-queue. -/
  | mldw (d : BitVec 1) (a : BitVec 3) (ft : BitVec 5)
  /-- R240. Selects the stationary slot that later steps read. -/
  | msel (d : BitVec 1)
  /-- R241. Enters a matrix step accumulating A × W into a tile. -/
  | mstep (d : BitVec 4) (koff : BitVec 6) (ft : BitVec 5)
  /-- R241. Enters a matrix step writing A × W into a tile from zero. -/
  | mstepz (d : BitVec 4) (koff : BitVec 6) (ft : BitVec 5)
  /-- R244. Sets a tile to +0 and its step count to 0. -/
  | mzero (d : BitVec 4)
  /-- R245. Converts a tile by a format-table entry and pushes it to an out-queue. -/
  | mwb (d : BitVec 2) (a : BitVec 4) (ft : BitVec 5)
  /-- R247. Pushes an unconverted snapshot of a tile and its step count. -/
  | mpeek (d : BitVec 2) (a : BitVec 4) (b : BitVec 3)
  /-- R248. Writes a format-table entry from an h register. -/
  | mftab (ft : BitVec 5) (a : BitVec 3)
  /-- R248. Reads a format-table entry into an h register. -/
  | mftabR (ft : BitVec 5) (a : BitVec 3)
  /-- R244. Scales a tile by an fp32 factor. -/
  | mscl (d : BitVec 4) (a : BitVec 4) (b : BitVec 3)
  /-- R250. Arms the chain with a semaphore and adds to its remaining count. -/
  | mchain (sem : BitVec 4) (count : BitVec 14)
  /-- R252. Selects the current rotating stage. -/
  | mstage (stg : BitVec 3)
  /-- R252. Configures rotating stage predicates over a loop level with a depth. -/
  | mstageCfg (dm1 : BitVec 3) (lvl : BitVec 2)
  /-- R244. Adds two tiles element-wise. -/
  | macc (d : BitVec 4) (a : BitVec 4) (b : BitVec 4)
  /-- R244. Transposes a tile. -/
  | mtrz (d : BitVec 4) (a : BitVec 4)
  /-- R249. hd := ha + hb, wrapping. -/
  | mhadd (d : BitVec 3) (a : BitVec 3) (b : BitVec 3)
  /-- R161. M adds count to a semaphore with release at core scope. -/
  | sigM (sem : BitVec 4) (count : BitVec 14)
  /-- R161. M waits on and subtracts from a semaphore with acquire at core scope. -/
  | waitM (sem : BitVec 4) (count : BitVec 14)
  /-- R157. M pops its inbound value FIFO into an h register. -/
  | getsM (d : BitVec 3)
  /-- R157. M pushes an h register toward S. -/
  | putsM (a : BitVec 3)
  /-- R69. An M prefix supplying higher immediate bits to the next M word. -/
  | extM (imm : BitVec 18)
  /-- R272. Submits a job card from scratchpad to the X engine and returns its ticket. -/
  | xjob (d : BitVec 4) (a : BitVec 4)
  /-- R272. Submits a job card from global memory to the X engine and returns its ticket. -/
  | xjobg (d : BitVec 4) (a : BitVec 4)
  /-- R275. Cancels a WAITING card by ticket. -/
  | xcancel (d : BitVec 4) (a : BitVec 4)
  /-- R276. Reads the state of a card by ticket. -/
  | xstat (d : BitVec 4) (a : BitVec 4)
  /-- R271. xd := xa + xb, wrapping. -/
  | xadd (d : BitVec 4) (a : BitVec 4) (b : BitVec 4)
  /-- R271. xd := xa + sign-extended immediate. -/
  | xaddi (d : BitVec 4) (a : BitVec 4) (imm : BitVec 6)
  /-- R271. xd := sign-extended immediate. -/
  | xldi (d : BitVec 4) (imm : BitVec 12)
  /-- R161. X adds count to a semaphore with release at core scope. -/
  | sigX (sem : BitVec 4) (count : BitVec 14)
  /-- R161. X waits on and subtracts from a semaphore with acquire at core scope. -/
  | waitX (sem : BitVec 4) (count : BitVec 14)
  /-- R157. X pops its inbound value FIFO into an x register. -/
  | getsX (d : BitVec 4)
  /-- R157. X pushes an x register toward S. -/
  | putsX (a : BitVec 4)
  /-- R69. An X prefix supplying higher immediate bits to the next X word. -/
  | extX (imm : BitVec 18)
  /-- R146. Sets a branch register to the PB word's address plus the offset. -/
  | pb (d : BitVec 2) (imm : BitVec 12)
  /-- R147. S decides and broadcasts a branch on a flag, and every engine branches to a branch register when true. -/
  | br (d : BitVec 2) (a : BitVec 3)
  /-- R147. As BR, branching when the flag is false. -/
  | brn (d : BitVec 2) (a : BitVec 3)
  /-- R148. Pushes the return address and jumps to a branch register. -/
  | call (d : BitVec 2)
  /-- R149. Opens a loop level over the following words with a count from an S register, broadcast as a decision. -/
  | loop (d : BitVec 2) (a : BitVec 6) (imm : BitVec 6)
  /-- R149. Opens a loop level over the following words with an immediate count. -/
  | loopi (d : BitVec 2) (len : BitVec 6) (imm : BitVec 6)
  /-- R151. On a true broadcast decision, closes a loop level and the levels opened after it and leaves the body. -/
  | breakl (d : BitVec 2) (a : BitVec 3)
  /-- R69. A broadcast prefix supplying higher immediate bits to the next B word in every engine. -/
  | extB (imm : BitVec 18)
  /-- R431. Reads 8n bytes at the cursor plus an offset into REC, forwarding the walk when they lie in another stack. -/
  | rd (off : BitVec 17) (n : BitVec 5)
  /-- R430. Compares the key with REC words into CC. -/
  | cmpk (w : BitVec 5)
  /-- R430. Compares one REC word with a general register into CC. -/
  | cmpg (g : BitVec 3) (w : BitVec 5)
  /-- R429. Extracts a bit field of a REC word into a general register. -/
  | getf (g : BitVec 3) (l : BitVec 6) (sh : BitVec 6) (w : BitVec 5)
  /-- R430. Takes one step, setting the cursor from a REC word. -/
  | next (w : BitVec 5)
  /-- R430. Takes one step, setting the cursor from the REC word a general register names. -/
  | nextG (g : BitVec 3)
  /-- R430. Advances the cursor by the key's hash modulo a register times a stride. -/
  | hash (g : BitVec 3) (stride : BitVec 22)
  /-- R429. Adds a signed immediate to a general register. -/
  | addg (g : BitVec 3) (imm : BitVec 22)
  /-- R429. ANDs a general register with a sign-extended immediate. -/
  | andg (g : BitVec 3) (imm : BitVec 22)
  /-- R429. Jumps to a rule. -/
  | jmp (t : BitVec 8)
  /-- R429. Jumps when CC is EQ. -/
  | jeq (t : BitVec 8)
  /-- R429. Jumps when CC is not EQ. -/
  | jne (t : BitVec 8)
  /-- R429. Jumps when CC is LT. -/
  | jlt (t : BitVec 8)
  /-- R429. Ends the walk FOUND, returning 8n bytes of REC. -/
  | emit (n : BitVec 5)
  /-- R429. Ends the walk FOUND with a register's value and optionally REC bytes. -/
  | emitg (g : BitVec 3) (r : BitVec 1) (n : BitVec 5)
  /-- R429. Ends the walk FAULTED with TRAPI and the code. -/
  | fail (c : BitVec 22)
  /-- R473. Power good and reset release (a cold reset) start the steward cores from hub ROM and move the package from OFF to VERIFY. -/
  | powerGood
  /-- R473. Removal of power returns the package to OFF, and the scorecard and all state are lost. -/
  | powerLoss
  /-- R477. Verification of the configuration record and firmware ends, moving the package to SELFTEST, or to SAFE on failure, and assigning logical core numbers. -/
  | verifyComplete
  /-- R480. Self-test of every enabled unit ends, moving the package to TRAIN, or to SAFE with a record naming the failing unit. -/
  | selftestComplete
  /-- R480. Training of every channel of every stack in service ends, moving the package to READY, or to SAFE with a record naming the failing channel. -/
  | trainComplete
  /-- R28. The steward cores find package or die power above its limit and throttle issue on the compute dies concerned. -/
  | powerThrottle
  /-- R485. A junction temperature above 95 °C makes the steward cores throttle the cores of the compute die concerned, the adjacent die, or every die. -/
  | thermalThrottle
  /-- R485. A die that falls below 92 °C has its throttle lifted. -/
  | throttleLift
  /-- R485. A junction temperature of 105 °C stops every unit, makes every context DEAD without a dump, writes a thermal record and enters SAFE. -/
  | thermalTrip
  /-- R483. An SPDM 1.2 request arriving through PCIe DOE is answered with the package's measurements. -/
  | spdmRequest
  /-- R482. The STATUS mailbox command returns the stacks in service, the ports up and the firmware bank version. -/
  | status
  /-- R92. The CREATE mailbox command checks a 64-byte context descriptor image and copies it into descriptor TGT, which becomes NEW. -/
  | create
  /-- R96. The LOAD mailbox command checks the page-table root and the whole region table and moves the context from NEW to LOADED. -/
  | load
  /-- R96. The RELOAD mailbox command checks and replaces the region table of a context between LOADED and SAVED, taking effect between dispatch decisions. -/
  | reload
  /-- R93. The SUSPEND mailbox command stops dispatch for the context, sends pre-emption requests to its cores and moves it to PREEMPTING. -/
  | suspend
  /-- R93. The RESUME mailbox command returns a SAVED context to RUNNABLE, so that saved gangs and stack kernels re-enter dispatch. -/
  | resume
  /-- R93. The DESTROY mailbox command moves a NEW, LOADED or SAVED context to DEAD, releasing its units without a dump. -/
  | destroy
  /-- R482. The DEBUG mailbox command sets DBGCTL and DBGVEC for every later attempt of one node of a graph. -/
  | debug
  /-- R308. The TLBI mailbox command invalidates translations of context TGT over the range given, as the TLBI instruction does. -/
  | mailboxTlbi
  /-- R483. The KEYLOAD mailbox command loads key slot TGT from within an SPDM secure session. -/
  | keyload
  /-- R483. The KEYGRANT mailbox command grants key slot TGT to a context. -/
  | keygrant
  /-- R483. The KEYREVOKE mailbox command revokes a key slot, refused while the slot is granted to a context that is not DEAD. -/
  | keyrevoke
  /-- R457. The SETID mailbox command writes the package's fabric identity and, the first time after a cold reset, starts training on every port. -/
  | setid
  /-- R461. The PSTAT mailbox command returns the state, lanes, route generation, peer and error counts of a port. -/
  | pstat
  /-- R460. The PFENCE mailbox command stops routing new flits to a port, which becomes FENCED once its replay buffer is acknowledged. -/
  | pfence
  /-- R460. The PUNFENCE mailbox command returns a FENCED port to UP or DEGRADED, or starts training a DOWN port. -/
  | punfence
  /-- R464. The RTLOAD mailbox command copies a route table from host memory as generation g + 1. -/
  | rtload
  /-- R464. The RTUSE mailbox command makes generation g + 1 the generation for sourcing and sends a GFENCE on every carrying port. -/
  | rtuse
  /-- R482. The SCREAD mailbox command copies scorecard records from a given sequence number into a host buffer. -/
  | scread
  /-- R484. The MARK mailbox command writes a marker record holding ARG to the scorecard. -/
  | mark
  /-- R478. The CFGUPDATE mailbox command verifies a new configuration record and passes it to the board controller for the next cold reset. -/
  | cfgupdate
  /-- R478. The FWUPDATE mailbox command writes and verifies the firmware bank not in use. -/
  | fwupdate
  /-- R475. The WARMRESET mailbox command returns the package to VERIFY, keeping the scorecard, PKGID and record and making every context DEAD. -/
  | warmreset
  /-- R479. The ARBCOMMIT mailbox command raises an anti-rollback count to the version of the record or bank in force. -/
  | arbcommit
  /-- R482. A mailbox start with an unassigned command code ends with RESULT BADARG. -/
  | mailboxUnknownOp
  /-- R287. A write to a mailbox or launch-window register that has no behaviour of its own is stored or ignored. -/
  | registerWrite
  /-- R287. An 8-byte write at launch-page offset 0x000 launches the graph whose header it names, as GLAUNCH does. -/
  | launchGraph
  /-- R357. A 16-byte write at launch-page offset 0x008 hands a stack-kernel handle and parameter block to the base-die dispatcher. -/
  | launchStackKernel
  /-- R287. An 8-byte write at launch-page offset 0x018 submits a job card to Playmaker from region 0, as QPUSH does. -/
  | launchCard
  /-- R396. A graph launch that waited for room among the 4,096 running graphs is made, in arrival order, when room appears. -/
  | graphLaunchDeferred
  /-- R281. Playmaker selects the queued card of highest level and smallest deadline, reserves or grants its resources, and dispatches later cards to unneeded resources. -/
  | dispatchDecision
  /-- R104. The gang leader's quantum count passes QUANTUM, making the gang liable to yield to a card of the same level. -/
  | quantumExpiry
  /-- R122. Text and argument window are written on every core of the gang, which enters RUNNING with the launch state, or FAULTED when a read faulted. -/
  | kernelLoadComplete
  /-- R122. Every engine of a stopping gang has stopped and every accepted X job is DONE, so the kernel is FAULTED and the cause chain goes to Playmaker. -/
  | kernelStopped
  /-- R105. The save engine finishes writing a core's PHINT image, the core is freed, and the gang is SAVED when every core has saved or ended. -/
  | coreSaveComplete
  /-- R108. Every core of a regranted gang is restored from its image and all PCs resume after the PHINT's bitmaps. -/
  | kernelRestoreComplete
  /-- R124. A core whose engines have executed END and whose operations, streams, X jobs and RSIGs are finished has ended, and the kernel ends with its last core. -/
  | coreEnd
  /-- R110. A WDOG expiry (no PHINT after a request, no word executed, a cancellation or the monitor) force-saves the core and ends the attempt. -/
  | watchdogForcedSave
  /-- R113. A core that does not stop within 2^20 cycles of a forced stop is reset alone and its context goes to DUMPING. -/
  | coreHang
  /-- R93. A PREEMPTING context whose cores, CE runs, walks and hub cards have all stopped becomes SAVED. -/
  | contextSaved
  /-- R112. A DUMPING context finishes writing its dump area and becomes DEAD, releasing its units. -/
  | dumpComplete
  /-- R97. A request that waited WDOG for footprint entries faults with FOOTPRINT-FULL. -/
  | footprintWaitTimeout
  /-- R318. A global access completes and its ephemeral footprint is released, with write-back and removal from the hub table. -/
  | accessComplete
  /-- R306. The hub walker completes a page-table walk for a translation miss and returns the leaf or the failure to its requesters. -/
  | pageTableWalk
  /-- R162. The semaphore unit applies a pending increment and satisfies waiting WAITs in the order they began to wait. -/
  | semaphoreChangeApply
  /-- R130. When a signalling word's effects are complete at core scope, each of its ring reservations becomes a token. -/
  | ringTokenRelease
  /-- R237. A step or tile operation of the array sequence completes into its tile, and a chained step signals its semaphore. -/
  | arrayStepComplete
  /-- R250. An X job with CHEN set has its last operand byte landed, and its chain word waits in the chain slot. -/
  | chainWordReady
  /-- R250. The array takes the word from the chain slot into the array sequence as a step while the chain is armed, decrementing the remaining count. -/
  | chainedStep
  /-- R189. An in-stream fetches the next entry of its pattern ahead of pops and delivers it to its in-queue, poisoning failed lanes. -/
  | streamFetch
  /-- R190. An out-stream takes an entry from its out-queue and writes it to the next entry of its pattern, as accumulate-writes when ACC is set. -/
  | streamWrite
  /-- R199. The base-die loader starts reading the next tile of a load-mode subscription into a FREE slot. -/
  | loaderTileFill
  /-- R199. Every byte of a tile lands in its slot, which becomes FULL and signals SEMN. -/
  | loaderTileFull
  /-- R199. The base-die storer finishes writing a handed-over tile, and the slot returns to OPEN and signals SEMN. -/
  | storerTileStored
  /-- R270. Every semaphore in a WAITING card's WAITSEM reaches 1, so one is taken from each and the card starts RUNNING. -/
  | cardWaitsemMet
  /-- R266. A card has read and written everything and released its footprints, so DONE is written and SIGSEM signalled, and a node's tokens follow. -/
  | cardDone
  /-- R274. A running card meets a fault, writes DONE with FAULT, releases its footprints and traps its core or faults its node. -/
  | cardFault
  /-- R402. A RETRYING node whose attempt's footprints have all left the hub table returns to READY with its card queued anew. -/
  | nodeRetryReady
  /-- R409. A CANCEL_PENDING node's executor stops or its card reaches DONE, so the node reports its ranges, releases its footprints and becomes CANCELLED. -/
  | nodeCancelComplete
  /-- R267. A COPY card moves elements unchanged over its extents, permutation and edges. -/
  | copy
  /-- R267. A COPYCVT card converts elements with scale, clip and one rounding into the destination format. -/
  | copycvt
  /-- R267. A FILL card writes the pad value to every destination element. -/
  | fill
  /-- R341. An ACCW card sends its source as chunks of accumulate-writes to a bucket or to memory. -/
  | accw
  /-- R448. An RWRITE card sends its source bytes to a rank's receive window. -/
  | rwrite
  /-- R448. An RACCW card sends accumulate-writes to a rank's receive window, tagged with the sender's rank and generation. -/
  | raccw
  /-- R302. An MCAST card writes its source bytes to all four replicas, ordered by the replica sequencer, or to a rank's replicas. -/
  | mcast
  /-- R436. A WALKJ card reads a walk request and enqueues the walk, reaching DONE when the walk ends. -/
  | walkj
  /-- R357. An SKLAUNCH card launches a stack kernel with a parameter block. -/
  | sklaunch
  /-- R283. A KLAUNCH card names a kernel's text, window and gang size to be granted and loaded. -/
  | klaunch
  /-- R270. A SIGNAL card does nothing but wait and signal, reaching DONE as soon as its wait is met. -/
  | signal
  /-- R343. A CE receives a whole chunk of accumulate-writes and refuses, discards, adds, applies or holds it by the bucket's state and order. -/
  | accChunkArrive
  /-- R345. A held RANK or TREE arrival becomes applicable once lower ranks or its sibling subtree are final, and is combined into the chunk. -/
  | heldArrivalApply
  /-- R356. The base-die dispatcher checks a stack-kernel image and parameters and enters the launch's footprints, or refuses the launch. -/
  | stackKernelLaunch
  /-- R359. A CE selects a waiting run by level, weight and launch order and starts or resumes it on one chunk. -/
  | ceRunStart
  /-- R371. Every CE of a launch has ended and every write is complete, so its footprints are released and the bucket is PUBLISHED or the card DONE. -/
  | stackKernelLaunchEnd
  /-- R384. A FLIPPING Whistle whose next frame is OPEN flips: SEQ rises, new pins see the new round, and waiting BARWs are released. -/
  | whistleFlip
  /-- R427. A queued walk takes a free Caddie slot at its first start, loads its image, enters its domain footprint and initialises its registers. -/
  | walkSlotStart
  /-- R427. A forwarded walk arrives at the target Caddie and waits QUEUED. -/
  | walkForwardArrive
  /-- R431. A forwarded walk takes a slot at its new Caddie, reloads its image and makes the pending read. -/
  | walkResume
  /-- R432. A NEXT finds STEPS equal to LIMIT, and the walk ends as its policy directs. -/
  | walkStepLimit
  /-- R429. NRUN would exceed 256, so the rule does not execute and the walk ends FAULTED with WATCHDOG. -/
  | walkWatchdog
  /-- R460. Training of a port ends, leaving it UP, DEGRADED or DOWN by the lanes found good and the partner's identity. -/
  | portTrainingDone
  /-- R460. A lost lane or uncorrectable FEC codewords move a carrying port to RETRAINING. -/
  | portLaneLoss
  /-- R468. Signal lost on every lane takes a port DOWN, discarding its replay buffer and reporting each lost flit. -/
  | portSignalLoss
  /-- R460. A flit that fails 16 replays moves its port to RETRAINING. -/
  | replayLimit
  /-- R460. Every flit in a fencing port's replay buffer is acknowledged, and the port becomes FENCED. -/
  | portFenced
  /-- R463. A received flit for another package is checked, tagged with a newer generation where due, and routed to a usable port or dropped. -/
  | flitForward
  /-- R467. A flit that waited for a usable port is routed again when a port changes state or a remap gives it one. -/
  | flitRouteRetry
  /-- R463. A flit that has waited 2^24 hub cycles at one hop is dropped and reported with reason 4. -/
  | flitHoldTimeout
  /-- R459. A CTRL flit returns receive credits of a virtual channel to the hop's transmitter. -/
  | creditReturn
  /-- R462. A CTRL replay request makes the transmitter resend every unacknowledged flit in LSEQ order. -/
  | replayRequest
  /-- R449. A CARD flit of a remote card arrives, and the receiver checks its tag, window and page and enters its footprint or refuses it. -/
  | remoteCardReceive
  /-- R469. A DATA flit's sectors are written, accumulated or multicast at their offsets, then their sector checks are verified. -/
  | remoteDataReceive
  /-- R448. A REPORT flit of DONE or refusal from the receiver ends the sender's remote card. -/
  | remoteCardReport
  /-- R468. A REPORT of a lost flit faults its card with LINK, or ends the attempt of the core whose RSIG was lost. -/
  | linkLossReport
  /-- R454. A REPORT flit from the target hub acknowledges an RSIG, which is no longer outstanding. -/
  | rsigAck
  /-- R347. A cancellation notice of a sender's RACCW card poisons every matching ARMED or FILLING bucket at the target. -/
  | raccwCancelNotice
  /-- R454. A SIGNAL flit increments a semaphore of the catcher's gang, or is held until a CATCH. -/
  | remoteSignalReceive
  /-- R442. A group hello carrying GEN arrives from a binding member and is answered. -/
  | groupHello
  /-- R442. A hello answer arrives, and the group becomes ACTIVE when every ACTIVE member has answered, or RESHAPING for a joiner. -/
  | groupHelloAnswer
  /-- R444. A member confirms it has installed PGEN, and the package commits the new generation when all have confirmed. -/
  | groupConfirm
  /-- R445. A generation fence from a member arrives, ending acceptance of its cards tagged with the old generation. -/
  | groupCommitFence
  /-- R446. A withdrawal notice of a rank is applied: buckets and barriers remove it and cards from and to it are refused. -/
  | groupWithdrawNotice
  /-- R443. A member's acknowledgement of a withdrawal arrives at the hub that tracks it. -/
  | groupWithdrawAck
  /-- R443. A WITHDRAWING rank with every acknowledgement in and no card still running becomes GONE. -/
  | memberGone
  /-- R468. A lost group message is sent again by the hub until the member answers or is withdrawn. -/
  | groupMessageResend
  /-- R378. An arrival of another package at a group barrier arrives tagged with its instance and is applied by the barrier rules. -/
  | barrierArrivalMessage
  /-- R465. A GFENCE of the current generation arrives on a port, which then accepts only that generation, and the old table is dropped once all ports are fenced. -/
  | gfenceReceive
  /-- R155. The S NOP occupies one issue slot and acts only on its ring bits. -/
  | nop
  /-- R121. Leaves the monitor, restoring S's PC and releasing the other engines at their EPCs. -/
  | eret
  /-- R379. BARV ARRIVE counts a party's arrival at a group barrier, or records it for the next instance. -/
  | barvArrive
  /-- R381. BARV WITHDRAW stops expecting a party of a package-local barrier from its earliest unarrived instance. -/
  | barvWithdraw
  /-- R381. BARV JOIN makes a party of a package-local barrier expected from the next instance. -/
  | barvJoin
  /-- R391. BARV BIND checks a barrier control block and binds barrier number n to it. -/
  | barvBind
  /-- R377. BARV UNBIND writes the final state, unbinds the barrier and releases waiting BARWs with 1. -/
  | barvUnbind
  /-- R384. BARV REARM returns a WITHHELD Whistle to COUNTING with COUNT and CAUSE cleared. -/
  | barvRearm
  /-- R379. BARV ABANDON abandons the current instance of a group barrier. -/
  | barvAbandon
  /-- R352. BKARM ARM checks and registers a bucket, enters its ACC footprint and makes it ARMED. -/
  | bkarmArm
  /-- R340. BKARM DISARM drops a bucket's registration and records and returns it to IDLE, or keeps it PUBLISHED. -/
  | bkarmDisarm
  /-- R347. BKARM REMOVE removes a rank from every chunk of an ARMED or FILLING bucket. -/
  | bkarmRemove
  /-- R453. GRPGEN READ returns a bound group's generation. -/
  | grpgenRead
  /-- R453. GRPGEN BIND checks a group control block and member table, binds the group and sends hellos. -/
  | grpgenBind
  /-- R442. GRPGEN DISSOLVE dissolves the group, abandoning its barriers and faulting its remote cards. -/
  | grpgenDissolve
  /-- R446. GRPGEN WITHDRAW marks a rank WITHDRAWING and sends a notice to every member. -/
  | grpgenWithdraw
  /-- R444. GRPGEN RESHAPE installs a new member-table image as pending generation GEN + 1. -/
  | grpgenReshape
  /-- R454. GRPGEN CATCH makes the running kernel the group's catcher and delivers held signals. -/
  | grpgenCatch
  /-- R454. GRPGEN DROP ends the kernel's catch of the group. -/
  | grpgenDrop
  /-- R155. An A NOP occupying one A slot and acting on its ring bits. -/
  | nopA
  /-- R155. A V NOP occupying one V slot and acting on its ring bits. -/
  | nopV
  /-- R155. An M NOP occupying one M slot and acting on its ring bits. -/
  | nopM
  /-- R155. An X NOP occupying one X slot and acting on its ring bits. -/
  | nopX
  /-- R155. A broadcast NOP executed by every engine with no effect. -/
  | nopB
  /-- R148. Closes the frame's loop levels and returns to the popped address. -/
  | ret
  /-- R152. Holds every engine until all five reach it, then passes them together. -/
  | sync
  /-- R105. A rendezvous that, with PREQ set, completes operations and has the save engine write the live state. -/
  | phint
  /-- R154. Stops the executing engine. -/
  | endW
  /-- R429. Ends the walk MISS. -/
  | miss
  /-- R64. A core word with the reserved tag 0b101 or 0b110, or with an opcode unallocated in its tag, raises ILLEGAL at the executing engine's PC. -/
  | illegalWord
  /-- R462. An IDLE flit received on a hop advances the expected LSEQ and its LACK releases acknowledged flits from the transmitter's replay buffer. -/
  | idleFlitReceive
  /-- R462. A flit whose FCRC fails or whose LSEQ is out of order, or that carries a reserved TYPE, VC or bit, is discarded at the hop, with a replay request or a protocol-error count. -/
  | flitCheckDiscard
  deriving DecidableEq, Repr

end Sys2Proof
end

