-- ==== Sys2Proof/WellFormed.lean ====
section
/-!
DEFINITION. Well-formed instructions: the operand limits of R59, R63, R78 and R145 that the operand types do not
already hold. Every instruction the decoder gives is well-formed; an event is well-formed as it stands.
-/
namespace Sys2Proof

/-- The MOD bits an A-slot operation defines (Table 13.4); every other MOD bit must be zero (R78). -/
def AOp.modMask (op : AOp) : BitVec 6 :=
  match op with
  | .ecmp => 0x03
  | .ebc => 0x0F
  | .econst => 0x3F
  | .esrb => 0x01
  | .esr8 => 0x0F
  | .ecvt => 0x03
  | .epack => 0x1F
  | .ernd => 0x1F
  | .eidx => 0x03
  | _ => 0

/-- R78, word by word. -/
def CeWord.wf (w : CeWord) : Bool := w.md &&& ~~~ w.aop.modMask == 0

/-- Format selectors run to 19 (R59); a LOOPI body has at least one word (R145). -/
def Instr.wf (i : Instr) : Bool :=
  match i with
  | .mldn _ _ ft => decide (ft.toNat < 20)
  | .mldw _ _ ft => decide (ft.toNat < 20)
  | .mstep _ _ ft => decide (ft.toNat < 20)
  | .mstepz _ _ ft => decide (ft.toNat < 20)
  | .mwb _ _ ft => decide (ft.toNat < 20)
  | .mftab ft _ => decide (ft.toNat < 20)
  | .mftabR ft _ => decide (ft.toNat < 20)
  | .loopi _ len _ => decide (len.toNat ≠ 0)
  | .ceWord w => w.wf
  | _ => true

end Sys2Proof
end

