-- ==== Sys2Proof/Decode.lean ====
section
/-!
DEFINITION. Decoding and encoding of core words (R61 to R75), channel-engine words (R76, R77) and Caddie rule words
(R79). Decoding is total: what is no instruction is refused by name (`none`, or `illegalWord` at the machine).
-/
namespace Sys2Proof

/-! ## Register classes and selectors (Tables 3.3 and 3.4) -/

def reg1 (c : BitVec 6) : Option (BitVec 1) := if c.toNat < 2 then some (c.setWidth 1) else none
def reg2 (c : BitVec 6) : Option (BitVec 2) := if c.toNat < 4 then some (c.setWidth 2) else none
def reg3 (c : BitVec 6) : Option (BitVec 3) := if c.toNat < 8 then some (c.setWidth 3) else none
def reg4 (c : BitVec 6) : Option (BitVec 4) := if c.toNat < 16 then some (c.setWidth 4) else none
def reg5 (c : BitVec 6) : Option (BitVec 5) := if c.toNat < 32 then some (c.setWidth 5) else none
/-- A format selector, 0 to 19 (R59). -/
def regFt (c : BitVec 6) : Option (BitVec 5) := if c.toNat < 20 then some (c.setWidth 5) else none
/-- A LOOPI body length, 1 to 63 (R145). -/
def regLen (c : BitVec 6) : Option (BitVec 6) := if c.toNat = 0 then none else some c

/-- A source selector (Table 3.4). -/
def selSrc (c : BitVec 6) : Option VSrc :=
  if c.toNat < 32 then some (.v (c.setWidth 5))
  else if c.toNat < 40 then some (.iq (c.setWidth 3))
  else if c.toNat < 44 then none
  else if c.toNat < 60 then some (.k ((c - 44#6).setWidth 4))
  else none

/-- A source selector that refuses k registers. -/
def selIn (c : BitVec 6) : Option VIn :=
  if c.toNat < 32 then some (.v (c.setWidth 5))
  else if c.toNat < 40 then some (.iq (c.setWidth 3))
  else none

/-- A destination selector. -/
def selDst (c : BitVec 6) : Option VDst :=
  if c.toNat < 32 then some (.v (c.setWidth 5))
  else if c.toNat < 40 then none
  else if c.toNat < 44 then some (.oq (c.setWidth 2))
  else none

/-- A k selector, codes 44 to 59 (R228). -/
def selK (c : BitVec 6) : Option (BitVec 4) :=
  if c.toNat < 44 then none else if c.toNat < 60 then some ((c - 44#6).setWidth 4) else none

def selIq (c : BitVec 6) : Option (BitVec 3) :=
  if c.toNat < 32 then none else if c.toNat < 40 then some (c.setWidth 3) else none

def selOq (c : BitVec 6) : Option (BitVec 2) :=
  if c.toNat < 40 then none else if c.toNat < 44 then some (c.setWidth 2) else none

/-- The code of a k selector. -/
def codeK (n : BitVec 4) : BitVec 6 := n.setWidth 6 + 44#6
def codeIq (n : BitVec 3) : BitVec 6 := n.setWidth 6 + 32#6
def codeOq (n : BitVec 2) : BitVec 6 := n.setWidth 6 + 40#6

/-- The code of a source selector. -/
def VSrc.code : VSrc → BitVec 6
  | .v n => n.setWidth 6
  | .iq n => codeIq n
  | .k n => codeK n

def VIn.code : VIn → BitVec 6
  | .v n => n.setWidth 6
  | .iq n => codeIq n

def VDst.code : VDst → BitVec 6
  | .v n => n.setWidth 6
  | .oq n => codeOq n

/-! ## Fields -/

/-- A field that must be zero (R6, R71). -/
def isZero (c : BitVec 6) : Option Unit := if c = 0 then some () else none
/-- Bits `n` and above of a field must be zero. -/
def hiZero (c : BitVec 6) (n : Nat) : Option Unit := if c >>> n = 0 then some () else none
/-- B words and EXT carry no ring bits (R61, R63, R70). -/
def ringZero (r : Ring) : Option Unit := if r = Ring.zero then some () else none

def imm12 (a b : BitVec 6) : BitVec 12 := a ++ b
def imm18 (d a b : BitVec 6) : BitVec 18 := d ++ a ++ b
/-- Field sem of the SEM format (Table 3.2). -/
def semOf (d : BitVec 6) : BitVec 4 := d.extractLsb' 2 4
/-- Field count of the SEM format. -/
def cntOf (d a b : BitVec 6) : BitVec 14 := d.extractLsb' 0 2 ++ a ++ b

def tagOf (w : BitVec 32) : BitVec 3 := w.extractLsb' 29 3
/-- DESIGN CHOICE (notes/assumptions/12.md). -/
def ringOf (w : BitVec 32) : Ring := ⟨w.getLsbD 28, w.getLsbD 27, w.getLsbD 26, w.getLsbD 25⟩
def opOf (w : BitVec 32) : BitVec 7 := w.extractLsb' 18 7
def dOf (w : BitVec 32) : BitVec 6 := w.extractLsb' 12 6
def aOf (w : BitVec 32) : BitVec 6 := w.extractLsb' 6 6
def bOf (w : BitVec 32) : BitVec 6 := w.extractLsb' 0 6

/-- A core word from its fields (Table 3.1). -/
def mkWord (tag : BitVec 3) (r : Ring) (op : BitVec 7) (d a b : BitVec 6) : BitVec 32 :=
  tag ++ BitVec.ofBool r.wb ++ BitVec.ofBool r.wf ++ BitVec.ofBool r.sb ++ BitVec.ofBool r.sf ++ op ++ d ++ a ++ b

/-! ## Core words -/

/-- The words of tag S (Tables 3.6 to 3.11): the opcode and its operands, none when the word is not an instruction. -/
def decodeS (r : Ring) (op : BitVec 7) (d a b : BitVec 6) : Option Instr :=
  match op.toNat with
  | 0x00 => (do isZero d; isZero a; isZero b; some (.nop))
  | 0x01 => some (.add d a b)
  | 0x02 => some (.sub d a b)
  | 0x03 => some (.mul d a b)
  | 0x04 => some (.mulh d a b)
  | 0x05 => some (.mulhn d a b)
  | 0x06 => some (.div d a b)
  | 0x07 => some (.divn d a b)
  | 0x08 => some (.rem d a b)
  | 0x09 => some (.remn d a b)
  | 0x0A => some (.and d a b)
  | 0x0B => some (.or d a b)
  | 0x0C => some (.xor d a b)
  | 0x0D => some (.shl d a b)
  | 0x0E => some (.shr d a b)
  | 0x0F => some (.sra d a b)
  | 0x10 => some (.min d a b)
  | 0x11 => some (.max d a b)
  | 0x12 => some (.minn d a b)
  | 0x13 => some (.maxn d a b)
  | 0x14 => (do isZero b; some (.clz d a))
  | 0x15 => (do isZero b; some (.popc d a))
  | 0x18 => some (.addi d a b)
  | 0x19 => some (.andi d a b)
  | 0x1A => some (.ori d a b)
  | 0x1B => some (.xori d a b)
  | 0x1C => some (.shli d a b)
  | 0x1D => some (.shri d a b)
  | 0x1E => some (.srai d a b)
  | 0x1F => some (.ldi d (imm12 a b))
  | 0x20 => (do let d ← reg3 d; some (.ceq d a b))
  | 0x21 => (do let d ← reg3 d; some (.cne d a b))
  | 0x22 => (do let d ← reg3 d; some (.clt d a b))
  | 0x23 => (do let d ← reg3 d; some (.cle d a b))
  | 0x24 => (do let d ← reg3 d; some (.cltn d a b))
  | 0x25 => (do let d ← reg3 d; some (.clen d a b))
  | 0x26 => (do let d ← reg3 d; let a ← reg3 a; let b ← reg3 b; some (.fand d a b))
  | 0x27 => (do let d ← reg3 d; let a ← reg3 a; let b ← reg3 b; some (.forF d a b))
  | 0x28 => (do isZero b; let d ← reg3 d; let a ← reg3 a; some (.fnot d a))
  | 0x29 => (do let b ← reg3 b; some (.cmov d a b))
  | 0x2A => (do isZero b; let a ← reg3 a; some (.ftos d a))
  | 0x30 => some (.fadd32 d a b)
  | 0x31 => some (.fsub32 d a b)
  | 0x32 => some (.fmul32 d a b)
  | 0x33 => some (.ffma32 d a b)
  | 0x34 => some (.fdiv32 d a b)
  | 0x35 => (do isZero b; some (.fsqrt32 d a))
  | 0x36 => some (.fmin32 d a b)
  | 0x37 => some (.fmax32 d a b)
  | 0x38 => some (.fcmp32 d a b)
  | 0x39 => some (.fcvt d a b)
  | 0x40 => some (.gld d a b)
  | 0x41 => some (.gst d a b)
  | 0x42 => some (.glds d a b)
  | 0x43 => (do isZero d; isZero b; some (.chk a))
  | 0x44 => some (.arg d (imm12 a b))
  | 0x45 => some (.gatom d a b)
  | 0x46 => some (.gcas d a b)
  | 0x48 => (do isZero d; isZero b; some (.puta a))
  | 0x49 => (do isZero d; isZero b; some (.putv a))
  | 0x4A => (do isZero d; isZero b; some (.putm a))
  | 0x4B => (do isZero d; isZero b; some (.putx a))
  | 0x4C => (do isZero a; isZero b; some (.geta d))
  | 0x4D => (do isZero a; isZero b; some (.getv d))
  | 0x4E => (do isZero a; isZero b; some (.getm d))
  | 0x4F => (do isZero a; isZero b; some (.getx d))
  | 0x50 => some (.sig (semOf d) (cntOf d a b))
  | 0x51 => some (.wait (semOf d) (cntOf d a b))
  | 0x52 => some (.semrd d (imm12 a b))
  | 0x54 => (do isZero d; isZero a; hiZero b 4; some (.fence (b.extractLsb' 2 2) (b.extractLsb' 0 2)))
  | 0x56 => some (.fpclm d a b)
  | 0x57 => (do isZero d; isZero b; some (.fprel a))
  | 0x58 => some (.csrr d (imm12 a b))
  | 0x59 => some (.csrw d (imm12 a b))
  | 0x5A => some (.trap (imm18 d a b))
  | 0x5B => (do isZero a; isZero b; some (.cycle d))
  | 0x5C => some (.dbg (imm18 d a b))
  | 0x5D => (do isZero d; isZero a; isZero b; some (.eret))
  | 0x5F => (do isZero d; some (.tlbi a b))
  | 0x60 => (do isZero b; some (.qpush d a))
  | 0x61 => (do isZero b; some (.glaunch d a))
  | 0x62 => (do isZero b; some (.gtok d a))
  | 0x63 => some (.gstat d a b)
  | 0x64 => some (.gcancel d a b)
  | 0x65 => some (.barvArrive)
  | 0x66 => some (.barw d a b)
  | 0x67 => (do isZero b; some (.vpin d a))
  | 0x68 => (do isZero d; isZero b; some (.vunpin a))
  | 0x69 => some (.bkarmArm)
  | 0x6A => (do isZero b; some (.bkqry d a))
  | 0x6B => (do isZero b; some (.walk d a))
  | 0x6C => (do isZero b; some (.grprank d a))
  | 0x6D => (do isZero d; some (.rsig a b))
  | 0x6E => (do isZero b; some (.pgqry d a))
  | 0x6F => some (.grpgenRead)
  | 0x7F => (do ringZero r; some (.extS (imm18 d a b)))
  | _ => none

/-- The words of tag A (Tables 3.6 to 3.11): the opcode and its operands, none when the word is not an instruction. -/
def decodeA (r : Ring) (op : BitVec 7) (d a b : BitVec 6) : Option Instr :=
  match op.toNat with
  | 0x00 => (do isZero d; isZero a; isZero b; some (.nopA))
  | 0x01 => (do let d ← reg5 d; let a ← reg5 a; let b ← reg5 b; some (.aadd d a b))
  | 0x02 => (do let d ← reg5 d; let a ← reg5 a; let b ← reg5 b; some (.asub d a b))
  | 0x03 => (do let d ← reg5 d; let a ← reg5 a; let b ← reg5 b; some (.amul d a b))
  | 0x04 => (do let d ← reg5 d; let a ← reg5 a; let b ← reg5 b; some (.aand d a b))
  | 0x05 => (do let d ← reg5 d; let a ← reg5 a; let b ← reg5 b; some (.aor d a b))
  | 0x06 => (do let d ← reg5 d; let a ← reg5 a; let b ← reg5 b; some (.ashl d a b))
  | 0x07 => (do let d ← reg5 d; let a ← reg5 a; let b ← reg5 b; some (.ashr d a b))
  | 0x08 => (do let d ← reg5 d; let a ← reg5 a; some (.aaddi d a b))
  | 0x09 => (do let d ← reg5 d; some (.aldi d (imm12 a b)))
  | 0x0A => (do let d ← reg5 d; let a ← reg5 a; let b ← reg5 b; some (.amin d a b))
  | 0x0B => (do let d ← reg5 d; let a ← reg5 a; let b ← reg5 b; some (.amax d a b))
  | 0x10 => (do let d ← reg5 d; let a ← reg5 a; some (.ald d a b))
  | 0x11 => (do let d ← reg5 d; let a ← reg5 a; some (.ast d a b))
  | 0x12 => (do let d ← reg5 d; let a ← reg5 a; let b ← reg5 b; some (.aatom d a b))
  | 0x13 => (do let d ← reg5 d; let a ← reg5 a; let b ← reg5 b; some (.acas d a b))
  | 0x18 => (do isZero b; let d ← reg4 d; let a ← reg5 a; some (.bind d a))
  | 0x19 => (do isZero b; let d ← reg4 d; let a ← reg5 a; some (.rebind d a))
  | 0x1A => (do isZero a; isZero b; let d ← reg4 d; some (.unbind d))
  | 0x1B => (do isZero a; isZero b; let d ← reg4 d; some (.sdrain d))
  | 0x1C => (do isZero b; let d ← reg4 d; let a ← reg5 a; some (.sskip d a))
  | 0x1D => (do isZero b; let d ← reg5 d; let a ← reg4 a; some (.sstat d a))
  | 0x20 => (do isZero d; isZero b; let a ← reg5 a; some (.ufold a))
  | 0x21 => (do let d ← reg3 d; let a ← reg5 a; let b ← reg1 b; some (.subs d a b))
  | 0x22 => (do isZero a; isZero b; let d ← reg3 d; some (.sret d))
  | 0x23 => (do let d ← reg3 d; let a ← reg5 a; let b ← reg5 b; some (.ringcfg d a b))
  | 0x50 => some (.sigA (semOf d) (cntOf d a b))
  | 0x51 => some (.waitA (semOf d) (cntOf d a b))
  | 0x52 => (do isZero a; isZero b; let d ← reg5 d; some (.getsA d))
  | 0x53 => (do isZero d; isZero b; let a ← reg5 a; some (.putsA a))
  | 0x7F => (do ringZero r; some (.extA (imm18 d a b)))
  | _ => none

/-- The words of tag V (Tables 3.6 to 3.11): the opcode and its operands, none when the word is not an instruction. -/
def decodeV (r : Ring) (op : BitVec 7) (d a b : BitVec 6) : Option Instr :=
  match op.toNat with
  | 0x00 => (do isZero d; isZero a; isZero b; some (.nopV))
  | 0x01 => (do hiZero d 5; some (.vcfg ((imm18 d a b).setWidth 17)))
  | 0x02 => (do isZero b; let d ← selDst d; let a ← selSrc a; some (.vmov d a))
  | 0x03 => (do isZero b; let d ← selDst d; let a ← selSrc a; some (.vbcast d a))
  | 0x04 => (do let d ← selDst d; let a ← selSrc a; let b ← selSrc b; some (.vadd d a b))
  | 0x05 => (do let d ← selDst d; let a ← selSrc a; let b ← selSrc b; some (.vsub d a b))
  | 0x06 => (do let d ← selDst d; let a ← selSrc a; let b ← selSrc b; some (.vmul d a b))
  | 0x07 => (do let d ← reg5 d; let a ← selSrc a; let b ← selSrc b; some (.vfma d a b))
  | 0x08 => (do let d ← selDst d; let a ← selSrc a; let b ← selSrc b; some (.vmin d a b))
  | 0x09 => (do let d ← selDst d; let a ← selSrc a; let b ← selSrc b; some (.vmax d a b))
  | 0x0A => (do isZero b; let d ← selDst d; let a ← selSrc a; some (.vabs d a))
  | 0x0B => (do isZero b; let d ← selDst d; let a ← selSrc a; some (.vneg d a))
  | 0x0C => (do let d ← selDst d; let a ← selSrc a; let b ← selSrc b; some (.vdiv d a b))
  | 0x0D => (do isZero b; let d ← selDst d; let a ← selSrc a; some (.vsqrt d a))
  | 0x0E => (do isZero b; let d ← selDst d; let a ← selSrc a; some (.vrcp d a))
  | 0x0F => (do isZero b; let d ← selDst d; let a ← selSrc a; some (.vrsq d a))
  | 0x10 => (do isZero b; let d ← selDst d; let a ← selSrc a; some (.vexp2 d a))
  | 0x11 => (do isZero b; let d ← selDst d; let a ← selSrc a; some (.vlog2 d a))
  | 0x12 => (do let d ← selDst d; let a ← selSrc a; let b ← selSrc b; some (.vadds d a b))
  | 0x13 => (do let d ← selDst d; let a ← selSrc a; let b ← selSrc b; some (.vmulh d a b))
  | 0x14 => (do let d ← selDst d; let a ← selSrc a; let b ← selSrc b; some (.vand d a b))
  | 0x15 => (do let d ← selDst d; let a ← selSrc a; let b ← selSrc b; some (.vor d a b))
  | 0x16 => (do let d ← selDst d; let a ← selSrc a; let b ← selSrc b; some (.vxor d a b))
  | 0x17 => (do let d ← selDst d; let a ← selSrc a; let b ← selSrc b; some (.vshl d a b))
  | 0x18 => (do let d ← selDst d; let a ← selSrc a; let b ← selSrc b; some (.vshr d a b))
  | 0x19 => (do let d ← selDst d; let a ← selSrc a; let b ← selSrc b; some (.vsra d a b))
  | 0x20 => (do let d ← reg3 d; let a ← selSrc a; let b ← selSrc b; some (.vceq d a b))
  | 0x21 => (do let d ← reg3 d; let a ← selSrc a; let b ← selSrc b; some (.vcne d a b))
  | 0x22 => (do let d ← reg3 d; let a ← selSrc a; let b ← selSrc b; some (.vclt d a b))
  | 0x23 => (do let d ← reg3 d; let a ← selSrc a; let b ← selSrc b; some (.vcle d a b))
  | 0x24 => (do let d ← selDst d; let a ← selSrc a; let b ← selSrc b; some (.vsel d a b))
  | 0x25 => (do isZero b; let d ← selDst d; let a ← selSrc a; some (.vclass d a))
  | 0x28 => (do let d ← selDst d; let a ← selSrc a; let b ← reg4 b; some (.vcvt d a b))
  | 0x29 => (do let d ← selDst d; let a ← selIn a; some (.vcvtq d a b))
  | 0x2A => (do let d ← selDst d; let a ← selIn a; let b ← reg4 b; some (.vwiden d a b))
  | 0x2B => (do let d ← selDst d; let a ← selIn a; let b ← reg5 b; some (.vnarrow d a b))
  | 0x2C => (do let d ← reg4 d; let a ← reg4 a; let b ← reg4 b; some (.vsrnd d a b))
  | 0x30 => (do isZero b; let d ← selDst d; let a ← selSrc a; some (.vcomp d a))
  | 0x31 => (do isZero b; let d ← selDst d; let a ← selSrc a; some (.vexpd d a))
  | 0x32 => (do let d ← selDst d; let a ← selSrc a; let b ← selK b; some (.vslup d a b))
  | 0x33 => (do let d ← selDst d; let a ← selSrc a; let b ← selK b; some (.vsldn d a b))
  | 0x34 => (do let d ← selDst d; let a ← selSrc a; let b ← selSrc b; some (.vperm d a b))
  | 0x35 => (do let d ← selDst d; let a ← selSrc a; let b ← selK b; some (.vxpose d a b))
  | 0x36 => (do isZero a; isZero b; let d ← selDst d; some (.viota d))
  | 0x3C => (do isZero b; let d ← selDst d; let a ← selSrc a; some (.vrsum d a))
  | 0x3D => (do isZero b; let d ← selDst d; let a ← selSrc a; some (.vrmax d a))
  | 0x3E => (do isZero b; let d ← selDst d; let a ← selSrc a; some (.vrmin d a))
  | 0x3F => (do isZero b; let d ← selDst d; let a ← selSrc a; some (.vscan d a))
  | 0x40 => (do let d ← reg3 d; let a ← reg3 a; let b ← reg3 b; some (.mand d a b))
  | 0x41 => (do let d ← reg3 d; let a ← reg3 a; let b ← reg3 b; some (.mor d a b))
  | 0x42 => (do let d ← reg3 d; let a ← reg3 a; let b ← reg3 b; some (.mxor d a b))
  | 0x43 => (do isZero b; let d ← reg3 d; let a ← reg3 a; some (.mnot d a))
  | 0x44 => (do isZero b; let d ← reg4 d; let a ← reg3 a; some (.mpop d a))
  | 0x45 => (do isZero b; let d ← reg4 d; let a ← reg3 a; some (.mfirst d a))
  | 0x46 => (do let d ← reg3 d; let a ← reg4 a; let b ← reg4 b; some (.mset d a b))
  | 0x48 => (do let d ← reg4 d; let a ← selIn a; let b ← reg4 b; some (.vtok d a b))
  | 0x4A => (do let d ← reg4 d; let a ← reg4 a; let b ← reg4 b; some (.kadd d a b))
  | 0x4B => (do let d ← reg4 d; let a ← reg4 a; some (.kaddi d a b))
  | 0x4C => (do let d ← reg4 d; some (.kldi d (imm12 a b)))
  | 0x4D => (do isZero b; let d ← reg4 d; let a ← reg4 a; some (.kmov d a))
  | 0x50 => some (.sigV (semOf d) (cntOf d a b))
  | 0x51 => some (.waitV (semOf d) (cntOf d a b))
  | 0x52 => (do isZero a; isZero b; let d ← reg4 d; some (.getsV d))
  | 0x53 => (do isZero d; isZero b; let a ← reg4 a; some (.putsV a))
  | 0x7F => (do ringZero r; some (.extV (imm18 d a b)))
  | _ => none

/-- The words of tag M (Tables 3.6 to 3.11): the opcode and its operands, none when the word is not an instruction. -/
def decodeM (r : Ring) (op : BitVec 7) (d a b : BitVec 6) : Option Instr :=
  match op.toNat with
  | 0x00 => (do isZero d; isZero a; isZero b; some (.nopM))
  | 0x01 => (do let d ← reg1 d; let a ← selIq a; let b ← regFt b; some (.mldn d a b))
  | 0x02 => (do let d ← reg1 d; let a ← selIq a; let b ← regFt b; some (.mldw d a b))
  | 0x03 => (do isZero a; isZero b; let d ← reg1 d; some (.msel d))
  | 0x04 => (do let d ← reg4 d; let b ← regFt b; some (.mstep d a b))
  | 0x05 => (do let d ← reg4 d; let b ← regFt b; some (.mstepz d a b))
  | 0x06 => (do isZero a; isZero b; let d ← reg4 d; some (.mzero d))
  | 0x07 => (do let d ← selOq d; let a ← reg4 a; let b ← regFt b; some (.mwb d a b))
  | 0x08 => (do let d ← selOq d; let a ← reg4 a; let b ← reg3 b; some (.mpeek d a b))
  | 0x09 => if b = 1 then (do let d ← regFt d; let a ← reg3 a; some (.mftabR d a)) else (do isZero b; let d ← regFt d; let a ← reg3 a; some (.mftab d a))
  | 0x0A => (do let d ← reg4 d; let a ← reg4 a; let b ← reg3 b; some (.mscl d a b))
  | 0x0B => some (.mchain (semOf d) (cntOf d a b))
  | 0x0C => if d = 32 then (do isZero (d ^^^ 32#6); isZero a; hiZero b 5; some (.mstageCfg (b.extractLsb' 2 3) (b.extractLsb' 0 2))) else (do isZero d; isZero a; hiZero b 3; some (.mstage (b.extractLsb' 0 3)))
  | 0x0D => (do let d ← reg4 d; let a ← reg4 a; let b ← reg4 b; some (.macc d a b))
  | 0x0E => (do isZero b; let d ← reg4 d; let a ← reg4 a; some (.mtrz d a))
  | 0x0F => (do let d ← reg3 d; let a ← reg3 a; let b ← reg3 b; some (.mhadd d a b))
  | 0x50 => some (.sigM (semOf d) (cntOf d a b))
  | 0x51 => some (.waitM (semOf d) (cntOf d a b))
  | 0x52 => (do isZero a; isZero b; let d ← reg3 d; some (.getsM d))
  | 0x53 => (do isZero d; isZero b; let a ← reg3 a; some (.putsM a))
  | 0x7F => (do ringZero r; some (.extM (imm18 d a b)))
  | _ => none

/-- The words of tag X (Tables 3.6 to 3.11): the opcode and its operands, none when the word is not an instruction. -/
def decodeX (r : Ring) (op : BitVec 7) (d a b : BitVec 6) : Option Instr :=
  match op.toNat with
  | 0x00 => (do isZero d; isZero a; isZero b; some (.nopX))
  | 0x01 => (do isZero b; let d ← reg4 d; let a ← reg4 a; some (.xjob d a))
  | 0x02 => (do isZero b; let d ← reg4 d; let a ← reg4 a; some (.xjobg d a))
  | 0x03 => (do isZero b; let d ← reg4 d; let a ← reg4 a; some (.xcancel d a))
  | 0x04 => (do isZero b; let d ← reg4 d; let a ← reg4 a; some (.xstat d a))
  | 0x05 => (do let d ← reg4 d; let a ← reg4 a; let b ← reg4 b; some (.xadd d a b))
  | 0x06 => (do let d ← reg4 d; let a ← reg4 a; some (.xaddi d a b))
  | 0x07 => (do let d ← reg4 d; some (.xldi d (imm12 a b)))
  | 0x50 => some (.sigX (semOf d) (cntOf d a b))
  | 0x51 => some (.waitX (semOf d) (cntOf d a b))
  | 0x52 => (do isZero a; isZero b; let d ← reg4 d; some (.getsX d))
  | 0x53 => (do isZero d; isZero b; let a ← reg4 a; some (.putsX a))
  | 0x7F => (do ringZero r; some (.extX (imm18 d a b)))
  | _ => none

/-- The words of tag B (Tables 3.6 to 3.11): the opcode and its operands, none when the word is not an instruction. -/
def decodeB (r : Ring) (op : BitVec 7) (d a b : BitVec 6) : Option Instr :=
  match op.toNat with
  | 0x00 => (do isZero d; isZero a; isZero b; ringZero r; some (.nopB))
  | 0x01 => (do ringZero r; let d ← reg2 d; some (.pb d (imm12 a b)))
  | 0x02 => (do isZero b; ringZero r; let d ← reg2 d; let a ← reg3 a; some (.br d a))
  | 0x03 => (do isZero b; ringZero r; let d ← reg2 d; let a ← reg3 a; some (.brn d a))
  | 0x04 => (do isZero a; isZero b; ringZero r; let d ← reg2 d; some (.call d))
  | 0x05 => (do isZero d; isZero a; isZero b; ringZero r; some (.ret))
  | 0x06 => (do ringZero r; let d ← reg2 d; some (.loop d a b))
  | 0x07 => (do ringZero r; let d ← reg2 d; let a ← regLen a; some (.loopi d a b))
  | 0x08 => (do isZero b; ringZero r; let d ← reg2 d; let a ← reg3 a; some (.breakl d a))
  | 0x09 => (do isZero d; isZero a; isZero b; ringZero r; some (.sync))
  | 0x0A => (do isZero d; isZero a; isZero b; ringZero r; some (.phint))
  | 0x0B => (do isZero d; isZero a; isZero b; ringZero r; some (.endW))
  | 0x7F => (do ringZero r; some (.extB (imm18 d a b)))
  | _ => none

/-- A core word as an instruction; none when it is no instruction (R64, R71). -/
def decodeCore (w : BitVec 32) : Option Instr :=
  match (tagOf w).toNat with
  | 0 => decodeS (ringOf w) (opOf w) (dOf w) (aOf w) (bOf w)
  | 1 => decodeA (ringOf w) (opOf w) (dOf w) (aOf w) (bOf w)
  | 2 => decodeV (ringOf w) (opOf w) (dOf w) (aOf w) (bOf w)
  | 3 => decodeM (ringOf w) (opOf w) (dOf w) (aOf w) (bOf w)
  | 4 => decodeX (ringOf w) (opOf w) (dOf w) (aOf w) (bOf w)
  | 7 => decodeB (ringOf w) (opOf w) (dOf w) (aOf w) (bOf w)
  | _ => none

/-- Every core word has one meaning: a word that is no instruction is the illegal word (R64, R71). DESIGN CHOICE (notes/assumptions/12.md). DEDUCED (notes/assumptions/13.md). -/
def decodeWord (w : BitVec 32) : Instr := (decodeCore w).getD .illegalWord

/-! ## Channel-engine words (Tables 3.12 and 3.13) -/

def FOp.ofCode (c : BitVec 5) : Option FOp :=
  match c.toNat with
  | 0 => some .fnop | 1 => some .fld | 2 => some .fldw | 3 => some .fldc | _ => none

def FOp.code : FOp → BitVec 5
  | .fnop => 0 | .fld => 1 | .fldw => 2 | .fldc => 3

def AOp.ofCode (c : BitVec 6) : Option AOp :=
  match c.toNat with
  | 0x00 => some .enop | 0x01 => some .eadd | 0x02 => some .esub | 0x03 => some .emul | 0x04 => some .efma
  | 0x05 => some .ediv | 0x06 => some .esqrt | 0x07 => some .ersq | 0x08 => some .emin | 0x09 => some .emax
  | 0x0A => some .eabs | 0x0B => some .eneg | 0x0C => some .esel | 0x0D => some .ecmp | 0x0E => some .emov
  | 0x0F => some .ebc | 0x10 => some .econst | 0x11 => some .esrb | 0x12 => some .esr8 | 0x13 => some .ebmax
  | 0x14 => some .ecvt | 0x15 => some .epack | 0x16 => some .ernd | 0x17 => some .eidx | _ => none

def AOp.code : AOp → BitVec 6
  | .enop => 0x00 | .eadd => 0x01 | .esub => 0x02 | .emul => 0x03 | .efma => 0x04 | .ediv => 0x05
  | .esqrt => 0x06 | .ersq => 0x07 | .emin => 0x08 | .emax => 0x09 | .eabs => 0x0A | .eneg => 0x0B
  | .esel => 0x0C | .ecmp => 0x0D | .emov => 0x0E | .ebc => 0x0F | .econst => 0x10 | .esrb => 0x11
  | .esr8 => 0x12 | .ebmax => 0x13 | .ecvt => 0x14 | .epack => 0x15 | .ernd => 0x16 | .eidx => 0x17

def WOp.ofCode (c : BitVec 4) : Option WOp :=
  match c.toNat with
  | 0 => some .wnop | 1 => some .wst | 2 => some .wstm | 3 => some .wsig | _ => none

def WOp.code : WOp → BitVec 4
  | .wnop => 0 | .wst => 1 | .wstm => 2 | .wsig => 3

/-- A channel-engine word; none where R78's per-word checks but MOD's fail. -/
def decodeCe (w : BitVec 64) : Option CeWord :=
  if w.getLsbD 60 then none
  else do
    let fop ← FOp.ofCode (w.extractLsb' 55 5)
    let aop ← AOp.ofCode (w.extractLsb' 34 6)
    let wop ← WOp.ofCode (w.extractLsb' 12 4)
    some { stop := w.getLsbD 63, lend := w.getLsbD 62, chk := w.getLsbD 61
           fop := fop, fdst := w.extractLsb' 51 4, fap := w.extractLsb' 48 3, fimm := w.extractLsb' 40 8
           aop := aop, ad := w.extractLsb' 30 4, aa := w.extractLsb' 26 4, ab := w.extractLsb' 22 4
           md := w.extractLsb' 16 6, wop := wop, wsrc := w.extractLsb' 8 4, wap := w.extractLsb' 5 3
           wimm := w.extractLsb' 0 5 }

/-- The bits of a channel-engine word. -/
def encodeCe (w : CeWord) : BitVec 64 :=
  BitVec.ofBool w.stop ++ BitVec.ofBool w.lend ++ BitVec.ofBool w.chk ++ 0#1 ++ w.fop.code ++ w.fdst ++ w.fap ++ w.fimm
    ++ w.aop.code ++ w.ad ++ w.aa ++ w.ab ++ w.md ++ w.wop.code ++ w.wsrc ++ w.wap ++ w.wimm

/-! ## Caddie rule words (R79, R429 to R431) -/

/-- The G field of a rule that uses it: codes 8 to 15 are reserved. -/
def ruleG (w : BitVec 32) : Option (BitVec 3) := if w.getLsbD 25 then none else some (w.extractLsb' 22 3)
/-- A rule's bits that must be zero. -/
def ruleZero (w mask : BitVec 32) : Option Unit := if w &&& mask = 0 then some () else none

/-- A rule word as an instruction; none where R80's per-word checks fail. -/
def decodeRule (w : BitVec 32) : Option Instr :=
  match (w.extractLsb' 26 6).toNat with
  | 0x01 => do ruleZero w 0x03C00000; some (.rd (w.extractLsb' 5 17) (w.extractLsb' 0 5))
  | 0x02 => do ruleZero w 0x03FFFFE0; some (.cmpk (w.extractLsb' 0 5))
  | 0x03 => do ruleZero w 0x003FFFE0; let g ← ruleG w; some (.cmpg g (w.extractLsb' 0 5))
  | 0x04 => do
    ruleZero w 0x003E0000; let g ← ruleG w
    some (.getf g (w.extractLsb' 11 6) (w.extractLsb' 5 6) (w.extractLsb' 0 5))
  | 0x05 =>
    if w.getLsbD 5 then do ruleZero w 0x003FFFDF; let g ← ruleG w; some (.nextG g)
    else do ruleZero w 0x03FFFFE0; some (.next (w.extractLsb' 0 5))
  | 0x06 => do let g ← ruleG w; some (.hash g (w.extractLsb' 0 22))
  | 0x07 => do let g ← ruleG w; some (.addg g (w.extractLsb' 0 22))
  | 0x08 => do let g ← ruleG w; some (.andg g (w.extractLsb' 0 22))
  | 0x09 => do ruleZero w 0x03FFFF00; some (.jmp (w.extractLsb' 0 8))
  | 0x0A => do ruleZero w 0x03FFFF00; some (.jeq (w.extractLsb' 0 8))
  | 0x0B => do ruleZero w 0x03FFFF00; some (.jne (w.extractLsb' 0 8))
  | 0x0C => do ruleZero w 0x03FFFF00; some (.jlt (w.extractLsb' 0 8))
  | 0x0D => do ruleZero w 0x03FFFFE0; some (.emit (w.extractLsb' 0 5))
  | 0x0E => do
    ruleZero w 0x003FFFC0; let g ← ruleG w
    some (.emitg g (w.extractLsb' 5 1) (w.extractLsb' 0 5))
  | 0x0F => do ruleZero w 0x03FFFFFF; some .miss
  | 0x10 => do ruleZero w 0x03C00000; some (.fail (w.extractLsb' 0 22))
  | _ => none

/-- The rule word of a Caddie instruction. -/
def encodeRule (i : Instr) : Option (BitVec 32) :=
  match i with
  | .rd off n => some (0x01#6 ++ 0#4 ++ off ++ n)
  | .cmpk w => some (0x02#6 ++ 0#21 ++ w)
  | .cmpg g w => some (0x03#6 ++ 0#1 ++ g ++ 0#17 ++ w)
  | .getf g l sh w => some (0x04#6 ++ 0#1 ++ g ++ 0#5 ++ l ++ sh ++ w)
  | .next w => some (0x05#6 ++ 0#21 ++ w)
  | .nextG g => some (0x05#6 ++ 0#1 ++ g ++ 0#16 ++ 1#1 ++ 0#5)
  | .hash g stride => some (0x06#6 ++ 0#1 ++ g ++ stride)
  | .addg g imm => some (0x07#6 ++ 0#1 ++ g ++ imm)
  | .andg g imm => some (0x08#6 ++ 0#1 ++ g ++ imm)
  | .jmp t => some (0x09#6 ++ 0#18 ++ t)
  | .jeq t => some (0x0A#6 ++ 0#18 ++ t)
  | .jne t => some (0x0B#6 ++ 0#18 ++ t)
  | .jlt t => some (0x0C#6 ++ 0#18 ++ t)
  | .emit n => some (0x0D#6 ++ 0#21 ++ n)
  | .emitg g r n => some (0x0E#6 ++ 0#1 ++ g ++ 0#16 ++ r ++ n)
  | .miss => some (0x0F#6 ++ 0#26)
  | .fail c => some (0x10#6 ++ 0#4 ++ c)
  | _ => none

/-- The word of a core instruction, from the same tables, with its ring bits; none for what is no core word. The
register numbers of BARV, BKARM and GRPGEN stand in the word alone (State.cur.word), not in the instruction: here they are
zero. -/
def encodeCore (r : Ring) (i : Instr) : Option (BitVec 32) :=
  match i with
  | .powerGood => none
  | .powerLoss => none
  | .verifyComplete => none
  | .selftestComplete => none
  | .trainComplete => none
  | .powerThrottle => none
  | .thermalThrottle => none
  | .throttleLift => none
  | .thermalTrip => none
  | .spdmRequest => none
  | .status => none
  | .create => none
  | .load => none
  | .reload => none
  | .suspend => none
  | .resume => none
  | .destroy => none
  | .debug => none
  | .mailboxTlbi => none
  | .keyload => none
  | .keygrant => none
  | .keyrevoke => none
  | .setid => none
  | .pstat => none
  | .pfence => none
  | .punfence => none
  | .rtload => none
  | .rtuse => none
  | .scread => none
  | .mark => none
  | .cfgupdate => none
  | .fwupdate => none
  | .warmreset => none
  | .arbcommit => none
  | .mailboxUnknownOp => none
  | .registerWrite => none
  | .launchGraph => none
  | .launchStackKernel => none
  | .launchCard => none
  | .graphLaunchDeferred => none
  | .dispatchDecision => none
  | .quantumExpiry => none
  | .kernelLoadComplete => none
  | .kernelStopped => none
  | .coreSaveComplete => none
  | .kernelRestoreComplete => none
  | .coreEnd => none
  | .watchdogForcedSave => none
  | .coreHang => none
  | .contextSaved => none
  | .dumpComplete => none
  | .footprintWaitTimeout => none
  | .accessComplete => none
  | .pageTableWalk => none
  | .semaphoreChangeApply => none
  | .ringTokenRelease => none
  | .arrayStepComplete => none
  | .chainWordReady => none
  | .chainedStep => none
  | .streamFetch => none
  | .streamWrite => none
  | .loaderTileFill => none
  | .loaderTileFull => none
  | .storerTileStored => none
  | .cardWaitsemMet => none
  | .cardDone => none
  | .cardFault => none
  | .nodeRetryReady => none
  | .nodeCancelComplete => none
  | .copy => none
  | .copycvt => none
  | .fill => none
  | .accw => none
  | .rwrite => none
  | .raccw => none
  | .mcast => none
  | .walkj => none
  | .sklaunch => none
  | .klaunch => none
  | .signal => none
  | .accChunkArrive => none
  | .heldArrivalApply => none
  | .stackKernelLaunch => none
  | .ceRunStart => none
  | .ceWord .. => none
  | .stackKernelLaunchEnd => none
  | .whistleFlip => none
  | .walkSlotStart => none
  | .walkForwardArrive => none
  | .walkResume => none
  | .walkStepLimit => none
  | .walkWatchdog => none
  | .portTrainingDone => none
  | .portLaneLoss => none
  | .portSignalLoss => none
  | .replayLimit => none
  | .portFenced => none
  | .flitForward => none
  | .flitRouteRetry => none
  | .flitHoldTimeout => none
  | .creditReturn => none
  | .replayRequest => none
  | .remoteCardReceive => none
  | .remoteDataReceive => none
  | .remoteCardReport => none
  | .linkLossReport => none
  | .rsigAck => none
  | .raccwCancelNotice => none
  | .remoteSignalReceive => none
  | .groupHello => none
  | .groupHelloAnswer => none
  | .groupConfirm => none
  | .groupCommitFence => none
  | .groupWithdrawNotice => none
  | .groupWithdrawAck => none
  | .memberGone => none
  | .groupMessageResend => none
  | .barrierArrivalMessage => none
  | .gfenceReceive => none
  | .nop => some (mkWord 0 r 0x00 (0) (0) (0))
  | .add d a b => some (mkWord 0 r 0x01 (d) (a) (b))
  | .sub d a b => some (mkWord 0 r 0x02 (d) (a) (b))
  | .mul d a b => some (mkWord 0 r 0x03 (d) (a) (b))
  | .mulh d a b => some (mkWord 0 r 0x04 (d) (a) (b))
  | .mulhn d a b => some (mkWord 0 r 0x05 (d) (a) (b))
  | .div d a b => some (mkWord 0 r 0x06 (d) (a) (b))
  | .divn d a b => some (mkWord 0 r 0x07 (d) (a) (b))
  | .rem d a b => some (mkWord 0 r 0x08 (d) (a) (b))
  | .remn d a b => some (mkWord 0 r 0x09 (d) (a) (b))
  | .and d a b => some (mkWord 0 r 0x0A (d) (a) (b))
  | .or d a b => some (mkWord 0 r 0x0B (d) (a) (b))
  | .xor d a b => some (mkWord 0 r 0x0C (d) (a) (b))
  | .shl d a b => some (mkWord 0 r 0x0D (d) (a) (b))
  | .shr d a b => some (mkWord 0 r 0x0E (d) (a) (b))
  | .sra d a b => some (mkWord 0 r 0x0F (d) (a) (b))
  | .min d a b => some (mkWord 0 r 0x10 (d) (a) (b))
  | .max d a b => some (mkWord 0 r 0x11 (d) (a) (b))
  | .minn d a b => some (mkWord 0 r 0x12 (d) (a) (b))
  | .maxn d a b => some (mkWord 0 r 0x13 (d) (a) (b))
  | .clz d a => some (mkWord 0 r 0x14 (d) (a) (0))
  | .popc d a => some (mkWord 0 r 0x15 (d) (a) (0))
  | .addi d a imm => some (mkWord 0 r 0x18 (d) (a) (imm))
  | .andi d a imm => some (mkWord 0 r 0x19 (d) (a) (imm))
  | .ori d a imm => some (mkWord 0 r 0x1A (d) (a) (imm))
  | .xori d a imm => some (mkWord 0 r 0x1B (d) (a) (imm))
  | .shli d a imm => some (mkWord 0 r 0x1C (d) (a) (imm))
  | .shri d a imm => some (mkWord 0 r 0x1D (d) (a) (imm))
  | .srai d a imm => some (mkWord 0 r 0x1E (d) (a) (imm))
  | .ldi d imm => some (mkWord 0 r 0x1F (d) (imm.extractLsb' 6 6) (imm.extractLsb' 0 6))
  | .ceq d a b => some (mkWord 0 r 0x20 (d.setWidth 6) (a) (b))
  | .cne d a b => some (mkWord 0 r 0x21 (d.setWidth 6) (a) (b))
  | .clt d a b => some (mkWord 0 r 0x22 (d.setWidth 6) (a) (b))
  | .cle d a b => some (mkWord 0 r 0x23 (d.setWidth 6) (a) (b))
  | .cltn d a b => some (mkWord 0 r 0x24 (d.setWidth 6) (a) (b))
  | .clen d a b => some (mkWord 0 r 0x25 (d.setWidth 6) (a) (b))
  | .fand d a b => some (mkWord 0 r 0x26 (d.setWidth 6) (a.setWidth 6) (b.setWidth 6))
  | .forF d a b => some (mkWord 0 r 0x27 (d.setWidth 6) (a.setWidth 6) (b.setWidth 6))
  | .fnot d a => some (mkWord 0 r 0x28 (d.setWidth 6) (a.setWidth 6) (0))
  | .cmov d a b => some (mkWord 0 r 0x29 (d) (a) (b.setWidth 6))
  | .ftos d a => some (mkWord 0 r 0x2A (d) (a.setWidth 6) (0))
  | .fadd32 d a b => some (mkWord 0 r 0x30 (d) (a) (b))
  | .fsub32 d a b => some (mkWord 0 r 0x31 (d) (a) (b))
  | .fmul32 d a b => some (mkWord 0 r 0x32 (d) (a) (b))
  | .ffma32 d a b => some (mkWord 0 r 0x33 (d) (a) (b))
  | .fdiv32 d a b => some (mkWord 0 r 0x34 (d) (a) (b))
  | .fsqrt32 d a => some (mkWord 0 r 0x35 (d) (a) (0))
  | .fmin32 d a b => some (mkWord 0 r 0x36 (d) (a) (b))
  | .fmax32 d a b => some (mkWord 0 r 0x37 (d) (a) (b))
  | .fcmp32 d a b => some (mkWord 0 r 0x38 (d) (a) (b))
  | .fcvt d a imm => some (mkWord 0 r 0x39 (d) (a) (imm))
  | .gld d a imm => some (mkWord 0 r 0x40 (d) (a) (imm))
  | .gst d a imm => some (mkWord 0 r 0x41 (d) (a) (imm))
  | .glds d a imm => some (mkWord 0 r 0x42 (d) (a) (imm))
  | .chk a => some (mkWord 0 r 0x43 (0) (a) (0))
  | .arg d imm => some (mkWord 0 r 0x44 (d) (imm.extractLsb' 6 6) (imm.extractLsb' 0 6))
  | .gatom d a b => some (mkWord 0 r 0x45 (d) (a) (b))
  | .gcas d a b => some (mkWord 0 r 0x46 (d) (a) (b))
  | .puta a => some (mkWord 0 r 0x48 (0) (a) (0))
  | .putv a => some (mkWord 0 r 0x49 (0) (a) (0))
  | .putm a => some (mkWord 0 r 0x4A (0) (a) (0))
  | .putx a => some (mkWord 0 r 0x4B (0) (a) (0))
  | .geta d => some (mkWord 0 r 0x4C (d) (0) (0))
  | .getv d => some (mkWord 0 r 0x4D (d) (0) (0))
  | .getm d => some (mkWord 0 r 0x4E (d) (0) (0))
  | .getx d => some (mkWord 0 r 0x4F (d) (0) (0))
  | .sig sem count => some (mkWord 0 r 0x50 ((sem ++ count.extractLsb' 12 2)) (count.extractLsb' 6 6) (count.extractLsb' 0 6))
  | .wait sem count => some (mkWord 0 r 0x51 ((sem ++ count.extractLsb' 12 2)) (count.extractLsb' 6 6) (count.extractLsb' 0 6))
  | .semrd d imm => some (mkWord 0 r 0x52 (d) (imm.extractLsb' 6 6) (imm.extractLsb' 0 6))
  | .fence kind scope => some (mkWord 0 r 0x54 (0) (0) ((0#2 ++ kind ++ scope)))
  | .fpclm d a b => some (mkWord 0 r 0x56 (d) (a) (b))
  | .fprel a => some (mkWord 0 r 0x57 (0) (a) (0))
  | .csrr d imm => some (mkWord 0 r 0x58 (d) (imm.extractLsb' 6 6) (imm.extractLsb' 0 6))
  | .csrw d imm => some (mkWord 0 r 0x59 (d) (imm.extractLsb' 6 6) (imm.extractLsb' 0 6))
  | .trap imm => some (mkWord 0 r 0x5A (imm.extractLsb' 12 6) (imm.extractLsb' 6 6) (imm.extractLsb' 0 6))
  | .cycle d => some (mkWord 0 r 0x5B (d) (0) (0))
  | .dbg imm => some (mkWord 0 r 0x5C (imm.extractLsb' 12 6) (imm.extractLsb' 6 6) (imm.extractLsb' 0 6))
  | .eret => some (mkWord 0 r 0x5D (0) (0) (0))
  | .tlbi a b => some (mkWord 0 r 0x5F (0) (a) (b))
  | .qpush d a => some (mkWord 0 r 0x60 (d) (a) (0))
  | .glaunch d a => some (mkWord 0 r 0x61 (d) (a) (0))
  | .gtok d a => some (mkWord 0 r 0x62 (d) (a) (0))
  | .gstat d a b => some (mkWord 0 r 0x63 (d) (a) (b))
  | .gcancel d a b => some (mkWord 0 r 0x64 (d) (a) (b))
  | .barvArrive => some (mkWord 0 r 0x65 0 0 0)
  | .barvWithdraw => none
  | .barvJoin => none
  | .barvBind => none
  | .barvUnbind => none
  | .barvRearm => none
  | .barvAbandon => none
  | .barw d a b => some (mkWord 0 r 0x66 (d) (a) (b))
  | .vpin d a => some (mkWord 0 r 0x67 (d) (a) (0))
  | .vunpin a => some (mkWord 0 r 0x68 (0) (a) (0))
  | .bkarmArm => some (mkWord 0 r 0x69 0 0 0)
  | .bkarmDisarm => none
  | .bkarmRemove => none
  | .bkqry d a => some (mkWord 0 r 0x6A (d) (a) (0))
  | .walk d a => some (mkWord 0 r 0x6B (d) (a) (0))
  | .grprank d a => some (mkWord 0 r 0x6C (d) (a) (0))
  | .rsig a b => some (mkWord 0 r 0x6D (0) (a) (b))
  | .pgqry d a => some (mkWord 0 r 0x6E (d) (a) (0))
  | .grpgenRead => some (mkWord 0 r 0x6F 0 0 0)
  | .grpgenBind => none
  | .grpgenDissolve => none
  | .grpgenWithdraw => none
  | .grpgenReshape => none
  | .grpgenCatch => none
  | .grpgenDrop => none
  | .extS imm => some (mkWord 0 Ring.zero 0x7F (imm.extractLsb' 12 6) (imm.extractLsb' 6 6) (imm.extractLsb' 0 6))
  | .nopA => some (mkWord 1 r 0x00 (0) (0) (0))
  | .aadd d a b => some (mkWord 1 r 0x01 (d.setWidth 6) (a.setWidth 6) (b.setWidth 6))
  | .asub d a b => some (mkWord 1 r 0x02 (d.setWidth 6) (a.setWidth 6) (b.setWidth 6))
  | .amul d a b => some (mkWord 1 r 0x03 (d.setWidth 6) (a.setWidth 6) (b.setWidth 6))
  | .aand d a b => some (mkWord 1 r 0x04 (d.setWidth 6) (a.setWidth 6) (b.setWidth 6))
  | .aor d a b => some (mkWord 1 r 0x05 (d.setWidth 6) (a.setWidth 6) (b.setWidth 6))
  | .ashl d a b => some (mkWord 1 r 0x06 (d.setWidth 6) (a.setWidth 6) (b.setWidth 6))
  | .ashr d a b => some (mkWord 1 r 0x07 (d.setWidth 6) (a.setWidth 6) (b.setWidth 6))
  | .aaddi d a imm => some (mkWord 1 r 0x08 (d.setWidth 6) (a.setWidth 6) (imm))
  | .aldi d imm => some (mkWord 1 r 0x09 (d.setWidth 6) (imm.extractLsb' 6 6) (imm.extractLsb' 0 6))
  | .amin d a b => some (mkWord 1 r 0x0A (d.setWidth 6) (a.setWidth 6) (b.setWidth 6))
  | .amax d a b => some (mkWord 1 r 0x0B (d.setWidth 6) (a.setWidth 6) (b.setWidth 6))
  | .ald d a imm => some (mkWord 1 r 0x10 (d.setWidth 6) (a.setWidth 6) (imm))
  | .ast d a imm => some (mkWord 1 r 0x11 (d.setWidth 6) (a.setWidth 6) (imm))
  | .aatom d a b => some (mkWord 1 r 0x12 (d.setWidth 6) (a.setWidth 6) (b.setWidth 6))
  | .acas d a b => some (mkWord 1 r 0x13 (d.setWidth 6) (a.setWidth 6) (b.setWidth 6))
  | .bind d a => some (mkWord 1 r 0x18 (d.setWidth 6) (a.setWidth 6) (0))
  | .rebind d a => some (mkWord 1 r 0x19 (d.setWidth 6) (a.setWidth 6) (0))
  | .unbind d => some (mkWord 1 r 0x1A (d.setWidth 6) (0) (0))
  | .sdrain d => some (mkWord 1 r 0x1B (d.setWidth 6) (0) (0))
  | .sskip d a => some (mkWord 1 r 0x1C (d.setWidth 6) (a.setWidth 6) (0))
  | .sstat d a => some (mkWord 1 r 0x1D (d.setWidth 6) (a.setWidth 6) (0))
  | .ufold a => some (mkWord 1 r 0x20 (0) (a.setWidth 6) (0))
  | .subs d a b => some (mkWord 1 r 0x21 (d.setWidth 6) (a.setWidth 6) (b.setWidth 6))
  | .sret d => some (mkWord 1 r 0x22 (d.setWidth 6) (0) (0))
  | .ringcfg d a b => some (mkWord 1 r 0x23 (d.setWidth 6) (a.setWidth 6) (b.setWidth 6))
  | .sigA sem count => some (mkWord 1 r 0x50 ((sem ++ count.extractLsb' 12 2)) (count.extractLsb' 6 6) (count.extractLsb' 0 6))
  | .waitA sem count => some (mkWord 1 r 0x51 ((sem ++ count.extractLsb' 12 2)) (count.extractLsb' 6 6) (count.extractLsb' 0 6))
  | .getsA d => some (mkWord 1 r 0x52 (d.setWidth 6) (0) (0))
  | .putsA a => some (mkWord 1 r 0x53 (0) (a.setWidth 6) (0))
  | .extA imm => some (mkWord 1 Ring.zero 0x7F (imm.extractLsb' 12 6) (imm.extractLsb' 6 6) (imm.extractLsb' 0 6))
  | .nopV => some (mkWord 2 r 0x00 (0) (0) (0))
  | .vcfg imm => some (mkWord 2 r 0x01 ((0#1 ++ imm.extractLsb' 12 5)) (imm.extractLsb' 6 6) (imm.extractLsb' 0 6))
  | .vmov d a => some (mkWord 2 r 0x02 (d.code) (a.code) (0))
  | .vbcast d a => some (mkWord 2 r 0x03 (d.code) (a.code) (0))
  | .vadd d a b => some (mkWord 2 r 0x04 (d.code) (a.code) (b.code))
  | .vsub d a b => some (mkWord 2 r 0x05 (d.code) (a.code) (b.code))
  | .vmul d a b => some (mkWord 2 r 0x06 (d.code) (a.code) (b.code))
  | .vfma d a b => some (mkWord 2 r 0x07 (d.setWidth 6) (a.code) (b.code))
  | .vmin d a b => some (mkWord 2 r 0x08 (d.code) (a.code) (b.code))
  | .vmax d a b => some (mkWord 2 r 0x09 (d.code) (a.code) (b.code))
  | .vabs d a => some (mkWord 2 r 0x0A (d.code) (a.code) (0))
  | .vneg d a => some (mkWord 2 r 0x0B (d.code) (a.code) (0))
  | .vdiv d a b => some (mkWord 2 r 0x0C (d.code) (a.code) (b.code))
  | .vsqrt d a => some (mkWord 2 r 0x0D (d.code) (a.code) (0))
  | .vrcp d a => some (mkWord 2 r 0x0E (d.code) (a.code) (0))
  | .vrsq d a => some (mkWord 2 r 0x0F (d.code) (a.code) (0))
  | .vexp2 d a => some (mkWord 2 r 0x10 (d.code) (a.code) (0))
  | .vlog2 d a => some (mkWord 2 r 0x11 (d.code) (a.code) (0))
  | .vadds d a b => some (mkWord 2 r 0x12 (d.code) (a.code) (b.code))
  | .vmulh d a b => some (mkWord 2 r 0x13 (d.code) (a.code) (b.code))
  | .vand d a b => some (mkWord 2 r 0x14 (d.code) (a.code) (b.code))
  | .vor d a b => some (mkWord 2 r 0x15 (d.code) (a.code) (b.code))
  | .vxor d a b => some (mkWord 2 r 0x16 (d.code) (a.code) (b.code))
  | .vshl d a b => some (mkWord 2 r 0x17 (d.code) (a.code) (b.code))
  | .vshr d a b => some (mkWord 2 r 0x18 (d.code) (a.code) (b.code))
  | .vsra d a b => some (mkWord 2 r 0x19 (d.code) (a.code) (b.code))
  | .vceq d a b => some (mkWord 2 r 0x20 (d.setWidth 6) (a.code) (b.code))
  | .vcne d a b => some (mkWord 2 r 0x21 (d.setWidth 6) (a.code) (b.code))
  | .vclt d a b => some (mkWord 2 r 0x22 (d.setWidth 6) (a.code) (b.code))
  | .vcle d a b => some (mkWord 2 r 0x23 (d.setWidth 6) (a.code) (b.code))
  | .vsel d a b => some (mkWord 2 r 0x24 (d.code) (a.code) (b.code))
  | .vclass d a => some (mkWord 2 r 0x25 (d.code) (a.code) (0))
  | .vcvt d a sel => some (mkWord 2 r 0x28 (d.code) (a.code) (sel.setWidth 6))
  | .vcvtq d a sel => some (mkWord 2 r 0x29 (d.code) (a.code) (sel))
  | .vwiden d a sel => some (mkWord 2 r 0x2A (d.code) (a.code) (sel.setWidth 6))
  | .vnarrow d a sel => some (mkWord 2 r 0x2B (d.code) (a.code) (sel.setWidth 6))
  | .vsrnd d a b => some (mkWord 2 r 0x2C (d.setWidth 6) (a.setWidth 6) (b.setWidth 6))
  | .vcomp d a => some (mkWord 2 r 0x30 (d.code) (a.code) (0))
  | .vexpd d a => some (mkWord 2 r 0x31 (d.code) (a.code) (0))
  | .vslup d a b => some (mkWord 2 r 0x32 (d.code) (a.code) (codeK b))
  | .vsldn d a b => some (mkWord 2 r 0x33 (d.code) (a.code) (codeK b))
  | .vperm d a b => some (mkWord 2 r 0x34 (d.code) (a.code) (b.code))
  | .vxpose d a b => some (mkWord 2 r 0x35 (d.code) (a.code) (codeK b))
  | .viota d => some (mkWord 2 r 0x36 (d.code) (0) (0))
  | .vrsum d a => some (mkWord 2 r 0x3C (d.code) (a.code) (0))
  | .vrmax d a => some (mkWord 2 r 0x3D (d.code) (a.code) (0))
  | .vrmin d a => some (mkWord 2 r 0x3E (d.code) (a.code) (0))
  | .vscan d a => some (mkWord 2 r 0x3F (d.code) (a.code) (0))
  | .mand d a b => some (mkWord 2 r 0x40 (d.setWidth 6) (a.setWidth 6) (b.setWidth 6))
  | .mor d a b => some (mkWord 2 r 0x41 (d.setWidth 6) (a.setWidth 6) (b.setWidth 6))
  | .mxor d a b => some (mkWord 2 r 0x42 (d.setWidth 6) (a.setWidth 6) (b.setWidth 6))
  | .mnot d a => some (mkWord 2 r 0x43 (d.setWidth 6) (a.setWidth 6) (0))
  | .mpop d a => some (mkWord 2 r 0x44 (d.setWidth 6) (a.setWidth 6) (0))
  | .mfirst d a => some (mkWord 2 r 0x45 (d.setWidth 6) (a.setWidth 6) (0))
  | .mset d a b => some (mkWord 2 r 0x46 (d.setWidth 6) (a.setWidth 6) (b.setWidth 6))
  | .vtok d a b => some (mkWord 2 r 0x48 (d.setWidth 6) (a.code) (b.setWidth 6))
  | .kadd d a b => some (mkWord 2 r 0x4A (d.setWidth 6) (a.setWidth 6) (b.setWidth 6))
  | .kaddi d a imm => some (mkWord 2 r 0x4B (d.setWidth 6) (a.setWidth 6) (imm))
  | .kldi d imm => some (mkWord 2 r 0x4C (d.setWidth 6) (imm.extractLsb' 6 6) (imm.extractLsb' 0 6))
  | .kmov d a => some (mkWord 2 r 0x4D (d.setWidth 6) (a.setWidth 6) (0))
  | .sigV sem count => some (mkWord 2 r 0x50 ((sem ++ count.extractLsb' 12 2)) (count.extractLsb' 6 6) (count.extractLsb' 0 6))
  | .waitV sem count => some (mkWord 2 r 0x51 ((sem ++ count.extractLsb' 12 2)) (count.extractLsb' 6 6) (count.extractLsb' 0 6))
  | .getsV d => some (mkWord 2 r 0x52 (d.setWidth 6) (0) (0))
  | .putsV a => some (mkWord 2 r 0x53 (0) (a.setWidth 6) (0))
  | .extV imm => some (mkWord 2 Ring.zero 0x7F (imm.extractLsb' 12 6) (imm.extractLsb' 6 6) (imm.extractLsb' 0 6))
  | .nopM => some (mkWord 3 r 0x00 (0) (0) (0))
  | .mldn d a ft => some (mkWord 3 r 0x01 (d.setWidth 6) (codeIq a) (ft.setWidth 6))
  | .mldw d a ft => some (mkWord 3 r 0x02 (d.setWidth 6) (codeIq a) (ft.setWidth 6))
  | .msel d => some (mkWord 3 r 0x03 (d.setWidth 6) (0) (0))
  | .mstep d koff ft => some (mkWord 3 r 0x04 (d.setWidth 6) (koff) (ft.setWidth 6))
  | .mstepz d koff ft => some (mkWord 3 r 0x05 (d.setWidth 6) (koff) (ft.setWidth 6))
  | .mzero d => some (mkWord 3 r 0x06 (d.setWidth 6) (0) (0))
  | .mwb d a ft => some (mkWord 3 r 0x07 (codeOq d) (a.setWidth 6) (ft.setWidth 6))
  | .mpeek d a b => some (mkWord 3 r 0x08 (codeOq d) (a.setWidth 6) (b.setWidth 6))
  | .mftab ft a => some (mkWord 3 r 0x09 (ft.setWidth 6) (a.setWidth 6) (0))
  | .mftabR ft a => some (mkWord 3 r 0x09 (ft.setWidth 6) (a.setWidth 6) (1))
  | .mscl d a b => some (mkWord 3 r 0x0A (d.setWidth 6) (a.setWidth 6) (b.setWidth 6))
  | .mchain sem count => some (mkWord 3 r 0x0B ((sem ++ count.extractLsb' 12 2)) (count.extractLsb' 6 6) (count.extractLsb' 0 6))
  | .mstage stg => some (mkWord 3 r 0x0C (0) (0) (stg.setWidth 6))
  | .mstageCfg dm1 lvl => some (mkWord 3 r 0x0C (32#6) (0) ((0#1 ++ dm1 ++ lvl)))
  | .macc d a b => some (mkWord 3 r 0x0D (d.setWidth 6) (a.setWidth 6) (b.setWidth 6))
  | .mtrz d a => some (mkWord 3 r 0x0E (d.setWidth 6) (a.setWidth 6) (0))
  | .mhadd d a b => some (mkWord 3 r 0x0F (d.setWidth 6) (a.setWidth 6) (b.setWidth 6))
  | .sigM sem count => some (mkWord 3 r 0x50 ((sem ++ count.extractLsb' 12 2)) (count.extractLsb' 6 6) (count.extractLsb' 0 6))
  | .waitM sem count => some (mkWord 3 r 0x51 ((sem ++ count.extractLsb' 12 2)) (count.extractLsb' 6 6) (count.extractLsb' 0 6))
  | .getsM d => some (mkWord 3 r 0x52 (d.setWidth 6) (0) (0))
  | .putsM a => some (mkWord 3 r 0x53 (0) (a.setWidth 6) (0))
  | .extM imm => some (mkWord 3 Ring.zero 0x7F (imm.extractLsb' 12 6) (imm.extractLsb' 6 6) (imm.extractLsb' 0 6))
  | .nopX => some (mkWord 4 r 0x00 (0) (0) (0))
  | .xjob d a => some (mkWord 4 r 0x01 (d.setWidth 6) (a.setWidth 6) (0))
  | .xjobg d a => some (mkWord 4 r 0x02 (d.setWidth 6) (a.setWidth 6) (0))
  | .xcancel d a => some (mkWord 4 r 0x03 (d.setWidth 6) (a.setWidth 6) (0))
  | .xstat d a => some (mkWord 4 r 0x04 (d.setWidth 6) (a.setWidth 6) (0))
  | .xadd d a b => some (mkWord 4 r 0x05 (d.setWidth 6) (a.setWidth 6) (b.setWidth 6))
  | .xaddi d a imm => some (mkWord 4 r 0x06 (d.setWidth 6) (a.setWidth 6) (imm))
  | .xldi d imm => some (mkWord 4 r 0x07 (d.setWidth 6) (imm.extractLsb' 6 6) (imm.extractLsb' 0 6))
  | .sigX sem count => some (mkWord 4 r 0x50 ((sem ++ count.extractLsb' 12 2)) (count.extractLsb' 6 6) (count.extractLsb' 0 6))
  | .waitX sem count => some (mkWord 4 r 0x51 ((sem ++ count.extractLsb' 12 2)) (count.extractLsb' 6 6) (count.extractLsb' 0 6))
  | .getsX d => some (mkWord 4 r 0x52 (d.setWidth 6) (0) (0))
  | .putsX a => some (mkWord 4 r 0x53 (0) (a.setWidth 6) (0))
  | .extX imm => some (mkWord 4 Ring.zero 0x7F (imm.extractLsb' 12 6) (imm.extractLsb' 6 6) (imm.extractLsb' 0 6))
  | .nopB => some (mkWord 7 Ring.zero 0x00 (0) (0) (0))
  | .pb d imm => some (mkWord 7 Ring.zero 0x01 (d.setWidth 6) (imm.extractLsb' 6 6) (imm.extractLsb' 0 6))
  | .br d a => some (mkWord 7 Ring.zero 0x02 (d.setWidth 6) (a.setWidth 6) (0))
  | .brn d a => some (mkWord 7 Ring.zero 0x03 (d.setWidth 6) (a.setWidth 6) (0))
  | .call d => some (mkWord 7 Ring.zero 0x04 (d.setWidth 6) (0) (0))
  | .ret => some (mkWord 7 Ring.zero 0x05 (0) (0) (0))
  | .loop d a imm => some (mkWord 7 Ring.zero 0x06 (d.setWidth 6) (a) (imm))
  | .loopi d len imm => some (mkWord 7 Ring.zero 0x07 (d.setWidth 6) (len) (imm))
  | .breakl d a => some (mkWord 7 Ring.zero 0x08 (d.setWidth 6) (a.setWidth 6) (0))
  | .sync => some (mkWord 7 Ring.zero 0x09 (0) (0) (0))
  | .phint => some (mkWord 7 Ring.zero 0x0A (0) (0) (0))
  | .endW => some (mkWord 7 Ring.zero 0x0B (0) (0) (0))
  | .extB imm => some (mkWord 7 Ring.zero 0x7F (imm.extractLsb' 12 6) (imm.extractLsb' 6 6) (imm.extractLsb' 0 6))
  | .rd .. => none
  | .cmpk .. => none
  | .cmpg .. => none
  | .getf .. => none
  | .next .. => none
  | .nextG .. => none
  | .hash .. => none
  | .addg .. => none
  | .andg .. => none
  | .jmp .. => none
  | .jeq .. => none
  | .jne .. => none
  | .jlt .. => none
  | .emit .. => none
  | .emitg .. => none
  | .miss => none
  | .fail .. => none
  | .illegalWord => none
  | .idleFlitReceive => none
  | .flitCheckDiscard => none

/-- The words of an instruction: a core word, a Caddie rule word or a channel-engine word. -/
inductive Code where
  | core (w : BitVec 32)
  | rule (w : BitVec 32)
  | ce (w : BitVec 64)
  deriving DecidableEq, Repr, Inhabited

/-- The encoding of an instruction with ring bits `r`; none for an event, which has no word. -/
def encode (r : Ring) (i : Instr) : Option Code :=
  match i with
  | .ceWord w => some (.ce (encodeCe w))
  | i =>
    match encodeRule i with
    | some w => some (.rule w)
    | none => (encodeCore r i).map .core

/-- What a code decodes to. -/
def decode (c : Code) : Option Instr :=
  match c with
  | .core w => decodeCore w
  | .rule w => decodeRule w
  | .ce w => (decodeCe w).map .ceWord

/-- BARV, BKARM and GRPGEN each name several operations that one word carries, the operation standing in a register:
the constructor the decoder gives for each (R390, R352, R453). -/
def Instr.wordForm (i : Instr) : Instr :=
  match i with
  | .barvWithdraw => .barvArrive
  | .barvJoin => .barvArrive
  | .barvBind => .barvArrive
  | .barvUnbind => .barvArrive
  | .barvRearm => .barvArrive
  | .barvAbandon => .barvArrive
  | .bkarmDisarm => .bkarmArm
  | .bkarmRemove => .bkarmArm
  | .grpgenBind => .grpgenRead
  | .grpgenDissolve => .grpgenRead
  | .grpgenWithdraw => .grpgenRead
  | .grpgenReshape => .grpgenRead
  | .grpgenCatch => .grpgenRead
  | .grpgenDrop => .grpgenRead
  | i => i

/-- Caddie opcodes in [31:26] that no core word of the table has there with its ring bits zero: 8 and 16 are the tag
bits of A and V words, so a 32-bit table word with those top bits is read as a core word. DESIGN CHOICE (notes/assumptions/14.md). -/
def ruleOpcodes : List Nat := [1, 2, 3, 4, 5, 6, 7, 9, 10, 11, 12, 13, 14, 15]

/-- The instruction the decoder reads from a table row's word: 64 bits are a channel-engine word; 32 bits are a Caddie
rule when the top six bits are one of `ruleOpcodes` and the rule decodes, and a core word otherwise. DESIGN CHOICE (notes/assumptions/14.md). -/
def decodeTableWord (nbits w : Nat) : Option Instr :=
  if nbits = 64 then (decodeCe (BitVec.ofNat 64 w)).map .ceWord
  else if nbits = 32 then
    let x := BitVec.ofNat 32 w
    match (if ruleOpcodes.contains (w / 2 ^ 26 % 64) then decodeRule x else none) with
    | some i => some i
    | none => decodeCore x
  else none

end Sys2Proof
end

