-- ==== Sys2Proof/Machine/Num.lean ====
section
/-!
DEFINITION. Exact values, element formats, rounding and flags (02_numbers: R31 to R60, R487).
A finite value is held exactly, as sign, natural significand and power of two; nothing is rounded
but in `roundTo`, which carries R35, R44, R45, R47 and R48.
-/
namespace Sys2Proof.Machine

/-! ## Exact values -/

/-- An exact value: NaN, an infinity, or (-1)^neg * man * 2^exp (R32, R50). A zero keeps its sign. -/
inductive FP where
  | nan
  | inf (neg : Bool)
  | fin (neg : Bool) (man : Nat) (exp : Int)
  deriving DecidableEq, Repr, Inhabited

/-- Rounding modes (R44, Table 2.3). -/
inductive Mode where
  | rne | rtz | sr | rna
  deriving DecidableEq, Repr, Inhabited

/-- The mode of a two-bit code (Table 2.3). -/
def Mode.ofCode (c : BitVec 2) : Mode :=
  match c.toNat with
  | 0 => .rne
  | 1 => .rtz
  | 2 => .sr
  | _ => .rna

/-- The sticky flags of Table 2.4. -/
structure Flags where
  nv : Bool := false
  dz : Bool := false
  of : Bool := false
  uf : Bool := false
  nx : Bool := false
  deriving DecidableEq, Repr, Inhabited

/-- Flags accumulate (R48). -/
def Flags.or (a b : Flags) : Flags :=
  { nv := a.nv || b.nv, dz := a.dz || b.dz, of := a.of || b.of, uf := a.uf || b.uf, nx := a.nx || b.nx }

/-- FSTAT layout: [4] NV, [3] DZ, [2] OF, [1] UF, [0] NX (R114, in the order of R48). -/
def Flags.bits (a : Flags) : BitVec 5 :=
  BitVec.ofNat 5 (a.nv.toNat * 16 + a.dz.toNat * 8 + a.of.toNat * 4 + a.uf.toNat * 2 + a.nx.toNat)

/-- Number of bits of `n` (0 for 0). -/
def bitLen (n : Nat) : Nat := if n = 0 then 0 else n.log2 + 1

/-- Trailing zero bits of `n`, at most `fuel`. -/
def trailZeros : Nat → Nat → Nat
  | 0, _ => 0
  | fuel + 1, n => if n % 2 = 0 then trailZeros fuel (n / 2) + 1 else 0

/-- man * 2^e as a natural significand at the lower exponent `lo` (needs lo ≤ e). -/
def alignMan (man : Nat) (e lo : Int) : Nat := man * 2 ^ (e - lo).toNat

def FP.zero (neg : Bool) : FP := .fin neg 0 0

def FP.one : FP := .fin false 1 0

def FP.isZero : FP → Bool
  | .fin _ m _ => m == 0
  | _ => false

def FP.isNan : FP → Bool
  | .nan => true
  | _ => false

def FP.isInf : FP → Bool
  | .inf _ => true
  | _ => false

/-- The sign of a value; a NaN has sign 0 (R33). -/
def FP.sign : FP → Bool
  | .nan => false
  | .inf n => n
  | .fin n _ _ => n

def FP.negate : FP → FP
  | .nan => .nan
  | .inf n => .inf (!n)
  | .fin n m e => .fin (!n) m e

def FP.abs : FP → FP
  | .nan => .nan
  | .inf _ => .inf false
  | .fin _ m e => .fin false m e

/-- The signed significand at exponent `lo`. -/
def FP.signedMan (n : Bool) (m : Nat) (e lo : Int) : Int :=
  if n then - (alignMan m e lo : Int) else (alignMan m e lo : Int)

/-- An integer times 2^e; a zero result takes the sign given (R34). -/
def FP.ofIntExp (zeroNeg : Bool) (v : Int) (e : Int) : FP :=
  if v = 0 then .zero zeroNeg else .fin (decide (v < 0)) v.natAbs e

def FP.ofInt (v : Int) : FP := FP.ofIntExp false v 0

/-- An exact value and the flags its forming sets. -/
structure Val where
  v : FP
  f : Flags := {}
  deriving DecidableEq, Repr, Inhabited

/-- The exact sum; an exact zero is +0 unless both terms are -0 (R34); ∞ - ∞ is invalid (R48). -/
def FP.add (a b : FP) : Val :=
  match a, b with
  | .nan, _ => { v := .nan }
  | _, .nan => { v := .nan }
  | .inf x, .inf y => if x = y then { v := .inf x } else { v := .nan, f := { nv := true } }
  | .inf x, _ => { v := .inf x }
  | _, .inf y => { v := .inf y }
  | .fin x m e, .fin y n k =>
    let lo := min e k
    { v := FP.ofIntExp (m == 0 && n == 0 && x && y) (FP.signedMan x m e lo + FP.signedMan y n k lo) lo }

def FP.sub (a b : FP) : Val := FP.add a b.negate

/-- The exact product; 0 × ∞ is invalid (R34, R48). -/
def FP.mul (a b : FP) : Val :=
  match a, b with
  | .nan, _ => { v := .nan }
  | _, .nan => { v := .nan }
  | .inf x, .inf y => { v := .inf (x != y) }
  | .inf x, .fin y n _ => if n = 0 then { v := .nan, f := { nv := true } } else { v := .inf (x != y) }
  | .fin x m _, .inf y => if m = 0 then { v := .nan, f := { nv := true } } else { v := .inf (x != y) }
  | .fin x m e, .fin y n k => { v := .fin (x != y) (m * n) (e + k) }

/-- The exact a × b + d (R53); an invalid product sets NV unless d is a NaN itself (R48). -/
def FP.fma (a b d : FP) : Val :=
  if d.isNan then { v := .nan }
  else
    let p := FP.mul a b
    let s := FP.add p.v d
    { v := s.v, f := p.f.or s.f }

/-- Exact order of two finite values or infinities; none when unordered (NaN). -/
def FP.cmp (a b : FP) : Option Ordering :=
  match a, b with
  | .nan, _ => none
  | _, .nan => none
  | .inf x, .inf y => some (if x = y then .eq else if x then .lt else .gt)
  | .inf x, _ => some (if x then .lt else .gt)
  | _, .inf y => some (if y then .gt else .lt)
  | .fin x m e, .fin y n k =>
    let lo := min e k
    some (compare (FP.signedMan x m e lo) (FP.signedMan y n k lo))

/-- a < b as values, false on a NaN. -/
def FP.lt (a b : FP) : Bool := FP.cmp a b == some .lt
def FP.eqv (a b : FP) : Bool := FP.cmp a b == some .eq
def FP.le (a b : FP) : Bool := FP.lt a b || FP.eqv a b

/-- floor(log2 |x|) of a nonzero finite value. -/
def FP.floorLog2 : FP → Int
  | .fin _ m e => (m.log2 : Int) + e
  | _ => 0

/-- x times 2^k, exactly. -/
def FP.scale (x : FP) (k : Int) : FP :=
  match x with
  | .fin n m e => .fin n m (e + k)
  | y => y

/-- clamp(x, -|c|, |c|) (R55, R82): a NaN bound acts as +∞. -/
def FP.clampTo (x c : FP) : FP :=
  match x with
  | .nan => .nan
  | y =>
    let b := match c with
      | .nan => .inf false
      | z => z.abs
    if FP.lt y b.negate then b.negate else if FP.lt b y then b else y

/-- IEEE-like minimum: -0 below +0, a NaN gives the other operand (R171, R217). -/
def FP.minNum (a b : FP) : FP :=
  match a, b with
  | .nan, y => y
  | x, .nan => x
  | x, y =>
    if FP.lt x y then x else if FP.lt y x then y
    else if x.sign then x else y

def FP.maxNum (a b : FP) : FP :=
  match a, b with
  | .nan, y => y
  | x, .nan => x
  | x, y =>
    if FP.lt x y then y else if FP.lt y x then x
    else if x.sign then y else x

/-! ## Formats (Table 2.1) -/

/-- The shape of a float element format: exponent and mantissa bits, bias, and which codes are special. -/
structure FShape where
  ebits : Nat
  mbits : Nat
  bias  : Int
  ieee  : Bool   -- exponent all ones holds ∞ and NaN
  e4m3  : Bool   -- only S.1111.111 is NaN
  deriving DecidableEq, Repr, Inhabited

/-- The shape of a format's elements: mx8 holds e4m3, mx8b e5m2, the e2m1 family e2m1 (R31, R38). -/
def fshape (fmt : Nat) : FShape :=
  match fmt with
  | 0 => ⟨8, 23, 127, true, false⟩
  | 1 => ⟨8, 7, 127, true, false⟩
  | 2 => ⟨5, 10, 15, true, false⟩
  | 3 => ⟨4, 3, 7, false, true⟩
  | 4 => ⟨5, 2, 15, true, false⟩
  | 5 => ⟨4, 3, 7, false, true⟩
  | 6 => ⟨5, 2, 15, true, false⟩
  | _ => ⟨2, 1, 1, false, false⟩

/-- Integer formats: i8, n8, i32, i4 (Table 2.1). -/
def isIntFmt (fmt : Nat) : Bool := fmt == 11 || fmt == 12 || fmt == 13 || fmt == 14

/-- Width of an element in bits (Table 2.1). -/
def fmtBits (fmt : Nat) : Nat :=
  match fmt with
  | 0 => 32
  | 1 => 16
  | 2 => 16
  | 3 => 8
  | 4 => 8
  | 5 => 8
  | 6 => 8
  | 11 => 8
  | 12 => 8
  | 13 => 32
  | _ => 4

/-- The formats with a block scale (R38). -/
def isBlockFmt (fmt : Nat) : Bool := fmt == 5 || fmt == 6 || fmt == 8 || fmt == 9

/-- Bytes of a side-plane entry: 2 for e2m1x, 1 for the other block formats (R38). -/
def sideEntry (fmt : Nat) : Nat := if fmt == 9 then 2 else if isBlockFmt fmt then 1 else 0

/-- The least integer a format holds. -/
def intMin (fmt : Nat) : Int :=
  match fmt with
  | 11 => -128
  | 12 => 0
  | 13 => -2147483648
  | _ => -8

/-- The greatest integer a format holds. -/
def intMax (fmt : Nat) : Int :=
  match fmt with
  | 11 => 127
  | 12 => 255
  | 13 => 2147483647
  | _ => 7

/-- Largest finite magnitude of a shape (Table 2.1). -/
def FShape.maxFin (h : FShape) : FP :=
  if h.e4m3 then .fin false 14 5
  else if h.ieee then .fin false (2 ^ (h.mbits + 1) - 1) ((2 ^ (h.ebits - 1) - 1 : Int) - h.mbits)
  else .fin false 3 1

/-- Exponent of the smallest normal (Table 2.1). -/
def FShape.emin (h : FShape) : Int := 1 - h.bias

/-- The code of the largest finite magnitude. -/
def FShape.maxCode (h : FShape) : Nat :=
  if h.e4m3 then 0x7E
  else if h.ieee then (2 ^ h.ebits - 1) * 2 ^ h.mbits - 1
  else 7

/-- The canonical NaN (R33); 0 where the format has none (R47). -/
def FShape.nanCode (h : FShape) : Nat :=
  if h.e4m3 then 0x7F
  else if h.ieee then (2 ^ h.ebits - 1) * 2 ^ h.mbits + 2 ^ (h.mbits - 1)
  else 0

/-- The code of +∞ in a format that has it. -/
def FShape.infCode (h : FShape) : Nat := (2 ^ h.ebits - 1) * 2 ^ h.mbits

def FShape.width (h : FShape) : Nat := h.ebits + h.mbits + 1

/-- The value of a code of a float shape (R32). -/
def FShape.decode (h : FShape) (code : Nat) : FP :=
  let neg := (code >>> (h.ebits + h.mbits)) % 2 == 1
  let e := (code >>> h.mbits) % 2 ^ h.ebits
  let m := code % 2 ^ h.mbits
  if h.ieee && e == 2 ^ h.ebits - 1 then (if m == 0 then .inf neg else .nan)
  else if h.e4m3 && e == 15 && m == 7 then .nan
  else if e == 0 then .fin neg m (h.emin - h.mbits)
  else .fin neg (2 ^ h.mbits + m) ((e : Int) - h.bias - h.mbits)

/-- Two's complement value of the low `w` bits. -/
def sintOf (w code : Nat) : Int :=
  let c := code % 2 ^ w
  if w = 0 then 0 else if c ≥ 2 ^ (w - 1) then (c : Int) - 2 ^ w else c

/-- The exact value of an element's own code (R32, R36); for block formats the element's own value v(e) (R39). -/
def decodeElem (fmt code : Nat) : FP :=
  if fmt == 12 then FP.ofInt (code % 256 : Nat)
  else if isIntFmt fmt then FP.ofInt (sintOf (fmtBits fmt) code)
  else (fshape fmt).decode code

/-! ## Rounding -/

/-- The inputs of stochastic rounding (R45). -/
structure SrIn where
  seed  : BitVec 64 := 0
  step  : BitVec 64 := 0
  index : BitVec 64 := 0
  deriving DecidableEq, Repr, Inhabited

/-- mix64 of R45. -/
def mix64 (z : BitVec 64) : BitVec 64 :=
  let z := (z ^^^ (z >>> 30)) * 0xBF58476D1CE4E5B9#64
  let z := (z ^^^ (z >>> 27)) * 0x94D049BB133111EB#64
  z ^^^ (z >>> 31)

/-- The random word u of R45. -/
def srWord (i : SrIn) : BitVec 64 :=
  mix64 (i.seed ^^^ (i.step * 0x9E3779B97F4A7C15#64) ^^^ (i.index * 0xD1B54A32D192ED03#64))

/-- A magnitude to round: man * 2^exp, and `sticky` when a nonzero part lies below (an irrational or
unending result whose bits beyond `man` are not all zero). -/
structure Mag where
  man : Nat
  exp : Int
  sticky : Bool := false
  deriving DecidableEq, Repr, Inhabited

/-- The magnitude rounded to a multiple of 2^ulp (R44, R45): the multiple, and whether it is inexact. -/
def roundMag (mode : Mode) (sr : SrIn) (x : Mag) (ulp : Int) : Nat × Bool :=
  if ulp ≤ x.exp then (x.man * 2 ^ (x.exp - ulp).toNat, x.sticky)
  else
    let sh := (ulp - x.exp).toNat
    let q := x.man / 2 ^ sh
    let r := x.man % 2 ^ sh
    let half := 2 ^ (sh - 1)
    let inexact := r != 0 || x.sticky
    let up := match mode with
      | .rne => decide (r > half) || (r == half && (x.sticky || q % 2 == 1))
      | .rtz => false
      | .rna => decide (r ≥ half)
      | .sr =>
        let u := (srWord sr).toNat
        if !inexact then false
        else if x.sticky || sh - trailZeros sh r > 64 then
          -- the top 64 of the discarded bits
          let d := if sh ≥ 64 then r / 2 ^ (sh - 64) else r * 2 ^ (64 - sh)
          decide (d + u ≥ 2 ^ 64)
        else
          let d := sh - trailZeros sh r
          decide (r / 2 ^ (sh - d) + u / 2 ^ (64 - d) ≥ 2 ^ d)
    (if up then q + 1 else q, inexact)

/-- Exponent of the last place of a magnitude at precision `mbits` with the exponent unbounded. -/
def Mag.ulpAt (x : Mag) (mbits : Nat) : Int := (x.man.log2 : Int) + x.exp - mbits

/-- A rounded code with the flags it sets. -/
structure Coded where
  code : Nat
  f : Flags := {}
  deriving DecidableEq, Repr, Inhabited

/-- Encode an exact multiple q of 2^ulp, known to lie within the shape's range. -/
def FShape.encodeMag (h : FShape) (neg : Bool) (q : Nat) (ulp : Int) : Nat :=
  let s := if neg then 2 ^ (h.ebits + h.mbits) else 0
  if q = 0 then s
  else
    let e := (q.log2 : Int) + ulp
    if e < h.emin then s + alignMan q ulp (min ulp (h.emin - h.mbits)) / 2 ^ ((h.emin - h.mbits) - min ulp (h.emin - h.mbits)).toNat
    else
      let lo := e - h.mbits
      let m := if lo ≤ ulp then q * 2 ^ (ulp - lo).toNat else q / 2 ^ (lo - ulp).toNat
      s + (e + h.bias).toNat * 2 ^ h.mbits + m % 2 ^ h.mbits

/-- What R47 delivers for a finite result above the largest finite magnitude. -/
def FShape.overflow (h : FShape) (neg sat : Bool) (mode : Mode) : Nat :=
  let s := if neg then 2 ^ (h.ebits + h.mbits) else 0
  if sat then s + h.maxCode
  else if h.e4m3 then h.nanCode
  else if h.ieee then (match mode with
    | .rtz => s + h.maxCode
    | _ => s + h.infCode)
  else s + h.maxCode

/-- Tininess after rounding (R35): the value rounded to the shape's precision with the exponent unbounded is below the
smallest normal value. -/
def FShape.tiny (h : FShape) (mode : Mode) (sr : SrIn) (x : Mag) : Bool :=
  FP.lt (.fin false (roundMag mode sr x (x.ulpAt h.mbits)).1 (x.ulpAt h.mbits)) (.fin false 1 h.emin)

/-- A magnitude rounded into a float shape, with overflow by R47 and flags by R48 and R35. -/
def FShape.roundFin (h : FShape) (sat : Bool) (mode : Mode) (sr : SrIn) (neg : Bool) (x : Mag) : Coded :=
  if x.man = 0 && !x.sticky then { code := if neg then 2 ^ (h.ebits + h.mbits) else 0 }
  else
    let ulp := max (x.ulpAt h.mbits) (h.emin - h.mbits)
    let (q, inexact) := roundMag mode sr x ulp
    if FP.lt h.maxFin (.fin false q ulp) then
      { code := h.overflow neg sat mode, f := { of := true, nx := true } }
    else
      { code := h.encodeMag neg q ulp, f := { uf := h.tiny mode sr x && inexact, nx := inexact } }

/-- The range limit of an integer format as a code. -/
def intCode (fmt : Nat) (v : Int) : Nat := (v % (2 ^ fmtBits fmt : Int)).toNat

/-- A magnitude rounded to an integer within [lo, hi]; saturation sets NV alone (R47, R48). -/
def roundInt (lo hi : Int) (mode : Mode) (sr : SrIn) (neg : Bool) (x : Mag) : Int × Flags :=
  let (q, inexact) := roundMag mode sr x 0
  let v : Int := if neg then - (q : Int) else q
  if v < lo then (lo, { nv := true }) else if hi < v then (hi, { nv := true })
  else (v, { nx := inexact })

/-- A signed result to round: a special value, or sign and magnitude. -/
inductive Res where
  | special (x : FP)
  | mag (neg : Bool) (m : Mag)
  deriving DecidableEq, Repr, Inhabited

def FP.toRes : FP → Res
  | .fin n m e => .mag n { man := m, exp := e }
  | x => .special x

/-- round(fmt, x, mode) of R82: rounding by R44 and R45, overflow and special inputs by R47, flags by R48.
`sat` is the operation's saturation setting; `infSat` says whether an infinite input saturates too
(it does in conversions, R47; it does not in arithmetic, R215). DESIGN CHOICE (notes/assumptions/97.md). -/
def roundRes (fmt : Nat) (sat infSat : Bool) (mode : Mode) (sr : SrIn) (x : Res) : Coded :=
  if isIntFmt fmt then
    match x with
    | .mag n m =>
      let r := roundInt (intMin fmt) (intMax fmt) mode sr n m
      { code := intCode fmt r.1, f := r.2 }
    | .special (.inf n) => { code := intCode fmt (if n then intMin fmt else intMax fmt), f := { nv := true } }
    | .special _ => { code := 0, f := { nv := true } }
  else
    let h := fshape fmt
    match x with
    | .mag n m => h.roundFin sat mode sr n m
    | .special (.inf n) =>
      let s := if n then 2 ^ (h.ebits + h.mbits) else 0
      if h.ieee then { code := s + (if sat && infSat then h.maxCode else h.infCode) }
      else if h.e4m3 && !sat then { code := h.nanCode, f := { nv := true } }
      else { code := s + h.maxCode, f := { nv := true } }
    | .special .nan => { code := h.nanCode, f := { nv := !(h.ieee || h.e4m3) } }
    | .special (.fin n m e) => h.roundFin sat mode sr n { man := m, exp := e }

/-- round(fmt, x, mode) of an exact value. -/
def roundTo (fmt : Nat) (sat infSat : Bool) (mode : Mode) (sr : SrIn) (x : FP) : Coded :=
  roundRes fmt sat infSat mode sr x.toRes

/-- round(fp32, x, RNE) in the .NS column, the rounding of sums, tiles and buckets. -/
def roundF32 (x : FP) : Coded := roundTo 0 false false .rne {} x

/-- The exact value of an fp32 code. -/
def f32 (code : BitVec 32) : FP := decodeElem 0 code.toNat

/-- An fp32 result with its flags. -/
structure F32R where
  v : BitVec 32
  f : Flags := {}
  deriving DecidableEq, Repr, Inhabited

/-- Round a value formed with flags to fp32 by RNE. -/
def Val.toF32 (x : Val) : F32R :=
  let c := roundF32 x.v
  { v := BitVec.ofNat 32 c.code, f := x.f.or c.f }

/-! ## Correctly rounded division and roots (R53, R170, R217) -/

/-- Bits of a computed quotient or root: far more than any target's precision and R45's 64 bits. -/
def extraBits : Nat := 400

/-- a / b with its special cases (Table 7.4): a nonzero finite over zero sets DZ. -/
def FP.div (a b : FP) : Res × Flags :=
  match a, b with
  | .nan, _ => (.special .nan, {})
  | _, .nan => (.special .nan, {})
  | .inf _, .inf _ => (.special .nan, { nv := true })
  | .inf x, .fin y _ _ => (.special (.inf (x != y)), {})
  | .fin x _ _, .inf y => (.special (.zero (x != y)), {})
  | .fin x m e, .fin y n k =>
    if n = 0 then
      if m = 0 then (.special .nan, { nv := true }) else (.special (.inf (x != y)), { dz := true })
    else if m = 0 then (.special (.zero (x != y)), {})
    else
      let num := m * 2 ^ (extraBits + bitLen n)
      (.mag (x != y) { man := num / n, exp := e - k - (extraBits + bitLen n : Nat), sticky := num % n != 0 }, {})

/-- The integer square root by bits, most significant first. -/
def isqrtAux : Nat → Nat → Nat → Nat
  | 0, _, r => r
  | b + 1, n, r => let t := r + 2 ^ b; isqrtAux b n (if t * t ≤ n then t else r)

/-- floor(sqrt n). -/
def isqrt (n : Nat) : Nat := isqrtAux (bitLen n / 2 + 1) n 0

/-- √a (Table 7.4): √-0 is -0, a negative nonzero is invalid. -/
def FP.sqrt (a : FP) : Res × Flags :=
  match a with
  | .nan => (.special .nan, {})
  | .inf x => if x then (.special .nan, { nv := true }) else (.special (.inf false), {})
  | .fin x m e =>
    if m = 0 then (.special (.zero x), {})
    else if x then (.special .nan, { nv := true })
    else
      let sh := 2 * extraBits + (e % 2).toNat
      let n := m * 2 ^ sh
      let r := isqrt n
      (.mag false { man := r, exp := (e - (sh : Nat)) / 2, sticky := r * r != n }, {})

/-- 1 / a. -/
def FP.rcp (a : FP) : Res × Flags := FP.div FP.one a

/-- 1 / √a (Table 7.4): ±0 gives ±∞ with DZ. -/
def FP.rsqrt (a : FP) : Res × Flags :=
  match a with
  | .nan => (.special .nan, {})
  | .inf x => if x then (.special .nan, { nv := true }) else (.special (.zero false), {})
  | .fin x m e =>
    if m = 0 then (.special (.inf x), { dz := true })
    else if x then (.special .nan, { nv := true })
    else
      -- value m * 2^e with e made even
      let m' := m * 2 ^ (e % 2).toNat
      let e' := e - e % 2
      let k := extraBits + bitLen m'
      let n := 2 ^ (2 * k)
      let r := isqrt (n / m')
      (.mag false { man := r, exp := - (k : Nat) - e' / 2, sticky := r * r * m' != n }, {})

/-! ## 2^a and log2 a (R53)

Both are irrational except where the result is exact, so a truncation at `fxBits` fraction bits with
`sticky` set rounds as the exact value does unless that value lies within about 2^-370 of a rounding
boundary (notes/assumptions/25.md). -/

/-- Fraction bits of the fixed-point evaluation. -/
def fxBits : Nat := 400

/-- Sum of z^(2i+1)/(2i+1), i from 0, in fixed point with `t` the running power. -/
def atanhAux : Nat → Nat → Nat → Nat → Nat → Nat
  | 0, _, _, _, acc => acc
  | fuel + 1, z2, t, i, acc => atanhAux fuel z2 (t * z2 / 2 ^ fxBits) (i + 1) (acc + t / (2 * i + 1))

/-- 2 * atanh(num/den) in fixed point. -/
def lnRatio (num den : Nat) : Nat :=
  let z := num * 2 ^ fxBits / den
  2 * atanhAux 140 (z * z / 2 ^ fxBits) z 0 0

/-- ln 2 = 2 atanh(1/3) in fixed point. -/
def ln2Fx : Nat := lnRatio 1 3

/-- e^x by its series in fixed point, with `t` the running term. -/
def expAux : Nat → Nat → Nat → Nat → Nat → Nat
  | 0, _, _, _, acc => acc
  | fuel + 1, x, t, i, acc =>
    expAux fuel x (t * x / 2 ^ fxBits / (i + 1)) (i + 1) (acc + t)

/-- 2^a: -∞ gives +0, +∞ gives +∞ (Table 7.4). DEDUCED (notes/assumptions/25.md). -/
def FP.exp2 (a : FP) : Res × Flags :=
  match a with
  | .nan => (.special .nan, {})
  | .inf x => (.special (if x then .zero false else .inf false), {})
  | .fin x m e =>
    if m = 0 then (.special FP.one, {})
    else if (m.log2 : Int) + e ≥ 20 then
      -- far outside every target's range: a power of two beyond it, or a magnitude below every subnormal
      (if x then .mag false { man := 2 ^ fxBits, exp := - (2 ^ 20 : Int) - fxBits, sticky := true }
       else .mag false { man := 2 ^ fxBits, exp := (2 ^ 20 : Int), sticky := true }, {})
    else
      let v : Int := FP.signedMan x m e (min e 0)
      let fb := (0 - min e 0).toNat
      let n := v / (2 ^ fb : Int)
      let fr := (v % (2 ^ fb : Int)).toNat
      if fr = 0 then (.mag false { man := 1, exp := n }, {})
      else
        let p := expAux 120 (fr * ln2Fx / 2 ^ fb) (2 ^ fxBits) 0 0
        (.mag false { man := p, exp := n - fxBits, sticky := true }, {})

/-- log2 a: ±0 gives -∞ with DZ, a negative nonzero is invalid, 1 gives +0 (Table 7.4). DEDUCED (notes/assumptions/25.md). -/
def FP.log2 (a : FP) : Res × Flags :=
  match a with
  | .nan => (.special .nan, {})
  | .inf x => if x then (.special .nan, { nv := true }) else (.special (.inf false), {})
  | .fin x m e =>
    if m = 0 then (.special (.inf true), { dz := true })
    else if x then (.special .nan, { nv := true })
    else
      let l := m.log2
      let ex := (l : Int) + e
      if m = 2 ^ l then (.special (FP.ofInt ex), {})
      else
        -- log2 of the significand m / 2^l in (1, 2)
        let frac := lnRatio (m - 2 ^ l) (m + 2 ^ l) * 2 ^ fxBits / ln2Fx
        let v : Int := ex * (2 ^ fxBits : Int) + frac
        (.mag (decide (v < 0)) { man := v.natAbs, exp := - (fxBits : Nat), sticky := true }, {})

/-! ## Arithmetic rounded into a type -/

/-- R53: the special functions of bf16 and fp16 round through fp32 by RNE; the flags are those of one
rounding of the exact result to the element type. A finite result beyond the range of fp32 follows R47 (R217). -/
def roundSpecial (fmt : Nat) (sat : Bool) (mode : Mode) (sr : SrIn) (x : Res × Flags) : Coded :=
  if fmt == 0 then
    let c := roundRes 0 sat false mode sr x.1
    { code := c.code, f := x.2.or c.f }
  else
    let mid := roundRes 0 false false .rne {} x.1
    let once := roundRes fmt sat false mode sr x.1
    let fin := if mid.f.of then once else roundTo fmt sat false mode sr (decodeElem 0 mid.code)
    -- NX: the delivered value differs from the exact one; OF and UF against the element type
    { code := fin.code, f := x.2.or { once.f with nx := once.f.nx || fin.f.nx, nv := once.f.nv } }

/-! ## Block formats (R37 to R43, R487) -/

/-- The value of an E8M0 code: none is the NaN 0xFF (R37). -/
def e8m0 (k : Nat) : Option Int := if k = 255 then none else some ((k : Int) - 127)

/-- The value of a 4-bit code whose 0b1000 takes an extra e4m3 byte `x` (R40, R41). -/
def decodeExtra (code x : Nat) : FP :=
  if code % 16 = 8 then
    (if x = 0 || x = 0x80 then .zero true else decodeElem 3 x)
  else decodeElem 7 (code % 16)

/-- The value of an element in its block: v(e) × 2^(k − 127) (R39, R40). `x` is the extra byte of e2m1x. -/
def decodeScaled (fmt code k x : Nat) : FP :=
  let v := if fmt == 9 then decodeExtra code x else decodeElem fmt code
  match e8m0 k with
  | none => .nan
  | some s => v.scale s

/-- One element to quantise: in bounds or pad, and its exact value. -/
structure QElem where
  inb : Bool
  v : FP
  sr : SrIn := {}
  deriving DecidableEq, Repr, Inhabited

/-- A quantised block: scale code, extra byte, element codes and flags. -/
structure QBlock where
  scale : Nat
  extra : Nat
  codes : List Nat
  f : Flags
  deriving DecidableEq, Repr, Inhabited

/-- The element of largest magnitude, the first on a tie (R43). -/
def amax : List FP → FP
  | [] => .zero false
  | x :: xs => let m := amax xs; if FP.lt x.abs m.abs then m else x

def clampInt (lo hi x : Int) : Int := if x < lo then lo else if hi < x then hi else x

/-- emax of R42: 8 for e4m3, 15 for e5m2, 2 for e2m1. -/
def emaxOf (fmt : Nat) : Int :=
  match fmt with
  | 5 => 8
  | 3 => 8
  | 6 => 15
  | 4 => 15
  | _ => 2

/-- The candidates of R43 step 4: the e2m1 codes but -0, and the extra code when it is in use. -/
def e2m1Codes : List Nat := [0, 1, 2, 3, 4, 5, 6, 7, 9, 10, 11, 12, 13, 14, 15]

/-- |a - b| of finite values. -/
def FP.dist (a b : FP) : FP := (FP.sub a b).v.abs

/-- The best e2m1 code for y: nearest, ties to the even mantissa bit (R43). -/
def nearestE2m1 (y : FP) : List Nat → Nat → Nat
  | [], best => best
  | c :: cs, best =>
    let d := FP.dist y (decodeElem 7 c)
    let b := FP.dist y (decodeElem 7 best)
    let better := FP.lt d b || (FP.eqv d b && c % 2 == 0 && best % 2 == 1)
    nearestE2m1 y cs (if better then c else best)

/-- Nearest of the e2m1 values and, when `extra` holds a value, of the extra value (R43, R245). -/
def nearestExtra (y : FP) (extra : Option FP) : Nat :=
  if y.isZero then 0
  else
    let c := nearestE2m1 y e2m1Codes 0
    match extra with
    | some x => if FP.lt (FP.dist y x) (FP.dist y (decodeElem 7 c)) then 8 else c
    | none => c

/-- The code of a finite value in e2m1t (R41, R245): without an extra value a zero keeps its sign (R34). -/
def codeE2m1t (y : FP) (extra : Option FP) : Nat :=
  let c := nearestExtra y extra
  if extra.isNone && c == 0 && y.sign then 8 else c

/-- The value that a 4-bit code with an optional extra value stands for. -/
def valueExtra (c : Nat) (extra : Option FP) : FP :=
  if c = 8 then (match extra with
    | some x => x
    | none => .zero true) else decodeElem 7 c

/-- Flags of a rounding to the e2m1 values with an extra value (R245). DESIGN CHOICE (notes/assumptions/98.md). -/
def flagsExtra (y : FP) (c : Nat) (extra : Option FP) : Flags :=
  let z := valueExtra c extra
  let differs := !(FP.eqv y z)
  -- y rounded to e2m1 precision with the exponent unbounded
  let big := match y with
    | .fin _ m e =>
      if m = 0 then false
      else
        let x : Mag := { man := m, exp := e }
        let (q, _) := roundMag .rne {} x (x.ulpAt 1)
        let covered := !(FP.lt (.fin false q (x.ulpAt 1)) (.fin false 1 3))
        let top := match extra with
          | some v => if v.sign == y.sign && FP.lt (.fin false 6 0) v.abs then v.abs else .fin false 6 0
          | none => .fin false 6 0
        covered && FP.lt top y.abs
    | _ => false
  { of := big, nx := differs,
    uf := differs && !y.isZero && FP.lt z.abs FP.one }

/-- A pad element encoded with its block's scale s and extra byte (R487). -/
def quantPad (fmt : Nat) (mode : Mode) (s : Int) (extra : Option FP) (e : QElem) : Coded :=
  let h := fshape fmt
  match e.v with
  | .nan => { code := if h.ieee || h.e4m3 then h.nanCode else 0, f := { nv := true } }
  | .inf n =>
    let sgn := if n then 2 ^ (h.ebits + h.mbits) else 0
    if fmt == 9 then
      (match extra with
      | some x => if x.sign == n && FP.lt (.fin false 6 0) x.abs then { code := 8, f := { nv := true } }
                  else { code := sgn + h.maxCode, f := { nv := true } }
      | none => { code := sgn + h.maxCode, f := { nv := true } })
    else { code := sgn + h.maxCode, f := { nv := true } }
  | y =>
    if fmt == 9 then
      let z := y.scale (-s)
      let c := nearestExtra z extra
      { code := c, f := flagsExtra z c extra }
    else roundTo fmt true true mode e.sr (y.scale (-s))

/-- Quantise one block of up to 32 elements (R42, R43, R487). `mode` is the mode in force; e2m1x ignores it. DESIGN CHOICE (notes/assumptions/90.md). DESIGN CHOICE (notes/assumptions/98.md). -/
def quantBlock (fmt : Nat) (mode : Mode) (es : List QElem) : QBlock :=
  let inb := es.filter (·.inb)
  let vals := inb.map (·.v)
  if vals.any (fun v => v.isNan || v.isInf) then
    -- R42 step 2: scale 0xFF, every code 0
    let pads := es.filter (fun e => !e.inb)
    let padNv := pads.any (fun e => e.v.isNan || e.v.isInf)
    { scale := 255, extra := 0, codes := es.map (fun _ => 0),
      f := { nv := vals.any FP.isInf || padNv } }
  else if vals.all FP.isZero then
    -- R42 step 3: scale 0x7F, every in-bounds code +0; pads by R487
    let enc := es.map (fun e => if e.inb then ({ code := 0 } : Coded)
      else quantPad fmt mode 0 none e)
    { scale := 127, extra := 0, codes := enc.map (·.code), f := enc.foldl (fun a c => a.or c.f) {} }
  else
    let m := amax vals
    let s := clampInt (-127) 127 (m.floorLog2 - emaxOf fmt)
    if fmt == 9 then
      let xb := (roundTo 3 true true .rne {} (m.scale (-s))).code
      let xv := decodeElem 3 xb
      let enc := es.map (fun e => if e.inb then
          (let y := e.v.scale (-s); let c := nearestExtra y (some xv)
           ({ code := c, f := flagsExtra y c (some xv) } : Coded))
        else quantPad fmt mode s (some xv) e)
      { scale := (s + 127).toNat, extra := xb, codes := enc.map (·.code), f := enc.foldl (fun a c => a.or c.f) {} }
    else
      let enc := es.map (fun e => if e.inb then roundTo fmt true true mode e.sr (e.v.scale (-s))
        else quantPad fmt mode s none e)
      { scale := (s + 127).toNat, extra := 0, codes := enc.map (·.code), f := enc.foldl (fun a c => a.or c.f) {} }

/-! ## Matrix sums (R50, R51, R242) -/

/-- One term product of a matrix sum: the two element values, already scaled by their blocks. -/
structure Prod where
  a : FP
  b : FP
  deriving DecidableEq, Repr, Inhabited

/-- The exact sum of one block's products with R51's specials: `none` of the FP specials is left finite. -/
def blockSum : List Prod → Val
  | [] => { v := .zero true }
  | p :: ps =>
    let x := FP.mul p.a p.b
    let r := blockSum ps
    let s := FP.add x.v r.v
    { v := s.v, f := x.f.or (r.f.or s.f) }

/-- Truncate a finite term toward zero at bit position `lo` (R50). -/
def truncAt (lo : Int) (x : FP) : FP :=
  match x with
  | .fin n m e => if lo ≤ e then .fin n m e else .fin n (m / 2 ^ (lo - e).toNat) lo
  | y => y

/-- The exact sum of a list of values (specials by FP.add). -/
def sumAll : List FP → Val
  | [] => { v := .zero true }
  | x :: xs =>
    let r := sumAll xs
    let s := FP.add x r.v
    { v := s.v, f := r.f.or s.f }

/-- The largest exponent floor(log2 |t|) among the nonzero finite terms. -/
def maxLog2 : List FP → Option Int
  | [] => none
  | x :: xs =>
    let r := maxLog2 xs
    match x with
    | .fin _ m e =>
      if m = 0 then r
      else
        let l := (m.log2 : Int) + e
        (match r with
        | some k => some (max l k)
        | none => some l)
    | _ => r

/-- Whether a matrix sum is tiny (R35): what the window leaves of it is, after rounding; where that is zero, the exact sum. DEDUCED (notes/assumptions/99.md). -/
def tinySum (s exact : FP) : Bool :=
  let x := if s.isZero then exact else s
  match x with
  | .fin _ m e => m != 0 && (fshape 0).tiny .rne {} { man := m, exp := e }
  | _ => false

/-- The result of one step at one element: block terms and old value, one window, one rounding (R50 to R52). DEDUCED (notes/assumptions/99.md). -/
def matrixSum (subMode : Bool) (blocks : List (List Prod)) (old : FP) : F32R :=
  let anyNan := old.isNan || blocks.any (fun b => b.any (fun p => p.a.isNan || p.b.isNan))
  if anyNan then { v := 0x7FC00000#32 }
  else
    let bs := blocks.map blockSum
    let fl := bs.foldl (fun a b => a.or b.f) ({} : Flags)
    let ts := bs.map (fun b => if subMode then b.v.negate else b.v)
    let terms := ts ++ [old]
    if terms.any FP.isNan then { v := 0x7FC00000#32, f := fl }
    else if terms.any FP.isInf then
      let s := sumAll terms
      match s.v with
      | .inf n => { v := if n then 0xFF800000#32 else 0x7F800000#32 }
      | _ => { v := 0x7FC00000#32, f := { nv := true } }
    else
      match maxLog2 terms with
      | none =>
        -- every term is zero: the sign of R34
        let s := sumAll terms
        { v := BitVec.ofNat 32 (roundF32 s.v).code }
      | some e =>
        let lo := e - 119
        let s := (sumAll (terms.map (truncAt lo))).v
        let exact := (sumAll terms).v
        let c := roundF32 s
        let r := decodeElem 0 c.code
        -- NX: the result differs from the exact sum before truncation (R242)
        let nx := c.f.of || !(FP.eqv r exact)
        { v := BitVec.ofNat 32 c.code, f := { of := c.f.of, nx := nx, uf := nx && !c.f.of && tinySum s exact } }

end Sys2Proof.Machine
end

