-- ==== Sys2Proof/Config.lean ====
section
/-!
DEFINITION. The free values: opaque constants with no body. Where the spec leaves a value or an order open, the model
applies one of them to the counter State.freeCtr, which every use advances, so no proof can see the value taken.
Also the few numbers the package fixes (R8, R9, R16).
-/
namespace Sys2Proof.Config

/-- A free bit. DESIGN CHOICE (notes/assumptions/5.md). -/
opaque freeBit : Nat → Bool
/-- A free 64-bit word. -/
opaque freeWord : Nat → BitVec 64
/-- A free number. DESIGN CHOICE (notes/assumptions/5.md). DESIGN CHOICE (notes/assumptions/19.md). -/
opaque freeNat : Nat → Nat
/-- A free byte. -/
opaque freeByte : Nat → BitVec 8

/-- Whether an image of firmware or a configuration record with its signature passes FIPS 205 under Berram's key (R477,
R478): the key and the algorithm are outside the spec. DESIGN CHOICE (notes/assumptions/74.md). -/
opaque signed : List (BitVec 8) → Bool
/-- The version that a firmware image carries (R478): the spec gives no layout. DESIGN CHOICE (notes/assumptions/74.md). -/
opaque firmwareVersion : List (BitVec 8) → BitVec 16
/-- The hash of the measurements of R483. -/
opaque digest : List (BitVec 8) → BitVec 256
/-- The digest of the hub ROM (R483) and the package serial that the hub holds (R476). -/
opaque romDigest : BitVec 256
opaque serial : BitVec 64

/-- Cores of the package (R9): 24 on each of 4 compute dies. -/
def coreCount : Nat := 96
/-- Cores of a compute die. -/
def coresPerDie : Nat := 24
/-- Stacks of the package. -/
def stackCount : Nat := 12
/-- Channels, and channel engines, of a stack. -/
def channelsPerStack : Nat := 32
/-- Scratchpad bytes of a core (R16, R182). -/
def spadBytes : Nat := 0x400000
/-- Words of the program text store (R16, R62). -/
def textWords : Nat := 65536
/-- Entries of the hub footprint table (R313). -/
def footprintEntries : Nat := 16384

end Sys2Proof.Config
end

