-- ==== Sys2Proof/Machine/Sparse.lean ====
section
/-!
DEFINITION. Sparse arrays in one canonical form: a list of (index, value) pairs with rising indexes and no entry equal
to the default. Memory, scratchpads, program text and the keyed tables of the package are held so.
-/
namespace Sys2Proof.Machine

/-- The value at index `k`: the listed one, else the default. -/
def sget {α : Type} (d : α) (k : Nat) : List (Nat × α) → α
  | [] => d
  | (i, v) :: r => if k < i then d else if k = i then v else sget d k r

/-- Writes `v` at index `k`, keeping the canonical form: writing the default removes the entry. -/
def sset {α : Type} [DecidableEq α] (d : α) (k : Nat) (v : α) : List (Nat × α) → List (Nat × α)
  | [] => if v = d then [] else [(k, v)]
  | (i, w) :: r =>
    if k < i then (if v = d then (i, w) :: r else (k, v) :: (i, w) :: r)
    else if k = i then (if v = d then r else (k, v) :: r)
    else (i, w) :: sset d k v r

/-- The canonical form from a lower bound on. -/
def swfFrom {α : Type} [DecidableEq α] (d : α) : Nat → List (Nat × α) → Bool
  | _, [] => true
  | lo, (i, v) :: r => decide (lo ≤ i) && decide (v ≠ d) && swfFrom d (i + 1) r

/-- The canonical form: indexes strictly rise and no entry holds the default. -/
def swf {α : Type} [DecidableEq α] (d : α) (m : List (Nat × α)) : Bool := swfFrom d 0 m

/-! ## Byte arrays, little-endian (R4) -/

/-- A byte store: physical memory, a scratchpad, or an argument window. -/
abbrev Bytes := List (Nat × Byte)

/-- One byte; an unlisted byte reads as 0. DESIGN CHOICE (notes/assumptions/8.md). -/
def Bytes.get (m : Bytes) (a : Nat) : Byte := sget (0 : Byte) a m

/-- Writes one byte. -/
def Bytes.set (m : Bytes) (a : Nat) (b : Byte) : Bytes := sset (0 : Byte) a b m

/-- The canonical form of a byte store. -/
def Bytes.wf (m : Bytes) : Bool := swf (0 : Byte) m

/-- `n` bytes from `a` up as one number, the lowest address least significant. -/
def Bytes.getNat (m : Bytes) (a : Nat) : Nat → Nat
  | 0 => 0
  | n + 1 => (m.get a).toNat + 256 * Bytes.getNat m (a + 1) n

/-- Writes the low `n` bytes of a number from `a` up. -/
def Bytes.setNat (m : Bytes) (a : Nat) : Nat → Nat → Bytes
  | 0, _ => m
  | n + 1, v => Bytes.setNat (m.set a (BitVec.ofNat 8 v)) (a + 1) n (v / 256)

/-- The doubleword at `a`. -/
def Bytes.get64 (m : Bytes) (a : Nat) : Word := BitVec.ofNat 64 (m.getNat a 8)

/-- The bytes from `a` up. -/
def Bytes.slice (m : Bytes) (a : Nat) : Nat → List Byte
  | 0 => []
  | n + 1 => m.get a :: Bytes.slice m (a + 1) n

/-- Writes a run of bytes from `a` up. -/
def Bytes.splice (m : Bytes) (a : Nat) : List Byte → Bytes
  | [] => m
  | b :: r => Bytes.splice (m.set a b) (a + 1) r

/-- The number whose little-endian bytes are `l`. -/
def leNat : List Byte → Nat
  | [] => 0
  | b :: r => b.toNat + 256 * leNat r

/-- The low `n` bytes of a number, little-endian. -/
def leBytes : Nat → Nat → List Byte
  | 0, _ => []
  | n + 1, v => BitVec.ofNat 8 v :: leBytes n (v / 256)

/-- Bits [hi:lo] of a doubleword as a number (R3). -/
def bitsOf (v : Nat) (hi lo : Nat) : Nat := v / 2 ^ lo % 2 ^ (hi + 1 - lo)

/-- The keyed entry of a table of records. -/
def lookup {α : Type} (k : Nat) : List (Nat × α) → Option α
  | [] => none
  | (i, v) :: r => if k = i then some v else lookup k r

/-- Writes a keyed record, in place if the key is there, else at the end. -/
def assign {α : Type} (k : Nat) (v : α) : List (Nat × α) → List (Nat × α)
  | [] => [(k, v)]
  | (i, w) :: r => if k = i then (k, v) :: r else (i, w) :: assign k v r

/-- Removes a keyed record. -/
def erase {α : Type} (k : Nat) : List (Nat × α) → List (Nat × α)
  | [] => []
  | (i, w) :: r => if k = i then r else (i, w) :: erase k r

end Sys2Proof.Machine
end

