-- ==== Sys2Proof/Machine/CoreTypes.lean ====
section
/-!
DEFINITION. The state of one core: registers with their poison tags (R139), the five engines (R126 to R154), rings,
FIFOs and semaphores (R129, R157, R160), the vector and matrix state (R208, R235), streams and rings (R184, R196),
the X engine's cards (R262, R273) and the CSRs (R114).
-/
namespace Sys2Proof.Machine

/-! ## Registers -/

/-- A 64-bit register and its poison tag (R139). -/
structure Reg where
  v : BitVec 64 := 0
  p : Bool := false
  deriving DecidableEq, Repr, Inhabited

/-- A flag and its tag. -/
structure FlagReg where
  v : Bool := false
  p : Bool := false
  deriving DecidableEq, Repr, Inhabited

/-- 512 bytes with one tag per 4-byte lane: a v register or a queue entry (R139, R209). -/
structure VecReg where
  v : BitVec 4096 := 0
  p : BitVec 128 := 0
  deriving DecidableEq, Repr, Inhabited

/-- A mask of 1,024 bits, one tag each. -/
structure MaskReg where
  v : BitVec 1024 := 0
  p : BitVec 1024 := 0
  deriving DecidableEq, Repr, Inhabited

/-- The name of a register that has a latency bound (R134). -/
inductive RegId where
  | s (n : BitVec 6)
  | f (n : BitVec 3)
  | a (n : BitVec 5)
  | x (n : BitVec 4)
  | k (n : BitVec 4)
  | h (n : BitVec 3)
  | v (n : BitVec 5)
  | m (n : BitVec 3)
  deriving DecidableEq, Repr, Inhabited

/-- The contents of a register. -/
inductive RegVal where
  | word (r : Reg)
  | flag (r : FlagReg)
  | vec (r : VecReg)
  | mask (r : MaskReg)
  deriving DecidableEq, Repr, Inhabited

/-- A write whose bound has not passed (R134, R135): the value before it, the slot from which a reader sees it. `lock` is the
scoreboard place of the access in flight whose value the register waits for (R137). -/
structure Pend where
  reg : RegId
  old : RegVal
  bound : Nat
  pc : BitVec 17
  lock : Option Nat := none
  deriving DecidableEq, Repr, Inhabited

/-! ## Engines -/

/-- A loop level (R144). The counts are held whole: LOOPI's composed count may exceed 32 bits (R149). -/
structure LoopLevel where
  isOpen : Bool := false
  start : BitVec 16 := 0
  stop : BitVec 16 := 0
  index : BitVec 64 := 0
  remaining : BitVec 64 := 0
  frame : BitVec 5 := 0
  deriving DecidableEq, Repr, Inhabited

/-- An entry of a decision FIFO: a branch decision or a LOOP count (R142). -/
inductive Decision where
  | branch (taken : Bool)
  | count (n : BitVec 32)
  deriving DecidableEq, Repr, Inhabited

/-- A place reserved in a ring queue by the word of issue slot `slot`; `ahead` tells which queue (R130), `seen` the words of
M that the word stands after (R208). -/
structure Resv where
  slot : Nat
  ahead : Bool
  seen : Nat := 0
  deriving DecidableEq, Repr, Inhabited

/-- Sectors of versioned pages that a reader without a pin has begun to read: their address, the frame's address then, and
the bytes then (R300). -/
abbrev Early := List (Nat × Nat × BitVec 512)

/-- What a stalled BARW waits for (R392): the binding, the instance or round, the block's address, and how the wait has
ended: 0 completed, 1 abandoned or unbound, 2 withheld. -/
structure BarWait where
  id : Nat
  i : Nat
  addr : Nat
  res : Option Nat := none
  deriving DecidableEq, Repr, Inhabited

/-- One engine of a core. `pc` may be 65,536: past the text (R62). `toAhead` and `toBehind` count the tokens in the
queues this engine signals (R129). `ext` holds the payloads of pending prefixes, `extB` says they are B words (R69),
`extEdge` that a back-edge came after them (R70). `ringDone` says that the word at `pc` has done its ring pops and reservations and
waits inside its body, `ringPopped` that it has done its pops alone and reserves anew: it raised LATENCY into the monitor (R121,
R130). A return address may be 65,536, past the text (R62, R148). `mark` is where the core's
accesses stood when a word that waits for the earlier ones began (R328); `barw` the wait of a stalled BARW; `early` what a
stalled read of a versioned page has begun to read. By tokens and semaphores the engine stands after the first `seen` words of M
(R208), and the tokens in its queues carry `aheadSeen` and `behindSeen`. -/
structure EngineSt where
  pc : BitVec 17 := 0
  pos : Nat := 0
  ended : Bool := false
  stopped : Bool := false
  atSync : Bool := false
  b : Vector (BitVec 16) 4 := Vector.replicate 4 0
  loops : Vector LoopLevel 4 := Vector.replicate 4 {}
  rets : List (BitVec 17) := []
  ext : List (BitVec 18) := []
  extB : Bool := false
  extEdge : Bool := false
  decs : List Decision := []
  fstat : BitVec 5 := 0
  slot : Nat := 0
  pend : List Pend := []
  latOnce : Bool := false
  ringDone : Bool := false
  ringPopped : Bool := false
  toAhead : Nat := 0
  toBehind : Nat := 0
  resv : List Resv := []
  waitMet : Bool := false
  mark : Option Nat := none
  barw : Option BarWait := none
  early : Early := []
  seen : Nat := 0
  aheadSeen : List Nat := []
  behindSeen : List Nat := []
  deriving DecidableEq, Repr, Inhabited

/-- A WAIT that stalls, in the order in which they began (R162). `mon` marks a word of the monitor, beside which a WAIT of
S itself may stand (R121). -/
structure SemWait where
  eng : Engine
  sem : BitVec 4
  count : BitVec 14
  mon : Bool := false
  deriving DecidableEq, Repr, Inhabited

/-- Who makes a semaphore change (R160). -/
inductive SemSrc where
  | eng (e : Engine) (slot : Nat)
  | array
  | ring (n : BitVec 3)
  | hub
  deriving DecidableEq, Repr, Inhabited

/-- An increment not yet applied (R161, R162); `seen` counts the words of M that it stands after (R208). -/
structure SemInc where
  src : SemSrc
  sem : BitVec 4
  count : Nat
  seen : Nat := 0
  deriving DecidableEq, Repr, Inhabited

/-! ## Streams, rings and the unfold unit (R184, R196, R203, R254) -/

/-- A stream descriptor (Table 6.5). -/
structure StreamDesc where
  qsel : BitVec 6 := 0
  space : BitVec 2 := 0
  dims : BitVec 2 := 0
  acc : Bool := false
  ring : BitVec 3 := 0
  depth : BitVec 5 := 0
  semn : BitVec 4 := 0
  semen : Bool := false
  base : BitVec 56 := 0
  len0 : BitVec 32 := 0
  cnt1 : BitVec 32 := 0
  cnt2 : BitVec 32 := 0
  cnt3 : BitVec 32 := 0
  str1 : BitVec 64 := 0
  str2 : BitVec 64 := 0
  str3 : BitVec 64 := 0
  reserved : Bool := false
  deriving DecidableEq, Repr, Inhabited

/-- A bound stream. `next` counts the entries of the pattern delivered or written, for SPACE 2 within the ring slot
in hand; `seq` is its place in the range scoreboard; `fps` its footprints; `re` marks a REBIND that waits to enter its new range. -/
structure Stream where
  desc : StreamDesc
  next : Nat := 0
  psn : Bool := false
  re : Bool := false
  early : Early := []
  fps : List Nat := []
  seq : Nat := 0
  pc : BitVec 17 := 0
  deriving DecidableEq, Repr, Inhabited

/-- A subscription (R198, R199). `filled` is F or D, `passed` is V or H; `busy` says that the tile `tile` is in flight.
`covered` holds bytes overwritten in slots in STORING, as they were before. -/
structure Subscription where
  desc : StreamDesc
  store : Bool
  filled : Nat := 0
  passed : Nat := 0
  busy : Bool := false
  tile : List Byte := []
  covered : List (Nat × Byte) := []
  ending : Bool := false
  early : Early := []
  fps : List Nat := []
  seq : Nat := 0
  pc : BitVec 17 := 0
  deriving DecidableEq, Repr, Inhabited

/-- A configured scratchpad ring (R197). -/
structure SpRing where
  base : Nat
  size : Nat
  count : Nat
  sub : Option Subscription := none
  deriving DecidableEq, Repr, Inhabited

/-- An unfold descriptor (Table 8.5) and where it stood. -/
structure Unfold where
  addr : Nat := 0
  mode : BitVec 4 := 0
  mlvl : BitVec 3 := 0
  klvl : BitVec 3 := 0
  sfmt : BitVec 4 := 0
  kpp : BitVec 8 := 0
  pad : BitVec 32 := 0
  tbase : BitVec 32 := 0
  sbase : BitVec 32 := 0
  rows : BitVec 32 := 0
  cols : BitVec 32 := 0
  pitch : BitVec 32 := 0
  spitch : BitVec 32 := 0
  chans : BitVec 16 := 0
  kh : BitVec 8 := 0
  kw : BitVec 8 := 0
  sh : BitVec 8 := 0
  sw : BitVec 8 := 0
  dh : BitVec 8 := 0
  dw : BitVec 8 := 0
  ow : BitVec 16 := 0
  oh : BitVec 16 := 0
  pt : BitVec 8 := 0
  pl : BitVec 8 := 0
  idxbase : BitVec 32 := 0
  idxcnt : BitVec 32 := 0
  moff : BitVec 32 := 0
  koff : BitVec 32 := 0
  seq : Nat := 0
  deriving DecidableEq, Repr, Inhabited

/-! ## The array (R235 to R253) -/

/-- An accumulator tile: 128 rows of 128 fp32, one tag per element, and STEPS. -/
structure Tile where
  rows : Vector VecReg 128 := Vector.replicate 128 {}
  steps : BitVec 32 := 0
  deriving DecidableEq, Repr, Inhabited

/-- One output column of a stationary slot: W(0, n) to W(Kc − 1, n) packed by R36, one tag per element. -/
structure WCol where
  v : BitVec 2048 := 0
  p : BitVec 512 := 0
  deriving DecidableEq, Repr, Inhabited

/-- A stationary slot (R239). WFMT 0 means never loaded; `side` is the side plane as loaded. -/
structure WSlot where
  cols : Vector WCol 128 := Vector.replicate 128 {}
  side : BitVec 32768 := 0
  wfmt : BitVec 4 := 0
  west : Bool := false
  deriving DecidableEq, Repr, Inhabited

/-- What a step takes with it when it enters the array sequence (R241, R250). `covered` holds every scratchpad byte written
since, as it was before that write, for the reads of R257; `chain` names the chain's semaphore for a
chained step. -/
structure StepOp where
  z : BitVec 4
  zero : Bool
  entry : BitVec 32
  slot : BitVec 1
  xa : BitVec 8
  xw : BitVec 8
  xp : Bool
  mb : Nat
  kb : Nat
  bind : Unfold
  covered : List (Nat × Byte)
  chain : Option (BitVec 4)
  deriving DecidableEq, Repr, Inhabited

/-- A member of the step queue (R237, R244), with the issue slot of M that entered it. -/
inductive ArrayOp where
  | step (s : StepOp) (at_ : Nat)
  | zero (z : BitVec 4) (at_ : Nat)
  | scl (d a : BitVec 4) (h : Reg) (at_ : Nat)
  | acc (d a b : BitVec 4) (at_ : Nat)
  | trz (d a : BitVec 4) (at_ : Nat)
  deriving DecidableEq, Repr, Inhabited

/-- The chain of R250: armed with a semaphore while `remaining` is nonzero. The slot holds a chain word and the
ticket of its X job. -/
structure Chain where
  armed : Bool := false
  sem : BitVec 4 := 0
  remaining : Nat := 0
  slot : Option (BitVec 32 × Nat) := none
  deriving DecidableEq, Repr, Inhabited

/-- The stage configuration of R252. -/
structure Stage where
  lvl : BitVec 2
  depth : Nat
  cur : Nat
  deriving DecidableEq, Repr, Inhabited

/-! ## Job cards (R262) -/

/-- The fields of a 128-byte job card (Table 9.1), and whether a reserved bit was set. -/
structure Card where
  addr : Nat := 0
  opc : BitVec 8 := 0
  ssp : Bool := false
  dsp : Bool := false
  rnd : BitVec 2 := 0
  ns : Bool := false
  clipen : Bool := false
  vdl : Bool := false
  fin : BitVec 4 := 0
  fout : BitVec 4 := 0
  region : BitVec 16 := 0
  prio : BitVec 6 := 0
  waitsem : BitVec 16 := 0
  sigsem : BitVec 16 := 0
  vdeadline : BitVec 48 := 0
  cost : BitVec 16 := 0
  src : BitVec 64 := 0
  dst : BitVec 64 := 0
  ext0 : BitVec 16 := 0
  ext1 : BitVec 16 := 0
  ext2 : BitVec 16 := 0
  ext3 : BitVec 16 := 0
  sstr1 : BitVec 32 := 0
  sstr2 : BitVec 32 := 0
  sstr3 : BitVec 32 := 0
  dstr1 : BitVec 32 := 0
  dstr2 : BitVec 32 := 0
  dstr3 : BitVec 32 := 0
  scale : BitVec 32 := 0
  clip : BitVec 32 := 0
  perm : BitVec 8 := 0
  edge0 : BitVec 16 := 0
  edge1 : BitVec 16 := 0
  pad : BitVec 16 := 0
  chain : BitVec 32 := 0
  chen : Bool := false
  xfbase : BitVec 56 := 0
  xflen : BitVec 32 := 0
  xfmode : BitVec 3 := 0
  xfsp : Bool := false
  crec : BitVec 56 := 0
  jobid : BitVec 64 := 0
  reserved : Bool := false
  deriving DecidableEq, Repr, Inhabited

/-- States of a card accepted by X (R273, R276). -/
inductive CardState where
  | waiting | running | done | cancelled
  deriving DecidableEq, Repr, Inhabited

/-- A card of a core's X engine: its state, the word that submitted it, its footprints and scoreboard place.
`moved` says its operands are read and its results written (R266 step 1), `chained` that its chain word has been taken;
`q` is the replica sequence number of an MCAST, `tag` the generation of its group at its acceptance (R445), `fault` what ends
it. -/
structure XCard where
  ticket : Nat
  card : Card
  st : CardState := .waiting
  pc : BitVec 17 := 0
  seq : Nat := 0
  fps : List Nat := []
  moved : Bool := false
  chained : Bool := false
  early : Early := []
  q : Option Nat := none
  tag : Option (BitVec 32) := none
  fault : Option (BitVec 8 × BitVec 64) := none
  deriving DecidableEq, Repr, Inhabited

/-! ## Traps and CSRs -/

/-- A cause record (Table 4.5). -/
structure Cause where
  cause : BitVec 8
  src : BitVec 8
  unit : BitVec 16
  pc : BitVec 16
  detail : BitVec 64
  node : BitVec 32
  gen : BitVec 16
  region : BitVec 16
  attempt : BitVec 8
  prev : BitVec 8
  deriving DecidableEq, Repr, Inhabited

/-- What a core is doing (R105, R122). -/
inductive CoreMode where
  | free | loading | running | monitor | saving | saved | restoring | stopping | ended | hung
  deriving DecidableEq, Repr, Inhabited

/-- The state of a core. DESIGN CHOICE (notes/assumptions/7.md). -/
structure Core where
  mode : CoreMode := .free
  /-- The gang whose kernel the core runs. -/
  gang : Option Nat := none
  /-- The context the core last worked for (R98). -/
  lastCtx : BitVec 8 := 0
  engS : EngineSt := {}
  engA : EngineSt := {}
  engM : EngineSt := {}
  engV : EngineSt := {}
  engX : EngineSt := {}
  text : List (Nat × Word32) := []
  textLen : Nat := 0
  win : Bytes := []
  winLen : Nat := 0
  s : Vector Reg 64 := Vector.replicate 64 {}
  f : Vector FlagReg 8 := Vector.replicate 8 {}
  a : Vector Reg 32 := Vector.replicate 32 {}
  x : Vector Reg 16 := Vector.replicate 16 {}
  k : Vector Reg 16 := Vector.replicate 16 {}
  h : Vector Reg 8 := Vector.replicate 8 {}
  v : Vector VecReg 32 := Vector.replicate 32 {}
  m : Vector MaskReg 8 := Vector.replicate 8 {}
  iq : Vector (List VecReg) 8 := Vector.replicate 8 []
  oq : Vector (List VecReg) 4 := Vector.replicate 4 []
  /-- Entries that a waiting word of more than 16 pops needs (notes/assumptions/21.md). -/
  iqWant : Vector Nat 8 := Vector.replicate 8 0
  /-- VCFG as last set (R208), seed, step and index of R213. -/
  vcfg : BitVec 17 := 0
  seed : BitVec 64 := 0
  step : BitVec 64 := 0
  idx : BitVec 64 := 0
  z : Vector Tile 16 := Vector.replicate 16 {}
  w : Vector WSlot 2 := Vector.replicate 2 {}
  msel : BitVec 1 := 0
  ft : Vector (BitVec 32) 16 := Vector.replicate 16 0
  stepq : List ArrayOp := []
  chain : Chain := {}
  stage : Option Stage := none
  sem : Vector (BitVec 16) 16 := Vector.replicate 16 0
  semWaits : List SemWait := []
  semIncs : List SemInc := []
  semSeen : Vector Nat 16 := Vector.replicate 16 0
  ftLog : List (Nat × BitVec 32 × Nat) := []
  /-- Value FIFOs: inbound to A, V, M, X, then to S from A, V, M, X (R157). -/
  fifo : Vector (List (BitVec 64)) 8 := Vector.replicate 8 []
  streams : Vector (Option Stream) 16 := Vector.replicate 16 none
  rings : Vector (Option SpRing) 8 := Vector.replicate 8 none
  unfold : Option Unfold := none
  /-- The descriptor that a waiting BIND or SUBS has read, and its address (R188). -/
  descRead : Option (BitVec 64 × StreamDesc) := none
  spad : Bytes := []
  cards : List XCard := []
  /-- The bytes of the card that a waiting XJOB or XJOBG has read (R272). -/
  cardRead : Option (List Byte) := none
  ticket : Nat := 0
  /-- The next place in the range scoreboard (R205). -/
  sbNext : Nat := 0
  /-- Claims: claim number to footprint (R334). -/
  claims : List (Nat × Nat) := []
  /-- RSIGs not yet acknowledged (R454). -/
  rsigs : List Nat := []
  slip : BitVec 64 := 1024
  preq : Bool := false
  region : BitVec 16 := 0
  node : BitVec 32 := 0
  gen : BitVec 16 := 0
  gangSize : BitVec 8 := 0
  gangRank : BitVec 8 := 0
  attempt : BitVec 8 := 0
  dbgEn : Bool := false
  dbgLat : Bool := false
  mon : Bool := false
  dbgvec : BitVec 64 := 0
  epc : Vector (BitVec 64) 5 := Vector.replicate 5 0
  ecause : BitVec 64 := 0
  edetail : BitVec 64 := 0
  /-- S as it stood at monitor entry (R121), and the record of the entry, after which a trap in the monitor is chained (R120). -/
  monSaved : EngineSt := {}
  entry : Option Cause := none
  /-- The core stands still because another core of its gang is in the monitor (R122). -/
  held : Bool := false
  dscr0 : BitVec 64 := 0
  dscr1 : BitVec 64 := 0
  cycle : BitVec 64 := 0
  /-- The bitmaps of the last PHINT passed (R113). -/
  phint : Option (BitVec 32 × BitVec 32) := none
  /-- Records written since the core began to stop (R100), the first primary. -/
  causes : List Cause := []
  stopReq : Bool := false
  /-- A forced stop has been asked for (R110). -/
  forced : Bool := false
  /-- Replica bound seen by S, the floor that S's acquires raise for S, and the floor that acquires of the core raise for all
  its agents (R303, R333). -/
  repSeen : Nat := 0
  repFloor : Nat := 0
  repAcq : Nat := 0
  deriving DecidableEq, Repr, Inhabited

end Sys2Proof.Machine
end

