-- ==== Sys2Proof/Machine/PageTypes.lean ====
section
/-!
DEFINITION. Package state around memory: contexts and regions (R92 to R97), footprints (R313), translation caches and
pending walks (R305, R306), the die caches (R322), accesses in flight, replica updates (R302) and gangs (R122).
-/
namespace Sys2Proof.Machine

/-- Context states (Table 4.1). -/
inductive CtxState where
  | new | loaded | runnable | running | preempting | saved | dumping | dead
  deriving DecidableEq, Repr, Inhabited

/-- STATE codes of Table 4.1. -/
def CtxState.code : CtxState → Nat
  | .new => 0 | .loaded => 1 | .runnable => 2 | .running => 3 | .preempting => 4 | .saved => 5 | .dumping => 6 | .dead => 7

/-- A region control block (Table 4.3). -/
structure Region where
  parent : BitVec 16 := 0xFFFF
  ovr : BitVec 16 := 0
  pbase : BitVec 6 := 0
  pceil : BitVec 6 := 0
  fd : Bool := false
  cores : BitVec 8 := 0
  cesh : BitVec 8 := 0
  linksh : BitVec 8 := 0
  fpent : BitVec 16 := 0
  buckets : BitVec 16 := 0
  weight : BitVec 16 := 0
  wdog : BitVec 32 := 0
  quantum : BitVec 32 := 0
  stq : BitVec 56 := 0
  stqlen : BitVec 32 := 0
  deriving DecidableEq, Repr, Inhabited

/-- A context descriptor (Table 4.1), the region table in force (R96), its fatal cause chain (R102) and the counts of
its launch page (R287). -/
structure Ctx where
  state : CtxState := .new
  ptroot : Nat := 0
  rtab : Nat := 0
  rcount : Nat := 0
  dumpva : Nat := 0
  dumplen : Nat := 0
  saveva : Nat := 0
  savecnt : Nat := 0
  regions : List Region := []
  accepted : BitVec 64 := 0
  refused : BitVec 64 := 0
  causes : List Cause := []
  /-- Save slots in use, and by whom they are held: slot number to gang. -/
  saveSlots : List (Nat × Nat) := []
  /-- DEBUG settings per graph and node (R482): graph, node, DBGCTL, DBGVEC. -/
  debugs : List (Nat × Nat × BitVec 64 × BitVec 64) := []
  /-- Bytes of the records that the device has written, as runs: programs read them plainly (R265, R319). -/
  recs : List (Nat × Nat) := []
  deriving DecidableEq, Repr, Inhabited

/-- How an access uses a page (R296): plain read or write, accumulate-write, atomic, or read of program text. -/
inductive Acc where
  | read | write | acc | atom | text
  deriving DecidableEq, Repr, Inhabited

/-- Footprint modes (R314). -/
inductive FpMode where
  | r | w | rw | acc | atom
  deriving DecidableEq, Repr, Inhabited

/-- Owners of footprints (Table 11.1). `hub` numbers hub-run cards, `gang` KLAUNCH cards, `remote` incoming remote
cards. -/
inductive Owner where
  | core (c : Nat)
  | hub (id : Nat)
  | gang (id : Nat)
  | bucket (id : Nat)
  | launch (id : Nat)
  | walk (id : Nat)
  | remote (id : Nat)
  deriving DecidableEq, Repr, Inhabited

/-- A live footprint entry (R313), kept in the order of entry. -/
structure Fp where
  id : Nat
  ctx : BitVec 8
  owner : Owner
  base : Nat
  len : Nat
  mode : FpMode
  region : Nat
  deriving DecidableEq, Repr, Inhabited

/-- Who waits for a footprint entry or a translation. -/
inductive Who where
  | eng (c : Nat) (e : Engine)
  | owner (o : Owner)
  deriving DecidableEq, Repr, Inhabited

/-- A waiter for entries, in arrival order (R316); `timedOut` once WDOG has passed (R97). -/
structure FpWaiter where
  who : Who
  ctx : BitVec 8 := 0
  region : Nat := 0
  count : Nat := 0
  timedOut : Bool := false
  deriving DecidableEq, Repr, Inhabited

/-- The translation caches of Table 10.6. -/
inductive TlbId where
  | eng (c : Nat) (e : Engine)
  | die (j : Nat)
  | base (s : Nat)
  | hub
  deriving DecidableEq, Repr, Inhabited

/-- A cached leaf: its page (virtual base and size) and its PTE (R305). -/
structure TlbEntry where
  cache : TlbId
  ctx : BitVec 8
  vbase : Nat
  size : Nat
  pte : BitVec 64
  deriving DecidableEq, Repr, Inhabited

/-- A miss that waits for the hub walker (R306). -/
structure WalkReq where
  ctx : BitVec 8
  va : Nat
  acc : Acc
  who : Who
  deriving DecidableEq, Repr, Inhabited

/-- A walk that failed for a requester (R295): the cause and DETAIL it takes. -/
structure WalkFail where
  who : Who
  va : Nat
  cause : BitVec 8
  detail : BitVec 64
  deriving DecidableEq, Repr, Inhabited

/-- A valid sector of a die cache (R322). `owner` names the owner of a dirty sector. -/
structure DSector where
  die : Nat
  ctx : BitVec 8
  va : Nat
  pa : Nat
  data : BitVec 512
  owner : Option Nat
  key : Nat := 0
  deriving DecidableEq, Repr, Inhabited

/-- What a load or an atomic in flight has still to do (R159), and the register that gets its value: a load, `safe` when a failure
leaves poison (R175); an operation with its operation register and operand (R179); a compare and swap. -/
inductive Late where
  | load (reg : RegId) (safe : Bool)
  | atom (reg : RegId) (op v : BitVec 64)
  | cas (reg : RegId) (cmp v : BitVec 64)
  deriving DecidableEq, Repr, Inhabited

/-- The register that the value of a late access goes to. -/
def Late.reg : Late → RegId
  | .load r _ => r
  | .atom r _ _ => r
  | .cas r _ _ => r

/-- A global access of an engine between its issue and its completion (R174, R327). `rel` marks the release of a footprint
(R318). `store` holds what a store has still to write, `late` what a load or an atomic has still to do: it takes effect, and
enters the range scoreboard, when it completes (R159, R206); `pc` is its word's address. `seq` is the place in the scoreboard at its issue. -/
structure Flight where
  core : Nat
  eng : Engine
  slot : Nat
  fp : Option Nat
  va : Nat
  len : Nat
  mode : FpMode
  seq : Nat := 0
  rel : Bool := false
  store : Option (List Byte) := none
  late : Option Late := none
  sp : Bool := false
  pc : BitVec 17 := 0
  deriving DecidableEq, Repr, Inhabited

/-- Whether an access in flight has not taken effect yet. -/
def Flight.pends (f : Flight) : Bool := f.store.isSome || f.late.isSome

/-- An update of `n` bytes from byte `lo` of one sector that replica `rep` has not applied yet (R303). -/
structure RepUpd where
  rep : Nat
  pa : Nat
  q : Nat
  data : BitVec 512
  key : Nat := 0
  lo : Nat := 0
  n : Nat := 64
  deriving DecidableEq, Repr, Inhabited

/-- Under which key a sector's bytes were stored, when not in the clear: slot and the slot's load count (R304). -/
structure KeyTag where
  slot : BitVec 8 := 0
  load : Nat := 0
  deriving DecidableEq, Repr, Inhabited

/-- A key slot: loaded or not, its load count, the contexts it is granted to, and the key material (R304, R483). -/
structure KeySlot where
  loaded : Bool := false
  load : Nat := 0
  grants : List (BitVec 8) := []
  key : BitVec 512 := 0
  deriving DecidableEq, Repr, Inhabited

/-- A write to a context's launch page that waits to be acted on (R287); of a core's write, the core and its place in the
core's accesses (R288). -/
structure LaunchWrite where
  ctx : BitVec 8
  off : Nat
  size : Nat
  value : Nat
  core : Option (Nat × Nat) := none
  deriving DecidableEq, Repr, Inhabited

/-- Kernel states of Table 5.1. -/
inductive KState where
  | loading | running | stopping | monitor | saving | saved | restoring | faulted | cancelled | ended
  deriving DecidableEq, Repr, Inhabited

/-- What is kept of a saved core besides the bytes that the spec lays out: its footprints (R321), its claims, its replica
bounds, the tickets of its X cards and how they ended (R272, R276), whether its resume PC has passed the text (R62: 65,536,
of which Table 4.7 has room for 16 bits), and the stream state of the STRM section, of which Table 4.7 gives the place only. DESIGN CHOICE (notes/assumptions/46.md). -/
structure Kept where
  fps : List Nat := []
  claims : List (Nat × Nat) := []
  repSeen : Nat := 0
  repFloor : Nat := 0
  repAcq : Nat := 0
  ticket : Nat := 0
  cards : List XCard := []
  streams : Vector (Option Stream) 16 := Vector.replicate 16 none
  rings : Vector (Option SpRing) 8 := Vector.replicate 8 none
  unfold : Option Unfold := none
  iq : Vector (List VecReg) 8 := Vector.replicate 8 []
  past : Bool := false
  deriving DecidableEq, Repr, Inhabited

/-- A gang: the cores of one kernel attempt, in ascending order, and the work it serves (R122, R283). `savedAt` gives
for each rank the save slot of its image, or none where the rank has not saved. -/
structure Gang where
  ctx : BitVec 8
  state : KState
  card : Nat
  cores : List Nat
  size : Nat
  textVa : Nat
  textLen : Nat
  winVa : Nat
  winLen : Nat
  region : BitVec 16
  node : BitVec 32
  gen : BitVec 16
  attempt : BitVec 8
  preq : Bool := false
  cancel : Bool := false
  pastQuantum : Bool := false
  savedAt : List (Nat × Nat) := []
  kept : List (Nat × Kept) := []
  /-- Increments for semaphores of saved ranks: rank, semaphore, count (R108). -/
  heldSigs : List (Nat × BitVec 4 × Nat) := []
  endedRanks : List Nat := []
  /-- Text and window as loaded. -/
  text : List (Nat × Word32) := []
  win : Bytes := []
  causes : List Cause := []
  firstCore : Option Nat := none
  fps : List Nat := []
  /-- DBGCTL and DBGVEC of the attempt, as they were at its dispatch (R482). -/
  dbg : BitVec 64 × BitVec 64 := (0, 0)
  deriving DecidableEq, Repr, Inhabited

end Sys2Proof.Machine
end

