-- ==== Sys2Proof/Machine/HubTypes.lean ====
section
/-!
DEFINITION. Package state outside the cores: queued cards (R278), graphs (R396 to R404), buckets (R337 to R349), stack
kernels and channel engines (R355 to R373), barriers and pins (R376 to R393), walks (R421 to R433), groups (R438 to
R454), links (R456 to R468), and the device's own state (R473 to R485).
-/
namespace Sys2Proof.Machine

/-! ## Cards held by Playmaker (R277, R278) -/

/-- A node of a graph in one generation: context, header address, node index. -/
structure NodeRef where
  ctx : BitVec 8
  graph : Nat
  node : Nat
  deriving DecidableEq, Repr, Inhabited

/-- States of a card in Playmaker (R278). -/
inductive HubState where
  | queued | running | done | faulted | cancelled
  deriving DecidableEq, Repr, Inhabited

/-- A card in Playmaker. `order` is its submission number or, for a node's card, its entry into QUEUED; `sigCore` the gang and rank whose
semaphores SIGSEM names (R270); `entered` that its footprints are entered, `moved` that it has read and written; `cancelled` that its region or node was cancelled while it runs;
`tag` the generation of its group at its acceptance (R445). -/
structure HubCard where
  ctx : BitVec 8
  card : Card
  st : HubState := .queued
  region : Nat
  level : Nat
  deadline : Nat
  order : Nat
  node : Option NodeRef := none
  page : Bool := false
  sig : Option (Nat × Nat) := none
  late : Bool := false
  fps : List Nat := []
  entered : Bool := false
  moved : Bool := false
  cancelled : Bool := false
  q : Option Nat := none
  tag : Option (BitVec 32) := none
  fault : Option (BitVec 8 × BitVec 64) := none
  gang : Option Nat := none
  deriving DecidableEq, Repr, Inhabited

/-- A card that some executor runs: ticket `t` of core `c`'s X engine, a card of Playmaker, or the remote card `xid` of
package `spkg` that is being received. -/
inductive CardRef where
  | x (c t : Nat)
  | hub (id : Nat)
  | remote (spkg xid : Nat)
  deriving DecidableEq, Repr, Inhabited

/-! ## Graphs (R397 to R402) -/

/-- Node states, with the codes of Table 15.2. -/
inductive NState where
  | idle | ready | dispatched | running | done | faulted | retrying | cancelPending | cancelled
  deriving DecidableEq, Repr, Inhabited

def NState.code : NState → Nat
  | .idle => 0 | .ready => 1 | .dispatched => 2 | .running => 3 | .done => 4 | .faulted => 5 | .retrying => 6
  | .cancelPending => 7 | .cancelled => 8

/-- A successor entry (R399). -/
structure Succ where
  dest : Nat
  sent : Bool := false
  early : Bool := false
  deriving DecidableEq, Repr, Inhabited

/-- A node as Playmaker holds it (Table 15.2). `hub` is its card in Playmaker, `oldFps` the footprints of a failed
attempt still live at its fault, `level` that of its card and `tag` the generation it carries, fixed when it was accepted (R279, R445), `fcause` the cause of the last
attempt's fault, `cdetail` the DETAIL of its cancellation. -/
structure Node where
  state : NState := .idle
  policy : Nat := 0
  sv : Bool := false
  att : Nat := 0
  maxr : Nat := 0
  pend : Nat := 0
  init : Nat := 0
  cardAddr : Nat := 0
  succAddr : Nat := 0
  succs : List Succ := []
  region : Nat := 0
  fcode : BitVec 8 := 0
  fdetail : BitVec 56 := 0
  csrc : BitVec 32 := 0xFFFFFFFF
  gen : BitVec 32 := 0
  crec : Nat := 0
  card : Option Card := none
  tag : Option (BitVec 32) := none
  hub : Option Nat := none
  level : Option Nat := none
  oldFps : List Nat := []
  faulted : Bool := false
  fcause : BitVec 8 := 0
  cdetail : Nat := 0
  late : Bool := false
  deriving DecidableEq, Repr, Inhabited

/-- A graph that has been launched: header fields (Table 15.1) and nodes. `r102` marks a cancellation by R102. -/
structure Graph where
  ctx : BitVec 8
  addr : Nat
  status : Nat := 1
  dpol : Nat
  region : Nat
  gen : BitVec 32
  ntab : Nat
  ndone : Nat := 0
  ncanc : Nat := 0
  nfail : Nat := 0
  retries : Nat := 0
  ilist : Nat
  ilen : Nat
  elist : Nat
  elen : Nat
  icount : Nat := 0
  r102 : Bool := false
  nodes : List Node := []
  deriving DecidableEq, Repr, Inhabited

/-- A graph launch that waits for room (R396): who launches. -/
structure GraphWait where
  ctx : BitVec 8
  addr : Nat
  core : Option Nat
  deriving DecidableEq, Repr, Inhabited

/-! ## Buckets (R337 to R349) -/

/-- A chunk record (R339): ranks accepted and removed, values held or formed (level, index, values; none for EMPTY),
the next rank RANK applies, and whether the chunk is complete. -/
structure ChunkRec where
  accepted : List Nat := []
  removed : List Nat := []
  held : List (Nat × Nat × List (BitVec 32)) := []
  next : Nat := 0
  begun : Bool := false
  done : Bool := false
  deriving DecidableEq, Repr, Inhabited

/-- A registered bucket. `hdr` is the header's address, `state` the code of Table 12.1, `ces` the CE that serves each
chunk, `stopped` the CEs that apply no more (R350). -/
structure Bucket where
  ctx : BitVec 8
  hdr : Nat
  region : Nat
  node : BitVec 32
  gen : BitVec 16
  graph : Option Nat
  state : Nat := 1
  order : Nat
  csz : Nat
  ofmt : Nat
  exp : Nat
  ggen : BitVec 32
  elems : Nat
  group : BitVec 16
  pcause : BitVec 8 := 0
  area : Nat
  step : BitVec 64
  vtgt : Nat
  seed : BitVec 64
  skh : BitVec 64
  whistle : BitVec 32
  poff : BitVec 32 := 0xFFFFFFFF
  stack : Nat
  charged : Bool := true
  fps : List Nat := []
  dup : Nat := 0
  chunks : List ChunkRec := []
  ces : List Nat := []
  stopped : List Nat := []
  launch : Option Nat := none
  deriving DecidableEq, Repr, Inhabited

/-- What a card still has to send to CEs (R341): the rank if it carries one, generation for RACCW, destination and the
values at hand; `more` values of the card have not arrived yet. `cut` says that they will not come: what is whole is still accepted,
the rest discarded (R341, R468). -/
structure AccChunk where
  ctx : BitVec 8
  src : CardRef
  addr : Nat
  rank : Option Nat
  tag : Option (BitVec 32)
  vals : List (BitVec 32)
  more : Nat := 0
  cut : Bool := false
  deriving DecidableEq, Repr, Inhabited

/-! ## Stack kernels (R355 to R373) -/

/-- Who launched a stack kernel (R357). -/
inductive LaunchSrc where
  | bucket (id : Nat)
  | page
  | card (id : Nat)
  deriving DecidableEq, Repr, Inhabited

/-- A launch asked for and not yet checked (R356); `id` once the dispatcher has looked at it. -/
structure LaunchReq where
  id : Option Nat := none
  ctx : BitVec 8
  src : LaunchSrc
  handle : BitVec 64
  param : BitVec 64
  deriving DecidableEq, Repr, Inhabited

/-- A WSTM to replicated pages that is not known to be complete (R364): its sequence number, and the CE, chunk and word
of the run that made it. -/
structure RunWrite where
  q : Nat
  ce : Nat
  chunk : Nat
  pc : Nat
  deriving DecidableEq, Repr, Inhabited

/-- A launch (R357 to R371): the image and the header's fields, the CE of each chunk, its place in arbitration (`level`,
`region`). `todo` holds the chunks not yet begun, `stopped` the CEs that run no more of it, `told` the CEs that its
poisoning has reached; `cause` to `unit` are those of its first fault; `cancelled` that it is to stop (R370); `writes` the
working-copy writes that may not be complete; `counted` that a Whistle has counted a publication of it, `tells` the arrivals
that are sent once the launches counted for their round have ended (R386): group, barrier and round. -/
structure Launch where
  ctx : BitVec 8
  src : LaunchSrc
  handle : BitVec 64
  hdr : Nat
  ps : Nat
  ls : Nat
  planes : List (BitVec 64)
  side : BitVec 64
  consts : List (BitVec 32)
  words : List (BitVec 64)
  csz : Nat
  ofmt : Nat
  elems : Nat
  area : Nat
  step : BitVec 64
  vtgt : Nat
  seed : BitVec 64
  whistle : BitVec 32
  level : Nat
  region : Nat
  ces : List Nat
  todo : List Nat
  stopped : List Nat := []
  told : List Nat := []
  poisoned : Bool := false
  cancelled : Bool := false
  cause : BitVec 8 := 0
  detail : BitVec 64 := 0
  pc : Nat := 0
  unit : Nat := 0
  fps : List Nat := []
  writes : List RunWrite := []
  counted : Bool := false
  tells : List (Nat × Nat × Nat) := []
  deriving DecidableEq, Repr, Inhabited

/-- A run of one chunk (R359). -/
structure Run where
  launch : Nat
  chunk : Nat
  pc : Nat := 0
  lk0 : Nat := 0
  lk1 : Nat := 0
  pub : Bool := false
  e : Vector (BitVec 512) 16 := Vector.replicate 16 0
  ap : Vector (BitVec 64) 8 := Vector.replicate 8 0
  deriving DecidableEq, Repr, Inhabited

/-- A channel engine: its run, and its save slots (R372, R373): slot number, KIND, the run. -/
structure Ce where
  run : Option Run := none
  slots : List (Nat × Nat × Run) := []
  deriving DecidableEq, Repr, Inhabited

/-! ## Barriers and pins (R376 to R393) -/

/-- A bound barrier. `id` tells one binding from another; `me` is the package's own party; `expected` and `arrived`
are the parties of the current instance or round, `ahead` arrivals recorded for later ones, `withdrawn` withdrawals
pending, `joining` parties expected from the next. `state` is the code of Table 14.1; `aband` the instance abandoned. -/
structure Barrier where
  id : Nat
  ctx : BitVec 8
  num : Nat
  addr : Nat
  region : Nat
  whistle : Bool
  group : BitVec 16
  parties : Nat
  locexp : Nat
  me : Nat
  seq : Nat
  state : Nat
  count : Nat := 0
  cause : BitVec 8 := 0
  expected : List Nat := []
  arrived : List Nat := []
  ahead : List (Nat × Nat) := []
  withdrawn : List Nat := []
  joining : List Nat := []
  aband : Option Nat := none
  deriving DecidableEq, Repr, Inhabited

/-- Who holds a round of a Whistle (R387): a core, a card, or the rank of a saved gang. -/
inductive PinOwner where
  | core (c : Nat)
  | job (c t : Nat)
  | saved (gang rank : Nat)
  deriving DecidableEq, Repr, Inhabited

/-- A hold on a round. -/
structure Pin where
  ctx : BitVec 8
  whistle : Nat
  round : Nat
  owner : PinOwner
  deriving DecidableEq, Repr, Inhabited

/-! ## Walks (R421 to R433) -/

/-- States of a live walk (Table 16.4). -/
inductive WalkSt where
  | queued | walking | forwarded
  deriving DecidableEq, Repr, Inhabited

/-- The condition code of a walk. -/
inductive Cc where
  | eq | lt | gt
  deriving DecidableEq, Repr, Inhabited

/-- A live walk (R424, R428), in the order of arrival at its Caddie. `gang` or `card` says who is told of its end (R433,
R436); `stack` and `slot` where it is, or is going; `begun` that it has started once; `pendRd` the read it was forwarded
for; `node`, `gen` and `attempt` its owner's (R490); `ending`, once its result record is being written, the record and the
fault of its card (R426, R433). -/
structure Walk where
  ctx : BitVec 8
  region : Nat
  node : BitVec 32 := 0xFFFFFFFF
  gen : BitVec 16 := 0
  attempt : BitVec 8 := 0
  gang : Option (Nat × Nat) := none
  card : Option CardRef := none
  handle : Nat
  resAddr : Nat
  limit : Nat
  pol : Nat
  start : BitVec 64
  kw : Nat
  semn : BitVec 4
  semen : Bool
  key : List (BitVec 64)
  st : WalkSt := .queued
  stack : Nat
  slot : Nat := 0
  begun : Bool := false
  cur : BitVec 64 := 0
  recw : List (BitVec 64) := List.replicate 32 0
  g : Vector (BitVec 64) 8 := Vector.replicate 8 0
  steps : Nat := 0
  cc : Cc := .gt
  pc : Nat := 0
  lastlen : Nat := 0
  nrun : Nat := 0
  fwd : Nat := 0
  dbase : Nat := 0
  dlen : Nat := 0
  rules : List Word32 := []
  pendRd : Option (Nat × BitVec 64) := none
  ending : Option (List Byte × Option (BitVec 8 × BitVec 64)) := none
  fps : List Nat := []
  deriving DecidableEq, Repr, Inhabited

/-! ## Groups (R438 to R454) -/

/-- Member states (Table 17.3), with their codes. -/
inductive MState where
  | joining | active | withdrawing | gone
  deriving DecidableEq, Repr, Inhabited

def MState.code : MState → Nat
  | .joining => 0 | .active => 1 | .withdrawing => 2 | .gone => 3

structure Member where
  pkgid : Nat
  mstate : MState
  ctxid : BitVec 8
  jgen : BitVec 32 := 0
  deriving DecidableEq, Repr, Inhabited

/-- A remote signal that waits at the target for a catcher (R454). -/
structure RemoteSig where
  gr : Nat
  sem : BitVec 4
  count : Nat
  deriving DecidableEq, Repr, Inhabited

/-- A bound group. `state` is the code of Table 17.1, `old` the member table that a RESHAPE in force replaced, `crc` the
CRC-32C of the table in force (R444). `answered` and `confirmed` hold what each rank said last, `fenced` the generation
of its last fence, `acks` who acknowledged which withdrawal; `catcher` is a gang (R454). -/
structure Group where
  ctx : BitVec 8
  num : Nat
  addr : Nat
  region : Nat
  state : Nat := 1
  self : Nat
  gen : BitVec 32
  pgen : BitVec 32
  wbase : Nat
  wlen : Nat
  ww : Bool
  wacc : Bool
  wmc : Bool
  mtab : Nat
  members : List Member := []
  crc : BitVec 32 := 0
  old : Option (Nat × List Member × BitVec 32) := none
  answered : List (Nat × BitVec 32) := []
  confirmed : List (Nat × BitVec 32 × BitVec 32) := []
  fenced : List (Nat × BitVec 32) := []
  acks : List (Nat × Nat) := []
  catcher : Option Nat := none
  sigs : List RemoteSig := []
  deriving DecidableEq, Repr, Inhabited

/-! ## Links (R456 to R468) -/

/-- Port states, with the codes of R460. -/
inductive PState where
  | down | training | up | degraded | fenced | retraining
  deriving DecidableEq, Repr, Inhabited

def PState.code : PState → Nat
  | .down => 0 | .training => 1 | .up => 2 | .degraded => 3 | .fenced => 4 | .retraining => 5

/-- A flit (Table 18.1): DPKG, SPKG, HOPS, XID, OFF are `dst`, `src`, `hop`, `id`, `at_`. The spec lays out no bits in the BODY of types
other than DATA, so `body` holds the fields that Table 18.2 names for the type, in its order; DATA carries bytes. `owner` is, at the
package that sources it, the context and region it is sent for (R97), `tries` how often a hop has replayed it (R460). DESIGN CHOICE
(notes/assumptions/64.md). -/
structure Flit where
  type : BitVec 4
  vc : BitVec 2
  rgen : BitVec 8
  dst : BitVec 15
  src : BitVec 15
  hop : BitVec 6 := 0
  lseq : BitVec 32 := 0
  lack : BitVec 32 := 0
  id : BitVec 64 := 0
  at_ : BitVec 40 := 0
  body : List Nat := []
  data : List Byte := []
  scrc : List (BitVec 32) := []
  nsec : BitVec 2 := 0
  fcrc : BitVec 32 := 0
  owner : Option (BitVec 8 × Nat) := none
  tries : Nat := 0
  deriving DecidableEq, Repr, Inhabited

/-- DPKG, SPKG, XID and OFF as numbers. -/
def Flit.dpkg (f : Flit) : Nat := f.dst.toNat
def Flit.spkg (f : Flit) : Nat := f.src.toNat
def Flit.xid (f : Flit) : Nat := f.id.toNat
def Flit.off (f : Flit) : Nat := f.at_.toNat

/-- A port. `credits` are those that its partner has granted, `owed` those that this hop has still to return (R459). -/
structure Port where
  st : PState := .down
  lanes : Nat := 0
  fencing : Bool := false
  peer : Option Nat := none
  gf : Bool := false
  clash : Bool := false
  txSeq : BitVec 32 := 0
  rxSeq : BitVec 32 := 0
  replay : List Flit := []
  credits : Vector Nat 3 := Vector.replicate 3 0
  owed : Vector Nat 3 := Vector.replicate 3 0
  replays : Nat := 0
  perr : Nat := 0
  sendFence : Bool := false
  lastFence : Option (BitVec 8) := none
  deriving DecidableEq, Repr, Inhabited

/-- A transfer this package sources (R448): the card or RSIG or group message it belongs to. -/
inductive XferOf where
  | card (r : CardRef) (rank : Nat)
  | rsig (c : Nat) (rank : Nat) (pc : BitVec 16)
  | msg (ctx : BitVec 8) (grp rank dpkg : Nat) (body : List Nat) (lost : Bool)
  deriving DecidableEq, Repr, Inhabited

/-- A remote card being received (R449), from rank `rank`. `left` counts the bytes that have not arrived, `pos` those
handed to CEs in order, `got` holds what came out of order or waits for the rest of a multicast, `bad` the offsets of its sectors
that failed their check, `told` says that its end has been reported, `waiting` that it has passed its checks and waits for room for its footprint. -/
structure RemoteIn where
  spkg : Nat
  xid : Nat
  op : Nat
  ctx : BitVec 8
  grp : Nat
  rank : Nat
  tag : BitVec 32
  off : Nat
  base : Nat
  len : Nat
  fin : Nat
  left : Nat
  pos : Nat := 0
  fps : List Nat := []
  bad : List Nat := []
  got : List (Nat × List Byte) := []
  fault : Option (BitVec 8 × BitVec 64) := none
  told : Bool := false
  waiting : Bool := false
  deriving DecidableEq, Repr, Inhabited

/-! ## The device (R473 to R485) -/

/-- Device states (Table 19.1), with their codes. -/
inductive DState where
  | off | verify | selftest | train | ready | safe
  deriving DecidableEq, Repr, Inhabited

def DState.code : DState → Nat
  | .off => 0 | .verify => 1 | .selftest => 2 | .train => 3 | .ready => 4 | .safe => 5

/-- The mailbox registers (Table 19.3). -/
structure Mailbox where
  op : BitVec 16 := 0
  tgt : BitVec 16 := 0
  arg : BitVec 64 := 0
  len : BitVec 32 := 0
  busy : Bool := false
  lost : Bool := false
  result : BitVec 8 := 0
  reply : BitVec 64 := 0
  deriving DecidableEq, Repr, Inhabited

/-- A scorecard record (Table 19.5). -/
structure Score where
  seq : BitVec 48
  kind : BitVec 8
  ctx : BitVec 8
  data : BitVec 192
  deriving DecidableEq, Repr, Inhabited

/-- A configuration record (Table 19.2). `raw` holds all its bytes, the signature among them; none when no record is in
force. -/
structure ConfigRec where
  version : Nat := 0
  serial : BitVec 64 := 0
  coredis : Vector (BitVec 32) 4 := Vector.replicate 4 0
  chret : Vector (BitVec 32) 12 := Vector.replicate 12 0
  raw : List Byte := []
  deriving DecidableEq, Repr, Inhabited

/-- An anti-rollback count and how often it was raised (R479). -/
structure Arb where
  count : Nat := 0
  raised : Nat := 0
  deriving DecidableEq, Repr, Inhabited

/-- A firmware bank (R478). -/
structure Bank where
  image : List Byte := []
  deriving DecidableEq, Repr, Inhabited

/-- What a throttle is for (R28, R485): the power share of a die, the package's power, or the temperature of a compute
die, of a stack's base die, or of the hub. -/
inductive Throttle where
  | power (j : Nat)
  | package
  | die (j : Nat)
  | stack (s : Nat)
  | hub
  deriving DecidableEq, Repr, Inhabited

end Sys2Proof.Machine
end

