-- ==== Sys2Proof/Machine/State.lean ====
section
/-!
DEFINITION. The state of the TLV-FV12, the reasons a step can stop, and the state after reset.
-/
namespace Sys2Proof.Machine

/-- What arrives with an event (95_what_each_step_holds): the numbers that tell which unit or record it concerns, and
bytes that arrive from outside. -/
structure EvArgs where
  n : List Nat := []
  bytes : List Byte := []
  deriving DecidableEq, Repr, Inhabited

/-- What happens next (notes/assumptions/1.md): an engine of a core, a channel engine or a Caddie slot acts, an event of the table occurs, or the 64-byte sector at an
address comes to hold an uncorrectable error, which the next read there meets (R488). `upset` tells what the lane groups of a channel engine do in a checked word (R368): 0 they
agree, 1 the third run decides, else all three results differ. `early` nonzero means that a walk which ends in this turn only begins
to write its result record (R426). DESIGN CHOICE (notes/assumptions/1.md). -/
inductive Action where
  | engine (c : Nat) (e : Engine)
  | ce (g upset : Nat)
  | caddie (s slot early : Nat)
  | event (i : Instr) (args : EvArgs)
  | upset (pa : Nat)
  deriving DecidableEq, Repr, Inhabited

end Sys2Proof.Machine

/-- The free choice of what happens next, where no agenda says so: the spec orders the package's agents only as its
rules give (R125, R281, R306). -/
opaque Sys2Proof.Config.schedule (n : Nat) : Sys2Proof.Machine.Action

namespace Sys2Proof.Machine

/-- Who acts in the step at hand, with which word or arguments. -/
structure Cur where
  core : Nat := 0
  eng : Engine := .S
  word : Word32 := 0
  ce : Nat := 0
  stack : Nat := 0
  slot : Nat := 0
  args : EvArgs := {}
  deriving DecidableEq, Repr, Inhabited

/-- Reasons a step stops the machine. -/
inductive Fault where
  /-- Raised by `step` when the agenda names a core, channel engine or Caddie slot that the package does not have
  (R9). Safe: no hardware behaviour is meant. -/
  | noSuchUnit
  deriving DecidableEq, Repr, Inhabited

/-- Reasons the model gives an instruction no meaning. -/
inductive Refusal where
  /-- Raised by `exec` for an instruction the model does not give a meaning yet. Safe. -/
  | notModelled (mnemonic : String)
  deriving DecidableEq, Repr, Inhabited

/-- The canonical form of memory: a list of `Host.Cell` with rising addresses and no entry that an unlisted address reads
as (0, see `Bytes.get`). DESIGN CHOICE (notes/assumptions/8.md). -/
def Memory.wf (m : List Host.Cell) : Bool := Bytes.wf m

/-- The machine. -/
structure State where
  /-- The model's own: who acts now, what acts next, and the counter of free values. -/
  cur : Cur := {}
  agenda : List Action := []
  ticks : Nat := 0
  freeCtr : Nat := 0
  /-- Local physical memory (R290) and its uncorrectable sectors (R488). -/
  mem : Bytes := []
  uncorr : List Nat := []
  keyTags : List (Nat × KeyTag) := []
  keys : List (Nat × KeySlot) := []
  ctxs : List (Nat × Ctx) := []
  tlb : List TlbEntry := []
  walkReqs : List WalkReq := []
  walkFails : List WalkFail := []
  fps : List Fp := []
  fpNext : Nat := 0
  fpWait : List FpWaiter := []
  dcache : List DSector := []
  flights : List Flight := []
  repNext : Nat := 0
  repPend : List RepUpd := []
  /-- For each replica sector written, one above the sequence number of its last update (R303). -/
  repLast : List (Nat × Nat) := []
  /-- One above the highest sequence number of a multicast card that is DONE or of a WSTM that is published (R333); updates
  that met an uncorrectable error in one replica, by sequence number and address (R302). -/
  repDone : Nat := 0
  repBad : List (Nat × Nat) := []
  launchQ : List LaunchWrite := []
  cores : Vector Core 96 := Vector.replicate 96 {}
  gangs : List (Nat × Gang) := []
  gangNext : Nat := 0
  /-- Cards in Playmaker (R278), VT(q) by context, region and level, V(L) by level (R280), and the next submission
  number (R277), and the next entry of a node's card into QUEUED (R281). -/
  hub : List (Nat × HubCard) := []
  hubNext : Nat := 0
  vtq : List ((BitVec 8 × Nat × Nat) × Nat) := []
  vtl : List (Nat × Nat) := []
  subNext : Nat := 0
  queueNext : Nat := 0
  /-- What is left of a region's share of the present turn at a link or CE arbiter (R97): by arbiter, context and region. -/
  shares : List ((Nat × BitVec 8 × Nat) × Nat) := []
  graphs : List Graph := []
  graphWait : List GraphWait := []
  buckets : List (Nat × Bucket) := []
  bucketNext : Nat := 0
  accIn : List AccChunk := []
  skReqs : List LaunchReq := []
  launches : List (Nat × Launch) := []
  launchNext : Nat := 0
  ces : List (Nat × Ce) := []
  barriers : List Barrier := []
  barrierNext : Nat := 0
  pins : List Pin := []
  walks : List (Nat × Walk) := []
  walkNext : Nat := 0
  groups : List Group := []
  ports : Vector Port 16 := Vector.replicate 16 {}
  /-- Route tables held, by generation (R463), sparse entries by PKGID; the generation for sourcing. -/
  routes : List (Nat × List (Nat × BitVec 16)) := [(0, [])]
  rgen : Nat := 0
  flitWait : List Flit := []
  xfers : List (Nat × XferOf) := []
  xidNext : Nat := 0
  remoteIn : List RemoteIn := []
  pkgid : Option Nat := none
  /-- SETID has been accepted since the last cold reset (R457). -/
  setId : Bool := false
  dstate : DState := .verify
  mbox : Mailbox := {}
  score : List Score := []
  scoreSeq : BitVec 48 := 0
  cfg : ConfigRec := {}
  cfgNext : Option ConfigRec := none
  /-- The record that has been verified since the last cold reset, whether or not it passed (R475). -/
  cfgCold : Option ConfigRec := none
  /-- The last answer to an SPDM request. -/
  spdm : List Byte := []
  banks : Vector Bank 2 := Vector.replicate 2 {}
  bank : Fin 2 := 0
  bankNew : Bool := false
  arbRec : Arb := {}
  arbFw : Arb := {}
  /-- Throttles in force (R28, R485). -/
  throttles : List Throttle := []
  /-- CXL ports that trained at power-up (R291). -/
  cxl : BitVec 4 := 0
  /-- Host memory that SCREAD writes (R482). -/
  hostMem : Bytes := []
  deriving DecidableEq, Repr, Inhabited

/-- The machine right after reset: nothing has been granted and nothing runs. DESIGN CHOICE (notes/assumptions/7.md). DEDUCED (notes/assumptions/10.md). DESIGN CHOICE (notes/assumptions/11.md). -/
def State.reset : State := {}

end Sys2Proof.Machine
end

