-- ==== Sys2Proof/Machine/Ops.lean ====
section
/-!
DEFINITION. The operations every core word is built from: the step a word makes (R130, R133, R150), registers with
their latency bounds (R134, R135), immediates with prefixes (R69), and the taking of a trap (R100, R120).
-/
namespace Sys2Proof

/-- The engine ahead (R129). -/
def Engine.ahead : Engine → Engine
  | .S => .A | .A => .M | .M => .V | .V => .X | .X => .S
/-- The engine behind (R129). -/
def Engine.behind : Engine → Engine
  | .S => .X | .A => .S | .M => .A | .V => .M | .X => .V

/-- The tag code of an engine (Table 3.1), SRC of its cause records and its place in the CSR map (Tables 4.5, 4.8). -/
def Engine.code : Engine → Nat
  | .S => 0 | .A => 1 | .V => 2 | .M => 3 | .X => 4

/-- SRC of a cause record: 0 to 4 are S, A, V, M, X (Table 4.5). -/
def Engine.src (e : Engine) : BitVec 8 := BitVec.ofNat 8 e.code

end Sys2Proof

namespace Sys2Proof.Machine

/-! ## Words as computations on the state -/

/-- Why a word does not complete: it waits, or it ends with a trap of a cause and DETAIL (R82, Table 4.4). -/
inductive Stop where
  | stall
  | trap (cause : BitVec 8) (detail : BitVec 64)
  deriving DecidableEq, Repr, Inhabited

/-- The body of a word: it reads and changes the state, or stops. -/
abbrev W := EStateM Stop State

def stall {α : Type} : W α := throw .stall
/-- trap(cause) of R82. -/
def trap {α : Type} (cause : BitVec 8) (detail : BitVec 64 := 0) : W α := throw (.trap cause detail)
/-- Waits while a condition does not hold. -/
def waitFor (c : Bool) : W Unit := if c then pure () else stall
/-- Traps unless a condition holds. -/
def need (c : Bool) (cause : BitVec 8) (detail : BitVec 64) : W Unit := if c then pure () else trap cause detail

/-! ## Cause codes (Table 4.4) -/

def cILLEGAL : BitVec 8 := 0x01
def cPRIV : BitVec 8 := 0x02
def cPOISON : BitVec 8 := 0x03
def cXLATE : BitVec 8 := 0x04
def cPROT : BitVec 8 := 0x05
def cRACE : BitVec 8 := 0x06
def cALIGN : BitVec 8 := 0x07
def cLATENCY : BitVec 8 := 0x08
def cWINDOW : BitVec 8 := 0x0A
def cQUEUE : BitVec 8 := 0x0B
def cSTREAM : BitVec 8 := 0x0C
def cBUCKET : BitVec 8 := 0x0D
def cUNCORR : BitVec 8 := 0x0E
def cWATCHDOG : BitVec 8 := 0x0F
def cCANCELLED : BitVec 8 := 0x10
def cLINK : BitVec 8 := 0x11
def cTRAPI : BitVec 8 := 0x14
def cDEBUG : BitVec 8 := 0x15
def cFPFULL : BitVec 8 := 0x16
def cBUDGET : BitVec 8 := 0x17
def cCHECKFAIL : BitVec 8 := 0x18
def cSTACK : BitVec 8 := 0x19

/-! ## Free values -/

/-- The next number of the counter that free values are applied to. -/
def State.bumpFree (s : State) : State := { s with freeCtr := s.freeCtr + 1 }

/-- A number for the next free value. -/
def fresh : W Nat := fun s => .ok s.freeCtr s.bumpFree
/-- The first of `n` numbers for free values. -/
def freshN (n : Nat) : W Nat := fun s => .ok s.freeCtr { s with freeCtr := s.freeCtr + n }
/-- A free bit. -/
def anyBit : W Bool := do return Config.freeBit (← fresh)
/-- A free number below `n`. -/
def anyBelow (n : Nat) : W Nat := do return Config.freeNat (← fresh) % n
/-- A free doubleword. -/
def anyWord : W (BitVec 64) := do return Config.freeWord (← fresh)

/-! ## Cores and engines -/

/-- Core `c`. -/
def State.core (s : State) (c : Nat) : Core := if h : c < 96 then s.cores[c] else {}
/-- Replaces core `c`. -/
def State.setCore (s : State) (c : Nat) (k : Core) : State :=
  if h : c < 96 then { s with cores := s.cores.set c k h } else s
/-- Changes core `c`. -/
def State.onCore (s : State) (c : Nat) (g : Core → Core) : State := s.setCore c (g (s.core c))

/-- An engine of a core. -/
def Core.eng (k : Core) (e : Engine) : EngineSt :=
  match e with
  | .S => k.engS
  | .A => k.engA
  | .M => k.engM
  | .V => k.engV
  | .X => k.engX

/-- Replaces an engine of a core. -/
def Core.setEng (k : Core) (e : Engine) (t : EngineSt) : Core :=
  match e with
  | .S => { k with engS := t }
  | .A => { k with engA := t }
  | .M => { k with engM := t }
  | .V => { k with engV := t }
  | .X => { k with engX := t }

/-- The five engines in ring order (R129). -/
def engines : List Engine := [.S, .A, .M, .V, .X]

/-- The engine that executes a word of a tag; B words are executed by every engine (R62). -/
def engineOfTag (t : BitVec 3) : Option Engine :=
  match t.toNat with
  | 0 => some .S | 1 => some .A | 2 => some .V | 3 => some .M | 4 => some .X | _ => none

/-- The core at hand. -/
def getC : W Core := fun s => .ok (s.core s.cur.core) s
/-- Replaces the core at hand. -/
def putC (k : Core) : W Unit := fun s => .ok () (s.setCore s.cur.core k)
/-- Changes the core at hand. -/
def modC (g : Core → Core) : W Unit := fun s => .ok () (s.onCore s.cur.core g)
/-- The engine at hand. -/
def getE : W EngineSt := do return (← getC).eng (← get).cur.eng
def putE (t : EngineSt) : W Unit := fun s => .ok () (s.onCore s.cur.core (·.setEng s.cur.eng t))
/-- The word's address. -/
def getPc : W (BitVec 17) := do return (← getE).pc
def pc64 : W (BitVec 64) := do return (← getPc).setWidth 64

/-- ILLEGAL at the word's own address (Table 4.4). -/
def illegal {α : Type} : W α := do trap cILLEGAL (← pc64)

/-- ILLEGAL at a word: an illegal B word is S's to raise, and every other engine stalls at it (R63). -/
def illegalAs {α : Type} (b : Bool) : W α := do
  if b && (← get).cur.eng != .S then stall else illegal

/-- A trap of a B word: raised by S; the other engines never pass the word (R63). -/
def trapB {α : Type} (cause : BitVec 8) (detail : BitVec 64) : W α := do
  if (← get).cur.eng != .S then stall else trap cause detail

/-- ILLEGAL of a B word. -/
def illegalB {α : Type} : W α := illegalAs true

/-- Text word `a` of a core; words beyond the text are zero (R123). -/
def Core.word (k : Core) (a : Nat) : Word32 := sget (0 : Word32) a k.text

/-! ## Control flow (R126, R144, R150) -/

/-- The frame depth of an engine (R144). -/
def EngineSt.depth (t : EngineSt) : Nat := t.rets.length

/-- A level is in the current frame when it is open at the current depth (R144). -/
def EngineSt.inFrame (t : EngineSt) (n : Fin 4) : Bool := t.loops[n].isOpen && t.loops[n].frame.toNat == t.depth

/-- The four loop levels. -/
def levels : List (Fin 4) := [0, 1, 2, 3]

/-- The innermost open level of the current frame: nesting makes starts rise (R149), so it has the largest start. -/
def EngineSt.innermost (t : EngineSt) : Option (Fin 4) :=
  levels.foldl (fun best n =>
    if t.inFrame n then
      match best with
      | some b => if t.loops[b].start.toNat < t.loops[n].start.toNat then some n else best
      | none => some n
    else best) none

/-- Closes a level. -/
def EngineSt.close (t : EngineSt) (n : Fin 4) : EngineSt :=
  { t with loops := t.loops.set n { t.loops[n] with isOpen := false } }

/-- Closes every level of the current frame that `c` selects. -/
def EngineSt.closeWhere (t : EngineSt) (c : LoopLevel → Bool) : EngineSt :=
  levels.foldl (fun u n => if t.inFrame n && c t.loops[n] then u.close n else u) t

/-- R150 after the word at `w`, at most `fuel` levels: the engine, and the level whose back-edge was taken. -/
def EngineSt.after (t : EngineSt) (w : Nat) : Nat → EngineSt × Option (Fin 4)
  | 0 => ({ t with pc := BitVec.ofNat 17 (w + 1) }, none)
  | fuel + 1 =>
    match t.innermost with
    | none => ({ t with pc := BitVec.ofNat 17 (w + 1) }, none)
    | some n =>
      let l := t.loops[n]
      if l.stop.toNat = w then
        if l.remaining.toNat > 1 then
          ({ t with pc := l.start.setWidth 17, extEdge := t.extEdge || !t.ext.isEmpty,
                    loops := t.loops.set n { l with remaining := l.remaining - 1, index := l.index + 1 } }, some n)
        else (t.close n).after w fuel
      else ({ t with pc := BitVec.ofNat 17 (w + 1) }, none)

/-- Drops the writes no later read can see past: those up to the latest whose bound has passed (R135). -/
def prunePend (slot : Nat) : List Pend → List Pend
  | [] => []
  | p :: r =>
    let r' := prunePend slot r
    if (p.lock.isNone && decide (p.bound ≤ slot)) || r.any (fun q => q.reg == p.reg && decide (q.bound ≤ slot)) then r' else p :: r'

/-- The end of an issue slot (R133): the word is executed, its prefixes are used up. -/
def EngineSt.retire (t : EngineSt) : EngineSt :=
  { t with slot := t.slot + 1, ext := [], extEdge := false, ringDone := false, latOnce := false, waitMet := false, mark := none,
           resv := t.resv.map (fun r => if r.slot = t.slot then { r with seen := t.seen } else r), barw := none, early := [], ringPopped := false, atSync := false, pend := prunePend (t.slot + 1) t.pend }

/-- Where an executed word leaves its engine: on to the next word, to an address, or stopped by END. -/
inductive Flow where
  | seq (words : Nat)
  | goto (pc : BitVec 17)
  | halt
  deriving DecidableEq, Repr, Inhabited

/-- The stage configuration of M after a change of its engine (R252): it ends when its level closes, and a new pass
of the level sets the current stage to 0. -/
def Core.settleStage (k : Core) (back : Option (Fin 4)) : Core :=
  match k.stage with
  | none => k
  | some g =>
    if !k.engM.loops[g.lvl.toFin].isOpen then { k with stage := none }
    else if back == some g.lvl.toFin then { k with stage := some { g with cur := 0 } }
    else k

/-- Moves an engine on past `n` words from its PC by R150. -/
def Core.passWords (k : Core) (e : Engine) (n : Nat) : Core :=
  let t := k.eng e
  let r := { t with pos := t.pos + n }.after (t.pc.toNat + n - 1) 4
  let k' := k.setEng e r.1
  if e = .M then k'.settleStage r.2 else k'

/-- Moves an engine on after an executed word. -/
def Core.move (k : Core) (e : Engine) (f : Flow) : Core :=
  let k := k.setEng e (k.eng e).retire
  match f with
  | .seq n => k.passWords e n
  | .goto pc =>
    let t := k.eng e
    let k' := k.setEng e { t with pc := pc, pos := t.pos + 1 }
    if e = .M then k'.settleStage none else k'
  | .halt => k.setEng e { (k.eng e) with ended := true }

/-! ## Ring bits (R130) -/

/-- Tokens in the queue from `p` towards `q`, which is the engine ahead of or behind `p`. -/
def Core.tokens (k : Core) (p : Engine) (ahead : Bool) : Nat := if ahead then (k.eng p).toAhead else (k.eng p).toBehind

/-- Places reserved in a queue of `p`. -/
def Core.reserved (k : Core) (p : Engine) (ahead : Bool) : Nat := ((k.eng p).resv.filter (fun r => r.ahead == ahead)).length

/-- Takes one token from a queue of `p`. -/
def Core.popToken (k : Core) (p : Engine) (ahead : Bool) : Core :=
  let t := k.eng p
  let rest := fun (n : Nat) (l : List Nat) => if l.length < n then l else l.drop 1
  k.setEng p (if ahead then { t with toAhead := t.toAhead - 1, aheadSeen := rest t.toAhead t.aheadSeen }
              else { t with toBehind := t.toBehind - 1, behindSeen := rest t.toBehind t.behindSeen })

/-- How many words of M the next token of a queue stands after; one that a restore brought stands after none that matters. DESIGN CHOICE (notes/assumptions/86.md). -/
def Core.tokenSeen (k : Core) (p : Engine) (ahead : Bool) : Nat :=
  let first := fun (n : Nat) (l : List Nat) => if l.length < n then 0 else l.headD 0
  if ahead then first (k.eng p).toAhead (k.eng p).aheadSeen else first (k.eng p).toBehind (k.eng p).behindSeen

/-- Entries of a ring queue (R129). -/
def ringDepth : Nat := 15

/-- Whether the ring lets the word go on: tokens to pop, and room for the tokens it signals. -/
def Core.ringReady (k : Core) (e : Engine) (r : Ring) : Bool :=
  (!r.wb || decide (0 < k.tokens e.behind true)) && (!r.wf || decide (0 < k.tokens e.ahead false)) &&
  (!r.sb || decide (k.tokens e false + k.reserved e false < ringDepth)) &&
  (!r.sf || decide (k.tokens e true + k.reserved e true < ringDepth))

/-- Pops and reserves in one step. -/
def Core.ringTake (k : Core) (e : Engine) (r : Ring) : Core :=
  let after := Nat.max (if r.wb then k.tokenSeen e.behind true else 0) (if r.wf then k.tokenSeen e.ahead false else 0)
  let k := if r.wb then k.popToken e.behind true else k
  let k := if r.wf then k.popToken e.ahead false else k
  let t := k.eng e
  let rs := (if r.sb then [{ slot := t.slot, ahead := false : Resv }] else []) ++
            (if r.sf then [{ slot := t.slot, ahead := true : Resv }] else [])
  k.setEng e { t with resv := t.resv ++ rs, ringDone := true, seen := Nat.max t.seen after }

/-! ## Traps (R100, R101, R120) -/

/-- A cause record of the core at hand (Table 4.5). -/
def Core.record (k : Core) (c : Nat) (src : BitVec 8) (cause : BitVec 8) (pc : BitVec 17) (detail : BitVec 64) : Cause :=
  { cause := cause, src := src, unit := BitVec.ofNat 16 c, pc := pc.setWidth 16, detail := detail, node := k.node,
    gen := k.gen, region := k.region, attempt := k.attempt, prev := if k.causes.isEmpty then 0xFF else 0 }

/-- Bytes 0x00 to 0x07 of a cause record, as ECAUSE holds them (Tables 4.5 and 4.8). -/
def Cause.word0 (r : Cause) : BitVec 64 :=
  (0#16 ++ r.pc ++ r.unit ++ r.src ++ r.cause)

/-- DBGCTL bits [0] EN, [1] LAT, [2] MON (Table 4.8). -/
def Core.dbgctl (k : Core) : BitVec 64 := BitVec.ofNat 64 (k.dbgEn.toNat + 2 * k.dbgLat.toNat + 4 * k.mon.toNat)

/-- Every engine of a core stops where it stands. -/
def Core.stopAll (k : Core) : Core := engines.foldl (fun k e => k.setEng e { (k.eng e) with stopped := true }) k

/-- Every entry of the decision FIFOs is discarded (R143). -/
def Core.dropDecs (k : Core) : Core := engines.foldl (fun k e => k.setEng e { (k.eng e) with decs := [] }) k

/-- A core comes to stop (R100, R143): its decisions are discarded, and engines that stood still by R120 or R122 stay
where they stand. DEDUCED (notes/assumptions/23.md). -/
def Core.beginStop (k : Core) : Core :=
  let k := if k.mon || k.held then k.stopAll else k
  { k.dropDecs with stopReq := true, held := false }

/-- The gang of a core leaves RUNNING for STOPPING (R122), and the core whose trap came first is noted (R100). -/
def State.stopGang (s : State) (c : Nat) : State :=
  match (s.core c).gang with
  | none => s
  | some g =>
    match lookup g s.gangs with
    | none => s
    | some k =>
      let k := { k with firstCore := match k.firstCore with
                                     | some x => some x
                                     | none => some c,
                        state := if k.state = .ended ∨ k.state = .faulted ∨ k.state = .cancelled then k.state else .stopping }
      { s with gangs := assign g k s.gangs }

/-- An engine ends its word with a trap that ends the attempt (R100): it stops before the word, its reservations for
the word are released, its core begins to stop, and its record joins the core's. -/
def State.trapStop (s : State) (c : Nat) (e : Engine) (src cause : BitVec 8) (pc : BitVec 17) (detail : BitVec 64) : State :=
  let k := s.core c
  -- R105: a fault while a core saves stands at its PHINT, where every engine has stopped
  let saving := k.mode = .saving
  let pc := if saving then k.engS.pc else pc
  let k := if saving then k.stopAll else k
  let t := k.eng e
  let t := { t with stopped := true, ringDone := false, resv := t.resv.filter (fun r => r.slot ≠ t.slot) }
  let k := { k with causes := k.causes ++ [k.record c src cause pc detail] }
  let k := { k.beginStop with mode := .stopping, mon := false }
  let t := { t with decs := [] }
  (s.setCore c (k.setEng e t)).stopGang c

/-- The other cores of a gang that are in the monitor. -/
def State.inMonitor (s : State) (g : Nat) (q : Gang) (c : Nat) : Bool :=
  q.cores.any (fun d => d != c && (s.core d).gang == some g && (s.core d).mon)

/-- Monitor entry (R120): every engine stops where it stands, the EPC and cause CSRs are filled, MON is set and S goes
to DBGVEC. A running gang is then in MONITOR (R122), and the stop reaches its other cores. DEDUCED (notes/assumptions/81.md). DESIGN CHOICE (notes/assumptions/105.md). -/
def State.monitorEntry (s : State) (c : Nat) (e : Engine) (cause : BitVec 8) (pc : BitVec 17) (detail : BitVec 64) : State :=
  let k := s.core c
  let epc := fun x => ((k.eng x).pc.setWidth 64 : BitVec 64)
  let r := k.record c e.src cause pc detail
  let k := { k with
    epc := #v[epc .S, epc .A, epc .V, epc .M, epc .X], ecause := r.word0, edetail := detail, mon := true, mode := .monitor, monSaved := k.engS, entry := some r
    engS := { k.engS with pc := (k.dbgvec.setWidth 17), ext := [], extEdge := false, ringDone := false, ringPopped := false, latOnce := false, waitMet := false, mark := none, barw := none, early := [], ended := false } }
  let s := s.setCore c k
  match k.gang with
  | none => s
  | some g =>
    match lookup g s.gangs with
    | none => s
    | some q => { s with gangs := assign g { q with state := if q.state = .running then .monitor else q.state } s.gangs }

/-- A trap of an engine: LATENCY under DBGCTL.EN enters the monitor, everything else ends the attempt; in the monitor
every trap ends it (R119, R120). DBG enters by its own text. -/
def State.takeTrap (s : State) (c : Nat) (e : Engine) (cause : BitVec 8) (detail : BitVec 64) : State :=
  let k := s.core c
  let pc := (k.eng e).pc
  -- R62: past the text, the trap stands at address 65,535
  let pc := if pc.toNat ≥ 65536 then 65535#17 else pc
  if cause = cLATENCY ∧ k.dbgEn ∧ ¬ k.mon ∧ ¬ k.stopReq then
    -- R130: its reservations are released, its tokens stay popped; it runs again at ERET, once without the check
    let t := k.eng e
    let s := s.setCore c (k.setEng e { t with latOnce := true, ringDone := false, ringPopped := true,
                                              resv := t.resv.filter (fun r => r.slot ≠ t.slot) })
    s.monitorEntry c e cause pc detail
  else s.trapStop c e e.src cause pc detail

/-- S of a core back from the monitor at the word where it stopped, and what that word has done so far. Its issue slot
is the present one, so its reservations follow it. -/
def Core.resumeS (k : Core) : Core :=
  let m := k.monSaved
  let t := k.engS
  { k with
    mon := false, mode := .running, entry := none, semWaits := k.semWaits.filter (fun w => !w.mon)
    engS := { t with pc := (k.epc[0]).setWidth 17, pos := m.pos, ext := m.ext, extB := m.extB, extEdge := m.extEdge,
                     ringDone := m.ringDone, ringPopped := m.ringPopped, latOnce := m.latOnce, atSync := m.atSync, waitMet := m.waitMet, mark := m.mark, barw := m.barw, early := m.early, ended := m.ended
                     resv := t.resv.map (fun r => if r.slot = m.slot then { r with slot := t.slot } else r) } }

/-- Return from the monitor (R121): MON cleared, S back at EPC.S; the other engines stand where they stopped. The gang
is RUNNING again with its last core in the monitor; till then the core waits (R122). Requests made meanwhile are seen
now (R120). DEDUCED (notes/assumptions/81.md). -/
def State.monitorReturn (s : State) (c : Nat) : State :=
  let k := (s.core c).resumeS
  let s := s.setCore c k
  match k.gang with
  | none => s
  | some g =>
    match lookup g s.gangs with
    | none => s
    | some q =>
      let asked := fun (k : Core) => { k with preq := k.preq || q.preq }
      if q.state = .monitor ∧ s.inMonitor g q c then s.onCore c (fun k => { k with held := true })
      else if q.state = .monitor then
        let s := { s with gangs := assign g { q with state := .running } s.gangs }
        q.cores.foldl (fun s d => if (s.core d).gang = some g then s.onCore d (fun k => { asked k with held := false }) else s) s
      else s.onCore c asked

/-! ## Acquires (R330, R333) -/

/-- An acquire of the core at hand: its agents read replicas at or above what multicasts that are DONE and rounds that are
published have reached. -/
def acquireCore : W Unit := do
  let s ← get
  modC (fun k => { k with repAcq := Nat.max k.repAcq s.repDone })

/-- An acquire of S at die scope or wider: later replica reads of S see in every sector at least what earlier ones saw. -/
def acquireS : W Unit := do
  acquireCore
  modC (fun k => { k with repFloor := Nat.max k.repFloor k.repSeen })

/-! ## The step of a word -/

/-- What a trap leaves: the state before the word's effects, with the free values used up and the word's own waits
withdrawn (R82). -/
def State.unwind (before after : State) (c : Nat) (e : Engine) : State :=
  { before with freeCtr := after.freeCtr, tlb := after.tlb,
                walkFails := after.walkFails.filter (fun f => f.who ≠ .eng c e),
                walkReqs := before.walkReqs.filter (fun f => f.who ≠ .eng c e),
                fpWait := before.fpWait.filter (fun f => f.who ≠ .eng c e) }

/-- A word's own address of `ILLEGAL` for a prefix misuse (R70): a pending prefix needs an extendable immediate of its own
tag. A misused EXT.b before a B word is every engine's, so S raises it; a prefix of its own is the engine's fault. -/
def checkPrefix (extendable : Bool) : W Unit := do
  let t ← getE
  let b := (tagOf (← get).cur.word).toNat == 7
  if t.extEdge || (!t.ext.isEmpty && (!extendable || t.extB != b)) then illegalAs (b && t.extB)

/-- In the monitor only S words without ring bits run (R120). -/
def checkMonitor (r : Ring) : W Unit := do
  if (← getC).mon && r != Ring.zero then illegal

/-- The ring part of a word (R130), once for the word. DEDUCED (notes/assumptions/3.md). -/
def ringIssue (r : Ring) : W Unit := do
  let s ← get
  let k := s.core s.cur.core
  let t := k.eng s.cur.eng
  let r := if t.ringPopped then { r with wb := false, wf := false } else r
  if !t.ringDone then
    waitFor (k.ringReady s.cur.eng r)
    putC (k.ringTake s.cur.eng r)

/-- Ends the word: its engine moves on. -/
def finish (f : Flow) : W Unit := do
  let s ← get
  putC ((s.core s.cur.core).move s.cur.eng f)

/-- A body run on a state: the next state, whatever became of the word. A stall keeps what the word registered; a trap
is taken. -/
def settle (before : State) (r : EStateM.Result Stop State Unit) : State :=
  match r with
  | .ok _ s => s
  | .error .stall s => s
  | .error (.trap c d) s => (before.unwind s before.cur.core before.cur.eng).takeTrap before.cur.core before.cur.eng c d

/-- A core word (R130, R133): ring, prefix check, body, and on to the next word. DEDUCED (notes/assumptions/3.md). -/
def runWord (extendable : Bool) (body : W Flow) (s : State) : Host.Outcome State Fault Refusal :=
  match (do checkMonitor (ringOf s.cur.word); ringIssue (ringOf s.cur.word) : W Unit) s with
  | .error .stall s1 => .next s1
  | .error (.trap c d) s1 => .next ((s.unwind s1 s.cur.core s.cur.eng).takeTrap s.cur.core s.cur.eng c d)
  | .ok _ s1 => .next (settle s1 ((do checkPrefix extendable; finish (← body) : W Unit) s1))

/-- A word whose immediate is not extendable, or which has none. DEDUCED (notes/assumptions/15.md). -/
def plain (body : W Unit) (s : State) : Host.Outcome State Fault Refusal := runWord false (do body; return .seq 1) s
/-- A word with an extendable immediate (R69). DEDUCED (notes/assumptions/15.md). -/
def withImm (body : W Unit) (s : State) : Host.Outcome State Fault Refusal := runWord true (do body; return .seq 1) s

/-! ## Events -/

/-- An event of the table: its body on the state. An event whose condition does not hold does not occur: the machine
stays as it is. DESIGN CHOICE (notes/assumptions/2.md). -/
def event (body : W Unit) (s : State) : Host.Outcome State Fault Refusal :=
  match body s with
  | .ok _ s1 => .next s1
  | .error _ _ => .next s

/-- Number `i` that came with the event. -/
def arg (i : Nat) : W Nat := do return (← get).cur.args.n.getD i 0
/-- The bytes that came with the event. -/
def argBytes : W (List Byte) := do return (← get).cur.args.bytes
/-- The event concerns core `c`: the core at hand is that one, with engine `e`. -/
def atCore (c : Nat) (e : Engine) : W Unit := do
  waitFor (decide (c < 96))
  modify (fun s => { s with cur := { s.cur with core := c, eng := e } })

/-! ## Immediates (R68, R69) -/

/-- The composed immediate and its width: the payload of the first prefix stands highest. -/
def composeImm (ext : List (BitVec 18)) (w own : Nat) : Nat × Nat :=
  match ext with
  | [] => (own, w)
  | [p] => (p.toNat * 2 ^ w + own, w + 18)
  | p :: q :: _ => ((p.toNat * 2 ^ 18 + q.toNat) * 2 ^ w + own, w + 36)

/-- The immediate as an unsigned number. -/
def immU {w : Nat} (own : BitVec w) : W Nat := do return (composeImm (← getE).ext w own.toNat).1
/-- The immediate as a signed number, extended to 64 bits. -/
def immS {w : Nat} (own : BitVec w) : W (BitVec 64) := do
  let r := composeImm (← getE).ext w own.toNat
  return BitVec.ofInt 64 (sintOf r.2 r.1)

/-! ## Registers (R134, R135, R139) -/

/-- The values a read may take (R135), oldest first and the latest last, when some write's bound has not passed: the
value before the first such write and each later one. `prunePend` has dropped the writes read past. DESIGN CHOICE (notes/assumptions/18.md). -/
def oldsOf (t : EngineSt) (id : RegId) : List Pend := t.pend.filter (fun p => p.reg == id && decide (t.slot < p.bound))

/-- The check of DBGCTL.LAT (R119): a read inside a bound raises LATENCY with the producer's PC. DESIGN CHOICE (notes/assumptions/18.md). -/
def latCheck (olds : List Pend) : W Unit := do
  match olds.getLast? with
  | none => pure ()
  | some p => if (← getC).dbgLat && !(← getE).latOnce then trap cLATENCY (p.pc.setWidth 64)

/-- A free choice among the old values and the new one. -/
def choose {α : Type} (olds : List α) (new : α) : W α := do
  match olds with
  | [] => return new
  | _ => return (olds ++ [new]).getD (← anyBelow (olds.length + 1)) new

def RegVal.asWord : RegVal → Reg
  | .word r => r
  | _ => {}
def RegVal.asFlag : RegVal → FlagReg
  | .flag r => r
  | _ => {}
def RegVal.asVec : RegVal → VecReg
  | .vec r => r
  | _ => {}
def RegVal.asMask : RegVal → MaskReg
  | .mask r => r
  | _ => {}

/-- Whether a register waits for the value of an access in flight (R137). -/
def EngineSt.locked (t : EngineSt) (id : RegId) : Bool := t.pend.any (fun p => p.reg == id && p.lock.isSome)

/-- Makes a register wait for the value of the access at scoreboard place `seq`; earlier writes to it are past. -/
def EngineSt.lockReg (t : EngineSt) (id : RegId) (seq : Nat) : EngineSt :=
  { t with pend := t.pend.filter (fun p => p.reg != id) ++ [{ reg := id, old := .word {}, bound := 0, pc := t.pc, lock := some seq }] }

/-- Reads a 64-bit register, once no access in flight has still to bring its value: its newest value, or inside a bound an
older one. -/
def readReg (id : RegId) (new : Reg) : W Reg := do
  let t ← getE
  waitFor (!t.locked id)
  let olds := oldsOf t id
  latCheck olds
  choose (olds.map (·.old.asWord)) new

def readFlag (id : RegId) (new : FlagReg) : W FlagReg := do
  let olds := oldsOf (← getE) id
  latCheck olds
  choose (olds.map (·.old.asFlag)) new

/-- Element `i` of width `w` bits of a vector. -/
def elemAt (w : Nat) (v : BitVec 4096) (i : Nat) : Nat := (v.toNat >>> (i * w)) % 2 ^ w

/-- The tag of the lane that holds element `i` of width `w`. -/
def laneTag (w : Nat) (p : BitVec 128) (i : Nat) : Bool := p.getLsbD (i * w / 32)

/-- A vector from its elements, element 0 first. -/
def ofElems (w : Nat) : List Nat → Nat
  | [] => 0
  | x :: r => x % 2 ^ w + 2 ^ w * ofElems w r

/-- Lane tags from element tags: a lane is tagged when any element in it is (R210). -/
def lanesOf (w : Nat) (tags : List Bool) : BitVec 128 :=
  let per := 32 / w
  BitVec.ofNat 128 (ofElems 1 ((List.range 128).map (fun j =>
    if ((List.range per).any (fun r => tags.getD (j * per + r) false)) then 1 else 0)))

/-- A vector register from elements and their tags. -/
def vecOf (w : Nat) (es : List (Nat × Bool)) : VecReg :=
  { v := BitVec.ofNat 4096 (ofElems w (es.map (·.1))), p := lanesOf w (es.map (·.2)) }

/-- The elements of a vector with their lanes' tags. -/
def elemsOf (w : Nat) (r : VecReg) : List (Nat × Bool) :=
  (List.range (4096 / w)).map (fun i => (elemAt w r.v i, laneTag w r.p i))

/-- Reads a v register, each element of width `w` old or new by itself (R134). -/
def readVec (w : Nat) (id : RegId) (new : VecReg) : W VecReg := do
  let olds := oldsOf (← getE) id
  latCheck olds
  match olds with
  | [] => return new
  | _ =>
    let ctr ← freshN 1024
    let vals := olds.map (·.old.asVec) ++ [new]
    return vecOf w ((List.range (4096 / w)).map (fun i =>
      let r := vals.getD (Config.freeNat (ctr + i) % vals.length) new
      (elemAt w r.v i, laneTag w r.p i)))

/-- Reads a mask, each bit old or new by itself. -/
def readMask (id : RegId) (new : MaskReg) : W MaskReg := do
  let olds := oldsOf (← getE) id
  latCheck olds
  match olds with
  | [] => return new
  | _ =>
    let ctr ← freshN 1024
    let vals := olds.map (·.old.asMask) ++ [new]
    let pick := fun i => vals.getD (Config.freeNat (ctr + i) % vals.length) new
    return { v := BitVec.ofNat 1024 (ofElems 1 ((List.range 1024).map (fun i => ((pick i).v.getLsbD i).toNat)))
             p := BitVec.ofNat 1024 (ofElems 1 ((List.range 1024).map (fun i => ((pick i).p.getLsbD i).toNat))) }

/-- Notes a write for the latency rules: with a bound above 1 the old value stays readable until the bound; a bound of
0 or 1, or an interlocked result, makes every earlier write to the register past. -/
def noteWrite (id : RegId) (old : RegVal) (bound : Nat) : W Unit := do
  let t ← getE
  if bound ≤ 1 then putE { t with pend := t.pend.filter (fun p => p.reg != id) }
  else putE { t with pend := t.pend ++ [{ reg := id, old := old, bound := t.slot + bound, pc := t.pc }] }

/-- Bound of an interlocked result (R137). -/
def interlocked : Nat := 0

/-- s registers: s0 reads 0 (Table 3.3). -/
def rdS (n : BitVec 6) : W Reg := do
  if n = 0 then return {}
  readReg (.s n) (← getC).s[n.toFin]
def wrS (n : BitVec 6) (r : Reg) (bound : Nat) : W Unit := do
  if n ≠ 0 then
    noteWrite (.s n) (.word (← getC).s[n.toFin]) bound
    modC (fun k => { k with s := k.s.set n.toFin r })

/-- Flags: f0 reads true (Table 3.3). -/
def rdF (n : BitVec 3) : W FlagReg := do
  if n = 0 then return { v := true }
  readFlag (.f n) (← getC).f[n.toFin]
def wrF (n : BitVec 3) (r : FlagReg) (bound : Nat) : W Unit := do
  if n ≠ 0 then
    noteWrite (.f n) (.flag (← getC).f[n.toFin]) bound
    modC (fun k => { k with f := k.f.set n.toFin r })

/-- a registers: a0 reads 0. -/
def rdA (n : BitVec 5) : W Reg := do
  if n = 0 then return {}
  readReg (.a n) (← getC).a[n.toFin]
def wrA (n : BitVec 5) (r : Reg) (bound : Nat) : W Unit := do
  if n ≠ 0 then
    noteWrite (.a n) (.word (← getC).a[n.toFin]) bound
    modC (fun k => { k with a := k.a.set n.toFin r })

/-- x registers. -/
def rdX (n : BitVec 4) : W Reg := do readReg (.x n) (← getC).x[n.toFin]
def wrX (n : BitVec 4) (r : Reg) (bound : Nat) : W Unit := do
  noteWrite (.x n) (.word (← getC).x[n.toFin]) bound
  modC (fun k => { k with x := k.x.set n.toFin r })

/-- k registers: k0 reads 0. -/
def rdK (n : BitVec 4) : W Reg := do
  if n = 0 then return {}
  readReg (.k n) (← getC).k[n.toFin]
def wrK (n : BitVec 4) (r : Reg) (bound : Nat) : W Unit := do
  if n ≠ 0 then
    noteWrite (.k n) (.word (← getC).k[n.toFin]) bound
    modC (fun k => { k with k := k.k.set n.toFin r })

/-- h registers. -/
def rdH (n : BitVec 3) : W Reg := do readReg (.h n) (← getC).h[n.toFin]
def wrH (n : BitVec 3) (r : Reg) (bound : Nat) : W Unit := do
  noteWrite (.h n) (.word (← getC).h[n.toFin]) bound
  modC (fun k => { k with h := k.h.set n.toFin r })

/-- v registers, read in elements of width `w`. -/
def rdV (w : Nat) (n : BitVec 5) : W VecReg := do readVec w (.v n) (← getC).v[n.toFin]
def wrV (n : BitVec 5) (r : VecReg) (bound : Nat) : W Unit := do
  noteWrite (.v n) (.vec (← getC).v[n.toFin]) bound
  modC (fun k => { k with v := k.v.set n.toFin r })

/-- Masks: m0 reads all ones. -/
def rdM (n : BitVec 3) : W MaskReg := do
  if n = 0 then return { v := BitVec.allOnes 1024 }
  readMask (.m n) (← getC).m[n.toFin]
def wrM (n : BitVec 3) (r : MaskReg) (bound : Nat) : W Unit := do
  if n ≠ 0 then
    noteWrite (.m n) (.mask (← getC).m[n.toFin]) bound
    modC (fun k => { k with m := k.m.set n.toFin r })

/-- The value of an access in flight comes to the first write after its word: it is what that write has replaced (R135). -/
def pendOld (id : RegId) (r : Reg) : List Pend → List Pend
  | [] => []
  | p :: l => if p.reg = id then { p with old := .word r } :: l else p :: pendOld id r l

/-- A word register takes a value; s0 and a0 hold 0. -/
def Core.setReg (k : Core) (id : RegId) (r : Reg) : Core :=
  match id with
  | .s n => if n = 0 then k else { k with s := k.s.set n.toFin r }
  | .a n => if n = 0 then k else { k with a := k.a.set n.toFin r }
  | _ => k

/-- The value of the access at scoreboard place `seq` lands in its register (R137), unless later writes to it have passed
(R135). -/
def Core.deliver (k : Core) (e : Engine) (seq : Nat) (id : RegId) (r : Reg) : Core :=
  let t := k.eng e
  let before := t.pend.takeWhile (fun p => p.lock != some seq)
  match t.pend.dropWhile (fun p => p.lock != some seq) with
  | [] => k
  | _ :: later =>
    let k := if later.any (fun p => p.reg == id) then k else k.setReg id r
    k.setEng e { t with pend := before ++ pendOld id r later }

/-- A poisoned operand of a use that Table "Use" of R140 lists raises POISON with the given DETAIL. DEDUCED (notes/assumptions/22.md). -/
def clean (r : Reg) (detail : BitVec 64) : W Unit := if r.p then trap cPOISON detail else pure ()

/-- Flags accumulate in the engine's FSTAT (R48, R114). DEDUCED (notes/assumptions/22.md). -/
def addFlags (f : Flags) : W Unit := do
  let t ← getE
  putE { t with fstat := t.fstat ||| f.bits }

end Sys2Proof.Machine
end

