-- ==== Sys2Proof/Machine/Regions.lean ====
section
/-!
DEFINITION. Regions: effective fields, ancestors, levels (R95), what a region holds and its budgets (R97).
-/
namespace Sys2Proof.Machine

/-- The context with a number. -/
def State.ctx (s : State) (n : BitVec 8) : Ctx := (lookup n.toNat s.ctxs).getD {}
/-- Replaces a context. -/
def State.setCtx (s : State) (n : BitVec 8) (c : Ctx) : State := { s with ctxs := assign n.toNat c s.ctxs }

/-- Region `n` of a context. -/
def Ctx.region (c : Ctx) (n : Nat) : Region := c.regions.getD n {}

/-- A region and its ancestors, up to the root (at most eight levels, R96). -/
def Ctx.chainFrom (c : Ctx) : Nat → Nat → List Nat
  | 0, _ => []
  | fuel + 1, n => n :: (let p := (c.region n).parent.toNat; if p = 0xFFFF then [] else c.chainFrom fuel p)
def Ctx.chain (c : Ctx) (n : Nat) : List Nat := c.chainFrom 9 n

/-- Whether region `n` is `r` or a descendant of it. -/
def Ctx.inSubtree (c : Ctx) (r n : Nat) : Bool := (c.chain n).contains r

/-- eff(n, F) of R95 for the field of override bit `b`. -/
def Ctx.effFrom (c : Ctx) (b : Nat) (f : Region → Nat) : List Nat → Nat
  | [] => 0
  | n :: r => if (c.region n).ovr.getLsbD b || r.isEmpty then f (c.region n) else c.effFrom b f r
def Ctx.eff (c : Ctx) (b : Nat) (f : Region → Nat) (n : Nat) : Nat := c.effFrom b f (c.chain n)

def Ctx.coresEff (c : Ctx) (n : Nat) : Nat := c.eff 0 (fun r => r.cores.toNat) n
def Ctx.ceshEff (c : Ctx) (n : Nat) : Nat := c.eff 1 (fun r => r.cesh.toNat) n
def Ctx.linkshEff (c : Ctx) (n : Nat) : Nat := c.eff 2 (fun r => r.linksh.toNat) n
def Ctx.fpentEff (c : Ctx) (n : Nat) : Nat := c.eff 3 (fun r => r.fpent.toNat) n
def Ctx.bucketsEff (c : Ctx) (n : Nat) : Nat := c.eff 4 (fun r => r.buckets.toNat) n
def Ctx.pbaseEff (c : Ctx) (n : Nat) : Nat := c.eff 5 (fun r => r.pbase.toNat) n
def Ctx.fdEff (c : Ctx) (n : Nat) : Bool := c.eff 7 (fun r => r.fd.toNat) n != 0
def Ctx.weightEff (c : Ctx) (n : Nat) : Nat := c.eff 8 (fun r => r.weight.toNat) n
def Ctx.stqEff (c : Ctx) (n : Nat) : Nat := c.eff 11 (fun r => r.stq.toNat) n
def Ctx.stqlenEff (c : Ctx) (n : Nat) : Nat := c.eff 11 (fun r => r.stqlen.toNat) n

/-- PCEIL_eff: the least PCEIL of the overriding regions on the way to the root, whose own always counts. -/
def Ctx.pceilFrom (c : Ctx) : List Nat → Nat
  | [] => 63
  | n :: r =>
    let own := if (c.region n).ovr.getLsbD 6 || r.isEmpty then (c.region n).pceil.toNat else 63
    Nat.min own (c.pceilFrom r)
def Ctx.pceilEff (c : Ctx) (n : Nat) : Nat := c.pceilFrom (c.chain n)

/-- level(card) of R95. -/
def Ctx.level (c : Ctx) (n prio : Nat) : Nat := Nat.min (c.pbaseEff n + prio) (c.pceilEff n)

/-- A context whose work is taken in. -/
def Ctx.serves (c : Ctx) : Bool := !(c.state == .new || c.state == .dumping || c.state == .dead)

/-! ## Arbiters (R97) -/

/-- Weighted round-robin at an arbiter: what is left to a region of its turn, `weight` at first. -/
def State.shareLeft (s : State) (arb weight : Nat) (x : BitVec 8 × Nat) : Nat := ((s.shares.find? (fun h => h.1 == (arb, x.1, x.2))).map (·.2)).getD weight

/-- Whether an arbiter may serve a region among those that wait: one of weight 0 while none of nonzero weight waits; another
while its turn lasts, or once the turns of all that wait are over. DESIGN CHOICE (notes/assumptions/58.md). -/
def State.mayServe (s : State) (arb : Nat) (weight : BitVec 8 × Nat → Nat) (waiting : List (BitVec 8 × Nat)) (x : BitVec 8 × Nat) : Bool :=
  let pos := waiting.filter (fun y => weight y != 0)
  if weight x = 0 then pos.isEmpty
  else decide (0 < s.shareLeft arb (weight x) x) || pos.all (fun y => s.shareLeft arb (weight y) y == 0)

/-- The arbiter has served a region: a new turn begins when the turns of all that wait were over. -/
def State.serve (s : State) (arb : Nat) (weight : BitVec 8 × Nat → Nat) (waiting : List (BitVec 8 × Nat)) (x : BitVec 8 × Nat) : State :=
  if weight x = 0 then s
  else
    let over_ := (x :: waiting).all (fun y => weight y == 0 || s.shareLeft arb (weight y) y == 0)
    let s := if over_ then { s with shares := s.shares.filter (fun h => h.1.1 != arb) } else s
    { s with shares := ((arb, x.1, x.2), s.shareLeft arb (weight x) x - 1) :: s.shares.filter (fun h => h.1 != (arb, x.1, x.2)) }

/-! ## Holdings and budgets (R97) -/

/-- Footprint entries held in a region's subtree. -/
def State.fpHeld (s : State) (n : BitVec 8) (r : Nat) : Nat :=
  (s.fps.filter (fun f => f.ctx == n && (s.ctx n).inSubtree r f.region)).length

/-- Cores held in a region's subtree. -/
def State.coresHeld (s : State) (n : BitVec 8) (r : Nat) : Nat :=
  (s.gangs.map (fun g => if g.2.ctx == n && (s.ctx n).inSubtree r g.2.region.toNat then (g.2.cores.filter (fun c => (s.core c).gang == some g.1)).length else 0)).sum

/-- Buckets charged in a region's subtree. -/
def State.bucketsHeld (s : State) (n : BitVec 8) (r : Nat) : Nat :=
  (s.buckets.filter (fun b => b.2.ctx == n && b.2.charged && (s.ctx n).inSubtree r b.2.region)).length

/-- Whether `k` more footprint entries fit at every level. -/
def State.fpFits (s : State) (n : BitVec 8) (r k : Nat) : Bool :=
  ((s.ctx n).chain r).all (fun a => decide (s.fpHeld n a + k ≤ (s.ctx n).fpentEff a))
/-- Whether `k` more cores fit at every level. -/
def State.coresFit (s : State) (n : BitVec 8) (r k : Nat) : Bool :=
  ((s.ctx n).chain r).all (fun a => decide (s.coresHeld n a + k ≤ (s.ctx n).coresEff a))
/-- Whether one more bucket fits at every level. -/
def State.bucketFits (s : State) (n : BitVec 8) (r : Nat) : Bool :=
  ((s.ctx n).chain r).all (fun a => decide (s.bucketsHeld n a + 1 ≤ (s.ctx n).bucketsEff a))

end Sys2Proof.Machine
end

