-- ==== Sys2Proof/Machine/Cards.lean ====
section
/-!
DEFINITION. The job card: its 128 bytes (Table 9.1), the checks of acceptance (R263, R264, R268, R283) and the ranges
it uses (R267, R302, R341, R447).
-/
namespace Sys2Proof.Machine

/-- A field of doubleword `d` (a byte offset) of a record given as one little-endian number. -/
def fieldOf (v d hi lo : Nat) : Nat := bitsOf (v / 2 ^ (8 * d)) hi lo

/-- Fields of Table 9.1. `reserved` tells of a set reserved bit. -/
def parseCard (addr : Nat) (bytes : List Byte) : Card :=
  let v := leNat bytes
  let f := fieldOf v
  { addr := addr
    opc := BitVec.ofNat 8 (f 0 7 0), ssp := f 0 8 8 == 1, dsp := f 0 9 9 == 1, rnd := BitVec.ofNat 2 (f 0 11 10),
    ns := f 0 12 12 == 1, clipen := f 0 13 13 == 1, vdl := f 0 14 14 == 1,
    fin := BitVec.ofNat 4 (f 0 19 16), fout := BitVec.ofNat 4 (f 0 27 24), region := BitVec.ofNat 16 (f 0 47 32),
    prio := BitVec.ofNat 6 (f 0 53 48), waitsem := BitVec.ofNat 16 (f 8 15 0), sigsem := BitVec.ofNat 16 (f 8 31 16),
    vdeadline := BitVec.ofNat 48 (f 16 47 0), cost := BitVec.ofNat 16 (f 16 63 48),
    src := BitVec.ofNat 64 (f 0x18 63 0), dst := BitVec.ofNat 64 (f 0x20 63 0),
    ext0 := BitVec.ofNat 16 (f 0x28 15 0), ext1 := BitVec.ofNat 16 (f 0x28 31 16), ext2 := BitVec.ofNat 16 (f 0x28 47 32),
    ext3 := BitVec.ofNat 16 (f 0x28 63 48), sstr1 := BitVec.ofNat 32 (f 0x30 31 0), sstr2 := BitVec.ofNat 32 (f 0x30 63 32),
    sstr3 := BitVec.ofNat 32 (f 0x38 31 0), dstr1 := BitVec.ofNat 32 (f 0x38 63 32), dstr2 := BitVec.ofNat 32 (f 0x40 31 0),
    dstr3 := BitVec.ofNat 32 (f 0x40 63 32), scale := BitVec.ofNat 32 (f 0x48 31 0), clip := BitVec.ofNat 32 (f 0x48 63 32),
    perm := BitVec.ofNat 8 (f 0x50 7 0), edge0 := BitVec.ofNat 16 (f 0x50 31 16), edge1 := BitVec.ofNat 16 (f 0x50 47 32),
    pad := BitVec.ofNat 16 (f 0x50 63 48), chain := BitVec.ofNat 32 (f 0x58 31 0), chen := f 0x58 32 32 == 1,
    xfbase := BitVec.ofNat 56 (f 0x60 55 0), xflen := BitVec.ofNat 32 (f 0x68 31 0), xfmode := BitVec.ofNat 3 (f 0x68 34 32),
    xfsp := f 0x68 35 35 == 1, crec := BitVec.ofNat 56 (f 0x70 55 0), jobid := BitVec.ofNat 64 (f 0x78 63 0),
    reserved := f 0 15 15 != 0 || f 0 23 20 != 0 || f 0 31 28 != 0 || f 0 63 54 != 0 || f 8 63 32 != 0 || f 0x50 15 8 != 0 ||
      f 0x58 63 33 != 0 || f 0x60 63 56 != 0 || f 0x68 63 36 != 0 || f 0x70 63 56 != 0 }

/-! ## Operation codes (Table 9.2) -/

def opCOPY : Nat := 1
def opCOPYCVT : Nat := 2
def opACCW : Nat := 3
def opRWRITE : Nat := 4
def opRACCW : Nat := 5
def opMCAST : Nat := 6
def opWALKJ : Nat := 7
def opSKLAUNCH : Nat := 8
def opKLAUNCH : Nat := 9
def opSIGNAL : Nat := 10
def opFILL : Nat := 11

def Card.op (c : Card) : Nat := c.opc.toNat
def Card.isCopy (c : Card) : Bool := c.op == opCOPY || c.op == opCOPYCVT || c.op == opFILL

/-- A rank address (R441): RA, RANK, GRP, OFF. -/
def Card.ra (c : Card) : Bool := c.dst.getLsbD 63
def Card.rank (c : Card) : Nat := (c.dst.extractLsb' 48 15).toNat
def Card.grp (c : Card) : Nat := (c.dst.extractLsb' 40 8).toNat
def Card.roff (c : Card) : Nat := (c.dst.extractLsb' 0 40).toNat
/-- Whether the card works on another rank's window. -/
def Card.isRemote (c : Card) : Bool := c.op == opRWRITE || c.op == opRACCW || (c.op == opMCAST && c.ra)

/-- PERM as source dimension of destination dimension `j`; 0x00 reads as the identity. -/
def Card.permOf (c : Card) (j : Nat) : Nat := ((if c.perm = 0 then 0xE4#8 else c.perm).toNat / 4 ^ j) % 4
/-- Source extent of dimension `j`. -/
def Card.ext (c : Card) (j : Nat) : Nat :=
  match j with
  | 0 => c.ext0.toNat | 1 => c.ext1.toNat | 2 => c.ext2.toNat | _ => c.ext3.toNat
/-- Source stride of dimension `j` in bytes. -/
def Card.sstr (c : Card) (j : Nat) : Int :=
  match j with
  | 1 => c.sstr1.toInt | 2 => c.sstr2.toInt | _ => c.sstr3.toInt
/-- Destination stride of dimension `j` in bytes. -/
def Card.dstr (c : Card) (j : Nat) : Int :=
  match j with
  | 1 => c.dstr1.toInt | 2 => c.dstr2.toInt | _ => c.dstr3.toInt
/-- Destination extent of dimension `j`. -/
def Card.dext (c : Card) (j : Nat) : Nat := c.ext (c.permOf j)

/-- Whether PERM names each dimension once. -/
def Card.permOk (c : Card) : Bool := (List.range 4).all (fun j => (List.range 4).any (fun i => c.permOf i == j))

/-- Bytes of a source element, an operand of ACCW and RACCW. -/
def Card.elemBytes (c : Card) : Nat := if c.fin = 0 then 4 else 2
/-- Bytes that a card of EXT0 units moves (R341, R441). -/
def Card.linearLen (c : Card) : Nat := if c.op = opRWRITE || c.op = opMCAST then c.ext0.toNat * 64 else c.ext0.toNat * c.elemBytes
/-- Bytes at the destination of a linear card. -/
def Card.destLen (c : Card) : Nat := if c.op = opRWRITE || c.op = opMCAST then c.ext0.toNat * 64 else c.ext0.toNat * 4

/-! ## Covering intervals (R185, R267) -/

/-- Lowest and highest byte offset of a run of `n0` elements of `w` bits repeated over three strided dimensions. -/
def coverOf (w n0 : Nat) (dims : List (Nat × Int)) : Int × Int :=
  dims.foldl (fun (p : Int × Int) d =>
    let x := ((d.1 : Int) - 1) * d.2
    if x < 0 then (p.1 + x, p.2) else (p.1, p.2 + x)) (0, ((n0 * w + 7) / 8 : Nat) - 1)

/-- In-bounds extents of dimensions 0 and 1 (R267). -/
def Card.inb0 (c : Card) : Nat := if c.edge0 = 0 then c.ext 0 else Nat.min (c.ext 0) c.edge0.toNat
def Card.inb1 (c : Card) : Nat := if c.edge1 = 0 then c.ext 1 else Nat.min (c.ext 1) c.edge1.toNat

/-- Source covering interval, lowest and highest byte, in-bounds bytes only. -/
def Card.srcCover (c : Card) : Int × Int :=
  let r := if c.isCopy then coverOf (fmtBits c.fin.toNat) c.inb0 [(c.inb1, c.sstr 1), (c.ext 2, c.sstr 2), (c.ext 3, c.sstr 3)]
           else (0, (c.linearLen : Int) - 1)
  (c.src.toNat + r.1, c.src.toNat + r.2)
/-- Destination covering interval. -/
def Card.dstCover (c : Card) : Int × Int :=
  let r := if c.isCopy then
      coverOf (fmtBits c.fout.toNat) (c.dext 0) [(c.dext 1, c.dstr 1), (c.dext 2, c.dstr 2), (c.dext 3, c.dstr 3)]
    else (0, (c.destLen : Int) - 1)
  (c.dst.toNat + r.1, c.dst.toNat + r.2)

/-- A range a card uses: in scratchpad or not, first byte, byte count, mode. -/
structure Range where
  sp : Bool
  lo : Nat
  len : Nat
  mode : FpMode
  deriving DecidableEq, Repr, Inhabited

/-- An interval widened outward to multiples of 64, within the address space. -/
def rangeOf (sp : Bool) (mode : FpMode) (lo hi : Int) : List Range :=
  let top : Int := if sp then 0x400000 else 2 ^ 56
  if hi < 0 || top ≤ lo || hi < lo then [] else
    let a := (max lo 0).toNat / 64 * 64
    let b := ((min hi (top - 1)).toNat / 64 + 1) * 64
    [{ sp := sp, lo := a, len := b - a, mode := mode }]

def xfModeOf (m : BitVec 3) : Option FpMode :=
  match m.toNat with
  | 1 => some .r | 2 => some .w | 3 => some .rw | 4 => some .acc | 5 => some .atom | _ => none

/-- The extra footprint (R262). -/
def Card.extra (c : Card) : List Range :=
  match xfModeOf c.xfmode with
  | some m => if c.xflen = 0 then [] else rangeOf c.xfsp m c.xfbase.toNat (c.xfbase.toNat + 64 * c.xflen.toNat - 1 : Nat)
  | none => []

/-- Every range of a card that its executor enters (R267, R302, R341, R447). -/
def Card.ranges (c : Card) : List Range :=
  let src := rangeOf c.ssp .r c.srcCover.1 c.srcCover.2
  let own :=
    if c.op = opCOPY || c.op = opCOPYCVT then src ++ rangeOf c.dsp .w c.dstCover.1 c.dstCover.2
    else if c.op = opFILL then rangeOf c.dsp .w c.dstCover.1 c.dstCover.2
    else if c.op = opACCW then src ++ rangeOf false .acc c.dstCover.1 c.dstCover.2
    else if c.op = opRWRITE || c.op = opRACCW || c.op = opMCAST then src
    else []
  own ++ c.extra

/-- Whether any byte of an interval lies outside the scratchpad. -/
def beyondSpad (r : Int × Int) : Bool := decide (r.1 < 0) || decide (0x3FFFFF < r.2)

/-! ## Acceptance (R263, R264) -/

/-- A field that the operation does not read is set (R263). -/
def Card.stray (c : Card) : Bool :=
  let op := c.op
  let all := op == opCOPYCVT
  let cp := op == opCOPY || all
  let fill := op == opFILL
  let lin := op == opACCW || op == opRWRITE || op == opRACCW || op == opMCAST
  let acc := op == opACCW || op == opRACCW
  let launch := op == opSKLAUNCH || op == opKLAUNCH
  (!(cp || lin) && c.ssp) || (!(cp || fill) && c.dsp) || (!all && (c.rnd != 0 || c.ns || c.clipen || c.scale != 0 || c.clip != 0)) ||
  (!(cp || acc) && c.fin != 0) || (!(cp || fill) && c.fout != 0) ||
  (!(cp || lin || launch || op == opWALKJ) && c.src != 0) || (!(cp || fill || lin || launch) && c.dst != 0) ||
  (!(cp || fill || lin || op == opKLAUNCH) && c.ext0 != 0) || (!(cp || fill || op == opKLAUNCH) && (c.ext1 != 0 || c.ext2 != 0)) ||
  (!(cp || fill) && (c.ext3 != 0 || c.perm != 0 || c.pad != 0 || c.dstr1 != 0 || c.dstr2 != 0 || c.dstr3 != 0)) ||
  (!cp && (c.sstr1 != 0 || c.sstr2 != 0 || c.sstr3 != 0 || c.edge0 != 0 || c.edge1 != 0 || c.chain != 0 || c.chen))

/-- Formats COPYCVT admits as FIN (R267). -/
def cvtFin (f : Nat) : Bool := decide (f ≤ 4) || f == 7 || (decide (11 ≤ f) && decide (f ≤ 14))

/-- Bytes of the side plane that a block FOUT needs (R268). -/
def Card.sideBytes (c : Card) : Nat :=
  c.dext 1 * c.dext 2 * c.dext 3 * ((c.dext 0 + 31) / 32) * sideEntry c.fout.toNat

/-- The address, offset or extent rules that give ALIGN (R264, R302, R341, R436, R441). -/
def Card.misaligned (c : Card) : Bool :=
  c.addr % 128 != 0 || c.crec.toNat % 16 != 0 ||
  (c.op == opMCAST && (c.src.toNat % 64 != 0 || (if c.ra then c.roff else c.dst.toNat) % 64 != 0)) ||
  (c.op == opRWRITE && c.roff % 64 != 0) ||
  (c.op == opRACCW && (c.roff % 4 != 0 || c.src.toNat % c.elemBytes != 0)) ||
  (c.op == opACCW && (c.src.toNat % c.elemBytes != 0 || c.dst.toNat % 4 != 0)) ||
  (c.op == opWALKJ && c.src.toNat % 32 != 0)

/-- The rules that give ILLEGAL whoever executes the card. DEDUCED (notes/assumptions/42.md). -/
def Card.malformed (c : Card) : Bool :=
  let op := c.op
  op == 0 || decide (11 < op) || c.reserved || c.stray || decide (6 ≤ c.xfmode.toNat) ||
  (c.isCopy && (c.ext 0 == 0 || c.ext 1 == 0 || c.ext 2 == 0 || c.ext 3 == 0 || !c.permOk)) ||
  (op == opCOPY && (c.fin != c.fout || c.fin == 15)) ||
  (op == opCOPYCVT && (!cvtFin c.fin.toNat || c.fout == 15)) || (op == opFILL && c.fout == 15) ||
  ((op == opACCW || op == opRACCW) && decide (2 < c.fin.toNat)) ||
  ((op == opACCW || op == opRWRITE || op == opRACCW || op == opMCAST || op == opKLAUNCH) && c.ext0 == 0) ||
  ((op == opRWRITE || op == opRACCW) && !c.ra) || (c.chen && !c.dsp) ||
  (op == opCOPYCVT && isBlockFmt c.fout.toNat && (c.xfmode != 2 || decide (64 * c.xflen.toNat < c.sideBytes))) ||
  (op == opKLAUNCH && (c.src.toNat % 4 != 0 || c.dst.toNat % 8 != 0 || decide (96 < c.ext0.toNat) ||
                       c.ext1.toNat % 8 != 0 || decide (4096 < c.ext1.toNat)))

/-- A range in scratchpad beyond its end. -/
def Card.outOfSpad (c : Card) : Bool :=
  (c.ssp && beyondSpad c.srcCover) || (c.dsp && beyondSpad c.dstCover) ||
  (c.xfsp && c.xfmode != 0 && decide (0x400000 < c.xfbase.toNat + 64 * c.xflen.toNat))

/-- R264 for a card that a core's X engine executes. DEDUCED (notes/assumptions/42.md). -/
def Card.checkX (c : Card) : Option (BitVec 8) :=
  if c.misaligned then some cALIGN
  else if c.malformed || c.op == opKLAUNCH || c.op == opSKLAUNCH then some cILLEGAL
  else if c.outOfSpad then some cPROT
  else none

/-- R264 for a card that no core executes; `regionOk` says that REGION is one the submitter may name. -/
def Card.checkHub (c : Card) (regionOk : Bool) : Option (BitVec 8) :=
  if c.misaligned then some cALIGN
  else if c.malformed || c.ssp || c.dsp || c.xfsp || c.waitsem != 0 || c.chen || !regionOk then some cILLEGAL
  else none

end Sys2Proof.Machine
end

