-- ==== Sys2Proof/Machine/Flags.lean ====
section
/-!
DEFINITION. Element operations with the flags they compute (R48, R215 to R220): each takes operand codes of the type in
force and answers the result code and its flags.
-/
namespace Sys2Proof.Machine

/-- A result code and its flags. -/
abbrev Elem := Nat × Flags

/-- The integer an element code stands for in integer type `fmt` (R36). -/
def elemInt (fmt code : Nat) : Int := if fmt == 12 then (code % 256 : Nat) else sintOf (fmtBits fmt) code

/-- A result of an integer operation: the low bits, no flag. -/
def wrapElem (fmt : Nat) (v : Int) : Elem := (intCode fmt v, {})

/-- Rounds an exact float result into the type: overflow by the saturation setting (R47, R215). -/
def roundElem (fmt : Nat) (sat : Bool) (mode : Mode) (sr : SrIn) (x : Val) : Elem :=
  let c := roundTo fmt sat false mode sr x.v
  (c.code, x.f.or c.f)

/-- The code of an exact value of the type, no flag; a NaN gives the canonical NaN. -/
def exactCode (fmt : Nat) (x : FP) : Nat := (roundTo fmt false false .rne {} x).code

/-- a + b, a − b, a × b and a × b + d: exact, then one rounding, or the low bits of the integer result (R215). -/
def addElem (fmt : Nat) (sat : Bool) (mode : Mode) (sr : SrIn) (a b : Nat) : Elem :=
  if isIntFmt fmt then wrapElem fmt (elemInt fmt a + elemInt fmt b)
  else roundElem fmt sat mode sr (FP.add (decodeElem fmt a) (decodeElem fmt b))
def subElem (fmt : Nat) (sat : Bool) (mode : Mode) (sr : SrIn) (a b : Nat) : Elem :=
  if isIntFmt fmt then wrapElem fmt (elemInt fmt a - elemInt fmt b)
  else roundElem fmt sat mode sr (FP.sub (decodeElem fmt a) (decodeElem fmt b))
def mulElem (fmt : Nat) (sat : Bool) (mode : Mode) (sr : SrIn) (a b : Nat) : Elem :=
  if isIntFmt fmt then wrapElem fmt (elemInt fmt a * elemInt fmt b)
  else roundElem fmt sat mode sr (FP.mul (decodeElem fmt a) (decodeElem fmt b))
def fmaElem (fmt : Nat) (sat : Bool) (mode : Mode) (sr : SrIn) (a b d : Nat) : Elem :=
  if isIntFmt fmt then wrapElem fmt (elemInt fmt a * elemInt fmt b + elemInt fmt d)
  else roundElem fmt sat mode sr (FP.fma (decodeElem fmt a) (decodeElem fmt b) (decodeElem fmt d))

/-- Minimum and maximum (R216, R217): integers by the type's sign, floats with −0 below +0 and NaN avoided. -/
def minElem (fmt a b : Nat) : Elem :=
  if isIntFmt fmt then (if elemInt fmt a ≤ elemInt fmt b then a else b, {})
  else (exactCode fmt (FP.minNum (decodeElem fmt a) (decodeElem fmt b)), {})
def maxElem (fmt a b : Nat) : Elem :=
  if isIntFmt fmt then (if elemInt fmt b ≤ elemInt fmt a then a else b, {})
  else (exactCode fmt (FP.maxNum (decodeElem fmt a) (decodeElem fmt b)), {})

/-- Magnitude and negation (R216, R217). -/
def absElem (fmt a : Nat) : Elem :=
  if isIntFmt fmt then wrapElem fmt (elemInt fmt a).natAbs
  else (exactCode fmt (decodeElem fmt a).abs, {})
def negElem (fmt a : Nat) : Elem :=
  if isIntFmt fmt then wrapElem fmt (- elemInt fmt a)
  else (exactCode fmt (decodeElem fmt a).negate, {})

/-- The correctly rounded functions (R53, Table 7.4). -/
def funcElem (g : FP → Res × Flags) (fmt : Nat) (sat : Bool) (mode : Mode) (sr : SrIn) (a : Nat) : Elem :=
  let c := roundSpecial fmt sat mode sr (g (decodeElem fmt a))
  (c.code, c.f)
def divElem (fmt : Nat) (sat : Bool) (mode : Mode) (sr : SrIn) (a b : Nat) : Elem :=
  let c := roundSpecial fmt sat mode sr (FP.div (decodeElem fmt a) (decodeElem fmt b))
  (c.code, c.f)

/-- VADDS and VMULH (R214, R216): no flag. -/
def addsElem (fmt a b : Nat) : Elem := (intCode fmt (clampInt (intMin fmt) (intMax fmt) (elemInt fmt a + elemInt fmt b)), {})
def mulhElem (fmt a b : Nat) : Elem := (intCode fmt ((elemInt fmt a * elemInt fmt b) / 2 ^ fmtBits fmt), {})

/-- Shifts by b mod w (R218). -/
def shlElem (fmt a b : Nat) : Elem := (a * 2 ^ (b % fmtBits fmt) % 2 ^ fmtBits fmt, {})
def shrElem (fmt a b : Nat) : Elem := (a / 2 ^ (b % fmtBits fmt), {})
def sraElem (fmt a b : Nat) : Elem := (intCode fmt (sintOf (fmtBits fmt) a / 2 ^ (b % fmtBits fmt)), {})

/-- Comparisons (R219). -/
def eqElem (fmt a b : Nat) : Bool :=
  if isIntFmt fmt then elemInt fmt a == elemInt fmt b else FP.eqv (decodeElem fmt a) (decodeElem fmt b)
def ltElem (fmt a b : Nat) : Bool :=
  if isIntFmt fmt then decide (elemInt fmt a < elemInt fmt b) else FP.lt (decodeElem fmt a) (decodeElem fmt b)
def leElem (fmt a b : Nat) : Bool :=
  if isIntFmt fmt then decide (elemInt fmt a ≤ elemInt fmt b) else FP.le (decodeElem fmt a) (decodeElem fmt b)

/-- The one-hot class of a float element (R220). -/
def classElem (fmt a : Nat) : Nat :=
  let h := fshape fmt
  match decodeElem fmt a with
  | .nan => 256
  | .inf n => if n then 1 else 128
  | .fin n m e =>
    let sub := FP.lt (.fin false m e) (.fin false 1 h.emin)
    if m = 0 then (if n then 8 else 16)
    else if sub then (if n then 4 else 32)
    else if n then 2 else 64

/-- A conversion of one element (R223, R225): ±∞ saturates with a saturating target (R47). -/
def cvtElem (src dst : Nat) (sat : Bool) (mode : Mode) (sr : SrIn) (a : Nat) : Elem :=
  let c := roundTo dst sat true mode sr (decodeElem src a)
  (c.code, c.f)

/-- x × r, then the clamp when clipping is on, both exact (R55). -/
def scaleClip (r c : BitVec 32) (clip : Bool) (x : FP) : Val :=
  let y := FP.mul x (f32 r)
  if clip then { v := FP.clampTo y.v (f32 c), f := y.f } else y

/-- The flags of a list of results together. -/
def orFlags (l : List Flags) : Flags := l.foldl Flags.or {}

end Sys2Proof.Machine
end

