-- ==== Sys2Proof/Machine/Operands.lean ====
section
/-!
DEFINITION. V and M operand forms: queues, selectors, the vector configuration and format selectors (R59, R67, R208 to
R211, R233).
-/
namespace Sys2Proof

/-- The source form of a selector without k registers. -/
def VIn.src : VIn → VSrc
  | .v n => .v n
  | .iq q => .iq q

end Sys2Proof

namespace Sys2Proof.Machine

/-! ## Streams' entry counts (R185) -/

/-- T of R185: the bytes of a stream's sequence. -/
def StreamDesc.bytes (d : StreamDesc) : Nat := d.len0.toNat * d.cnt1.toNat * d.cnt2.toNat * d.cnt3.toNat
/-- Entries of 512 bytes, the last one perhaps partly used. -/
def StreamDesc.entries (d : StreamDesc) : Nat := (d.bytes + 511) / 512

/-- Tiles of a subscription (R198): its sequence cut into slots, the last one perhaps short. -/
def SpRing.tiles (r : SpRing) (u : Subscription) : Nat := (u.desc.bytes + r.size - 1) / r.size

/-- The stream bound to queue `q` (Table 3.4 code), if any. -/
def Core.streamOn (k : Core) (q : Nat) : Option Stream :=
  (k.streams.toList.find? (fun t => match t with
    | some t => t.desc.qsel.toNat == q
    | none => false)).join

/-- Entries that a bound out-stream still takes (R190, R202): within its pattern, or within the slots its
subscription still hands over; a subscription made after the stream was bound is not the stream's. -/
def Core.roomInStream (k : Core) (t : Stream) : Nat :=
  if t.desc.space = 2 then
    match k.rings[t.desc.ring.toFin] with
    | some r =>
      match r.sub with
      | some u => if t.seq < u.seq then 0 else (r.tiles u - u.passed) * t.desc.entries - t.next
      | none => 0
    | none => 0
  else t.desc.entries - t.next

/-! ## In-queues and out-queues (R189, R190, R211) -/

/-- Entries of a queue (R190). -/
def queueDepth : Nat := 16

/-- Waits until queue `q` holds `n` entries; a word that pops more than the queue's depth lets the stream run ahead to
its count meanwhile. DEDUCED (notes/assumptions/21.md). -/
def needIq (q : BitVec 3) (n : Nat) : W Unit := do
  modC (fun k => { k with iqWant := k.iqWant.set q.toFin (if n ≤ queueDepth then 0 else n) })
  waitFor (decide (n ≤ (← getC).iq[q.toFin].length))
  modC (fun k => { k with iqWant := k.iqWant.set q.toFin 0 })

/-- Pops one entry; the caller has waited for it. -/
def popIq (q : BitVec 3) : W VecReg := do
  let k ← getC
  match k.iq[q.toFin] with
  | [] => stall
  | e :: r => putC { k with iq := k.iq.set q.toFin r }; return e

/-- Pops `n` entries in order. -/
def popMany (q : BitVec 3) : Nat → W (List VecReg)
  | 0 => return []
  | n + 1 => do
    let e ← popIq q
    let r ← popMany q n
    return e :: r

/-- The selector code of an out-queue, DETAIL of its traps. -/
def oqCode (q : BitVec 2) : BitVec 64 := q.setWidth 64 + 40

/-- Waits until `n` entries fit out-queue `q`; a push past the bound stream's last entry raises STREAM (R190). -/
def needOq (q : BitVec 2) (n : Nat) : W Unit := do
  let k ← getC
  let held := k.oq[q.toFin].length
  match k.streamOn (q.toNat + 40) with
  | some t => need (decide (held + n ≤ k.roomInStream t)) cSTREAM (oqCode q)
  | none => pure ()
  waitFor (decide (held + n ≤ queueDepth) || (decide (queueDepth < n) && held == 0 && (k.streamOn (q.toNat + 40)).isSome))

/-- Pushes entries in order; one that carries poison raises POISON and nothing is pushed (R140, R233). -/
def pushOq (q : BitVec 2) (es : List VecReg) : W Unit := do
  if es.any (fun e => e.p != 0) then trap cPOISON (oqCode q)
  modC (fun k => { k with oq := k.oq.set q.toFin (k.oq[q.toFin] ++ es) })

/-! ## Format selectors (R59) -/

/-- The format-table index a selector names, with the loop levels of the engine at hand; a level not open, and a code
above 19, is ILLEGAL. -/
def ftIndex (sel : BitVec 5) : W (Fin 16) := do
  if sel.toNat < 16 then return ⟨sel.toNat % 16, Nat.mod_lt _ (by decide)⟩
  else if sel.toNat < 20 then
    let t ← getE
    let l := t.loops[(⟨sel.toNat % 4, Nat.mod_lt _ (by decide)⟩ : Fin 4)]
    if !l.isOpen then illegal
    return ⟨l.index.toNat % 16, Nat.mod_lt _ (by decide)⟩
  else illegal

/-- The entry a selector names. -/
def ftEntry (sel : BitVec 5) : W (BitVec 32) := do
  let i ← ftIndex sel
  return (← getC).ft[i]

/-- The entry a selector names as V sees it (R208): what M's MFTABs that V does not stand after have replaced may still be
found. DESIGN CHOICE (notes/assumptions/86.md). -/
def ftSeen (sel : BitVec 5) : W (BitVec 32) := do
  let i ← ftIndex sel
  let k ← getC
  match (k.ftLog.filter (fun q => q.1 == i.val && decide (k.engV.seen ≤ q.2.2))).map (·.2.1) with
  | [] => return k.ft[i]
  | l => return (k.ft[i] :: l).getD (← anyBelow (l.length + 1)) k.ft[i]

/-! ## The vector configuration (R208, Table 7.1) -/

/-- V's element types (Table 7.2). -/
def isVecType (c : Nat) : Bool := c == 0 || c == 1 || c == 2 || c == 11 || c == 12 || c == 13

/-- The configuration in force, decoded: the type, its width and element count, rounding, saturation, the governing
mask and ZERO. -/
structure VCfg where
  fmt : Nat
  w : Nat
  n : Nat
  mode : Mode
  sat : Bool
  mask : BitVec 3
  zero : Bool
  deriving DecidableEq, Repr, Inhabited

/-- Reads the stored configuration. -/
def Core.cfg (k : Core) : VCfg :=
  let fmt := (k.vcfg.extractLsb' 0 4).toNat
  { fmt := fmt, w := fmtBits fmt, n := 4096 / fmtBits fmt, mode := Mode.ofCode (k.vcfg.extractLsb' 4 2),
    sat := k.vcfg.getLsbD 6, mask := k.vcfg.extractLsb' 13 3, zero := k.vcfg.getLsbD 16 }

def VCfg.isFloat (g : VCfg) : Bool := !isIntFmt g.fmt

/-- Elements of a register or entry, each with its tag. -/
abbrev Elems := List (Nat × Bool)

/-- How many entries of queue `q` a list of sources pops. -/
def popsOf (q : BitVec 3) : List VSrc → Nat
  | [] => 0
  | .iq p :: r => (if p = q then 1 else 0) + popsOf q r
  | _ :: r => popsOf q r

/-- Waits until every in-queue entry that the sources pop is present (R211). -/
def needSrcs (l : List VSrc) : W Unit := do
  for s in l do
    match s with
    | .iq q => needIq q (popsOf q l)
    | _ => pure ()

/-- Reads one source as elements of width `w` (R211): a k register gives every element its low bits. -/
def rdSrc (w : Nat) (s : VSrc) : W Elems := do
  match s with
  | .v n => return elemsOf w (← rdV w n)
  | .iq q => return elemsOf w (← popIq q)
  | .k n =>
    let r ← rdK n
    return List.replicate (4096 / w) (r.v.toNat % 2 ^ w, r.p)

/-- The destination's elements before the word: a v register's own, or zeros for an out-queue (R210). -/
def oldElems (w : Nat) (d : VDst) : W Elems := do
  match d with
  | .v n => return elemsOf w (← getC).v[n.toFin]
  | .oq _ => return List.replicate (4096 / w) (0, false)

/-- Whether an inactive element of the destination becomes zero (R210). -/
def zeroes (g : VCfg) (d : VDst) : Bool :=
  match d with
  | .oq _ => true
  | .v _ => g.zero

/-- Waits for room at an out-queue destination. -/
def needDst (d : VDst) (n : Nat) : W Unit := do
  match d with
  | .oq q => needOq q n
  | .v _ => pure ()

/-- Writes one result register or entry. -/
def wrDst (d : VDst) (r : VecReg) (bound : Nat) : W Unit := do
  match d with
  | .v n => wrV n r bound
  | .oq q => pushOq q [r]

/-- The inactive rule of R210 for element `i`. -/
def inactive (g : VCfg) (d : VDst) (old : Elems) (i : Nat) : Nat × Bool :=
  if zeroes g d then (0, false) else old.getD i (0, false)

/-- The stochastic-rounding inputs of result position `e` (R213). -/
def Core.srAt (k : Core) (e : Nat) : SrIn := { seed := k.seed, step := k.step, index := k.idx + BitVec.ofNat 64 e }

/-- IDX := IDX + n (R213). -/
def bumpIdx (n : Nat) : W Unit := modC (fun k => { k with idx := k.idx + BitVec.ofNat 64 n })

end Sys2Proof.Machine
end

