-- ==== Sys2Proof/Machine/Scoreboard.lean ====
section
/-!
DEFINITION. The range scoreboard of a core (R204 to R206): the ranges of its entrants and who waits for whom; and the
one operation that writes scratchpad (R182, R257).
-/
namespace Sys2Proof.Machine

/-! ## Modes (R205, R314, R315) -/

/-- Modes that write (R314). -/
def FpMode.writes : FpMode → Bool
  | .r => false
  | _ => true

/-- ACC and ATOM, which never conflict or wait among themselves. -/
def FpMode.isAcc : FpMode → Bool
  | .acc => true
  | .atom => true
  | _ => false

/-- Table 11.2, and the same rule for waits in the scoreboard (R205). -/
def FpMode.clash (a b : FpMode) : Bool := (a.writes || b.writes) && !(a.isAcc && b.isAcc)

/-- Whether [a, a + m) and [b, b + n) overlap. -/
def overlaps (a m b n : Nat) : Bool := decide (a < b + n) && decide (b < a + m)

/-- Whether two ranges of one core must be ordered. -/
def Range.clash (p q : Range) : Bool := p.sp == q.sp && overlaps p.lo p.len q.lo q.len && p.mode.clash q.mode

def anyClash (ps qs : List Range) : Bool := ps.any (fun p => qs.any (fun q => p.clash q))

/-! ## Ranges of entrants (Table 6.6) -/

/-- Covering interval of a stream's pattern, lowest and highest byte (R185). -/
def StreamDesc.cover (d : StreamDesc) : Int × Int :=
  let r := coverOf 8 d.len0.toNat [(d.cnt1.toNat, d.str1.toInt), (d.cnt2.toNat, d.str2.toInt), (d.cnt3.toNat, d.str3.toInt)]
  (d.base.toNat + r.1, d.base.toNat + r.2)

/-- Whether a queue selector names an in-queue. -/
def StreamDesc.isIn (d : StreamDesc) : Bool := decide (d.qsel.toNat < 40)

/-- Mode of a stream's accesses (R188). -/
def StreamDesc.mode (d : StreamDesc) : FpMode := if d.isIn then .r else if d.acc then .acc else .w
/-- Mode of a subscription's accesses to global memory (R198). -/
def Subscription.mode (u : Subscription) : FpMode := if u.store then (if u.desc.acc then .acc else .w) else .r

/-- The slots of a ring. -/
def SpRing.range (r : SpRing) (m : FpMode) : Range := { sp := true, lo := r.base, len := r.size * r.count, mode := m }

/-- The range of a bound stream. -/
def Core.streamRanges (k : Core) (d : StreamDesc) : List Range :=
  if d.space = 2 then
    match k.rings[d.ring.toFin] with
    | some r => [r.range d.mode]
    | none => []
  else rangeOf (d.space == 0) d.mode d.cover.1 d.cover.2

/-- The ranges of a subscription: the ring's slots, which the loader writes or the storer reads, and its pattern. -/
def SpRing.subRanges (r : SpRing) (u : Subscription) : List Range :=
  r.range (if u.store then .r else .w) :: rangeOf false u.mode u.desc.cover.1 u.desc.cover.2

/-- End of the tensor range of an unfold binding (R256). -/
def Unfold.tensorEnd (u : Unfold) : Int :=
  let c := if u.mode = 1 then u.chans.toNat else 1
  u.tbase.toNat + ((u.rows.toNat : Int) - 1) * u.pitch.toNat + ((u.cols.toNat * c * fmtBits u.sfmt.toNat + 7) / 8 : Nat)
/-- End of its side-plane range. -/
def Unfold.sideEnd (u : Unfold) : Int :=
  u.sbase.toNat + ((u.rows.toNat : Int) - 1) * u.spitch.toNat + ((u.cols.toNat + 31) / 32 * sideEntry u.sfmt.toNat : Nat)

/-- Ranges that an unfold binding reads: tensor, side plane, index list (R256). -/
def Unfold.ranges (u : Unfold) : List Range :=
  let mk := fun (lo : Nat) (hi : Int) => ({ sp := true, lo := lo, len := (hi - lo).toNat, mode := .r } : Range)
  [mk u.tbase.toNat u.tensorEnd] ++ (if isBlockFmt u.sfmt.toNat then [mk u.sbase.toNat u.sideEnd] else []) ++
    (if u.mode = 3 then [mk u.idxbase.toNat (u.idxbase.toNat + 4 * u.idxcnt.toNat)] else [])

/-! ## Waiting (R205) -/

/-- An X job that has not retired. -/
def XCard.live (x : XCard) : Bool := x.st == .waiting || x.st == .running

/-- An entrant of order `seq` that is no X job waits while an earlier X job of the core has a clashing range. -/
def Core.cardsBlock (k : Core) (seq : Nat) (rs : List Range) : Bool :=
  k.cards.any (fun x => x.live && decide (x.seq < seq) && anyClash x.card.ranges rs)

/-- A newcomer waits while any live X job has a clashing range. -/
def Core.blocked (k : Core) (rs : List Range) : Bool := k.cardsBlock k.sbNext rs

/-- An X job waits while an earlier X job, stream, subscription or unfold binding has a clashing range. -/
def Core.cardBlocked (k : Core) (x : XCard) : Bool :=
  let rs := x.card.ranges
  k.cards.any (fun y => y.live && decide (y.seq < x.seq) && anyClash y.card.ranges rs) ||
  k.streams.toList.any (fun t => match t with
    | some t => decide (t.seq < x.seq) && anyClash (k.streamRanges t.desc) rs
    | none => false) ||
  k.rings.toList.any (fun r => match r with
    | some r => match r.sub with
      | some u => decide (u.seq < x.seq) && anyClash (r.subRanges u) rs
      | none => false
    | none => false) ||
  (match k.unfold with
    | some u => decide (u.seq < x.seq) && anyClash u.ranges rs
    | none => false)

/-- A RUNNING X job that has read and written under a clashing range and has not retired: what comes to an end now came
after it (R205). -/
def Core.cardsHold (k : Core) (rs : List Range) : Bool := k.cards.any (fun x => x.st == .running && x.moved && anyClash x.card.ranges rs)

/-- A flight of an engine's access blocks an X job accepted after it; a late access enters when it lands (R206). -/
def State.flightsBlock (s : State) (c : Nat) (x : XCard) : Bool :=
  s.flights.any (fun f => f.core == c && !f.rel && !f.pends && decide (f.seq < x.seq) &&
    anyClash [{ sp := f.sp, lo := f.va, len := f.len, mode := f.mode }] x.card.ranges)

/-- Takes the next place in the scoreboard. -/
def takeSeq : W Nat := do
  let k ← getC
  putC { k with sbNext := k.sbNext + 1 }
  return k.sbNext

/-- The unfold unit's reads wait for earlier X jobs (R205). -/
def Core.unfoldBlocked (k : Core) (u : Unfold) : Bool := k.cardsBlock u.seq u.ranges

/-! ## Scratchpad writes -/

/-- Whether an entrant of place `seq` may still read bytes as they were before a write: not where an X job that entered before
it makes the write, for which its reads wait (R205). DESIGN CHOICE (notes/assumptions/34.md). -/
def seesOld (job : Option Nat) (seq : Nat) : Bool := job.all (fun j => decide (seq < j))

/-- The bytes of a run that a step in the array sequence may still read as they are now (R257). -/
def ArrayOp.noteOver (job : Option Nat) (old : List (Nat × Byte)) : ArrayOp → ArrayOp
  | .step s t => if seesOld job s.bind.seq then .step { s with covered := s.covered ++ old } t else .step s t
  | o => o

/-- Whether an address lies in a slot of the ring that is in STORING: handed over and not yet stored (R199). -/
def SpRing.storing (r : SpRing) (u : Subscription) (a : Nat) : Bool :=
  u.store && decide (r.base ≤ a) && decide (a < r.base + r.size * r.count) &&
  decide (((a - r.base) / r.size + r.count - u.filled % r.count) % r.count < u.passed - u.filled)

/-- A store-mode subscription keeps what a byte of a slot in STORING was (R200). -/
def SpRing.noteOver (job : Option Nat) (old : List (Nat × Byte)) (r : SpRing) : SpRing :=
  match r.sub with
  | some u => if !seesOld job u.seq then r else { r with sub := some { u with covered := u.covered ++ old.filter (fun p => r.storing u p.1) } }
  | none => r

/-- Writes bytes into a core's scratchpad; bytes at or beyond 4 MiB do not exist, and callers have checked. Steps in the
array sequence and slots in STORING keep what the bytes were. `job` is the place of the X job that writes. -/
def Core.spadWrite (k : Core) (a : Nat) (bs : List Byte) (job : Option Nat := none) : Core :=
  let old := (List.range bs.length).map (fun i => (a + i, k.spad.get (a + i)))
  { k with spad := k.spad.splice a bs, stepq := k.stepq.map (ArrayOp.noteOver job old),
           rings := k.rings.map (fun r => r.map (SpRing.noteOver job old)) }

end Sys2Proof.Machine
end

