-- ==== Sys2Proof/Machine/Mem.lean ====
section
/-!
DEFINITION. Memory: local physical space (R290 to R292, R304, R488), the page-table walk and the leaf check (R293 to
R296), translation caches (R305, R306), kinds (R297 to R303), the die caches (R322), footprints (R312 to R318), and the
accesses that agents make through all of these.
-/
namespace Sys2Proof.Machine

/-- How an access fails: cause and DETAIL. -/
abbrev Bad := BitVec 8 × BitVec 64

def word64 (n : Nat) : BitVec 64 := BitVec.ofNat 64 n

/-! ## Physical space -/

/-- Bytes of one stack's range. -/
def stackSpan : Nat := 0x1000000000
/-- Base of the context frames, of the second tier, and the span of a port's window (Table 10.1). -/
def frameBase : Nat := 0x0C000000000
def tierBase : Nat := 0x10000000000
def tierSpan : Nat := 0xC000000000
/-- 715 GiB. -/
def tierOffered : Nat := 715 * 0x40000000

/-- A stack is in service unless the record retires one of its channels (R11). -/
def State.inService (s : State) (stack : Nat) : Bool := if h : stack < 12 then s.cfg.chret[stack] == 0 else false

/-- Whether a frame lies inside the second tier. -/
def inTier (pa : Nat) : Bool := decide (tierBase ≤ pa)

/-- The CTXID whose context frame holds an address. -/
def ctxFrameOf (pa : Nat) : Option Nat :=
  if frameBase ≤ pa ∧ pa < frameBase + 0x1000000 then some ((pa - frameBase) / 0x10000) else none

/-- An offered frame (R291). -/
def State.offered (s : State) (pa size : Nat) : Bool :=
  if pa + size ≤ 12 * stackSpan then
    decide (pa / stackSpan = (pa + size - 1) / stackSpan) && s.inService (pa / stackSpan)
  else if inTier pa then
    let p := (pa - tierBase) / tierSpan
    let o := (pa - tierBase) % tierSpan
    decide (p < 4) && s.cxl.getLsbD p && decide (o + size ≤ tierOffered)
  else
    match ctxFrameOf pa with
    | some n => decide (1 ≤ n) && decide (pa + size ≤ frameBase + (n + 1) * 0x10000)
    | none => false

/-- The key under which a sector's bytes stand (R304). -/
def State.tagAt (s : State) (pa : Nat) : KeyTag := sget {} (pa / 64) s.keyTags
/-- The key that slot `k` names now. -/
def State.keyNow (s : State) (k : Nat) : KeyTag :=
  if k = 0 then {} else { slot := BitVec.ofNat 8 k, load := ((lookup k s.keys).getD {}).load }

/-- Whether a sector holds an uncorrectable error (R488). -/
def State.isUncorr (s : State) (pa : Nat) : Bool := s.uncorr.contains (pa / 64)

/-- Free bytes. -/
def anyBytes (n : Nat) : W (List Byte) := do
  let c ← freshN n
  return (List.range n).map (fun i => Config.freeByte (c + i))

/-- Bytes of one sector as key `key` decrypts them: under another key they read as other bytes (R304). DESIGN CHOICE (notes/assumptions/27.md). -/
def rdPhys (pa n key : Nat) : W (List Byte) := do
  let s ← get
  if s.tagAt pa = s.keyNow key then return s.mem.slice pa n
  anyBytes n

/-- Replaces a run of a list from position `o` on. -/
def spliceAt (l : List Byte) (o : Nat) (b : List Byte) : List Byte := l.take o ++ b ++ l.drop (o + b.length)

/-- Writes bytes within one sector. A write of the whole sector clears its error (R488); a part of a sector that
stood under another key leaves the rest of it other bytes. DESIGN CHOICE (notes/assumptions/27.md). -/
def wrPhys (pa key : Nat) (bs : List Byte) : W Unit := do
  let s ← get
  let base := pa / 64 * 64
  let whole := pa % 64 == 0 && bs.length == 64
  if s.tagAt pa = s.keyNow key || whole then
    set { s with mem := s.mem.splice pa bs, keyTags := sset {} (pa / 64) (s.keyNow key) s.keyTags,
                 uncorr := if whole then s.uncorr.filter (· ≠ pa / 64) else s.uncorr }
  else
    let rest ← anyBytes 64
    modify (fun s => { s with mem := s.mem.splice base (spliceAt rest (pa % 64) bs),
                              keyTags := sset {} (pa / 64) (s.keyNow key) s.keyTags })

/-- A read of memory within one sector: UNCORR with DETAIL the physical address. -/
def rdMem (pa n key : Nat) : W (Except Bad (List Byte)) := do
  if (← get).isUncorr pa then return .error (cUNCORR, word64 pa)
  return .ok (← rdPhys pa n key)

/-- A write of memory within one sector: a part of a sector in error meets the error (R488). -/
def wrMem (pa key : Nat) (bs : List Byte) : W (Except Bad Unit) := do
  if (← get).isUncorr pa && !(pa % 64 == 0 && bs.length == 64) then return .error (cUNCORR, word64 pa)
  wrPhys pa key bs
  return .ok ()

/-! ## The walk (R293 to R296) -/

/-- A leaf: the page's virtual base and size, and its PTE. -/
structure Leaf where
  vbase : Nat
  size : Nat
  pte : BitVec 64
  deriving DecidableEq, Repr, Inhabited

def Leaf.w (l : Leaf) : Bool := l.pte.getLsbD 2
def Leaf.txt (l : Leaf) : Bool := l.pte.getLsbD 3
def Leaf.kind (l : Leaf) : Nat := (l.pte.extractLsb' 4 3).toNat
def Leaf.key (l : Leaf) : Nat := (l.pte.extractLsb' 8 8).toNat
def Leaf.cp (l : Leaf) : Bool := l.pte.getLsbD 16
def Leaf.frame (l : Leaf) : Nat := (l.pte.extractLsb' 22 34).toNat * 256
def Leaf.wslot (l : Leaf) : Nat := (l.pte.extractLsb' 56 8).toNat
/-- The physical address before the kind's adjustment. -/
def Leaf.pa (l : Leaf) (va : Nat) : Nat := l.frame + va % l.size

/-- Index bits of a level (Table 10.2). -/
def ptIndex (lvl va : Nat) : Nat :=
  match lvl with
  | 3 => bitsOf va 55 39
  | 2 => bitsOf va 38 30
  | 1 => bitsOf va 29 21
  | _ => bitsOf va 20 16
/-- Bytes of a table of a level. -/
def ptTable (lvl : Nat) : Nat := if lvl = 0 then 256 else 4096
/-- Bytes of a leaf page of a level. -/
def ptPage (lvl : Nat) : Nat :=
  match lvl with
  | 2 => 0x40000000
  | 1 => 0x200000
  | _ => 0x10000

/-- A set reserved bit of a valid PTE (Table 10.3). -/
def pteReserved (p : BitVec 64) : Bool :=
  if p.getLsbD 1 then
    p.getLsbD 7 || p.extractLsb' 17 5 != 0 || (p.extractLsb' 4 3 != 1 && p.extractLsb' 56 8 != 0)
  else p.extractLsb' 2 20 != 0 || p.extractLsb' 56 8 != 0

/-- The conditions of R296 that give XLATE. -/
def State.leafBad (s : State) (l : Leaf) : Bool :=
  decide (l.frame % l.size ≠ 0) || !s.offered l.frame l.size || decide (5 ≤ l.kind) || (l.kind == 3) != inTier l.frame ||
  (l.kind == 1 && (l.size != 0x200000 || l.frame % 0x400000 != 0)) ||
  (l.kind == 2 && (decide (3 * stackSpan ≤ l.frame) ||
    !(List.range 4).all (fun j => s.inService (l.frame / stackSpan + 3 * j)))) ||
  ((ctxFrameOf l.frame).isSome && (l.kind != 0 || !l.cp || l.key != 0))

/-- Whether the kind forbids an access (Table 10.4). -/
def kindForbids (kind : Nat) (use : Acc) : Bool :=
  match use with
  | .read => false
  | .text => false
  | .write => kind == 1 || kind == 2
  | .acc => kind == 1 || kind == 2 || kind == 3
  | .atom => kind == 1 || kind == 2

/-- Whether an access writes (R296). -/
def Acc.writes : Acc → Bool
  | .read => false
  | .text => false
  | _ => true

/-- The conditions of R296 that give PROT. -/
def State.leafProt (s : State) (ctx : BitVec 8) (l : Leaf) (use : Acc) : Bool :=
  (l.key != 0 && !((lookup l.key s.keys).getD {}).grants.contains ctx) ||
  (match ctxFrameOf l.frame with
    | some n => n != ctx.toNat
    | none => false) ||
  (use.writes && !l.w) || (use == .text && !l.txt) || kindForbids l.kind use

/-- The doubleword of a page table, read as plaintext (R295, R304). -/
def State.ptRead (s : State) (salt pa : Nat) : Except Bad (BitVec 64) :=
  if s.isUncorr pa then .error (cUNCORR, word64 pa)
  else if s.tagAt pa = {} then .ok (s.mem.get64 pa) else .ok (Config.freeWord salt)

/-- translate of R295 from level `lvl` with the table at `t`. -/
def State.walkFrom (s : State) (va salt : Nat) : Nat → Nat → Except Bad Leaf
  | lvl, t =>
    match s.ptRead (salt + lvl) (t + 8 * ptIndex lvl va) with
    | .error e => .error e
    | .ok p =>
      if !p.getLsbD 0 || pteReserved p then .error (cXLATE, word64 va)
      else if p.getLsbD 1 then
        let l : Leaf := { vbase := va / ptPage lvl * ptPage lvl, size := ptPage lvl, pte := p }
        if lvl = 3 || s.leafBad l then .error (cXLATE, word64 va) else .ok l
      else
        match lvl with
        | 0 => .error (cXLATE, word64 va)
        | n + 1 =>
          let u := (p.extractLsb' 22 34).toNat * 256
          if u % ptTable n ≠ 0 then .error (cXLATE, word64 va) else s.walkFrom va salt n u

/-- A walk of a context's tables, without the protection checks. -/
def walkVa (ctx : BitVec 8) (va : Nat) : W (Except Bad Leaf) := do
  let salt ← freshN 4
  let s ← get
  if 2 ^ 56 ≤ va then return .error (cXLATE, word64 va)
  return s.walkFrom va salt 3 (s.ctx ctx).ptroot

/-! ## Translation caches (R305 to R308) -/

/-- Entries of a cache (Table 10.6). -/
def TlbId.size : TlbId → Nat
  | .eng _ .A => 64
  | .eng _ .X => 32
  | .eng _ _ => 16
  | .die _ => 16384
  | .base _ => 1024
  | .hub => 4096

def TlbEntry.leaf (e : TlbEntry) : Leaf := { vbase := e.vbase, size := e.size, pte := e.pte }
/-- Whether an entry translates an address. -/
def TlbEntry.covers (e : TlbEntry) (id : TlbId) (ctx : BitVec 8) (va : Nat) : Bool :=
  e.cache == id && e.ctx == ctx && decide (e.vbase ≤ va) && decide (va < e.vbase + e.size)

/-- A hit in one cache; stale entries may stand beside newer ones, and either may answer. -/
def tlbHit (id : TlbId) (ctx : BitVec 8) (va : Nat) : W (Option Leaf) := do
  match (← get).tlb.filter (fun e => e.covers id ctx va) with
  | [] => return none
  | [e] => return some e.leaf
  | e :: r => return some ((e :: r).getD (← anyBelow (r.length + 1)) e).leaf

/-- Puts a leaf into a cache; one entry or none leaves by replacement, at a full cache one does. -/
def tlbFill (id : TlbId) (ctx : BitVec 8) (l : Leaf) : W Unit := do
  let out ← anyBelow 32768
  modify (fun s =>
    let mine := s.tlb.filter (fun e => e.cache == id && !(e.ctx == ctx && e.vbase == l.vbase && e.size == l.size))
    let others := s.tlb.filter (fun e => e.cache != id)
    let kept := mine.eraseIdx out
    let kept := if id.size ≤ kept.length then kept.drop 1 else kept
    { s with tlb := others ++ kept ++ [{ cache := id, ctx := ctx, vbase := l.vbase, size := l.size, pte := l.pte }] })

/-- The protection check on a leaf. -/
def protect (ctx : BitVec 8) (va : Nat) (use : Acc) (l : Leaf) : W (Except Bad Leaf) := do
  if (← get).leafProt ctx l use then return .error (cPROT, word64 va) else return .ok l

/-- Translates through a chain of caches, nearest first; a miss in all of them walks, and a leaf that passes every check
is kept in all of them. DEDUCED (notes/assumptions/31.md). -/
def xlate (ids : List TlbId) (ctx : BitVec 8) (va : Nat) (use : Acc) : W (Except Bad Leaf) := do
  if 2 ^ 56 ≤ va then return .error (cXLATE, word64 va)
  for id in ids do
    match ← tlbHit id ctx va with
    | some l =>
      let r ← protect ctx va use l
      if r.toOption.isSome then
        for j in ids.takeWhile (· ≠ id) do tlbFill j ctx l
      return r
    | none => pure ()
  match ← walkVa ctx va with
  | .error e => return .error e
  | .ok l =>
    let r ← protect ctx va use l
    if r.toOption.isSome then
      for j in ids do tlbFill j ctx l
    return r

/-- The translation of a word's one address (R306): a hit in the engine's cache or its die's; else the failure that the
walk for this word found, or a miss, which waits for the hub walker. -/
def xlateWord (e : Engine) (va : Nat) (use : Acc) : W (Except Bad Leaf) := do
  let s ← get
  let c := s.cur.core
  let ctx := (s.core c).lastCtx
  if 2 ^ 56 ≤ va then return .error (cXLATE, word64 va)
  match ← tlbHit (.eng c e) ctx va with
  | some l => protect ctx va use l
  | none =>
    match ← tlbHit (.die (c / 24)) ctx va with
    | some l =>
      let r ← protect ctx va use l
      if r.toOption.isSome then tlbFill (.eng c e) ctx l
      return r
    | none =>
      match s.walkFails.find? (fun f => f.who == .eng c s.cur.eng && f.va == va) with
      | some f =>
        modify (fun s => { s with walkFails := s.walkFails.filter (fun f => f.who ≠ .eng c s.cur.eng) })
        return .error (f.cause, f.detail)
      | none =>
        let q : WalkReq := { ctx := ctx, va := va, acc := use, who := .eng c s.cur.eng }
        if !s.walkReqs.contains q then set { s with walkReqs := s.walkReqs ++ [q] }
        stall

/-- The same for an access of `n` bytes in the order of R173: XLATE, ALIGN, PROT. -/
def xlateAligned (e : Engine) (va n : Nat) (use : Acc) : W (Except Bad Leaf) := do
  match ← xlateWord e va use with
  | .error x => return .error (if x.1 = cPROT && va % n ≠ 0 then (cALIGN, word64 va) else x)
  | .ok l => if va % n ≠ 0 then return .error (cALIGN, word64 va) else return .ok l

/-- Where a requester of the hub walker keeps its leaves. -/
def Who.caches : Who → List TlbId
  | .eng c e => [.eng c e, .die (c / 24)]
  | .owner _ => [.hub]

/-- What the walk of a request is about: its leaf, or its address where it finds none. Requests of one leaf share a walk. -/
def State.walkKey (s : State) (q : WalkReq) : BitVec 8 × Nat × Nat :=
  match s.walkFrom q.va 0 3 (s.ctx q.ctx).ptroot with
  | .ok l => (q.ctx, l.vbase, l.size)
  | .error _ => (q.ctx, q.va, 0)

/-- Walks that run at once (R306). -/
def walkRoom : Nat := 64

/-- Whether the walk of request `i` runs: fewer than 64 other walks come before it, those of CTXID 0 first, then in the
order of arrival. -/
def State.walkRuns (s : State) (i : Nat) (q : WalkReq) : Bool :=
  let first := s.walkReqs.filter (fun r => r.ctx == 0)
  let before := if q.ctx = 0 then (s.walkReqs.take i).filter (fun r => r.ctx == 0) else first ++ s.walkReqs.take i
  decide ((((before.map s.walkKey).filter (fun k => k != s.walkKey q)).eraseDups).length < walkRoom)

/-- Whether a translation of an address needs no walk that has to wait: a cache holds it, a walk that runs finds its leaf too, or
the hub walker has room for one more. -/
def State.walkTurn (s : State) (ids : List TlbId) (ctx : BitVec 8) (va : Nat) : Bool :=
  let q : WalkReq := { ctx := ctx, va := va, acc := .read, who := .owner (.hub 0) }
  s.walkRuns s.walkReqs.length q || s.tlb.any (fun e => ids.any (fun id => e.covers id ctx va)) ||
  s.walkReqs.zipIdx.any (fun r => s.walkKey r.1 == s.walkKey q && s.walkRuns r.2 r.1)

/-- A requester other than a word translates within its own step; while a walk that it needs for `n` bytes would have to wait,
it does not act (R306). -/
def walkTurn (ids : List TlbId) (ctx : BitVec 8) (va n : Nat) : W Unit := do
  let s ← get
  waitFor ((List.range (if s.walkReqs.length < walkRoom then 0 else (va % ptPage 0 + n + ptPage 0 - 1) / ptPage 0)).all (fun i =>
    s.walkTurn ids ctx (va / ptPage 0 * ptPage 0 + ptPage 0 * i)))

/-- PAGE_TABLE_WALK: the walk for request `arg 0` completes for every request on the same leaf. DEDUCED (notes/assumptions/31.md). -/
def pageTableWalk : W Unit := do
  let i ← arg 0
  match (← get).walkReqs[i]? with
  | none => stall
  | some q =>
    waitFor ((← get).walkRuns i q)
    match ← walkVa q.ctx q.va with
    | .error (c, d) =>
      modify (fun s => { s with walkReqs := s.walkReqs.eraseIdx i,
                                walkFails := s.walkFails ++ [{ who := q.who, va := q.va, cause := c, detail := d }] })
    | .ok l =>
      let s ← get
      let same := fun (r : WalkReq) => r.ctx == q.ctx && decide (l.vbase ≤ r.va) && decide (r.va < l.vbase + l.size)
      set { s with walkReqs := s.walkReqs.filter (fun r => !same r) }
      for r in s.walkReqs.filter same do
        match ← protect r.ctx r.va r.acc l with
        | .ok _ => for id in r.who.caches do tlbFill id r.ctx l
        | .error (c, d) =>
          modify (fun s => { s with walkFails := s.walkFails ++ [{ who := r.who, va := r.va, cause := c, detail := d }] })
def execPageTableWalk (s : State) : Host.Outcome State Fault Refusal := event pageTableWalk s

/-- Drops the entries of a context over a range, or all of them when `len` is 0 (R308), and the walks that run: their
requesters walk again. -/
def State.tlbDrop (s : State) (ctx : BitVec 8) (va len : Nat) : State :=
  { s with tlb := s.tlb.filter (fun e => !(e.ctx == ctx && (len == 0 || overlaps va len e.vbase e.size))),
           walkFails := s.walkFails.filter (fun f => !(len == 0 || overlaps va len f.va 1)) }

/-! ## Who makes an access -/

/-- The agent as R300 and R301 see it. -/
inductive Agent where
  | core (c : Nat)
  | job (c t : Nat)
  | stack (s : Nat)
  | hub
  deriving DecidableEq, Repr, Inhabited

/-- How an agent reaches memory: its caches and context, whether S of a core reads (R333), and the die cache with the
owner of what it writes there (R322); `early` is what it has begun to read (R300). -/
structure Path where
  ids : List TlbId
  ctx : BitVec 8
  who : Agent
  isS : Bool := false
  die : Option Nat := none
  early : Early := []
  deriving DecidableEq, Repr, Inhabited

/-- The path of an engine of a core, or of its streams. -/
def State.pathOf (s : State) (c : Nat) (e : Engine) : Path :=
  { ids := [.eng c e, .die (c / 24)], ctx := (s.core c).lastCtx, who := .core c, isS := e == .S, die := some c,
    early := if e = .S then (s.core c).engS.early else [] }
/-- The path of an X job. -/
def State.jobPath (s : State) (c t : Nat) : Path := { s.pathOf c .X with who := .job c t }
/-- The path of the base die of stack `n`, and of the hub. -/
def basePath (ctx : BitVec 8) (n : Nat) : Path := { ids := [.base n], ctx := ctx, who := .stack n }
def hubPath (ctx : BitVec 8) : Path := { ids := [.hub], ctx := ctx, who := .hub }
/-- The same agent past the die cache. -/
def Path.bypass (p : Path) : Path := { p with die := none }

/-! ## Kinds (R297 to R303) -/

/-- The round that a new pin of a Whistle would see; 0 where the context binds no such Whistle (R375). DEDUCED (notes/assumptions/56.md). -/
def State.newRound (s : State) (ctx : BitVec 8) (n : Nat) : Nat :=
  ((s.barriers.find? (fun b => b.ctx == ctx && b.whistle && b.num == n)).map (·.seq)).getD 0

/-- The pinned round of an agent. -/
def State.pinnedRound (s : State) (ctx : BitVec 8) (who : Agent) (n : Nat) : Option Nat :=
  let own : Option PinOwner := match who with
    | .core c => some (.core c)
    | .job c t => some (.job c t)
    | _ => none
  (s.pins.find? (fun p => p.ctx == ctx && p.whistle == n && some p.owner == own)).map (·.round)

/-- The frame of a versioned page (R300): by the pin, else by what a new pin would see. DEDUCED (notes/assumptions/56.md). -/
def State.frameOf (s : State) (ctx : BitVec 8) (who : Agent) (n : Nat) : Nat :=
  (s.pinnedRound ctx who n).getD (s.newRound ctx n) % 2

/-- The replica an agent reads (R301). -/
def Agent.replica : Agent → Nat
  | .core c => c / 24
  | .job c _ => c / 24
  | .stack s => s / 3
  | .hub => 0

/-- The bytes of a 512-bit sector. -/
def sectorBytes (d : BitVec 512) : List Byte := leBytes 64 d.toNat
def sectorOf (b : List Byte) : BitVec 512 := BitVec.ofNat 512 (leNat b)

/-- Applies the next `n` updates that sector `pa` of a replica waits for, in ascending order (R303). One that covers a part
of a sector in error meets the error (R488), which leaves the other replicas written (R302). -/
def applyReps (pa : Nat) : Nat → W Unit
  | 0 => pure ()
  | n + 1 => do
    let s ← get
    match s.repPend.find? (fun u => u.pa == pa) with
    | none => pure ()
    | some u =>
      set { s with repPend := s.repPend.erase u, repLast := assign (pa / 64) (u.q + 1) s.repLast }
      match ← wrMem (pa + u.lo) u.key (((sectorBytes u.data).drop u.lo).take u.n) with
      | .ok _ => pure ()
      | .error _ => modify (fun s => { s with repBad := s.repBad ++ [(u.q, pa + u.lo)] })
      applyReps pa n

/-- Applies every update up to the last one of sequence number `q`, sector by sector. -/
def applyUpTo (q : Nat) : W Unit := do
  for u in (← get).repPend.filter (fun u => u.q == q) do
    applyReps u.pa (((← get).repPend.filter (fun x => x.pa == u.pa && decide (x.q ≤ q))).length)

/-- A multicast of sequence number `q` is complete: its bytes stand in every replica, and reads that follow by the
synchronising operations see no bound below it (R302, R333). -/
def completeRep (q : Nat) : W Unit := do
  applyUpTo q
  modify (fun s => { s with repDone := Nat.max s.repDone (q + 1) })

/-- The floor below which an agent's replica reads see no bound (R333). DEDUCED (notes/assumptions/30.md). -/
def State.replicaFloor (s : State) (p : Path) : Nat :=
  match p.who with
  | .core c => if p.isS then Nat.max (s.core c).repFloor (s.core c).repAcq else (s.core c).repAcq
  | .job c _ => (s.core c).repAcq
  | _ => s.repDone

/-- Before a read of a replica's sector: a free number of its updates is applied, at least those below the reader's
floor (R303, R333); S notes the bound it observes. -/
def readReplica (p : Path) (pa : Nat) : W Unit := do
  let s ← get
  let base := pa / 64 * 64
  let pend := s.repPend.filter (fun u => u.pa == base)
  let floor := s.replicaFloor p
  let least := (pend.filter (fun u => decide (u.q < floor))).length
  match pend with
  | [] => pure ()
  | _ => applyReps base (least + (← anyBelow (pend.length + 1 - least)))
  if p.isS then
    match p.who with
    | .core c =>
      let seen := (lookup (base / 64) (← get).repLast).getD 0
      modify (fun s => s.onCore c (fun k => { k with repSeen := Nat.max k.repSeen seen }))
    | _ => pure ()

/-! ## The die caches (R322) -/

def DSector.is (d : DSector) (die : Nat) (ctx : BitVec 8) (va pa key : Nat) : Bool :=
  d.die == die && d.ctx == ctx && d.va == va / 64 * 64 && d.pa == pa / 64 * 64 && d.key == key

/-- Writes a dirty sector back to memory; it stays as a clean one. -/
def writeBack (d : DSector) : W Unit := do
  if d.owner.isSome then
    wrPhys d.pa d.key (sectorBytes d.data)
    modify (fun s => { s with dcache := s.dcache.map (fun x => if x == d then { d with owner := none } else x) })

/-- Writes back the dirty sectors that a selection names. -/
def writeBackAll (sel : DSector → Bool) : W Unit := do
  for d in (← get).dcache.filter (fun d => d.owner.isSome && sel d) do writeBack d

/-- Writes back the dirty sectors of a core that overlap a range (R318). -/
def writeBackRange (ctx : BitVec 8) (c lo len : Nat) : W Unit :=
  writeBackAll (fun d => d.ctx == ctx && d.owner == some c && overlaps d.va 64 lo len)

/-- Drops the clean sectors of a die that overlap a range. -/
def State.dropClean (s : State) (ctx : BitVec 8) (die lo len : Nat) : State :=
  { s with dcache := s.dcache.filter (fun d => !(d.die == die && d.ctx == ctx && d.owner.isNone && overlaps d.va 64 lo len)) }

/-- A bypassing access writes back and drops its owner's dirty sectors there first; dirty sectors of other cores stay. -/
def dropDirty (ctx : BitVec 8) (c lo len : Nat) : W Unit := do
  writeBackRange ctx c lo len
  modify (fun s => s.dropClean ctx (c / 24) lo len)

/-! ### Lines (R16, R322) -/

/-- Lines of 512 bytes in a die cache of 64 MiB. -/
def lineCount : Nat := 0x20000

/-- The line that a sector belongs to: its context and its address in lines. -/
def DSector.line (d : DSector) : BitVec 8 × Nat := (d.ctx, d.va / 512)

/-- The lines that a die cache holds. -/
def State.linesOf (s : State) (die : Nat) : List (BitVec 8 × Nat) := ((s.dcache.filter (fun d => d.die == die)).map DSector.line).eraseDups

/-- Before a sector of a line enters a die cache: a full cache that does not hold the line gives one up, any of them, its
dirty sectors written back. DESIGN CHOICE (notes/assumptions/28.md). -/
def lineRoom (die : Nat) (ctx : BitVec 8) (va : Nat) : W Unit := do
  let ls := (← get).linesOf die
  if ls.contains (ctx, va / 512) || ls.length < lineCount then pure ()
  else
    match ls[(← anyBelow ls.length)]? with
    | none => pure ()
    | some x =>
      writeBackAll (fun d => d.die == die && d.line == x)
      modify (fun s => { s with dcache := s.dcache.filter (fun d => !(d.die == die && d.line == x)) })

/-- A sector enters a die cache. -/
def addSector (d : DSector) : W Unit := do
  lineRoom d.die d.ctx d.va
  modify (fun s => { s with dcache := s.dcache ++ [d] })

/-- A read through the die cache of core `c`'s die: a valid sector answers, unless a clean one has been evicted; a miss
reads memory and may keep the sector. -/
def cachedRead (c : Nat) (ctx : BitVec 8) (l : Leaf) (va pa n : Nat) : W (Except Bad (List Byte)) := do
  let hit := (← get).dcache.find? (fun d => d.is (c / 24) ctx va pa l.key)
  match hit with
  | some d =>
    if d.owner.isSome || !(← anyBit) then return .ok (((sectorBytes d.data).drop (pa % 64)).take n)
    modify (fun s => { s with dcache := s.dcache.erase d })
  | none => pure ()
  match ← rdMem (pa / 64 * 64) 64 l.key with
  | .error _ => return .error (cUNCORR, word64 pa)
  | .ok b =>
    if ← anyBit then
      addSector { die := c / 24, ctx := ctx, va := va / 64 * 64, pa := pa / 64 * 64, data := sectorOf b, owner := none, key := l.key }
    return .ok ((b.drop (pa % 64)).take n)

/-- A write through the die cache: the sector becomes dirty, its owner core `c`; it may be evicted, and so written back,
at once. -/
def cachedWrite (c : Nat) (ctx : BitVec 8) (l : Leaf) (va pa : Nat) (bs : List Byte) : W (Except Bad Unit) := do
  let die := c / 24
  let old ← match (← get).dcache.find? (fun d => d.is die ctx va pa l.key) with
    | some d => do
      modify (fun s => { s with dcache := s.dcache.erase d })
      pure (Except.ok (sectorBytes d.data))
    | none => if pa % 64 = 0 && bs.length = 64 then pure (Except.ok bs) else rdMem (pa / 64 * 64) 64 l.key
  match old with
  | .error _ => return .error (cUNCORR, word64 pa)
  | .ok b =>
    let d : DSector := { die := die, ctx := ctx, va := va / 64 * 64, pa := pa / 64 * 64,
                         data := sectorOf (spliceAt b (pa % 64) bs), owner := some c, key := l.key }
    addSector d
    if ← anyBit then writeBack d
    return .ok ()

/-- The length of the part of a run that lies in its first sector. -/
def pieceLen (va n : Nat) : Nat := Nat.min n (64 - va % 64)

/-! ## Context frames (R287, R291) -/

/-- A read of a context frame: the two counts, else zero. -/
def frameRead (ctx : BitVec 8) (off n : Nat) : W (List Byte) := do
  let c := (← get).ctx ctx
  if off = 0x100 ∧ n = 8 then return leBytes 8 c.accepted.toNat
  if off = 0x108 ∧ n = 8 then return leBytes 8 c.refused.toNat
  return List.replicate n 0

/-- A write of a context frame: below 0x20 it waits to be acted on, elsewhere it is ignored. It is a release at package
scope of what its writer wrote before (R288). -/
def frameWrite (p : Path) (off : Nat) (bs : List Byte) : W Unit := do
  if off < 0x20 then
    modify (fun s => { s with launchQ := s.launchQ ++
      [{ ctx := p.ctx, off := off, size := bs.length, value := leNat bs, core := p.die.map (fun c => (c, (s.core c).sbNext)) }] })

/-! ## Accesses -/

/-- A reader without a pin that has begun a sector of a versioned page earlier: each byte as it was then, or as it is now, in the
frame of that time (R300). DESIGN CHOICE (notes/assumptions/94.md). -/
def readMixed (pa n key : Nat) (old : BitVec 512) : W (Except Bad (List Byte)) := do
  match ← rdMem pa n key with
  | .error e => return .error e
  | .ok b =>
    let c ← freshN n
    return .ok ((List.range n).map (fun i => if Config.freeBit (c + i) then (sectorBytes old).getD (pa % 64 + i) 0 else b.getD i 0))

/-- The read of a versioned page. -/
def readVersioned (p : Path) (l : Leaf) (va n : Nat) : W (Except Bad (List Byte)) := do
  match (p.early.find? (fun x => x.1 == va / 64 * 64)).map (·.2) with
  | some (pa, old) => readMixed (pa + va % 64) n l.key old
  | none => rdMem (l.pa va + 0x200000 * (← get).frameOf p.ctx p.who l.wslot) n l.key

/-- What a read of a run of bytes finds where it begins, in versioned pages that its agent holds no pin of. -/
def beginRun (p : Path) : Nat → Nat → Nat → W Early
  | 0, _, _ => return []
  | fuel + 1, va, n => do
    if n = 0 then return []
    let m := pieceLen va n
    let here ← match ← xlate p.ids p.ctx va .read with
      | .error _ => pure []
      | .ok l => do
        let s ← get
        if l.kind != 1 || (s.pinnedRound p.ctx p.who l.wslot).isSome then pure []
        else
          let pa := l.pa (va / 64 * 64) + 0x200000 * s.frameOf p.ctx p.who l.wslot
          match ← rdMem pa 64 l.key with
          | .error _ => pure []
          | .ok b => pure [(va / 64 * 64, pa, sectorOf b)]
    return here ++ (← beginRun p fuel (va + m) (n - m))

/-- Reads `n` bytes of one sector through a leaf. -/
def readLeaf (p : Path) (l : Leaf) (va n : Nat) : W (Except Bad (List Byte)) := do
  let pa := l.pa va
  if l.kind = 4 then return .error (cUNCORR, word64 pa)
  match ctxFrameOf pa with
  | some _ => return .ok (← frameRead p.ctx (pa % 0x10000) n)
  | none =>
    if l.kind = 1 then readVersioned p l va n
    else if l.kind = 2 then
      let r := pa + 3 * p.who.replica * stackSpan
      readReplica p r
      rdMem r n l.key
    else
      match p.die with
      | some c =>
        if l.cp then
          dropDirty p.ctx c (va / 64 * 64) 64
          rdMem pa n l.key
        else cachedRead c p.ctx l va pa n
      | none => rdMem pa n l.key

/-- Writes bytes of one sector through a leaf that admits the write. -/
def writeLeaf (p : Path) (l : Leaf) (va : Nat) (bs : List Byte) : W (Except Bad Unit) := do
  let pa := l.pa va
  if l.kind = 4 then return .error (cUNCORR, word64 pa)
  match ctxFrameOf pa with
  | some _ => frameWrite p (pa % 0x10000) bs; return .ok ()
  | none =>
    match p.die with
    | some c =>
      if l.cp then
        dropDirty p.ctx c (va / 64 * 64) 64
        wrMem pa l.key bs
      else cachedWrite c p.ctx l va pa bs
    | none => wrMem pa l.key bs

/-- Reads a run of bytes; the first failure ends it. -/
def readRun (p : Path) (use : Acc) : Nat → Nat → Nat → W (Except Bad (List Byte))
  | 0, _, _ => return .ok []
  | fuel + 1, va, n => do
    if n = 0 then return .ok []
    let m := pieceLen va n
    match ← xlate p.ids p.ctx va use with
    | .error e => return .error e
    | .ok l =>
      match ← readLeaf p l va m with
      | .error e => return .error e
      | .ok b =>
        match ← readRun p use fuel (va + m) (n - m) with
        | .error e => return .error e
        | .ok r => return .ok (b ++ r)

/-- Reads `n` bytes at `va` by an agent. -/
def readMem (p : Path) (va n : Nat) (use : Acc := .read) : W (Except Bad (List Byte)) := readRun p use (n / 64 + 2) va n

/-- Reads a run of bytes, each failed byte as none: what an in-stream does (R189). -/
def readDefer (p : Path) : Nat → Nat → Nat → W (List (Option Byte))
  | 0, _, _ => return []
  | fuel + 1, va, n => do
    if n = 0 then return []
    let m := pieceLen va n
    let r ← match ← xlate p.ids p.ctx va .read with
      | .error e => pure (Except.error e)
      | .ok l => readLeaf p l va m
    let b := match r with
      | .ok b => b.map some
      | .error _ => List.replicate m none
    return b ++ (← readDefer p fuel (va + m) (n - m))

/-- Writes a run of bytes; the first failure ends it, and bytes written before it stay. -/
def writeRun (p : Path) : Nat → Nat → List Byte → W (Except Bad Unit)
  | 0, _, _ => return .ok ()
  | fuel + 1, va, bs => do
    if bs.isEmpty then return .ok ()
    let m := pieceLen va bs.length
    match ← xlate p.ids p.ctx va .write with
    | .error e => return .error e
    | .ok l =>
      match ← writeLeaf p l va (bs.take m) with
      | .error e => return .error e
      | .ok _ => writeRun p fuel (va + m) (bs.drop m)

/-- Whether a write of a run of bytes would succeed: no sector of it fails translation or protection, or would meet an
uncorrectable error (R488). -/
def probeRun (p : Path) : Nat → Nat → Nat → W (Except Bad Unit)
  | 0, _, _ => return .ok ()
  | fuel + 1, va, n => do
    if n = 0 then return .ok ()
    let m := pieceLen va n
    match ← xlate p.ids p.ctx va .write with
    | .error e => return .error e
    | .ok l =>
      let pa := l.pa va
      let s ← get
      let cached := match p.die with
        | some c => !l.cp && s.dcache.any (fun d => d.is (c / 24) p.ctx va pa l.key)
        | none => false
      if l.kind = 4 || ((ctxFrameOf pa).isNone && s.isUncorr pa && m < 64 && !cached) then return .error (cUNCORR, word64 pa)
      probeRun p fuel (va + m) (n - m)

/-- Writes bytes at `va` by an agent. -/
def writeMem (p : Path) (va : Nat) (bs : List Byte) : W (Except Bad Unit) := writeRun p (bs.length / 64 + 2) va bs

/-- One indivisible read-modify-write of `n` bytes within a sector (R180, R325), past the die cache: the old bytes. -/
def modifyLeaf (p : Path) (l : Leaf) (va n : Nat) (g : List Byte → List Byte) : W (Except Bad (List Byte)) := do
  match p.die with
  | some c => dropDirty p.ctx c (va / 64 * 64) 64
  | none => pure ()
  match ← readLeaf p.bypass l va n with
  | .error e => return .error e
  | .ok b =>
    match ← writeLeaf p.bypass l va (g b) with
    | .error e => return .error e
    | .ok _ => return .ok b

/-! ## Records the device keeps in memory (R490) -/

/-- A read by the hub for work that has not begun: of a graph, a card, an image, a region table (R306). -/
def hubRead (ctx : BitVec 8) (va n : Nat) (how : Acc := .read) : W (Except Bad (List Byte)) := do
  walkTurn [.hub] ctx va n
  readMem (hubPath ctx) va n how

/-- A doubleword of a record, read by the hub. -/
def hubRead64 (ctx : BitVec 8) (va : Nat) : W (Except Bad (BitVec 64)) := do
  match ← readMem (hubPath ctx) va 8 with
  | .error e => return .error e
  | .ok b => return .ok (word64 (leNat b))

/-! ## Footprints (R312 to R318) -/

/-- Most units of one entry. -/
def fpUnits : Nat := 2 ^ 32 - 1

/-- The entries of a range: consecutive ones where it is longer than one entry holds (R313). -/
def splitRange (r : Range) : List Range :=
  (List.range ((r.len / 64 + fpUnits - 1) / fpUnits)).map (fun i =>
    { r with lo := r.lo + 64 * fpUnits * i, len := Nat.min (64 * fpUnits) (r.len - 64 * fpUnits * i) })

/-- The global entries that a set of ranges needs. -/
def fpEntries (rs : List Range) : List Range := (rs.filter (fun r => !r.sp)).flatMap splitRange

/-- The live entry entered earliest that conflicts with a range (R315, R317). -/
def State.fpConflict (s : State) (ctx : BitVec 8) (o : Owner) (rs : List Range) : Option Fp :=
  s.fps.find? (fun f => f.ctx == ctx && f.owner != o &&
    rs.any (fun r => overlaps f.base (64 * f.len) r.lo r.len && f.mode.clash r.mode))

/-- Whether the budgets of a waiter's levels alone withhold it. -/
def State.fpWithheld (s : State) (w : FpWaiter) : Bool := !s.fpFits w.ctx w.region w.count

/-- Whether `n` entries may be granted now, past the waiters that came earlier: a waiter for table room holds back
everyone, one withheld by a budget only those charged to that budget (R97, R316). -/
def State.fpGrant (s : State) (who : Who) (ctx : BitVec 8) (region n : Nat) : Bool :=
  let before := (s.fpWait.takeWhile (fun w => w.who ≠ who)).filter (fun w => (s.ctx w.ctx).serves)
  let ahead := (before.filter (fun w => !s.fpWithheld w)).map (·.count)
  let c := s.ctx ctx
  decide (s.fps.length + ahead.sum + n ≤ Config.footprintEntries) &&
  (c.chain region).all (fun a =>
    let mine := before.filter (fun w => w.ctx == ctx && c.inSubtree a w.region &&
      (!s.fpWithheld w || decide (c.fpentEff a < s.fpHeld ctx a + w.count)))
    decide (s.fpHeld ctx a + (mine.map (·.count)).sum + n ≤ c.fpentEff a))

/-- What became of a request to enter. -/
inductive Entry where
  | waiting
  | bad (e : Bad)
  | entered (ids : List Nat)
  deriving DecidableEq, Repr, Inhabited

/-- Withdraws a waiter. -/
def State.unwait (s : State) (who : Who) : State := { s with fpWait := s.fpWait.filter (fun w => w.who ≠ who) }

/-- The die on which an owner's footprints touch a die cache (R316). -/
def Owner.die : Owner → Option Nat
  | .core c => some (c / 24)
  | _ => none

/-- The bytes of a graph (R396): header, node table, the lists that it has, successors, completion records. -/
def Graph.runs (g : Graph) : List (Nat × Nat) :=
  [(g.addr, 64), (g.ntab, 64 * g.nodes.length)] ++ (if g.ilist = 0 then [] else [(g.ilist, 16 * g.ilen)]) ++ [(g.elist, 4 * g.elen)] ++
    g.nodes.flatMap (fun n => (n.succAddr, 4 * n.succs.length) :: (if n.crec = 0 then [] else [(n.crec, 16)]))

/-- Notes runs of bytes as records that the device has written. -/
def noteRecs (ctx : BitVec 8) (rs : List (Nat × Nat)) : W Unit :=
  modify (fun s => let c := s.ctx ctx; s.setCtx ctx { c with recs := c.recs.filter (fun r => !rs.contains r) ++ rs })

/-- Bytes that software is going to write hold no record any more. -/
def State.dropRecs (s : State) (ctx : BitVec 8) (rs : List Range) : State :=
  let c := s.ctx ctx
  let gone := fun (q : Nat × Nat) => rs.any (fun r => !r.sp && r.mode.writes && overlaps q.1 q.2 r.lo r.len)
  if c.recs.any gone then s.setCtx ctx { c with recs := c.recs.filter (fun q => !gone q) } else s

/-- enter of R316: an entrant presents all of its ranges together. A request above its own region's budget is not made to
wait (R97). `past` says that the entrant's accesses bypass the die cache; those of mode ACC and ATOM always do (R322). DEDUCED (notes/assumptions/32.md). -/
def enterFps (who : Who) (o : Owner) (ctx : BitVec 8) (region : Nat) (rs : List Range) (past : Bool) : W Entry := do
  let es := fpEntries rs
  let n := es.length
  if n = 0 then return .entered []
  let s ← get
  if (s.ctx ctx).fpentEff region < n then
    set (s.unwait who)
    return .bad (cBUDGET, word64 region)
  match s.fpWait.find? (fun w => w.who == who) with
  | some w =>
    if w.timedOut then
      set (s.unwait who)
      return .bad (cFPFULL, word64 region)
  | none => pure ()
  if !s.fpGrant who ctx region n then
    if !s.fpWait.any (fun w => w.who == who) then
      let w : FpWaiter := { who := who, ctx := ctx, region := region, count := n }
      set { s with fpWait := s.fpWait ++ [w] }
    return .waiting
  let s := s.unwait who
  set s
  match s.fpConflict ctx o es with
  | some f => return .bad (cRACE, word64 f.base)
  | none =>
    let ids := (List.range n).map (s.fpNext + ·)
    let new := (List.zip ids es).map (fun p =>
      ({ id := p.1, ctx := ctx, owner := o, base := p.2.lo, len := p.2.len / 64, mode := p.2.mode, region := region } : Fp))
    set { s with fps := s.fps ++ new, fpNext := s.fpNext + n }
    -- S drops the records under its own accesses byte by byte
    match who with
    | .eng _ .S => pure ()
    | _ => modify (fun s => s.dropRecs ctx rs)
    match o with
    | .core c =>
      for r in es do
        if past || r.mode.isAcc then dropDirty ctx c r.lo r.len
        modify (fun s => s.dropClean ctx (c / 24) r.lo r.len)
    | _ => pure ()
    return .entered ids

/-- enter for a word of the core at hand: it stalls while no entry can be granted. DEDUCED (notes/assumptions/32.md). -/
def enterWord (rs : List Range) (past : Bool) : W (Except Bad (List Nat)) := do
  let s ← get
  let c := s.cur.core
  let k := s.core c
  match ← enterFps (.eng c s.cur.eng) (.core c) k.lastCtx k.region.toNat rs past with
  | .waiting => stall
  | .bad e => return .error e
  | .entered ids => return .ok ids

/-- Steps 2 and 3 of a release (R318): dirty sectors under W and RW entries are written back, the entries leave. DEDUCED (notes/assumptions/33.md). -/
def releaseFps (ids : List Nat) : W Unit := do
  for f in (← get).fps.filter (fun f => ids.contains f.id) do
    match f.owner with
    | .core c => if f.mode = .w || f.mode = .rw then writeBackRange f.ctx c f.base (64 * f.len)
    | _ => pure ()
  modify (fun s => { s with fps := s.fps.filter (fun f => !ids.contains f.id) })

/-- A release by a core (R318): complete at core scope now; the write-back and the removal follow by an
ACCESS_COMPLETE. DEDUCED (notes/assumptions/33.md). -/
def releaseLater (c : Nat) (e : Engine) (ids : List Nat) : W Unit := do
  let s ← get
  let slot := ((s.core c).eng e).slot
  let at_ := (s.core c).sbNext
  let out := (s.fps.filter (fun f => ids.contains f.id)).map (fun f =>
    ({ core := c, eng := e, slot := slot, fp := some f.id, va := f.base, len := 64 * f.len, mode := f.mode, seq := at_, rel := true } : Flight))
  set { s with flights := s.flights ++ out }

/-- FOOTPRINT_WAIT_TIMEOUT: WDOG has passed for waiter `arg 0`; its request faults when it is next made (R97). -/
def footprintWaitTimeout : W Unit := do
  let i ← arg 0
  let s ← get
  match s.fpWait[i]? with
  | none => stall
  | some w => set { s with fpWait := s.fpWait.set i { w with timedOut := true } }
def execFootprintWaitTimeout (s : State) : Host.Outcome State Fault Refusal := event footprintWaitTimeout s

end Sys2Proof.Machine
end

