-- ==== Sys2Proof/Machine/Records.lean ====
section
/-!
DEFINITION. What the device writes for software to read: scorecard records (R484), cause records and events in status
queues (R101, R284, R285), records of its own (R490), completion records (R265).
-/
namespace Sys2Proof.Machine

/-! ## Scorecard (R484) -/

/-- Records the hub holds. -/
def scoreDepth : Nat := 8192

/-- Adds a record; a full ring overwrites the one of lowest SEQ. -/
def State.addScore (s : State) (kind ctx : BitVec 8) (data : Nat) : State :=
  let r : Score := { seq := s.scoreSeq, kind := kind, ctx := ctx, data := BitVec.ofNat 192 data }
  let l := s.score ++ [r]
  { s with score := if scoreDepth < l.length then l.drop 1 else l, scoreSeq := s.scoreSeq + 1 }

/-- Kinds of Table 19.5. -/
def kCause : BitVec 8 := 1
def kCorrected : BitVec 8 := 2
def kPort : BitVec 8 := 3
def kThrottle : BitVec 8 := 4
def kThermal : BitVec 8 := 5
def kMarker : BitVec 8 := 6
def kVerify : BitVec 8 := 7
def kSelftest : BitVec 8 := 8
def kTraining : BitVec 8 := 9

/-! ## Cause records (R101) -/

/-- The 32 bytes of a cause record as one little-endian number. -/
def Cause.num (r : Cause) : Nat :=
  r.word0.toNat + 2 ^ 64 * (r.detail.toNat + 2 ^ 64 * ((r.node.toNat + 2 ^ 32 * r.gen.toNat + 2 ^ 48 * r.region.toNat) +
    2 ^ 64 * (r.attempt.toNat + 256 * r.prev.toNat)))

/-- Who owns what a record concerns. -/
structure Own where
  ctx : BitVec 8
  region : Nat
  node : BitVec 32 := 0xFFFFFFFF
  gen : BitVec 16 := 0
  attempt : BitVec 8 := 0
  deriving DecidableEq, Repr, Inhabited

/-- A record for work of an owner. -/
def Own.cause (o : Own) (src : BitVec 8) (unit : Nat) (cause : BitVec 8) (detail : BitVec 64) (pc : BitVec 16 := 0) : Cause :=
  { cause := cause, src := src, unit := BitVec.ofNat 16 unit, pc := pc, detail := detail, node := o.node, gen := o.gen,
    region := BitVec.ofNat 16 o.region, attempt := o.attempt, prev := 0xFF }

/-! ## Status queues (R284) -/

/-- Whether a context's status queues are in force (R288). -/
def Ctx.queues (c : Ctx) : Bool := !(c.state == .new || c.state == .dumping || c.state == .dead)

/-- DROPPED := DROPPED + 1, when the header can be read and written. -/
def countDropped (ctx : BitVec 8) (stq : Nat) : W Unit := do
  match ← hubRead64 ctx (stq + 0x10) with
  | .ok d => discard (writeMem (hubPath ctx) (stq + 0x10) (leBytes 8 (d + 1).toNat))
  | .error _ => pure ()

/-- Posts a 32-byte entry to a region's status queue. A cause record that finds no place goes to the scorecard. DESIGN CHOICE (notes/assumptions/87.md). -/
def postEntry (ctx : BitVec 8) (region : Nat) (entry : Nat) (isCause : Bool) : W Unit := do
  let c := (← get).ctx ctx
  let lost : W Unit := if isCause then modify (fun s => s.addScore kCause ctx entry) else pure ()
  let len := c.stqlenEff region
  let stq := c.stqEff region
  if !c.queues || len = 0 then lost
  else
    match ← hubRead64 ctx stq with
    | .error _ => countDropped ctx stq; lost
    | .ok wix =>
      match ← hubRead64 ctx (stq + 8) with
      | .error _ => countDropped ctx stq; lost
      | .ok rix =>
        if len ≤ (wix - rix).toNat then
          countDropped ctx stq
          lost
        else
          -- an entry that WIX cannot tell of is not written
          match ← probeRun (hubPath ctx) 2 stq 8 with
          | .error _ => countDropped ctx stq; lost
          | .ok _ =>
            match ← writeMem (hubPath ctx) (stq + 64 + 32 * (wix.toNat % len)) (leBytes 32 entry) with
            | .error _ => countDropped ctx stq; lost
            | .ok _ =>
              match ← writeMem (hubPath ctx) stq (leBytes 8 (wix + 1).toNat) with
              | .error _ => countDropped ctx stq; lost
              | .ok _ => pure ()

/-- Posts a cause record (R101). -/
def postCause (ctx : BitVec 8) (region : Nat) (r : Cause) : W Unit := postEntry ctx region r.num true

/-- Posts an event (R285): code, INFO, ARG, JOBID. -/
def postEvent (o : Own) (code info : Nat) (arg job : BitVec 64) : W Unit :=
  postEntry o.ctx o.region
    ((256 * code + 65536 * info) + 2 ^ 64 * (arg.toNat + 2 ^ 64 * ((o.node.toNat + 2 ^ 32 * o.gen.toNat + 2 ^ 48 * o.region) +
      2 ^ 64 * job.toNat))) false

def evLATE : Nat := 1
def evGRAPHEND : Nat := 2
def evREFUSED : Nat := 3

/-! ## Records of the device's own (R490) -/

/-- Writes bytes of a record through a path; a write of which any byte fails is dropped whole and reported once. -/
def ownWrite (p : Path) (o : Own) (src : BitVec 8) (unit va : Nat) (bs : List Byte) : W Unit := do
  let bad := fun (e : Bad) => postCause o.ctx o.region (o.cause src unit e.1 (word64 va))
  match ← probeRun p (bs.length / 64 + 2) va bs.length with
  | .error e => bad e
  | .ok _ =>
    match ← writeMem p va bs with
    | .ok _ => pure ()
    | .error e => bad e

/-- A write by the hub. -/
def hubWrite (o : Own) (va : Nat) (bs : List Byte) : W Unit := ownWrite (hubPath o.ctx) o 7 0 va bs

/-- A field of `n` bytes. -/
def hubWriteN (o : Own) (va n v : Nat) : W Unit := hubWrite o va (leBytes n v)

/-! ## Completion records (R265) -/

/-- The 16 bytes of a record: bits ACCEPTED, DONE, CANCELLED, FAULT, and the cause. -/
def recordBytes (bits : Nat) (cause : BitVec 8) (job : BitVec 64) : List Byte := leBytes 8 (bits + 256 * cause.toNat) ++ leBytes 8 job.toNat

/-- Writes a card's record, when it names one. It takes no footprint, so no die cache may hold it dirty (R323): the write
goes past the die cache of the core that runs the card. -/
def writeRecord (p : Path) (o : Own) (src : BitVec 8) (unit : Nat) (c : Card) (bits : Nat) (cause : BitVec 8) : W Unit := do
  if c.crec = 0 then pure ()
  else
    match p.die with
    | some d => dropDirty p.ctx d (c.crec.toNat / 64 * 64) 64
    | none => pure ()
    noteRecs o.ctx [(c.crec.toNat, 16)]
    ownWrite p.bypass o src unit c.crec.toNat (recordBytes bits cause c.jobid)

/-- The owner of what the core at hand runs. -/
def Core.own (k : Core) : Own := { ctx := k.lastCtx, region := k.region.toNat, node := k.node, gen := k.gen, attempt := k.attempt }

end Sys2Proof.Machine
end

