-- ==== Sys2Proof/Machine/Links.lean ====
section
/-!
DEFINITION. The link layer: CRC-32C (R469), ports (R456 to R460), flits and hops (R458, R459, R462), routes and
generations (R463 to R467), and the events of a port. Outgoing flits stand in the replay buffer of the port that sent
them; incoming ones arrive as the 256 bytes that come with the event.
-/
namespace Sys2Proof.Machine

/-- A list of bytes cut or filled with zeros to `n` bytes. -/
def padTo (n : Nat) (l : List Byte) : List Byte := l.take n ++ List.replicate (n - l.length) 0

/-! ## CRC-32C -/

/-- Eight shifts of the reflected Castagnoli polynomial. -/
def crcShift : Nat → BitVec 32 → BitVec 32
  | 0, c => c
  | n + 1, c => crcShift n ((c >>> 1) ^^^ (if c.getLsbD 0 then 0x82F63B78 else 0))

/-- CRC-32C of a run of bytes. -/
def crc32c (l : List Byte) : BitVec 32 :=
  (l.foldl (fun c b => crcShift 8 (c ^^^ b.setWidth 32)) 0xFFFFFFFF) ^^^ 0xFFFFFFFF

/-! ## Ports and flits -/

/-- Bytes 0x00 to 0xFB of a flit (Table 18.1). Of a type other than DATA, BODY holds one field in each doubleword. DESIGN CHOICE
(notes/assumptions/64.md). -/
def Flit.frame (f : Flit) : List Byte :=
  let body := if f.type = 2 then f.data.take 192 else (f.body.take 24).flatMap (leBytes 8)
  leBytes 8 (f.type.toNat + 2 ^ 4 * f.vc.toNat + 2 ^ 8 * f.rgen.toNat + 2 ^ 16 * f.dpkg + 2 ^ 32 * f.spkg + 2 ^ 48 * f.hop.toNat) ++
  leBytes 8 (f.lseq.toNat + 2 ^ 32 * f.lack.toNat) ++ leBytes 8 f.xid ++ leBytes 8 f.off ++
  body ++ List.replicate (192 - body.length) 0 ++
  leBytes 12 (leNat ((f.scrc.take 3).flatMap (fun c => leBytes 4 c.toNat))) ++ leBytes 4 f.nsec.toNat ++ List.replicate 12 0

/-- A flit with the FCRC of the bytes before it. -/
def Flit.seal (f : Flit) : Flit := { f with fcrc := crc32c f.frame }

/-- The 256 bytes of a flit on a hop. -/
def Flit.wire (f : Flit) : List Byte := f.frame ++ leBytes 4 f.fcrc.toNat

/-- The flit that 256 bytes hold. -/
def flitOf (b : List Byte) : Flit :=
  let f := fun (n o : Nat) => leNat ((b.drop o).take n)
  let v := f 8 0
  let type := BitVec.ofNat 4 v
  let nsec := BitVec.ofNat 2 (f 4 0xEC)
  { type := type, vc := BitVec.ofNat 2 (v / 2 ^ 4), rgen := BitVec.ofNat 8 (v / 2 ^ 8), dst := BitVec.ofNat 15 (v / 2 ^ 16),
    src := BitVec.ofNat 15 (v / 2 ^ 32), hop := BitVec.ofNat 6 (v / 2 ^ 48), lseq := BitVec.ofNat 32 (f 4 8), lack := BitVec.ofNat 32 (f 4 12),
    id := BitVec.ofNat 64 (f 8 0x10), at_ := BitVec.ofNat 40 (f 8 0x18),
    body := if type = 2 then [] else (List.range 24).map (fun i => f 8 (0x20 + 8 * i)),
    data := if type = 2 then (b.drop 0x20).take (64 * nsec.toNat) else [],
    scrc := if type = 2 then (List.range nsec.toNat).map (fun i => BitVec.ofNat 32 (f 4 (0xE0 + 4 * i))) else [],
    nsec := nsec, fcrc := BitVec.ofNat 32 (f 4 0xFC) }

/-- Whether the FCRC of 256 bytes holds (R462). -/
def wireHolds (b : List Byte) : Bool := b.length == 256 && crc32c (b.take 252) == (flitOf b).fcrc

/-- Whether a flit carries a reserved TYPE or VC, or a reserved bit (R458). -/
def wireReserved (b : List Byte) : Bool :=
  let f := fun (n o : Nat) => leNat ((b.drop o).take n)
  let v := f 8 0
  decide (8 ≤ v % 16) || v / 2 ^ 4 % 4 == 3 || v / 2 ^ 6 % 4 != 0 || v / 2 ^ 31 % 2 != 0 || v / 2 ^ 47 % 2 != 0 || v / 2 ^ 54 != 0 ||
  f 8 0x18 / 2 ^ 40 != 0 || f 4 0xEC / 4 != 0 || f 12 0xF0 != 0

def fIDLE : BitVec 4 := 0
def fCARD : BitVec 4 := 1
def fDATA : BitVec 4 := 2
def fREPORT : BitVec 4 := 3
def fSIGNAL : BitVec 4 := 4
def fGROUP : BitVec 4 := 5
def fGFENCE : BitVec 4 := 6
def fCTRL : BitVec 4 := 7

/-- The virtual channel of a type (Table 18.2). -/
def vcOf (t : BitVec 4) : BitVec 2 := if t = fREPORT then 1 else if t = fGROUP || t = fGFENCE || t = fCTRL then 2 else 0

def State.port (s : State) (p : Nat) : Port := if h : p < 16 then s.ports[p] else {}
def State.setPort (s : State) (p : Nat) (x : Port) : State := if h : p < 16 then { s with ports := s.ports.set p x h } else s

/-- A port carries flits only in UP and DEGRADED (R460). -/
def Port.carries (x : Port) : Bool := x.st == .up || x.st == .degraded
/-- Replays of one flit that may fail (R460). -/
def replayLimit : Nat := 16
/-- Whether some flit has failed as many replays: the port is to retrain. -/
def Port.worn (x : Port) : Bool := x.replay.any (fun f => decide (replayLimit < f.tries))
/-- New flits are routed to it. -/
def Port.usable (x : Port) : Bool := x.carries && !x.fencing && !x.worn

/-- A change of a port's state, with its scorecard record (R460, Table 19.5). -/
def State.portTo (s : State) (p : Nat) (st : PState) : State :=
  let x := s.port p
  if x.st = st then s
  else (s.setPort p { x with st := st }).addScore kPort 0 (p + 256 * x.st.code + 65536 * st.code)

/-- Credits of a channel. -/
def Port.credit (x : Port) (vc : BitVec 2) : Nat := x.credits.toList.getD vc.toNat 0

/-- Takes a credit. -/
def Port.spend (x : Port) (vc : BitVec 2) : Port :=
  { x with credits := Vector.ofFn (fun i : Fin 3 => if i.val = vc.toNat then x.credits[i] - 1 else x.credits[i]) }

/-- Transmits a flit on a port (R462): the next LSEQ, the acknowledgement of the reverse direction, the FCRC of this hop (R469), a
place in the replay buffer. -/
def Port.transmit (x : Port) (f : Flit) : Port :=
  let g := ({ f with lseq := x.txSeq, lack := x.rxSeq - 1, tries := 0 } : Flit).seal
  { x.spend f.vc with txSeq := x.txSeq + 1, replay := x.replay ++ [g] }

/-- Changes entry `vc` of a count for each channel. -/
def onChannel (l : Vector Nat 3) (vc : Nat) (g : Nat → Nat) : Vector Nat 3 := Vector.ofFn (fun i : Fin 3 => if i.val = vc then g l[i] else l[i])

/-- A flit of a channel has left the receive buffer: its credit is to be returned. -/
def Port.owes (x : Port) (vc : Nat) : Port := { x with owed := onChannel x.owed vc (· + 1) }

/-- Returns the credits owed on a channel by one CTRL flit (R459), once channel 2 has a credit and no generation fence has
to go first (R464). DESIGN CHOICE (notes/assumptions/96.md). -/
def Port.repays (x : Port) (own g vc : Nat) : Port :=
  let n := x.owed.toList.getD vc 0
  if decide (0 < n) && x.carries && !x.sendFence && decide (0 < x.credit 2) then
    { x.transmit { type := fCTRL, vc := 2, rgen := BitVec.ofNat 8 g, dst := 0, src := BitVec.ofNat 15 own, body := [0, vc, n] } with owed := onChannel x.owed vc (fun _ => 0) }
  else x

/-- What a port does once the hub has taken a flit from it: it returns the credit of its channel; that of a CTRL flit goes back
with the next one. DESIGN CHOICE (notes/assumptions/96.md). -/
def Port.takes (x : Port) (own g : Nat) (f : Flit) : Port :=
  let y := x.owes f.vc.toNat
  if f.type = fCTRL then y else (y.repays own g f.vc.toNat).repays own g 2

/-! ## Routing (R463) -/

/-- What becomes of a flit at this hop. -/
inductive Routed where
  | sent (p : Nat)
  | lost (reason : Nat)
  | unknown
  | waits
  deriving DecidableEq, Repr, Inhabited

/-- The table of a generation given modulo 256, when held. -/
def State.tableOf (s : State) (rgen : BitVec 8) : Option (List (Nat × BitVec 16)) :=
  (s.routes.find? (fun t => BitVec.ofNat 8 t.1 == rgen)).map (·.2)

/-- A flit tagged with the generation before the one in use moves to it. -/
def State.retag (s : State) (f : Flit) : Flit :=
  if f.rgen = BitVec.ofNat 8 (s.rgen + 255) then { f with rgen := BitVec.ofNat 8 s.rgen } else f

/-- Whether a port can send on a channel now: a pending generation fence goes first (R464). -/
def Port.sends (x : Port) (vc : BitVec 2) : Bool := x.usable && !x.sendFence && decide (0 < x.credit vc)

/-- route of R463. -/
def State.routeOf (s : State) (f : Flit) : Routed :=
  if f.hop = 63 then .lost 3
  else
    match s.tableOf f.rgen with
    | none => .unknown
    | some t =>
      let e := sget (0 : BitVec 16) f.dpkg t
      let pri := (e.extractLsb' 0 4).toNat
      let alt := (e.extractLsb' 4 4).toNat
      if !e.getLsbD 8 then .lost 2
      else
        let p := if (s.port pri).usable then some pri else if e.getLsbD 9 && (s.port alt).usable then some alt else none
        match p with
        | some p => if (s.port p).sends f.vc then .sent p else .waits
        | none => .waits

/-- The report of a lost flit toward its source, sourced at this hop (R463, R468): kind 1, port and reason, the type lost. Of a
REPORT flit it names the destination and repeats the body, which its source needs. -/
def State.lossReport (s : State) (f : Flit) (port reason : Nat) : Flit :=
  { type := fREPORT, vc := 1, rgen := BitVec.ofNat 8 s.rgen, dst := f.src, src := BitVec.ofNat 15 (s.pkgid.getD 0), id := f.id,
    body := [1, port, reason, f.type.toNat] ++ (if f.type = fREPORT then f.dpkg :: f.body else []) }

/-- LINKSH of a region (R94, R97). -/
def State.linkWeight (s : State) (x : BitVec 8 × Nat) : Nat := (s.ctx x.1).linkshEff x.2

/-- The regions whose flits wait for a port that could send them now. -/
def State.linkWaiters (s : State) (p : Nat) : List (BitVec 8 × Nat) :=
  s.flitWait.filterMap (fun f => if some f.dpkg != s.pkgid && s.routeOf (s.retag f) == .sent p then f.owner else none)

/-- A flit leaves by a port, in the turn of its region (R97): the package after it, or none while it is another's turn. -/
def State.sendBy (s : State) (p : Nat) (f : Flit) : Option State :=
  let t := s.setPort p ((s.port p).transmit { f with hop := f.hop + 1 })
  match f.owner with
  | none => some t
  | some x => if s.mayServe p s.linkWeight (s.linkWaiters p) x then some (t.serve p s.linkWeight (s.linkWaiters p) x) else none

/-- Puts a flit on its way: sent, waiting, or lost with a report. A flit for this package waits to be delivered here. -/
def State.forward (s : State) (f : Flit) : State :=
  let wait := fun (f : Flit) => { s with flitWait := s.flitWait ++ [f] }
  if some f.dpkg = s.pkgid then wait f
  else
    let f := s.retag f
    match s.routeOf f with
    | .sent p => (s.sendBy p f).getD (wait f)
    | .waits => wait f
    | .unknown => wait f
    | .lost r => wait (s.lossReport f 0xFF r)

/-- Sources a flit, tagged with the generation in use, for a region if one is given. -/
def source (type : BitVec 4) (dpkg xid off : Nat) (body : List Nat) (data : List Byte := []) (scrc : List (BitVec 32) := [])
    (owner : Option (BitVec 8 × Nat) := none) : W Unit :=
  modify (fun s => s.forward { type := type, vc := vcOf type, rgen := BitVec.ofNat 8 s.rgen, dst := BitVec.ofNat 15 dpkg,
                               src := BitVec.ofNat 15 (s.pkgid.getD 0), id := BitVec.ofNat 64 xid, at_ := BitVec.ofNat 40 off, body := body,
                               data := data, scrc := scrc, nsec := BitVec.ofNat 2 (data.length / 64), owner := owner })

/-- The next transfer identifier. -/
def nextXid (x : XferOf) : W Nat := do
  let s ← get
  set { s with xidNext := s.xidNext + 1, xfers := assign s.xidNext x s.xfers }
  return s.xidNext

/-! ## Receiving on a hop (R462, R465) -/

/-- Whether acknowledgement `a` covers sequence number `l`, modulo 2^32. -/
def covers (a l : BitVec 32) : Bool := decide ((a - l).toNat < 2 ^ 31)

/-- A LACK releases the flits it covers. -/
def Port.acked (x : Port) (lack : BitVec 32) : Port := { x with replay := x.replay.filter (fun f => !covers lack f.lseq) }

/-- Counts a protocol error, saturating where PSTAT reports it. -/
def Port.protocolError (x : Port) : Port := { x with perr := Nat.min 255 (x.perr + 1) }

/-- Whether a port accepts a flit's generation (R465): the one in use or one loaded, and the one before until the fence
has arrived. -/
def State.genOk (s : State) (x : Port) (rgen : BitVec 8) : Bool :=
  rgen == BitVec.ofNat 8 s.rgen || (rgen == BitVec.ofNat 8 (s.rgen + 1) && (s.tableOf rgen).isSome) ||
  (rgen == BitVec.ofNat 8 (s.rgen + 255) && decide (0 < s.rgen) && !x.gf)

/-- The flit of a type that an event is about: its 256 bytes have come on port `arg 0`, in order and sound. Port 16 or above: entry
`arg 1` of the flits that wait here for this package itself. A flit of a generation the port no longer accepts is dropped and
counted: no flit. -/
def takeFlit (type : BitVec 4) : W (Option Flit) := do
  let a := (← get).cur.args
  let p := a.n.getD 0 0
  let s ← get
  if p < 16 then
    let x := s.port p
    let f := flitOf a.bytes
    waitFor (x.carries && wireHolds a.bytes && !wireReserved a.bytes && f.type == type && f.lseq == x.rxSeq)
    let x := ({ x.acked f.lack with rxSeq := x.rxSeq + 1 } : Port).takes (s.pkgid.getD 0) s.rgen f
    if type ≠ fGFENCE && type ≠ fCTRL && type ≠ fIDLE && !s.genOk x f.rgen then
      set (s.setPort p x.protocolError)
      return none
    set (s.setPort p x)
    return some f
  else
    let i := a.n.getD 1 0
    match s.flitWait[i]? with
    | none => stall
    | some f =>
      waitFor (f.type == type && some f.dpkg == s.pkgid)
      set { s with flitWait := s.flitWait.eraseIdx i }
      return some f

/-- The flit of an event for this package. -/
def takeHere (type : BitVec 4) : W (Option Flit) := do
  match ← takeFlit type with
  | none => return none
  | some f =>
    waitFor (some f.dpkg == (← get).pkgid)
    return some f

/-- An event about a flit for this package: its handling, or nothing where the flit was dropped. -/
def onFlit (type : BitVec 4) (body : Flit → W Unit) : W Unit := do
  match ← takeHere type with
  | none => pure ()
  | some f => body f

/-- Field `i` of a flit's body. -/
def Flit.get (f : Flit) (i : Nat) : Nat := f.body.getD i 0

/-! ## Events of ports (R457, R460) -/

/-- A port that begins to carry flits sends its generation fence first, once RTUSE has been used (R464, R466). -/
def Port.sendGfence (x : Port) (own : Nat) (g : Nat) : Port :=
  if x.sendFence && x.carries && decide (0 < x.credit 2) then
    { x.transmit { type := fGFENCE, vc := 2, rgen := BitVec.ofNat 8 g, dst := 0, src := BitVec.ofNat 15 own, body := [g % 256] } with sendFence := false }
  else x

/-- The table of the generation before is dropped once every port that is not DOWN is fenced (R465). -/
def State.dropOldTable (s : State) : State :=
  if s.ports.toList.all (fun x => x.st == .down || x.gf) then { s with routes := s.routes.filter (fun t => decide (s.rgen ≤ t.1)) } else s

/-- PORT_TRAINING_DONE: port, good lanes, whether the partner reports a PKGID, the PKGID. With 8 good lanes a port waits
for a valid PKGID (Table 18.3). -/
def portTrainingDone : W Unit := do
  let p ← arg 0
  let lanes ← arg 1
  let pv ← arg 2
  let peer ← arg 3
  let s ← get
  let x := s.port p
  waitFor (decide (p < 16) && (x.st == .training || x.st == .retraining))
  let clash := pv ≠ 0 && some peer == s.pkgid
  waitFor (pv != 0 || decide (lanes < 8))
  if lanes < 4 || clash then
    set ((s.setPort p { x with lanes := 0, clash := clash, peer := if pv ≠ 0 then some peer else none, fencing := false }).portTo p .down)
    if x.st = .retraining then modify (fun s => s.setPort p { (s.port p) with replay := [] })
  else
    let x := { x with lanes := if lanes < 8 then 4 else 8, peer := if pv ≠ 0 then some peer else none, sendFence := x.sendFence || (x.st == .training && decide (0 < s.rgen)) }
    set ((s.setPort p x).portTo p (if lanes < 8 then .degraded else .up))
    modify (fun s => s.setPort p ((s.port p).sendGfence (s.pkgid.getD 0) s.rgen))
  modify State.dropOldTable

/-- The flits a port loses when it enters DOWN (R468): each is reported with reason 1. The port counts as fenced (R465). -/
def State.loseReplay (s : State) (p : Nat) : State :=
  let x := s.port p
  let lost := x.replay.filter (fun f => f.type != fCTRL && f.type != fGFENCE && f.type != fIDLE)
  let s := s.setPort p { x with replay := [], lanes := 0, fencing := false, sendFence := false, gf := x.gf || decide (0 < s.rgen) }
  lost.foldl (fun s f => s.forward (s.lossReport f p 1)) s

def execPortTrainingDone (s : State) : Host.Outcome State Fault Refusal :=
  event (do
    let p ← arg 0
    let was := (← get).port p
    portTrainingDone
    let s ← get
    if (s.port p).st = .down then set ((s.setPort p { (s.port p) with replay := was.replay }).loseReplay p)) s

/-- PORT_LANE_LOSS, and REPLAY_LIMIT: a carrying port retrains; its replay buffer stays. -/
def portRetrain : W Unit := do
  let p ← arg 0
  let s ← get
  waitFor (decide (p < 16) && (s.port p).carries)
  set ((s.setPort p { (s.port p) with replay := (s.port p).replay.map (fun f => { f with tries := 0 }) }).portTo p .retraining)
def execPortLaneLoss (s : State) : Host.Outcome State Fault Refusal := event portRetrain s
/-- REPLAY_LIMIT: some flit has failed 16 replays. Till then the port sends nothing new. -/
def execReplayLimit (s : State) : Host.Outcome State Fault Refusal := event (do waitFor ((← get).port (← arg 0)).worn; portRetrain) s

/-- PORT_SIGNAL_LOSS: the port is DOWN, its replay buffer lost. -/
def portSignalLoss : W Unit := do
  let p ← arg 0
  let s ← get
  waitFor (decide (p < 16) && (s.port p).st != .down)
  set ((s.portTo p .down).loseReplay p).dropOldTable
def execPortSignalLoss (s : State) : Host.Outcome State Fault Refusal := event portSignalLoss s

/-- PORT_FENCED: every flit of a fencing port is acknowledged. -/
def portFenced : W Unit := do
  let p ← arg 0
  let s ← get
  let x := s.port p
  waitFor (decide (p < 16) && x.fencing && x.replay.isEmpty && (x.carries || x.st == .retraining))
  set (s.portTo p .fenced)
def execPortFenced (s : State) : Host.Outcome State Fault Refusal := event portFenced s

/-! ## Events of flits on their way -/

/-- FLIT_FORWARD: a received flit for another package. -/
def flitForward : W Unit := do
  let t := (flitOf (← argBytes)).type
  waitFor (decide (1 ≤ t.toNat) && decide (t.toNat < 6) && decide ((← arg 0) < 16))
  match ← takeFlit t with
  | none => pure ()
  | some f =>
    let s ← get
    waitFor (some f.dpkg != s.pkgid)
    match s.routeOf (s.retag f) with
    | .unknown => set (s.setPort (← arg 0) (s.port (← arg 0)).protocolError)
    | _ => set (s.forward f)
def execFlitForward (s : State) : Host.Outcome State Fault Refusal := event flitForward s

/-- FLIT_ROUTE_RETRY: waiting flit `arg 0` is routed again. DEDUCED (notes/assumptions/66.md). -/
def flitRouteRetry : W Unit := do
  let i ← arg 0
  let s ← get
  match s.flitWait[i]? with
  | none => stall
  | some f =>
    waitFor (some f.dpkg != s.pkgid)
    set (({ s with flitWait := s.flitWait.eraseIdx i }).forward f)
def execFlitRouteRetry (s : State) : Host.Outcome State Fault Refusal := event flitRouteRetry s

/-- FLIT_HOLD_TIMEOUT: waiting flit `arg 0` is dropped with reason 4. -/
def flitHoldTimeout : W Unit := do
  let i ← arg 0
  let s ← get
  match s.flitWait[i]? with
  | none => stall
  | some f =>
    waitFor (some f.dpkg != s.pkgid)
    let s := { s with flitWait := s.flitWait.eraseIdx i }
    set (s.forward (s.lossReport f 0xFF 4))
def execFlitHoldTimeout (s : State) : Host.Outcome State Fault Refusal := event flitHoldTimeout s

/-- CREDIT_RETURN: a CTRL flit (kind 0) returns body field 2 credits of channel body field 1. -/
def creditReturn : W Unit := do
  let p ← arg 0
  waitFor (decide (p < 16))
  match ← takeFlit fCTRL with
  | none => pure ()
  | some f =>
    waitFor (decide (f.get 0 = 0) && decide (f.get 1 < 3))
    modify (fun s =>
      let x := s.port p
      let x := { x with credits := onChannel x.credits (f.get 1) (· + f.get 2) }
      let own := s.pkgid.getD 0
      s.setPort p (((x.sendGfence own s.rgen).repays own s.rgen 0).repays own s.rgen 1))
def execCreditReturn (s : State) : Host.Outcome State Fault Refusal := event creditReturn s

/-- A flit is sent again on its hop, with the acknowledgement of now; one whose 16th replay has failed is not. -/
def Port.replayed (x : Port) (f : Flit) : Flit :=
  if replayLimit ≤ f.tries then { f with tries := replayLimit + 1 }
  else ({ f with lack := x.rxSeq - 1, tries := f.tries + 1 } : Flit).seal

/-- REPLAY_REQUEST: at a CTRL flit of kind 1 the transmitter resends what is unacknowledged; the buffer keeps it, and the count rises. -/
def replayRequest : W Unit := do
  let p ← arg 0
  waitFor (decide (p < 16))
  match ← takeFlit fCTRL with
  | none => pure ()
  | some f =>
    waitFor (decide (f.get 0 = 1))
    modify (fun s =>
      let x := s.port p
      s.setPort p { x with replay := x.replay.map x.replayed, replays := Nat.min 65535 (x.replays + (x.replay.filter (fun f => decide (f.tries < replayLimit))).length) })
def execReplayRequest (s : State) : Host.Outcome State Fault Refusal := event replayRequest s

/-- IDLE_FLIT_RECEIVE. -/
def execIdleFlitReceive (s : State) : Host.Outcome State Fault Refusal :=
  event (do
    waitFor (decide ((← arg 0) < 16))
    discard (takeFlit fIDLE)) s

/-- FLIT_CHECK_DISCARD: 256 bytes have come on port `arg 0` whose FCRC fails or whose LSEQ is out of order: they are answered by a
replay request from the expected LSEQ, which goes once channel 2 has a credit (R459); or, with a reserved TYPE, VC or bit, counted as a
protocol error, in which the channel's credit is owed. -/
def flitCheckDiscard : W Unit := do
  let p ← arg 0
  let b ← argBytes
  let s ← get
  let x := s.port p
  let f := flitOf b
  let again := !wireHolds b || f.lseq != x.rxSeq
  waitFor (decide (p < 16) && x.carries && (if again then decide (0 < x.credit 2) && !x.sendFence else wireReserved b))
  if again then
    set (s.setPort p (x.transmit { type := fCTRL, vc := 2, rgen := BitVec.ofNat 8 s.rgen, dst := 0, src := BitVec.ofNat 15 (s.pkgid.getD 0), body := [1, x.rxSeq.toNat] }))
  else set (s.setPort p (({ x.protocolError.acked f.lack with rxSeq := x.rxSeq + 1 } : Port).owes f.vc.toNat))
def execFlitCheckDiscard (s : State) : Host.Outcome State Fault Refusal := event flitCheckDiscard s

/-- GFENCE_RECEIVE: a fence arrives on a port; that of the generation in use, or of the one to be used next, counts
(R465). -/
def gfenceReceive : W Unit := do
  let p ← arg 0
  waitFor (decide (p < 16))
  match ← takeFlit fGFENCE with
  | none => pure ()
  | some f => modify (fun s =>
      let x := { s.port p with lastFence := some (BitVec.ofNat 8 (f.get 0)) }
      (s.setPort p (if f.get 0 = s.rgen % 256 then { x with gf := true } else x)).dropOldTable)
def execGfenceReceive (s : State) : Host.Outcome State Fault Refusal := event gfenceReceive s

end Sys2Proof.Machine
end

