-- ==== Sys2Proof/Machine/ScalarMem.lean ====
section
/-!
DEFINITION. S words on global memory: GLD, GST, GLDS (R173 to R177), GATOM and GCAS (R179, R180), FENCE (R326 to
R329), FPCLM and FPREL (R334, R335), TLBI (R308), PGQRY (R310).
-/
namespace Sys2Proof.Machine

/-! ## Atomic operations (R179) -/

/-- The operation register of GATOM and AATOM. -/
def atomLegal (r : BitVec 64) : Bool :=
  let opc := (r.extractLsb' 0 8).toNat
  decide (opc ≤ 9) && !(opc == 9 && !r.getLsbD 8) && r.extractLsb' 9 55 == 0

/-- Bytes of the operation's width. -/
def atomWidth (r : BitVec 64) : Nat := if r.getLsbD 8 then 4 else 8

/-- op(old, b) in a width of `n` bytes, and the flags of FADD32. -/
def atomOp (r : BitVec 64) (old b : Nat) : Nat × Flags :=
  let n := atomWidth r
  let m := 2 ^ (8 * n)
  let so := sintOf (8 * n) (old % m)
  let sb := sintOf (8 * n) (b % m)
  let x := old % m
  let y := b % m
  match (r.extractLsb' 0 8).toNat with
  | 0 => ((x + y) % m, {})
  | 1 => (x &&& y, {})
  | 2 => (x ||| y, {})
  | 3 => (x ^^^ y, {})
  | 4 => (if so ≤ sb then x else y, {})
  | 5 => (if sb ≤ so then x else y, {})
  | 6 => (Nat.min x y, {})
  | 7 => (Nat.max x y, {})
  | 8 => (y, {})
  | _ => let s := (FP.add (f32 (BitVec.ofNat 32 x)) (f32 (BitVec.ofNat 32 y))).toF32; (s.v.toNat, s.f)

/-! ## The access of an S word (R173, R174) -/

/-- The sector of an address as a footprint range (R174). -/
def sectorRange (va : Nat) (mode : FpMode) : Range := { sp := false, lo := va / 64 * 64, len := 64, mode := mode }

/-- Whether a claim of the core holds the access and its mode admits it (R334). -/
def State.claimed (s : State) (c va n : Nat) (mode : FpMode) : Bool :=
  (s.core c).claims.any (fun q => match s.fps.find? (fun f => f.id == q.2) with
    | some f => decide (f.base ≤ va) && decide (va + n ≤ f.base + 64 * f.len) &&
        (match f.mode with
          | .r => mode == .r
          | .acc => false
          | .atom => mode == .atom
          | _ => true)
    | none => false)

/-- Whether an access through a leaf takes no footprint: versioned, replicated and poisoned pages, and context frames
(R297, R319). -/
def Leaf.free (l : Leaf) : Bool := l.kind == 1 || l.kind == 2 || l.kind == 4 || (ctxFrameOf l.frame).isSome

/-- Puts an access of the engine at hand in flight; `store` is what it has still to write, `late` what it has still to do, and
then its register waits. -/
def putFlight (va n : Nat) (mode : FpMode) (fp : Option Nat) (store : Option (List Byte) := none) (sp : Bool := false)
    (late : Option Late := none) : W Unit := do
  let seq ← takeSeq
  let s ← get
  let t ← getE
  let f : Flight := { core := s.cur.core, eng := s.cur.eng, slot := t.slot, fp := fp, va := va, len := n, mode := mode, seq := seq,
                      store := store, late := late, sp := sp, pc := t.pc }
  set { s with flights := s.flights ++ [f] }
  match late with
  | some l => putE (t.lockReg l.reg seq)
  | none => pure ()

/-- Whether an access of an engine to given bytes has not landed yet: later accesses of the engine to them wait (R177,
R182). -/
def State.landing (s : State) (c : Nat) (e : Engine) (sp : Bool) (va n : Nat) : Bool :=
  s.flights.any (fun f => f.core == c && f.eng == e && f.pends && f.sp == sp && overlaps f.va f.len va n)

/-- Whether a page is one whose accesses may land after their word (R159): memory that the access reaches without fault. -/
def State.mayWait (s : State) (l : Leaf) (va : Nat) : Bool := !l.free && !s.isUncorr (l.pa va)

/-- Leaves an access to land later, or not: the program orders it only by R206. -/
def later (may : Bool) : W Bool := do if may then anyBit else return false

/-- The bytes that the device keeps for its own objects of a context, as runs: barrier blocks, group control blocks with
their member tables, headers of registered buckets, running graphs with what they name, completion records of live cards,
records of live walks, status queues, and the records of objects that have ended. DEDUCED (notes/assumptions/84.md). -/
def State.recordBytes (s : State) (ctx : BitVec 8) : List (Nat × Nat) :=
  let c := s.ctx ctx
  let run := fun (c : Card) => if c.crec = 0 then [] else [(c.crec.toNat, 16)]
  ((s.barriers.filter (fun b => b.ctx == ctx)).map (fun b => (b.addr, 64))) ++
  ((s.groups.filter (fun g => g.ctx == ctx)).flatMap (fun g => [(g.addr, 64), (g.mtab, 8 * g.members.length)])) ++
  ((s.buckets.filter (fun b => b.2.ctx == ctx)).map (fun b => (b.2.hdr, 64))) ++
  ((s.graphs.filter (fun g => g.ctx == ctx && g.status == 1)).flatMap (·.runs)) ++ c.recs ++
  ((s.hub.filter (fun h => h.2.ctx == ctx)).flatMap (fun h => run h.2.card)) ++
  ((s.cores.toList.filter (fun k => k.lastCtx == ctx)).flatMap (fun k => k.cards.flatMap (fun x => run x.card))) ++
  ((s.walks.filter (fun w => w.2.ctx == ctx)).map (fun w => (w.2.resAddr, 0x120))) ++
  ((List.range c.regions.length).filterMap (fun n => if c.stqlenEff n = 0 then none else some (c.stqEff n, 64 + 32 * c.stqlenEff n)))

/-- Whether all bytes of a plain read are bytes of such records: it takes no footprint (R265, R284, R337, R377, R396, R426,
R439). DEDUCED (notes/assumptions/84.md). -/
def State.recordRead (s : State) (ctx : BitVec 8) (va n : Nat) : Bool :=
  (s.recordBytes ctx).any (fun r => decide (r.1 ≤ va) && decide (va + n ≤ r.1 + r.2))

/-- Where S's access of `n` bytes goes, in the order of R173 up to RACE: the leaf and the footprint it took. -/
def sEnter (va n : Nat) (how : Acc) (mode : FpMode) : W (Except Bad (Leaf × List Nat)) := do
  match ← xlateAligned .S va n how with
  | .error e => return .error e
  | .ok l =>
    let s ← get
    let c := s.cur.core
    waitFor (!(← getC).blocked [{ sp := false, lo := va, len := n, mode := mode }] && !s.landing c .S false va n)
    let ctx := (s.core c).lastCtx
    let exact : Range := { sp := false, lo := va, len := n, mode := mode }
    modify (fun s => s.dropRecs ctx [exact])
    if l.free || s.claimed c va n mode then return .ok (l, [])
    if how == .read && s.recordRead ctx va n then
      modify (fun s => s.dropClean ctx (c / 24) (va / 64 * 64) 64)
      return .ok (l, [])
    match ← enterWord [sectorRange va mode] (l.cp || how == .atom) with
    | .error e => return .error e
    | .ok ids => return .ok (l, ids)

/-- An access of `n` bytes by S in the order of R173: XLATE, ALIGN, PROT, RACE, UNCORR. `act` reads or writes, now, or the access
stays in flight with `late` to do (R159) and answers nothing. -/
def sAccess (va n : Nat) (how : Acc) (mode : FpMode) (late : Late) (act : Path → Leaf → W (Except Bad (List Byte))) :
    W (Except Bad (Option (List Byte))) := do
  match ← sEnter va n how mode with
  | .error e => return .error e
  | .ok (l, ids) =>
    if ← later ((← get).mayWait l va) then
      putFlight va n mode ids.head? none false (some late)
      return .ok none
    let s ← get
    match ← act (s.pathOf s.cur.core .S) l with
    | .error e =>
      modify (fun s => { s with fps := s.fps.filter (fun f => !ids.contains f.id) })
      return .error e
    | .ok r =>
      putFlight va n mode ids.head?
      return .ok (some r)

/-- A failed access traps (R173). -/
def orTrap {α : Type} (r : Except Bad α) : W α :=
  match r with
  | .ok a => pure a
  | .error (c, d) => trap c d

/-- sa + sext(imm); a poisoned sa raises POISON with DETAIL the register (R140). -/
def gAddr (a : BitVec 6) (imm : BitVec 6) : W (BitVec 64) := do
  let i ← immS imm
  let x ← rdS a
  clean x (a.setWidth 64)
  return x.v + i

/-- A read of a versioned page without a pin may begin before it ends (R300). DESIGN CHOICE (notes/assumptions/94.md). -/
def beginRead (p : Path) (l : Leaf) (va : Nat) : W Unit := do
  if l.kind = 1 && p.early.isEmpty && ((← get).pinnedRound p.ctx p.who l.wslot).isNone then
    if ← anyBit then
      putE { (← getE) with early := ← beginRun p 1 va 8 }
      waitFor (← getE).early.isEmpty

/-- The read of GLD and GLDS. -/
def gRead (d : BitVec 6) (va : Nat) (safe : Bool) : W (Except Bad (Option (List Byte))) :=
  sAccess va 8 .read .r (.load (.s d) safe) (fun p l => do beginRead p l va; readLeaf p l va 8)

/-- The bytes of a load or an atomic go to sd, unless they come later (R137). -/
def gotS (d : BitVec 6) (b : Option (List Byte)) : W Unit := do
  match b with
  | some b => wrS d { v := word64 (leNat b) } interlocked
  | none => pure ()

/-- GLD (R173). -/
def gldBody (d a imm : BitVec 6) : W Unit := do
  let va ← gAddr a imm
  gotS d (← orTrap (← gRead d va.toNat false))
def execGld (d a imm : BitVec 6) (s : State) : Host.Outcome State Fault Refusal := withImm (gldBody d a imm) s

/-- Causes 2 to 6 of R173, which GLDS defers. -/
def deferred (c : BitVec 8) : Bool := [cXLATE, cALIGN, cPROT, cRACE, cUNCORR].contains c

/-- GLDS (R175): a deferred failure leaves poison in sd, and with it a value the spec does not give. DESIGN CHOICE (notes/assumptions/38.md). -/
def gldsBody (d a imm : BitVec 6) : W Unit := do
  let va ← gAddr a imm
  match ← gRead d va.toNat true with
  | .ok b => gotS d b
  | .error (c, x) => if deferred c then wrS d { v := ← anyWord, p := true } interlocked else trap c x
def execGlds (d a imm : BitVec 6) (s : State) : Host.Outcome State Fault Refusal := withImm (gldsBody d a imm) s

/-- GST (R173): field d names the data register. Its bytes may land after the word (R159). -/
def gstBody (d a imm : BitVec 6) : W Unit := do
  let va := (← gAddr a imm).toNat
  let x ← rdS d
  clean x (word64 va)
  let bs := leBytes 8 x.v.toNat
  let (l, ids) ← orTrap (← sEnter va 8 .write .w)
  if ← later ((← get).mayWait l va) then putFlight va 8 .w ids.head? (some bs)
  else
    let s ← get
    orTrap (← writeLeaf (s.pathOf s.cur.core .S) l va bs)
    putFlight va 8 .w ids.head?
def execGst (d a imm : BitVec 6) (s : State) : Host.Outcome State Fault Refusal := withImm (gstBody d a imm) s

/-- GATOM (R179, R180). -/
def gatomBody (d a b : BitVec 6) : W Unit := do
  let x ← rdS a
  let y ← rdS b
  let o ← rdS d
  clean x (a.setWidth 64)
  clean y x.v
  clean o x.v
  if !atomLegal o.v then illegal
  let n := atomWidth o.v
  let va := x.v.toNat
  let old ← orTrap (← sAccess va n .atom .atom (.atom (.s d) o.v y.v) (fun p l =>
    modifyLeaf p l va n (fun old => leBytes n (atomOp o.v (leNat old) y.v.toNat).1)))
  match old with
  | some old => addFlags (atomOp o.v (leNat old) y.v.toNat).2
  | none => pure ()
  gotS d old
def execGatom (d a b : BitVec 6) (s : State) : Host.Outcome State Fault Refusal := plain (gatomBody d a b) s

/-- GCAS (R180). -/
def gcasBody (d a b : BitVec 6) : W Unit := do
  let x ← rdS a
  let y ← rdS b
  let o ← rdS d
  clean x (a.setWidth 64)
  clean y x.v
  clean o x.v
  let va := x.v.toNat
  gotS d (← orTrap (← sAccess va 8 .atom .atom (.cas (.s d) o.v y.v) (fun p l =>
    modifyLeaf p l va 8 (fun old => if leNat old = o.v.toNat then leBytes 8 y.v.toNat else old))))
def execGcas (d a b : BitVec 6) (s : State) : Host.Outcome State Fault Refusal := plain (gcasBody d a b) s

/-! ## Late accesses (R159, R206) -/

/-- What an atomic in flight writes over the old bytes, and the flags that it sets. -/
def Late.change (n : Nat) (l : Late) (old : List Byte) : List Byte × Flags :=
  match l with
  | .load _ _ => (old, {})
  | .atom _ op v => let r := atomOp op (leNat old) v.toNat; (leBytes n r.1, r.2)
  | .cas _ cmp v => (if leNat old = cmp.toNat then leBytes n v.toNat else old, {})

/-- A late load or atomic takes effect: the old bytes. -/
def lateBytes (f : Flight) (l : Late) : W (Except Bad (List Byte)) := do
  let s ← get
  let p := s.pathOf f.core f.eng
  if f.sp then
    let old := (s.core f.core).spad.slice f.va f.len
    match l with
    | .load _ _ => pure ()
    | _ => modify (fun s => s.onCore f.core (fun k => k.spadWrite f.va (l.change f.len old).1))
    return .ok old
  else
    match l with
    | .load _ _ => readMem p f.va f.len
    | _ =>
      match ← xlate p.ids p.ctx f.va .atom with
      | .error e => return .error e
      | .ok lf => modifyLeaf p lf f.va f.len (fun old => (l.change f.len old).1)

/-- A late load or atomic lands: its register gets the value, FSTAT its flags. A failure leaves poison after GLDS (R175) and is
else a trap of its word. DEDUCED (notes/assumptions/29.md). DESIGN CHOICE (notes/assumptions/38.md). -/
def landLate (f : Flight) (l : Late) : W Unit := do
  let give := fun (r : Reg) => modify (fun s => s.onCore f.core (fun k => k.deliver f.eng f.seq l.reg r))
  match ← lateBytes f l, l with
  | .ok old, _ =>
    give { v := word64 (leNat old) }
    let fl := (l.change f.len old).2
    modify (fun s => s.onCore f.core (fun k => k.setEng f.eng { (k.eng f.eng) with fstat := (k.eng f.eng).fstat ||| fl.bits }))
  | .error e, .load _ true =>
    if deferred e.1 then give { v := ← anyWord, p := true }
    else modify (fun s => s.trapStop f.core f.eng f.eng.src e.1 f.pc e.2)
  | .error e, _ => modify (fun s => s.trapStop f.core f.eng f.eng.src e.1 f.pc e.2)

/-- What an access in flight has still to do, once no X job that has moved its data stands in its way (R205). It
translates now (R308); a failure is a trap of its word. DEDUCED (notes/assumptions/29.md). -/
def landAccess (f : Flight) : W Unit := do
  if !f.pends then return
  let r : Range := { sp := f.sp, lo := f.va, len := f.len, mode := f.mode }
  let s ← get
  waitFor ((s.core f.core).forced || !(s.core f.core).cardsHold [r])
  match f.store, f.late with
  | some bs, _ =>
    if f.sp then modify (fun s => s.onCore f.core (fun k => k.spadWrite f.va bs))
    else
      match ← writeMem (s.pathOf f.core f.eng) f.va bs with
      | .ok _ => pure ()
      | .error e => modify (fun s => s.trapStop f.core f.eng f.eng.src e.1 f.pc e.2)
  | none, some l => landLate f l
  | none, none => pure ()

/-- ACCESS_COMPLETE: access `arg 0` in flight completes, with the release of its footprint. -/
def accessComplete : W Unit := do
  let i ← arg 0
  match (← get).flights[i]? with
  | none => stall
  | some f =>
    landAccess f
    modify (fun s => { s with flights := s.flights.eraseIdx i })
    releaseFps f.fp.toList
def execAccessComplete (s : State) : Host.Outcome State Fault Refusal := event accessComplete s

/-! ## FENCE (R326 to R329, R333) -/

/-- The place in the core's accesses where the word at hand began: what came earlier is what a release waits for (R328). -/
def releaseMark : W Nat := do
  match (← getE).mark with
  | some n => return n
  | none =>
    let n ← takeSeq
    putE { (← getE) with mark := some n }
    return n

/-- Waits until the core's writes to memory up to place `m` are complete at die scope, and with `rel` its releases have left the
hub table (R318, R328). -/
def settled (m : Nat) (rel : Bool) : W Unit := do
  let s ← get
  let c := s.cur.core
  waitFor (!s.flights.any (fun f => f.core == c && !f.sp && (if f.rel then rel else f.mode.writes) && decide (f.seq ≤ m)))

/-- Waits until what the core wrote and released earlier is complete at package scope (R318, R328): none of it is in flight, its dirty
sectors are written back. -/
def drainCore : W Unit := do
  settled (← releaseMark) true
  let c := (← get).cur.core
  writeBackAll (fun d => d.owner == some c)

/-- The same at group scope: the remote cards accepted earlier are DONE too (R327). -/
def drainGroup : W Unit := do
  drainCore
  let m ← releaseMark
  waitFor (!(← getC).cards.any (fun x => x.live && x.card.isRemote && decide (x.seq ≤ m)))

/-- FENCE. At core scope it has no effect beyond its slot. A release at die scope or wider waits for every access and
release of the core; group scope waits for its remote cards too. An acquire raises the replica floor. -/
def fenceBody (kind scope : BitVec 2) : W Unit := do
  let i ← immU ((0#14 ++ kind ++ scope : BitVec 18))
  if 15 < i || kind = 0 then illegal
  if scope ≠ 0 then
    let s ← get
    let c := s.cur.core
    if kind ≠ 1 then
      match scope.toNat with
      | 1 => settled (← releaseMark) false
      | 2 => drainCore
      | _ => drainGroup
    if kind ≠ 2 then
      waitFor (!s.flights.any (fun f => f.core == c && f.eng == .S && f.mode != .w && !f.rel))
      acquireS
def execFence (kind scope : BitVec 2) (s : State) : Host.Outcome State Fault Refusal := withImm (fenceBody kind scope) s

/-! ## Claims (R334, R335) -/

/-- Claims a core may hold. -/
def claimCount : Nat := 16

/-- The lowest free claim number. -/
def Core.freeClaim (k : Core) : Option Nat := (List.range claimCount).find? (fun n => !k.claims.any (fun q => q.1 == n))

/-- FPCLM (R334). -/
def fpclmBody (d a b : BitVec 6) : W Unit := do
  let x ← rdS a
  let y ← rdS b
  clean x (a.setWidth 64)
  clean y (b.setWidth 64)
  let len := (y.v.extractLsb' 0 32).toNat
  match xfModeOf (y.v.extractLsb' 32 3) with
  | none => illegal
  | some m =>
    if len = 0 || y.v.extractLsb' 35 29 != 0 then illegal
    if x.v.toNat % 64 ≠ 0 then trap cALIGN x.v
    if 2 ^ 56 < x.v.toNat + 64 * len || 2 ^ 56 ≤ x.v.toNat then trap cXLATE x.v
    match (← getC).freeClaim with
    | none => illegal
    | some n =>
      let r : Range := { sp := false, lo := x.v.toNat, len := 64 * len, mode := m }
      let ids ← orTrap (← enterWord [r] false)
      modify (fun s => s.dropRecs (s.core s.cur.core).lastCtx [r])
      modC (fun k => { k with claims := k.claims ++ ids.map (fun i => (n, i)) })
      wrS d { v := word64 n } 1
def execFpclm (d a b : BitVec 6) (s : State) : Host.Outcome State Fault Refusal := plain (fpclmBody d a b) s

/-- FPREL (R335). -/
def fprelBody (a : BitVec 6) : W Unit := do
  let x ← rdS a
  clean x (a.setWidth 64)
  let s ← get
  let c := s.cur.core
  match (s.core c).claims.find? (fun q => q.1 == x.v.toNat) with
  | none => illegal
  | some q =>
    match s.fps.find? (fun f => f.id == q.2) with
    | none => illegal
    | some f =>
      waitFor (!s.flights.any (fun g => g.core == c && g.eng == .S && !g.rel && overlaps g.va g.len f.base (64 * f.len)))
      modC (fun k => { k with claims := k.claims.filter (fun r => r.1 != q.1) })
      releaseLater c .S [f.id]
def execFprel (a : BitVec 6) (s : State) : Host.Outcome State Fault Refusal := plain (fprelBody a) s

/-! ## TLBI and PGQRY (R308, R310) -/

/-- A core forgets what its reads of versioned pages have begun to read at given addresses (R308). -/
def Core.dropEarly (k : Core) (hit : Nat → Bool) : Core :=
  let left := fun (l : Early) => l.filter (fun x => !hit x.1)
  { k with
    engS := { k.engS with early := left k.engS.early }, monSaved := { k.monSaved with early := left k.monSaved.early }
    streams := k.streams.map (fun t => t.map (fun t => { t with early := left t.early }))
    rings := k.rings.map (fun r => r.map (fun r => { r with sub := r.sub.map (fun u => { u with early := left u.early }) }))
    cards := k.cards.map (fun x => { x with early := left x.early }) }

/-- The steps of R308 from the drop on, for a context and a range (all of it when `len` is 0): what was translated with an
entry that goes is complete, and its dirty sectors are in memory; a read of a versioned page that has only begun begins again. An access that has not landed translates again. DESIGN CHOICE (notes/assumptions/28.md). -/
def tlbInvalidate (ctx : BitVec 8) (va len : Nat) : W Unit := do
  let s ← get
  let hit := fun (a n : Nat) => len == 0 || overlaps va len a n
  waitFor (!s.flights.any (fun f => (s.core f.core).lastCtx == ctx && !f.sp && !f.rel && !f.pends && hit f.va f.len))
  writeBackAll (fun d => d.ctx == ctx && hit d.va 64)
  modify (fun s => { s.tlbDrop ctx va len with
    cores := s.cores.map (fun k => if k.lastCtx = ctx then k.dropEarly (fun a => hit a 64) else k) })

/-- TLBI: a length of 0 names the whole context. -/
def tlbiBody (a b : BitVec 6) : W Unit := do
  let x ← rdS a
  let y ← rdS b
  clean x (a.setWidth 64)
  clean y (b.setWidth 64)
  if 2 ^ 56 ≤ x.v.toNat || (y.v != 0 && decide (2 ^ 56 < x.v.toNat + y.v.toNat)) then illegal
  let s ← get
  let c := s.cur.core
  waitFor (!s.flights.any (fun f => f.core == c && f.eng == .S && f.mode.writes))
  writeBackAll (fun d => d.owner == some c)
  tlbInvalidate (s.core c).lastCtx x.v.toNat y.v.toNat
def execTlbi (a b : BitVec 6) (s : State) : Host.Outcome State Fault Refusal := plain (tlbiBody a b) s

/-- SIZE of Table 10.7. -/
def sizeCode (n : Nat) : Nat := if n = 0x40000000 then 2 else if n = 0x200000 then 1 else 0

/-- The result of PGQRY for a leaf that admits a plain read (Table 10.7). `vf` is the frame new pins see. -/
def pgqryOk (who : Agent) (l : Leaf) (va vf : Nat) : Nat :=
  let cf := (ctxFrameOf l.frame).isSome
  let pa := l.pa va + (if l.kind = 2 then 3 * who.replica * stackSpan else 0)
  let home := if cf then 0 else if inTier pa then 12 + (pa - tierBase) / tierSpan else pa / stackSpan
  let ch := if cf || inTier pa then 0 else pa / 2048 % 32
  1 + 2 * l.kind + 16 * sizeCode l.size + 64 * l.w.toNat + 128 * l.txt.toNat + 256 * l.key + 2 ^ 16 * l.cp.toNat +
    2 ^ 17 * cf.toNat + 2 ^ 18 * home + 2 ^ 22 * ch + 2 ^ 27 * (if l.kind = 1 then vf else 0)

/-- PGQRY. -/
def pgqryBody (d a : BitVec 6) : W Unit := do
  let x ← rdS a
  clean x (a.setWidth 64)
  let c := (← get).cur.core
  let bad := fun (cause : BitVec 8) => (2 ^ 32 * cause.toNat : Nat)
  let r ← match ← xlateWord .S x.v.toNat .read with
    | .error (cause, _) => pure (bad cause)
    | .ok l => do
      let s ← get
      pure (pgqryOk (.core c) l x.v.toNat (s.newRound (s.core c).lastCtx l.wslot % 2))
  wrS d { v := word64 r } interlocked
def execPgqry (d a : BitVec 6) (s : State) : Host.Outcome State Fault Refusal := plain (pgqryBody d a) s

end Sys2Proof.Machine
end

