-- ==== Sys2Proof/Machine/Barrier.lean ====
section
/-!
DEFINITION. Barriers (R375 to R394): group barriers, the Whistle, pins, the words BARV, BARW, VPIN and VUNPIN, and the
messages between packages that arrivals need.
-/
namespace Sys2Proof.Machine

/-! ## Groups as other units see them -/

/-- The bound group of a number. -/
def State.group (s : State) (ctx : BitVec 8) (n : Nat) : Option Group := s.groups.find? (fun g => g.ctx == ctx && g.num == n)
/-- Replaces a bound group. -/
def State.setGroup (s : State) (g : Group) : State :=
  { s with groups := s.groups.map (fun x => if x.ctx == g.ctx && x.num == g.num then g else x) }

/-- Entry `r` of a member table; a rank that no entry describes is GONE. -/
def memberAt (l : List Member) (r : Nat) : Member := l.getD r { pkgid := 0, mstate := .gone, ctxid := 0 }
def Group.member (g : Group) (r : Nat) : Member := memberAt g.members r
/-- The ranks of a member table in a state. -/
def ranksIn (l : List Member) (st : List MState) : List Nat := (List.range l.length).filter (fun r => st.contains (memberAt l r).mstate)
def Group.ranks (g : Group) (st : List MState) : List Nat := ranksIn g.members st

/-- Kinds of group messages (Table 18.2), the first field of a GROUP flit's body; the target's context, the group and
the sender's rank follow. -/
def gmHELLO : Nat := 0
def gmANSWER : Nat := 1
def gmCONFIRM : Nat := 2
def gmFENCE : Nat := 3
def gmNOTICE : Nat := 4
def gmACK : Nat := 5
def gmARRIVE : Nat := 6

/-- Sends a message to rank `r` of a group, described by `m`. -/
def sendMsg (g : Group) (r : Nat) (m : Member) (kind : Nat) (rest : List Nat) : W Unit := do
  let body := [kind, m.ctxid.toNat, g.num, g.self] ++ rest
  let x ← nextXid (.msg g.ctx g.num r m.pkgid body false)
  source fGROUP m.pkgid x 0 body [] [] (g.ctx, g.region)

/-- Sends a message to the ranks of a list, this package left out. -/
def sendAll (g : Group) (l : List Member) (rs : List Nat) (kind : Nat) (rest : List Nat) : W Unit := do
  for r in rs.filter (· ≠ g.self) do sendMsg g r (memberAt l r) kind rest

/-! ## The block (Table 14.1) -/

/-- Bound barriers of the package (R375). -/
def barrierLimit : Nat := 8192

def State.barrier (s : State) (ctx : BitVec 8) (n : Nat) : Option Barrier := s.barriers.find? (fun b => b.ctx == ctx && b.num == n)
def State.setBarrier (s : State) (b : Barrier) : State := { s with barriers := s.barriers.map (fun x => if x.id == b.id then b else x) }

/-- The first 40 bytes of the block: STATE as given, the rest as the hub holds it. -/
def Barrier.bytes (b : Barrier) (state : Nat) : List Byte :=
  leBytes 8 (b.whistle.toNat + 16 * state + 256 * b.cause.toNat + 65536 * b.group.toNat) ++
  leBytes 8 b.parties ++ leBytes 8 (b.locexp + 2 ^ 32 * b.count) ++ leBytes 8 b.seq ++ leBytes 8 b.expected.length

/-- Writes the block (R377); a write that fails is R490's. -/
def Barrier.publish (b : Barrier) (state : Nat) : W Unit := do
  noteRecs b.ctx [(b.addr, 64)]
  hubWrite { ctx := b.ctx, region := b.region } b.addr (b.bytes state)

/-- How a BARW on instance or round `i` ends (R392): 0 completed, 1 abandoned, 2 withheld; none while it waits. -/
def Barrier.waited (b : Barrier) (i : Nat) : Option Nat :=
  if b.whistle then (if i ≤ b.seq then some 0 else if b.state = 6 then some 2 else none)
  else if i < b.seq then some 0
  else if b.state = 3 && decide (b.aband.getD 0 ≤ i) then some 1 else none

/-- What a change of a barrier tells a BARW that waits on it. -/
def EngineSt.noteWait (id : Nat) (r : Nat → Option Nat) (t : EngineSt) : EngineSt :=
  { t with barw := t.barw.map (fun w => if w.id = id && w.res.isNone then { w with res := r w.i } else w) }

/-- A stalled BARW stops waiting when its barrier tells it so, whatever comes after. -/
def State.noteWaits (s : State) (id : Nat) (r : Nat → Option Nat) : State :=
  { s with cores := s.cores.map (fun k => { k with engS := k.engS.noteWait id r, monSaved := k.monSaved.noteWait id r }) }

/-- Holds a barrier's new state, and writes the block when it changed. -/
def keepBarrier (b : Barrier) : W Unit := do
  match (← get).barriers.find? (fun x => x.id == b.id) with
  | none => pure ()
  | some old =>
    modify (fun s => (s.setBarrier b).noteWaits b.id b.waited)
    if old.bytes old.state ≠ b.bytes b.state then b.publish b.state

/-! ## Instances and rounds (R379 to R384) -/

/-- Whether an arrival is on record for party `p` in instance `i`. -/
def Barrier.isAhead (b : Barrier) (i p : Nat) : Bool := b.ahead.any (fun a => decide (a.1 ≤ i) && a.2 == p)

/-- The next instance or round opens: its expected set, and the arrivals recorded for it, of which those of parties it does not
expect end here (R379 to R381). -/
def Barrier.openNext (b : Barrier) : Barrier :=
  let i := b.seq + 1
  -- arrivals of a Whistle's open round i are for round i + 1
  let at_ := if b.whistle then i + 1 else i
  let exp := b.expected.filter (fun p => !b.withdrawn.contains p || b.isAhead at_ p) ++ b.joining
  let arr := exp.filter (fun p => b.isAhead at_ p)
  { b with
    seq := i, expected := exp, arrived := arr, joining := [], withdrawn := b.withdrawn.filter (fun p => exp.contains p),
    ahead := b.ahead.filter (fun a => decide (at_ < a.1)),
    count := if b.whistle then 0 else arr.length,
    state := if b.whistle then 4 else if exp.isEmpty then 3 else if arr.isEmpty then 1 else 2,
    aband := if !b.whistle && exp.isEmpty then some i else none }

/-- Whether every expected party has arrived. -/
def Barrier.full (b : Barrier) : Bool := !b.arrived.isEmpty && b.expected.all (fun p => b.arrived.contains p)

/-- After a change: a full group barrier opens its next instance, as often as recorded arrivals fill one; a full Whistle
in COUNTING is FLIPPING. -/
def Barrier.advance (b : Barrier) : Nat → Barrier
  | 0 => b
  | n + 1 =>
    if b.whistle then (if b.state = 4 && b.full then { b with state := 5 } else b)
    else if b.state = 3 then b
    else if b.full then b.openNext.advance n else b
/-- At most one instance more than there are arrivals on record. -/
def Barrier.settle (b : Barrier) : Barrier := b.advance (b.ahead.length + 2)

/-- The instance or round that arrivals now count for. -/
def Barrier.current (b : Barrier) : Nat := if b.whistle then b.seq + 1 else b.seq

/-- Arrival of a party in instance or round `i` (R379): counted, recorded ahead, or past. -/
def Barrier.arrive (b : Barrier) (p i : Nat) : Barrier :=
  if b.state = 3 || i < b.current then b
  else if i = b.current && b.expected.contains p && !b.arrived.contains p && b.state ≠ 5 then
    let arr := b.arrived ++ [p]
    { b with arrived := arr, count := if b.whistle then b.count else arr.length, state := if b.whistle then b.state else 2 }
  else if b.ahead.any (fun a => a.2 == p && a.1 == Nat.max i (b.current + 1)) then b
  else { b with ahead := b.ahead ++ [(Nat.max i (b.current + 1), p)] }

/-- A withdrawal (R379, R381). -/
def Barrier.withdraw (b : Barrier) (p : Nat) : Barrier :=
  if b.state = 3 || !b.expected.contains p then b
  else if b.arrived.contains p then (if b.withdrawn.contains p then b else { b with withdrawn := b.withdrawn ++ [p] })
  else
    let exp := b.expected.filter (· ≠ p)
    if exp.isEmpty && !b.whistle then { b with expected := exp, state := 3, aband := some b.seq } else { b with expected := exp }

/-- The instance from which a withdrawn party is not expected. -/
def Barrier.withdrawnFrom (b : Barrier) (p : Nat) : Nat :=
  if !b.expected.contains p || !b.arrived.contains p then b.seq else if b.isAhead (b.seq + 1) p then b.seq + 2 else b.seq + 1

/-- A join (R381). -/
def Barrier.join (b : Barrier) (p : Nat) : Barrier :=
  if b.state = 3 then b
  else if b.expected.contains p then { b with withdrawn := b.withdrawn.filter (· ≠ p) }
  else if b.joining.contains p then b else { b with joining := b.joining ++ [p] }

/-- Abandons a barrier in its current instance. -/
def Barrier.abandon (b : Barrier) : Barrier := if b.state = 3 then b else { b with state := 3, aband := some b.seq }

/-- Tells the other members of group `grp` of this package's arrival at barrier or Whistle `num` (R378). -/
def tellMembers (ctx : BitVec 8) (grp num i : Nat) : W Unit := do
  match (← get).group ctx grp with
  | some g => if grp < 256 then sendAll g g.members (g.ranks [.active]) gmARRIVE [num, i]
  | none => pure ()

/-- The same of a barrier that is bound. -/
def tellArrival (b : Barrier) (i : Nat) : W Unit := tellMembers b.ctx b.group.toNat b.num i

/-- What became of a publication (Table 14.3): a counted one may make the package arrive, which the other members are told
(group, barrier and round). -/
inductive Publication where
  | counted (tell : List (Nat × Nat × Nat))
  | discarded
  | refused
  deriving DecidableEq, Repr, Inhabited

/-- A publication for round `r` at the Whistle of a handle (R383, R384); the last one makes the package arrive. -/
def publishRound (ctx : BitVec 8) (handle : BitVec 32) (r : Nat) : W Publication := do
  match (← get).barrier ctx handle.toNat with
  | none => return .refused
  | some b =>
    if !b.whistle then return .refused
    if b.state ≠ 4 then return .discarded
    if r ≠ b.seq + 1 || b.locexp ≤ b.count then return .refused
    let b := { b with count := b.count + 1 }
    if b.count = b.locexp then
      keepBarrier (b.arrive b.me r).settle
      return .counted [(b.group.toNat, b.num, r)]
    else
      keepBarrier b
      return .counted []

/-- A poisoning for step `r` withholds the round while the package has not arrived (Table 14.3). -/
def withholdRound (ctx : BitVec 8) (handle : BitVec 32) (r : Nat) (cause : BitVec 8) : W Unit := do
  match (← get).barrier ctx handle.toNat with
  | none => pure ()
  | some b =>
    if b.whistle && b.state = 4 && r = b.seq + 1 && !b.arrived.contains b.me then keepBarrier { b with state := 6, cause := cause }

/-- UNBIND (R377): the final state with STATE 0. DEDUCED (notes/assumptions/69.md). -/
def unbindBarrier (b : Barrier) : W Unit := do
  modify (fun s => ({ s with barriers := s.barriers.filter (fun x => x.id != b.id) } : State).noteWaits b.id (fun _ => some 1))
  b.publish 0

/-- A change to every barrier linked to a group. DEDUCED (notes/assumptions/69.md). -/
def linkedBarriers (ctx : BitVec 8) (grp : Nat) (g : Barrier → Barrier) : W Unit := do
  for b in (← get).barriers.filter (fun b => b.ctx == ctx && b.group.toNat == grp) do keepBarrier (g b).settle

/-- BARRIER_ARRIVAL_MESSAGE: an arrival of another member is applied (R378). -/
def barrierArrivalMessage : W Unit :=
  onFlit fGROUP (fun f => do
    waitFor (f.get 0 == gmARRIVE)
    match (← get).barrier (BitVec.ofNat 8 (f.get 1)) (f.get 4) with
    | none => pure ()
    | some b => if b.group.toNat = f.get 2 then keepBarrier (b.arrive (f.get 3) (f.get 5)).settle)
def execBarrierArrivalMessage (s : State) : Host.Outcome State Fault Refusal := event barrierArrivalMessage s

/-! ## BARV (R390, R391) -/

/-- Register numbers of an RRR word. -/
def regD : W (BitVec 6) := do return (← get).cur.word.extractLsb' 12 6
def regA : W (BitVec 6) := do return (← get).cur.word.extractLsb' 6 6
def regB : W (BitVec 6) := do return (← get).cur.word.extractLsb' 0 6

/-- Reads a register whose poison raises POISON with its number. -/
def rdClean (n : BitVec 6) : W (BitVec 64) := do
  let r ← rdS n
  clean r (n.setWidth 64)
  return r.v

/-- S reads a record of `n` bytes within a sector for an operation of the hub, once its own stores there are complete. -/
def sRecord (va n : Nat) : W (List Byte) := do
  let s ← get
  let c := s.cur.core
  waitFor (!s.flights.any (fun f => f.core == c && f.eng == .S && f.mode.writes && overlaps f.va f.len va n))
  let l ← orTrap (← xlateWord .S va .read)
  dropDirty (s.core c).lastCtx c va n
  orTrap (← readLeaf (s.pathOf c .S).bypass l va n)

/-- What BIND refuses in a block (R391). -/
def State.blockBad (s : State) (ctx : BitVec 8) (n v : Nat) : Bool :=
  let f := fieldOf v
  let kind := f 0 1 0
  let grp := f 0 31 16
  decide (2 ≤ kind) || f 0 3 2 != 0 || f 0 7 4 != 0 || f 0 15 8 != 0 || f 0 63 32 != 0 || f 8 63 16 != 0 || f 0x10 63 32 != 0 ||
  f 0x20 31 0 != 0 || f 0x20 63 32 != 0 || v / 2 ^ (8 * 0x28) != 0 ||
  (kind == 0 && (f 0x18 63 0 != 0 || f 0x10 31 0 != 0 || (grp == 0xFFFF && f 8 15 0 == 0) || (grp != 0xFFFF && f 8 15 0 != 0))) ||
  (kind == 1 && (decide (255 < n) || f 0x10 31 0 == 0 || f 8 15 0 != 0)) ||
  (grp != 0xFFFF && (decide (255 < grp) || (s.group ctx grp).isNone))

/-- The barrier that a block describes, at BIND. -/
def State.newBarrier (s : State) (ctx : BitVec 8) (n va region v : Nat) : Barrier :=
  let f := fieldOf v
  let whistle := f 0 1 0 == 1
  let grp := f 0 31 16
  let g := s.group ctx grp
  let exp := if grp = 0xFFFF then (if whistle then [0] else List.range (f 8 15 0)) else (g.map (fun g => g.ranks [.active])).getD []
  { id := s.barrierNext, ctx := ctx, num := n, addr := va, region := region, whistle := whistle, group := BitVec.ofNat 16 grp,
    parties := f 8 15 0, locexp := f 0x10 31 0, me := if grp = 0xFFFF then 0 else (g.map (·.self)).getD 0, seq := f 0x18 63 0,
    state := if whistle then 4 else if exp.isEmpty then 3 else 1, expected := exp, aband := if !whistle && exp.isEmpty then some 0 else none }

/-- The checks of R390 common to every operation, then the operation: `op` gets the number of the barrier, sb and
PARTY, and gives the result. -/
def barvWord (op : Nat → BitVec 64 → Nat → W Nat) : W Unit := do
  let d ← regD
  let v ← rdClean d
  let n := (← rdClean (← regA)).toNat
  let b ← rdClean (← regB)
  if 6 < (v.extractLsb' 0 4).toNat || v.extractLsb' 4 12 ≠ 0 || v.extractLsb' 32 32 ≠ 0 || n = 0 || 4095 < n then illegal
  let r ← op n b (v.extractLsb' 16 16).toNat
  wrS d { v := BitVec.ofNat 64 r } interlocked

/-- The bound barrier of S's context, which an operation admits. -/
def boundAs (n : Nat) (ok : Barrier → Bool) : W Barrier := do
  match (← get).barrier (← getC).lastCtx n with
  | none => illegal
  | some b => if ok b then return b else illegal

/-- ARRIVE (R379, R380, R382): it counts once the release set is complete at group scope. DESIGN CHOICE (notes/assumptions/107.md). -/
def barvArrive (n : Nat) (_ : BitVec 64) (p : Nat) : W Nat := do
  let b ← boundAs n (fun b => !b.whistle && (if b.group = 0xFFFF then decide (p < b.parties) else p == 0))
  drainGroup
  let b ← boundAs n (fun _ => true)
  let who := if b.group = 0xFFFF then p else b.me
  if b.state = 3 then return b.seq
  let now := b.expected.contains who && !b.arrived.contains who
  waitFor (now || !b.isAhead (b.seq + 1) who)
  let i := if now then b.seq else b.seq + 1
  tellArrival b i
  keepBarrier (b.arrive who i).settle
  return i

/-- An operation on a party of a package-local group barrier. -/
def localParty (n p : Nat) : W Barrier := boundAs n (fun b => !b.whistle && b.group = 0xFFFF && decide (p < b.parties))

/-- WITHDRAW. -/
def barvWithdraw (n : Nat) (_ : BitVec 64) (p : Nat) : W Nat := do
  let b ← localParty n p
  keepBarrier (b.withdraw p).settle
  return b.withdrawnFrom p

/-- JOIN. -/
def barvJoin (n : Nat) (_ : BitVec 64) (p : Nat) : W Nat := do
  let b ← localParty n p
  keepBarrier (b.join p)
  return if b.state = 3 || b.expected.contains p then b.seq else b.seq + 1

/-- BIND. -/
def barvBind (n : Nat) (sb : BitVec 64) (p : Nat) : W Nat := do
  let ctx := (← getC).lastCtx
  if p ≠ 0 || ((← get).barrier ctx n).isSome then illegal
  if sb.extractLsb' 0 6 ≠ 0 then trap cALIGN sb
  let v := leNat (← sRecord sb.toNat 64)
  let s ← get
  if s.blockBad ctx n v then trap cILLEGAL sb
  if barrierLimit ≤ s.barriers.length then trap cBUDGET ((← getC).region.setWidth 64)
  let b := s.newBarrier ctx n sb.toNat (← getC).region.toNat v
  set { s with barriers := s.barriers ++ [b], barrierNext := s.barrierNext + 1 }
  b.publish b.state
  return 0

/-- UNBIND. -/
def barvUnbind (n : Nat) (_ : BitVec 64) (p : Nat) : W Nat := do
  let s ← get
  let b ← boundAs n (fun b => p = 0 && !(b.whistle && (b.state = 5 || s.pins.any (fun q => q.ctx == b.ctx && q.whistle == b.num))))
  unbindBarrier b
  return b.seq

/-- REARM. -/
def barvRearm (n : Nat) (_ : BitVec 64) (p : Nat) : W Nat := do
  let b ← boundAs n (fun b => b.whistle && p = 0)
  if b.state = 6 then keepBarrier ({ b with state := 4, count := 0, cause := 0 }).settle
  return b.seq + 1

/-- ABANDON. -/
def barvAbandon (n : Nat) (_ : BitVec 64) (p : Nat) : W Nat := do
  let b ← boundAs n (fun b => !b.whistle && p = 0)
  keepBarrier b.abandon
  return b.seq

def execBarvArrive (s : State) : Host.Outcome State Fault Refusal := plain (barvWord barvArrive) s
def execBarvWithdraw (s : State) : Host.Outcome State Fault Refusal := plain (barvWord barvWithdraw) s
def execBarvJoin (s : State) : Host.Outcome State Fault Refusal := plain (barvWord barvJoin) s
def execBarvBind (s : State) : Host.Outcome State Fault Refusal := plain (barvWord barvBind) s
def execBarvUnbind (s : State) : Host.Outcome State Fault Refusal := plain (barvWord barvUnbind) s
def execBarvRearm (s : State) : Host.Outcome State Fault Refusal := plain (barvWord barvRearm) s
def execBarvAbandon (s : State) : Host.Outcome State Fault Refusal := plain (barvWord barvAbandon) s

/-! ## BARW, VPIN, VUNPIN -/

/-- Ends a BARW: a withheld round traps; else the result, and the acquire. -/
def barwDone (d : BitVec 6) (addr r : Nat) : W Unit := do
  if r = 2 then trap cBUCKET (word64 addr)
  acquireS
  wrS d { v := BitVec.ofNat 64 r } interlocked

/-- BARW (R392): a wait on a binding that ends returns 1. -/
def barwBody (d a b : BitVec 6) : W Unit := do
  let n := (← rdClean a).toNat
  let i := (← rdClean b).toNat
  let t ← getE
  match t.barw with
  | some w =>
    match w.res with
    | some r => barwDone d w.addr r
    | none => stall
  | none =>
    if n = 0 || 4095 < n then illegal
    match (← get).barrier (← getC).lastCtx n with
    | none => illegal
    | some x =>
      match x.waited i with
      | some r => barwDone d x.addr r
      | none =>
        putE { t with barw := some { id := x.id, i := i, addr := x.addr } }
        stall
def execBarw (d a b : BitVec 6) (s : State) : Host.Outcome State Fault Refusal := plain (barwBody d a b) s

/-- Pins of the core at hand. -/
def State.corePins (s : State) (c : Nat) : List Pin := s.pins.filter (fun p => p.owner == PinOwner.core c)

/-- VPIN (R387, R393). -/
def vpinBody (d a : BitVec 6) : W Unit := do
  let n := (← rdClean a).toNat
  let s ← get
  let c := s.cur.core
  let ctx := (s.core c).lastCtx
  if n = 0 || 255 < n then illegal
  match s.barrier ctx n with
  | none => illegal
  | some b =>
    let mine := s.corePins c
    if !b.whistle || 8 ≤ mine.length || mine.any (fun p => p.whistle == n) then illegal
    let p : Pin := { ctx := ctx, whistle := n, round := b.seq, owner := .core c }
    set { s with pins := s.pins ++ [p] }
    acquireS
    wrS d { v := BitVec.ofNat 64 b.seq } interlocked
def execVpin (d a : BitVec 6) (s : State) : Host.Outcome State Fault Refusal := plain (vpinBody d a) s

/-- VUNPIN (R394): the core's reads that are under way complete first. -/
def vunpinBody (a : BitVec 6) : W Unit := do
  let n := (← rdClean a).toNat
  let s ← get
  let c := s.cur.core
  if n = 0 || 255 < n || !(s.corePins c).any (fun p => p.whistle == n) then illegal
  waitFor (!s.flights.any (fun f => f.core == c && f.mode == .r && f.fp.isNone))
  set { s with pins := s.pins.filter (fun p => !(p.owner == PinOwner.core c && p.whistle == n)) }
def execVunpin (a : BitVec 6) (s : State) : Host.Outcome State Fault Refusal := plain (vunpinBody a) s

/-- Releases every pin of an owner (R388). -/
def State.dropPins (s : State) (o : PinOwner) : State := { s with pins := s.pins.filter (fun p => p.owner != o) }

end Sys2Proof.Machine
end

