-- ==== Sys2Proof/Machine/Buckets.lean ====
section
/-!
DEFINITION. Buckets (R337 to R353): accumulate-writes outside and inside them, the three orders, removal, completion and
poisoning, and the words BKARM and BKQRY.
-/
namespace Sys2Proof.Machine

/-! ## Cards under way -/

/-- Notes the fault that ends a running card (R274): CARD_FAULT completes it. -/
def State.faultCard (s : State) (r : CardRef) (f : Bad) : State :=
  match r with
  | .x c t => s.onCore c (fun k => { k with cards := k.cards.map (fun x => if x.ticket = t then { x with fault := some f } else x) })
  | .hub id => { s with hub := s.hub.map (fun h => if h.1 = id then (h.1, { h.2 with fault := some f }) else h) }
  | .remote p x => { s with remoteIn := s.remoteIn.map (fun r => if r.spkg = p && r.xid = x then { r with fault := some f } else r) }

/-! ## Buckets as records -/

def State.bucket (s : State) (id : Nat) : Option Bucket := lookup id s.buckets

/-- Elements of a full chunk, and of chunk `j`. -/
def Bucket.ec (b : Bucket) : Nat := 16 * 2 ^ b.csz
def Bucket.chunkLen (b : Bucket) (j : Nat) : Nat := Nat.min b.ec (b.elems - b.ec * j)
def Bucket.chunk (b : Bucket) (j : Nat) : ChunkRec := b.chunks.getD j {}
def Bucket.setChunk (b : Bucket) (j : Nat) (r : ChunkRec) : Bucket := { b with chunks := b.chunks.set j r }
def Bucket.ce (b : Bucket) (j : Nat) : Nat := b.ces.getD j 0

/-- ARMED or FILLING. -/
def Bucket.open_ (b : Bucket) : Bool := b.state == 1 || b.state == 2

/-- The CE that serves a physical address in HBM (R292). -/
def ceAt (pa : Nat) : Nat := pa / stackSpan * 32 + pa % stackSpan / 2048 % 32

/-- The fields of the header that the device writes: STATE, PCAUSE, POFF. -/
def Bucket.header (b : Bucket) : Nat × Nat × Nat := (b.state, b.pcause.toNat, b.poff.toNat)

def Bucket.own (b : Bucket) : Own := { ctx := b.ctx, region := b.region, node := b.node, gen := b.gen }

/-- Writes STATE of a bucket header, and leaves what else stands in its byte (R337). -/
def writeState (o : Own) (hdr st : Nat) : W Unit := do
  let was := match ← readMem (hubPath o.ctx) hdr 1 with
    | .ok b => leNat b
    | .error _ => 0
  noteRecs o.ctx [(hdr, 64)]
  hubWriteN o hdr 1 (was / 16 * 16 + st)

/-- Writes the header fields of a bucket that differ from what they were (R337). -/
def writeHeader (b : Bucket) (old : Option Bucket) : W Unit := do
  let was := old.map (·.header)
  if was.map (·.1) ≠ some b.header.1 then writeState b.own b.hdr b.header.1
  if was.map (·.2.1) ≠ some b.header.2.1 then hubWriteN b.own (b.hdr + 14) 1 b.header.2.1
  if was.map (·.2.2) ≠ some b.header.2.2 then hubWriteN b.own (b.hdr + 0x3C) 4 b.header.2.2

/-- Holds a bucket's new state. -/
def keepBucket (id : Nat) (b : Bucket) : W Unit := do
  let old := (← get).bucket id
  modify (fun s => { s with buckets := s.buckets.map (fun x => if x.1 = id then (id, b) else x) })
  writeHeader b old

/-- Releases a bucket's footprint. -/
def releaseBucket (id : Nat) : W Unit := do
  match (← get).bucket id with
  | none => pure ()
  | some b =>
    releaseFps b.fps
    modify (fun s => { s with buckets := s.buckets.map (fun x => if x.1 = id then (id, { x.2 with fps := [] }) else x) })

/-! ## Orders (R345) -/

/-- round(fp32, x + y, RNE), as R342 adds. -/
def addF32 (x y : BitVec 32) : BitVec 32 := (FP.add (f32 x) (f32 y)).toF32.v
def addVals (xs ys : List (BitVec 32)) : List (BitVec 32) := (xs.zip ys).map (fun p => addF32 p.1 p.2)

/-- Whether rank `r` of the chunk gives EMPTY for good: removed before it arrived, or beyond EXP. -/
def ChunkRec.empty (c : ChunkRec) (exp r : Nat) : Bool := decide (exp ≤ r) || (c.removed.contains r && !c.accepted.contains r)

/-- Levels of the tree: P = 2^levels is the smallest power of two not below EXP. -/
def treeLevels (exp : Nat) : Nat := (List.range 17).find? (fun l => decide (exp ≤ 2 ^ l)) |>.getD 16

/-- Whether every leaf below node (l, i) is EMPTY for good. -/
def ChunkRec.emptyNode (c : ChunkRec) (exp l i : Nat) : Bool := (List.range (2 ^ l)).all (fun k => c.empty exp (i * 2 ^ l + k))

/-- The held value of a node. -/
def ChunkRec.heldAt (c : ChunkRec) (l i : Nat) : Option (List (BitVec 32)) := (c.held.find? (fun h => h.1 == l && h.2.1 == i)).map (·.2.2)

/-- The sibling of a node. -/
def sibling (i : Nat) : Nat := if i % 2 = 0 then i + 1 else i - 1

/-- RANK: ranks that never come are passed over. -/
def ChunkRec.skip (c : ChunkRec) (exp : Nat) : Nat → ChunkRec
  | 0 => c
  | n + 1 => if c.next < exp && c.empty exp c.next then ({ c with next := c.next + 1 } : ChunkRec).skip exp n else c

/-- What a CE can do next with the held values of a chunk. -/
inductive ChunkMove where
  | none
  /-- RANK: the value of `next` is added to the area, or starts it. -/
  | apply (vals : List (BitVec 32)) (first : Bool) (c : ChunkRec)
  /-- TREE: a node is formed. -/
  | form (c : ChunkRec)
  deriving DecidableEq, Repr, Inhabited

/-- TREE: a held node whose sibling subtree is final moves up, combined with it in index order. -/
def ChunkRec.formFrom (c : ChunkRec) (exp : Nat) : List (Nat × Nat × List (BitVec 32)) → ChunkMove
  | [] => .none
  | (l, i, v) :: r =>
    if l = treeLevels exp then .apply v true { c with held := [], begun := true }
    else
      let j := sibling i
      match c.heldAt l j with
      | some w =>
        let sum := if i < j then addVals v w else addVals w v
        .form { c with held := c.held.filter (fun h => !(h.1 == l && (h.2.1 == i || h.2.1 == j))) ++ [(l + 1, i / 2, sum)] }
      | none =>
        if c.emptyNode exp l j then
          .form { c with held := c.held.filter (fun h => !(h.1 == l && h.2.1 == i)) ++ [(l + 1, i / 2, v)] }
        else c.formFrom exp r

/-- The next move of a chunk. -/
def Bucket.move (b : Bucket) (j : Nat) : ChunkMove :=
  let c := b.chunk j
  if b.stopped.contains (b.ce j) then .none
  else if b.order = 1 then
    let c := c.skip b.exp b.exp
    match c.heldAt 0 c.next with
    | some v => .apply v (!c.begun) { c with held := c.held.filter (fun h => h.2.1 != c.next), next := c.next + 1, begun := true }
    | none => .none
  else c.formFrom b.exp c.held

/-- R348: every rank of the chunk is kept and applied, or removed. -/
def Bucket.chunkDone (b : Bucket) (j : Nat) : Bool :=
  let c := b.chunk j
  let all := (List.range b.exp).all (fun r => c.accepted.contains r || c.removed.contains r)
  if b.order = 1 then decide ((c.skip b.exp b.exp).next = b.exp)
  else if b.order = 2 then all && c.held.isEmpty
  else all

/-! ## Writing the area -/

/-- How a CE writes a run of elements: added to memory; as the first values that arrive, which read the sector too (R488); or as
zeros of its own. -/
inductive AreaUse where
  | add | first | zero
  deriving DecidableEq, Repr, Inhabited

/-- The elements of one sector, from `addr` up: added to memory, or written over it. -/
def areaSector (p : Path) (addr : Nat) (vals : List (BitVec 32)) (use : AreaUse) : W (Except Bad Unit) := do
  let bytes := fun (l : List (BitVec 32)) => l.flatMap (fun v => leBytes 4 v.toNat)
  if use != .zero then walkTurn p.ids p.ctx addr (4 * vals.length)
  match ← xlate p.ids p.ctx addr .acc with
  | .error e => return .error e
  | .ok l =>
    if use == .add then
      let words := fun (b : List Byte) => (List.range vals.length).map (fun i => BitVec.ofNat 32 (leNat ((b.drop (4 * i)).take 4)))
      match ← modifyLeaf p l addr (4 * vals.length) (fun b => bytes (addVals (words b) vals)) with
      | .error e => return .error e
      | .ok _ => return .ok ()
    else if use == .first && (← get).isUncorr (l.pa addr) then return .error (cUNCORR, word64 (l.pa addr))
    else writeLeaf p l addr (bytes vals)

/-- Elements from `addr` up to the end of its sector. -/
def sectorElems (addr : Nat) : Nat := (64 - addr % 64) / 4

/-- A run of elements, sector by sector; a failure says at which address. -/
def areaRun (p : Path) (use : AreaUse) : Nat → Nat → List (BitVec 32) → W (Option (Nat × Bad))
  | 0, _, _ => return none
  | fuel + 1, addr, vals => do
    if vals.isEmpty then return none
    let m := sectorElems addr
    match ← areaSector p addr (vals.take m) use with
    | .error e => return some (addr, e)
    | .ok _ => areaRun p use fuel (addr + 4 * m) (vals.drop m)

/-! ## Poisoning and completion (R349 to R351) -/

/-- A POISONED bucket gives up its footprint once no CE applies or runs anything for it. -/
def settlePoison (id : Nat) : W Unit := do
  match (← get).bucket id with
  | none => pure ()
  | some b =>
    let busy := (List.range b.chunks.length).any (fun j => b.move j != .none)
    if b.state = 6 && !busy && b.launch.isNone then releaseBucket id

/-- A bucket becomes POISONED; POFF is the lowest of the offsets given. -/
def poisonBucket (id : Nat) (cause : BitVec 8) (poff : Option Nat) (rep : Cause) : W Unit := do
  match (← get).bucket id with
  | none => pure ()
  | some b =>
    let poff := match poff with
      | some o => if o < b.poff.toNat then BitVec.ofNat 32 o else b.poff
      | none => b.poff
    if b.state = 6 then keepBucket id { b with poff := poff }
    else
      keepBucket id { b with state := 6, pcause := cause, charged := false, poff := poff }
      withholdRound b.ctx b.whistle b.step.toNat cause
    postCause b.ctx b.region rep
    settlePoison id

/-- A CE's poisoning: its record has SRC 5 and no node; DETAIL is the header, or the physical address. -/
def Bucket.ceCause (b : Bucket) (ce : Nat) (cause : BitVec 8) (detail : BitVec 64) : Cause :=
  ({ b.own with node := 0xFFFFFFFF } : Own).cause 5 ce cause (if cause = cUNCORR then detail else word64 b.hdr)

/-- Every chunk is complete: COMPLETE, and R349's first part or the launch's request. -/
def checkComplete (id : Nat) : W Unit := do
  match (← get).bucket id with
  | none => pure ()
  | some b =>
    if b.open_ && (List.range b.chunks.length).all b.chunkDone then
      if b.skh = 0 then
        keepBucket id { b with state := 3, charged := false }
        releaseBucket id
      else
        keepBucket id { b with state := 3 }
        let q : LaunchReq := { ctx := b.ctx, src := .bucket id, handle := b.skh, param := 0 }
        modify (fun s => { s with skReqs := s.skReqs ++ [q] })

/-- Applies values to a chunk; an uncorrectable error stops the CE and poisons the bucket (R350). Whether they are applied. -/
def applyChunk (id j : Nat) (vals : List (BitVec 32)) (use : AreaUse) : W Bool := do
  match (← get).bucket id with
  | none => return false
  | some b =>
    let base := b.area + 4 * b.ec * j
    match ← areaRun (basePath b.ctx b.stack) use (b.ec / 16 + 1) base vals with
    | none => return true
    | some (a, (c, d)) =>
      let b := { b with stopped := b.stopped ++ [b.ce j] }
      keepBucket id b
      poisonBucket id c (if c = cUNCORR then some ((a / 64 * 64 - b.area) / 4) else none) (b.ceCause (b.ce j) c d)
      return false

/-- A chunk whose last rank is settled is complete (R348); one that nothing was applied to holds +0 (R345). A CE that has
stopped completes no more. -/
def finishChunk (id j : Nat) : W Unit := do
  match (← get).bucket id with
  | none => pure ()
  | some b =>
    let c := b.chunk j
    if b.chunkDone j && !c.done && !b.stopped.contains (b.ce j) then
      let ok ← if b.order ≠ 0 && !c.begun then applyChunk id j (List.replicate (b.chunkLen j) 0) .zero else pure true
      if ok then keepBucket id (b.setChunk j { c with done := true })

/-- Makes a move of a chunk. -/
def makeMove (id j : Nat) (m : ChunkMove) : W Unit := do
  match (← get).bucket id with
  | none => pure ()
  | some b =>
    match m with
    | .none => pure ()
    | .form c => keepBucket id (b.setChunk j c)
    | .apply v first c =>
      keepBucket id (b.setChunk j c)
      discard (applyChunk id j v (if first then .first else .add))
    finishChunk id j
    checkComplete id
    settlePoison id

/-- HELD_ARRIVAL_APPLY: chunk `arg 1` of bucket `arg 0` has a held arrival whose turn has come. -/
def heldArrivalApply : W Unit := do
  let id ← arg 0
  let j ← arg 1
  match (← get).bucket id with
  | none => stall
  | some b =>
    let m := b.move j
    waitFor (decide (j < b.chunks.length) && m != .none && (b.open_ || b.state == 6))
    makeMove id j m
def execHeldArrivalApply (s : State) : Host.Outcome State Fault Refusal := event heldArrivalApply s

/-! ## Arrivals (R341 to R346) -/

/-- Bytes of a CE's held area, and the bytes held in it now (R339, R346). -/
def heldBytes : Nat := 384 * 1024
def State.heldIn (s : State) (ce : Nat) : Nat :=
  (s.buckets.map (fun x => ((List.range x.2.chunks.length).map (fun j =>
    if x.2.ce j = ce then 4 * x.2.ec * (x.2.chunk j).held.length else 0)).sum)).sum

/-- The registered bucket of a context whose area holds an address. -/
def State.bucketAt (s : State) (ctx : BitVec 8) (a : Nat) : Option (Nat × Bucket) :=
  s.buckets.find? (fun b => b.2.ctx == ctx && decide (b.2.area ≤ a) && decide (a < b.2.area + 4 * b.2.elems))

/-- What a CE does with a chunk of `n` values in all, `vals` of them at hand (Table 12.3, R344). -/
inductive Verdict where
  | refuse
  | waits
  | duplicate
  | discard
  | take (rank : Option Nat)
  deriving DecidableEq, Repr, Inhabited

/-- DEDUCED (notes/assumptions/55.md). -/
def Bucket.judge (b : Bucket) (a n have_ : Nat) (rank : Option Nat) (tag : Option (BitVec 32)) : Verdict :=
  let j := (a - b.area) / (4 * b.ec)
  let m := b.chunkLen j
  let c := b.chunk j
  let rank := if b.order = 0 then rank.filter (fun r => decide (r < b.exp)) else rank
  if (a - b.area) % (4 * b.ec) ≠ 0 || n < m || (j + 1 = b.chunks.length && m < n) then .refuse
  else if b.order ≠ 0 && (rank.isNone || decide (b.exp ≤ rank.getD 0)) then .refuse
  else if tag.any (fun t => t != b.ggen) then .refuse
  else if rank.any (fun r => c.accepted.contains r) then (if have_ < m then .waits else .duplicate)
  else if rank.any (fun r => c.removed.contains r) || b.state = 3 || b.state = 4 || b.state = 5 then .refuse
  else if have_ < m then .waits
  else if b.state = 6 then .discard
  else .take rank

/-- Whether a RANK or TREE arrival adds nothing to the held area (R346). -/
def Bucket.direct (b : Bucket) (j r : Nat) : Bool :=
  let c := b.chunk j
  if b.order = 1 then decide ((c.skip b.exp b.exp).next = r)
  else (c.heldAt 0 (sibling r)).isSome || c.emptyNode b.exp 0 (sibling r) || treeLevels b.exp = 0

/-- Accepts a chunk (R345). DEDUCED (notes/assumptions/55.md). -/
def takeChunk (id j : Nat) (b : Bucket) (rank : Option Nat) (vals : List (BitVec 32)) : W Unit := do
  let c := b.chunk j
  let b := { b with state := 2 }
  match rank with
  | none =>
    keepBucket id b
    discard (applyChunk id j vals .add)
  | some r =>
    let c := { c with accepted := c.accepted ++ [r] }
    if b.order = 0 then
      keepBucket id (b.setChunk j c)
      discard (applyChunk id j vals .add)
      finishChunk id j
      checkComplete id
    else
      let now := b.direct j r
      let b := b.setChunk j { c with held := c.held ++ [(0, r, vals)] }
      keepBucket id b
      if now then makeMove id j (b.move j)

/-- Handles the leading piece of a run of accumulate-writes: the whole leading chunk of a bucket, or the elements of one
sector outside. Gives how many values it used, or the fault. -/
def accPiece (p : Path) (ctx : BitVec 8) (a : Nat) (vals : List (BitVec 32)) (more : Nat) (rank : Option Nat) (tag : Option (BitVec 32)) :
    W (Except Bad Nat) := do
  let s ← get
  match s.bucketAt ctx a with
  | some (id, b) =>
    let j := (a - b.area) / (4 * b.ec)
    let m := b.chunkLen j
    match b.judge a (vals.length + more) vals.length rank tag with
    | .refuse => return .error (cBUCKET, word64 b.hdr)
    | .waits => stall
    | .duplicate => keepBucket id { b with dup := Nat.min 4095 (b.dup + 1) }; return .ok m
    | .discard => return .ok m
    | .take r =>
      match r with
      | some q => waitFor (b.order == 0 || b.direct j q || decide (s.heldIn (b.ce j) + 4 * b.ec ≤ heldBytes))
      | none => pure ()
      takeChunk id j b r (vals.take m)
      return .ok m
  | none =>
    waitFor (!vals.isEmpty)
    let next := s.buckets.foldl (fun m x => if x.2.ctx = ctx && a < x.2.area then Nat.min m ((x.2.area - a) / 4) else m) (sectorElems a)
    let n := Nat.min vals.length (Nat.max 1 next)
    match ← areaSector p a (vals.take n) .add with
    | .error e => return .error e
    | .ok _ => return .ok n

/-- The end of a remote card at its receiver (R449): every byte and chunk has been taken, or it has failed; its
footprint is released and the sender told. A failed one first hands on the chunks that have arrived whole (R343), and stays until
the rest of its data has been thrown away. -/
def settleRemote (spkg xid : Nat) : W Unit := do
  let s ← get
  match s.remoteIn.find? (fun r => r.spkg == spkg && r.xid == xid) with
  | none => pure ()
  | some r =>
    let me := fun (x : RemoteIn) => x.spkg == spkg && x.xid == xid
    let mine := CardRef.remote spkg xid
    let drop : W Unit := modify (fun s => { s with remoteIn := s.remoteIn.filter (fun x => !me x) })
    match r.fault with
    | some (c, _) =>
      if s.accIn.any (fun q => q.src == mine) then
        modify (fun s => { s with accIn := s.accIn.map (fun q => if q.src = mine then { q with cut := true } else q) })
      else
        releaseFps r.fps
        modify (fun s => { s with remoteIn := s.remoteIn.map (fun x => if me x then { x with told := true, fps := [] } else x) })
        if !r.told then source fREPORT spkg xid 0 [0, c.toNat, r.off]
        if r.left = 0 then drop
    | none =>
      if r.left = 0 && !s.accIn.any (fun q => q.src == mine) then
        releaseFps r.fps
        drop
        source fREPORT spkg xid 0 [0, 0, 0]

/-- How a card's accumulate-writes translate: through its core's caches, or the hub's (Table 10.6). -/
def State.accPath (s : State) (ctx : BitVec 8) : CardRef → Path
  | .x c t => s.jobPath c t
  | _ => hubPath ctx

/-- Whether nothing whole is left of what a card that has ended was sending: it is discarded at the CE (R341, R468). -/
def State.brokenOff (s : State) (q : AccChunk) : Bool :=
  q.cut && (match s.bucketAt q.ctx q.addr with
    | some (_, b) => decide (q.vals.length < b.chunkLen ((q.addr - b.area) / (4 * b.ec)))
    | none => q.vals.isEmpty)

/-- ACC_CHUNK_ARRIVE: item `arg 0` of what cards send to CEs. A refusal or fault ends the card, and the rest of its run. -/
def accChunkArrive : W Unit := do
  let i ← arg 0
  match (← get).accIn[i]? with
  | none => stall
  | some q =>
    if (← get).brokenOff q then modify (fun s => { s with accIn := s.accIn.eraseIdx i })
    else
      match ← accPiece ((← get).accPath q.ctx q.src) q.ctx q.addr q.vals q.more q.rank q.tag with
      | .error e => modify (fun s => ({ s with accIn := s.accIn.filter (fun x => x.src != q.src) }).faultCard q.src e)
      | .ok n =>
        let rest : AccChunk := { q with addr := q.addr + 4 * n, vals := q.vals.drop n }
        modify (fun s => { s with accIn := if rest.vals.isEmpty && (rest.more = 0 || rest.cut) then s.accIn.eraseIdx i else s.accIn.set i rest })
    match q.src with
    | .remote p x => settleRemote p x
    | _ => pure ()
def execAccChunkArrive (s : State) : Host.Outcome State Fault Refusal := event accChunkArrive s

/-- A run of accumulate-writes that a stream or a subscription makes, all of it now (R190, R343). -/
def accNow (p : Path) : Nat → Nat → List (BitVec 32) → W (Except Bad Unit)
  | 0, _, _ => return .ok ()
  | fuel + 1, a, vals => do
    if vals.isEmpty then return .ok ()
    match ← accPiece p p.ctx a vals 0 none none with
    | .error e => return .error e
    | .ok n => accNow p fuel (a + 4 * n) (vals.drop n)

/-! ## Removal, DISARM, cancellation (R347) -/

/-- A removal reaches every chunk. -/
def removeRank (id r : Nat) : W Unit := do
  match (← get).bucket id with
  | none => pure ()
  | some b =>
    if b.open_ && decide (r < b.exp) then
      let hit := fun (c : ChunkRec) => !c.accepted.contains r && !c.removed.contains r
      keepBucket id { b with
        state := if b.chunks.any hit then 2 else b.state
        chunks := b.chunks.map (fun c => if hit c then { c with removed := c.removed ++ [r] } else c) }
      for j in List.range b.chunks.length do finishChunk id j
      checkComplete id

/-- A launch that ends before its time (R370): one not yet accepted is dropped, its wait withdrawn; a running one stops. -/
def State.stopLaunch (s : State) (src : LaunchSrc) : State :=
  let ids := (s.skReqs.filter (fun q => q.src == src)).filterMap (·.id)
  { s with
    skReqs := s.skReqs.filter (fun q => q.src != src)
    fpWait := s.fpWait.filter (fun w => !ids.any (fun i => w.who == .owner (.launch i)))
    launches := s.launches.map (fun l => if l.2.src = src then (l.1, { l.2 with cancelled := true }) else l) }

/-- Drops a bucket's registration and records, stops its launch, releases its footprint and credits its budget. -/
def dropBucket (id : Nat) : W Unit := do
  releaseBucket id
  modify (fun s => { (s.stopLaunch (.bucket id)) with buckets := erase id s.buckets })

/-- Table 12.2's way to IDLE. -/
def disarmBucket (id : Nat) : W Unit := do
  match (← get).bucket id with
  | none => pure ()
  | some b =>
    if b.state ≠ 5 then keepBucket id { b with state := 0 }
    dropBucket id

/-- A contribution that will not come (R347): the open buckets of a context that [a, a + n) overlaps, of generation
`tag` if given, are POISONED with CANCELLED. -/
def cancelContribution (ctx : BitVec 8) (a n : Nat) (tag : Option (BitVec 32)) (node : BitVec 32) : W Unit := do
  for x in (← get).buckets.filter (fun x => x.2.ctx == ctx && x.2.open_ && overlaps a n x.2.area (4 * x.2.elems) &&
      tag.all (fun t => t == x.2.ggen)) do
    poisonBucket x.1 cCANCELLED none (({ x.2.own with node := node } : Own).cause 7 0 cCANCELLED (word64 x.2.hdr))

/-! ## BKARM (R352) -/

/-- The leaves of a range of pages, for the checks of ARM. -/
def leavesOf (ctx : BitVec 8) : Nat → Nat → Nat → W (Except Bad (List Leaf))
  | 0, _, _ => return .ok []
  | fuel + 1, a, e => do
    if e ≤ a then return .ok []
    match ← xlate [.hub] ctx a .read with
    | .error x => return .error x
    | .ok l =>
      match ← leavesOf ctx fuel (l.vbase + l.size) e with
      | .error x => return .error x
      | .ok r => return .ok (l :: r)

/-- Whether BKARM or BKQRY may read the header: poison, the operation, alignment; then its 64 bytes as a number. -/
def headerAt (a : BitVec 64) : W Nat := do
  if a.extractLsb' 0 6 ≠ 0 then trap cALIGN a
  return leNat (← sRecord a.toNat 64)

/-- What ARM refuses in a header with ILLEGAL. -/
def headerBad (v : Nat) (zero : Bool) : Bool :=
  let f := fieldOf v
  f 0 11 9 != 0 || f 8 63 56 != 0 || f 0x10 63 56 != 0 || f 0x20 63 56 != 0 || f 0 5 4 == 3 || decide (5 < f 0 8 6) || f 0 31 16 == 0 ||
  f 0x38 31 12 != 0 || f 8 31 0 == 0 || decide (6 < f 0 15 12) || f 0x10 55 0 % (64 * 2 ^ f 0 8 6) != 0 || (zero && f 0 5 4 != 0)

/-- The graph whose node a core's kernel serves. -/
def State.graphOf (s : State) (c : Nat) : Option Nat :=
  match (s.core c).gang with
  | none => none
  | some g => match lookup g s.gangs with
    | none => none
    | some k => match lookup k.card s.hub with
      | none => none
      | some h => h.node.map (·.graph)

/-- The bucket a header describes. -/
def bucketOf (ctx : BitVec 8) (k : Core) (graph : Option Nat) (hdr v stack : Nat) (ces : List Nat) : Bucket :=
  let f := fieldOf v
  { ctx := ctx, hdr := hdr, region := k.region.toNat, node := k.node, gen := k.gen, graph := graph, order := f 0 5 4, csz := f 0 8 6,
    ofmt := f 0 15 12, exp := f 0 31 16, ggen := BitVec.ofNat 32 (f 0 63 32), elems := f 8 31 0, group := BitVec.ofNat 16 (f 8 47 32),
    area := f 0x10 55 0, step := BitVec.ofNat 64 (f 0x18 63 0), vtgt := f 0x20 55 0, seed := BitVec.ofNat 64 (f 0x28 63 0),
    skh := BitVec.ofNat 64 (f 0x30 63 0), whistle := BitVec.ofNat 32 (f 0x38 31 0), stack := stack, ces := ces,
    chunks := List.replicate ces.length {} }

/-- The physical address of an address within one of a list of leaves. -/
def paIn (ls : List Leaf) (a : Nat) : Nat := ((ls.find? (fun l => decide (l.vbase ≤ a) && decide (a < l.vbase + l.size))).map (·.pa a)).getD 0

/-- ARM. -/
def armBucket (hdr v : Nat) (zero : Bool) : W Unit := do
  let s ← get
  let k ← getC
  let ctx := k.lastCtx
  let f := fieldOf v
  let area := f 0x10 55 0
  let len := 4 * f 8 31 0
  let ec := 16 * 2 ^ f 0 8 6
  let n := (f 8 31 0 + ec - 1) / ec
  let own := (k.region.setWidth 64 : BitVec 64)
  let ls ← orTrap (← leavesOf ctx (len / 0x10000 + 2) area (area + len))
  let hl ← orTrap (← xlateWord .S hdr .read)
  match (hl :: ls).find? (fun l => l.kind != 0 || !l.w || decide (12 * stackSpan ≤ l.frame)) with
  | some l => trap cPROT (word64 (if l == hl then hdr else Nat.max area l.vbase))
  | none => pure ()
  let stack := hl.frame / stackSpan
  if ls.any (fun l => l.frame / stackSpan != stack) then trap cBUCKET (word64 hdr)
  if 8192 * 32 < n then trap cBUDGET own
  let ces := (List.range n).map (fun j => ceAt (paIn ls (area + 4 * ec * j)))
  if (List.range 32).any (fun g => decide (8192 < ces.count (stack * 32 + g))) then trap cBUDGET own
  if (s.ctx ctx).bucketsEff k.region.toNat = 0 then trap cBUDGET own
  let old := (s.buckets.find? (fun x => x.2.ctx == ctx && x.2.hdr == hdr)).map (·.1)
  let others := s.buckets.filter (fun x => some x.1 != old)
  waitFor (({ s with buckets := others } : State).bucketFits ctx k.region.toNat &&
    decide ((others.filter (fun x => x.2.stack == stack)).length < 1024) &&
    (List.range 32).all (fun g => decide ((others.map (fun x => x.2.ces.count (stack * 32 + g))).sum + ces.count (stack * 32 + g) ≤ 8192)))
  let id := s.bucketNext
  let who := Who.eng s.cur.core s.cur.eng
  match old with
  | some o => match s.bucket o with
    | some b => modify (fun s => { s with fps := s.fps.map (fun x => if b.fps.contains x.id then { x with owner := .bucket id } else x) })
    | none => pure ()
  | none => pure ()
  match ← enterFps who (.bucket id) ctx k.region.toNat (rangeOf false .acc area (area + len - 1 : Nat)) false with
  | .waiting => stall
  | .bad (c, d) => trap c d
  | .entered ids =>
    match old with
    | some o => dropBucket o
    | none => pure ()
    let s ← get
    let b := { bucketOf ctx k (s.graphOf s.cur.core) hdr v stack ces with fps := ids }
    set { s with buckets := s.buckets ++ [(id, b)], bucketNext := id + 1 }
    if zero then discard (areaRun (basePath ctx stack) .zero (len / 64 + 2) area (List.replicate (len / 4) 0))
    writeHeader b none

/-- The checks of BKARM before the header is read, then the operation on the header's address and contents. -/
def bkarmWord (op : BitVec 64 → Nat → Nat → W Unit) : W Unit := do
  let a ← rdClean (← regA)
  let b ← rdClean (← regB)
  let o := (b.extractLsb' 0 2).toNat
  if o = 3 || b.extractLsb' 3 13 ≠ 0 || b.extractLsb' 32 32 ≠ 0 || (o ≠ 0 && b.getLsbD 2) then illegal
  let v ← headerAt a
  op b a.toNat v
  wrS (← regD) { v := BitVec.ofNat 64 (v % 16) } interlocked

/-- The registered bucket of a header. -/
def State.bucketOfHdr (s : State) (ctx : BitVec 8) (hdr : Nat) : Option Nat :=
  (s.buckets.find? (fun x => x.2.ctx == ctx && x.2.hdr == hdr)).map (·.1)

def bkarmArm (b : BitVec 64) (hdr v : Nat) : W Unit := do
  let old := v % 16
  if old = 1 || old = 2 || old = 4 then trap cBUCKET (word64 hdr)
  if headerBad v (b.getLsbD 2) then trap cILLEGAL (word64 hdr)
  armBucket hdr v (b.getLsbD 2)

def bkarmDisarm (_ : BitVec 64) (hdr v : Nat) : W Unit := do
  let old := v % 16
  if old = 4 then trap cBUCKET (word64 hdr)
  if old ≠ 0 then
    match (← get).bucketOfHdr (← getC).lastCtx hdr with
    | some id => disarmBucket id
    | none => if old ≠ 5 then writeState (← getC).own hdr 0

def bkarmRemove (b : BitVec 64) (hdr v : Nat) : W Unit := do
  let old := v % 16
  if old ≠ 1 && old ≠ 2 then trap cBUCKET (word64 hdr)
  let r := (b.extractLsb' 16 16).toNat
  if fieldOf v 0 31 16 ≤ r then illegal
  match (← get).bucketOfHdr (← getC).lastCtx hdr with
  | some id => removeRank id r
  | none => pure ()

def execBkarmArm (s : State) : Host.Outcome State Fault Refusal := plain (bkarmWord bkarmArm) s
def execBkarmDisarm (s : State) : Host.Outcome State Fault Refusal := plain (bkarmWord bkarmDisarm) s
def execBkarmRemove (s : State) : Host.Outcome State Fault Refusal := plain (bkarmWord bkarmRemove) s

/-- BKQRY (R353). -/
def bkqryBody (d a : BitVec 6) : W Unit := do
  let hdr ← rdClean a
  let v ← headerAt hdr
  let s ← get
  match s.buckets.find? (fun x => x.2.ctx == (s.core s.cur.core).lastCtx && x.2.hdr == hdr.toNat) with
  | none => wrS d { v := BitVec.ofNat 64 (v % 16) } interlocked
  | some x =>
    let b := x.2
    let done := b.chunks.filter (·.done)
    let short := done.filter (fun c => decide (c.accepted.length < b.exp))
    if b.state = 3 && b.skh = 0 then acquireS
    wrS d { v := BitVec.ofNat 64 (b.state + 16 * b.order + 256 * b.pcause.toNat + 65536 * Nat.min (2 ^ 24 - 1) done.length +
      2 ^ 40 * Nat.min 4095 short.length + 2 ^ 52 * Nat.min 4095 b.dup) } interlocked
def execBkqry (d a : BitVec 6) (s : State) : Host.Outcome State Fault Refusal := plain (bkqryBody d a) s

end Sys2Proof.Machine
end

