-- ==== Sys2Proof/Machine/Control.lean ====
section
/-!
DEFINITION. The words all engines share: NOP and EXT (R155, R156), the B words (R142 to R154), value FIFOs (R157 to
R159), semaphores (R160 to R163), and the words that are no instruction (R63, R64, R71).
-/
namespace Sys2Proof.Machine

/-! ## No instruction, NOP and EXT -/

/-- A word that is no instruction (R63, R64, R71): ILLEGAL at the executing engine's PC; an illegal B word is raised by
S, and every other engine stalls at it. -/
def execIllegalWord (s : State) : Host.Outcome State Fault Refusal :=
  if (tagOf s.cur.word).toNat = 7 ∧ s.cur.eng ≠ .S then .next s
  else .next (s.takeTrap s.cur.core s.cur.eng cILLEGAL (((s.core s.cur.core).eng s.cur.eng).pc.setWidth 64))

/-- NOP (R155). A prefix before a word without an immediate raises ILLEGAL (R70). -/
def nopBody : W Unit := pure ()
def execNop (s : State) : Host.Outcome State Fault Refusal := plain nopBody s
def execNopA (s : State) : Host.Outcome State Fault Refusal := plain nopBody s
def execNopV (s : State) : Host.Outcome State Fault Refusal := plain nopBody s
def execNopM (s : State) : Host.Outcome State Fault Refusal := plain nopBody s
def execNopX (s : State) : Host.Outcome State Fault Refusal := plain nopBody s
def execNopB (s : State) : Host.Outcome State Fault Refusal :=
  plain (do if (← getC).mon then illegal) s

/-- A prefix leaves its payload pending and takes one issue slot (R69). -/
def Core.moveExt (k : Core) (e : Engine) (p : BitVec 18) (b : Bool) : Core :=
  let t := k.eng e
  (k.setEng e { t.retire with ext := t.ext ++ [p], extB := b }).passWords e 1

/-- EXT (R69, R70): a third prefix, a prefix of another tag after one, or a prefix after a back-edge is ILLEGAL. -/
def extWord (p : BitVec 18) (b : Bool) (s : State) : Host.Outcome State Fault Refusal :=
  .next (settle s ((do
    if b && (← getC).mon then illegal
    let t ← getE
    if t.extEdge || decide (2 ≤ t.ext.length) || (!t.ext.isEmpty && t.extB != b) then illegalAs (b && t.extB)
    let s ← get
    putC ((s.core s.cur.core).moveExt s.cur.eng p b) : W Unit) s))

def execExtS (p : BitVec 18) (s : State) : Host.Outcome State Fault Refusal := extWord p false s
def execExtA (p : BitVec 18) (s : State) : Host.Outcome State Fault Refusal := extWord p false s
def execExtV (p : BitVec 18) (s : State) : Host.Outcome State Fault Refusal := extWord p false s
def execExtM (p : BitVec 18) (s : State) : Host.Outcome State Fault Refusal := extWord p false s
def execExtX (p : BitVec 18) (s : State) : Host.Outcome State Fault Refusal := extWord p false s
def execExtB (p : BitVec 18) (s : State) : Host.Outcome State Fault Refusal := extWord p true s

/-! ## Decisions (R142, R143) -/

/-- Entries of a decision FIFO (R142). -/
def decisionDepth : Nat := 32

/-- The engines that take decisions from S. -/
def followers : List Engine := [.A, .M, .V, .X]

/-- S pushes a decision into all four FIFOs in one step, and waits while any is full. In the monitor nothing is
pushed (R120), nor once a trap has emptied the FIFOs (R143). -/
def pushDecision (d : Decision) : W Unit := do
  let k ← getC
  if k.mon || k.stopReq then pure ()
  else
    waitFor (followers.all (fun e => decide ((k.eng e).decs.length < decisionDepth)))
    putC (followers.foldl (fun k e => k.setEng e { (k.eng e) with decs := (k.eng e).decs ++ [d] }) k)

/-- Another engine pops its own FIFO, and waits while it is empty. -/
def popDecision : W Decision := do
  let t ← getE
  match t.decs with
  | [] => stall
  | d :: r => putE { t with decs := r }; return d

/-- The decision of a deciding word that tests a flag (R147): S tests and pushes, the others pop. -/
def decideFlag (f : BitVec 3) : W Bool := do
  if (← get).cur.eng = .S then
    let r ← rdF f
    if r.p then trap cPOISON (f.setWidth 64)
    pushDecision (.branch r.v)
    return r.v
  else
    match ← popDecision with
    | .branch b => return b
    | .count n => return n != 0

/-! ## Control words -/

/-- The encoding of PHINT (R145). DEDUCED (notes/assumptions/16.md). -/
def phintWord : Word32 := 0xE0280000

/-- Whether address `a` holds one of the two bitmap words of a PHINT (R72): the word one or two before it is a PHINT
and no bitmap itself. DEDUCED (notes/assumptions/16.md). -/
def isBitmap (k : Core) : Nat → Bool
  | 0 => false
  | 1 => k.word 0 == phintWord
  | n + 2 => (k.word (n + 1) == phintWord && !isBitmap k (n + 1)) || (k.word n == phintWord && !isBitmap k n)

/-- R72: a transfer to a bitmap word raises ILLEGAL in S before the transfer. -/
def checkTarget (a : Nat) : W Unit := do
  if isBitmap (← getC) a then illegalB

/-- In the monitor only PB, BR, BRN, CALL and RET of the B words run (R120). -/
def notInMonitor : W Unit := do
  if (← getC).mon then illegal

/-- PB (R146): bN := the word's address plus the offset; a target outside the text is illegal (R75). -/
def pbBody (n : BitVec 2) (imm : BitVec 12) : W Flow := do
  let off ← immS imm
  let target : Int := (← getPc).toNat + off.toInt
  if target < 0 || target > 65535 then illegalB
  let t ← getE
  putE { t with b := t.b.set n.toFin (BitVec.ofInt 16 target) }
  return .seq 1
def execPb (n : BitVec 2) (imm : BitVec 12) (s : State) : Host.Outcome State Fault Refusal := runWord true (pbBody n imm) s

/-- BR and BRN (R147). A taken branch closes every open level of the current frame whose body does not contain the
target. -/
def branchBody (n : BitVec 2) (f : BitVec 3) (want : Bool) : W Flow := do
  let target := (← getE).b[n.toFin]
  if (← get).cur.eng = .S then
    let r ← rdF f
    if r.p then trap cPOISON (f.setWidth 64)
    if r.v == want then checkTarget target.toNat
  let d ← decideFlag f
  if d == want then
    let t ← getE
    putE (t.closeWhere (fun l => decide (target.toNat < l.start.toNat) || decide (l.stop.toNat < target.toNat)))
    return .goto (target.setWidth 17)
  return .seq 1
def execBr (n : BitVec 2) (f : BitVec 3) (s : State) : Host.Outcome State Fault Refusal := runWord false (branchBody n f true) s
def execBrn (n : BitVec 2) (f : BitVec 3) (s : State) : Host.Outcome State Fault Refusal := runWord false (branchBody n f false) s

/-- Entries of a return stack (R144). -/
def returnDepth : Nat := 16

/-- CALL (R148). From word 65,535 the return address is 65,536, so the RET goes past the text (R62). -/
def callBody (n : BitVec 2) : W Flow := do
  let t ← getE
  if returnDepth ≤ t.rets.length then trapB cSTACK 16
  let target := t.b[n.toFin]
  checkTarget target.toNat
  putE { t with rets := (t.pc + 1) :: t.rets }
  return .goto (target.setWidth 17)
def execCall (n : BitVec 2) (s : State) : Host.Outcome State Fault Refusal := runWord false (callBody n) s

/-- RET (R148): every open level of the current frame closes. -/
def retBody : W Flow := do
  let t ← getE
  match t.rets with
  | [] => trapB cSTACK 0
  | a :: r =>
    let t := t.closeWhere (fun _ => true)
    putE { t with rets := r }
    return .goto a
def execRet (s : State) : Host.Outcome State Fault Refusal := runWord false retBody s

/-- The common part of LOOP and LOOPI (R149) once the count is known: a count of 0 goes past the body. -/
def openLoop (n : BitVec 2) (len count : Nat) : W Flow := do
  let t ← getE
  let start := t.pc.toNat + 1
  let stop := t.pc.toNat + len
  if count = 0 then return .goto (BitVec.ofNat 17 (stop + 1))
  let l : LoopLevel := { isOpen := true, start := BitVec.ofNat 16 start, stop := BitVec.ofNat 16 stop, index := 0,
                         remaining := BitVec.ofNat 64 count, frame := BitVec.ofNat 5 t.depth }
  putE { t with loops := t.loops.set n.toFin l }
  return .goto (BitVec.ofNat 17 start)

/-- The checks of R149, R75 and R72 on a loop word, made before anything is pushed. -/
def checkLoop (n : BitVec 2) (len : Nat) : W Unit := do
  let k ← getC
  let t ← getE
  let stop := t.pc.toNat + len
  if len = 0 || 65535 < stop then illegalB
  if t.loops[n.toFin].isOpen then illegalB
  match t.innermost with
  | some l =>
    let b := t.loops[l]
    if b.start.toNat ≤ t.pc.toNat && t.pc.toNat ≤ b.stop.toNat && decide (b.stop.toNat < stop) then illegalB
  | none => pure ()
  if isBitmap k (t.pc.toNat + 1) || isBitmap k (stop + 1) then illegalB

/-- LOOP (R149): S reads the count and pushes it; the others pop it. DEDUCED (notes/assumptions/17.md). -/
def loopBody (n : BitVec 2) (m : BitVec 6) (imm : BitVec 6) : W Flow := do
  notInMonitor
  let len ← immU imm
  if (← get).cur.eng = .S then
    let r ← rdS m
    if r.p then trap cPOISON (m.setWidth 64)
    if r.v.toNat > 2 ^ 32 - 1 then illegal
    checkLoop n len
    pushDecision (.count (r.v.setWidth 32))
    openLoop n len r.v.toNat
  else
    checkLoop n len
    match ← popDecision with
    | .count c => openLoop n len c.toNat
    | .branch b => openLoop n len b.toNat
def execLoop (n : BitVec 2) (m imm : BitVec 6) (s : State) : Host.Outcome State Fault Refusal := runWord true (loopBody n m imm) s

/-- LOOPI (R149): the count is the immediate. -/
def loopiBody (n : BitVec 2) (len imm : BitVec 6) : W Flow := do
  notInMonitor
  let count ← immU imm
  checkLoop n len.toNat
  openLoop n len.toNat count
def execLoopi (n : BitVec 2) (len imm : BitVec 6) (s : State) : Host.Outcome State Fault Refusal := runWord true (loopiBody n len imm) s

/-- BREAKL (R151). DEDUCED (notes/assumptions/17.md). -/
def breaklBody (n : BitVec 2) (f : BitVec 3) : W Flow := do
  notInMonitor
  let t ← getE
  if !t.inFrame n.toFin then illegalB
  let l := t.loops[n.toFin]
  if (← get).cur.eng = .S then
    let r ← rdF f
    if r.p then trap cPOISON (f.setWidth 64)
    if r.v then checkTarget (l.stop.toNat + 1)
  if ← decideFlag f then
    let t ← getE
    putE (t.closeWhere (fun x => decide (l.start.toNat ≤ x.start.toNat)))
    return .goto (BitVec.ofNat 17 (l.stop.toNat + 1))
  return .seq 1
def execBreakl (n : BitVec 2) (f : BitVec 3) (s : State) : Host.Outcome State Fault Refusal := runWord false (breaklBody n f) s

/-- A rendezvous (R152): the engine waits at the word until all five have reached it; the last one moves the other
four past `n` words. True when the rendezvous is made. -/
def rendezvous (n : Nat) : W Unit := do
  let t ← getE
  putE { t with atSync := true }
  let s ← get
  let k := s.core s.cur.core
  waitFor (engines.all (fun e => (k.eng e).atSync))
  putC ((engines.filter (· ≠ s.cur.eng)).foldl (fun k e => k.move e (.seq n)) k)

/-- SYNC (R152). -/
def syncBody : W Flow := do
  notInMonitor
  rendezvous 1
  return .seq 1
def execSync (s : State) : Host.Outcome State Fault Refusal := runWord false syncBody s

/-! ## Value FIFOs (R157, R158) -/

/-- Entries of a value FIFO. -/
def fifoDepth : Nat := 16

/-- Pushes a register into FIFO `n` (0 to 3 inbound to A, V, M, X; 4 to 7 to S from A, V, M, X). A poisoned value raises
POISON with DETAIL the FIFO (R140); a full FIFO stalls. DESIGN CHOICE (notes/assumptions/101.md). -/
def pushFifo (n : Fin 8) (r : Reg) : W Unit := do
  let k ← getC
  waitFor (decide (k.fifo[n].length < fifoDepth))
  clean r (BitVec.ofNat 64 n.val)
  putC { k with fifo := k.fifo.set n (k.fifo[n] ++ [r.v]) }

/-- Pops FIFO `n`; an empty FIFO stalls. -/
def popFifo (n : Fin 8) : W Reg := do
  let k ← getC
  match k.fifo[n] with
  | [] => stall
  | v :: r => putC { k with fifo := k.fifo.set n r }; return { v := v }

def execPuta (a : BitVec 6) (s : State) : Host.Outcome State Fault Refusal := plain (do pushFifo 0 (← rdS a)) s
def execPutv (a : BitVec 6) (s : State) : Host.Outcome State Fault Refusal := plain (do pushFifo 1 (← rdS a)) s
def execPutm (a : BitVec 6) (s : State) : Host.Outcome State Fault Refusal := plain (do pushFifo 2 (← rdS a)) s
def execPutx (a : BitVec 6) (s : State) : Host.Outcome State Fault Refusal := plain (do pushFifo 3 (← rdS a)) s
def execGeta (d : BitVec 6) (s : State) : Host.Outcome State Fault Refusal := plain (do wrS d (← popFifo 4) interlocked) s
def execGetv (d : BitVec 6) (s : State) : Host.Outcome State Fault Refusal := plain (do wrS d (← popFifo 5) interlocked) s
def execGetm (d : BitVec 6) (s : State) : Host.Outcome State Fault Refusal := plain (do wrS d (← popFifo 6) interlocked) s
def execGetx (d : BitVec 6) (s : State) : Host.Outcome State Fault Refusal := plain (do wrS d (← popFifo 7) interlocked) s
def execGetsA (d : BitVec 5) (s : State) : Host.Outcome State Fault Refusal := plain (do wrA d (← popFifo 0) interlocked) s
def execGetsV (d : BitVec 4) (s : State) : Host.Outcome State Fault Refusal := plain (do wrK d (← popFifo 1) interlocked) s
def execGetsM (d : BitVec 3) (s : State) : Host.Outcome State Fault Refusal := plain (do wrH d (← popFifo 2) interlocked) s
def execGetsX (d : BitVec 4) (s : State) : Host.Outcome State Fault Refusal := plain (do wrX d (← popFifo 3) interlocked) s
def execPutsA (a : BitVec 5) (s : State) : Host.Outcome State Fault Refusal := plain (do pushFifo 4 (← rdA a)) s
def execPutsV (a : BitVec 4) (s : State) : Host.Outcome State Fault Refusal := plain (do pushFifo 5 (← rdK a)) s
def execPutsM (a : BitVec 3) (s : State) : Host.Outcome State Fault Refusal := plain (do pushFifo 6 (← rdH a)) s
def execPutsX (a : BitVec 4) (s : State) : Host.Outcome State Fault Refusal := plain (do pushFifo 7 (← rdX a)) s

/-! ## Semaphores (R161, R162) -/

/-- SIG (R161): the increment waits in the semaphore unit until the engine's earlier words are complete. -/
def sigBody (n : BitVec 4) (c : BitVec 14) : W Unit := do
  let e := (← get).cur.eng
  let t ← getE
  modC (fun k => { k with semIncs := k.semIncs ++ [{ src := .eng e t.slot, sem := n, count := c.toNat, seen := t.seen }] })

/-- What follows a WAIT on a semaphore stands after what its increments stood after (R161). -/
def learnSem (n : BitVec 4) : W Unit := do
  let t ← getE
  putE { t with seen := Nat.max t.seen (← getC).semSeen[n.toFin] }
  acquireCore

/-- WAIT (R161, R162): satisfied at once when the count is met, in one step; else the word joins the waiters, whom
the semaphore unit examines in order at each change. -/
def waitBody (n : BitVec 4) (c : BitVec 14) : W Unit := do
  let e := (← get).cur.eng
  let k ← getC
  if (k.eng e).waitMet then learnSem n
  else if k.semWaits.any (fun w => w.eng == e && w.mon == k.mon) then stall
  else if c.toNat ≤ k.sem[n.toFin].toNat then
    putC { k with sem := k.sem.set n.toFin (k.sem[n.toFin] - c.setWidth 16) }
    learnSem n
  else
    putC { k with semWaits := k.semWaits ++ [{ eng := e, sem := n, count := c, mon := k.mon }] }
    stall

def execSig (n : BitVec 4) (c : BitVec 14) (s : State) : Host.Outcome State Fault Refusal := plain (sigBody n c) s
def execSigA (n : BitVec 4) (c : BitVec 14) (s : State) : Host.Outcome State Fault Refusal := plain (sigBody n c) s
def execSigV (n : BitVec 4) (c : BitVec 14) (s : State) : Host.Outcome State Fault Refusal := plain (sigBody n c) s
def execSigM (n : BitVec 4) (c : BitVec 14) (s : State) : Host.Outcome State Fault Refusal := plain (sigBody n c) s
def execSigX (n : BitVec 4) (c : BitVec 14) (s : State) : Host.Outcome State Fault Refusal := plain (sigBody n c) s
def execWait (n : BitVec 4) (c : BitVec 14) (s : State) : Host.Outcome State Fault Refusal := plain (waitBody n c) s
def execWaitA (n : BitVec 4) (c : BitVec 14) (s : State) : Host.Outcome State Fault Refusal := plain (waitBody n c) s
def execWaitV (n : BitVec 4) (c : BitVec 14) (s : State) : Host.Outcome State Fault Refusal := plain (waitBody n c) s
def execWaitM (n : BitVec 4) (c : BitVec 14) (s : State) : Host.Outcome State Fault Refusal := plain (waitBody n c) s
def execWaitX (n : BitVec 4) (c : BitVec 14) (s : State) : Host.Outcome State Fault Refusal := plain (waitBody n c) s

/-- SEMRD (R163). -/
def semrdBody (d : BitVec 6) (imm : BitVec 12) : W Unit := do
  let n ← immU imm
  if h : n < 16 then wrS d { v := (← getC).sem[n].setWidth 64 } 4
  else illegal
def execSemrd (d : BitVec 6) (imm : BitVec 12) (s : State) : Host.Outcome State Fault Refusal := withImm (semrdBody d imm) s

end Sys2Proof.Machine
end

