-- ==== Sys2Proof/Machine/Csr.lean ====
section
/-!
DEFINITION. CSRs (R114 to R116), TRAP, CYCLE, DBG and ERET (R117 to R121).
-/
namespace Sys2Proof.Machine

/-- The value of CSR `n` on core `c` (Table 4.8); none when the number is not listed. -/
def readCsr (c : Nat) (ctx : BitVec 8) (k : Core) (n : Nat) : Option (BitVec 64) :=
  match n with
  | 0x000 => some (ctx.setWidth 64)
  | 0x001 => some (k.region.setWidth 64)
  | 0x002 => some (0#16 ++ k.gen ++ k.node)
  | 0x003 => some (BitVec.ofNat 64 c)
  | 0x004 => some (0#48 ++ k.gangRank ++ k.gangSize)
  | 0x005 => some (k.attempt.setWidth 64)
  | 0x006 => some (if k.preq then 1 else 0)
  | 0x008 => some k.slip
  | 0x010 => some (k.engS.fstat.setWidth 64)
  | 0x011 => some (k.engA.fstat.setWidth 64)
  | 0x012 => some (k.engV.fstat.setWidth 64)
  | 0x013 => some (k.engM.fstat.setWidth 64)
  | 0x014 => some (k.engX.fstat.setWidth 64)
  | 0x018 => some k.dbgctl
  | 0x019 => some k.dbgvec
  | 0x020 => some k.epc[0]
  | 0x021 => some k.epc[1]
  | 0x022 => some k.epc[2]
  | 0x023 => some k.epc[3]
  | 0x024 => some k.epc[4]
  | 0x025 => some k.ecause
  | 0x026 => some k.edetail
  | 0x028 => some k.dscr0
  | 0x029 => some k.dscr1
  | _ => none

/-- A write of a writable CSR; none when the number is read-only. WIN is checked by the caller. Reserved bits of FSTAT
are ignored (R6). DBGCTL and DBGVEC, "RO in kernels", are read-only to a monitor too. DESIGN CHOICE (notes/assumptions/82.md). -/
def writeCsr (k : Core) (n : Nat) (v : BitVec 64) : Option Core :=
  match n with
  | 0x008 => some { k with slip := v }
  | 0x010 => some { k with engS := { k.engS with fstat := v.setWidth 5 } }
  | 0x011 => some { k with engA := { k.engA with fstat := v.setWidth 5 } }
  | 0x012 => some { k with engV := { k.engV with fstat := v.setWidth 5 } }
  | 0x013 => some { k with engM := { k.engM with fstat := v.setWidth 5 } }
  | 0x014 => some { k with engX := { k.engX with fstat := v.setWidth 5 } }
  | 0x028 => some { k with dscr0 := v }
  | 0x029 => some { k with dscr1 := v }
  | _ => none

/-- Whether FSTAT.S, when `n` names it, still waits for the flags of an atomic of S in flight (R48, R179). -/
def State.fstatOwed (s : State) (n : BitVec 12) : Bool :=
  n == 0x010#12 && s.flights.any (fun f => f.core == s.cur.core && f.eng == .S && f.late.isSome)

/-- CSRR (R115): a number not listed is ILLEGAL (R114). -/
def csrrBody (d : BitVec 6) (n : BitVec 12) : W Unit := do
  waitFor (!(← get).fstatOwed n)
  let k ← getC
  match readCsr (← get).cur.core k.lastCtx k n.toNat with
  | none => illegal
  | some v => wrS d { v := v } 4
def execCsrr (d : BitVec 6) (n : BitVec 12) (s : State) : Host.Outcome State Fault Refusal := plain (csrrBody d n) s

/-- CSRW (R115, R116): the source is the register in field d. -/
def csrwBody (d : BitVec 6) (n : BitVec 12) : W Unit := do
  waitFor (!(← get).fstatOwed n)
  let k ← getC
  if (readCsr (← get).cur.core k.lastCtx k n.toNat).isNone then illegal
  let x ← rdS d
  match writeCsr k n.toNat x.v with
  | none => trap cPRIV (n.setWidth 64)
  | some _ =>
    clean x (d.setWidth 64)
    if n.toNat = 0x008 && (x.v.toNat < 64 || 4096 < x.v.toNat) then illegal
    modC (fun k => (writeCsr k n.toNat x.v).getD k)
def execCsrw (d : BitVec 6) (n : BitVec 12) (s : State) : Host.Outcome State Fault Refusal := plain (csrwBody d n) s

/-- TRAP (R117): TRAPI with DETAIL the immediate. -/
def trapBody (imm : BitVec 18) : W Unit := do trap cTRAPI (BitVec.ofNat 64 (← immU imm))
def execTrap (imm : BitVec 18) (s : State) : Host.Outcome State Fault Refusal := withImm (trapBody imm) s

/-- CYCLE (R118): the counter runs on by a free number of cycles, at least one for the slot, since it was last read. DESIGN CHOICE (notes/assumptions/19.md). -/
def cycleBody (d : BitVec 6) : W Unit := do
  let n ← fresh
  modC (fun k => { k with cycle := k.cycle + 1 + BitVec.ofNat 64 (Config.freeNat n) })
  wrS d { v := (← getC).cycle } 4
def execCycle (d : BitVec 6) (s : State) : Host.Outcome State Fault Refusal := plain (cycleBody d) s

/-- DBG (R119, R120): with EN clear nothing beyond its slot; with EN set the word completes and S enters the monitor,
EPC.S being the next word's address; in the monitor it ends the attempt. A core that is stopping enters no monitor. -/
def dbgBody (imm : BitVec 18) : W Unit := do
  let i ← immU imm
  let k ← getC
  if k.mon then trap cDEBUG (BitVec.ofNat 64 i)
  else if k.dbgEn && !k.stopReq then
    let pc ← getPc
    finish (.seq 1)
    modify (fun s => s.monitorEntry s.cur.core .S cDEBUG pc (BitVec.ofNat 64 i))
  else finish (.seq 1)

/-- DBG ends its own slot, so that the monitor is entered after the word has completed. -/
def execDbg (imm : BitVec 18) (s : State) : Host.Outcome State Fault Refusal :=
  match (do checkMonitor (ringOf s.cur.word); ringIssue (ringOf s.cur.word) : W Unit) s with
  | .error .stall s1 => .next s1
  | .error (.trap c d) s1 => .next ((s.unwind s1 s.cur.core s.cur.eng).takeTrap s.cur.core s.cur.eng c d)
  | .ok _ s1 => .next (settle s1 ((do checkPrefix true; dbgBody imm : W Unit) s1))

/-- ERET (R121): outside the monitor PRIV with DETAIL the PC (Table 4.4). -/
def eretBody : W Unit := do
  let k ← getC
  if !k.mon then trap cPRIV (← pc64)
  finish (.seq 1)
  modify (fun s => s.monitorReturn s.cur.core)
def execEret (s : State) : Host.Outcome State Fault Refusal :=
  match (do checkMonitor (ringOf s.cur.word); ringIssue (ringOf s.cur.word) : W Unit) s with
  | .error .stall s1 => .next s1
  | .error (.trap c d) s1 => .next ((s.unwind s1 s.cur.core s.cur.eng).takeTrap s.cur.core s.cur.eng c d)
  | .ok _ s1 => .next (settle s1 ((do checkPrefix false; eretBody : W Unit) s1))

end Sys2Proof.Machine
end

