-- ==== Sys2Proof/Machine/Matrix.lean ====
section
/-!
DEFINITION. M: stationary tiles, steps, tile operations, write-back, the format table, chained steps and stage
predicates (R235 to R260), the unfold unit's A operand (R254 to R257), and the array's own events.
-/
namespace Sys2Proof.Machine

/-! ## Rotating stage predicates (R252, R253) -/

/-- Whether the current stage is active at this pass: s ≤ i and i − s < T − D + 1. -/
def Core.stageActive (k : Core) (g : Stage) : Bool :=
  let l := k.engM.loops[g.lvl.toFin]
  let i := l.index.toNat
  decide (g.cur ≤ i) && decide (i + g.depth < i + l.remaining.toNat + 1 + g.cur)

/-- A governed word acts only when its stage is active. -/
def Core.governs (k : Core) : Bool :=
  match k.stage with
  | some g => !k.stageActive g
  | none => false

/-- A governed word: inactive, it takes its slot, acts on its ring bits and uses up its prefixes (R253). -/
def governed (body : W Unit) (s : State) : Host.Outcome State Fault Refusal :=
  if (s.core s.cur.core).governs then withImm (pure ()) s else plain body s

/-- MSTAGE with CFG = 0. -/
def mstageBody (stg : BitVec 3) : W Unit := do
  let v ← immU (stg.setWidth 18)
  if 7 < v then illegal
  let k ← getC
  match k.stage with
  | none => illegal
  | some g =>
    if g.depth ≤ stg.toNat then illegal
    putC { k with stage := some { g with cur := stg.toNat } }
def execMstage (stg : BitVec 3) (s : State) : Host.Outcome State Fault Refusal := withImm (mstageBody stg) s

/-- MSTAGE with CFG = 1. -/
def mstageCfgBody (dm1 : BitVec 3) (lvl : BitVec 2) : W Unit := do
  let v ← immU (1#1 ++ 0#12 ++ dm1 ++ lvl)
  let k ← getC
  if 2 ^ 18 ≤ v || !k.engM.inFrame lvl.toFin then illegal
  putC { k with stage := some { lvl := lvl, depth := dm1.toNat + 1, cur := 0 } }
def execMstageCfg (dm1 : BitVec 3) (lvl : BitVec 2) (s : State) : Host.Outcome State Fault Refusal := withImm (mstageCfgBody dm1 lvl) s

/-! ## Format-table entries (R57, R58) -/

def ftA (e : BitVec 32) : Nat := (e.extractLsb' 0 4).toNat
def ftW (e : BitVec 32) : Nat := (e.extractLsb' 4 4).toNat
def ftSub (e : BitVec 32) : Bool := e.extractLsb' 8 4 == 1
def ftO (e : BitVec 32) : Nat := (e.extractLsb' 12 4).toNat
def ftMode (e : BitVec 32) : Mode := Mode.ofCode (e.extractLsb' 16 2)
def ftClip (e : BitVec 32) : Bool := e.getLsbD 18
def ftScale (e : BitVec 32) : Bool := e.getLsbD 19
def ftXreg (e : BitVec 32) : BitVec 3 := e.extractLsb' 20 3
def ftXen (e : BitVec 32) : Bool := e.getLsbD 23

/-- Formats of the array: codes 1 to 10. -/
def isArrayFmt (f : Nat) : Bool := decide (1 ≤ f) && decide (f ≤ 10)

/-- The reduction length of a class (R236): 128, 256 or 512, that is 2,048 bits of a column. -/
def chunkLen (f : Nat) : Nat := 2048 / fmtBits f

/-- The check of R58 for a step. -/
def ftStepOk (e : BitVec 32) : Bool :=
  isArrayFmt (ftA e) && isArrayFmt (ftW e) && fmtBits (ftA e) == fmtBits (ftW e) && decide ((e.extractLsb' 8 4).toNat < 2) &&
  e.extractLsb' 24 8 == 0
/-- The check of R58 for a write-back. -/
def ftBackOk (e : BitVec 32) : Bool := ftO e != 15 && e.extractLsb' 24 8 == 0

/-! ## The array sequence (R237) -/

/-- Whether a member touches a tile. -/
def ArrayOp.touchesZ (o : ArrayOp) (z : BitVec 4) : Bool :=
  match o with
  | .step s _ => s.z == z
  | .zero d _ => d == z
  | .scl d a _ _ => d == z || a == z
  | .acc d a b _ => d == z || a == z || b == z
  | .trz d a _ => d == z || a == z

/-- Whether a member is a step that reads a slot. -/
def ArrayOp.readsW (o : ArrayOp) (w : BitVec 1) : Bool :=
  match o with
  | .step s _ => s.slot == w
  | _ => false

/-- Whether a member is a step. -/
def ArrayOp.isStep : ArrayOp → Bool
  | .step _ _ => true
  | _ => false

/-- Whether two members share a tile, so that their order counts. -/
def ArrayOp.shares (o p : ArrayOp) : Bool :=
  (List.range 16).any (fun i => o.touchesZ (BitVec.ofNat 4 i) && p.touchesZ (BitVec.ofNat 4 i))

/-- The issue slot of M at which a member entered. -/
def ArrayOp.entered : ArrayOp → Nat
  | .step _ t => t
  | .zero _ t => t
  | .scl _ _ _ t => t
  | .acc _ _ _ t => t
  | .trz _ _ t => t

/-- Entries of the step queue (Table 8.1). -/
def stepqDepth : Nat := 4

/-- Waits for room and enters the array sequence. -/
def enter (mk : Nat → ArrayOp) : W Unit := do
  waitFor (decide ((← getC).stepq.length < stepqDepth))
  modC (fun k => { k with stepq := k.stepq ++ [mk k.engM.slot] })

/-! ## Stationary tiles (R239, R240) -/

/-- Element `i` of a plane of entries, packed by R36, and its lane's tag. -/
def planeElem (w : Nat) (l : List VecReg) (i : Nat) : Nat × Bool :=
  let per := 4096 / w
  let e := l.getD (i / per) {}
  (elemAt w e.v (i % per), laneTag w e.p (i % per))

/-- The slot that 64 element entries and the side-plane entries fill. North: source row n is column n; west: source
row k is reduction index k. A poisoned lane of the side plane poisons the elements it scales. DEDUCED (notes/assumptions/26.md). -/
def loadSlot (wfmt : Nat) (west : Bool) (elems side : List VecReg) : WSlot :=
  let w := fmtBits wfmt
  let kc := chunkLen wfmt
  let e := sideEntry wfmt
  let sideBits := ofElems 4096 (side.map (fun r => r.v.toNat))
  let sideTag := fun (off : Nat) => laneTag 8 (side.getD (off / 512) {}).p (off % 512)
  let col := fun n =>
    let es := (List.range kc).map (fun k =>
      let x := planeElem w elems (if west then k * 128 + n else n * kc + k)
      let off := (if west then 4 * k + n / 32 else n * (kc / 32) + k / 32) * e
      (x.1, x.2 || (e != 0 && sideTag off)))
    ({ v := BitVec.ofNat 2048 (ofElems w (es.map (·.1))), p := BitVec.ofNat 512 (ofElems 1 (es.map (fun x => x.2.toNat))) } : WCol)
  { cols := Vector.ofFn (fun n : Fin 128 => col n.val), side := BitVec.ofNat 32768 sideBits, wfmt := BitVec.ofNat 4 wfmt, west := west }

/-- Side-plane entries after the element entries (Table 8.3). -/
def sideEntries (wfmt : Nat) : Nat := chunkLen wfmt / 32 * 128 * sideEntry wfmt / 512

/-- MLDN and MLDW. -/
def loadBody (west : Bool) (d : BitVec 1) (q : BitVec 3) (ft : BitVec 5) : W Unit := do
  let wf := ftW (← ftEntry ft)
  if !isArrayFmt wf then illegal
  needIq q (64 + sideEntries wf)
  waitFor (!(← getC).stepq.any (fun o => o.readsW d))
  let elems ← popMany q 64
  let side ← popMany q (sideEntries wf)
  modC (fun k => { k with w := k.w.set d.toFin (loadSlot wf west elems side) })
def execMldn (d : BitVec 1) (a : BitVec 3) (ft : BitVec 5) (s : State) : Host.Outcome State Fault Refusal := governed (loadBody false d a ft) s
def execMldw (d : BitVec 1) (a : BitVec 3) (ft : BitVec 5) (s : State) : Host.Outcome State Fault Refusal := governed (loadBody true d a ft) s

/-- MSEL: not governed; steps in the queue keep the slot they entered with. -/
def execMsel (d : BitVec 1) (s : State) : Host.Outcome State Fault Refusal := plain (modC (fun k => { k with msel := d })) s

/-! ## Steps (R241, R255) -/

/-- The relations of SFMT and AFMT (R255). -/
def unfoldFits (u : Unfold) (afmt : Nat) : Bool :=
  let sf := u.sfmt.toNat
  if isBlockFmt afmt then
    (sf == afmt && (u.mode == 0 || u.mode == 3)) || decide (sf ≤ 2)
  else sf == afmt

/-- The index of a loop level that the binding names, 4 for none; a level not open is ILLEGAL. -/
def bindIndex (lvl : BitVec 3) : W (Option Nat) := do
  if h : lvl.toNat < 4 then
    let l := (← getE).loops[lvl.toNat]
    if !l.isOpen then illegal
    return some l.index.toNat
  else return none

/-- The checks of a step and its entry into the array sequence (R241), for the words and for chained steps. -/
def enterStep (zero : Bool) (z : BitVec 4) (koff : BitVec 6) (ft : BitVec 5) (chain : Option (BitVec 4)) : W Unit := do
  let e ← ftEntry ft
  if !ftStepOk e then illegal
  let k ← getC
  if (k.w[k.msel.toFin]).wfmt.toNat ≠ ftW e then illegal
  match k.unfold with
  | none => illegal
  | some u =>
    if !unfoldFits u (ftA e) then trap cILLEGAL (BitVec.ofNat 64 u.addr)
    let mi ← bindIndex u.mlvl
    let ki ← bindIndex u.klvl
    let mb := mi.getD 0
    let kb := match ki with
      | some i => i * u.kpp.toNat + koff.toNat
      | none => koff.toNat
    let useX := ftXen e && (ftA e == 10 || ftW e == 10)
    waitFor (decide (k.stepq.length < stepqDepth))
    let x ← if useX then rdH (ftXreg e) else pure {}
    enter (.step { z := z, zero := zero, entry := e, slot := k.msel, xa := x.v.setWidth 8, xw := x.v.extractLsb' 8 8,
                   xp := x.p, mb := mb, kb := kb, bind := u, covered := [], chain := chain })
def execMstep (d : BitVec 4) (koff : BitVec 6) (ft : BitVec 5) (s : State) : Host.Outcome State Fault Refusal :=
  governed (enterStep false d koff ft none) s
def execMstepz (d : BitVec 4) (koff : BitVec 6) (ft : BitVec 5) (s : State) : Host.Outcome State Fault Refusal :=
  governed (enterStep true d koff ft none) s

/-! ## The A operand (R254, R255, R257) -/

/-- A byte of the scratchpad as a step reads it: as it is, or as it was before a write made since the step entered
(R257), by a free choice for each read. DESIGN CHOICE (notes/assumptions/34.md). -/
def stepByte (spad : Bytes) (covered : List (Nat × Byte)) (salt a : Nat) : Byte :=
  let olds := (covered.filter (fun p => p.1 == a)).map (·.2)
  match olds with
  | [] => spad.get a
  | _ => (spad.get a :: olds).getD (Config.freeNat salt % (olds.length + 1)) (spad.get a)

/-- Little-endian bytes read by a step. -/
def stepBytes (rb : Nat → Byte) (a : Nat) : Nat → Nat
  | 0 => 0
  | n + 1 => (rb a).toNat + 256 * stepBytes rb (a + 1) n

/-- T(r, c), its code. -/
def tensorElem (rb : Nat → Byte) (u : Unfold) (r c : Nat) : Nat :=
  let w := fmtBits u.sfmt.toNat
  let base := u.tbase.toNat + r * u.pitch.toNat
  if w = 4 then (rb (base + c / 2)).toNat / 16 ^ (c % 2) % 16
  else stepBytes rb (base + c * (w / 8)) (w / 8)

/-- Where A(m, k) stands in T, or nowhere: the table of R254. -/
def unfoldAt (rb : Nat → Byte) (u : Unfold) (m k : Nat) : Option (Nat × Nat) :=
  match u.mode.toNat with
  | 0 => if m < u.rows.toNat ∧ k < u.cols.toNat then some (m, k) else none
  | 2 => if k < u.rows.toNat ∧ m < u.cols.toNat then some (k, m) else none
  | 3 =>
    if m < u.idxcnt.toNat then
      let i := stepBytes rb (u.idxbase.toNat + 4 * m) 4
      if i < u.rows.toNat ∧ k < u.cols.toNat then some (i, k) else none
    else none
  | _ =>
    let ch := u.chans.toNat
    if m < u.oh.toNat * u.ow.toNat ∧ k < u.kh.toNat * u.kw.toNat * ch then
      let oy := m / u.ow.toNat
      let ox := m % u.ow.toNat
      let ky := k / (u.kw.toNat * ch)
      let kx := k / ch % u.kw.toNat
      let iy : Int := (oy * u.sh.toNat + ky * u.dh.toNat : Nat) - (u.pt.toNat : Int)
      let ix : Int := (ox * u.sw.toNat + kx * u.dw.toNat : Nat) - (u.pl.toNat : Int)
      if 0 ≤ iy ∧ iy < u.rows.toNat ∧ 0 ≤ ix ∧ ix < u.cols.toNat then some (iy.toNat, ix.toNat * ch + k % ch) else none
    else none

/-- The 32 values A(m, k0) to A(m, k0 + 31) of one block of a row, as AFMT reads them (R255). -/
def aBlock (rb : Nat → Byte) (u : Unfold) (afmt : Nat) (xa : BitVec 8) (m k0 : Nat) : List FP :=
  let sf := u.sfmt.toNat
  let at_ := (List.range 32).map (fun i => unfoldAt rb u m (k0 + i))
  if isBlockFmt afmt && !isBlockFmt sf then
    let es := at_.map (fun p =>
      match p with
      | some (r, c) => ({ inb := true, v := decodeElem sf (tensorElem rb u r c) } : QElem)
      | none => { inb := false, v := decodeElem sf (u.pad.toNat % 2 ^ fmtBits sf) })
    let q := quantBlock afmt .rne es
    q.codes.map (fun c => decodeScaled afmt c q.scale q.extra)
  else
    at_.map (fun p =>
      match p with
      | some (r, c) =>
        let code := tensorElem rb u r c
        if isBlockFmt afmt then
          let e := sideEntry afmt
          let s := u.sbase.toNat + r * u.spitch.toNat + c / 32 * e
          decodeScaled afmt code (rb s).toNat (if e = 2 then (rb (s + 1)).toNat else 0)
        else if afmt = 10 then decodeExtra code xa.toNat
        else decodeElem afmt code
      | none =>
        let code := u.pad.toNat % 2 ^ fmtBits sf
        if isBlockFmt afmt then decodeScaled afmt code 127 0
        else if afmt = 10 then decodeExtra code xa.toNat
        else decodeElem afmt code)

/-- W(k, n) of a slot, its value and tag (R239, R242). -/
def WSlot.elem (t : WSlot) (xw : BitVec 8) (k n : Nat) : FP × Bool :=
  let f := t.wfmt.toNat
  let col := if h : n < 128 then t.cols[n] else {}
  let code := (col.v.toNat >>> (k * fmtBits f)) % 2 ^ fmtBits f
  let v :=
    if isBlockFmt f then
      let e := sideEntry f
      let off := (if t.west then 4 * k + n / 32 else n * (chunkLen f / 32) + k / 32) * e
      let b := fun (o : Nat) => (t.side.toNat >>> (8 * o)) % 256
      decodeScaled f code (b off) (if e = 2 then b (off + 1) else 0)
    else if f = 10 then decodeExtra code xw.toNat
    else decodeElem f code
  (v, col.p.getLsbD k)

/-! ## Completion (R241 to R244) -/

/-- A tile from its rows' elements. -/
def tileOf (steps : BitVec 32) (rows : List (List (BitVec 32 × Bool))) : Tile :=
  { rows := Vector.ofFn (fun m : Fin 128 =>
      vecOf 32 ((rows.getD m.val []).map (fun e => (e.1.toNat, e.2)))), steps := steps }

/-- Element (m, n) of a tile and its tag. -/
def Tile.elem (t : Tile) (m n : Nat) : BitVec 32 × Bool :=
  if h : m < 128 then (BitVec.ofNat 32 (elemAt 32 t.rows[m].v n), t.rows[m].p.getLsbD n) else (0, false)

/-- A tile from an element function, with the flags of its untagged elements (R49). -/
def tileMap (steps : BitVec 32) (f : Nat → Nat → F32R × Bool) : Tile × Flags :=
  let rows := (List.range 128).map (fun m => (List.range 128).map (fun n => f m n))
  (tileOf steps (rows.map (fun r => r.map (fun e => (e.1.v, e.2)))),
   orFlags (rows.map (fun r => orFlags (r.map (fun e => if e.2 then {} else e.1.f)))))

/-- One step's new tile (R241). `ctr` starts its free values. -/
def stepTile (k : Core) (o : StepOp) (ctr : Nat) : Tile × Flags :=
  let old := k.z[o.z.toFin]
  let slot := k.w[o.slot.toFin]
  let kc := chunkLen (ftW o.entry)
  let nb := kc / 32
  let u := o.bind
  let wcols := (List.range 128).map (fun n => (List.range kc).map (fun j => slot.elem o.xw j n))
  let rowA := fun (m : Nat) => (List.range nb).map (fun j =>
    aBlock (fun a => stepByte k.spad o.covered (ctr + (m * nb + j) * 4194304 + a) a) u (ftA o.entry) o.xa
      (u.moff.toNat + 128 * o.mb + m) (u.koff.toNat + kc * o.kb + 32 * j))
  let rows := (List.range 128).map (fun m =>
    let a := rowA m
    (List.range 128).map (fun n =>
      let wc := wcols.getD n []
      let blocks := (List.range nb).map (fun j =>
        (List.zip (a.getD j []) ((wc.drop (32 * j)).take 32)).map (fun p => ({ a := p.1, b := p.2.1 } : Prod)))
      let z := old.elem m n
      let r := matrixSum (ftSub o.entry) blocks (if o.zero then .zero false else f32 z.1)
      (r, wc.any (·.2) || (!o.zero && z.2) || o.xp)))
  (tileOf (if o.zero then 1 else old.steps + 1) (rows.map (fun r => r.map (fun e => (e.1.v, e.2)))),
   orFlags (rows.map (fun r => orFlags (r.map (fun e => if e.2 then {} else e.1.f)))))

/-- Free values a step may use. -/
def stepFree : Nat := 2048 * 4194304

/-- A member's effect on its tile, and the flags it sets in FSTAT.M. -/
def Core.runMember (k : Core) (o : ArrayOp) (ctr : Nat) : Core × Flags :=
  match o with
  | .step t _ => let r := stepTile k t ctr; ({ k with z := k.z.set t.z.toFin r.1 }, r.2)
  | .zero d _ => ({ k with z := k.z.set d.toFin {} }, {})
  | .scl d a h _ =>
    let r := tileMap (k.z[d.toFin]).steps (fun m n =>
      let e := (k.z[a.toFin]).elem m n
      ((FP.mul (f32 e.1) (f32 (h.v.setWidth 32))).toF32, e.2 || h.p))
    ({ k with z := k.z.set d.toFin r.1 }, r.2)
  | .acc d a b _ =>
    let r := tileMap (k.z[d.toFin]).steps (fun m n =>
      let x := (k.z[a.toFin]).elem m n
      let y := (k.z[b.toFin]).elem m n
      ((FP.add (f32 x.1) (f32 y.1)).toF32, x.2 || y.2))
    ({ k with z := k.z.set d.toFin r.1 }, r.2)
  | .trz d a _ =>
    let src := k.z[a.toFin]
    ({ k with z := k.z.set d.toFin (tileOf (k.z[d.toFin]).steps
        ((List.range 128).map (fun m => (List.range 128).map (fun n => src.elem n m)))) }, {})

/-- ARRAY_STEP_COMPLETE of member `arg 1` of core `arg 0`: no earlier member shares a tile with it. -/
def arrayStepComplete : W Unit := do
  let c ← arg 0
  let i ← arg 1
  atCore c .M
  let k ← getC
  match k.stepq[i]? with
  | none => stall
  | some o =>
    waitFor (!(k.stepq.take i).any (fun p => p.shares o))
    match o with
    | .step t _ => waitFor (!k.unfoldBlocked t.bind)
    | _ => pure ()
    let r := k.runMember o (← freshN stepFree)
    putC { r.1 with stepq := k.stepq.eraseIdx i }
    addFlags r.2
    match o with
    | .step t _ =>
      match t.chain with
      | some n => modC (fun k => { k with semIncs := k.semIncs ++ [{ src := .array, sem := n, count := 1 }] })
      | none => pure ()
    | _ => pure ()
def execArrayStepComplete (s : State) : Host.Outcome State Fault Refusal := event arrayStepComplete s

/-! ## Tile operations (R244) -/

def execMzero (d : BitVec 4) (s : State) : Host.Outcome State Fault Refusal := governed (enter (.zero d)) s
def execMscl (d a : BitVec 4) (b : BitVec 3) (s : State) : Host.Outcome State Fault Refusal :=
  governed (do
    waitFor (decide ((← getC).stepq.length < stepqDepth))
    let h ← rdH b
    enter (.scl d a h)) s
def execMacc (d a b : BitVec 4) (s : State) : Host.Outcome State Fault Refusal := governed (enter (.acc d a b)) s
def execMtrz (d a : BitVec 4) (s : State) : Host.Outcome State Fault Refusal := governed (enter (.trz d a)) s

/-! ## Reading tiles (R245 to R247) -/

/-- Entries of a plane of codes of width `w`, packed by R36, the last one padded with zeros. -/
def packEntries (w : Nat) : Nat → List Nat → List VecReg
  | 0, _ => []
  | n + 1, l => { v := BitVec.ofNat 4096 (ofElems w (l.take (4096 / w))) } :: packEntries w n (l.drop (4096 / w))

/-- Entries of MWB (Table 8.4): elements, then side plane. -/
def backEntries (fmt : Nat) : Nat × Nat := (16384 * fmtBits fmt / 4096, (512 * sideEntry fmt + 511) / 512)

/-- The element codes of write-back, row-major, their side-plane bytes in block order, and flags. -/
def backCodes (t : Tile) (e : BitVec 32) (r c : BitVec 32) (xo : Option FP) (sr : Nat → SrIn) : List Nat × List Nat × Flags :=
  let fmt := ftO e
  let mode := ftMode e
  let y := fun (m n : Nat) => scaleClip r c (ftClip e) (f32 (t.elem m n).1)
  if isBlockFmt fmt then
    let bs := (List.range 512).map (fun j =>
      let m := j / 4
      let ys := (List.range 32).map (fun i => let n := j % 4 * 32 + i; (y m n, sr (128 * m + n)))
      let q := quantBlock fmt mode (ys.map (fun p => { inb := true, v := p.1.v, sr := p.2 }))
      (q.codes, if sideEntry fmt = 2 then [q.scale, q.extra] else [q.scale], (orFlags (ys.map (·.1.f))).or q.f))
    (bs.flatMap (·.1), bs.flatMap (·.2.1), orFlags (bs.map (·.2.2)))
  else
    let es := (List.range 16384).map (fun i =>
      let v := y (i / 128) (i % 128)
      if fmt = 10 then
        match v.v with
        | .fin _ _ _ => let q := codeE2m1t v.v xo; (q, v.f.or (flagsExtra v.v q xo))
        | x => let q := roundTo 7 true true mode {} x; (q.code, v.f.or q.f)
      else let q := roundTo fmt (decide (fmtBits fmt ≤ 8)) true mode (sr i) v.v; (q.code, v.f.or q.f))
    (es.map (·.1), [], orFlags (es.map (·.2)))

/-- MWB. -/
def mwbBody (d : BitVec 2) (a : BitVec 4) (ft : BitVec 5) : W Unit := do
  let e ← ftEntry ft
  if !ftBackOk e then illegal
  let fmt := ftO e
  let n := backEntries fmt
  needOq d (n.1 + n.2)
  waitFor (!(← getC).stepq.any (fun o => o.touchesZ a))
  let useH7 := ftScale e || ftClip e
  let useX := fmt == 10 && ftXen e
  let useSr := ftMode e == .sr && fmt != 9 && fmt != 10
  let h7 ← if useH7 then rdH 7 else pure {}
  let hx ← if useX then rdH (ftXreg e) else pure {}
  let h4 ← if useSr then rdH 4 else pure {}
  let h5 ← if useSr then rdH 5 else pure {}
  let h6 ← if useSr then rdH 6 else pure {}
  let t := (← getC).z[a.toFin]
  if t.rows.toList.any (fun r => r.p != 0) || h7.p || hx.p || h4.p || h5.p || h6.p then trap cPOISON (oqCode d)
  let xb := (h7.v, (hx.v.extractLsb' 16 8).toNat)
  let xo := if useX && xb.2 != 0 && xb.2 != 0x80 then some (decodeElem 3 xb.2) else none
  let r := if ftScale e then xb.1.setWidth 32 else 0x3F800000#32
  let b := backCodes t e r (xb.1.extractLsb' 32 32) xo
    (fun i => { seed := h5.v, step := h6.v, index := h4.v + BitVec.ofNat 64 i })
  addFlags b.2.2
  pushOq d (packEntries (fmtBits fmt) n.1 b.1 ++ packEntries 8 n.2 b.2.1)
def execMwb (d : BitVec 2) (a : BitVec 4) (ft : BitVec 5) (s : State) : Host.Outcome State Fault Refusal := governed (mwbBody d a ft) s

/-- MPEEK: it waits for earlier tile operations, not for steps. -/
def mpeekBody (d : BitVec 2) (a : BitVec 4) (b : BitVec 3) : W Unit := do
  needOq d 128
  let k ← getC
  waitFor (!k.stepq.any (fun o => !o.isStep && o.touchesZ a))
  let t := k.z[a.toFin]
  pushOq d t.rows.toList
  wrH b { v := t.steps.setWidth 64 } interlocked
def execMpeek (d : BitVec 2) (a : BitVec 4) (b : BitVec 3) (s : State) : Host.Outcome State Fault Refusal := governed (mpeekBody d a b) s

/-! ## Format table and scalars (R248, R249) -/

def mftabBody (ft : BitVec 5) (a : BitVec 3) : W Unit := do
  let i ← ftIndex ft
  let x ← rdH a
  clean x (a.setWidth 64)
  modC (fun k => { k with ft := k.ft.set i (x.v.setWidth 32),
                          ftLog := k.ftLog.filter (fun q => decide (k.engV.seen ≤ q.2.2)) ++ [(i.val, k.ft[i], k.engM.slot)] })
def execMftab (ft : BitVec 5) (a : BitVec 3) (s : State) : Host.Outcome State Fault Refusal := plain (mftabBody ft a) s
def mftabRBody (ft : BitVec 5) (a : BitVec 3) : W Unit := do
  let e ← ftEntry ft
  wrH a { v := e.setWidth 64 } 2
def execMftabR (ft : BitVec 5) (a : BitVec 3) (s : State) : Host.Outcome State Fault Refusal := plain (mftabRBody ft a) s

/-! ## Chained steps (R250) -/

/-- MCHAIN. -/
def mchainBody (n : BitVec 4) (count : BitVec 14) : W Unit := do
  let k ← getC
  if count = 0 || (k.chain.armed && k.chain.sem != n) then illegal
  putC { k with chain := { k.chain with armed := true, sem := n, remaining := k.chain.remaining + count.toNat } }
def execMchain (sem : BitVec 4) (count : BitVec 14) (s : State) : Host.Outcome State Fault Refusal := plain (mchainBody sem count) s

/-- CHAIN_WORD_READY: card `arg 1` of core `arg 0` has its bytes landed and the slot is Empty. -/
def chainWordReady : W Unit := do
  let c ← arg 0
  let tk ← arg 1
  atCore c .M
  let k ← getC
  match k.cards.find? (fun x => x.ticket == tk) with
  | none => stall
  | some x =>
    waitFor (x.card.chen && x.moved && !x.chained && x.st == .running && k.chain.slot.isNone)
    putC { k with chain := { k.chain with slot := some (x.card.chain, tk) } }
def execChainWordReady (s : State) : Host.Outcome State Fault Refusal := event chainWordReady s

/-- The step a chain word asks for: an MSTEP or MSTEPZ word. -/
def chainStepOf (w : Word32) : Option (Bool × BitVec 4 × BitVec 6 × BitVec 5) :=
  if tagOf w = 3 then
    match decodeCore w with
    | some (.mstep d o f) => some (false, d, o, f)
    | some (.mstepz d o f) => some (true, d, o, f)
    | _ => none
  else none

/-- Marks a card's chain word as taken. -/
def Core.chainTaken (k : Core) (tk : Nat) : Core :=
  { k with cards := k.cards.map (fun x => if x.ticket == tk then { x with chained := true } else x) }

/-- CHAINED_STEP on core `arg 0`: the array takes the word from the slot; a word it refuses ends the attempt with ILLEGAL,
SRC 3, PC 0 and DETAIL the card's address. -/
def chainedStep (s : State) : State :=
  let c := s.cur.args.n.getD 0 0
  if c < 96 then
    let k := s.core c
    match k.chain.slot with
    | none => s
    | some (w, tk) =>
      if k.chain.armed && decide (0 < k.chain.remaining) && decide (k.stepq.length < stepqDepth) then
        let left := k.chain.remaining - 1
        let k1 := { k with chain := { k.chain with slot := none, remaining := left, armed := decide (0 < left) } }.chainTaken tk
        let addr := ((k.cards.find? (fun x => x.ticket == tk)).map (fun x => x.card.addr)).getD 0
        let s1 := { s with cur := { s.cur with core := c, eng := .M } }.setCore c k1
        let bad := s1.trapStop c .M 3 cILLEGAL 0 (BitVec.ofNat 64 addr)
        match chainStepOf w with
        | none => bad
        | some (z, d, o, f) =>
          match (enterStep z d o f (some k.chain.sem)) s1 with
          | .ok _ s2 => s2
          | .error .stall _ => s
          | .error (.trap cause d) _ => if cause = cILLEGAL then bad else s1.trapStop c .M 3 cause 0 d
      else s
  else s
def execChainedStep (s : State) : Host.Outcome State Fault Refusal := .next (chainedStep s)

end Sys2Proof.Machine
end

