-- ==== Sys2Proof/Machine/Streams.lean ====
section
/-!
DEFINITION. The A engine's accesses to scratchpad (R182, R183), streams (R184 to R196, R202), rings with their loader and
storer (R197 to R201), and the unfold binding (R203, R256).
-/
namespace Sys2Proof.Machine

/-! ## A's own accesses (R182, R183) -/

/-- PROT and ALIGN of an access of `n` bytes at a scratchpad address, in that order. -/
def spadCheck (a : BitVec 64) (n : Nat) : W Unit := do
  if Config.spadBytes < a.toNat + n then trap cPROT a
  if a.toNat % n ≠ 0 then trap cALIGN a

/-- An access of A waits for the X jobs accepted before it (R205) and for its own stores to the same bytes (R182). -/
def spadTurn (a n : Nat) (mode : FpMode) : W Unit := do
  let s ← get
  waitFor (!(← getC).blocked [{ sp := true, lo := a, len := n, mode := mode }] && !s.landing s.cur.core .A true a n)
  discard takeSeq

/-- Every store of A has landed: what A binds takes effect after them (R188). -/
def aLanded : W Unit := do
  let s ← get
  waitFor (!s.landing s.cur.core .A true 0 Config.spadBytes)

/-- ALD. It may read after the word (R159). -/
def aldBody (d a : BitVec 5) (imm : BitVec 6) : W Unit := do
  let i ← immS imm
  let x ← rdA a
  clean x (a.setWidth 64)
  let va := x.v + i
  spadCheck va 8
  spadTurn va.toNat 8 .r
  if ← anyBit then putFlight va.toNat 8 .r none none true (some (.load (.a d) false))
  else wrA d { v := (← getC).spad.get64 va.toNat } interlocked
def execAld (d a : BitVec 5) (imm : BitVec 6) (s : State) : Host.Outcome State Fault Refusal := withImm (aldBody d a imm) s

/-- AST: field d names the data register. Its bytes may land after the word (R159). -/
def astBody (d a : BitVec 5) (imm : BitVec 6) : W Unit := do
  let i ← immS imm
  let x ← rdA a
  let y ← rdA d
  clean x (a.setWidth 64)
  let va := x.v + i
  clean y va
  spadCheck va 8
  spadTurn va.toNat 8 .w
  let bs := leBytes 8 y.v.toNat
  if ← anyBit then putFlight va.toNat 8 .w none (some bs) true
  else modC (fun k => k.spadWrite va.toNat bs)
def execAst (d a : BitVec 5) (imm : BitVec 6) (s : State) : Host.Outcome State Fault Refusal := withImm (astBody d a imm) s

/-- One indivisible read-modify-write of scratchpad: the old number. -/
def spadModify (va n : Nat) (g : Nat → Nat) : W Nat := do
  let k ← getC
  let old := leNat (k.spad.slice va n)
  putC (k.spadWrite va (leBytes n (g old)))
  return old

/-- AATOM. It may take effect after the word (R159). -/
def aatomBody (d a b : BitVec 5) : W Unit := do
  let x ← rdA a
  let y ← rdA b
  let o ← rdA d
  clean x (a.setWidth 64)
  clean y x.v
  clean o x.v
  if !atomLegal o.v then illegal
  let n := atomWidth o.v
  spadCheck x.v n
  spadTurn x.v.toNat n .atom
  if ← anyBit then putFlight x.v.toNat n .atom none none true (some (.atom (.a d) o.v y.v))
  else
    let old ← spadModify x.v.toNat n (fun old => (atomOp o.v old y.v.toNat).1)
    addFlags (atomOp o.v old y.v.toNat).2
    wrA d { v := word64 old } interlocked
def execAatom (d a b : BitVec 5) (s : State) : Host.Outcome State Fault Refusal := plain (aatomBody d a b) s

/-- ACAS. It may take effect after the word (R159). -/
def acasBody (d a b : BitVec 5) : W Unit := do
  let x ← rdA a
  let y ← rdA b
  let o ← rdA d
  clean x (a.setWidth 64)
  clean y x.v
  clean o x.v
  spadCheck x.v 8
  spadTurn x.v.toNat 8 .atom
  if ← anyBit then putFlight x.v.toNat 8 .atom none none true (some (.cas (.a d) o.v y.v))
  else
    let old ← spadModify x.v.toNat 8 (fun old => if old = o.v.toNat then y.v.toNat else old)
    wrA d { v := word64 old } interlocked
def execAcas (d a b : BitVec 5) (s : State) : Host.Outcome State Fault Refusal := plain (acasBody d a b) s

/-! ## Descriptors (R184 to R186) -/

/-- The fields of Table 6.5. -/
def parseDesc (v : Nat) : StreamDesc :=
  let f := fieldOf v
  { qsel := BitVec.ofNat 6 (f 0 5 0), space := BitVec.ofNat 2 (f 0 7 6), dims := BitVec.ofNat 2 (f 0 9 8), acc := f 0 10 10 == 1,
    ring := BitVec.ofNat 3 (f 0 14 12), depth := BitVec.ofNat 5 (f 0 20 16), semn := BitVec.ofNat 4 (f 0 27 24), semen := f 0 28 28 == 1,
    base := BitVec.ofNat 56 (f 8 55 0), len0 := BitVec.ofNat 32 (f 0x10 31 0), cnt1 := BitVec.ofNat 32 (f 0x10 63 32),
    cnt2 := BitVec.ofNat 32 (f 0x18 31 0), cnt3 := BitVec.ofNat 32 (f 0x18 63 32), str1 := BitVec.ofNat 64 (f 0x20 63 0),
    str2 := BitVec.ofNat 64 (f 0x28 63 0), str3 := BitVec.ofNat 64 (f 0x30 63 0),
    reserved := f 0 11 11 != 0 || f 0 15 15 != 0 || f 0 23 21 != 0 || f 0 63 29 != 0 || f 8 63 56 != 0 || f 0x38 63 0 != 0 }

/-- A level's count and stride are in order: a used count is nonzero, an unused level is 1 and 0. -/
def StreamDesc.levelBad (d : StreamDesc) (lvl : Nat) (cnt : BitVec 32) (str : BitVec 64) : Bool :=
  if lvl ≤ d.dims.toNat then cnt == 0 else cnt != 1 || str != 0

/-- The limits that depend on BASE, in a ring slot of `slot` bytes. -/
def StreamDesc.limitBad (d : StreamDesc) (slot : Nat) : Bool :=
  let top : Int := match d.space.toNat with
    | 0 => Config.spadBytes
    | 1 => 2 ^ 56
    | _ => slot
  decide (d.cover.1 < 0) || decide (top ≤ d.cover.2) || (d.acc && d.base.toNat % 4 != 0)

/-- What R186 refuses whatever the queue and the space. -/
def StreamDesc.shapeBad (d : StreamDesc) : Bool :=
  d.space == 3 || d.reserved || (d.space != 2 && d.ring != 0) || d.len0 == 0 || d.levelBad 1 d.cnt1 d.str1 || d.levelBad 2 d.cnt2 d.str2 ||
  d.levelBad 3 d.cnt3 d.str3 || (d.acc && (d.space != 1 || d.len0.toNat % 4 != 0 || d.str1.toNat % 4 != 0 || d.str2.toNat % 4 != 0 || d.str3.toNat % 4 != 0))

/-- Whether a ring has a bound stream. -/
def Core.ringBound (k : Core) (n : BitVec 3) : Bool :=
  k.streams.toList.any (fun t => t.any (fun t => t.desc.space == 2 && t.desc.ring == n))

/-- Whether a ring can take a stream of a direction. -/
def Core.ringFits (k : Core) (d : StreamDesc) : Bool :=
  !k.ringBound d.ring && (k.rings[d.ring.toFin]).any (fun r => r.sub.any (fun u => u.store == !d.isIn))

/-- R186 for a stream. -/
def Core.streamBad (k : Core) (d : StreamDesc) : Bool :=
  d.shapeBad || decide (d.qsel.toNat < 32) || decide (43 < d.qsel.toNat) || d.semen ||
  (if d.isIn then d.depth == 0 || decide (16 < d.depth.toNat) || d.acc else d.depth != 0) ||
  (d.space == 2 && !k.ringFits d) || d.limitBad (((k.rings[d.ring.toFin]).map (·.size)).getD 0)

/-- R198 for a subscription. -/
def StreamDesc.subBad (d : StreamDesc) (store : Bool) : Bool :=
  d.shapeBad || d.qsel != 0 || d.space != 1 || d.depth != 0 || (d.acc && !store) || d.limitBad 0

/-- The descriptor at a scratchpad address, after the checks of R187. A word that waits keeps what it has read (R188). -/
def descAt (a : BitVec 5) : W (BitVec 64 × StreamDesc) := do
  let x ← rdA a
  clean x (a.setWidth 64)
  match (← getC).descRead with
  | some r => return r
  | none =>
    spadCheck x.v 64
    aLanded
    let r := (x.v, parseDesc (leNat ((← getC).spad.slice x.v.toNat 64)))
    modC (fun k => { k with descRead := some r })
    return r

/-! ## The byte sequence (R185) -/

/-- Address of run `r` of the pattern, whose base stands at `base`. -/
def StreamDesc.runAt (d : StreamDesc) (base : Int) (r : Nat) : Int :=
  base + (r % d.cnt1.toNat : Nat) * d.str1.toInt + (r / d.cnt1.toNat % d.cnt2.toNat : Nat) * d.str2.toInt +
    (r / d.cnt1.toNat / d.cnt2.toNat : Nat) * d.str3.toInt

/-- Bytes `pos` to `pos + n − 1` of the sequence, as far as it goes, in contiguous pieces: address and length. -/
def StreamDesc.pieces (d : StreamDesc) (base : Int) : Nat → Nat → Nat → List (Nat × Nat)
  | 0, _, _ => []
  | fuel + 1, pos, n =>
    if n = 0 || d.bytes ≤ pos then []
    else
      let o := pos % d.len0.toNat
      let m := Nat.min n (d.len0.toNat - o)
      let a := (d.runAt base (pos / d.len0.toNat) + o).toNat
      match d.pieces base fuel (pos + m) (n - m) with
      | (b, l) :: r => if a + m = b then (a, m + l) :: r else (a, m) :: (b, l) :: r
      | [] => [(a, m)]

/-- Entry `e` of a stream's pattern at `base`. -/
def StreamDesc.entry (d : StreamDesc) (base : Int) (e : Nat) : List (Nat × Nat) := d.pieces base 513 (512 * e) 512

/-- The pieces as ranges. -/
def pieceRanges (sp : Bool) (m : FpMode) (ps : List (Nat × Nat)) : List Range :=
  ps.map (fun p => { sp := sp, lo := p.1, len := p.2, mode := m })

/-! ## Footprints and pages of a binding (R188) -/

/-- Steps 3 and 4: the footprint, and the check of every page for `use`; a failed check drops the entries again. -/
def pagesOk (p : Path) (use : Acc) : Nat → Nat → Nat → W (Except Bad Unit)
  | 0, _, _ => return .ok ()
  | fuel + 1, a, e => do
    if e ≤ a then return .ok ()
    match ← xlate p.ids p.ctx a use with
    | .error x => return .error x
    | .ok l => pagesOk p use fuel (l.vbase + l.size) e

/-- Enters the covering interval of a global pattern and checks its pages where `use` says so. -/
def enterPattern (d : StreamDesc) (mode : FpMode) (use : Option Acc) (past : Bool) : W (List Nat) := do
  let s ← get
  let rs := rangeOf false mode d.cover.1 d.cover.2
  let ids ← orTrap (← enterWord rs past)
  match use with
  | none => pure ()
  | some u => for r in rs do orTrap (← pagesOk (s.pathOf s.cur.core .A) u (r.len / 0x10000 + 2) r.lo (r.lo + r.len))
  return ids

/-- Steps 3 to 5 for a stream: its footprint and its place in the scoreboard. -/
def enterStream (d : StreamDesc) : W (List Nat × Nat) := do
  let ids ← if d.space = 1 then
      enterPattern d d.mode (if d.isIn then none else some (if d.acc then .acc else .write)) d.acc
    else pure []
  return (ids, ← takeSeq)

/-! ## BIND, REBIND, UNBIND (R188, R191, R192) -/

/-- Holds or clears a slot. -/
def putStream (n : BitVec 4) (t : Option Stream) : W Unit := modC (fun k => { k with streams := k.streams.set n.toFin t, descRead := none })

/-- BIND. DEDUCED (notes/assumptions/39.md). -/
def bindBody (n : BitVec 4) (a : BitVec 5) : W Unit := do
  let (at_, d) ← descAt a
  let k ← getC
  if (k.streams[n.toFin]).isSome then trap cQUEUE (n.setWidth 64)
  if (k.streamOn d.qsel.toNat).isSome then trap cQUEUE (d.qsel.setWidth 64)
  if k.streamBad d then trap cSTREAM at_
  let (ids, seq) ← enterStream d
  let t : Stream := { desc := d, fps := ids, seq := seq, pc := ← getPc }
  putStream n (some t)
def execBind (n : BitVec 4) (a : BitVec 5) (s : State) : Host.Outcome State Fault Refusal := plain (bindBody n a) s

/-- The slot's stream; an unbound slot raises QUEUE. -/
def boundStream (n : BitVec 4) : W Stream := do
  match (← getC).streams[n.toFin] with
  | none => trap cQUEUE (n.setWidth 64)
  | some t => return t

/-- The in-queue or out-queue of a stream. -/
def StreamDesc.inq (d : StreamDesc) : BitVec 3 := d.qsel.setWidth 3
def StreamDesc.outq (d : StreamDesc) : BitVec 2 := d.qsel.setWidth 2

/-- Entries held in a stream's queue. -/
def Core.queueHeld (k : Core) (d : StreamDesc) : Nat := if d.isIn then (k.iq[d.inq.toFin]).length else (k.oq[d.outq.toFin]).length

/-- Waits until an out-queue is empty (R193). -/
def drained (d : StreamDesc) : W Unit := do waitFor (decide ((← getC).queueHeld d = 0))

/-- Ends what an in-stream has fetched, and waits out what an out-stream has still to write (R192). -/
def quiet (d : StreamDesc) : W Unit := do
  if d.isIn then modC (fun k => { k with iq := k.iq.set d.inq.toFin [] }) else drained d

/-- REBIND: a first part checks, releases and restarts; the second enters the new range once the old one has left the table,
so another owner may enter between (R316). DESIGN CHOICE (notes/assumptions/41.md). DESIGN CHOICE (notes/assumptions/106.md). -/
def rebindBody (n : BitVec 4) (a : BitVec 5) : W Unit := do
  let x ← rdA a
  clean x (a.setWidth 64)
  let t ← boundStream n
  if t.desc.space = 2 then illegal
  if !t.re then
    quiet t.desc
    let d := { t.desc with base := x.v.setWidth 56 }
    if 2 ^ 56 ≤ x.v.toNat || d.limitBad 0 then trap cSTREAM x.v
    releaseLater (← get).cur.core .A t.fps
    putStream n (some { t with desc := d, next := 0, psn := false, re := true, early := [] })
  let t ← boundStream n
  waitFor (!(← get).fps.any (fun f => t.fps.contains f.id))
  aLanded
  let (ids, seq) ← enterStream t.desc
  putStream n (some { t with re := false, fps := ids, seq := seq })

/-- A fault of REBIND leaves the slot unbound (R191). -/
def unbindOnTrap (n : BitVec 4) (before : State) (after : State) : State :=
  let c := before.cur.core
  match (after.core c).streams[n.toFin] with
  | some t =>
    if (before.core c).causes.length < (after.core c).causes.length then
      match (releaseLater c .A (if t.re then [] else t.fps)) (after.onCore c (fun k => { k with streams := k.streams.set n.toFin none })) with
      | .ok _ s => s
      | .error _ s => s
    else after
  | none => after

def execRebind (n : BitVec 4) (a : BitVec 5) (s : State) : Host.Outcome State Fault Refusal :=
  match plain (rebindBody n a) s with
  | .next t => .next (unbindOnTrap n s t)
  | o => o

/-- UNBIND. -/
def unbindBody (n : BitVec 4) : W Unit := do
  let t ← boundStream n
  quiet t.desc
  releaseLater (← get).cur.core .A t.fps
  putStream n none
def execUnbind (n : BitVec 4) (s : State) : Host.Outcome State Fault Refusal := plain (unbindBody n) s

/-! ## SDRAIN, SSKIP, SSTAT (R193 to R195) -/

/-- SDRAIN. -/
def sdrainBody (n : BitVec 4) : W Unit := do
  let t ← boundStream n
  if t.desc.isIn then illegal
  drained t.desc
def execSdrain (n : BitVec 4) (s : State) : Host.Outcome State Fault Refusal := plain (sdrainBody n) s

/-- SSKIP: the position moves on by at most the entries that remain; an out-stream keeps room for what its queue
holds. -/
def sskipBody (n : BitVec 4) (a : BitVec 5) : W Unit := do
  let x ← rdA a
  clean x (a.setWidth 64)
  let t ← boundStream n
  let k ← getC
  let room := k.roomInStream t
  let m := Nat.min x.v.toNat room
  if !t.desc.isIn && decide (room - m < k.queueHeld t.desc) then trap cSTREAM (t.desc.qsel.setWidth 64)
  putStream n (some { t with next := t.next + m })
def execSskip (n : BitVec 4) (a : BitVec 5) (s : State) : Host.Outcome State Fault Refusal := plain (sskipBody n a) s

/-- The word of SSTAT. -/
def Core.sstat (k : Core) (n : BitVec 4) : Nat :=
  match k.streams[n.toFin] with
  | none => 0
  | some t =>
    let left := k.roomInStream t
    1 + 2 * (left == 0).toNat + 4 * t.psn.toNat + 8 * (t.desc.space == 2).toNat + 16 * Nat.min 16 (k.queueHeld t.desc) + 65536 * (left % 2 ^ 48)
def sstatBody (d : BitVec 5) (n : BitVec 4) : W Unit := do wrA d { v := word64 ((← getC).sstat n) } 4
def execSstat (d : BitVec 5) (n : BitVec 4) (s : State) : Host.Outcome State Fault Refusal := plain (sstatBody d n) s

/-! ## Rings (R197 to R202) -/

def putRing (n : BitVec 3) (r : Option SpRing) : W Unit := modC (fun k => { k with rings := k.rings.set n.toFin r })

/-- Ends a subscription: its footprint is released, the ring stays. -/
def endSub (n : BitVec 3) (r : SpRing) (u : Subscription) : W Unit := do
  releaseLater (← get).cur.core .A u.fps
  putRing n (some { r with sub := none })

/-- Holds a subscription's new counts, and ends it when V, or D, equals the tile count. -/
def keepSub (n : BitVec 3) (r : SpRing) (u : Subscription) : W Unit := do
  if (if u.store then u.filled else u.passed) = r.tiles u then endSub n r u else putRing n (some { r with sub := some u })

/-- SEMN is signalled, when SEMEN says so. -/
def signalSub (n : BitVec 3) (u : Subscription) : W Unit := do
  let q : SemInc := { src := .ring n, sem := u.desc.semn, count := 1 }
  if u.desc.semen then modC (fun k => { k with semIncs := k.semIncs ++ [q] })

/-- Start of the slot of tile `t`. -/
def SpRing.slot (r : SpRing) (t : Nat) : Nat := r.base + r.size * (t % r.count)
/-- Bytes of tile `t`, the last one perhaps short, and its pieces in global memory. -/
def SpRing.tileLen (r : SpRing) (u : Subscription) (t : Nat) : Nat := Nat.min r.size (u.desc.bytes - r.size * t)
def SpRing.tilePieces (r : SpRing) (u : Subscription) (t : Nat) : List (Nat × Nat) :=
  u.desc.pieces u.desc.base.toNat (r.tileLen u t + 1) (r.size * t) (r.tileLen u t)

/-- Whether slot V is FULL, or slot H is OPEN. -/
def SpRing.ready (r : SpRing) (u : Subscription) : Bool :=
  if u.store then decide (u.passed - u.filled < r.count) else decide (u.passed < u.filled)

/-- Work of a ring that is under way: the tile in flight, or the slots handed over. -/
def Subscription.working (u : Subscription) : Bool := if u.store then decide (u.filled < u.passed) else u.busy

/-- Ends a ring (R201): waits for the work under way. -/
def endRing (n : BitVec 3) : W Unit := do
  match (← getC).rings[n.toFin] with
  | none => pure ()
  | some r =>
    match r.sub with
    | none => putRing n none
    | some u =>
      putRing n (some { r with sub := some { u with ending := true } })
      waitFor (!u.working)
      endSub n r u
      putRing n none

/-- RINGCFG. -/
def ringcfgBody (n : BitVec 3) (a b : BitVec 5) : W Unit := do
  let x ← rdA a
  let y ← rdA b
  clean x (a.setWidth 64)
  clean y (b.setWidth 64)
  let units := (y.v.extractLsb' 0 16).toNat
  let count := (y.v.extractLsb' 16 8).toNat
  if y.v.extractLsb' 24 40 != 0 then illegal
  let k ← getC
  if count = 0 then
    if k.ringBound n then illegal
    endRing n
  else
    if 64 < count || units = 0 || 2048 < units || x.v.toNat % 512 != 0 || Config.spadBytes < x.v.toNat + 512 * units * count then illegal
    if (k.rings[n.toFin]).any (fun r => r.sub.isSome) then illegal
    putRing n (some { base := x.v.toNat, size := 512 * units, count := count })
def execRingcfg (n : BitVec 3) (a b : BitVec 5) (s : State) : Host.Outcome State Fault Refusal := plain (ringcfgBody n a b) s

/-- SUBS. DEDUCED (notes/assumptions/39.md). -/
def subsBody (n : BitVec 3) (a : BitVec 5) (m : BitVec 1) : W Unit := do
  let (at_, d) ← descAt a
  let store := m == 1
  match (← getC).rings[n.toFin] with
  | none => illegal
  | some r =>
    if r.sub.isSome then illegal
    if d.subBad store then trap cSTREAM at_
    let u : Subscription := { desc := d, store := store, pc := ← getPc }
    let ids ← enterPattern d u.mode (some (if d.acc then .acc else if store then .write else .read)) true
    let seq ← takeSeq
    putRing n (some { r with sub := some { u with fps := ids, seq := seq } })
    modC (fun k => { k with descRead := none })
def execSubs (n : BitVec 3) (a : BitVec 5) (m : BitVec 1) (s : State) : Host.Outcome State Fault Refusal := plain (subsBody n a m) s

/-- SRET: returns slot V once it is FULL, or hands over slot H while it is OPEN, and A's accesses to it have landed (R200). -/
def sretBody (n : BitVec 3) : W Unit := do
  let k ← getC
  match k.rings[n.toFin] with
  | none => illegal
  | some r =>
    match r.sub with
    | none => illegal
    | some u =>
      if u.passed = r.tiles u || k.ringBound n then illegal
      let s ← get
      waitFor (r.ready u && !s.landing s.cur.core .A true (r.slot u.passed) r.size)
      keepSub n r { u with passed := u.passed + 1 }
def execSret (n : BitVec 3) (s : State) : Host.Outcome State Fault Refusal := plain (sretBody n) s

/-! ## UFOLD (R203, R256) -/

/-- The fields of Table 8.5 of the descriptor at `a`. -/
def parseUnfold (a v : Nat) : Unfold :=
  let f := fieldOf v
  { addr := a, mode := BitVec.ofNat 4 (f 0 3 0), mlvl := BitVec.ofNat 3 (f 0 6 4), klvl := BitVec.ofNat 3 (f 0 10 8),
    sfmt := BitVec.ofNat 4 (f 0 15 12), kpp := BitVec.ofNat 8 (f 0 23 16), pad := BitVec.ofNat 32 (f 0 63 32),
    tbase := BitVec.ofNat 32 (f 8 31 0), sbase := BitVec.ofNat 32 (f 8 63 32), rows := BitVec.ofNat 32 (f 0x10 31 0),
    cols := BitVec.ofNat 32 (f 0x10 63 32), pitch := BitVec.ofNat 32 (f 0x18 31 0), spitch := BitVec.ofNat 32 (f 0x18 63 32),
    chans := BitVec.ofNat 16 (f 0x20 15 0), kh := BitVec.ofNat 8 (f 0x20 23 16), kw := BitVec.ofNat 8 (f 0x20 31 24),
    sh := BitVec.ofNat 8 (f 0x20 39 32), sw := BitVec.ofNat 8 (f 0x20 47 40), dh := BitVec.ofNat 8 (f 0x20 55 48),
    dw := BitVec.ofNat 8 (f 0x20 63 56), ow := BitVec.ofNat 16 (f 0x28 15 0), oh := BitVec.ofNat 16 (f 0x28 31 16),
    pt := BitVec.ofNat 8 (f 0x28 39 32), pl := BitVec.ofNat 8 (f 0x28 47 40), idxbase := BitVec.ofNat 32 (f 0x30 31 0),
    idxcnt := BitVec.ofNat 32 (f 0x30 63 32), moff := BitVec.ofNat 32 (f 0x38 31 0), koff := BitVec.ofNat 32 (f 0x38 63 32) }

/-- Whether a range runs past the scratchpad. -/
def pastSpad (lo : Nat) (hi : Int) : Bool := decide ((lo : Int) < hi) && decide ((Config.spadBytes : Int) < hi)

/-- What R256 refuses. -/
def unfoldBad (u : Unfold) (v : Nat) : Bool :=
  let f := fieldOf v
  let conv := u.mode == 1
  let gather := u.mode == 3
  f 0 7 7 != 0 || f 0 11 11 != 0 || f 0 31 24 != 0 || f 0x28 63 48 != 0 || decide (3 < u.mode.toNat) || decide (4 < u.mlvl.toNat) ||
  decide (4 < u.klvl.toNat) || decide (10 < u.sfmt.toNat) || decide (2 ^ fmtBits u.sfmt.toNat ≤ u.pad.toNat) ||
  (!isBlockFmt u.sfmt.toNat && u.sbase != 0) || (!conv && (f 0x20 63 0 != 0 || f 0x28 63 0 != 0)) ||
  (!gather && f 0x30 63 0 != 0) || u.kpp == 0 || (u.pitch == 0 && decide (1 < u.rows.toNat)) ||
  (conv && (u.chans == 0 || u.kh == 0 || u.kw == 0 || u.sh == 0 || u.sw == 0 || u.dh == 0 || u.dw == 0 || u.ow == 0 || u.oh == 0)) ||
  (gather && (u.idxcnt == 0 || u.idxbase.toNat % 4 != 0 || pastSpad u.idxbase.toNat (u.idxbase.toNat + 4 * u.idxcnt.toNat))) ||
  pastSpad u.tbase.toNat u.tensorEnd || (isBlockFmt u.sfmt.toNat && pastSpad u.sbase.toNat u.sideEnd)

/-- UFOLD. -/
def ufoldBody (a : BitVec 5) : W Unit := do
  let x ← rdA a
  clean x (a.setWidth 64)
  spadCheck x.v 64
  aLanded
  let v := leNat ((← getC).spad.slice x.v.toNat 64)
  let u := parseUnfold x.v.toNat v
  if unfoldBad u v then trap cILLEGAL x.v
  let seq ← takeSeq
  modC (fun k => { k with unfold := some { u with seq := seq } })
def execUfold (a : BitVec 5) (s : State) : Host.Outcome State Fault Refusal := plain (ufoldBody a) s

/-! ## END (R154, R196, R335, R388) -/

/-- A's END: every stream is unbound as UNBIND does it, every subscription ended as RINGCFG with a count of 0 ends it, and
the unfold binding retires (R204). -/
def endA : W Unit := do
  for n in List.range 16 do
    let st := BitVec.ofNat 4 n
    match (← getC).streams[st.toFin] with
    | none => pure ()
    | some t =>
      quiet t.desc
      releaseLater (← get).cur.core .A (if t.re then [] else t.fps)
      putStream st none
  for n in List.range 8 do endRing (BitVec.ofNat 3 n)
  modC (fun k => { k with unfold := none })

/-- S's END: once S's accesses are complete its claims are released, and the core's pins. -/
def endS : W Unit := do
  let s ← get
  let c := s.cur.core
  waitFor (!s.flights.any (fun f => f.core == c && f.eng == .S && !f.rel) && !s.flights.any (fun f => f.core == c && f.mode == .r && f.fp.isNone))
  releaseLater c .S ((s.core c).claims.map (·.2))
  modC (fun k => { k with claims := [] })
  modify (fun s => s.dropPins (.core c))

/-- END: the engine stops; open levels and return-stack entries are discarded; what it holds for the kernel is released. -/
def endBody : W Flow := do
  notInMonitor
  match (← get).cur.eng with
  | .A => endA
  | .S => endS
  | _ => pure ()
  let t ← getE
  putE { t with rets := [], loops := Vector.replicate 4 {} }
  return .halt
def execEndW (s : State) : Host.Outcome State Fault Refusal := runWord false endBody s

/-! ## The stream unit (R189, R190, R202) -/

/-- Whether the units around a core's engines work. -/
def Core.unitsRun (k : Core) : Bool := k.mode == .running || k.mode == .monitor || k.mode == .stopping || k.mode == .saving

/-- The event concerns a stream slot of a core. -/
def atStream : W (BitVec 4 × Stream) := do
  let c ← arg 0
  let n ← arg 1
  atCore c .A
  let k ← getC
  waitFor (k.unitsRun && decide (n < 16))
  let st := BitVec.ofNat 4 n
  match k.streams[st.toFin] with
  | none => stall
  | some t =>
    waitFor (!t.re)
    return (st, t)

/-- A write of a stream or of a storer that fails ends the attempt: SRC 1, the PC of the BIND or SUBS. It writes nothing
more. -/
def endAttempt (pc : BitVec 17) (e : Bad) : W Unit := modify (fun s => s.trapStop s.cur.core .A 1 e.1 pc e.2)

/-- The ring of a SPACE 2 stream, whose slot in hand must be FULL or OPEN. -/
def slotInHand (d : StreamDesc) : W (SpRing × Subscription) := do
  match (← getC).rings[d.ring.toFin] with
  | none => stall
  | some r =>
    match r.sub with
    | none => stall
    | some u =>
      waitFor (r.ready u)
      return (r, u)

/-- Moves a stream on by an entry; a SPACE 2 stream that has passed its slot's pattern returns the slot or hands it
over. -/
def advanceStream (n : BitVec 4) (t : Stream) : W Unit := do
  if t.desc.space = 2 && decide (t.desc.entries ≤ t.next) then
    let (r, u) ← slotInHand t.desc
    putStream n (some { t with next := t.next - t.desc.entries })
    keepSub t.desc.ring r { u with passed := u.passed + 1 }
  else putStream n (some t)

/-- Where the pattern stands now, and the bytes' space. DEDUCED (notes/assumptions/40.md). -/
def streamBase (d : StreamDesc) : W Int := do
  if d.space = 2 then
    let (r, u) ← slotInHand d
    return r.slot u.passed + d.base.toNat
  else return d.base.toNat

/-- Reads the pieces of an entry; failed bytes are none. -/
def readPieces (p : Path) (global : Bool) : List (Nat × Nat) → W (List (Option Byte))
  | [] => return []
  | (a, n) :: r => do
    if global then walkTurn p.ids p.ctx a n
    let b ← if global then readDefer p (n / 64 + 2) a n
            else pure (((← getC).spad.slice a n).map some)
    return b ++ (← readPieces p global r)

/-- What the read of some pieces finds where it begins (R300). -/
def beginPieces (p : Path) : List (Nat × Nat) → W Early
  | [] => return []
  | (a, n) :: r => do
    walkTurn p.ids p.ctx a n
    return (← beginRun p (n / 64 + 2) a n) ++ (← beginPieces p r)

/-- An entry from its bytes: zero past the sequence, poison in every lane with a failed byte. -/
def entryOf (bs : List (Option Byte)) : VecReg :=
  { v := BitVec.ofNat 4096 (ofElems 8 (bs.map (fun b => (b.getD 0).toNat)))
    p := BitVec.ofNat 128 (ofElems 1 ((List.range 128).map (fun j => (((bs.drop (4 * j)).take 4).any (·.isNone)).toNat))) }

/-- STREAM_FETCH: the in-stream of slot `arg 1` of core `arg 0` delivers its next entry, or with `arg 2` nonzero only begins to
read it (R300). -/
def streamFetch : W Unit := do
  let (n, t) ← atStream
  let d := t.desc
  waitFor d.isIn
  if d.space = 2 && decide (d.entries ≤ t.next) then advanceStream n t
  else
    let k ← getC
    let q := d.inq.toFin
    waitFor (decide (0 < k.roomInStream t) && decide ((k.iq[q]).length < Nat.max d.depth.toNat k.iqWant[q]))
    let ps := d.entry (← streamBase d) t.next
    waitFor (!k.cardsBlock t.seq (pieceRanges (d.space != 1) .r ps))
    let s ← get
    let p := { s.pathOf s.cur.core .A with early := t.early }
    if (← arg 2) ≠ 0 then
      if d.space = 1 && t.early.isEmpty then putStream n (some { t with early := ← beginPieces p ps })
    else
      let e := entryOf (← readPieces p (d.space == 1) ps)
      modC (fun k => { k with iq := k.iq.set q (k.iq[q] ++ [e]) })
      advanceStream n { t with next := t.next + 1, psn := t.psn || e.p != 0, early := [] }
def execStreamFetch (s : State) : Host.Outcome State Fault Refusal := event streamFetch s

/-- Words of four bytes. -/
def words4 (bs : List Byte) : List (BitVec 32) :=
  (List.range (bs.length / 4)).map (fun i => BitVec.ofNat 32 (leNat ((bs.drop (4 * i)).take 4)))

/-- Writes bytes to the pieces they belong to; the first failure ends it. `sub` says that a subscription writes. -/
def writePieces (p : Path) (global acc sub : Bool) : List (Nat × Nat) → List Byte → W (Option Bad)
  | [], _ => return none
  | (a, n) :: r, bs => do
    let b := bs.take n
    if !global then
      modC (fun k => k.spadWrite a b)
      writePieces p global acc sub r (bs.drop n)
    else
      walkTurn p.ids p.ctx a n
      if sub || acc then dropDirty p.ctx (← get).cur.core a n
      match ← (if acc then accNow p (n / 4 + 1) a (words4 b) else writeMem p a b) with
      | .error e => return some e
      | .ok _ => writePieces p global acc sub r (bs.drop n)

/-- STREAM_WRITE: the out-stream of slot `arg 1` of core `arg 0` writes the oldest entry of its queue. -/
def streamWrite : W Unit := do
  let (n, t) ← atStream
  let d := t.desc
  waitFor (!d.isIn)
  if d.space = 2 && decide (d.entries ≤ t.next) then advanceStream n t
  else
    let k ← getC
    let q := d.outq.toFin
    waitFor (decide (0 < k.roomInStream t))
    match k.oq[q] with
    | [] => stall
    | e :: r =>
      let ps := d.entry (← streamBase d) t.next
      waitFor (!k.cardsBlock t.seq (pieceRanges (d.space != 1) d.mode ps))
      putC { k with oq := k.oq.set q r }
      let s ← get
      let p := s.pathOf s.cur.core .A
      match ← writePieces (if d.acc then p.bypass else p) (d.space == 1) d.acc false ps (leBytes 512 e.v.toNat) with
      | some x => putStream n none; endAttempt t.pc x
      | none => advanceStream n { t with next := t.next + 1, psn := t.psn || e.p != 0 }
def execStreamWrite (s : State) : Host.Outcome State Fault Refusal := event streamWrite s

/-! ## The loader and the storer (R199 to R201) -/

/-- How the loader and the storer of a core's subscriptions reach memory: by a base die's cache, past the die cache. DEDUCED (notes/assumptions/40.md). -/
def State.subPath (s : State) (c : Nat) : Path :=
  { ids := [.base (3 * (c / 24))], ctx := (s.core c).lastCtx, who := .core c }

/-- The event concerns a subscription: its core, ring, mode. -/
def atSub (store : Bool) : W (BitVec 3 × SpRing × Subscription) := do
  let c ← arg 0
  let n ← arg 1
  atCore c .A
  let k ← getC
  waitFor (k.unitsRun && decide (n < 8))
  let m := BitVec.ofNat 3 n
  match k.rings[m.toFin] with
  | none => stall
  | some r =>
    match r.sub with
    | none => stall
    | some u =>
      waitFor (u.store == store)
      return (m, r, u)

/-- Some bytes of the tile in flight, a free choice for each, reach their slot. DESIGN CHOICE (notes/assumptions/35.md). -/
def fillSome (r : SpRing) (u : Subscription) (all : Bool) : W Unit := do
  let c ← freshN u.tile.length
  let at_ := r.slot u.filled
  let old := (← getC).spad.slice at_ u.tile.length
  let new := (List.range u.tile.length).map (fun i => if all || Config.freeBit (c + i) then u.tile.getD i 0 else old.getD i 0)
  modC (fun k => k.spadWrite at_ new)

/-- Reads the pieces of a tile; the first failure ends it. -/
def readTile (p : Path) : List (Nat × Nat) → W (Except Bad (List Byte))
  | [] => return .ok []
  | (a, n) :: r => do
    walkTurn p.ids p.ctx a n
    dropDirty p.ctx (← get).cur.core a n
    match ← readMem p a n with
    | .error e => return .error e
    | .ok b =>
      match ← readTile p r with
      | .error e => return .error e
      | .ok t => return .ok (b ++ t)

/-- LOADER_TILE_FILL: the loader takes the next tile of ring `arg 1` of core `arg 0`, or goes on with the one in flight; with
`arg 2` nonzero it only begins to read the next (R300). -/
def loaderTileFill : W Unit := do
  let (n, r, u) ← atSub false
  if u.busy then fillSome r u false
  else
    let k ← getC
    let f := u.filled
    waitFor (!u.ending && decide (f - u.passed < r.count) && decide (f < r.tiles u))
    let ps := r.tilePieces u f
    waitFor (!k.cardsBlock u.seq ({ sp := true, lo := r.slot f, len := r.tileLen u f, mode := .w } :: pieceRanges false .r ps))
    let s ← get
    let p := { s.subPath s.cur.core with early := u.early }
    if (← arg 2) ≠ 0 then
      if u.early.isEmpty then putRing n (some { r with sub := some { u with early := ← beginPieces p ps } })
    else
      match ← readTile p ps with
      | .error e => putRing n (some { r with sub := none }); endAttempt u.pc e
      | .ok b =>
        let u := { u with busy := true, tile := b, early := [] }
        putRing n (some { r with sub := some u })
        fillSome r u false
def execLoaderTileFill (s : State) : Host.Outcome State Fault Refusal := event loaderTileFill s

/-- LOADER_TILE_FULL: every byte of the tile in flight is written in its slot. -/
def loaderTileFull : W Unit := do
  let (n, r, u) ← atSub false
  waitFor u.busy
  fillSome r u true
  putRing n (some { r with sub := some { u with busy := false, tile := [], filled := u.filled + 1 } })
  signalSub n u
def execLoaderTileFull (s : State) : Host.Outcome State Fault Refusal := event loaderTileFull s

/-- Bytes of a slot in STORING as the storer reads them: each as it is, or as it was before a write since the hand-over
(R200). -/
def storerBytes (k : Core) (u : Subscription) (at_ n c : Nat) : List Byte :=
  (List.range n).map (fun i => stepByte k.spad u.covered (c + i) (at_ + i))

/-- STORER_TILE_STORED: the storer has written the oldest slot handed over of ring `arg 1` of core `arg 0`. -/
def storerTileStored : W Unit := do
  let (n, r, u) ← atSub true
  let k ← getC
  let d := u.filled
  waitFor (decide (d < u.passed))
  let len := r.tileLen u d
  let ps := r.tilePieces u d
  waitFor (!k.cardsBlock u.seq ({ sp := true, lo := r.slot d, len := len, mode := .r } :: pieceRanges false u.mode ps))
  let c ← freshN len
  let s ← get
  match ← writePieces (s.subPath s.cur.core) true u.desc.acc true ps (storerBytes k u (r.slot d) len c) with
  | some x => putRing n (some { r with sub := none }); endAttempt u.pc x
  | none =>
    let old := fun (p : Nat × Byte) => decide (r.slot d ≤ p.1) && decide (p.1 < r.slot d + r.size)
    keepSub n r { u with filled := d + 1, covered := u.covered.filter (fun p => !old p) }
    signalSub n u
def execStorerTileStored (s : State) : Host.Outcome State Fault Refusal := event storerTileStored s

end Sys2Proof.Machine
end

