-- ==== Sys2Proof/Machine/Image.lean ====
section
/-!
DEFINITION. Save images (R106, R107, R212, R259): the bitmaps of a PHINT, the bytes of every section, and a core read
back from them (R108).
-/
namespace Sys2Proof.Machine

/-! ## Bitmaps (Table 4.6) -/

/-- The two bitmap words after a PHINT. -/
structure Live where
  a : BitVec 32 := 0
  b : BitVec 32 := 0
  deriving DecidableEq, Repr, Inhabited

/-- Every section and every register live, as a forced image and a dump have them. -/
def Live.all : Live := { a := BitVec.allOnes 32, b := 0xFF3F }

def Live.z (l : Live) (i : Nat) : Bool := l.a.getLsbD i
def Live.v (l : Live) (i : Nat) : Bool := l.a.getLsbD (16 + i / 4)
def Live.s (l : Live) (i : Nat) : Bool := decide (i ≠ 0) && l.a.getLsbD (24 + i / 16)
def Live.w (l : Live) (i : Nat) : Bool := l.a.getLsbD (28 + i)
def Live.m (l : Live) : Bool := l.a.getLsbD 30
def Live.ft (l : Live) : Bool := l.a.getLsbD 31
def Live.aReg (l : Live) (i : Nat) : Bool := decide (i ≠ 0) && l.b.getLsbD (i / 16)
def Live.x (l : Live) : Bool := l.b.getLsbD 2
def Live.k (l : Live) : Bool := l.b.getLsbD 3
def Live.h (l : Live) : Bool := l.b.getLsbD 4
def Live.strm (l : Live) : Bool := l.b.getLsbD 5
def Live.sp (l : Live) (i : Nat) : Bool := l.b.getLsbD (8 + i)
def Live.sptoff (l : Live) : Nat := (l.b.extractLsb' 16 12).toNat
/-- A set reserved bit. -/
def Live.reserved (l : Live) : Bool := l.b.extractLsb' 6 2 != 0 || l.b.extractLsb' 28 4 != 0

/-- The scratchpad table as it stands in the argument window. -/
def Core.spTable (k : Core) (l : Live) : List Byte := k.win.slice l.sptoff 64
/-- Entry `i` of the table: base and length. -/
def spEntry (t : List Byte) (i : Nat) : Nat × Nat := (leNat ((t.drop (8 * i)).take 4), leNat ((t.drop (8 * i + 4)).take 4))

/-- What the limits of R106 refuse. DESIGN CHOICE (notes/assumptions/92.md). -/
def Core.liveBad (k : Core) (l : Live) : Bool :=
  l.reserved || (List.range 8).any (fun i => l.sp i &&
    (let e := spEntry (k.spTable l) i
     decide (k.winLen < l.sptoff + 8 * i + 8) || l.sptoff % 8 != 0 || e.1 % 64 != 0 || e.2 % 64 != 0 || decide (Config.spadBytes < e.1 + e.2)))

/-- The scratchpad ranges that are live. -/
def Core.liveSpans (k : Core) (l : Live) : List (Nat × Nat) :=
  ((List.range 8).filter l.sp).map (spEntry (k.spTable l))

/-- Whether a register, tile or slot named live holds poison (R141). -/
def Core.livePoison (k : Core) (l : Live) : Bool :=
  (List.range 64).any (fun i => l.s i && (k.s.toList.getD i {}).p) || (List.range 32).any (fun i => l.aReg i && (k.a.toList.getD i {}).p) ||
  (l.x && k.x.toList.any (·.p)) || (l.k && k.k.toList.any (·.p)) || (l.h && k.h.toList.any (·.p)) ||
  (l.m && k.m.toList.any (fun m => m.p != 0)) || (List.range 32).any (fun i => l.v i && (k.v.toList.getD i {}).p != 0) ||
  (List.range 16).any (fun i => l.z i && (k.z.toList.getD i {}).rows.toList.any (fun r => r.p != 0)) ||
  (List.range 2).any (fun i => l.w i && (k.w.toList.getD i {}).cols.toList.any (fun c => c.p != 0))

/-! ## Sections -/

/-- Engines in the order of the image. -/
def imageEngines : List Engine := [.S, .A, .V, .M, .X]

/-- The first 16 bytes. -/
def headBytes (kind : Nat) (cause : BitVec 8) (pc : BitVec 17) (l : Live) : List Byte :=
  leBytes 1 kind ++ leBytes 1 cause.toNat ++ leBytes 2 pc.toNat ++ leBytes 4 0 ++ leBytes 4 l.a.toNat ++ leBytes 4 l.b.toNat

/-- A loop level (R144); of a count, the low 32 bits. DEDUCED (notes/assumptions/47.md). -/
def LoopLevel.bytes (l : LoopLevel) : List Byte :=
  leBytes 4 (l.start.toNat + 2 ^ 16 * l.frame.toNat + 2 ^ 31 * l.isOpen.toNat) ++ leBytes 4 l.stop.toNat ++ leBytes 4 l.index.toNat ++
    leBytes 4 l.remaining.toNat

/-- A return stack: entry 0 is the oldest, each address its low 16 bits. DEDUCED (notes/assumptions/47.md). -/
def EngineSt.retBytes (t : EngineSt) : List Byte :=
  padTo 48 (padTo 32 (t.rets.reverse.flatMap (fun a => leBytes 2 a.toNat)) ++ leBytes 1 t.rets.length)

/-- The stage configuration's three bytes (Table 8.7). -/
def stageBytes : Option Stage → List Byte
  | none => [0, 0, 0]
  | some g => leBytes 1 (g.lvl.toNat + 4) ++ leBytes 1 g.depth ++ leBytes 1 g.cur

/-- A value FIFO. -/
def fifoBytes (l : List (BitVec 64)) : List Byte := padTo 256 (padTo 8 (leBytes 1 l.length) ++ l.flatMap (fun v => leBytes 8 v.toNat))

/-- Registers of 8 bytes, those not live as zero. -/
def regBytes (live : Nat → Bool) (l : List Reg) : List Byte :=
  (List.range l.length).flatMap (fun i => leBytes 8 (if live i then (l.getD i {}).v.toNat else 0))

/-- The control section from 0x10 to 0x147F. DESIGN CHOICE (notes/assumptions/104.md). -/
def Core.control (k : Core) (l : Live) : List Byte :=
  let es := imageEngines.map k.eng
  leBytes 8 k.slip.toNat ++ es.flatMap (fun t => leBytes 8 t.fstat.toNat) ++
  k.sem.toList.flatMap (fun v => leBytes 2 v.toNat) ++
  padTo 32 (leBytes 1 (ofElems 1 (k.f.toList.map (·.v.toNat))) ++ stageBytes k.stage) ++
  padTo 64 (es.flatMap (fun t => t.b.toList.flatMap (fun v => leBytes 2 v.toNat))) ++
  es.flatMap (fun t => t.loops.toList.flatMap (·.bytes)) ++
  padTo 256 (es.flatMap (·.retBytes)) ++
  padTo 32 (engines.flatMap (fun e => leBytes 1 (k.eng e).toAhead) ++ engines.flatMap (fun e => leBytes 1 (k.eng e.ahead).toBehind)) ++
  leBytes 8 k.vcfg.toNat ++ leBytes 8 k.seed.toNat ++ leBytes 8 k.step.toNat ++ leBytes 8 k.idx.toNat ++
  k.z.toList.flatMap (fun z => leBytes 4 z.steps.toNat) ++
  padTo 128 (leBytes 1 k.msel.toNat ++ leBytes 1 k.chain.armed.toNat ++ leBytes 1 k.chain.sem.toNat ++ leBytes 1 0 ++ leBytes 4 k.chain.remaining) ++
  k.fifo.toList.flatMap fifoBytes ++
  regBytes l.s k.s.toList ++ regBytes l.aReg k.a.toList ++ regBytes (fun _ => l.x) k.x.toList ++
  regBytes (fun i => decide (i ≠ 0) && l.k) k.k.toList ++ regBytes (fun _ => l.h) k.h.toList ++
  k.ft.toList.flatMap (fun v => leBytes 4 (if l.ft then v.toNat else 0)) ++
  (List.range 8).flatMap (fun i => leBytes 128 (if l.m && decide (i ≠ 0) then (k.m.toList.getD i {}).v.toNat else 0))

/-- A queue's 16 entries. -/
def queueBytes (l : List VecReg) : List Byte := padTo 8192 (l.flatMap (fun e => leBytes 512 e.v.toNat))

/-- A stationary section (Table 8.6). -/
def WSlot.bytes (w : WSlot) : List Byte :=
  padTo 0x9FC0 (w.cols.toList.flatMap (fun c => leBytes 256 c.v.toNat) ++ leBytes 4096 w.side.toNat) ++
    padTo 64 (leBytes 1 w.wfmt.toNat ++ leBytes 1 w.west.toNat)

/-- A tile, row-major. -/
def Tile.bytes (t : Tile) : List Byte := t.rows.toList.flatMap (fun r => leBytes 512 r.v.toNat)

/-- The sections of an image past its first 16 bytes: offset and bytes. `strm` are the 16 KiB of the stream state, whose
layout the spec does not give. DESIGN CHOICE (notes/assumptions/46.md). DESIGN CHOICE (notes/assumptions/92.md). -/
def Core.sections (k : Core) (l : Live) (spt : List Byte) (spans : List (Nat × Nat)) (strm : List Byte) : List (Nat × List Byte) :=
  [(0x10, k.control l), (0x1480, padTo 64 spt)] ++
  (if l.strm then [(0x4000, strm), (0x8000, (k.iq.toList ++ k.oq.toList).flatMap queueBytes)] else []) ++
  (if (List.range 32).any l.v then
    [(0x20000, (List.range 32).flatMap (fun i => leBytes 512 (if l.v i then (k.v.toList.getD i {}).v.toNat else 0)))] else []) ++
  ((List.range 2).filter l.w).map (fun i => (0x24000 + 0xA000 * i, (k.w.toList.getD i {}).bytes)) ++
  ((List.range 16).filter l.z).map (fun i => (0x40000 + 0x10000 * i, (k.z.toList.getD i {}).bytes)) ++
  spans.map (fun p => (0x200000 + p.1, k.spad.slice p.1 p.2))

/-- Bytes of a save slot. -/
def slotBytes : Nat := 0x800000

/-- Writes sections at a base; the first failure ends it. -/
def writeSections (p : Path) (base : Nat) : List (Nat × List Byte) → W (Except Bad Unit)
  | [] => return .ok ()
  | (o, b) :: r => do
    walkTurn p.ids p.ctx (base + o) b.length
    match ← writeMem p (base + o) b with
    | .error e => return .error e
    | .ok _ => writeSections p base r

/-! ## Reading an image back (R108) -/

/-- A field of the control section, whose bytes `c` begin at offset 0. -/
def at_ (c : List Byte) (o n : Nat) : Nat := leNat ((c.drop o).take n)

/-- A vector of `n` values from an index function. -/
def vecFrom {α : Type} (n : Nat) (f : Nat → α) : Vector α n := Vector.ofFn (fun i => f i.val)

/-- Loop level `n` of the engine in place `e`. -/
def loopFrom (c : List Byte) (e n : Nat) : LoopLevel :=
  let o := 0xC0 + 64 * e + 16 * n
  let s := at_ c o 4
  { isOpen := bitsOf s 31 31 == 1, start := BitVec.ofNat 16 s, frame := BitVec.ofNat 5 (bitsOf s 20 16), stop := BitVec.ofNat 16 (at_ c (o + 4) 4),
    index := BitVec.ofNat 64 (at_ c (o + 8) 4), remaining := BitVec.ofNat 64 (at_ c (o + 12) 4) }

/-- Engine `e`, in place `i` of the image's order, with its ring queue numbered `q` in ring order. -/
def engineFrom (c : List Byte) (i : Nat) (pc : BitVec 17) (ahead behind : Nat) : EngineSt :=
  let o := 0x200 + 48 * i
  { pc := pc, fstat := BitVec.ofNat 5 (at_ c (0x18 + 8 * i) 8), b := vecFrom 4 (fun j => BitVec.ofNat 16 (at_ c (0x80 + 8 * i + 2 * j) 2)),
    loops := vecFrom 4 (loopFrom c i),
    rets := ((List.range (Nat.min 16 (at_ c (o + 32) 1))).map (fun j => BitVec.ofNat 17 (at_ c (o + 2 * j) 2))).reverse,
    toAhead := at_ c (0x300 + ahead) 1, toBehind := at_ c (0x305 + behind) 1 }

/-- A register of 8 bytes. -/
def regFrom (c : List Byte) (o i : Nat) : Reg := { v := word64 (at_ c (o + 8 * i) 8) }

/-- A value FIFO. -/
def fifoFrom (c : List Byte) (i : Nat) : List (BitVec 64) :=
  let o := 0x400 + 256 * i
  (List.range (Nat.min 16 (at_ c o 1))).map (fun j => word64 (at_ c (o + 8 + 8 * j) 8))

/-- The stage configuration. -/
def stageFrom (c : List Byte) : Option Stage :=
  let x := at_ c 0x61 1
  if bitsOf x 2 2 = 1 then some { lvl := BitVec.ofNat 2 x, depth := at_ c 0x62 1, cur := at_ c 0x63 1 } else none

/-- A core as the control section sets it, all else zero; every engine stands at `pc`. -/
def controlFrom (c : List Byte) (pc : BitVec 17) (base : Core) : Core :=
  { base with
    engS := engineFrom c 0 pc 0 4, engA := engineFrom c 1 pc 1 0, engV := engineFrom c 2 pc 3 2,
    engM := engineFrom c 3 pc 2 1, engX := engineFrom c 4 pc 4 3
    slip := word64 (at_ c 0x10 8), sem := vecFrom 16 (fun i => BitVec.ofNat 16 (at_ c (0x40 + 2 * i) 2)),
    f := vecFrom 8 (fun i => { v := bitsOf (at_ c 0x60 1) i i == 1 : FlagReg }), stage := stageFrom c,
    vcfg := BitVec.ofNat 17 (at_ c 0x320 4), seed := word64 (at_ c 0x328 8), step := word64 (at_ c 0x330 8), idx := word64 (at_ c 0x338 8),
    z := vecFrom 16 (fun i => { steps := BitVec.ofNat 32 (at_ c (0x340 + 4 * i) 4) : Tile }), msel := BitVec.ofNat 1 (at_ c 0x380 1),
    chain := { armed := at_ c 0x381 1 != 0, sem := BitVec.ofNat 4 (at_ c 0x382 1), remaining := at_ c 0x384 4 }
    fifo := vecFrom 8 (fifoFrom c), s := vecFrom 64 (regFrom c 0xC00), a := vecFrom 32 (regFrom c 0xE00), x := vecFrom 16 (regFrom c 0xF00),
    k := vecFrom 16 (regFrom c 0xF80), h := vecFrom 8 (regFrom c 0x1000), ft := vecFrom 16 (fun i => BitVec.ofNat 32 (at_ c (0x1040 + 4 * i) 4)),
    m := vecFrom 8 (fun i => { v := BitVec.ofNat 1024 (at_ c (0x1080 + 128 * i) 128) : MaskReg }) }

/-- A row of 512 bytes. -/
def rowFrom (b : List Byte) (i : Nat) : VecReg := { v := BitVec.ofNat 4096 (at_ b (512 * i) 512) }

/-- A stationary slot. -/
def wslotFrom (b : List Byte) : WSlot :=
  { cols := vecFrom 128 (fun i => { v := BitVec.ofNat 2048 (at_ b (256 * i) 256) : WCol }), side := BitVec.ofNat 32768 (at_ b 0x8000 4096),
    wfmt := BitVec.ofNat 4 (at_ b 0x9FC0 1), west := at_ b 0x9FC1 1 == 1 }

/-- Sections of an image past the control section that the bitmaps name: what a section sets in the core. -/
inductive Section where
  | v
  | w (i : Fin 2)
  | z (i : Fin 16)
  | queues
  | span (base len : Nat)
  deriving DecidableEq, Repr, Inhabited

/-- Offset and length of a section. -/
def Section.place : Section → Nat × Nat
  | .v => (0x20000, 0x4000)
  | .w i => (0x24000 + 0xA000 * i.val, 0xA000)
  | .z i => (0x40000 + 0x10000 * i.val, 0x10000)
  | .queues => (0x8000, 0x18000)
  | .span b n => (0x200000 + b, n)

/-- The core with a section's bytes. Queue entries beyond those held, and tags, come from what was kept. -/
def Section.load (k : Core) (kept : Kept) (b : List Byte) : Section → Core
  | .v => { k with v := vecFrom 32 (rowFrom b) }
  | .w i => { k with w := k.w.set i (wslotFrom b) }
  | .z i => { k with z := k.z.set i { k.z[i] with rows := vecFrom 128 (rowFrom b) } }
  | .queues =>
    let entry := fun (q j : Nat) => ({ rowFrom b (16 * q + j) with p := ((kept.iq.toList.getD q []).getD j {}).p } : VecReg)
    { k with iq := vecFrom 8 (fun q => (List.range (kept.iq.toList.getD q []).length).map (entry q))
             streams := kept.streams, rings := kept.rings, unfold := kept.unfold }
  | .span a n => { k with spad := k.spad.splice a (b.take n) }

/-- The sections that bitmaps name. -/
def Live.parts (l : Live) (spt : List Byte) : List Section :=
  (if l.strm then [.queues] else []) ++ (if (List.range 32).any l.v then [.v] else []) ++
  (([0, 1] : List (Fin 2)).filter (fun i => l.w i.val)).map .w ++
  ((List.finRange 16).filter (fun i => l.z i.val)).map .z ++
  ((List.range 8).filter l.sp).map (fun i => .span (spEntry spt i).1 (spEntry spt i).2)

/-- Reads the sections one after another into a core. -/
def loadParts (p : Path) (base : Nat) (kept : Kept) : List Section → Core → W (Except Bad Core)
  | [], k => return .ok k
  | x :: r, k => do
    walkTurn p.ids p.ctx (base + x.place.1) x.place.2
    match ← readMem p (base + x.place.1) x.place.2 with
    | .error e => return .error e
    | .ok b => loadParts p base kept r (x.load k kept b)

end Sys2Proof.Machine
end

