-- ==== Sys2Proof/Machine/Playmaker.lean ====
section
/-!
DEFINITION. Playmaker: cards in its queues (R277 to R280), the records of graphs and nodes (R397, R398, R411), the
granting of cores, and the dispatch decision (R104, R281 to R283, R286).
-/
namespace Sys2Proof.Machine

/-! ## Contexts (R93) -/

/-- A context whose work is dispatched. -/
def Ctx.dispatches (c : Ctx) : Bool := c.state == .loaded || c.state == .runnable || c.state == .running

/-- Whether a context holds a core, a CE or a Caddie slot. -/
def State.holds (s : State) (ctx : BitVec 8) : Bool :=
  s.gangs.any (fun g => g.2.ctx == ctx && !(g.2.cores.filter (fun c => (s.core c).gang == some g.1)).isEmpty) ||
  s.ces.any (fun c => match c.2.run with
    | some r => (lookup r.launch s.launches).any (fun l => l.ctx == ctx)
    | none => false) ||
  s.walks.any (fun w => w.2.ctx == ctx && w.2.st == .walking)

/-- Whether a context has work pending. -/
def State.pending (s : State) (ctx : BitVec 8) : Bool :=
  s.hub.any (fun h => h.2.ctx == ctx && (h.2.st == .queued || h.2.st == .running)) || s.gangs.any (fun g => g.2.ctx == ctx) ||
  s.launches.any (fun l => l.2.ctx == ctx) || s.walks.any (fun w => w.2.ctx == ctx) ||
  s.graphs.any (fun g => g.ctx == ctx && g.status == 1) || s.skReqs.any (fun q => q.ctx == ctx) ||
  s.graphWait.any (fun q => q.ctx == ctx && q.core.isNone)

/-- LOADED, RUNNABLE and RUNNING by what the context holds and has pending (Table 4.2). -/
def State.settleCtx (s : State) (ctx : BitVec 8) : State :=
  let c := s.ctx ctx
  if c.dispatches then
    s.setCtx ctx { c with state := if s.holds ctx then .running else if s.pending ctx then .runnable else .loaded }
  else s

/-! ## Graph and node records -/

def State.graph (s : State) (ctx : BitVec 8) (a : Nat) : Option Graph := s.graphs.find? (fun g => g.ctx == ctx && g.addr == a)
def Graph.node (g : Graph) (n : Nat) : Node := g.nodes.getD n {}
def Graph.own (g : Graph) : Own := { ctx := g.ctx, region := g.region, gen := g.gen.setWidth 16 }

/-- A doubleword or part of one of a record, when it changed. -/
def writeChange (o : Own) (a n new : Nat) (old : Option Nat) : W Unit := if old = some new then pure () else hubWriteN o a n new

/-- Device fields of the header (Table 15.1). -/
def Graph.words (g : Graph) : Nat × Nat × Nat × Nat :=
  (g.status + 16 * g.dpol + 2 ^ 16 * g.region + 2 ^ 32 * g.gen.toNat, g.ndone + 2 ^ 32 * g.ncanc, g.nfail + 2 ^ 32 * g.retries, g.icount % 2 ^ 32)
/-- Device doublewords of the node record (Table 15.2). -/
def Node.words (n : Node) : Nat × Nat × Nat :=
  (n.state.code + 16 * n.policy + 64 * n.sv.toNat + 256 * n.att + 2 ^ 16 * n.maxr + 2 ^ 32 * n.pend + 2 ^ 48 * n.init,
   n.fcode.toNat + 256 * n.fdetail.toNat, n.csrc.toNat + 2 ^ 32 * n.gen.toNat)

/-- Holds a graph's header fields, and writes those that changed. -/
def keepGraph (g : Graph) : W Unit := do
  let old := ((← get).graph g.ctx g.addr).map (·.words)
  modify (fun s => { s with graphs := s.graphs.map (fun x => if x.ctx == g.ctx && x.addr == g.addr then { g with nodes := x.nodes } else x) })
  if g.status ≠ 1 then noteRecs g.ctx g.runs
  writeChange g.own (g.addr + 0x20) 8 g.words.2.1 (old.map (·.2.1))
  writeChange g.own (g.addr + 0x28) 8 g.words.2.2.1 (old.map (·.2.2.1))
  writeChange g.own (g.addr + 0x3C) 4 g.words.2.2.2 (old.map (·.2.2.2))
  writeChange g.own g.addr 8 g.words.1 (old.map (·.1))

/-- Changes a graph's header fields. -/
def onGraph (ctx : BitVec 8) (a : Nat) (f : Graph → Graph) : W Unit := do
  match (← get).graph ctx a with
  | some g => keepGraph (f g)
  | none => pure ()

/-- The owner of a node's work and of its records. -/
def Graph.ownNode (g : Graph) (i : Nat) (n : Node) : Own :=
  { g.own with region := n.region, node := BitVec.ofNat 32 i, attempt := BitVec.ofNat 8 n.att }

/-- Holds a node, and writes what changed of its record. -/
def keepNode (r : NodeRef) (n : Node) : W Unit := do
  match (← get).graph r.ctx r.graph with
  | none => pure ()
  | some g =>
    let old := (g.node r.node).words
    let g' := { g with nodes := g.nodes.set r.node n }
    modify (fun s => { s with graphs := s.graphs.map (fun x => if x.ctx == r.ctx && x.addr == r.graph then g' else x) })
    let a := g.ntab + 64 * r.node
    let o := g.ownNode r.node n
    writeChange o (a + 0x20) 8 n.words.2.1 (some old.2.1)
    writeChange o (a + 0x28) 8 n.words.2.2 (some old.2.2)
    writeChange o a 8 n.words.1 (some old.1)

/-- The node of a reference. -/
def State.nodeOf (s : State) (r : NodeRef) : Option Node :=
  match s.graph r.ctx r.graph with
  | some g => g.nodes[r.node]?
  | none => none

/-- Changes a node. -/
def onNode (r : NodeRef) (f : Node → Node) : W Unit := do
  match (← get).nodeOf r with
  | some n => keepNode r (f n)
  | none => pure ()

/-- A node state that is final. -/
def NState.final (x : NState) : Bool := x == .done || x == .faulted || x == .cancelled

/-- The completion record of node `i` (R411). -/
def writeNodeRecord (g : Graph) (i : Nat) (n : Node) : W Unit :=
  let bits := n.card.isSome.toNat + 2 * n.state.final.toNat + 4 * (n.state == .cancelled).toNat + 8 * (n.state.final && n.faulted).toNat
  if n.crec = 0 then pure ()
  else do
    noteRecs g.ctx [(n.crec, 16)]
    hubWrite (g.ownNode i n) n.crec (recordBytes bits (if n.state.final && n.faulted then n.fcause else 0) ((n.card.map (·.jobid)).getD 0))

/-! ## Cards (R278) -/

def State.hubCard (s : State) (id : Nat) : Option HubCard := lookup id s.hub
/-- Changes a card. -/
def State.onHub (s : State) (id : Nat) (f : HubCard → HubCard) : State :=
  { s with hub := s.hub.map (fun x => if x.1 = id then (id, f x.2) else x) }

/-- The owner of a card's work. -/
def State.hubOwn (s : State) (h : HubCard) : Own :=
  match h.node with
  | none => { ctx := h.ctx, region := h.region }
  | some r =>
    let gen := ((s.graph r.ctx r.graph).map (·.gen)).getD 0
    { ctx := h.ctx, region := h.region, node := BitVec.ofNat 32 r.node, gen := gen.setWidth 16,
      attempt := BitVec.ofNat 8 (((s.nodeOf r).map (·.att)).getD 0) }

/-- Cores in service (R10, R12). -/
def coreOn (w : BitVec 32) : Nat := 26 - ((List.range 26).filter (fun i => w.getLsbD i)).length
def State.coresInService (s : State) : Nat := Nat.min 96 ((s.cfg.coredis.toList.map coreOn).sum)

/-- Cards Playmaker can hold queued (R277). -/
def queueRoom : Nat := 65536
def State.queued (s : State) : Nat := (s.hub.filter (fun h => h.2.st == .queued)).length

/-- a < b modulo 2^48 (R280). -/
def before48 (a b : Nat) : Bool := let d := (b + 2 ^ 48 - a % 2 ^ 48) % 2 ^ 48; decide (1 ≤ d) && decide (d < 2 ^ 47)
def max48 (a b : Nat) : Nat := if before48 a b then b else a

/-- VT(q) and V(L). -/
def State.vtOf (s : State) (ctx : BitVec 8) (region level : Nat) : Nat :=
  ((s.vtq.find? (fun x => x.1 == (ctx, region, level))).map (·.2)).getD 0
def State.setVt (s : State) (ctx : BitVec 8) (region level v : Nat) : State :=
  { s with vtq := s.vtq.filter (fun x => x.1 != (ctx, region, level)) ++ [((ctx, region, level), v)] }
def State.vl (s : State) (level : Nat) : Nat := (lookup level s.vtl).getD 0

/-- The deadline of a card that enters QUEUED, and VT(q) after it (R280). -/
def State.deadline (s : State) (ctx : BitVec 8) (region level : Nat) (c : Card) : Nat × State :=
  let vt := s.vtOf ctx region level
  let w := Nat.max 1 ((s.ctx ctx).weightEff region)
  let d := if c.vdl then c.vdeadline.toNat else (max48 vt (s.vl level) + c.cost.toNat * 65536 / w) % 2 ^ 48
  (d, s.setVt ctx region level (max48 vt d))

/-- A place among cards of one deadline (R281): a submission takes a submission number (R277), a node's card the number of
its entry into QUEUED. -/
def State.takeOrder (s : State) (isNode : Bool) : Nat × State :=
  if isNode then (s.queueNext, { s with queueNext := s.queueNext + 1 }) else (s.subNext, { s with subNext := s.subNext + 1 })

/-- The generation that a card of a group carries, at its acceptance (R445); none while no such group is bound. -/
def State.cardTag (s : State) (ctx : BitVec 8) (c : Card) : Option (BitVec 32) := if c.isRemote then (s.group ctx c.grp).map (·.gen) else none

/-- Whether a card asks for more than its region's budget, or than the cores in service (R97). DESIGN CHOICE (notes/assumptions/89.md). -/
def State.overBudget (s : State) (ctx : BitVec 8) (region : Nat) (c : Card) : Bool :=
  (c.op == opKLAUNCH && (decide (s.coresInService < c.ext0.toNat) || decide ((s.ctx ctx).coresEff region < c.ext0.toNat))) ||
  decide ((s.ctx ctx).fpentEff region < (fpEntries c.ranges).length)

/-- A card enters QUEUED at the level and with the generation fixed at its acceptance (R279, R445); its number in Playmaker. -/
def enqueue (ctx : BitVec 8) (region level : Nat) (c : Card) (node : Option NodeRef) (page : Bool) (sig : Option (Nat × Nat))
    (tag : Option (BitVec 32)) : W Nat := do
  let s ← get
  let (d, s) := s.deadline ctx region level c
  let (n, s) := s.takeOrder node.isSome
  let h : HubCard := { ctx := ctx, card := c, region := region, level := level, deadline := d, order := n, node := node, page := page, sig := sig, tag := tag }
  let id := s.hubNext
  set (({ s with hub := s.hub ++ [(id, h)], hubNext := id + 1 } : State).settleCtx ctx)
  return id

/-- The card of a saved gang is QUEUED again at its level; a pushed card keeps its submission number (R281), and a card that
was posted as LATE is not posted again (R286). -/
def requeue (id : Nat) : W Unit := do
  let s ← get
  match s.hubCard id with
  | none => pure ()
  | some h =>
    let (d, s) := s.deadline h.ctx h.region h.level h.card
    let (n, s) := if h.node.isSome then s.takeOrder true else (h.order, s)
    set (s.onHub id (fun h => { h with st := .queued, deadline := d, order := n }))

/-- A card leaves Playmaker. -/
def State.dropHub (s : State) (id : Nat) : State := { s with hub := erase id s.hub }

/-- The fault of a card that runs (R274), handled by CARD_FAULT. DEDUCED (notes/assumptions/43.md). -/
def faultHub (id : Nat) (c : BitVec 8) (d : BitVec 64) : W Unit := modify (fun s => s.faultCard (.hub id) (c, d))

/-! ## Cores and gangs -/

/-- A core is free again: nothing it held is held any more. Its registers and memories stay (R98). -/
def Core.release (k : Core) : Core :=
  { k with mode := .free, gang := none, claims := [], cards := [], rsigs := [], unfold := none,
           streams := Vector.replicate 16 none, rings := Vector.replicate 8 none, causes := [], stopReq := false,
           preq := false, mon := false, entry := none, held := false, forced := false, semWaits := [], semIncs := [], stepq := [] }

/-- Whether a requester is an engine of core `c`. -/
def Who.isCore (c : Nat) : Who → Bool
  | .eng x _ => x == c
  | .owner o => o == .core c

/-- Frees a core; what it still waited for is withdrawn. -/
def State.freeCore (s : State) (c : Nat) : State :=
  { (s.onCore c Core.release) with
    walkReqs := s.walkReqs.filter (fun q => !q.who.isCore c), walkFails := s.walkFails.filter (fun q => !q.who.isCore c),
    fpWait := s.fpWait.filter (fun q => !q.who.isCore c), flights := s.flights.filter (fun f => f.core != c),
    graphWait := s.graphWait.filter (fun q => q.core != some c)
    accIn := s.accIn.filter (fun q => match q.src with
      | .x x _ => x != c
      | _ => true)
    xfers := s.xfers.filter (fun q => match q.2 with
      | .card (.x x _) _ => x != c
      | .rsig x _ _ => x != c
      | _ => true)
    walks := s.walks.map (fun w => match w.2.card with
      | some (.x x _) => if x = c then (w.1, { w.2 with card := none }) else w
      | _ => w) }

/-- A core that no gang holds. -/
def State.freeCores (s : State) : List Nat := (List.range s.coresInService).filter (fun c => (s.core c).gang.isNone)

/-- R98: a core that begins work for another context is zeroed, its translation caches flushed. The cycle counter goes on
(R118). DESIGN CHOICE (notes/assumptions/100.md). -/
def State.zeroCore (s : State) (c : Nat) : State :=
  let k : Core := { cycle := (s.core c).cycle }
  { (s.setCore c k) with tlb := s.tlb.filter (fun e => match e.cache with
      | .eng x _ => x != c
      | _ => true) }

/-- Zeroes a core for a context unless it last ran for it. -/
def State.claimCore (s : State) (c : Nat) (ctx : BitVec 8) : State := if (s.core c).lastCtx = ctx then s else s.zeroCore c

/-- `n` cores of a list, chosen freely. DESIGN CHOICE (notes/assumptions/45.md). -/
def pickCores : Nat → List Nat → W (List Nat)
  | 0, _ => return []
  | n + 1, l => do
    match l[(← anyBelow l.length)]? with
    | none => return []
    | some c => return c :: (← pickCores n (l.filter (· ≠ c)))

def State.gang (s : State) (g : Nat) : Option Gang := lookup g s.gangs
def State.setGang (s : State) (g : Nat) (k : Gang) : State := { s with gangs := assign g k s.gangs }
def State.onGang (s : State) (g : Nat) (f : Gang → Gang) : State :=
  match s.gang g with
  | some k => s.setGang g (f k)
  | none => s

/-- The cores that a gang holds now; a rank that has saved holds none. -/
def State.gangCores (s : State) (g : Nat) : List Nat :=
  match s.gang g with
  | some k => k.cores.filter (fun c => (s.core c).gang == some g)
  | none => []

/-- Frees every core of a gang; their pins end (R388). -/
def State.freeGang (s : State) (g : Nat) : State :=
  (s.gangCores g).foldl (fun s c => (s.freeCore c).dropPins (.core c)) s

/-- Save slots of a context that no image holds. -/
def Ctx.freeSlots (c : Ctx) : List Nat := (List.range c.savecnt).filter (fun i => !c.saveSlots.any (fun x => x.1 == i))

/-- Slots that gangs asked to yield will take. DESIGN CHOICE (notes/assumptions/102.md). -/
def State.slotsDue (s : State) (ctx : BitVec 8) : Nat :=
  (s.gangs.map (fun g => if g.2.ctx = ctx && g.2.preq then g.2.size - g.2.savedAt.length else 0)).sum

/-- R104: a gang is asked to yield; a gang in LOADING when it enters RUNNING (R414), one in the monitor at ERET. DESIGN CHOICE (notes/assumptions/102.md). -/
def State.askYield (s : State) (g : Nat) : State :=
  match s.gang g with
  | none => s
  | some k =>
    if k.preq || (s.ctx k.ctx).freeSlots.length < s.slotsDue k.ctx + k.size then s
    else
      let s := s.setGang g { k with preq := true }
      if k.state = .running || k.state = .saving then (s.gangCores g).foldl (fun s c => s.onCore c (fun x => { x with preq := true })) s else s

/-! ## Granting -/

/-- What keeps a card from being granted now. -/
inductive Grant where
  | granted
  | noCores
  | noEngine
  deriving DecidableEq, Repr, Inhabited

/-- Cards that run on the 16 transfer engines (R278). -/
def Card.onEngine (c : Card) : Bool := !(c.op == opKLAUNCH || c.op == opSKLAUNCH || c.op == opWALKJ)

/-- The executor of a node's card has started (R402). -/
def nodeStarted (h : HubCard) : W Unit := do
  match h.node with
  | some r => onNode r (fun n => if n.state = .dispatched then { n with state := .running } else n)
  | none => pure ()

/-- A granted hub card's footprints: entered, waiting, or the fault of a conflict (R277). -/
def startHub (id : Nat) : W Unit := do
  match (← get).hubCard id with
  | none => pure ()
  | some h =>
    if h.entered || h.fault.isSome then pure ()
    else
      match ← enterFps (.owner (.hub id)) (.hub id) h.ctx h.region h.card.ranges true with
      | .waiting => pure ()
      | .bad (c, d) => faultHub id c d
      | .entered ids =>
        modify (fun s => s.onHub id (fun h => { h with entered := true, fps := ids }))
        if h.card.onEngine then nodeStarted h

/-- A card is granted: RUNNING, its node DISPATCHED for a new attempt (R402), V(L) raised (R281). -/
def markGranted (id : Nat) (h : HubCard) : W Unit := do
  modify (fun s => { (s.onHub id (fun h => { h with st := .running })) with vtl := assign h.level (max48 (s.vl h.level) h.deadline) s.vtl })
  match h.node with
  | some r => onNode r (fun n => if n.state = .ready then { n with state := .dispatched, att := n.att + 1, faulted := false, fcause := 0 } else n)
  | none => pure ()

/-- Puts a gang on cores in ascending order. -/
def State.seat (s : State) (g : Nat) (k : Gang) (cs : List Nat) (mode : CoreMode) : State :=
  let cs := (List.range 96).filter (fun c => cs.contains c)
  let s := cs.foldl (fun s c => (s.claimCore c k.ctx).onCore c (fun x => { x with mode := mode, gang := some g, lastCtx := k.ctx })) s
  s.setGang g { k with cores := cs }

/-- The debugger's settings for an attempt of a node that is dispatched now (R114, R482). -/
def State.debugFor (s : State) (h : HubCard) : BitVec 64 × BitVec 64 :=
  match h.node with
  | none => (0, 0)
  | some r => (((s.ctx r.ctx).debugs.find? (fun d => d.1 == r.graph && d.2.1 == r.node)).map (·.2.2)).getD (0, 0)

/-- Grants a KLAUNCH card all its cores, or none (R282, R283): a new gang in LOADING, or a saved one in RESTORING. DESIGN CHOICE (notes/assumptions/45.md). DESIGN CHOICE (notes/assumptions/89.md). -/
def grantKernel (id : Nat) (h : HubCard) : W Grant := do
  let s ← get
  let n := h.card.ext0.toNat
  if s.overBudget h.ctx h.region h.card then
    markGranted id h
    faultHub id cBUDGET (word64 h.region)
    return .granted
  let free := s.freeCores
  if free.length < n || !s.coresFit h.ctx h.region n then return .noCores
  let cs ← pickCores n free
  match h.gang.bind s.gang with
  | some k =>
    markGranted id h
    modify (fun s => (s.seat (h.gang.getD 0) { k with state := .restoring, preq := false, pastQuantum := false } cs .restoring).settleCtx h.ctx)
  | none =>
    markGranted id h
    let s ← get
    let o := s.hubOwn h
    let g := s.gangNext
    let k : Gang :=
      { ctx := h.ctx, state := .loading, card := id, cores := [], size := n, textVa := h.card.src.toNat, textLen := h.card.ext2.toNat + 1,
        winVa := h.card.dst.toNat, winLen := h.card.ext1.toNat, region := BitVec.ofNat 16 h.region, node := o.node, gen := o.gen,
        attempt := if h.node.isSome then o.attempt else 1, dbg := s.debugFor h }
    let s := { (s.onHub id (fun h => { h with gang := some g })) with gangNext := g + 1 }
    set ((s.seat g k cs .loading).settleCtx h.ctx)
  return .granted

/-- Grants a card what it needs. -/
def grant (id : Nat) (h : HubCard) : W Grant := do
  if h.card.op = opKLAUNCH then grantKernel id h
  else
    let s ← get
    if h.card.onEngine && decide (16 ≤ (s.hub.filter (fun x => x.2.st == .running && x.2.card.onEngine)).length) then return .noEngine
    markGranted id h
    startHub id
    return .granted

/-! ## The dispatch decision (R281, R282) -/

/-- Whether card `a` is selected before `b` (R281). -/
def HubCard.beats (a b : HubCard) : Bool :=
  if a.level ≠ b.level then decide (b.level < a.level)
  else if a.deadline ≠ b.deadline then before48 a.deadline b.deadline
  else match a.node, b.node with
    | some x, some y => if x.node ≠ y.node then decide (x.node < y.node) else decide (a.order < b.order)
    | some _, none => true
    | none, some _ => false
    | none, none => decide (a.order < b.order)

/-- The card selected among a list. -/
def bestOf : List (Nat × HubCard) → Option (Nat × HubCard)
  | [] => none
  | x :: r => match bestOf r with
    | some y => if y.2.beats x.2 then some y else some x
    | none => some x

/-- R104: gangs of lower level, or of the same level and past their quantum, are asked to yield to a selected kernel of
`n` cores, lowest level first, until the cores that are free or will be are enough. DESIGN CHOICE (notes/assumptions/103.md). -/
def preemptFor (h : HubCard) (n : Nat) : W Unit := do
  let levelOf := fun (s : State) (k : Gang) => ((s.hubCard k.card).map (·.level)).getD 63
  let s ← get
  let may := s.gangs.filter (fun g => !g.2.cores.isEmpty && !g.2.cancel && !g.2.preq &&
    (g.2.state == .running || g.2.state == .loading || g.2.state == .monitor) &&
    (decide (levelOf s g.2 < h.level) || (levelOf s g.2 == h.level && g.2.pastQuantum)))
  let sorted := (List.range 64).flatMap (fun l => may.filter (fun g => levelOf s g.2 == l))
  for g in sorted do
    let s ← get
    let coming := (s.gangs.map (fun g => if g.2.preq then (s.gangCores g.1).length else 0)).sum
    if s.freeCores.length + coming < n then set (s.askYield g.1)

/-- LATE events (R286), once for each card: a node's card is the same one in every attempt (R403). -/
def postLate : W Unit := do
  for x in (← get).hub do
    let s ← get
    let h := x.2
    if h.st = .queued && !h.late && before48 h.deadline ((s.vl h.level + 2 ^ 48 - 2 ^ 32) % 2 ^ 48) then
      set (s.onHub x.1 (fun h => { h with late := true }))
      match h.node with
      | some r => onNode r (fun n => { n with late := true })
      | none => pure ()
      postEvent (s.hubOwn h) evLATE 0 (word64 h.deadline) h.card.jobid

/-- Goes through the queued cards in order of selection. Once a kernel cannot be granted, cores are reserved for it, and
later kernels wait; so with the transfer engines. -/
def dispatchLoop : Nat → Bool → Bool → List (Nat × HubCard) → W Unit
  | 0, _, _, _ => pure ()
  | fuel + 1, noCores, noEngine, l => do
    match bestOf l with
    | none => pure ()
    | some (id, h) =>
      let rest := l.filter (fun x => x.1 != id)
      if (noCores && h.card.op = opKLAUNCH) || (noEngine && h.card.onEngine) then dispatchLoop fuel noCores noEngine rest
      else
        match ← grant id h with
        | .granted => dispatchLoop fuel noCores noEngine rest
        | .noEngine => dispatchLoop fuel noCores true rest
        | .noCores =>
          preemptFor h h.card.ext0.toNat
          dispatchLoop fuel true noEngine rest

/-- R93, R104: the gangs of a context that is SUSPENDed are asked to yield, as its save pool has room. -/
def yieldSuspended : W Unit := do
  for g in (← get).gangs do
    let s ← get
    if (s.ctx g.2.ctx).state = .preempting && !(s.gangCores g.1).isEmpty then set (s.askYield g.1)

/-- A dispatch decision. -/
def dispatch : W Unit := do
  yieldSuspended
  postLate
  let s ← get
  let l := s.hub.filter (fun h => h.2.st == .queued && (s.ctx h.2.ctx).dispatches)
  dispatchLoop l.length false false l

end Sys2Proof.Machine
end

