-- ==== Sys2Proof/Machine/Graphs.lean ====
section
/-!
DEFINITION. Graphs: launches (R400), the life of a node (R402 to R404), faults, retries and policies (R405 to R407),
cancellation (R408 to R410), the end of a graph (R412), faults raised through regions (R102), the launch page (R287,
R288), and the words GLAUNCH, GTOK, GSTAT, GCANCEL and QPUSH.
-/
namespace Sys2Proof.Machine

/-! ## READY (R402, R403) -/

/-- The card of a node as Playmaker copies it, or why it is refused (R403). -/
def nodeCard (ctx : BitVec 8) (n : Node) : W (Except Bad Card) := do
  match ← readMem (hubPath ctx) n.cardAddr 128 with
  | .error e => return .error e
  | .ok b =>
    let c := parseCard n.cardAddr b
    match c.checkHub true with
    | some e => return .error (e, word64 n.cardAddr)
    | none =>
      if c.crec ≠ 0 || c.sigsem ≠ 0 then return .error (cILLEGAL, word64 n.cardAddr)
      return .ok { c with region := BitVec.ofNat 16 n.region }

/-- A READY node that is not queued yet: its card is copied on its first entry of the generation and queued. Gives the
refusal of its card, which is a fault of the node. -/
def queueNode (r : NodeRef) : W (Option Bad) := do
  match (← get).graph r.ctx r.graph with
  | none => return none
  | some g =>
    let n := g.node r.node
    if n.state ≠ .ready || n.hub.isSome || decide (queueRoom ≤ (← get).queued) then return none
    let c ← match n.card with
      | some c => pure (Except.ok c)
      | none => nodeCard r.ctx n
    match c with
    | .error e => return some e
    | .ok c =>
      let s ← get
      let level := n.level.getD ((s.ctx r.ctx).level n.region c.prio.toNat)
      let tag := if n.card.isSome then n.tag else s.cardTag r.ctx c
      let id ← enqueue r.ctx n.region level c (some r) false none tag
      modify (fun s => s.onHub id (fun h => { h with late := n.late }))
      let new := { n with card := some c, hub := some id, level := some level, tag := tag }
      keepNode r new
      if n.card.isNone then writeNodeRecord g r.node new
      return none

/-! ## The end of a graph (R401, R412) -/

/-- Leaves RUNNING when every node is final. -/
def settleGraph (ctx : BitVec 8) (a : Nat) : W Unit := do
  match (← get).graph ctx a with
  | none => pure ()
  | some g =>
    if g.status = 1 && g.nodes.all (·.state.final) then
      let st := if g.r102 || 0 < g.nfail then 4 else if 0 < g.ncanc then 3 else 2
      keepGraph { g with status := st }
      postEvent g.own evGRAPHEND st (word64 a) 0
      modify (fun s => s.settleCtx ctx)

/-! ## Cancellation (R408 to R411) -/

/-- A contribution of a cancelled card poisons its bucket, here or at its target, under the generation that the card
carries (R347). -/
def cancelCard (ctx : BitVec 8) (c : Card) (tag : Option (BitVec 32)) (node : BitVec 32) : W Unit := do
  if c.op = opACCW then cancelContribution ctx c.dst.toNat c.destLen none node
  else if c.op = opRACCW then
    match (← get).group ctx c.grp with
    | some g =>
      let m := g.member c.rank
      if c.rank < g.members.length then source fREPORT m.pkgid 0 0 [2, m.ctxid.toNat, g.num, c.roff, c.destLen, (tag.getD g.gen).toNat]
    | none => pure ()

/-- The contributions of a card's work that is cancelled: its own, and those of the X cards of its kernel. -/
def cancelWork (h : HubCard) (node : BitVec 32) : W Unit := do
  cancelCard h.ctx h.card h.tag node
  match h.gang with
  | none => pure ()
  | some g =>
    for c in (← get).gangCores g do
      for x in ((← get).core c).cards.filter (·.live) do cancelCard h.ctx x.card x.tag node

/-- Whether an entry is the ephemeral one of an access in flight (R174). -/
def State.ephemeral (s : State) (id : Nat) : Bool := s.flights.any (fun f => f.fp == some id && !f.rel)

/-- Reports a cancelled node's live writing footprints but the ephemeral ones, in the order of entry (R410). -/
def reportRanges (r : NodeRef) (ids : List Nat) : W Unit := do
  let s ← get
  for f in s.fps.filter (fun f => ids.contains f.id && f.mode.writes && !s.ephemeral f.id) do
    match (← get).graph r.ctx r.graph with
    | none => pure ()
    | some g =>
      if g.icount < g.ilen && g.ilist ≠ 0 then
        let mode := match f.mode with
          | .r => 1 | .w => 2 | .rw => 3 | .acc => 4 | .atom => 5
        hubWrite (g.ownNode r.node (g.node r.node)) (g.ilist + 16 * g.icount) (leBytes 8 (f.base + 2 ^ 56 * mode) ++ leBytes 8 (f.len + 2 ^ 32 * r.node))
      keepGraph { g with icount := g.icount + 1 }

/-- A node becomes CANCELLED: its ranges reported and released, the counts, the records (R409 to R411). `source` keeps
the fault's FCODE. -/
def cancelNode (r : NodeRef) (ids : List Nat) (source : Bool) : W Unit := do
  reportRanges r ids
  releaseFps ids
  match (← get).graph r.ctx r.graph with
  | none => pure ()
  | some g =>
    let n := g.node r.node
    let n := { n with state := .cancelled, sv := false, hub := none, fcode := if source then n.fcode else cCANCELLED,
                      fdetail := if source then n.fdetail else BitVec.ofNat 56 n.cdetail }
    keepNode r n
    onGraph r.ctx r.graph (fun g => { g with ncanc := g.ncanc + 1 })
    writeNodeRecord g r.node n
    if 0 < n.att && !source then postCause r.ctx n.region ((g.ownNode r.node n).cause 7 0 cCANCELLED (word64 n.cdetail))

/-- The live footprints of a gang: its cores', its text and window's, its card's extra one (R263, R406). -/
def State.gangFps (s : State) (gid : Nat) : List Nat :=
  (s.fps.filter (fun f => match f.owner with
    | .core c => (s.core c).gang == some gid
    | .gang g => g == gid
    | .hub id => (s.gang gid).any (fun k => k.card == id)
    | _ => false)).map (·.id)

/-- The footprints of a saved gang. -/
def Gang.heldFps (k : Gang) : List Nat := k.fps ++ k.kept.flatMap (·.2.fps)

/-- All that a gang holds, on its cores and saved. -/
def State.fpsOfGang (s : State) (g : Nat) : List Nat := s.gangFps g ++ ((s.gang g).map Gang.heldFps).getD []

/-- Removes a gang that holds no core any more, its save slots and its catches (R454). -/
def State.dropGang (s : State) (g : Nat) : State :=
  match s.gang g with
  | none => s
  | some k =>
    let c := s.ctx k.ctx
    let s := s.setCtx k.ctx { c with saveSlots := c.saveSlots.filter (fun x => x.2 != g) }
    ({ s with
      gangs := erase g s.gangs, groups := s.groups.map (fun x => if x.catcher = some g then { x with catcher := none } else x), pins := s.pins.filter (fun p => match p.owner with
        | .saved x _ => x != g
        | _ => true) } : State).settleCtx k.ctx

/-- Marks one node with CSRC `src` and DETAIL `det` (R409): whether its state changed. -/
def markNode (r : NodeRef) (src det : Nat) : W Bool := do
  let s ← get
  match s.nodeOf r with
  | none => return false
  | some n =>
    let mark := fun (st : NState) => ({ n with state := st, csrc := BitVec.ofNat 32 src, cdetail := det } : Node)
    let hubc := n.hub.bind s.hubCard
    let contribute : W Unit := match hubc with
      | some h => cancelWork h (BitVec.ofNat 32 r.node)
      | none => pure ()
    match n.state with
    | .idle | .ready | .retrying =>
      contribute
      match n.hub with
      | some id => modify (fun s => s.dropHub id)
      | none => pure ()
      keepNode r (mark n.state)
      cancelNode r [] false
      return true
    | .dispatched | .running =>
      keepNode r (mark .cancelPending)
      match n.hub, hubc with
      | some id, some h =>
        contribute
        modify (fun s => s.onHub id (fun h => { h with cancelled := true }))
        if h.card.op = opKLAUNCH then
          match h.gang with
          | some g =>
            if n.sv then
              let ids := (← get).fpsOfGang g
              modify (fun s => ((s.freeGang g).dropHub id).dropGang g)
              cancelNode r ids false
            else modify (fun s => s.onGang g (fun k => { k with cancel := true }))
          | none => pure ()
        else if h.card.op = opSKLAUNCH then modify (fun s => s.stopLaunch (.card id))
      | _, _ => pure ()
      return true
    | _ => return false

/-- Ascending order without repeats. -/
def insertNat (n : Nat) : List Nat → List Nat
  | [] => [n]
  | m :: r => if n < m then n :: m :: r else if n = m then m :: r else m :: insertNat n r
def sortNat (l : List Nat) : List Nat := l.foldl (fun a n => insertNat n a) []

/-- The breadth-first marking of R408 from a queue on; how many nodes changed. -/
def coneLoop (ctx : BitVec 8) (a src : Nat) : Nat → List Nat → List Nat → Nat → W Nat
  | 0, _, _, k => return k
  | fuel + 1, q, marked, k => do
    match q with
    | [] => return k
    | n :: q =>
      let r : NodeRef := { ctx := ctx, graph := a, node := n }
      let ch ← markNode r src src
      let next := sortNat ((((← get).nodeOf r).map (fun n => n.succs.map (·.dest))).getD [])
      let new := next.filter (fun t => !marked.contains t)
      coneLoop ctx a src fuel (q ++ new) (marked ++ new) (k + if ch then 1 else 0)

/-- The cone of node `n` (R408). DEDUCED (notes/assumptions/54.md). -/
def cone (ctx : BitVec 8) (a n : Nat) : W Nat := do
  match (← get).graph ctx a with
  | none => return 0
  | some g => coneLoop ctx a n (g.nodes.length + 1) [n] [n] 0

/-- A bucket whose graph or queue is cancelled goes to IDLE; its launch stops (Table 12.2). -/
def cancelBuckets (sel : Bucket → Bool) : W Unit := do
  for x in (← get).buckets.filter (fun x => sel x.2) do
    keepBucket x.1 { x.2 with state := 0 }
    dropBucket x.1

/-- A whole-graph cancellation: every node in ascending index (R408). -/
def cancelGraph (ctx : BitVec 8) (a src det : Nat) : W Nat := do
  match (← get).graph ctx a with
  | none => return 0
  | some g =>
    let mut k := 0
    for i in List.range g.nodes.length do
      if ← markNode { ctx := ctx, graph := a, node := i } src det then k := k + 1
    cancelBuckets (fun b => b.ctx == ctx && b.graph == some a)
    return k

/-! ## Faults through regions (R102) -/

/-- Cancels a card that no node owns (R278): QUEUED, it ends CANCELLED; RUNNING, it goes on to its end first. It poisons no
bucket, which only a cancelled node's cards do (R347). -/
def cancelHub (id : Nat) : W Unit := do
  let s ← get
  match s.hubCard id with
  | none => pure ()
  | some h =>
    if h.st = .queued then
      match h.gang with
      | some g =>
        releaseFps (s.fpsOfGang g)
        modify (fun s => s.dropGang g)
      | none => pure ()
      modify (fun s => (s.dropHub id).settleCtx h.ctx)
      writeRecord (hubPath h.ctx) (s.hubOwn h) 7 0 h.card 7 0
    else
      modify (fun s => s.onHub id (fun h => { h with cancelled := true }))
      match h.gang with
      | some g => modify (fun s => s.onGang g (fun k => { k with cancel := true }))
      | none => modify (fun s => s.stopLaunch (.card id))

/-- Cancels every graph and queue of a region and of its descendants. -/
def cancelRegion (ctx : BitVec 8) (n : Nat) : W Unit := do
  let s ← get
  let inside := fun m => (s.ctx ctx).inSubtree n m
  for g in s.graphs.filter (fun g => g.ctx == ctx && g.status == 1 && inside g.region) do
    onGraph ctx g.addr (fun g => { g with r102 := true })
    discard (cancelGraph ctx g.addr 0xFFFFFFFD n)
    settleGraph ctx g.addr
  for h in (← get).hub.filter (fun h => h.2.ctx == ctx && h.2.node.isNone && inside h.2.region) do cancelHub h.1
  cancelBuckets (fun b => b.ctx == ctx && inside b.region)

/-- A chain of records whose first takes index `i` of a longer one: each follows the one before it. DEDUCED (notes/assumptions/93.md). -/
def chainOf (i : Nat) : List Cause → List Cause
  | [] => []
  | r :: l => { r with prev := if i = 0 then 0xFF else BitVec.ofNat 8 (i - 1) } :: chainOf (i + 1) l

/-- The context is fatal: DUMPING. Its cores, and with them its gangs, stop at their next word boundaries. -/
def makeFatal (ctx : BitVec 8) (chain : List Cause) : W Unit := do
  let s ← get
  let c := s.ctx ctx
  if c.serves then
    set (s.setCtx ctx { c with state := .dumping, causes := c.causes ++ chainOf c.causes.length chain })
    for g in s.gangs.filter (fun g => g.2.ctx == ctx) do
      for k in s.gangCores g.1 do modify (fun s => s.onCore k Core.beginStop)

/-- raise of R102; true when some region contains the fault. Each raise to a parent chains the record once more. DEDUCED (notes/assumptions/93.md). -/
def raiseFrom (ctx : BitVec 8) (rec_ : Cause) : Nat → Nat → List Cause → W Bool
  | 0, _, _ => return false
  | fuel + 1, n, chain => do
    let c := (← get).ctx ctx
    if c.fdEff n then return true
    cancelRegion ctx n
    if n = 0 then
      makeFatal ctx chain
      return false
    else raiseFrom ctx rec_ fuel (c.region n).parent.toNat (chain ++ [rec_])
def raiseFault (ctx : BitVec 8) (n : Nat) (rec_ : Cause) : W Bool := raiseFrom ctx rec_ 9 n [rec_]

/-! ## Node events (R402 to R407) -/

/-- RAISE of R407: the node is FAULTED, its fault is raised; a region that contains it ends the graph. -/
def raiseNode (r : NodeRef) (rec_ : Cause) : W Unit := do
  match (← get).graph r.ctx r.graph with
  | none => pure ()
  | some g =>
    let n := { g.node r.node with state := .faulted, hub := none }
    keepNode r n
    onGraph r.ctx r.graph (fun g => { g with nfail := g.nfail + 1 })
    writeNodeRecord g r.node n
    if ← raiseFault r.ctx n.region rec_ then discard (cancelGraph r.ctx r.graph r.node r.node)

/-- R407: the policy of a node whose retries are exhausted; `ids` are the footprints of its last attempt, which the source of
a cone reports (R410). -/
def exhausted (r : NodeRef) (rec_ : Cause) (ids : List Nat) : W Unit := do
  match (← get).graph r.ctx r.graph with
  | none => pure ()
  | some g =>
    let n := g.node r.node
    if (if n.policy = 0 then g.dpol else n.policy) = 1 then
      keepNode r { n with csrc := BitVec.ofNat 32 r.node, cdetail := r.node }
      cancelNode r ids true
      let next := sortNat (n.succs.map (·.dest))
      discard (coneLoop r.ctx r.graph r.node (g.nodes.length + 1) next (r.node :: next) 0)
    else raiseNode r rec_

/-- A fault of node `r` (R406): `ids` are the footprints of its attempt that are live, `refused` that its card was
refused. DEDUCED (notes/assumptions/54.md). -/
def nodeFault (r : NodeRef) (rec_ : Cause) (ids : List Nat) (refused : Bool) : W Unit := do
  match (← get).graph r.ctx r.graph with
  | none => pure ()
  | some g =>
    let n := g.node r.node
    postCause r.ctx n.region rec_
    let n := { n with fcode := rec_.cause, fdetail := rec_.detail.setWidth 56, faulted := true, fcause := rec_.cause, hub := none }
    keepNode r n
    if n.state = .cancelPending then cancelNode r ids false
    else
      if refused || n.maxr < n.att then exhausted r rec_ ids
      else
        keepNode r { n with state := .retrying, oldFps := ids }
        onGraph r.ctx r.graph (fun g => { g with retries := g.retries + 1 })
      releaseFps ids
    dispatch
    settleGraph r.ctx r.graph

/-- The READY nodes that wait for the store. -/
def State.storeWaiters (s : State) : List NodeRef :=
  (s.graphs.filter (fun g => g.status == 1 && (s.ctx g.ctx).serves)).flatMap (fun g =>
    ((List.range g.nodes.length).filter (fun i => (g.node i).state == .ready && (g.node i).hub.isNone)).map (fun i =>
      { ctx := g.ctx, graph := g.addr, node := i }))

/-- The one of least index. -/
def firstNode : List NodeRef → Option NodeRef
  | [] => none
  | r :: l => match firstNode l with
    | some q => if q.node < r.node then some q else some r
    | none => some r

/-- Copies up to `n` of them, as the store has room. -/
def fillLoop : Nat → W Unit
  | 0 => pure ()
  | n + 1 => do
    let s ← get
    match firstNode s.storeWaiters with
    | none => pure ()
    | some r =>
      if s.queued < queueRoom then
        match ← queueNode r with
        | none => pure ()
        | some (c, d) =>
          match (← get).graph r.ctx r.graph with
          | some g => nodeFault r ((g.ownNode r.node (g.node r.node)).cause 7 0 c d) [] true
          | none => pure ()
        fillLoop n

/-- Copies READY nodes into the store while it has room, in ascending index (R403). -/
def fillStore : W Unit := do fillLoop (← get).storeWaiters.length

/-- A dispatch decision; what it grants leaves room in the store. -/
def decide_ : W Unit := do
  dispatch
  fillStore
def execDispatchDecision (s : State) : Host.Outcome State Fault Refusal := event decide_ s

/-- QUANTUM_EXPIRY: gang `arg 0` has run past its QUANTUM (R104). -/
def quantumExpiry : W Unit := do
  let g ← arg 0
  let s ← get
  match s.gang g with
  | none => stall
  | some k =>
    waitFor (decide ((s.ctx k.ctx).eff 10 (fun r => r.quantum.toNat) k.region.toNat ≠ 0) && !k.cores.isEmpty)
    set (s.setGang g { k with pastQuantum := true })
    decide_
def execQuantumExpiry (s : State) : Host.Outcome State Fault Refusal := event quantumExpiry s

/-- A node goes to READY. -/
def makeReady (r : NodeRef) : W Unit := do
  onNode r (fun n => { n with state := .ready, hub := none })
  fillStore

/-- A token over edge `k` of node `r` (R404). -/
def deliver (r : NodeRef) (k : Nat) : W Unit := do
  match (← get).graph r.ctx r.graph with
  | none => pure ()
  | some g =>
    let n := g.node r.node
    match n.succs[k]? with
    | none => pure ()
    | some e =>
      if !e.sent then
        keepNode r { n with succs := n.succs.set k { e with sent := true } }
        hubWriteN (g.ownNode r.node n) (n.succAddr + 4 * k) 4 (e.dest + 2 ^ 30 + 2 ^ 31 * e.early.toNat)
        let t : NodeRef := { r with node := e.dest }
        onNode t (fun x => { x with pend := x.pend - 1 })
        match (← get).nodeOf t with
        | some x => if x.pend = 0 && x.state = .idle then makeReady t
        | none => pure ()

/-- The card of node `r` reaches DONE: DONE, or CANCELLED when it was pending. -/
def nodeDone (r : NodeRef) (ids : List Nat) : W Unit := do
  match (← get).graph r.ctx r.graph with
  | none => pure ()
  | some g =>
    let n := g.node r.node
    if n.state = .cancelPending then cancelNode r ids false
    else
      let n := { n with state := .done, hub := none, faulted := false }
      keepNode r n
      onGraph r.ctx r.graph (fun g => { g with ndone := g.ndone + 1 })
      writeNodeRecord g r.node n
      for k in List.range n.succs.length do deliver r k
    settleGraph r.ctx r.graph

/-- NODE_RETRY_READY: node `arg 2` of the graph at `arg 1` of context `arg 0` has no footprint of its attempt left. -/
def nodeRetryReady : W Unit := do
  let r : NodeRef := { ctx := BitVec.ofNat 8 (← arg 0), graph := ← arg 1, node := ← arg 2 }
  let s ← get
  match s.nodeOf r with
  | none => stall
  | some n =>
    waitFor (n.state == .retrying && (s.ctx r.ctx).serves && !s.fps.any (fun f => n.oldFps.contains f.id))
    makeReady r
def execNodeRetryReady (s : State) : Host.Outcome State Fault Refusal := event nodeRetryReady s

/-! ## Launch (R400) -/

/-- A set reserved bit, an illegal field or a misaligned address of a header. -/
def graphHeaderBad (v : Nat) : Bool :=
  let f := fieldOf v
  f 0 15 6 != 0 || f 8 63 56 != 0 || f 0x18 63 56 != 0 || f 0x30 63 56 != 0 || f 0 5 4 == 0 || f 0 5 4 == 3 ||
  f 0x10 31 0 == 0 || decide (1048576 < f 0x10 31 0) || f 0x10 63 32 == 0 || decide (f 0x10 31 0 < f 0x10 63 32) ||
  f 8 55 0 % 64 != 0 || f 0x18 55 0 % 4 != 0 || f 0x30 55 0 % 16 != 0

/-- A node record's own checks. DEDUCED (notes/assumptions/53.md). -/
def nodeRecordBad (i v : Nat) : Bool :=
  let f := fieldOf v
  f 0 5 4 == 3 || f 0 7 7 != 0 || f 0 31 24 != 0 || f 0 23 16 == 255 || f 8 63 56 != 0 || f 0x10 63 56 != 0 || f 0x18 63 32 != i ||
  f 0x30 63 56 != 0 || f 0x38 63 0 != 0 || f 0x30 55 0 % 16 != 0 || (f 0x18 15 0 != 0 && f 0x10 55 0 % 4 != 0)

/-- The node a record describes, at launch. -/
def nodeOfRecord (v : Nat) (gen : BitVec 32) (succs : List Nat) : Node :=
  let f := fieldOf v
  { policy := f 0 5 4, maxr := f 0 23 16, pend := f 0 63 48, init := f 0 63 48, cardAddr := f 8 55 0, succAddr := f 0x10 55 0,
    succs := succs.map (fun e => { dest := e % 2 ^ 20, early := bitsOf e 31 31 == 1 }), region := f 0x18 31 16, gen := gen, crec := f 0x30 55 0 }

/-- `n` 32-bit words of a list of bytes. -/
def words32 (n : Nat) (b : List Byte) : List Nat := (List.range n).map (fun i => leNat ((b.drop (4 * i)).take 4))

/-- Reads and checks nodes `i` and up. -/
def readNodes (ctx : BitVec 8) (ntab ncount gregion : Nat) (gen : BitVec 32) : Nat → Nat → W (Except Bad (List Node))
  | 0, _ => return .ok []
  | k + 1, i => do
    let a := ntab + 64 * i
    let bad : Bad := (cILLEGAL, word64 a)
    match ← hubRead ctx a 64 with
    | .error e => return .error e
    | .ok b =>
      let v := leNat b
      let ns := fieldOf v 0x18 15 0
      let region := fieldOf v 0x18 31 16
      let c := (← get).ctx ctx
      if nodeRecordBad i v || c.rcount ≤ region || !c.inSubtree gregion region then return .error bad
      match ← (if ns = 0 then pure (Except.ok []) else hubRead ctx (fieldOf v 0x10 55 0) (4 * ns)) with
      | .error e => return .error e
      | .ok sb =>
        let es := words32 ns sb
        let tos := es.map (· % 2 ^ 20)
        if es.any (fun e => bitsOf e 29 20 != 0) || tos.any (fun t => decide (ncount ≤ t) || t == i) || (sortNat tos).length ≠ ns then
          return .error bad
        match ← readNodes ctx ntab ncount gregion gen k (i + 1) with
        | .error e => return .error e
        | .ok r => return .ok (nodeOfRecord v gen es :: r)

/-- How many list entries name node `i`. -/
def indegree (ns : List Node) (i : Nat) : Nat := (ns.map (fun n => (n.succs.filter (fun e => e.dest == i)).length)).sum

/-- Removes nodes that no remaining edge names, as often as needed: what is left lies on or behind a cycle. -/
def peel (ns : List Node) : Nat → List Nat → List Nat
  | 0, l => l
  | fuel + 1, l =>
    let l' := l.filter (fun i => l.any (fun j => (ns.getD j {}).succs.any (fun e => e.dest == i)))
    if l'.length = l.length then l else peel ns fuel l'

/-- Whether tokens, entry list and edges fit together. -/
def graphFits (ns : List Node) (entries : List Nat) : Bool :=
  let all := List.range ns.length
  all.all (fun i => (ns.getD i {}).init == indegree ns i) &&
  sortNat entries == all.filter (fun i => (ns.getD i {}).init == 0) && (sortNat entries).length == entries.length &&
  (peel ns ns.length all).isEmpty

/-- Graphs the package runs at once (R396). -/
def graphRoom : Nat := 4096
def State.running (s : State) : Nat := (s.graphs.filter (fun g => g.status == 1)).length

/-- The launch of the graph at `h`, whose header reads `v`, by a launcher of region `top`: the new generation, or the
refusal. -/
def launchGraph (ctx : BitVec 8) (h v top : Nat) : W (Except Bad Nat) := do
  let s ← get
  let c := s.ctx ctx
  let f := fieldOf v
  let region := f 0 31 16
  let bad : Bad := (cILLEGAL, word64 h)
  if (s.graph ctx h).any (fun g => g.status == 1) || graphHeaderBad v || c.rcount ≤ region || !c.inSubtree top region then
    return .error bad
  let gen := BitVec.ofNat 32 (f 0 63 32 + 1)
  let n := f 0x10 31 0
  match ← readNodes ctx (f 8 55 0) n region gen n 0 with
  | .error e => return .error e
  | .ok ns =>
    match ← hubRead ctx (f 0x18 55 0) (4 * f 0x10 63 32) with
    | .error e => return .error e
    | .ok eb =>
      if !graphFits ns (words32 (f 0x10 63 32) eb) then return .error bad
      let g : Graph := { ctx := ctx, addr := h, dpol := f 0 5 4, region := region, gen := gen, ntab := f 8 55 0, ilist := f 0x30 55 0,
                         ilen := f 0x38 31 0, elist := f 0x18 55 0, elen := f 0x10 63 32, nodes := ns }
      modify (fun s => { s with graphs := s.graphs.filter (fun x => !(x.ctx == ctx && x.addr == h)) ++ [g] })
      hubWriteN g.own (h + 0x20) 8 0
      hubWriteN g.own (h + 0x28) 8 0
      hubWriteN g.own (h + 0x3C) 4 0
      hubWriteN g.own h 8 g.words.1
      for i in List.range n do
        let x := g.node i
        let a := g.ntab + 64 * i
        let o := g.ownNode i x
        hubWriteN o a 8 x.words.1
        hubWriteN o (a + 0x20) 8 x.words.2.1
        hubWriteN o (a + 0x28) 8 x.words.2.2
        for k in List.range x.succs.length do
          match x.succs[k]? with
          | some e => hubWriteN o (x.succAddr + 4 * k) 4 (e.dest + 2 ^ 31 * e.early.toNat)
          | none => pure ()
      for i in (List.range n).filter (fun i => (g.node i).init == 0) do
        onNode { ctx := ctx, graph := h, node := i } (fun x => { x with state := .ready })
      modify (fun s => s.settleCtx ctx)
      fillStore
      return .ok gen.toNat

/-! ## The launch page (R287, R288) -/

/-- A core's launch-page write is a release at package scope of what the core wrote before it (R288). -/
def launchRelease (w : LaunchWrite) : W Unit := do
  match w.core with
  | none => pure ()
  | some (c, n) =>
    waitFor (!(← get).flights.any (fun f => f.core == c && !f.sp && (if f.rel then decide (f.seq ≤ n) else f.mode.writes && decide (f.seq < n))))
    writeBackAll (fun d => d.owner == some c)

/-- The launch-page write an event is about: `arg 0` = 0, entry `arg 1` of those that cores made; 1, a write of the host
of context, offset, size and value. -/
def takeLaunch : W LaunchWrite := do
  let s ← get
  let a := s.cur.args.n
  if a.getD 0 0 = 0 then
    match s.launchQ[a.getD 1 0]? with
    | none => stall
    | some w =>
      set { s with launchQ := s.launchQ.eraseIdx (a.getD 1 0) }
      launchRelease w
      return w
  else return { ctx := BitVec.ofNat 8 (a.getD 1 0), off := a.getD 2 0, size := a.getD 3 0, value := a.getD 4 0 }

/-- A refused write: counted, and posted while a status queue is in force. -/
def refuseLaunch (w : LaunchWrite) (cause : BitVec 8) : W Unit := do
  let c := (← get).ctx w.ctx
  modify (fun s => s.setCtx w.ctx { c with refused := c.refused + 1 })
  if c.serves then postEvent { ctx := w.ctx, region := 0 } evREFUSED (cause.toNat + 256 * (w.off / 8)) (word64 w.value) 0

/-- An accepted write is counted. -/
def acceptLaunch (w : LaunchWrite) : W Unit := do
  let c := (← get).ctx w.ctx
  modify (fun s => (s.setCtx w.ctx { c with accepted := c.accepted + 1 }).settleCtx w.ctx)

/-- A write of a row of Table 9.4 (offset, size) or a refused one within [lo, hi); in SAFE, and before READY, writes are
ignored (R474). -/
def launchWrite (lo hi size : Nat) (act : LaunchWrite → W Unit) : W Unit := do
  let w ← takeLaunch
  waitFor ((← get).dstate == .ready)
  waitFor (decide (lo ≤ w.off) && decide (w.off < hi) && ((lookup w.ctx.toNat (← get).ctxs).isSome))
  let c := (← get).ctx w.ctx
  if !c.serves || w.off ≠ lo || w.size ≠ size then refuseLaunch w cILLEGAL else act w

/-- A graph launch by a launch page, once there is room for it. -/
def pageGraph (w : LaunchWrite) : W Unit := do
  match ← hubRead w.ctx w.value 64 with
  | .error e => refuseLaunch w e.1
  | .ok b =>
    if w.value % 64 ≠ 0 then refuseLaunch w cALIGN
    else
      match ← launchGraph w.ctx w.value (leNat b) 0 with
      | .error e => refuseLaunch w e.1
      | .ok _ => acceptLaunch w

/-- Whether a launch still waits: the S of a core that is stopped, or has left its kernel, launches nothing. -/
def State.stillWaits (s : State) (q : GraphWait) : Bool :=
  match q.core with
  | none => true
  | some c => (s.core c).gang.isSome && !(s.core c).engS.stopped

/-- The launches that wait for room, in order of arrival. -/
def State.graphLine (s : State) : List GraphWait := s.graphWait.filter s.stillWaits

/-- LAUNCH_GRAPH. -/
def execLaunchGraph (s : State) : Host.Outcome State Fault Refusal :=
  event (launchWrite 0 8 8 (fun w => do
    let s ← get
    if graphRoom ≤ s.running || !s.graphLine.isEmpty then
      let q : GraphWait := { ctx := w.ctx, addr := w.value, core := none }
      set (({ s with graphWait := s.graphWait ++ [q] } : State).settleCtx w.ctx)
    else pageGraph w)) s

/-- GRAPH_LAUNCH_DEFERRED: the earliest waiter, a launch page's, has room now. -/
def execGraphLaunchDeferred (s : State) : Host.Outcome State Fault Refusal :=
  event (do
    let s ← get
    match s.graphLine with
    | [] => stall
    | q :: r =>
      waitFor (q.core.isNone && decide (s.running < graphRoom))
      set { s with graphWait := r }
      let w : LaunchWrite := { ctx := q.ctx, off := 0, size := 8, value := q.addr }
      if !((← get).ctx q.ctx).serves then refuseLaunch w cILLEGAL else pageGraph w
      modify (fun s => s.settleCtx q.ctx)) s

/-- LAUNCH_STACK_KERNEL: the 16 bytes are taken; the dispatcher checks the launch later. -/
def execLaunchStackKernel (s : State) : Host.Outcome State Fault Refusal :=
  event (launchWrite 8 0x18 16 (fun w => do
    let q : LaunchReq := { ctx := w.ctx, src := .page, handle := BitVec.ofNat 64 w.value, param := BitVec.ofNat 64 (w.value / 2 ^ 64) }
    modify (fun s => { s with skReqs := s.skReqs ++ [q] })
    acceptLaunch w)) s

/-- A card read and checked for Playmaker (R264): the card, or the refusal. -/
def hubCheck (ctx : BitVec 8) (top a : Nat) (b : List Byte) : W (Except Bad Card) := do
  let c := parseCard a b
  let x := (← get).ctx ctx
  let regionOk := decide (c.region.toNat < x.rcount) && x.inSubtree top c.region.toNat
  match c.checkHub regionOk with
  | some e => return .error (e, word64 a)
  | none => return .ok c

/-- LAUNCH_CARD: a card submitted from region 0; it signals nothing (R270). It waits while Playmaker is full. -/
def execLaunchCard (s : State) : Host.Outcome State Fault Refusal :=
  event (launchWrite 0x18 0x20 8 (fun w => do
    waitFor (decide ((← get).queued < queueRoom))
    match ← hubRead w.ctx w.value 128 with
    | .error e => refuseLaunch w (if w.value % 128 ≠ 0 then cALIGN else e.1)
    | .ok b =>
      match ← hubCheck w.ctx 0 w.value b with
      | .error e => refuseLaunch w e.1
      | .ok c =>
        let s ← get
        if c.sigsem ≠ 0 then refuseLaunch w cILLEGAL
        else if s.overBudget w.ctx c.region.toNat c then refuseLaunch w cBUDGET
        else
          writeRecord (hubPath w.ctx) { ctx := w.ctx, region := c.region.toNat } 7 0 c 1 0
          discard (enqueue w.ctx c.region.toNat ((s.ctx w.ctx).level c.region.toNat c.prio.toNat) c none true none (s.cardTag w.ctx c))
          acceptLaunch w)) s

/-! ## The words (R277, R415 to R419) -/

/-- QPUSH (R277). -/
def qpushBody (d a : BitVec 6) : W Unit := do
  let va := (← rdClean a).toNat
  waitFor (decide ((← get).queued < queueRoom))
  let k ← getC
  let c := (← get).cur.core
  -- the card's read in R173 order; no claim spares it its footprint (R334)
  let l ← orTrap (← xlateAligned .S va 128 .read)
  waitFor (!k.blocked [{ sp := false, lo := va, len := 128, mode := .r }] && !(← get).landing c .S false va 128)
  let ids ← if l.free then pure [] else orTrap (← enterWord [{ sp := false, lo := va, len := 128, mode := .r }] l.cp)
  let b ← orTrap (← readMem ((← get).pathOf c .S) va 128)
  releaseLater c .S ids
  let card ← orTrap (← hubCheck k.lastCtx k.region.toNat va b)
  writeRecord (hubPath k.lastCtx) { ctx := k.lastCtx, region := card.region.toNat } 7 0 card 1 0
  let s ← get
  let q := s.subNext
  let sig := k.gang.map (fun g => (g, k.gangRank.toNat))
  let level := (s.ctx k.lastCtx).level card.region.toNat card.prio.toNat
  discard (enqueue k.lastCtx card.region.toNat level card none false sig (s.cardTag k.lastCtx card))
  wrS d { v := BitVec.ofNat 64 q } 4
def execQpush (d a : BitVec 6) (s : State) : Host.Outcome State Fault Refusal := plain (qpushBody d a) s

/-- The node that started the core's kernel, if a graph's node did. -/
def State.ownNode (s : State) (c : Nat) : Option NodeRef :=
  match (s.core c).gang with
  | none => none
  | some g => match s.gang g with
    | none => none
    | some k => match s.hubCard k.card with
      | none => none
      | some h => h.node

/-- GLAUNCH (R416). -/
def glaunchBody (d a : BitVec 6) : W Unit := do
  let h := (← rdClean a).toNat
  if h % 64 ≠ 0 then trap cALIGN (word64 h)
  let v := leNat (← sRecord h 64)
  drainCore
  let s ← get
  let c := s.cur.core
  let k ← getC
  waitFor (s.ctx k.lastCtx).serves
  let me := fun (q : GraphWait) => q.core == some c
  let first := match s.graphLine with
    | [] => true
    | q :: _ => me q
  if graphRoom ≤ s.running || !first then
    if !s.graphWait.any me then
      let q : GraphWait := { ctx := k.lastCtx, addr := h, core := some c }
      set { s with graphWait := s.graphWait ++ [q] }
    stall
  let gen ← orTrap (← launchGraph k.lastCtx h v k.region.toNat)
  modify (fun s => { s with graphWait := s.graphWait.filter (fun q => !me q) })
  wrS d { v := BitVec.ofNat 64 gen } interlocked
def execGlaunch (d a : BitVec 6) (s : State) : Host.Outcome State Fault Refusal := plain (glaunchBody d a) s

/-- GTOK (R417). -/
def gtokBody (d a : BitVec 6) : W Unit := do
  let t ← rdClean a
  let s ← get
  match s.ownNode s.cur.core with
  | none => illegal
  | some r =>
    match s.nodeOf r with
    | none => illegal
    | some n =>
      match n.succs.findIdx? (fun e => e.early && e.dest == t.toNat) with
      | none => illegal
      | some k =>
        drainCore
        waitFor ((← get).ctx r.ctx).serves
        match (← get).nodeOf r with
        | none => illegal
        | some n =>
          let sent := (n.succs[k]?).any (·.sent)
          if n.state = .cancelPending || sent then wrS d {} interlocked
          else
            deliver r k
            wrS d { v := 1 } interlocked
def execGtok (d a : BitVec 6) (s : State) : Host.Outcome State Fault Refusal := plain (gtokBody d a) s

/-- The graph and selection that GSTAT and GCANCEL name: header address, header contents, node or none for the graph. -/
def graphOperand (a b : BitVec 6) : W (Nat × Nat × Option Nat) := do
  let h := (← rdClean a).toNat
  let x ← rdClean b
  if h % 64 ≠ 0 then trap cALIGN (word64 h)
  let v := leNat (← sRecord h 64)
  let s ← get
  let count := match s.graph (← getC).lastCtx h with
    | some g => g.nodes.length
    | none => fieldOf v 0x10 31 0
  if x.getLsbD 63 then return (h, v, none)
  if x.extractLsb' 32 31 ≠ 0 || count ≤ (x.extractLsb' 0 32).toNat then illegal
  return (h, v, some (x.extractLsb' 0 32).toNat)

/-- GSTAT (R418): an acquire where it returns a final STATUS, or DONE for a node. DEDUCED (notes/assumptions/52.md). -/
def gstatBody (d a b : BitVec 6) : W Unit := do
  let (h, v, sel) ← graphOperand a b
  let ctx := (← getC).lastCtx
  match (← get).graph ctx h with
  | some g =>
    match sel with
    | none =>
      if 2 ≤ g.status then acquireS
      wrS d { v := BitVec.ofNat 64 (g.status + 2 ^ 32 * g.gen.toNat) } interlocked
    | some n =>
      if (g.node n).state = .done then acquireS
      wrS d { v := BitVec.ofNat 64 (g.node n).words.1 } interlocked
  | none =>
    match sel with
    | none => wrS d { v := BitVec.ofNat 64 (v % 16 + 2 ^ 32 * fieldOf v 0 63 32) } interlocked
    | some n =>
      let b ← orTrap (← readMem (hubPath ctx) (fieldOf v 8 55 0 + 64 * n) 8)
      wrS d { v := BitVec.ofNat 64 (leNat b) } interlocked
def execGstat (d a b : BitVec 6) (s : State) : Host.Outcome State Fault Refusal := plain (gstatBody d a b) s

/-- GCANCEL (R419). -/
def gcancelBody (d a b : BitVec 6) : W Unit := do
  let (h, v, sel) ← graphOperand a b
  let k ← getC
  let ctx := k.lastCtx
  let s ← get
  let g := s.graph ctx h
  let region := (g.map (·.region)).getD (fieldOf v 0 31 16)
  if !(s.ctx ctx).inSubtree k.region.toNat region then illegal
  if g.any (fun g => g.status == 1) then
    waitFor (s.ctx ctx).serves
    let n ← match sel with
      | none => cancelGraph ctx h 0xFFFFFFFE 0xFFFFFFFE
      | some n => cone ctx h n
    settleGraph ctx h
    fillStore
    wrS d { v := BitVec.ofNat 64 n } interlocked
  else wrS d {} interlocked
def execGcancel (d a b : BitVec 6) (s : State) : Host.Outcome State Fault Refusal := plain (gcancelBody d a b) s

end Sys2Proof.Machine
end

