-- ==== Sys2Proof/Machine/XEngine.lean ====
section
/-!
DEFINITION. Job cards at work: the X words that submit, cancel and query them (R272 to R276), copies and conversions
(R267 to R269), accumulate-writes, multicasts and remote cards as they leave (R302, R341, R448), and the end of a card
(R266, R274).
-/
namespace Sys2Proof.Machine

/-! ## Signals (R108, R160, R270) -/

/-- An increment for a semaphore of a gang's rank: to its core, or kept for its image while the rank is saved. -/
def State.signalRank (s : State) (g rank : Nat) (sem : BitVec 4) (n : Nat) : State :=
  match s.gang g with
  | none => s
  | some k =>
    if k.savedAt.any (fun x => x.1 == rank) then s.setGang g { k with heldSigs := k.heldSigs ++ [(rank, sem, n)] }
    else
      match k.cores[rank]? with
      | some c => s.onCore c (fun x => { x with semIncs := x.semIncs ++ [{ src := .hub, sem := sem, count := n }] })
      | none => s

/-- Every semaphore of a SIGSEM mask. -/
def maskBits (m : BitVec 16) : List (BitVec 4) := (List.range 16).filterMap (fun i => if m.getLsbD i then some (BitVec.ofNat 4 i) else none)

/-! ## The card an event is about -/

/-- The card that `arg 0` to `arg 2` name: 0, core, ticket; or 1, number in Playmaker. -/
def cardRef : W CardRef := do
  if (← arg 0) = 0 then return .x (← arg 1) (← arg 2) else return .hub (← arg 1)

def Core.card? (k : Core) (t : Nat) : Option XCard := k.cards.find? (fun x => x.ticket == t)
def State.onCard (s : State) (c t : Nat) (f : XCard → XCard) : State :=
  s.onCore c (fun k => { k with cards := k.cards.map (fun x => if x.ticket = t then f x else x) })

/-- How a card reaches memory, the core whose scratchpad it names, and the generation it carries. -/
structure Exec where
  ref : CardRef
  card : Card
  path : Path
  core : Nat
  tag : Option (BitVec 32) := none
  deriving DecidableEq, Repr, Inhabited

/-- A card of operation `op` that may move its data now: RUNNING, its ranges entered and no earlier entrant in its way
(R205); a hub card that still waits for footprints asks again. -/
def takeCard (op : Nat) : W (Option Exec) := do
  let r ← cardRef
  let s ← get
  match r with
  | .x c t =>
    match (s.core c).card? t with
    | none => stall
    | some x =>
      waitFor (decide (c < 96) && x.st == .running && !x.moved && x.fault.isNone && x.card.op == op &&
        !(s.core c).cardBlocked x && !s.flightsBlock c x)
      return some { ref := r, card := x.card, path := { s.jobPath c t with early := x.early }, core := c, tag := x.tag }
  | .hub id =>
    match s.hubCard id with
    | none => stall
    | some h =>
      waitFor (h.st == .running && !h.moved && h.fault.isNone && h.card.op == op && (s.ctx h.ctx).serves)
      startHub id
      match (← get).hubCard id with
      | some h => if h.entered && h.fault.isNone then return some { ref := r, card := h.card, path := hubPath h.ctx, core := 0, tag := h.tag } else return none
      | none => return none
  | .remote _ _ => stall

/-- The card has read and written everything (R266 step 1). -/
def State.setMoved (s : State) (r : CardRef) : State :=
  match r with
  | .x c t => s.onCard c t (fun x => { x with moved := true, early := [] })
  | .hub id => s.onHub id (fun h => { h with moved := true })
  | .remote _ _ => s

/-- What a card's reads find in versioned pages where they begin (R300). -/
def beginCard (e : Exec) : List Range → W Early
  | [] => return []
  | r :: l => do
    if !r.sp then walkTurn e.path.ids e.path.ctx r.lo r.len
    let here ← if r.sp || r.mode.writes then pure [] else beginRun e.path (r.len / 64 + 2) r.lo r.len
    return here ++ (← beginCard e l)

/-- An event of one operation. With `arg 3` nonzero an X job that holds no pin only begins to read its versioned pages. -/
def cardEvent (op : Nat) (act : Exec → W Unit) : W Unit := do
  match ← takeCard op with
  | none => pure ()
  | some e =>
    if (← arg 3) = 0 then act e
    else
      match e.ref with
      | .x c t =>
        let first ← if e.path.early.isEmpty then beginCard e e.card.ranges else pure e.path.early
        modify (fun s => s.onCard c t (fun x => { x with early := first }))
      | _ => pure ()

/-! ## Bytes of a card's operands -/

/-- Reads bytes of scratchpad or of global memory. -/
def Exec.read (e : Exec) (sp : Bool) (a : Int) (n : Nat) : W (Except Bad (List Byte)) := do
  if sp then return .ok (((← get).core e.core).spad.slice a.toNat n)
  if a < 0 then return .error (cXLATE, BitVec.ofInt 64 a)
  walkTurn e.path.ids e.path.ctx a.toNat n
  readMem e.path a.toNat n

/-- Writes bytes. -/
def Exec.write (e : Exec) (sp : Bool) (a : Int) (bs : List Byte) : W (Except Bad Unit) := do
  if sp then
    let seq := fun (k : Core) => match e.ref with
      | .x _ t => (k.card? t).map (·.seq)
      | _ => none
    modify (fun s => s.onCore e.core (fun k => k.spadWrite a.toNat bs (seq k)))
    return .ok ()
  if a < 0 then return .error (cXLATE, BitVec.ofInt 64 a)
  walkTurn e.path.ids e.path.ctx a.toNat bs.length
  writeMem e.path a.toNat bs

/-- Element of `w` bits at bit offset `off` from byte address `a`. -/
def Exec.readElem (e : Exec) (sp : Bool) (a : Int) (w : Nat) (nib : Nat) : W (Except Bad Nat) := do
  match ← e.read sp a ((w + 7) / 8) with
  | .error x => return .error x
  | .ok b => return .ok (if w = 4 then leNat b / 16 ^ nib % 16 else leNat b)

/-- Writes an element; a 4-bit one keeps the other half of its byte. -/
def Exec.writeElem (e : Exec) (sp : Bool) (a : Int) (w : Nat) (nib v : Nat) : W (Except Bad Unit) := do
  if w = 4 then
    match ← e.read sp a 1 with
    | .error x => return .error x
    | .ok b =>
      let o := leNat b
      e.write sp a (leBytes 1 (if nib = 0 then o / 16 * 16 + v % 16 else o % 16 + 16 * (v % 16)))
  else e.write sp a (leBytes (w / 8) v)

/-! ## The walk of a copy (R267) -/

/-- Iteration `n` of the walk as its four indices. -/
def Card.indices (c : Card) (n : Nat) : Nat × Nat × Nat × Nat :=
  (n % c.ext 0, n / c.ext 0 % c.ext 1, n / (c.ext 0 * c.ext 1) % c.ext 2, n / (c.ext 0 * c.ext 1 * c.ext 2) % c.ext 3)

/-- Component `j` of an index. -/
def pick4 (i : Nat × Nat × Nat × Nat) (j : Nat) : Nat :=
  match j with
  | 0 => i.1 | 1 => i.2.1 | 2 => i.2.2.1 | _ => i.2.2.2

/-- The destination index of an iteration. -/
def Card.destIndex (c : Card) (i : Nat × Nat × Nat × Nat) : Nat × Nat × Nat × Nat :=
  (pick4 i (c.permOf 0), pick4 i (c.permOf 1), pick4 i (c.permOf 2), pick4 i (c.permOf 3))

/-- Byte address and half byte of an element of `w` bits. -/
def elemPlace (base : Int) (w i0 : Nat) (i : Nat × Nat × Nat × Nat) (st : Nat → Int) : Int × Nat :=
  (base + (i0 * w / 8 : Nat) + i.2.1 * st 1 + i.2.2.1 * st 2 + i.2.2.2 * st 3, if w = 4 then i0 % 2 else 0)

/-- Whether an iteration's source lies inside the edges. -/
def Card.inb (c : Card) (i : Nat × Nat × Nat × Nat) : Bool :=
  (c.edge0 == 0 || decide (i.1 < c.edge0.toNat)) && (c.edge1 == 0 || decide (i.2.1 < c.edge1.toNat))

/-- PAD read in a format: its low bits; in fp32 its upper half (Table 9.1). -/
def padIn (pad : BitVec 16) (fmt : Nat) : Nat := if fmtBits fmt = 32 then pad.toNat * 65536 else pad.toNat % 2 ^ fmtBits fmt

/-- Iterations of the walk. -/
def Card.count (c : Card) : Nat := c.ext 0 * c.ext 1 * c.ext 2 * c.ext 3

/-- The code of iteration `n`'s source element, and whether it lies inside the edges. -/
def Exec.source (e : Exec) (n : Nat) : W (Except Bad (Nat × Bool)) := do
  let c := e.card
  let i := c.indices n
  if c.op = opFILL then return .ok (padIn c.pad c.fout.toNat, true)
  if !c.inb i then return .ok (padIn c.pad c.fin.toNat, false)
  let w := fmtBits c.fin.toNat
  let p := elemPlace c.src.toNat w i.1 i c.sstr
  match ← e.readElem c.ssp p.1 w p.2 with
  | .error x => return .error x
  | .ok v => return .ok (v, true)

/-- Something a card writes: byte address, half byte, width in bits, value; none where its source failed. -/
structure Put where
  sp : Bool
  a : Int
  nib : Nat
  w : Nat
  v : Option Nat
  deriving DecidableEq, Repr, Inhabited

/-- Writes what a card has to write, in the order of the walk; the first failure ends it. -/
def putAll (e : Exec) : List Put → W (Option Bad)
  | [] => return none
  | p :: r => do
    match p.v with
    | none => putAll e r
    | some v =>
      match ← e.writeElem p.sp p.a p.w p.nib v with
      | .error x => return some x
      | .ok _ => putAll e r

/-- Whether a put covers half byte `n` of its space, counted from address 0. -/
def Put.covers (p : Put) (sp : Bool) (n : Int) : Bool :=
  let i := n - (2 * p.a + (p.nib : Int))
  p.sp == sp && decide (0 ≤ i) && decide (i < p.w / 4)

/-- The put that decides half byte `n`: the last one over it. -/
def lastPut (ps : List Put) (sp : Bool) (n : Int) : Option Put := (ps.filter (fun p => p.covers sp n)).getLast?

/-- What a put leaves in half byte `n`. -/
def Put.half (p : Put) (n : Int) : Option Nat := p.v.map (fun v => v / 16 ^ (n - (2 * p.a + (p.nib : Int))).toNat % 16)

/-- The final value of half byte `n`, which is `old` where no put covers it; none where its source failed. -/
def finalHalf (ps : List Put) (sp : Bool) (old : Nat) (n : Int) : Option Nat :=
  match lastPut ps sp n with
  | none => some old
  | some p => p.half n

/-- The bytes that puts cover: space and address. -/
def putBytes (ps : List Put) : List (Bool × Int) :=
  (ps.flatMap (fun p => (List.range ((p.w + 7) / 8)).map (fun (i : Nat) => (p.sp, p.a + (i : Int))))).eraseDups

/-- With a fault any subset of the bytes is written, each with its final value: a free bit decides for each (R274). DESIGN CHOICE (notes/assumptions/35.md). -/
def putSome (e : Exec) (ps : List Put) : List (Bool × Int) → W Unit
  | [] => pure ()
  | (sp, a) :: r => do
    if ← anyBit then
      let old ← if (lastPut ps sp (2 * a)).isSome && (lastPut ps sp (2 * a + 1)).isSome then pure (some 0)
        else do pure ((← e.read sp a 1).toOption.map leNat)
      match old.bind (fun o => finalHalf ps sp (o % 16) (2 * a)), old.bind (fun o => finalHalf ps sp (o / 16) (2 * a + 1)) with
      | some l, some h => discard (e.write sp a (leBytes 1 (l + 16 * h)))
      | _, _ => pure ()
    putSome e ps r

/-- The 64 bytes that the puts of a card leave in the sector at `a`, if they cover it. -/
def putsSector (ps : List Put) (a : Int) : Option (List Byte) :=
  (List.range 64).mapM (fun (i : Nat) =>
    match (lastPut ps false (2 * (a + (i : Int)))).bind (·.half (2 * (a + (i : Int)))),
          (lastPut ps false (2 * (a + (i : Int)) + 1)).bind (·.half (2 * (a + (i : Int)) + 1)) with
    | some l, some h => some (BitVec.ofNat 8 (l + 16 * h))
    | _, _ => none)

/-- The sectors in error that a card's writes cover whole are written whole, so the error ends (R488). DEDUCED (notes/assumptions/36.md). -/
def coverSectors (e : Exec) (ps : List Put) : W Unit := do
  if !(← get).uncorr.isEmpty then
    for a in ((ps.filter (fun p => !p.sp && decide (0 ≤ p.a))).map (fun p => p.a / 64 * 64)).eraseDups do
      match ← xlate e.path.ids e.path.ctx a.toNat .write, putsSector ps a with
      | .ok l, some b => if (← get).isUncorr (l.pa a.toNat) && (ctxFrameOf (l.pa a.toNat)).isNone then discard (e.write false a b)
      | _, _ => pure ()

/-- The first failure that the writes of a card would meet. -/
def probePuts (e : Exec) : List Put → W (Option Bad)
  | [] => return none
  | p :: r => do
    if p.sp then probePuts e r
    else if p.a < 0 then return some (cXLATE, BitVec.ofInt 64 p.a)
    else
      match ← probeRun e.path 3 p.a.toNat ((p.w + 7) / 8) with
      | .error x => return some x
      | .ok _ => probePuts e r

/-- The writes of a card: all of them, or with a fault, of its reads or of a write, a subset (R274). -/
def movePuts (e : Exec) (ps : List Put) (f : Option Bad) : W (Option Bad) := do
  if f.isNone then coverSectors e ps
  let f ← match f with
    | some x => pure (some x)
    | none => probePuts e ps
  match f with
  | none => putAll e ps
  | some x =>
    putSome e ps (putBytes ps)
    return some x

/-- Where iteration `n` goes. -/
def Exec.place (e : Exec) (n w : Nat) (v : Option Nat) : Put :=
  let c := e.card
  let d := c.destIndex (c.indices n)
  let p := elemPlace c.dst.toNat w d.1 d c.dstr
  { sp := c.dsp, a := p.1, nib := p.2, w := w, v := v }

/-- Reads the sources of all iterations; the first failure stands. -/
def Exec.sources (e : Exec) : W (List (Option (Nat × Bool)) × Option Bad) := do
  let mut l := []
  let mut f : Option Bad := none
  for n in List.range e.card.count do
    match ← e.source n with
    | .ok x => l := some x :: l
    | .error x =>
      l := none :: l
      f := some (f.getD x)
  return (l.reverse, f)

/-- Ends a movement: moved, or the fault noted. -/
def endMove (e : Exec) (f : Option Bad) : W Unit :=
  match f with
  | none => modify (fun s => s.setMoved e.ref)
  | some x => modify (fun s => s.faultCard e.ref x)

/-- The card whose 16 bytes X delivers as one write (R287): EXT0 16 of n8, one after the other, to offset 0x008 of its page. DEDUCED (notes/assumptions/36.md). -/
def Exec.oneWrite (e : Exec) (ps : List Put) : Bool :=
  let c := e.card
  let x := match e.ref with | .x _ _ => true | _ => false
  x && c.op == opCOPY && c.fout == 12 && c.ext 0 == 16 && c.count == 16 && !c.dsp && c.dst.toNat % 4096 == 8 &&
  ps.map (·.a) == (List.range 16).map (fun (i : Nat) => (c.dst.toNat : Int) + (i : Int))

/-- COPY and FILL: bits unchanged. -/
def copyBody (e : Exec) : W Unit := do
  let (l, f) ← e.sources
  let w := fmtBits e.card.fout.toNat
  let puts := (List.range l.length).map (fun n => e.place n w ((l.getD n none).map (·.1)))
  if e.oneWrite puts && f.isNone then
    let bytes := puts.flatMap (fun p => leBytes 1 (p.v.getD 0))
    match ← e.write false e.card.dst.toNat bytes with
    | .error x => endMove e (some x)
    | .ok _ => endMove e none
  else
    endMove e (← movePuts e puts f)
def execCopy (s : State) : Host.Outcome State Fault Refusal := event (cardEvent opCOPY copyBody) s
def execFill (s : State) : Host.Outcome State Fault Refusal := event (cardEvent opFILL copyBody) s

/-- The stochastic inputs of iteration `n` (R269). -/
def Card.sr (c : Card) (n : Nat) : SrIn := { seed := c.jobid, step := 0, index := BitVec.ofNat 64 n }

/-- The scaled and clipped value of an element (R55, R267). -/
def Card.scaled (c : Card) (code : Nat) : Val := scaleClip c.scale c.clip c.clipen (decodeElem c.fin.toNat code)

/-- One element converted (R267). -/
def Card.convert (c : Card) (n code : Nat) : Coded :=
  -- a destination of e2m1t takes the e2m1 values only
  let fout := if c.fout = 10 then 7 else c.fout.toNat
  let v := c.scaled code
  let q := roundTo fout (!c.ns && decide (fmtBits fout ≤ 8)) true (Mode.ofCode c.rnd) (c.sr n) v.v
  { q with f := v.f.or q.f }

/-- The iteration whose destination is index `d`. -/
def Card.iterAt (c : Card) (d : Nat × Nat × Nat × Nat) : Nat :=
  let i := fun j => pick4 d (((List.range 4).find? (fun k => c.permOf k == j)).getD j)
  i 0 + c.ext 0 * (i 1 + c.ext 1 * (i 2 + c.ext 2 * i 3))

/-- Block `b` of row `q` of a conversion to a block format (R268): the codes of its elements, its side-plane entry and its
flags. A block with an element that could not be read has none. -/
def Exec.block (e : Exec) (l : List (Option (Nat × Bool))) (q b : Nat) : Option (List Nat × Nat × Flags) :=
  let c := e.card
  let e0 := c.dext 0
  let d := fun i => (b * 32 + i, q % c.dext 1, q / c.dext 1 % c.dext 2, q / (c.dext 1 * c.dext 2))
  let its := (List.range (Nat.min 32 (e0 - b * 32))).map (fun i => c.iterAt (d i))
  let src := its.map (fun n => l.getD n none)
  if src.any (·.isNone) then none else
  let vals := its.map (fun n => let x := (l.getD n none).getD (0, false); (c.scaled x.1, x.2, c.sr n))
  let r := quantBlock c.fout.toNat (Mode.ofCode c.rnd) (vals.map (fun x => { inb := x.2.1, v := x.1.v, sr := x.2.2 }))
  some (r.codes, r.scale + (if sideEntry c.fout.toNat = 2 then 256 * r.extra else 0), (orFlags (vals.map (·.1.f))).or r.f)

/-- The puts of a conversion to a block format, the elements in the order of the walk, and its flags. -/
def Exec.blockPuts (e : Exec) (l : List (Option (Nat × Bool))) : List Put × Flags :=
  let c := e.card
  let nb := (c.dext 0 + 31) / 32
  let bs := (List.range (c.dext 1 * c.dext 2 * c.dext 3 * nb)).map (fun i => e.block l (i / nb) (i % nb))
  let n := sideEntry c.fout.toNat
  let elem := fun (k : Nat) =>
    let d := c.destIndex (c.indices k)
    let i := (d.2.1 + c.dext 1 * (d.2.2.1 + c.dext 2 * d.2.2.2)) * nb + d.1 / 32
    e.place k (fmtBits c.fout.toNat) ((bs.getD i none).map (fun r => r.1.getD (d.1 % 32) 0))
  let side := fun (i : Nat) => ({ sp := c.xfsp, a := c.xfbase.toNat + (i * n : Nat), nib := 0, w := 8 * n, v := (bs.getD i none).map (·.2.1) } : Put)
  ((List.range c.count).map elem ++ (List.range bs.length).map side, orFlags (bs.filterMap (fun r => r.map (·.2.2))))

/-- COPYCVT (R267, R268); flags go to FSTAT.X of the issuing core. -/
def copycvtBody (e : Exec) : W Unit := do
  let c := e.card
  let (l, f) ← e.sources
  let (puts, fl) :=
    if isBlockFmt c.fout.toNat then e.blockPuts l
    else
      let w := fmtBits c.fout.toNat
      let cs := (List.range l.length).map (fun n => (l.getD n none).map (fun x => c.convert n x.1))
      ((List.range l.length).map (fun n => e.place n w ((cs.getD n none).map (·.code))), orFlags (cs.filterMap (fun x => x.map (·.f))))
  match e.ref with
  | .x k _ => modify (fun s => s.onCore k (fun k => { k with engX := { k.engX with fstat := k.engX.fstat ||| fl.bits } }))
  | _ => pure ()
  endMove e (← movePuts e puts f)
def execCopycvt (s : State) : Host.Outcome State Fault Refusal := event (cardEvent opCOPYCVT copycvtBody) s

/-! ## Linear cards -/

/-- The elements of ACCW and RACCW widened to fp32 (R341). -/
def widenElems (fin : Nat) (b : List Byte) : List (BitVec 32) :=
  if fin = 0 then (words32 (b.length / 4) b).map (BitVec.ofNat 32)
  else (List.range (b.length / 2)).map (fun i => BitVec.ofNat 32 (exactCode 0 (decodeElem fin (leNat ((b.drop (2 * i)).take 2)))))

/-- ACCW: what it sends goes to the CEs. -/
def accwBody (e : Exec) : W Unit := do
  let c := e.card
  match ← e.read c.ssp c.src.toNat c.linearLen with
  | .error x => endMove e (some x)
  | .ok b =>
    let q : AccChunk := { ctx := e.path.ctx, src := e.ref, addr := c.dst.toNat, rank := some (c.jobid.toNat % 65536), tag := none,
                          vals := widenElems c.fin.toNat b }
    modify (fun s => { s with accIn := s.accIn ++ [q] })
    endMove e none
def execAccw (s : State) : Host.Outcome State Fault Refusal := event (cardEvent opACCW accwBody) s

/-- Puts the updates of whole sectors on their way to the four replicas (R302). DEDUCED (notes/assumptions/37.md). -/
def multicast (p : Path) (dst : Nat) (b : List Byte) : W (Except Bad Nat) := do
  let n := b.length / 64
  let mut ls := []
  for i in List.range n do
    let a := dst + 64 * i
    match ← xlate p.ids p.ctx a .read with
    | .error e => return .error e
    | .ok l =>
      if l.kind ≠ 2 || !l.w then return .error (cPROT, word64 a)
      ls := (l.pa a, l.key, sectorOf ((b.drop (64 * i)).take 64)) :: ls
  let q := (← get).repNext
  let upd := ls.reverse.flatMap (fun x => (List.range 4).map (fun j =>
    ({ rep := j, pa := x.1 + 3 * j * stackSpan, q := q, data := x.2.2, key := x.2.1 } : RepUpd)))
  modify (fun s => { s with repNext := q + 1, repPend := s.repPend ++ upd })
  return .ok q

/-- A multicast is complete in all four replicas, or has met an uncorrectable error in one (R302). -/
def settleRep (q : Option Nat) : W (Option Bad) := do
  match q with
  | none => return none
  | some q =>
    completeRep q
    let s ← get
    set { s with repBad := s.repBad.filter (fun x => x.1 != q) }
    return (s.repBad.find? (fun x => x.1 == q)).map (fun x => (cUNCORR, word64 x.2))

/-- The CARD and DATA flits of a remote card, tagged with the group's generation at its acceptance (R445, R448). -/
def sendRemote (e : Exec) (g : Group) (b : List Byte) : W Unit := do
  let c := e.card
  let m := g.member c.rank
  let x ← nextXid (.card e.ref c.rank)
  let own := (e.path.ctx, c.region.toNat)
  source fCARD m.pkgid x 0 [c.op, g.num, c.rank, c.roff, (e.tag.getD g.gen).toNat, g.self, m.ctxid.toNat, b.length, c.fin.toNat] [] [] own
  for i in List.range ((b.length + 191) / 192) do
    let d := (b.drop (192 * i)).take 192
    let d := padTo (64 * ((d.length + 63) / 64)) d
    let crcs := (List.range ((d.length + 63) / 64)).map (fun k => crc32c ((d.drop (64 * k)).take 64))
    source fDATA m.pkgid x (192 * i) [] d crcs own

/-- RWRITE, RACCW and a rank-addressed MCAST (R448): they wait while the group is FORMING, and reach their end by the
receiver's report. -/
def remoteBody (e : Exec) : W Unit := do
  let c := e.card
  let s ← get
  waitFor (!s.xfers.any (fun x => match x.2 with
    | .card r _ => r == e.ref
    | _ => false))
  match s.group e.path.ctx c.grp with
  | none => endMove e (some (cILLEGAL, word64 c.addr))
  | some g =>
    if g.members.length ≤ c.rank then endMove e (some (cILLEGAL, word64 c.addr))
    else
      waitFor (g.state != 1)
      if (g.member c.rank).mstate ≠ .active then endMove e (some (cLINK, word64 c.rank))
      else
        match ← e.read c.ssp c.src.toNat c.linearLen with
        | .error x => endMove e (some x)
        | .ok b => sendRemote e g b
def execRwrite (s : State) : Host.Outcome State Fault Refusal := event (cardEvent opRWRITE remoteBody) s
def execRaccw (s : State) : Host.Outcome State Fault Refusal := event (cardEvent opRACCW remoteBody) s

/-- MCAST: to this package's replicas, or to a rank's. DEDUCED (notes/assumptions/37.md). -/
def mcastBody (e : Exec) : W Unit := do
  let c := e.card
  if c.ra then remoteBody e
  else
    match ← e.read c.ssp c.src.toNat c.linearLen with
    | .error x => endMove e (some x)
    | .ok b =>
      match ← multicast e.path c.dst.toNat b with
      | .error x => endMove e (some x)
      | .ok q =>
        modify (fun s => match e.ref with
          | .x k t => s.onCard k t (fun x => { x with q := some q })
          | .hub id => s.onHub id (fun h => { h with q := some q })
          | .remote _ _ => s)
        endMove e none
def execMcast (s : State) : Host.Outcome State Fault Refusal := event (cardEvent opMCAST mcastBody) s

/-- SIGNAL (R270). -/
def execSignal (s : State) : Host.Outcome State Fault Refusal := event (cardEvent opSIGNAL (fun e => endMove e none)) s

/-- SKLAUNCH: the launch is asked for (R357), unless the card is cancelled (R370); the stack kernel's end brings the card to
DONE. -/
def sklaunchBody (e : Exec) : W Unit := do
  match e.ref with
  | .hub id =>
    let s ← get
    let src := LaunchSrc.card id
    waitFor (!(s.hubCard id).any (·.cancelled) && !s.skReqs.any (fun q => q.src == src) && !s.launches.any (fun l => l.2.src == src))
    let q : LaunchReq := { ctx := e.path.ctx, src := src, handle := e.card.src, param := e.card.dst }
    set { s with skReqs := s.skReqs ++ [q] }
  | _ => stall
def execSklaunch (s : State) : Host.Outcome State Fault Refusal := event (cardEvent opSKLAUNCH sklaunchBody) s

/-! ## The X words (R272, R275, R276) -/

/-- Cards of a core that are not DONE. -/
def Core.liveCards (k : Core) : Nat := (k.cards.filter (·.live)).length

/-- A card accepted by X (R272), from its 128 bytes. -/
def acceptCard (d : BitVec 4) (a : Nat) (b : List Byte) : W Unit := do
  let k ← getC
  let s ← get
  let c := s.cur.core
  let card := parseCard a b
  match card.checkX with
  | some e => trap e (word64 a)
  | none => pure ()
  let x := s.ctx k.lastCtx
  if !(decide (card.region.toNat < x.rcount) && x.inSubtree k.region.toNat card.region.toNat) then trap cILLEGAL (word64 a)
  let ids ← orTrap (← enterWord card.ranges false)
  let seq ← takeSeq
  let t := k.ticket
  let holds := (s.corePins c).map (fun p => { p with owner := PinOwner.job c t })
  let q : XCard := { ticket := t, card := card, st := if card.waitsem = 0 then .running else .waiting, pc := ← getPc, seq := seq, fps := ids,
                     tag := s.cardTag k.lastCtx card }
  modC (fun k => { k with cards := k.cards.filter (fun y => y.ticket != t) ++ [q], cardRead := none, ticket := (t + 1) % 65536 })
  modify (fun s => { s with pins := s.pins ++ holds })
  writeRecord (s.jobPath c t) k.own 4 c card 1 0
  wrX d { v := BitVec.ofNat 64 t } 1

/-- The operand of XJOB and XJOBG (R140). -/
def cardOperand (a : BitVec 4) : W Nat := do
  let r ← rdX a
  clean r (a.setWidth 64)
  return r.v.toNat

/-- A word that waits keeps the bytes of the card that it has read (R272). -/
def cardBytes (read : W (List Byte)) : W (List Byte) := do
  match (← getC).cardRead with
  | some b => return b
  | none =>
    let b ← read
    modC (fun k => { k with cardRead := some b })
    return b

/-- XJOB: the card stands in scratchpad. -/
def xjobBody (d a : BitVec 4) : W Unit := do
  let va ← cardOperand a
  waitFor (decide ((← getC).liveCards < 16))
  let b ← cardBytes (do
    if Config.spadBytes < va + 128 then trap cPROT (word64 va)
    return (← getC).spad.slice va 128)
  acceptCard d va b
def execXjob (d a : BitVec 4) (s : State) : Host.Outcome State Fault Refusal := plain (xjobBody d a) s

/-- XJOBG: the card stands in global memory, read under an ephemeral footprint of the core. -/
def xjobgBody (d a : BitVec 4) : W Unit := do
  let va ← cardOperand a
  waitFor (decide ((← getC).liveCards < 16))
  let b ← cardBytes (do
    let l ← orTrap (← xlateAligned .X va 128 .read)
    let c := (← get).cur.core
    let rs := [({ sp := false, lo := va, len := 128, mode := .r } : Range)]
    waitFor (!(← getC).blocked rs)
    let ids ← if l.free then pure [] else orTrap (← enterWord rs l.cp)
    let b ← orTrap (← readMem ((← get).pathOf c .X) va 128)
    releaseFps ids
    return b)
  acceptCard d va b
def execXjobg (d a : BitVec 4) (s : State) : Host.Outcome State Fault Refusal := plain (xjobgBody d a) s

/-- A WAITING card ends CANCELLED (R273): entries released, nothing read or written. -/
def cancelXCard (c t : Nat) : W Unit := do
  let s ← get
  match (s.core c).card? t with
  | none => pure ()
  | some x =>
    releaseFps x.fps
    modify (fun s => (s.onCard c t (fun x => { x with st := .cancelled })).dropPins (.job c t))
    writeRecord (s.jobPath c t) (s.core c).own 4 c x.card 7 0

/-- Whether a ticket counts as issued (R276), with its card. -/
def Core.issued (k : Core) (t : Nat) : Option XCard := if (k.ticket + 65535 + 65536 - t) % 65536 < 32768 then k.card? t else none

/-- XCANCEL. -/
def xcancelBody (d a : BitVec 4) : W Unit := do
  let t := (← cardOperand a) % 65536
  match (← getC).issued t with
  | some x =>
    if x.st = .waiting then
      cancelXCard (← get).cur.core t
      wrX d { v := 1 } 4
    else wrX d {} 4
  | none => wrX d {} 4
def execXcancel (d a : BitVec 4) (s : State) : Host.Outcome State Fault Refusal := plain (xcancelBody d a) s

/-- XSTAT. -/
def xstatBody (d a : BitVec 4) : W Unit := do
  let t := (← cardOperand a) % 65536
  let v := match (← getC).issued t with
    | some x => match x.st with
      | .waiting => 1 | .running => 2 | .done => 3 | .cancelled => 4
    | none => 0
  wrX d { v := BitVec.ofNat 64 v } 4
def execXstat (d a : BitVec 4) (s : State) : Host.Outcome State Fault Refusal := plain (xstatBody d a) s

/-! ## Card events (R266, R270, R274) -/

/-- CARD_WAITSEM_MET: every semaphore of the mask is at least 1; one is taken from each. -/
def cardWaitsemMet : W Unit := do
  let c ← arg 1
  let t ← arg 2
  let k := (← get).core c
  match k.card? t with
  | none => stall
  | some x =>
    let bits := maskBits x.card.waitsem
    waitFor (decide (c < 96) && x.st == .waiting && !k.stopReq && bits.all (fun b => k.sem[b.toFin] != 0))
    modify (fun s => (s.onCore c (fun k => bits.foldl (fun k b => { k with sem := k.sem.set b.toFin (k.sem[b.toFin] - 1) }) k)).onCard c t
      (fun x => { x with st := .running }))
def execCardWaitsemMet (s : State) : Host.Outcome State Fault Refusal := event cardWaitsemMet s

/-- Whether everything a card sent has arrived. -/
def State.cardIdle (s : State) (r : CardRef) : Bool := !s.accIn.any (fun q => q.src == r)

/-- Whether a hub card has read and written everything. -/
def State.hubMoved (s : State) (id : Nat) : Bool := (s.hubCard id).any (fun h => h.moved && h.fault.isNone && h.st == .running) && s.cardIdle (.hub id)

/-- A cancelled SKLAUNCH card whose launch has ended, or was never made. -/
def State.launchGone (s : State) (id : Nat) (h : HubCard) : Bool :=
  h.cancelled && h.st == .running && h.card.op == opSKLAUNCH && !s.launches.any (fun l => l.2.src == .card id) && !s.skReqs.any (fun q => q.src == .card id)

/-- A hub card that no node owns, or whose node goes on, reaches DONE. -/
def finishHub (id : Nat) : W Unit := do
  let s ← get
  match s.hubCard id with
  | none => pure ()
  | some h =>
    releaseFps h.fps
    modify (fun s => s.dropHub id)
    writeRecord (hubPath h.ctx) (s.hubOwn h) 7 0 h.card (if h.cancelled then 7 else 3) 0
    match h.sig with
    | some (g, r) => for b in maskBits h.card.sigsem do modify (fun s => s.signalRank g r b 1)
    | none => pure ()
    match h.node with
    | some r => nodeDone r []
    | none => pure ()
    fillStore
    modify (fun s => s.settleCtx h.ctx)

/-- CARD_DONE. -/
def cardDone : W Unit := do
  let r ← cardRef
  let s ← get
  match r with
  | .x c t =>
    match (s.core c).card? t with
    | none => stall
    | some x =>
      waitFor (x.st == .running && x.moved && x.fault.isNone && s.cardIdle r && (!x.card.chen || x.chained))
      match ← settleRep x.q with
      | some f => modify (fun s => s.faultCard r f)
      | none =>
        releaseFps x.fps
        modify (fun s => (s.onCard c t (fun x => { x with st := .done })).dropPins (.job c t))
        writeRecord (s.jobPath c t) (s.core c).own 4 c x.card 3 0
        let incs := (maskBits x.card.sigsem).map (fun b => ({ src := .hub, sem := b, count := 1 } : SemInc))
        modify (fun s => s.onCore c (fun k => { k with semIncs := k.semIncs ++ incs }))
  | .hub id =>
    match s.hubCard id with
    | none => stall
    | some h =>
      waitFor ((s.hubMoved id || s.launchGone id h) && h.gang.isNone && (s.ctx h.ctx).serves &&
        !(h.node.bind s.nodeOf).any (fun n => n.state == .cancelPending))
      match ← settleRep h.q with
      | some f => modify (fun s => s.faultCard r f)
      | none => finishHub id
  | .remote _ _ => stall
def execCardDone (s : State) : Host.Outcome State Fault Refusal := event cardDone s

/-- A fault of work that no node owns: reported to its region, and raised there (R102). -/
def orphanFault (o : Own) (rec_ : Cause) : W Unit := do
  postCause o.ctx o.region rec_
  discard (raiseFault o.ctx o.region rec_)

/-- A hub card ends by a fault: to its node, or to its region. DEDUCED (notes/assumptions/43.md). -/
def failHub (id : Nat) (rec_ : Cause) (ids : List Nat) : W Unit := do
  let s ← get
  match s.hubCard id with
  | none => pure ()
  | some h =>
    modify (fun s => { (s.dropHub id) with accIn := s.accIn.filter (fun q => q.src != .hub id) })
    match h.node with
    | some r => nodeFault r rec_ ids false
    | none =>
      releaseFps ids
      writeRecord (hubPath h.ctx) (s.hubOwn h) 7 0 h.card 11 rec_.cause
      orphanFault (s.hubOwn h) rec_
      dispatch
    fillStore
    modify (fun s => s.settleCtx h.ctx)

/-- CARD_FAULT. -/
def cardFault : W Unit := do
  let r ← cardRef
  let s ← get
  match r with
  | .x c t =>
    match (s.core c).card? t with
    | none => stall
    | some x =>
      match x.fault with
      | none => stall
      | some (cause, d) =>
        waitFor (x.st == .running)
        releaseFps x.fps
        modify (fun s => { (s.onCard c t (fun x => { x with st := .done })).dropPins (.job c t) with accIn := s.accIn.filter (fun q => q.src != r) })
        writeRecord (s.jobPath c t) (s.core c).own 4 c x.card 11 cause
        modify (fun s => s.trapStop c .X 4 cause x.pc d)
  | .hub id =>
    match s.hubCard id with
    | none => stall
    | some h =>
      match h.fault with
      | none => stall
      | some (cause, d) =>
        waitFor (h.st == .running && (s.ctx h.ctx).serves && (h.gang.bind s.gang).isNone)
        failHub id ((s.hubOwn h).cause 7 0 cause d) h.fps
  | .remote _ _ => stall
def execCardFault (s : State) : Host.Outcome State Fault Refusal := event cardFault s

end Sys2Proof.Machine
end

