-- ==== Sys2Proof/Machine/Kernel.lean ====
section
/-!
DEFINITION. The life of a kernel (R122 to R124): loading, stopping, saving at a PHINT and restoring (R104 to R109, R141,
R491), cancellation and forced saves (R110, R111), hangs (R113), the end; and the semaphore unit and the ring (R130,
R162).
-/
namespace Sys2Proof.Machine

/-! ## Gangs -/

def Gang.own (k : Gang) : Own := { ctx := k.ctx, region := k.region.toNat, node := k.node, gen := k.gen, attempt := k.attempt }
/-- The gang's leader (R104). -/
def Gang.leader (k : Gang) : Nat := k.cores.headD 0

/-- Increments for a semaphore that software may still see: those the hub holds. -/
def SemInc.fromHub (q : SemInc) : Bool := q.src == .hub

/-- A gang leaves its cores and is no more. Gives the footprints that it still holds: the ephemeral ones of accesses in
flight end here (R174, R410). -/
def takeGang (g : Nat) : W (List Nat) := do
  let s ← get
  releaseFps ((s.fpsOfGang g).filter s.ephemeral)
  modify (fun s => (s.freeGang g).dropGang g)
  return (s.fpsOfGang g).filter (fun i => !s.ephemeral i)

/-- The kernel has ended: its card reaches DONE. -/
def endKernel (g : Nat) : W Unit := do
  match (← get).gang g with
  | none => pure ()
  | some k =>
    releaseFps (← takeGang g)
    finishHub k.card
    decide_

/-- The attempt has failed: its record goes to the card's node or region, then the footprints are released. -/
def failGang (g : Nat) (rec_ : Cause) : W Unit := do
  match (← get).gang g with
  | none => pure ()
  | some k =>
    let ids ← takeGang g
    failHub k.card rec_ ids
    decide_

/-- The kernel is CANCELLED: its ranges are reported, its footprints released, its card ends CANCELLED (R111, R409). -/
def cancelGang (g : Nat) : W Unit := do
  match (← get).gang g with
  | none => pure ()
  | some k =>
    let s ← get
    let ids ← takeGang g
    match s.hubCard k.card with
    | none => releaseFps ids
    | some h =>
      modify (fun s => s.dropHub k.card)
      match h.node with
      | some r => cancelNode r ids false; settleGraph r.ctx r.graph
      | none =>
        releaseFps ids
        writeRecord (hubPath h.ctx) (s.hubOwn h) 7 0 h.card 7 0
    modify (fun s => s.settleCtx k.ctx)
    decide_

/-! ## Loading (R122, R123, R283) -/

/-- The text and window ranges of a kernel. -/
def Gang.ranges (k : Gang) : List Range :=
  rangeOf false .r k.textVa (k.textVa + 4 * k.textLen - 1 : Nat) ++
    (if k.winLen = 0 then [] else rangeOf false .r k.winVa (k.winVa + k.winLen - 1 : Nat))

/-- Words and bytes as sparse stores. -/
def textOf (b : List Byte) : List (Nat × Word32) :=
  ((List.range (b.length / 4)).map (fun i => (i, (BitVec.ofNat 32 (leNat ((b.drop (4 * i)).take 4)) : Word32)))).filter (fun p => p.2 != 0)
def storeOf (b : List Byte) : Bytes := ((List.range b.length).map (fun i => (i, b.getD i 0))).filter (fun p => p.2 != 0)

/-- KLAUNCH: the card's extra footprint is entered (R263), and the steward cores read the text and the window of gang
`arg 0` under footprints of mode R. -/
def klaunch : W Unit := do
  let g ← arg 0
  let s ← get
  match s.gang g with
  | none => stall
  | some k =>
    match s.hubCard k.card with
    | none => stall
    | some h =>
      waitFor (k.state == .loading && !h.moved && h.fault.isNone && k.causes.isEmpty && (s.ctx k.ctx).serves)
      startHub k.card
      if !((← get).hubCard k.card).any (fun h => h.entered && h.fault.isNone) then return
      match ← enterFps (.owner (.gang g)) (.gang g) k.ctx k.region.toNat k.ranges true with
      | .waiting => pure ()
      | .bad (c, d) => faultHub k.card c d
      | .entered ids =>
        modify (fun s => s.onGang g (fun k => { k with fps := ids }))
        let bad := fun (e : Bad) => (modify (fun s => s.onGang g (fun k => { k with causes := [k.own.cause 10 k.leader e.1 e.2] })) : W Unit)
        match ← hubRead k.ctx k.textVa (4 * k.textLen) .text with
        | .error e => bad e
        | .ok t =>
          match ← hubRead k.ctx k.winVa k.winLen with
          | .error e => bad e
          | .ok w =>
            modify (fun s => (s.onGang g (fun k => { k with text := textOf t, win := storeOf w })).onHub k.card (fun h => { h with moved := true }))
def execKlaunch (s : State) : Host.Outcome State Fault Refusal := event klaunch s

/-- What the CSRs of a core tell of its kernel, and the text and window. -/
def Core.seatFor (k : Core) (q : Gang) (g rank : Nat) : Core :=
  { k with gang := some g, mode := .running, lastCtx := q.ctx, region := q.region, node := q.node, gen := q.gen, gangSize := BitVec.ofNat 8 q.size,
           gangRank := BitVec.ofNat 8 rank, attempt := q.attempt, text := q.text, textLen := q.textLen, win := q.win, winLen := q.winLen,
           preq := q.preq, dbgEn := q.dbg.1.getLsbD 0, dbgLat := q.dbg.1.getLsbD 1, mon := false, entry := none, held := false, forced := false,
           dbgvec := q.dbg.2, causes := [], stopReq := false }

/-- An engine at the start of a kernel: R123 names everything it holds but FSTAT. -/
def EngineSt.launch (t : EngineSt) : EngineSt := { fstat := t.fstat }

/-- The launch state (R123, R212, R235). -/
def Core.launch (k : Core) : Core :=
  { k with engS := k.engS.launch, engA := k.engA.launch, engM := k.engM.launch, engV := k.engV.launch, engX := k.engX.launch,
           sem := Vector.replicate 16 0, semWaits := [], semIncs := [], semSeen := Vector.replicate 16 0, ftLog := [], fifo := Vector.replicate 8 [], iq := Vector.replicate 8 [],
           oq := Vector.replicate 4 [], iqWant := Vector.replicate 8 0, streams := Vector.replicate 16 none, rings := Vector.replicate 8 none,
           unfold := none, stepq := [], stage := none, chain := {}, msel := 0, z := k.z.map (fun t => { t with steps := 0 }), vcfg := 0, seed := 0, step := 0, idx := 0,
           cards := [], ticket := 0, claims := [], descRead := none, cardRead := none, rsigs := [], phint := none, repSeen := 0, repFloor := 0 }

/-- The start of a kernel is an acquire at package scope (R330): its cores see what multicasts that are DONE have written. -/
def Core.startAcquire (k : Core) (done : Nat) : Core := { k with repAcq := done }

/-- The gang's node is RUNNING, its image gone. -/
def nodeRuns (k : Gang) : W Unit := do
  match ((← get).hubCard k.card).bind (·.node) with
  | some r => onNode r (fun n => { n with state := if n.state = .dispatched then .running else n.state, sv := false })
  | none => pure ()

/-- KERNEL_LOAD_COMPLETE: gang `arg 0` enters RUNNING, or fails, or stops before its first word. -/
def kernelLoadComplete : W Unit := do
  let g ← arg 0
  let s ← get
  match s.gang g with
  | none => stall
  | some k =>
    waitFor (k.state == .loading && (s.ctx k.ctx).serves)
    match s.hubCard k.card with
    | none => stall
    | some h =>
      if k.cancel then cancelGang g
      else
        match k.causes, h.fault with
        | r :: _, _ => failGang g r
        | [], some (c, d) => failGang g (k.own.cause 7 0 c d)
        | [], none =>
          waitFor h.moved
          releaseFps k.fps
          modify (fun s => s.onGang g (fun k => { k with state := .running, fps := [] }))
          for r in List.range k.cores.length do
            modify (fun s => s.onCore (k.cores.getD r 0) (fun c => (c.launch.seatFor k g r).startAcquire s.repDone))
          nodeRuns k
def execKernelLoadComplete (s : State) : Host.Outcome State Fault Refusal := event kernelLoadComplete s

/-! ## PHINT (R105, R111, R153) -/

/-- The bitmaps after the PHINT at `pc`. -/
def Core.liveAt (k : Core) (pc : BitVec 17) : Live := { a := k.word (pc.toNat + 1), b := k.word (pc.toNat + 2) }

/-- A gang's state changes from RUNNING. -/
def State.toSaving (s : State) (c : Nat) : State :=
  match (s.core c).gang with
  | some g => s.onGang g (fun k => { k with state := if k.state = .running then .saving else k.state })
  | none => s

/-- Whether the gang of a core is being cancelled. -/
def State.cancelling (s : State) (c : Nat) : Bool := (((s.core c).gang.bind s.gang).map (·.cancel)).getD false

/-- PHINT: a rendezvous. With PREQ clear all engines pass it and its bitmaps; with PREQ set the core stays and saves; in
a CANCEL_PENDING node it stops. -/
def phintBody : W Flow := do
  notInMonitor
  let t ← getE
  putE { t with atSync := true }
  let s ← get
  let c := s.cur.core
  let k := s.core c
  waitFor (!k.stopReq && engines.all (fun e => (k.eng e).atSync))
  let l := k.liveAt t.pc
  putC { k with phint := some (l.a, l.b) }
  if s.cancelling c then
    modC (fun k => { k.stopAll with mode := .stopping, stopReq := true })
    stall
  else if k.preq then
    -- R120, R122: a gang in the monitor begins no save
    waitFor (!((k.gang.bind s.gang).any (fun g => g.state == .monitor)))
    modC (fun k => { k with mode := .saving })
    modify (fun s => s.toSaving c)
    stall
  else
    rendezvous 3
    return .seq 3
def execPhint (s : State) : Host.Outcome State Fault Refusal := runWord false phintBody s

/-! ## Saving (R105, R107, R141, R491) -/

/-- Every operation of a core is complete, everything in its out-queues written, every X job DONE, every RSIG answered. -/
def State.coreQuiet (s : State) (c : Nat) : Bool :=
  let k := s.core c
  !s.flights.any (fun f => f.core == c) && k.stepq.isEmpty && k.oq.toList.all (·.isEmpty) && !k.cards.any (·.live) && k.rsigs.isEmpty &&
  k.semIncs.all (·.fromHub) && engines.all (fun e => (k.eng e).resv.isEmpty) && k.chain.slot.isNone &&
  k.rings.toList.all (fun r => !r.any (fun r => r.sub.any (·.working)))

/-- A free save slot of a context. -/
def takeSlot (ctx : BitVec 8) : W Nat := do
  let l := ((← get).ctx ctx).freeSlots
  match l[(← anyBelow l.length)]? with
  | none => stall
  | some n => return n

/-- Where save slot `n` of a context begins. -/
def State.slotAt (s : State) (ctx : BitVec 8) (n : Nat) : Nat := (s.ctx ctx).saveva + slotBytes * n

/-- Rank `r` of a gang holds slot `n` now; its core is free. -/
def holdSlot (g : Nat) (k : Gang) (c r n : Nat) (kept : Kept) (ended : Bool) : W Unit := do
  let s ← get
  let ids := (s.fps.filter (fun f => f.owner == .core c)).map (·.id)
  let x := s.ctx k.ctx
  let s := s.setCtx k.ctx { x with saveSlots := x.saveSlots ++ [(n, g)] }
  let incs := ((s.core c).semIncs.filter (·.fromHub)).map (fun q => (r, q.sem, q.count))
  let pins := s.pins.map (fun p => if p.owner == PinOwner.core c then { p with owner := .saved g r } else p)
  let fps := s.fps.map (fun (f : Fp) => if f.owner = Owner.core c then { f with owner := .gang g } else f)
  let s := { s with fps := fps, pins := pins }
  set ((s.onGang g (fun k => { k with
    savedAt := k.savedAt ++ [(r, n)], kept := k.kept ++ [(r, { kept with fps := ids })],
    heldSigs := k.heldSigs ++ incs, endedRanks := if ended then k.endedRanks ++ [r] else k.endedRanks })).freeCore c)

/-- A core that has ended under a pre-emption request: an image of KIND 3 (R491). -/
def saveEnded (g : Nat) (k : Gang) (c r : Nat) : W Unit := do
  let n ← takeSlot k.ctx
  let s ← get
  let x := s.core c
  let l : Live := { a := (x.phint.getD (0, 0)).1, b := (x.phint.getD (0, 0)).2 }
  match ← writeMem (hubPath k.ctx) (s.slotAt k.ctx n) (headBytes 3 0 x.engS.pc l) with
  | .error e => modify (fun s => s.trapStop c .S 10 e.1 x.engS.pc e.2)
  | .ok _ => holdSlot g k c r n {} true

/-- When every rank has saved or ended: SAVED, the card queued again; or the kernel has ended. A gang that is being cancelled
is not saved (R111). -/
def settleSaving (g : Nat) : W Unit := do
  let s ← get
  match s.gang g with
  | none => pure ()
  | some k =>
    let covered := fun (r : Nat) => k.endedRanks.contains r || (let c := k.cores.getD r 0; (s.core c).gang == some g && (s.core c).mode == .ended)
    let ranks := List.range k.size
    if ranks.all covered then endKernel g
    else if !k.cancel && ranks.all (fun r => covered r || k.savedAt.any (fun x => x.1 == r)) then
      for r in ranks do
        let c := k.cores.getD r 0
        if ((← get).core c).gang = some g && ((← get).core c).mode = .ended then saveEnded g k c r
      if ((← get).gangCores g).isEmpty then
        modify (fun s => s.onGang g (fun k => { k with state := .saved, cores := [], preq := false, pastQuantum := false }))
        match (s.hubCard k.card).bind (·.node) with
        | some r => onNode r (fun n => { n with sv := true })
        | none => pure ()
        requeue k.card
        modify (fun s => s.settleCtx k.ctx)
        decide_

/-- Ends a save by a fault at the PHINT (R105). DEDUCED (notes/assumptions/44.md). -/
def abandonSave (c : Nat) (src : BitVec 8) (e : Bad) : W Unit := modify (fun s => s.trapStop c .S src e.1 (s.core c).engS.pc e.2)

/-- CORE_SAVE_COMPLETE: the image of core `arg 0`. DEDUCED (notes/assumptions/44.md). -/
def coreSaveComplete : W Unit := do
  let c ← arg 0
  atCore c .S
  let s ← get
  let k := s.core c
  match k.gang.bind s.gang, k.gang with
  | some q, some g =>
    waitFor (k.mode == .saving && !k.stopReq && !q.cancel && s.coreQuiet c && (s.ctx q.ctx).serves)
    let pc := k.engS.pc
    let l := k.liveAt pc
    if k.liveBad l then abandonSave c 0 (cILLEGAL, pc.setWidth 64)
    else if k.livePoison l then abandonSave c 0 (cPOISON, ← anyWord)
    else
      let n ← takeSlot q.ctx
      writeBackAll (fun d => d.owner == some c)
      let strm ← anyBytes 16384
      let base := (← get).slotAt q.ctx n
      let secs := (0, headBytes 0 0 (pc + 3) l) :: k.sections l (k.spTable l) (k.liveSpans l) strm
      match ← writeSections (hubPath q.ctx) base secs with
      | .error e => abandonSave c 10 e
      | .ok _ =>
        let kept : Kept := { claims := k.claims, repSeen := k.repSeen, repFloor := k.repFloor, ticket := k.ticket, cards := k.cards, streams := k.streams, rings := k.rings,
                             unfold := k.unfold, iq := k.iq, past := (pc + 3).getLsbD 16 }
        holdSlot g q c k.gangRank.toNat n kept false
        settleSaving g
  | _, _ => stall
def execCoreSaveComplete (s : State) : Host.Outcome State Fault Refusal := event coreSaveComplete s

/-! ## Restoring (R108, R491) -/

/-- Reads the image of a rank: the core it gives. DESIGN CHOICE (notes/assumptions/87.md). -/
def loadImage (g : Nat) (q : Gang) (r n : Nat) : W (Except Bad Core) := do
  let s ← get
  let p := hubPath q.ctx
  let base := s.slotAt q.ctx n
  let old := s.core (q.cores.getD r 0)
  let zero := ({ cycle := old.cycle } : Core)
  match ← readMem p base 16 with
  | .error e => return .error e
  | .ok hd =>
    if leNat (hd.take 1) = 3 then
      let k := engines.foldl (fun (k : Core) e => k.setEng e { (k.eng e) with ended := true }) (zero.seatFor q g r)
      return .ok { k with mode := .ended }
    let l : Live := { a := BitVec.ofNat 32 (at_ hd 8 4), b := BitVec.ofNat 32 (at_ hd 12 4) }
    match ← readMem p base 0x14C0 with
    | .error e => return .error e
    | .ok c =>
      let kept := (lookup r q.kept).getD {}
      let k := (controlFrom c (BitVec.ofNat 17 (at_ hd 2 2 + 65536 * kept.past.toNat)) zero).seatFor q g r
      loadParts p base kept (l.parts (c.drop 0x1480))
        { k with claims := kept.claims, repSeen := kept.repSeen, repFloor := kept.repFloor, ticket := kept.ticket, cards := kept.cards, phint := some (l.a, l.b) }

/-- Reads the images of the ranks from `r` on. DEDUCED (notes/assumptions/50.md). -/
def loadRanks (g : Nat) (q : Gang) : List Nat → W (Except Bad (List (Nat × Core)))
  | [] => return .ok []
  | r :: rs => do
    match lookup r q.savedAt with
    | none => loadRanks g q rs
    | some n =>
      match ← loadImage g q r n with
      | .error e => return .error e
      | .ok k =>
        match ← loadRanks g q rs with
        | .error e => return .error e
        | .ok l => return .ok ((r, k) :: l)

/-- A fault of a restore has no owning node: it is raised at the region of the work (R102); where a region contains it,
the gang's graph ends as under RAISE. DEDUCED (notes/assumptions/50.md). -/
def failRestore (g : Nat) (q : Gang) (e : Bad) : W Unit := do
  let s ← get
  let rec_ := ({ q.own with node := 0xFFFFFFFF } : Own).cause 10 q.leader e.1 e.2
  let ids ← takeGang g
  match s.hubCard q.card with
  | none => releaseFps ids
  | some h =>
    match h.node with
    | none => failHub q.card rec_ ids
    | some r =>
      modify (fun s => s.dropHub q.card)
      postCause q.ctx q.region.toNat rec_
      onNode r (fun n => { n with fcode := e.1, fdetail := e.2.setWidth 56, faulted := true, fcause := e.1, sv := false })
      raiseNode r rec_
      releaseFps ids
      settleGraph r.ctx r.graph
  decide_

/-- KERNEL_RESTORE_COMPLETE: every core of gang `arg 0` is restored. -/
def kernelRestoreComplete : W Unit := do
  let g ← arg 0
  let s ← get
  match s.gang g with
  | none => stall
  | some q =>
    waitFor (q.state == .restoring && (s.ctx q.ctx).serves)
    if q.cancel then cancelGang g
    else
      match ← loadRanks g q (List.range q.size) with
      | .error e => failRestore g q e
      | .ok l =>
        for x in l do
          let c := q.cores.getD x.1 0
          let incs := (q.heldSigs.filter (fun h => h.1 == x.1)).map (fun h => ({ src := .hub, sem := h.2.1, count := h.2.2 } : SemInc))
          let mine := ((lookup x.1 q.kept).getD {}).fps
          let old := s.fps.filter (fun f => mine.contains f.id)
          -- R324: what its die kept of the ranges it holds is not what it has written since
          modify (fun s => old.foldl (fun s f => s.dropClean q.ctx (c / 24) f.base (64 * f.len)) s)
          modify (fun s => { (s.setCore c (({ x.2 with semIncs := incs } : Core).startAcquire s.repDone)) with
            fps := s.fps.map (fun f => if mine.contains f.id then { f with owner := .core c } else f)
            pins := s.pins.map (fun p => if p.owner == PinOwner.saved g x.1 then { p with owner := .core c } else p) })
        let x := (← get).ctx q.ctx
        modify (fun s => (s.setCtx q.ctx { x with saveSlots := x.saveSlots.filter (fun y => y.2 != g) }).onGang g (fun k =>
          { k with state := .running, savedAt := [], kept := [], heldSigs := [], endedRanks := [] }))
        nodeRuns q
def execKernelRestoreComplete (s : State) : Host.Outcome State Fault Refusal := event kernelRestoreComplete s

/-! ## Stopping (R100, R111, R122) -/

/-- Whether a core has stopped. -/
def Core.atRest (k : Core) (cancel : Bool) : Bool :=
  k.mode == .ended || k.mode == .hung || (k.mode == .saving && (k.stopReq || cancel)) || engines.all (fun e => (k.eng e).stopped || (k.eng e).ended)

/-- The record of lowest tag code, and the others. -/
def primaryOf : List Cause → Option (Cause × List Cause)
  | [] => none
  | r :: l =>
    match primaryOf l with
    | none => some (r, [])
    | some (p, o) => if p.src.toNat < r.src.toNat then some (p, r :: o) else some (r, p :: o)

/-- A RUNNING card that only a word of its core could let go on: its range is held by a stream, subscription or
unfold binding (R205), or its chain word by the chain (R251). DEDUCED (notes/assumptions/83.md). -/
def Core.stuck (k : Core) (x : XCard) : Bool := k.cardBlocked x || (x.moved && x.card.chen && !x.chained)

/-- Every core of gang `g` has stopped, its stores have landed, and no X job runs but, after a forced stop (R110, R164), those that its core alone
could let go on (R207, R251). DEDUCED (notes/assumptions/83.md). -/
def State.gangAtRest (s : State) (g : Nat) (k : Gang) : Bool :=
  (s.gangCores g).all (fun c =>
    let x := s.core c
    x.atRest k.cancel && !x.cards.any (fun y => y.st == .running && !(x.forced && x.stuck y)) &&
    !s.flights.any (fun f => f.core == c && f.pends))

/-- The records of a core's end, after that of the monitor entry when a trap in the monitor ended the attempt (R120). -/
def Core.records (k : Core) : List Cause := if k.causes.isEmpty then [] else k.entry.toList ++ k.causes

/-- The primary record of the core that trapped first, and the others: a monitor entry stands first (R120), else the
record of lowest tag code (R100). -/
def Core.primary (k : Core) : Option (Cause × List Cause) :=
  match k.entry, k.causes with
  | some r, x :: l => some (r, x :: l)
  | _, l => primaryOf l

/-- The gang ends: WAITING cards are cancelled; the kernel is CANCELLED when nothing faulted, else FAULTED with its chain
of records. -/
def stopKernel (g : Nat) (k : Gang) : W Unit := do
  let cs := (← get).gangCores g
  for c in cs do
    for x in (((← get).core c).cards.filter (fun x => x.st == .waiting)) do
      if k.cancel && k.node != 0xFFFFFFFF then cancelCard k.ctx x.card x.tag k.node
      cancelXCard c x.ticket
  let s ← get
  let rest := (cs.filter (fun c => k.firstCore != some c)).flatMap (fun c => (s.core c).records)
  match k.firstCore.bind (fun c => (s.core c).primary) with
  | none => match primaryOf rest with
    | none => cancelGang g
    | some (p, _) => failGang g { p with prev := 0xFF }
  | some (p, others) =>
    let was := (s.ctx k.ctx).serves
    failGang g { p with prev := 0xFF }
    let x := (← get).ctx k.ctx
    if was && x.state = .dumping then
      modify (fun s => s.setCtx k.ctx { x with causes := x.causes ++ chainOf x.causes.length (others ++ rest) })

/-- KERNEL_STOPPED: gang `arg 0`. -/
def kernelStopped : W Unit := do
  let g ← arg 0
  let s ← get
  match s.gang g with
  | none => stall
  | some k =>
    waitFor ((k.state == .stopping || (k.cancel && (k.state == .running || k.state == .saving))) && s.gangAtRest g k && (s.ctx k.ctx).serves)
    stopKernel g k
def execKernelStopped (s : State) : Host.Outcome State Fault Refusal := event kernelStopped s

/-- NODE_CANCEL_COMPLETE: node `arg 2` of the graph at `arg 1` of context `arg 0` leaves CANCEL_PENDING once its executor
has stopped or its card has done its work. -/
def nodeCancelComplete : W Unit := do
  let r : NodeRef := { ctx := BitVec.ofNat 8 (← arg 0), graph := ← arg 1, node := ← arg 2 }
  let s ← get
  match s.nodeOf r with
  | none => stall
  | some n =>
    waitFor (n.state == .cancelPending && (s.ctx r.ctx).serves)
    match n.hub with
    | none => cancelNode r [] false
    | some id =>
      match s.hubCard id with
      | none => cancelNode r [] false
      | some h =>
        match h.gang with
        | some g =>
          match s.gang g with
          | none => stall
          | some k =>
            waitFor (k.cancel && (k.state == .running || k.state == .saving || k.state == .stopping) && s.gangAtRest g k)
            stopKernel g k
        | none =>
          let idle := if h.card.op = opSKLAUNCH then !s.launches.any (fun l => l.2.src == .card id) && !s.skReqs.any (fun q => q.src == .card id)
                      else s.hubMoved id
          waitFor idle
          match ← settleRep h.q with
          | some (c, d) => failHub id ((s.hubOwn h).cause 7 0 c d) h.fps
          | none =>
            modify (fun s => s.dropHub id)
            cancelNode r h.fps false
          fillStore
          modify (fun s => s.settleCtx r.ctx)
    settleGraph r.ctx r.graph
def execNodeCancelComplete (s : State) : Host.Outcome State Fault Refusal := event nodeCancelComplete s

/-! ## The end of a core (R124, R196, R335, R388, R491) -/

/-- CORE_END: core `arg 0` has ended; the kernel with its last core. -/
def coreEnd : W Unit := do
  let c ← arg 0
  atCore c .S
  let s ← get
  let k := s.core c
  match k.gang.bind s.gang, k.gang with
  | some q, some g =>
    waitFor (k.mode == .running && !k.stopReq && engines.all (fun e => (k.eng e).ended) && s.coreQuiet c && (s.ctx q.ctx).serves &&
      !s.walks.any (fun w => w.2.semen && w.2.gang == some (g, k.gangRank.toNat)))
    releaseFps ((s.fps.filter (fun f => f.owner == .core c)).map (·.id))
    modify (fun s => ((s.onCore c Core.release).onCore c (fun k =>
      { k with mode := .ended, gang := some g, fifo := Vector.replicate 8 [], iq := Vector.replicate 8 [],
               engS := { k.engS with toAhead := 0, toBehind := 0 }, engA := { k.engA with toAhead := 0, toBehind := 0 },
               engM := { k.engM with toAhead := 0, toBehind := 0 }, engV := { k.engV with toAhead := 0, toBehind := 0 },
               engX := { k.engX with toAhead := 0, toBehind := 0 } })).dropPins (.core c))
    let others := (List.range q.size).all (fun r => r == k.gangRank.toNat || q.endedRanks.contains r ||
      (let d := q.cores.getD r 0; (s.core d).gang == some g && (s.core d).mode == .ended))
    if q.preq && !q.cancel && !others then saveEnded g q c k.gangRank.toNat
    settleSaving g
  | _, _ => stall
def execCoreEnd (s : State) : Host.Outcome State Fault Refusal := event coreEnd s

/-! ## Forced saves and hangs (R110, R111, R113, R164) -/

/-- WDOG units of a region, 0 meaning 2^32. -/
def Ctx.wdogEff (c : Ctx) (n : Nat) : Nat := let w := c.eff 9 (fun r => r.wdog.toNat) n; if w = 0 then 2 ^ 32 else w

/-- Where the image of a core stands in the dump area: in the order of the cores that the context holds; none where the
area has no room for it. DEDUCED (notes/assumptions/48.md). -/
def State.dumpPlace (s : State) (ctx : BitVec 8) (c : Nat) : Option Nat :=
  let held := (List.range 96).filter (fun x => ((s.core x).gang.bind s.gang).any (fun k => k.ctx == ctx))
  let i := (held.takeWhile (· ≠ c)).length
  let x := s.ctx ctx
  if 0x1000 + slotBytes * (i + 1) ≤ 0x10000 * x.dumplen then some (x.dumpva + 0x1000 + slotBytes * i) else none

/-- A full image. -/
def Core.fullImage (k : Core) (kind : Nat) (cause : BitVec 8) (strm : List Byte) : List (Nat × List Byte) :=
  (0, headBytes kind cause k.engS.pc Live.all) :: k.sections Live.all [] [(0, Config.spadBytes)] strm

/-- A core on which an attempt runs. -/
def Core.works (k : Core) : Bool := k.mode == .running || k.mode == .monitor || k.mode == .saving || k.mode == .stopping

/-- Cause and DETAIL of a forced stop (R99, R110): the immediate of the monitor's DBG, the source of a cancellation, or the
units counted. A monitor that LATENCY entered has no immediate. DEDUCED (notes/assumptions/49.md). -/
def State.forcedCause (s : State) (q : Gang) (k : Core) (free : BitVec 64) : BitVec 8 × BitVec 64 :=
  if k.mon || q.state == .monitor then (cDEBUG, if k.mon && k.ecause.setWidth 8 == cDEBUG then k.edetail else free)
  else if q.cancel then
    (cCANCELLED, (((s.hubCard q.card).bind (·.node)).bind s.nodeOf).elim free (fun n => word64 n.cdetail))
  else (cWATCHDOG, word64 ((s.ctx q.ctx).wdogEff k.region.toNat))

/-- The forced save of core `c`, which stands in state `k` (R110): every engine stops, the full image is written to the
dump area, and the attempt ends. -/
def forcedSave (c : Nat) (q : Gang) (k : Core) : W Unit := do
  let (cause, detail) := (← get).forcedCause q k (← anyWord)
  modC (fun k => { k.stopAll with forced := true, entry := none })
  match (← get).dumpPlace q.ctx c with
  | some a => do
    let strm ← anyBytes 16384
    discard (writeSections (hubPath q.ctx) a (k.fullImage 1 cause strm))
  | none => pure ()
  modify (fun s => s.trapStop c .S 10 cause k.engS.pc detail)

/-- WATCHDOG_FORCED_SAVE: WDOG has passed for core `arg 0`; with `arg 1` nonzero the core does not obey the forced stop. DEDUCED (notes/assumptions/49.md). -/
def watchdogForcedSave : W Unit := do
  let c ← arg 0
  let deaf ← arg 1
  atCore c .S
  let s ← get
  let k := s.core c
  match k.gang.bind s.gang with
  | none => stall
  | some q =>
    waitFor (k.works && (!k.stopReq || (!k.forced && k.cards.any (fun x => x.st == .running && k.stuck x))) && (s.ctx q.ctx).serves)
    if deaf ≠ 0 then modC (fun k => { k with forced := true })
    else forcedSave c q k
def execWatchdogForcedSave (s : State) : Host.Outcome State Fault Refusal := event watchdogForcedSave s

/-- A core that the steward cores have reset alone (R113): it holds nothing any more but the address where S stood, the
bitmaps of the last PHINT and its place in its gang, which its image and its record need. DEDUCED (notes/assumptions/48.md). -/
def Core.hangReset (k : Core) : Core :=
  let k' : Core := { engS := { pc := k.engS.pc }, mode := .hung, gang := k.gang, lastCtx := k.lastCtx, phint := k.phint, causes := k.causes,
                     region := k.region, node := k.node, gen := k.gen, attempt := k.attempt, gangRank := k.gangRank, gangSize := k.gangSize,
                     cycle := k.cycle, stopReq := true, forced := true }
  k'.stopAll

/-- CORE_HANG: core `arg 0` has not obeyed a forced stop, or the stop of its context in DUMPING; it is reset alone, and its
context is fatal. -/
def coreHang : W Unit := do
  let c ← arg 0
  atCore c .S
  let s ← get
  let k := s.core c
  match k.gang.bind s.gang with
  | none => stall
  | some q =>
    waitFor (k.works && !k.atRest false && (k.forced || (s.ctx q.ctx).state == .dumping))
    let rec_ := k.record c 10 cWATCHDOG k.engS.pc (word64 ((s.ctx q.ctx).wdogEff k.region.toNat))
    modC Core.hangReset
    modify (fun s => { s with flights := s.flights.filter (fun f => f.core != c) })
    if (s.ctx q.ctx).serves then makeFatal q.ctx [rec_]
    else
      let x := s.ctx q.ctx
      modify (fun s => s.setCtx q.ctx { x with causes := x.causes ++ chainOf x.causes.length [rec_] })
def execCoreHang (s : State) : Host.Outcome State Fault Refusal := event coreHang s

/-! ## The semaphore unit (R108, R161, R162) -/

/-- The issue slot of M that entered an operation. -/
def ArrayOp.issuedAt : ArrayOp → Nat
  | .step _ n => n
  | .zero _ n => n
  | .scl _ _ _ n => n
  | .acc _ _ _ n => n
  | .trz _ _ n => n

/-- The WAIT of a waiter is satisfied: the engine's, or S's own that stands behind the monitor (R121). -/
def Core.meet (k : Core) (w : SemWait) : Core :=
  if k.mon && w.eng == .S && !w.mon then { k with monSaved := { k.monSaved with waitMet := true } }
  else k.setEng w.eng { (k.eng w.eng) with waitMet := true }

/-- How many words of M an increment or a token stands after: of M's own, up to the word itself (R208). -/
def SemInc.stands (q : SemInc) : Nat :=
  match q.src with
  | .eng .M n => n + 1
  | _ => q.seen
def Resv.stands (r : Resv) (e : Engine) : Nat := if e = .M then r.slot + 1 else r.seen

/-- After a change of a semaphore, the waiters in the order they began: each whose count is met goes on. -/
def Core.wake (k : Core) : List SemWait → Core
  | [] => k
  | w :: r =>
    if w.count.toNat ≤ (k.sem[w.sem.toFin]).toNat then
      ({ (k.meet w) with
          sem := k.sem.set w.sem.toFin (k.sem[w.sem.toFin] - w.count.setWidth 16), semWaits := k.semWaits.filter (· ≠ w) } : Core).wake r
    else k.wake r

/-- Whether increment `i` of a core may be applied: it fits, no earlier one of its source goes first, and the array has
done what M's earlier words put into it. -/
def Core.incReady (k : Core) (i : Nat) (q : SemInc) : Bool :=
  let before := k.semIncs.take i
  decide ((k.sem[q.sem.toFin]).toNat + q.count ≤ 65535) &&
  (match q.src with
    | .eng .M n => !before.any (fun x => match x.src with
        | .eng .M _ => true
        | _ => false) && k.stepq.all (fun o => decide (n < o.issuedAt))
    | .eng e _ => !before.any (fun x => match x.src with
        | .eng y _ => y == e
        | _ => false)
    | .hub => !before.any (fun x => x.src == .hub && x.sem == q.sem)
    | _ => true)

/-- An increment of a semaphore in a saved image. While the image's bytes cannot be read or written it stays held, for the
restore (R108, R162). -/
def applySaved (g : Nat) (i : Nat) : W Unit := do
  let s ← get
  match s.gang g with
  | none => stall
  | some k =>
    match k.heldSigs[i]? with
    | none => stall
    | some (r, sem, n) =>
      waitFor (!(k.heldSigs.take i).any (fun x => x.1 == r && x.2.1 == sem))
      let drop : W Unit := modify (fun s => s.onGang g (fun k => { k with heldSigs := k.heldSigs.eraseIdx i }))
      if k.endedRanks.contains r then drop
      else
        match lookup r k.savedAt with
        | none => stall
        | some slot =>
          let a := s.slotAt k.ctx slot + 0x40 + 2 * sem.toNat
          match ← readMem (hubPath k.ctx) a 2 with
          | .error _ => stall
          | .ok b =>
            waitFor (decide (leNat b + n ≤ 65535))
            drop
            match ← writeMem (hubPath k.ctx) a (leBytes 2 (leNat b + n)) with
            | .error _ => stall
            | .ok _ => pure ()

/-- Whether the accesses of an engine's words up to issue slot `n` have landed (R131, R161). -/
def State.storesLanded (s : State) (c : Nat) (e : Engine) (n : Nat) : Bool :=
  !s.flights.any (fun f => f.core == c && f.eng == e && f.pends && decide (f.slot ≤ n))

/-- Whether what goes before an increment in its source's order is complete. -/
def State.sourceDone (s : State) (c : Nat) (q : SemInc) : Bool :=
  match q.src with
  | .eng e n => s.storesLanded c e n
  | _ => true

/-- SEMAPHORE_CHANGE_APPLY: increment `arg 2` of core `arg 1` (`arg 0` = 0), or of the image of saved gang `arg 1`. -/
def semaphoreChangeApply : W Unit := do
  let i ← arg 2
  if (← arg 0) = 0 then
    let c ← arg 1
    atCore c .S
    let k ← getC
    match k.semIncs[i]? with
    | none => stall
    | some q =>
      waitFor (k.gang.isSome && k.incReady i q && (← get).sourceDone c q)
      let k := { k with sem := k.sem.set q.sem.toFin (k.sem[q.sem.toFin] + BitVec.ofNat 16 q.count), semIncs := k.semIncs.eraseIdx i,
                        semSeen := k.semSeen.set q.sem.toFin (Nat.max k.semSeen[q.sem.toFin] q.stands) }
      putC (k.wake (k.semWaits.filter (fun w => w.sem == q.sem)))
  else applySaved (← arg 1) i
def execSemaphoreChangeApply (s : State) : Host.Outcome State Fault Refusal := event semaphoreChangeApply s

/-- The issue slot up to which an engine's words have been executed; S's own while it is in the monitor (R121). -/
def Core.issuedUpTo (k : Core) (e : Engine) : Nat := if k.mon && e == .S then k.monSaved.slot else (k.eng e).slot

/-- Whether the word of issue slot `n` of an engine is complete at core scope, its own increment among its effects (R130,
R131). -/
def Core.wordComplete (k : Core) (e : Engine) (n : Nat) : Bool :=
  decide (n < k.issuedUpTo e) && (e != .M || k.stepq.all (fun o => decide (n < o.issuedAt))) &&
  k.semIncs.all (fun q => q.src != .eng e n)

/-- Whether a trap has stopped every engine of a core: its token counts stand (R132). -/
def Core.tokensStand (k : Core) : Bool := k.stopReq && engines.all (fun e => (k.eng e).stopped || (k.eng e).ended)

/-- RING_TOKEN_RELEASE: reservation `arg 2` of engine `arg 1` (tag code) of core `arg 0` becomes a token: its word has been
executed, and what it did is complete at core scope. -/
def ringTokenRelease : W Unit := do
  let c ← arg 0
  match engineOfTag (BitVec.ofNat 3 (← arg 1)) with
  | none => stall
  | some e =>
    atCore c e
    let k ← getC
    let t ← getE
    let i ← arg 2
    match t.resv[i]? with
    | none => stall
    | some r =>
      waitFor (!k.tokensStand && k.wordComplete e r.slot && (← get).storesLanded c e r.slot)
      let t := { t with resv := t.resv.eraseIdx i }
      putE (if r.ahead then { t with toAhead := t.toAhead + 1, aheadSeen := t.aheadSeen ++ [r.stands e] }
            else { t with toBehind := t.toBehind + 1, behindSeen := t.behindSeen ++ [r.stands e] })
def execRingTokenRelease (s : State) : Host.Outcome State Fault Refusal := event ringTokenRelease s

/-! ## CONTEXT_SAVED (R93) -/

/-- CONTEXT_SAVED: context `arg 0` has come to rest. -/
def contextSaved : W Unit := do
  let n := BitVec.ofNat 8 (← arg 0)
  let s ← get
  let c := s.ctx n
  waitFor (c.state == .preempting && !s.holds n && !s.walks.any (fun w => w.2.ctx == n) && !s.gangs.any (fun g => g.2.ctx == n && g.2.state == .loading) &&
    !s.hub.any (fun h => h.2.ctx == n && h.2.st == .running && (h.2.card.onEngine || h.2.card.op == opWALKJ)))
  set (s.setCtx n { c with state := .saved })
def execContextSaved (s : State) : Host.Outcome State Fault Refusal := event contextSaved s

end Sys2Proof.Machine
end

