-- ==== Sys2Proof/Machine/Groups.lean ====
section
/-!
DEFINITION. Groups of packages (R438 to R454): the control block and member table, joins and withdrawals, remote cards as
they arrive (R449, R469, R470), remote signals, and the words GRPRANK, GRPGEN and RSIG.
-/
namespace Sys2Proof.Machine

/-! ## The block and the table (Table 17.1, R440) -/

def Group.own (g : Group) : Own := { ctx := g.ctx, region := g.region }

/-- A member-table entry. -/
def Member.num (m : Member) : Nat := m.pkgid + 2 ^ 16 * m.mstate.code + 2 ^ 24 * m.ctxid.toNat + 2 ^ 32 * m.jgen.toNat

def MState.ofCode (n : Nat) : MState :=
  match n with
  | 0 => .joining | 1 => .active | 2 => .withdrawing | _ => .gone

def memberOf (v : Nat) : Member :=
  let f := fieldOf v
  { pkgid := f 0 14 0, mstate := .ofCode (f 0 17 16), ctxid := BitVec.ofNat 8 (f 0 31 24), jgen := BitVec.ofNat 32 (f 0 63 32) }

/-- Holds a group's new state, and writes what changed: entries, GEN and PGEN, STATE last (R439, R440). `table` is what the
member table in memory holds where that is not what the group held before. -/
def keepGroup (g : Group) (table : Option (List Member) := none) : W Unit := do
  match (← get).group g.ctx g.num with
  | none => pure ()
  | some o =>
    modify (fun s => s.setGroup g)
    noteRecs g.ctx [(g.addr, 64), (g.mtab, 8 * g.members.length)]
    for r in List.range g.members.length do
      if g.member r ≠ memberAt (table.getD o.members) r then hubWriteN g.own (g.mtab + 8 * r) 8 (g.member r).num
    if o.gen ≠ g.gen || o.pgen ≠ g.pgen then hubWriteN g.own (g.addr + 8) 8 (g.gen.toNat + 2 ^ 32 * g.pgen.toNat)
    if o.state ≠ g.state then hubWriteN g.own g.addr 1 g.state

/-- Sets the state of rank `r`. -/
def Group.mark (g : Group) (r : Nat) (st : MState) : Group :=
  { g with members := g.members.set r { g.member r with mstate := st } }

/-- Replaces what list `l` says of rank `r`. -/
def noteRank {α : Type} (r : Nat) (v : α) (l : List (Nat × α)) : List (Nat × α) := l.filter (fun x => x.1 ≠ r) ++ [(r, v)]

/-! ## FORMING, RESHAPING, commit (R442 to R444) -/

/-- FORMING ends when every ACTIVE member has answered with the same GEN. -/
def settleForming (ctx : BitVec 8) (n : Nat) : W Unit := do
  match (← get).group ctx n with
  | none => pure ()
  | some g =>
    if g.state = 1 && (g.ranks [.active]).all (fun r => r == g.self || lookup r g.answered == some g.gen) then
      keepGroup { g with state := 2 }

/-- Every ACTIVE and JOINING member has confirmed: GEN := PGEN, the JOINING ranks are ACTIVE, and a generation fence goes
to every member. -/
def commitGroup (g : Group) : W Unit := do
  let joined := g.ranks [.joining]
  let up := fun (m : Member) => if m.mstate = .joining then { m with mstate := .active, jgen := g.pgen } else m
  let g := { g with state := 2, gen := g.pgen, members := g.members.map up, old := none, confirmed := g.confirmed.filter (fun x => x.2.1 ≠ g.pgen) }
  keepGroup g
  for r in joined do linkedBarriers g.ctx g.num (fun b => b.join r)
  sendAll g g.members (g.ranks [.active, .joining, .withdrawing]) gmFENCE [g.gen.toNat]
  sendMsg g g.self (g.member g.self) gmFENCE [g.gen.toNat]

/-- R444: this package's image differs from one it received. -/
def abandonReshape (g : Group) : W Unit := do
  match g.old with
  | none => keepGroup { g with state := 1, pgen := g.gen }
  | some (mtab, l, crc) =>
    -- a withdrawal applied meanwhile stands
    let back := (List.range l.length).map (fun r =>
      let m := memberAt l r
      if (g.member r).mstate = .withdrawing || (g.member r).mstate = .gone then { m with mstate := (g.member r).mstate } else m)
    keepGroup { g with state := 2, pgen := g.gen, mtab := mtab, members := back, crc := crc, old := none } l
  postCause g.ctx 0 (({ ctx := g.ctx, region := 0 } : Own).cause 9 0 cLINK (word64 g.num))

/-- What RESHAPING does next with the confirmations at hand: a package whose image differs from one it has received abandons, and
does so once for each such confirmation. DEDUCED (notes/assumptions/67.md). -/
def settleReshape (ctx : BitVec 8) (n : Nat) : W Unit := do
  match (← get).group ctx n with
  | none => pure ()
  | some g =>
    if g.state = 3 then
      let here := (g.ranks [.active, .joining]).filter (· ≠ g.self)
      let differs := fun (x : Nat × BitVec 32 × BitVec 32) => here.contains x.1 && x.2.1 == g.pgen && x.2.2 != g.crc
      if g.confirmed.any differs then abandonReshape { g with confirmed := g.confirmed.filter (fun x => !differs x) }
      else if here.all (fun r => lookup r g.confirmed == some (g.pgen, g.crc)) then commitGroup g

/-- Enters RESHAPING: PGEN is installed, and every member is told. -/
def enterReshape (g : Group) (pgen : BitVec 32) (table : Option (List Member) := none) : W Unit := do
  let g := { g with state := 3, pgen := pgen }
  keepGroup g table
  sendAll g g.members (g.ranks [.active, .joining]) gmCONFIRM [pgen.toNat, g.crc.toNat]
  settleReshape g.ctx g.num

/-! ## Withdrawal and dissolution (R442, R443, R446) -/

/-- Applies a withdrawal of rank `r` here: true when it was not applied before. -/
def withdrawRank (ctx : BitVec 8) (n r : Nat) : W Bool := do
  match (← get).group ctx n with
  | none => return false
  | some g =>
    if g.members.length ≤ r || (g.member r).mstate = .withdrawing || (g.member r).mstate = .gone then return false
    keepGroup (g.mark r .withdrawing)
    for x in (← get).buckets.filter (fun x => x.2.ctx == ctx && x.2.group.toNat == n && x.2.ggen == g.gen) do removeRank x.1 r
    linkedBarriers ctx n (fun b => b.withdraw r)
    settleForming ctx n
    settleReshape ctx n
    return true

/-- The context and card of a reference. -/
def State.refCard (s : State) (r : CardRef) : Option (BitVec 8 × Card) :=
  match r with
  | .x c t => ((s.core c).card? t).map (fun x => ((s.core c).lastCtx, x.card))
  | .hub id => (s.hubCard id).map (fun h => (h.ctx, h.card))
  | .remote _ _ => none

/-- Whether a card of this package to or from rank `r` of a group is still running: a remote card that names the rank is RUNNING till
it is DONE, whatever it has sent. -/
def State.rankBusy (s : State) (g : Group) (r : Nat) : Bool :=
  let names := fun (ctx : BitVec 8) (c : Card) => ctx == g.ctx && c.isRemote && c.grp == g.num && c.rank == r
  s.cores.toList.any (fun k => k.cards.any (fun x => x.st == .running && names k.lastCtx x.card)) ||
  s.hub.any (fun h => h.2.st == .running && names h.2.ctx h.2.card) ||
  s.remoteIn.any (fun x => x.ctx == g.ctx && x.grp == g.num && x.rank == r && !x.told)

/-- Remote cards of a group that are not DONE: they fault with LINK, one that waits or is queued as if it had just been
granted. DEDUCED (notes/assumptions/68.md). -/
def failGroupCards (g : Group) : W Unit := do
  let s ← get
  let bad := fun (c : Card) => c.isRemote && c.grp == g.num
  for c in List.range 96 do
    if (s.core c).lastCtx = g.ctx then
      for x in (s.core c).cards.filter (fun x => x.live && bad x.card && x.fault.isNone) do
        modify (fun s => (s.onCard c x.ticket (fun x => { x with st := .running })).faultCard (.x c x.ticket) (cLINK, word64 x.card.rank))
  for h in s.hub.filter (fun h => h.2.ctx == g.ctx && bad h.2.card && h.2.fault.isNone) do
    if h.2.st = .queued then markGranted h.1 h.2
    modify (fun s => s.faultCard (.hub h.1) (cLINK, word64 h.2.card.rank))
  for x in s.remoteIn.filter (fun x => x.ctx == g.ctx && x.grp == g.num && x.fault.isNone) do
    modify (fun s => (s.unwait (.owner (.remote (x.spkg + 32768 * x.xid)))).faultCard (.remote x.spkg x.xid) (cLINK, word64 x.off))
    settleRemote x.spkg x.xid

/-- DISSOLVED: linked barriers are ABANDONED, remote cards fault, the group is unbound (R442). DEDUCED (notes/assumptions/68.md). -/
def dissolveGroup (g : Group) : W Unit := do
  linkedBarriers g.ctx g.num Barrier.abandon
  failGroupCards g
  match (← get).group g.ctx g.num with
  | some g => keepGroup { g with state := 4 }
  | none => pure ()
  modify (fun s => { s with
    groups := s.groups.filter (fun x => !(x.ctx == g.ctx && x.num == g.num))
    xfers := s.xfers.filter (fun x => match x.2 with
      | .msg c n _ _ _ _ => !(c == g.ctx && n == g.num)
      | _ => true) })

/-- MEMBER_GONE: rank `arg 2` of group `arg 1` of context `arg 0`. Every member but the rank itself has acknowledged its
withdrawal; this package's own counts as given. -/
def memberGone : W Unit := do
  let ctx := BitVec.ofNat 8 (← arg 0)
  let r ← arg 2
  let s ← get
  match s.group ctx (← arg 1) with
  | none => stall
  | some g =>
    let told := (g.ranks [.active, .joining, .withdrawing]).all (fun q => q == r || q == g.self || g.acks.contains (r, q))
    waitFor ((g.member r).mstate == .withdrawing && decide (r < g.members.length) && told && !s.rankBusy g r)
    keepGroup { g.mark r .gone with acks := g.acks.filter (fun x => x.1 ≠ r), confirmed := g.confirmed.filter (fun x => x.1 ≠ r) }
    if r = g.self then
      match (← get).group ctx g.num with
      | some g => dissolveGroup g
      | none => pure ()
def execMemberGone (s : State) : Host.Outcome State Fault Refusal := event memberGone s

/-! ## Group messages -/

/-- A flit for this package that cannot be handled yet. DEDUCED (notes/assumptions/66.md). -/
def holdFlit (f : Flit) : W Unit := modify (fun s => { s with flitWait := s.flitWait ++ [f] })

/-- A group message of one kind, at the group it names. One that speaks of a group or a rank that is not bound here, or is
GONE, waits when `keep`, else is nothing. -/
def onGroup (kind : Nat) (keep : Bool) (body : Group → Nat → Flit → W Unit) : W Unit :=
  onFlit fGROUP (fun f => do
    waitFor (f.get 0 == kind)
    let r := f.get 3
    let g := ((← get).group (BitVec.ofNat 8 (f.get 1)) (f.get 2)).filter (fun g => decide (r < g.members.length) && (!keep || (g.member r).mstate != .gone))
    match g with
    | some g => body g r f
    | none => if keep then holdFlit f else pure ())

/-- GROUP_HELLO: answered with GEN and PGEN. -/
def execGroupHello (s : State) : Host.Outcome State Fault Refusal :=
  event (onGroup gmHELLO true (fun g r _ => sendMsg g r (g.member r) gmANSWER [g.gen.toNat, g.pgen.toNat])) s

/-- GROUP_HELLO_ANSWER: the hello is answered; a joiner whose GEN is the answering package's PGEN begins to reshape. -/
def groupHelloAnswer : W Unit :=
  onGroup gmANSWER false (fun g r f => do
    modify (fun s => { s with xfers := s.xfers.filter (fun x => match x.2 with
      | .msg c n k _ b _ => !(c == g.ctx && n == g.num && k == r && b.headD 0 == gmHELLO)
      | _ => true) })
    let gen := BitVec.ofNat 32 (f.get 4)
    let g := { g with answered := noteRank r gen g.answered }
    keepGroup g
    if g.state = 1 && (g.member g.self).mstate = .joining && gen + 1 = g.gen && BitVec.ofNat 32 (f.get 5) = g.gen then enterReshape g g.gen
    else settleForming g.ctx g.num)
def execGroupHelloAnswer (s : State) : Host.Outcome State Fault Refusal := event groupHelloAnswer s

/-- GROUP_CONFIRM. -/
def groupConfirm : W Unit :=
  onGroup gmCONFIRM true (fun g r f => do
    keepGroup { g with confirmed := noteRank r (BitVec.ofNat 32 (f.get 4), BitVec.ofNat 32 (f.get 5)) g.confirmed }
    settleReshape g.ctx g.num)
def execGroupConfirm (s : State) : Host.Outcome State Fault Refusal := event groupConfirm s

/-- GROUP_COMMIT_FENCE. -/
def execGroupCommitFence (s : State) : Host.Outcome State Fault Refusal :=
  event (onGroup gmFENCE false (fun g r f => keepGroup { g with fenced := noteRank r (BitVec.ofNat 32 (f.get 4)) g.fenced })) s

/-- GROUP_WITHDRAW_NOTICE: applied on receipt, and acknowledged to every member. The notice itself tells that its sender
has applied the withdrawal. -/
def groupWithdrawNotice : W Unit :=
  onGroup gmNOTICE false (fun g r f => do
    let w := f.get 4
    keepGroup { g with acks := if g.acks.contains (w, r) then g.acks else g.acks ++ [(w, r)] }
    if ← withdrawRank g.ctx g.num w then
      match (← get).group g.ctx g.num with
      | some g => sendAll g g.members (g.ranks [.active, .joining, .withdrawing]) gmACK [w]
      | none => pure ())
def execGroupWithdrawNotice (s : State) : Host.Outcome State Fault Refusal := event groupWithdrawNotice s

/-- GROUP_WITHDRAW_ACK. -/
def execGroupWithdrawAck (s : State) : Host.Outcome State Fault Refusal :=
  event (onGroup gmACK false (fun g r f =>
    keepGroup { g with acks := if g.acks.contains (f.get 4, r) then g.acks else g.acks ++ [(f.get 4, r)] })) s

/-- GROUP_MESSAGE_RESEND: message `arg 0` was reported lost, and its member is not withdrawn. -/
def groupMessageResend : W Unit := do
  let x ← arg 0
  let s ← get
  match lookup x s.xfers with
  | some (.msg ctx n r dpkg body lost) =>
    match s.group ctx n with
    | none => stall
    | some g =>
      let st := (g.member r).mstate
      waitFor (lost && st != .gone && (st != .withdrawing || body.headD 0 == gmNOTICE || body.headD 0 == gmACK))
      set { s with xfers := assign x (.msg ctx n r dpkg body false) s.xfers }
      source fGROUP dpkg x 0 body [] [] (g.ctx, g.region)
  | _ => stall
def execGroupMessageResend (s : State) : Host.Outcome State Fault Refusal := event groupMessageResend s

/-! ## Reports to this package (R448, R454, R468, R347) -/

/-- The transfer of a report, and that it has ended. -/
def takeXfer (f : Flit) : W (Option XferOf) := do
  let s ← get
  set { s with xfers := erase f.xid s.xfers }
  return lookup f.xid s.xfers

/-- Whether the loss of a flit of transfer `xid` of this package is being reported here. -/
def State.lossHere (s : State) (xid : Nat) : Bool :=
  s.flitWait.any (fun f => f.type == fREPORT && some f.dpkg == s.pkgid && f.xid == xid && f.get 0 == 1 && f.get 3 != fREPORT.toNat)

/-- REMOTE_CARD_REPORT: DONE, or the refusal or fault at the receiver. The loss of a flit of the card comes first (R472). DEDUCED
(notes/assumptions/65.md). -/
def remoteCardReport : W Unit :=
  onFlit fREPORT (fun f => do
    waitFor (f.get 0 == 0 && !(← get).lossHere f.xid)
    match ← takeXfer f with
    | some (.card r _) =>
      if f.get 1 = 0 then modify (fun s => s.setMoved r)
      else modify (fun s => s.faultCard r (BitVec.ofNat 8 (f.get 1), word64 (f.get 2)))
    | _ => pure ())
def execRemoteCardReport (s : State) : Host.Outcome State Fault Refusal := event remoteCardReport s

/-- A REPORT flit that this package sent has been lost: one of the end of a card makes the card end with LINK, any other is sent
again. -/
def reportLost (f : Flit) : W Unit :=
  let body := f.body.drop 5
  source fREPORT (f.get 4) f.xid 0 (if body.headD 0 = 0 then [1, f.get 1, f.get 2, fCARD.toNat] else body)

/-- The sender of a card that is being received has lost a flit of it: what has not arrived will not come. DESIGN CHOICE
(notes/assumptions/68.md). -/
def senderLost (f : Flit) : W Unit := do
  let me := fun (r : RemoteIn) => r.spkg == f.spkg && r.xid == f.xid
  modify (fun s => { s with remoteIn := s.remoteIn.map (fun r => if me r && r.fault.isNone then { r with fault := some (cLINK, word64 r.off), told := true } else r) })
  settleRemote f.spkg f.xid

/-- The package that a card's transfer goes to. -/
def State.targetOf (s : State) (r : CardRef) : Option Nat :=
  (s.refCard r).bind (fun q => (s.group q.1 q.2.grp).map (fun g => (g.member q.2.rank).pkgid))

/-- LINK_LOSS_REPORT (R468): of a flit of a transfer of this package, of a REPORT flit of this package, or, from a sender, of a flit of
a card that is being received here. -/
def linkLossReport : W Unit :=
  onFlit fREPORT (fun f => do
    waitFor (f.get 0 == 1 || f.get 0 == 4)
    if f.get 0 = 4 then senderLost f
    else if f.get 3 = fREPORT.toNat then reportLost f
    else
    let detail := fun (rank : Nat) => word64 (f.get 1 % 256 + 256 * (f.get 2 % 256) + 65536 * rank)
    match ← takeXfer f with
    | some (.card r rank) =>
      match (← get).targetOf r with
      | some d => source fREPORT d f.xid 0 [4]
      | none => pure ()
      modify (fun s => s.faultCard r (cLINK, detail rank))
    | some (.rsig c rank pc) =>
      modify (fun s => s.onCore c (fun k => { k with rsigs := k.rsigs.filter (· ≠ f.xid) }))
      modify (fun s => s.trapStop c .S 0 cLINK (pc.setWidth 17) (detail rank))
    | some (.msg ctx n r d b _) => modify (fun s => { s with xfers := assign f.xid (.msg ctx n r d b true) s.xfers })
    | none => pure ())
def execLinkLossReport (s : State) : Host.Outcome State Fault Refusal := event linkLossReport s

/-- RSIG_ACK. -/
def rsigAck : W Unit :=
  onFlit fREPORT (fun f => do
    waitFor (f.get 0 == 3)
    match ← takeXfer f with
    | some (.rsig c _ _) => modify (fun s => s.onCore c (fun k => { k with rsigs := k.rsigs.filter (· ≠ f.xid) }))
    | _ => pure ())
def execRsigAck (s : State) : Host.Outcome State Fault Refusal := event rsigAck s

/-- RACCW_CANCEL_NOTICE (R347): context, group, offset, length and tag. -/
def raccwCancelNotice : W Unit :=
  onFlit fREPORT (fun f => do
    waitFor (f.get 0 == 2)
    let ctx := BitVec.ofNat 8 (f.get 1)
    match (← get).group ctx (f.get 2) with
    | none => pure ()
    | some g => cancelContribution ctx (g.wbase + f.get 3) (f.get 4) (some (BitVec.ofNat 32 (f.get 5))) 0xFFFFFFFF)
def execRaccwCancelNotice (s : State) : Host.Outcome State Fault Refusal := event raccwCancelNotice s

/-! ## Remote cards at the receiver (R445, R447, R449) -/

/-- Whether a tag passes R445: after a sender's fence of the next generation, that of this one has arrived too. -/
def Group.tagOk (g : Group) (rank : Nat) (t : BitVec 32) : Bool :=
  let fenced := lookup rank g.fenced == some g.gen || lookup rank g.fenced == some (g.gen + 1)
  t == g.gen || (t == g.gen + 1 && g.state == 3) || (t + 1 == g.gen && !fenced)

/-- Every page of a range translates, and admits what a remote card of operation `op` does there. -/
def windowOk (ctx : BitVec 8) (op : Nat) : Nat → Nat → Nat → W (Option Bad)
  | 0, _, _ => return none
  | fuel + 1, a, e => do
    if e ≤ a then return none
    let use := if op = opRWRITE then Acc.write else if op = opRACCW then Acc.acc else Acc.read
    match ← xlate [.hub] ctx a use with
    | .error x => return some x
    | .ok l =>
      if op = opMCAST && (l.kind ≠ 2 || !l.w) then return some (cPROT, word64 a)
      windowOk ctx op fuel (l.vbase + l.size) e

/-- The CARD flit of a remote card, field by field (Table 18.2). -/
structure CardFlit where
  op : Nat
  grp : Nat
  off : Nat
  tag : BitVec 32
  rank : Nat
  ctx : BitVec 8
  len : Nat
  fin : Nat
  deriving DecidableEq, Repr, Inhabited

def cardFlit (f : Flit) : CardFlit :=
  { op := f.get 0, grp := f.get 1, off := f.get 3, tag := BitVec.ofNat 32 (f.get 4), rank := f.get 5, ctx := BitVec.ofNat 8 (f.get 6),
    len := f.get 7, fin := f.get 8 }

/-- Bytes at the destination, and elements of an accumulate-write. -/
def CardFlit.elems (q : CardFlit) : Nat := q.len / (if q.fin = 0 then 4 else 2)
def CardFlit.dest (q : CardFlit) : Nat := if q.op = opRACCW then 4 * q.elems else q.len

/-- Number of the owner of an incoming card's footprint. -/
def remoteOwner (f : Flit) : Nat := f.spkg + 32768 * f.xid

/-- Why a card is refused before any page of it is looked at. DEDUCED (notes/assumptions/65.md). -/
def State.refusal (s : State) (q : CardFlit) : Option (BitVec 8) :=
  match s.group q.ctx q.grp with
  | none => some cLINK
  | some g =>
    let m := g.member q.rank
    if !g.tagOk q.rank q.tag || m.mstate = .withdrawing || m.mstate = .gone then some cLINK
    else if g.wlen < q.off + q.dest || !(if q.op = opRWRITE then g.ww else if q.op = opRACCW then g.wacc else g.wmc) then some cPROT
    else none

/-- An incoming card by its sender and identifier. -/
def RemoteIn.is (r : RemoteIn) (spkg xid : Nat) : Bool := r.spkg == spkg && r.xid == xid

/-- An incoming card as it is from now on: refused, waiting or begun, when the values of an accumulate-write may come. -/
def putRemote (r : RemoteIn) (q : CardFlit) : W Unit := do
  modify (fun s => { s with remoteIn := s.remoteIn.filter (fun x => !x.is r.spkg r.xid) ++ [r] })
  if r.fault.isNone && !r.waiting && q.op = opRACCW && 0 < q.elems then
    let a : AccChunk := { ctx := q.ctx, src := .remote r.spkg r.xid, addr := r.base, rank := some q.rank, tag := some q.tag, vals := [], more := q.elems }
    modify (fun s => { s with accIn := s.accIn ++ [a] })
  if !r.waiting then settleRemote r.spkg r.xid

/-- The footprint of an incoming card that has passed its checks: it begins, is refused, or waits for room. -/
def enterRemote (f : Flit) (r : RemoteIn) (q : CardFlit) : W Unit := do
  let o := Owner.remote (remoteOwner f)
  let rs := if q.op = opMCAST || q.dest = 0 then [] else rangeOf false (if q.op = opRWRITE then .w else .acc) r.base (r.base + q.dest - 1 : Nat)
  match ← enterFps (.owner o) o q.ctx 0 rs true with
  | .waiting =>
    putRemote { r with waiting := true } q
    holdFlit f
  | .bad (c, _) => putRemote { r with waiting := false, fault := some (c, word64 q.off) } q
  | .entered ids => putRemote { r with waiting := false, fps := ids } q

/-- REMOTE_CARD_RECEIVE: the card is refused, begins, or waits for a footprint; its checks are made once, as its first flit
arrives (R446, R449). -/
def remoteCardReceive : W Unit :=
  onFlit fCARD (fun f => do
    let q := cardFlit f
    let s ← get
    match s.remoteIn.find? (fun r => r.is f.spkg f.xid) with
    | some r => if r.waiting && r.fault.isNone then enterRemote f r q
    | none =>
      let base := ((s.group q.ctx q.grp).map (·.wbase)).getD 0 + q.off
      let r : RemoteIn := { spkg := f.spkg, xid := f.xid, op := q.op, ctx := q.ctx, grp := q.grp, rank := q.rank, tag := q.tag, off := q.off,
                            base := base, len := q.len, fin := q.fin, left := q.len }
      match s.refusal q with
      | some c => putRemote { r with fault := some (c, word64 q.off) } q
      | none =>
        match ← windowOk q.ctx q.op (q.dest / 0x10000 + 2) base (base + q.dest) with
        | some (c, _) => putRemote { r with fault := some (c, word64 q.off) } q
        | none => enterRemote f r q)
def execRemoteCardReceive (s : State) : Host.Outcome State Fault Refusal := event remoteCardReceive s

/-! ## Remote data (R469, R470) -/

def State.onRemote (s : State) (p x : Nat) (g : RemoteIn → RemoteIn) : State :=
  { s with remoteIn := s.remoteIn.map (fun r => if r.spkg = p && r.xid = x then g r else r) }

/-- A sector whose check failed: it holds an uncorrectable error, in every replica for a multicast, and in the second tier too
(R488). DEDUCED (notes/assumptions/70.md). -/
def spoilSector (r : RemoteIn) (a : Nat) : W Unit := do
  match ← xlate [.hub] r.ctx a .read with
  | .error _ => pure ()
  | .ok l =>
    let pa := l.pa a
    let pas := if l.kind = 2 then (List.range 4).map (fun j => pa + 3 * j * stackSpan) else [pa]
    if l.kind = 0 || l.kind = 2 || l.kind = 3 then
      modify (fun s => { s with uncorr := s.uncorr.filter (fun x => !pas.any (fun p => p / 64 == x)) ++ pas.map (· / 64) })

/-- Values in order go on to the CEs. -/
def feedAcc (p x : Nat) : Nat → W Unit
  | 0 => pure ()
  | fuel + 1 => do
    match (← get).remoteIn.find? (fun r => r.spkg == p && r.xid == x) with
    | none => pure ()
    | some r =>
      match r.got.find? (fun d => d.1 == r.pos) with
      | none => pure ()
      | some (o, b) =>
        let vs := widenElems r.fin b
        let add := fun (q : AccChunk) => if q.src = .remote p x then { q with vals := q.vals ++ vs, more := q.more - vs.length } else q
        modify (fun s => { (s.onRemote p x (fun r => { r with pos := r.pos + b.length, got := r.got.filter (fun d => d.1 != o) })) with
          accIn := s.accIn.map add })
        feedAcc p x fuel

/-- The end of a card by a failed sector check: LINK, reason 5, PORT 0xFF, and a scorecard record. Chunks that arrived whole before
it stand (R343). -/
def failSector (r : RemoteIn) (rank : Nat) : W Unit := do
  let d := word64 (0xFF + 256 * 5 + 65536 * rank)
  let rec_ := ({ ctx := r.ctx, region := 0 } : Own).cause 9 0xFF cLINK d
  modify (fun s => (s.onRemote r.spkg r.xid (fun x => { x with fault := some (cLINK, d), told := true })).addScore kCause r.ctx rec_.num)
  source fREPORT r.spkg r.xid 0 [1, 0xFF, 5, fDATA.toNat]

/-- Sector `k` of a multicast, of what has come. -/
def RemoteIn.sector (r : RemoteIn) (k : Nat) : List Byte :=
  match r.got.find? (fun d => decide (d.1 ≤ 64 * k) && decide (64 * k < d.1 + d.2.length)) with
  | some d => (d.2.drop (64 * k - d.1)).take 64
  | none => []

/-- The bytes of a rank-addressed multicast are all here: they go to the four replicas under one sequence number (R302, R449). -/
def finishMulticast (r : RemoteIn) (own : Nat) : W Unit := do
  walkTurn [.hub] r.ctx r.base r.len
  match ← multicast (hubPath r.ctx) r.base ((List.range (r.len / 64)).flatMap r.sector) with
  | .error e => modify (fun s => s.faultCard (.remote r.spkg r.xid) e)
  | .ok q =>
    if !r.bad.isEmpty then
      applyUpTo q
      for o in r.bad do spoilSector r (r.base + o)
      failSector r own
    else
      match ← settleRep (some q) with
      | some e => modify (fun s => s.faultCard (.remote r.spkg r.xid) e)
      | none => pure ()

/-- The sectors of a DATA flit: written, kept for the multicast, or handed on in order; then their checks. -/
def takeData (r : RemoteIn) (f : Flit) : W Unit := do
  let p := r.spkg
  let x := r.xid
  let data := f.data.take (r.len - f.off)
  let n := data.length
  let secs := List.range ((f.data.length + 63) / 64)
  let bad := secs.filter (fun k => f.scrc.getD k 0 != crc32c ((f.data.drop (64 * k)).take 64))
  modify (fun s => s.onRemote p x (fun r => { r with left := r.left - n }))
  if r.fault.isNone then
    let own := (((← get).group r.ctx r.grp).map (·.self)).getD 0
    if r.op = opRACCW then
      if bad.isEmpty then
        modify (fun s => s.onRemote p x (fun r => { r with got := r.got ++ [(f.off, data)] }))
        feedAcc p x (r.len / 64 + 2)
      else failSector r own
    else if r.op = opRWRITE then
      walkTurn [.hub] r.ctx (r.base + f.off) data.length
      match ← writeMem (hubPath r.ctx) (r.base + f.off) data with
      | .error e => modify (fun s => s.faultCard (.remote p x) e)
      | .ok _ =>
        for k in bad do spoilSector r (r.base + f.off + 64 * k)
        if !bad.isEmpty then failSector r own
    else
      let r := { r with got := r.got ++ [(f.off, data)], bad := r.bad ++ bad.map (fun k => f.off + 64 * k), left := r.left - n }
      modify (fun s => s.onRemote p x (fun _ => r))
      if r.left = 0 then finishMulticast r own
  settleRemote p x

/-- REMOTE_DATA_RECEIVE: data of a card that has not begun waits. -/
def remoteDataReceive : W Unit :=
  onFlit fDATA (fun f => do
    match (← get).remoteIn.find? (fun r => r.is f.spkg f.xid) with
    | none => holdFlit f
    | some r => if r.waiting && r.fault.isNone then holdFlit f else takeData r f)
def execRemoteDataReceive (s : State) : Host.Outcome State Fault Refusal := event remoteDataReceive s

/-! ## Remote signals (R454) -/

/-- Signals a group holds. -/
def sigRoom : Nat := 4096

/-- A signal for the catcher's gang; a GR at or above its size is discarded. -/
def State.catchSig (s : State) (gang : Nat) (q : RemoteSig) : State :=
  if ((s.gang gang).map (·.size)).getD 0 ≤ q.gr then s else s.signalRank gang q.gr q.sem q.count

/-- REMOTE_SIGNAL_RECEIVE: to the catcher, or held until a CATCH. One for a group not bound here, or that holds 4,096, waits beside the
port, so that nothing waits behind it (R459). -/
def remoteSignalReceive : W Unit :=
  onFlit fSIGNAL (fun f => do
    let s ← get
    match s.group (BitVec.ofNat 8 (f.get 0)) (f.get 1) with
    | none => holdFlit f
    | some g =>
      let q : RemoteSig := { gr := f.get 3, sem := BitVec.ofNat 4 (f.get 4), count := f.get 5 }
      let ack := source fREPORT f.spkg f.xid 0 [3]
      match g.catcher with
      | some k =>
        set (s.catchSig k q)
        ack
      | none =>
        if g.sigs.length < sigRoom then
          set (s.setGroup { g with sigs := g.sigs ++ [q] })
          ack
        else
          waitFor (decide ((← arg 0) < 16))
          holdFlit f)
def execRemoteSignalReceive (s : State) : Host.Outcome State Fault Refusal := event remoteSignalReceive s

/-! ## GRPRANK, RSIG (R451, R452, R454) -/

/-- A group number in sa. -/
def groupNumber (a : BitVec 6) : W Nat := do
  let n := (← rdClean a).toNat
  if 255 < n then illegal
  return n

/-- GRPRANK. -/
def grprankBody (d a : BitVec 6) : W Unit := do
  let n ← groupNumber a
  let v := match (← get).group (← getC).lastCtx n with
    | none => 0
    | some g => g.self + 2 ^ 16 * (g.member g.self).mstate.code + 2 ^ 20 * g.state + 2 ^ 32 * g.gen.toNat
  wrS d { v := word64 v } interlocked
def execGrprank (d a : BitVec 6) (s : State) : Host.Outcome State Fault Refusal := plain (grprankBody d a) s

/-- Whether a flit for a package leaves now, or is lost now. -/
def State.leavesNow (s : State) (f : Flit) : Bool :=
  some f.dpkg == s.pkgid || (match s.routeOf (s.retag f) with
    | .waits => false
    | .sent p => (s.sendBy p (s.retag f)).isSome
    | _ => true)

/-- Whether the target of a signal holds 4,096 (R454), where it is this package. DESIGN CHOICE (notes/assumptions/95.md). -/
def State.sigHeld (s : State) (g : Group) (rank : Nat) : Bool :=
  match s.group (g.member rank).ctxid g.num with
  | some t => t.catcher.isNone && decide (sigRoom ≤ t.sigs.length)
  | none => false

/-- RSIG. -/
def rsigBody (a b : BitVec 6) : W Unit := do
  let n ← groupNumber a
  let v ← rdClean b
  let rank := (v.extractLsb' 0 15).toNat
  let count := (v.extractLsb' 32 14).toNat
  let s ← get
  match s.group (← getC).lastCtx n with
  | none => illegal
  | some g =>
    if v.getLsbD 15 || v.getLsbD 23 || v.extractLsb' 28 4 ≠ 0 || v.extractLsb' 46 18 ≠ 0 || count = 0 || g.members.length ≤ rank then illegal
    let m := g.member rank
    if m.mstate ≠ .active then trap cLINK (word64 rank)
    drainGroup
    let rgen := BitVec.ofNat 8 s.rgen
    let k ← getC
    let owner := (k.lastCtx, k.region.toNat)
    let f : Flit := { type := fSIGNAL, vc := 0, rgen := rgen, dst := BitVec.ofNat 15 m.pkgid, src := BitVec.ofNat 15 (s.pkgid.getD 0), owner := owner }
    waitFor ((← get).leavesNow f)
    -- another package may hold 4,096 at any time
    if some m.pkgid = s.pkgid then waitFor (!s.sigHeld g rank) else waitFor (← anyBit)
    let x ← nextXid (.rsig s.cur.core rank ((← getPc).setWidth 16))
    source fSIGNAL m.pkgid x 0
      [m.ctxid.toNat, g.num, rank, (v.extractLsb' 16 7).toNat, (v.extractLsb' 24 4).toNat, count] [] [] owner
    modC (fun k => { k with rsigs := k.rsigs ++ [x] })
def execRsig (a b : BitVec 6) (s : State) : Host.Outcome State Fault Refusal := plain (rsigBody a b) s

/-! ## GRPGEN (R453) -/

/-- Groups and member entries of a package (R438). -/
def groupLimit : Nat := 1024
def memberLimit : Nat := 262144

/-- A control block and member table as read. -/
structure GroupImage where
  block : Nat
  table : List Byte
  deriving DecidableEq, Repr, Inhabited

def GroupImage.nmem (i : GroupImage) : Nat := fieldOf i.block 0 31 16
def GroupImage.self (i : GroupImage) : Nat := fieldOf i.block 0 46 32
def GroupImage.mtab (i : GroupImage) : Nat := fieldOf i.block 0x20 55 0
def GroupImage.entries (i : GroupImage) : List Nat := (List.range i.nmem).map (fun r => leNat ((i.table.drop (8 * r)).take 8))

/-- What BIND refuses. -/
def GroupImage.bad (i : GroupImage) (pkgid : Option Nat) (ctx : BitVec 8) : Bool :=
  let f := fieldOf i.block
  let me := memberOf (i.entries.getD i.self 0)
  f 0 15 0 != 0 || f 0 63 47 != 0 || f 8 63 32 != 0 || f 0x10 63 56 != 0 || f 0x18 63 43 != 0 || f 0x20 63 56 != 0 ||
  i.block / 2 ^ (8 * 0x28) != 0 || i.nmem == 0 || decide (32768 < i.nmem) || decide (i.nmem ≤ i.self) ||
  i.entries.any (fun v => fieldOf v 0 15 15 != 0 || fieldOf v 0 23 18 != 0 || fieldOf v 0 63 32 != 0 || (memberOf v).mstate == .withdrawing) ||
  some me.pkgid != pkgid || me.ctxid != ctx

/-- S reads a run of bytes for an operation of the hub, once its own stores there are complete. -/
def sBytes (va n : Nat) : W (List Byte) := do
  let s ← get
  let c := s.cur.core
  waitFor (!s.flights.any (fun f => f.core == c && f.eng == .S && f.mode.writes && overlaps f.va f.len va n))
  dropDirty (s.core c).lastCtx c va n
  orTrap (← readMem (hubPath (s.core c).lastCtx) va n)

/-- Reads and checks the block and table at sb. -/
def groupImage (sb : BitVec 64) : W GroupImage := do
  if sb.extractLsb' 0 6 ≠ 0 then trap cALIGN sb
  let i : GroupImage := { block := leNat (← sRecord sb.toNat 64), table := [] }
  let i := { i with table := ← sBytes i.mtab (8 * Nat.min 32768 i.nmem) }
  if i.bad (← get).pkgid (← getC).lastCtx then illegal
  return i

/-- The checks of GRPGEN common to every operation, then the operation: it gets the group's number, sb and RANK, and
gives the result. -/
def grpgenWord (op : Nat → BitVec 64 → Nat → W (BitVec 32)) : W Unit := do
  let d ← regD
  let v ← rdClean d
  let n ← groupNumber (← regA)
  let b ← rdClean (← regB)
  let rank := (v.extractLsb' 16 15).toNat
  if 6 < (v.extractLsb' 0 4).toNat || v.extractLsb' 4 12 ≠ 0 || v.extractLsb' 31 33 ≠ 0 || ((v.extractLsb' 0 4).toNat ≠ 3 && rank ≠ 0) then illegal
  let r ← op n b rank
  wrS d { v := r.setWidth 64 } interlocked

/-- The bound group of S's context. -/
def boundGroup (n : Nat) : W Group := do
  match (← get).group (← getC).lastCtx n with
  | none => illegal
  | some g => return g

/-- READ. -/
def grpgenRead (n : Nat) (_ : BitVec 64) (_ : Nat) : W (BitVec 32) := do return (← boundGroup n).gen

/-- BIND. -/
def grpgenBind (n : Nat) (sb : BitVec 64) (_ : Nat) : W (BitVec 32) := do
  let s ← get
  let k ← getC
  let held := (s.groups.map (·.members.length)).sum
  if (s.group k.lastCtx n).isSome || groupLimit ≤ s.groups.length || memberLimit ≤ held then illegal
  let i ← groupImage sb
  if memberLimit < held + i.nmem then illegal
  let f := fieldOf i.block
  let gen := BitVec.ofNat 32 (f 8 31 0)
  let g : Group :=
    { ctx := k.lastCtx, num := n, addr := sb.toNat, region := k.region.toNat, state := 0, self := i.self, gen := gen, pgen := 0, wbase := f 0x10 55 0,
      wlen := f 0x18 39 0, ww := f 0x18 40 40 == 1, wacc := f 0x18 41 41 == 1, wmc := f 0x18 42 42 == 1, mtab := i.mtab,
      members := i.entries.map memberOf, crc := crc32c i.table }
  modify (fun s => { s with groups := s.groups ++ [g] })
  let g := { g with state := 1, pgen := gen }
  keepGroup g
  sendAll g g.members (g.ranks [.active, .joining]) gmHELLO [gen.toNat]
  settleForming g.ctx n
  return gen

/-- DISSOLVE. -/
def grpgenDissolve (n : Nat) (_ : BitVec 64) (_ : Nat) : W (BitVec 32) := do
  let g ← boundGroup n
  dissolveGroup g
  return g.gen

/-- WITHDRAW. -/
def grpgenWithdraw (n : Nat) (_ : BitVec 64) (rank : Nat) : W (BitVec 32) := do
  let g ← boundGroup n
  if g.members.length ≤ rank then illegal
  if ← withdrawRank g.ctx n rank then
    match (← get).group g.ctx n with
    | some g => sendAll g g.members (g.ranks [.active, .joining, .withdrawing]) gmNOTICE [rank]
    | none => pure ()
  return g.gen

/-- Whether an image's table is one that a RESHAPE may install (R444): every entry that is not GONE is kept, and joiners
stand at GONE ranks or at new ones. DEDUCED (notes/assumptions/67.md). -/
def Group.reshapes (g : Group) (i : GroupImage) : Bool :=
  let new := i.entries.map memberOf
  i.self == g.self && decide (g.members.length ≤ new.length) && (List.range new.length).all (fun r =>
    let m := memberAt new r
    match (g.member r).mstate with
    | .gone => m.mstate == .joining || m.mstate == .gone
    | st => m.pkgid == (g.member r).pkgid && m.ctxid == (g.member r).ctxid && (st == .withdrawing || m.mstate == st))

/-- RESHAPE: the image's table comes into force; a rank that stays keeps its JGEN, and one that is being withdrawn is
still so. -/
def grpgenReshape (n : Nat) (sb : BitVec 64) (_ : Nat) : W (BitVec 32) := do
  let g ← boundGroup n
  if g.state ≠ 2 then illegal
  let i ← groupImage sb
  let others := (((← get).groups.filter (fun x => !(x.ctx == g.ctx && x.num == g.num))).map (·.members.length)).sum
  if memberLimit < others + i.nmem || !g.reshapes i then illegal
  let table := i.entries.map memberOf
  let new := (List.range i.nmem).map (fun r =>
    let m := memberAt table r
    let o := g.member r
    if o.mstate = .gone then m else { m with mstate := if o.mstate = .withdrawing then .withdrawing else m.mstate, jgen := o.jgen })
  let pgen := g.gen + 1
  enterReshape { g with old := some (g.mtab, g.members, g.crc), mtab := i.mtab, members := new, crc := crc32c i.table } pgen table
  return pgen

/-- CATCH: the running kernel becomes the catcher, and gets the signals held. -/
def grpgenCatch (n : Nat) (_ : BitVec 64) (_ : Nat) : W (BitVec 32) := do
  let g ← boundGroup n
  let s ← get
  match (← getC).gang with
  | none => illegal
  | some k =>
    let byNode := (((s.gang k).bind (fun q => s.hubCard q.card)).bind (·.node)).isSome
    if !byNode || g.catcher.isSome then illegal
    set (g.sigs.foldl (fun s q => s.catchSig k q) (s.setGroup { g with catcher := some k, sigs := [] }))
    return g.gen

/-- DROP. -/
def grpgenDrop (n : Nat) (_ : BitVec 64) (_ : Nat) : W (BitVec 32) := do
  let g ← boundGroup n
  if g.catcher.isNone || g.catcher ≠ (← getC).gang then illegal
  modify (fun s => s.setGroup { g with catcher := none })
  return g.gen

def execGrpgenRead (s : State) : Host.Outcome State Fault Refusal := plain (grpgenWord grpgenRead) s
def execGrpgenBind (s : State) : Host.Outcome State Fault Refusal := plain (grpgenWord grpgenBind) s
def execGrpgenDissolve (s : State) : Host.Outcome State Fault Refusal := plain (grpgenWord grpgenDissolve) s
def execGrpgenWithdraw (s : State) : Host.Outcome State Fault Refusal := plain (grpgenWord grpgenWithdraw) s
def execGrpgenReshape (s : State) : Host.Outcome State Fault Refusal := plain (grpgenWord grpgenReshape) s
def execGrpgenCatch (s : State) : Host.Outcome State Fault Refusal := plain (grpgenWord grpgenCatch) s
def execGrpgenDrop (s : State) : Host.Outcome State Fault Refusal := plain (grpgenWord grpgenDrop) s

end Sys2Proof.Machine
end

