-- ==== Sys2Proof/Machine/StackKernel.lean ====
section
/-!
DEFINITION. Stack kernels (R355 to R373): the dispatcher's checks and the launch, the choice of runs, the channel-engine
word with its F, A and W slots, faults and publication, pre-emption, and the end of a launch.
-/
namespace Sys2Proof.Machine

/-! ## A launch (R357, R359) -/

def Launch.ec (l : Launch) : Nat := 16 * 2 ^ l.csz
/-- Sectors per pass. -/
def Launch.spp (l : Launch) : Nat := 2 ^ l.ps
/-- Bytes of a working-copy element. -/
def elemWo (ofmt : Nat) : Nat := if ofmt = 0 then 0 else if ofmt ≤ 2 then 2 else 1
def Launch.ce (l : Launch) (j : Nat) : Nat := l.ces.getD j 0

def State.ce (s : State) (g : Nat) : Ce := (lookup g s.ces).getD {}
def State.setCe (s : State) (g : Nat) (c : Ce) : State := { s with ces := assign g c s.ces }
def State.onLaunch (s : State) (id : Nat) (f : Launch → Launch) : State :=
  { s with launches := s.launches.map (fun l => if l.1 = id then (id, f l.2) else l) }

/-- A record of a launch's owner: nothing of it names a node. -/
def launchOwn (ctx : BitVec 8) (region : Nat) : Own := { ctx := ctx, region := region }

/-! ## The dispatcher (R356) -/

/-- A check that can refuse a launch. -/
abbrev Check := ExceptT Bad W
def refuse {α : Type} (c : BitVec 8) (d : BitVec 64) : Check α := ExceptT.mk (pure (.error (c, d)))
def tryRead {α : Type} (x : W (Except Bad α)) : Check α := ExceptT.mk x

/-- What the dispatcher takes from a bucket header or a parameter block. -/
structure LaunchParam where
  hdr : Nat
  csz : Nat
  ofmt : Nat
  elems : Nat
  area : Nat
  step : BitVec 64
  vtgt : Nat
  seed : BitVec 64
  whistle : BitVec 32
  level : Nat
  region : Nat
  ces : List Nat
  fps : List Nat
  deriving DecidableEq, Repr, Inhabited

/-- A field of a parameter block that must be zero is not, or a field read is out of its limits (R357). -/
def paramBad (v : Nat) : Bool :=
  let f := fieldOf v
  f 0 5 0 != 0 || f 0 11 9 != 0 || f 0 63 16 != 0 || f 8 63 32 != 0 || f 0x10 63 56 != 0 || f 0x20 63 56 != 0 || f 0x30 63 0 != 0 ||
  f 0x38 63 12 != 0 || decide (5 < f 0 8 6) || decide (6 < f 0 15 12) || f 8 31 0 == 0 || f 0x10 55 0 % (64 * 2 ^ f 0 8 6) != 0

/-- The parameter block at `a`. -/
def readParam (ctx : BitVec 8) (a : BitVec 64) (level region : Nat) : Check LaunchParam := do
  if a.extractLsb' 0 6 ≠ 0 then refuse cALIGN a
  let v := leNat (← tryRead (hubRead ctx a.toNat 64))
  if paramBad v then refuse cILLEGAL a
  let f := fieldOf v
  let area := f 0x10 55 0
  let ec := 16 * 2 ^ f 0 8 6
  let n := (f 8 31 0 + ec - 1) / ec
  walkTurn [.hub] ctx area (4 * ec * n)
  let ls ← tryRead (leavesOf ctx (4 * ec * n / 0x10000 + 2) area (area + 4 * ec * n))
  let stack := (ls.map (·.frame / stackSpan)).headD 0
  match ls.find? (fun l => l.kind != 0 || !l.w || decide (12 * stackSpan ≤ l.frame) || l.frame / stackSpan != stack) with
  | some l => refuse cPROT (word64 (Nat.max area l.vbase))
  | none => pure ()
  return { hdr := a.toNat, csz := f 0 8 6, ofmt := f 0 15 12, elems := f 8 31 0, area := area, step := BitVec.ofNat 64 (f 0x18 63 0),
           vtgt := f 0x20 55 0, seed := BitVec.ofNat 64 (f 0x28 63 0), whistle := BitVec.ofNat 32 (f 0x38 31 0), level := level, region := region,
           ces := (List.range n).map (fun j => ceAt (paIn ls (area + 4 * ec * j))), fps := [] }

/-- The words of a program pass R78. -/
def programOk (ws : List (BitVec 64)) : Bool :=
  decide (ws.length ≤ 512) && ws.all (fun w => (decodeCe w).any CeWord.wf) && ws.any (fun w => w.getLsbD 63)

/-- Reads and checks the image at a handle. DEDUCED (notes/assumptions/57.md). -/
def readImage (ctx : BitVec 8) (src : LaunchSrc) (h : BitVec 64) (p : LaunchParam) : Check Launch := do
  if h.extractLsb' 0 6 ≠ 0 then refuse cALIGN h
  let v := leNat (← tryRead (hubRead ctx h.toNat 128 .text))
  let f := fieldOf v
  let nw := f 0 9 0
  let ps := f 0 11 10
  let planes := (List.range 6).map (fun k => BitVec.ofNat 64 (f (8 + 8 * k) 63 0))
  let side := BitVec.ofNat 64 (f 0x38 63 0)
  let mx := p.ofmt == 5 || p.ofmt == 6
  let ec := 16 * 2 ^ p.csz
  if f 0 15 12 ≠ 0 || f 0 63 25 ≠ 0 || (!mx && side ≠ 0) || nw = 0 || 512 < nw || ps = 3 || nw ≤ f 0 24 16 ||
      planes.any (fun q => q.extractLsb' 0 16 != 0) then refuse cILLEGAL h
  let b ← tryRead (hubRead ctx (h.toNat + 0x80) (8 * nw) .text)
  let ws := (List.range nw).map (fun i => BitVec.ofNat 64 (leNat ((b.drop (8 * i)).take 8)))
  if !programOk ws || 2 ^ p.csz < 2 ^ ps then refuse cILLEGAL h
  if p.ofmt ≠ 0 && (p.vtgt % 64 ≠ 0 || elemWo p.ofmt * ec % 64 ≠ 0) then refuse cILLEGAL h
  if mx && side.toNat % (ec / 32) ≠ 0 then refuse cILLEGAL h
  return { ctx := ctx, src := src, handle := h, hdr := p.hdr, ps := ps, ls := f 0 24 16, planes := planes, side := side,
           consts := (List.range 16).map (fun i => BitVec.ofNat 32 (f (0x40 + 4 * i) 31 0)), words := ws, csz := p.csz, ofmt := p.ofmt,
           elems := p.elems, area := p.area, step := p.step, vtgt := p.vtgt, seed := p.seed, whistle := p.whistle, level := p.level,
           region := p.region, ces := p.ces, todo := List.range p.ces.length }

/-- What a request's source gives: the bucket's header, or a parameter block. DEDUCED (notes/assumptions/57.md). -/
def launchParam (q : LaunchReq) : Check LaunchParam := do
  let s ← get
  let c := s.ctx q.ctx
  match q.src with
  | .bucket id =>
    match s.bucket id with
    | none => refuse cBUCKET 0
    | some b => return { hdr := b.hdr, csz := b.csz, ofmt := b.ofmt, elems := b.elems, area := b.area, step := b.step, vtgt := b.vtgt,
                         seed := b.seed, whistle := b.whistle, level := c.pbaseEff b.region, region := b.region, ces := b.ces, fps := b.fps }
  | .page => readParam q.ctx q.param (c.pbaseEff 0) 0
  | .card id =>
    let h := (s.hubCard id).getD { ctx := q.ctx, card := {}, region := 0, level := 0, deadline := 0, order := 0 }
    readParam q.ctx q.param h.level h.region

/-- The bytes of a launch's whole chunks. -/
def Launch.span (l : Launch) : Nat := 4 * l.ec * l.ces.length
/-- The area in whole chunks, which every launch holds (R358). -/
def Launch.areaRange (l : Launch) : List Range := rangeOf false .rw l.area (l.area + l.span - 1 : Nat)

/-- The ranges a launch enters (R358): its planes, and its area where no bucket's entry passes to it. -/
def Launch.ranges (l : Launch) (p : LaunchParam) : List Range :=
  (if p.fps.isEmpty then l.areaRange else []) ++
    (l.planes.filter (· ≠ 0)).flatMap (fun q => let a := (BitVec.ofNat 64 l.area + q).toNat; rangeOf false .rw a (a + l.span - 1 : Nat))

/-- An entry of no owner but launch `id` that a bucket's entry would conflict with once it is widened to whole chunks (R358). -/
def State.widenConflict (s : State) (id : Nat) (l : Launch) (p : LaunchParam) : Option Fp :=
  if p.fps.isEmpty then none
  else ({ s with fps := s.fps.filter (fun f => !p.fps.contains f.id) } : State).fpConflict l.ctx (.launch id) l.areaRange

/-- A bucket's entry in its launch's hands: mode RW, and the last one widened to the end of the last chunk (R349, R358). -/
def Launch.passFp (l : Launch) (p : LaunchParam) (id : Nat) (f : Fp) : Fp :=
  if !p.fps.contains f.id then f
  else
    let hi := l.area + l.span
    let last := decide (f.base + 64 * f.len = (l.area + 4 * l.elems + 63) / 64 * 64)
    { f with owner := .launch id, mode := .rw, len := if last then (hi - f.base) / 64 else f.len }

/-- A refused launch (Table 12.2, R356). -/
def refuseLaunchReq (q : LaunchReq) (e : Bad) : W Unit := do
  let s ← get
  set { s with skReqs := s.skReqs.filter (fun x => x.id != q.id) }
  match q.src with
  | .bucket id =>
    match s.bucket id with
    | none => pure ()
    | some b =>
      keepBucket id { b with charged := false }
      releaseBucket id
      orphanFault b.own (b.own.cause 7 0 e.1 e.2)
  | .page => postCause q.ctx 0 ((launchOwn q.ctx 0).cause 7 0 e.1 e.2)
  | .card id =>
    match s.hubCard id with
    | none => pure ()
    | some h => failHub id ((s.hubOwn h).cause 7 0 e.1 e.2) h.fps

/-- An accepted launch: its footprints are its own, a bucket's entry passes to it, and the bucket is UPDATING. -/
def acceptLaunchReq (id : Nat) (l : Launch) (p : LaunchParam) (ids : List Nat) : W Unit := do
  let l := { l with fps := p.fps ++ ids }
  modify (fun s => { s with
    skReqs := s.skReqs.filter (fun x => x.id != some id)
    fps := s.fps.map (l.passFp p id)
    launches := s.launches ++ [(id, l)] })
  match l.src with
  | .bucket b =>
    match (← get).bucket b with
    | some x => keepBucket b { x with state := 4, fps := [], launch := some id }
    | none => pure ()
  | .card c =>
    match (← get).hubCard c with
    | some h => nodeStarted h
    | none => pure ()
  | .page => pure ()
  modify (fun s => s.settleCtx l.ctx)

/-- STACK_KERNEL_LAUNCH: request `arg 0` is checked; it is refused, accepted, or waits for footprints. -/
def stackKernelLaunch : W Unit := do
  let i ← arg 0
  let s ← get
  match s.skReqs[i]? with
  | none => stall
  | some q =>
    waitFor (s.ctx q.ctx).dispatches
    let id := q.id.getD s.launchNext
    let q := { q with id := some id }
    set { s with launchNext := Nat.max s.launchNext (id + 1), skReqs := s.skReqs.set i q }
    let r ← (do let p ← launchParam q; let l ← readImage q.ctx q.src q.handle p; return (p, l) : Check (LaunchParam × Launch)).run
    match r with
    | .error e =>
      modify (fun s => s.unwait (.owner (.launch id)))
      refuseLaunchReq q e
    | .ok (p, l) =>
      match ← enterFps (.owner (.launch id)) (.launch id) q.ctx l.region (l.ranges p) true with
      | .waiting => pure ()
      | .bad e => refuseLaunchReq q e
      | .entered ids =>
        match (← get).widenConflict id l p with
        | none => acceptLaunchReq id l p ids
        | some f =>
          releaseFps ids
          refuseLaunchReq q (cRACE, word64 f.base)
def execStackKernelLaunch (s : State) : Host.Outcome State Fault Refusal := event stackKernelLaunch s

/-! ## The choice of a run (R359, R372) -/

/-- What can run next at a CE for each launch: its saved run, else its next chunk there. -/
def State.ceWaiting (s : State) (g : Nat) : List (Nat × Launch × Option (Nat × Run)) :=
  s.launches.filterMap (fun x =>
    let l := x.2
    if !(s.ctx l.ctx).dispatches || l.cancelled || l.stopped.contains g then none
    else
      match (s.ce g).slots.find? (fun y => y.2.1 == 0 && y.2.2.launch == x.1) with
      | some y => some (x.1, l, some (y.1, y.2.2))
      | none =>
        let busy := (s.ce g).run.any (fun r => r.launch == x.1)
        if !busy && l.todo.any (fun j => l.ce j == g) then some (x.1, l, none) else none)

/-- The weight of a region at a CE's arbiter, and the arbiter's number beside those of the link ports (R97). -/
def State.ceWeight (s : State) (x : BitVec 8 × Nat) : Nat := (s.ctx x.1).ceshEff x.2
def ceArbiter (g : Nat) : Nat := 16 + g
/-- The region that a launch is charged to. -/
def Launch.payer (l : Launch) : BitVec 8 × Nat := (l.ctx, l.region)

/-- By level, then by weighted round-robin on CESH, the first in launch order of each region. DESIGN CHOICE (notes/assumptions/58.md). -/
def State.ceBest (s : State) (g : Nat) (l : List (Nat × Launch × Option (Nat × Run))) : List (Nat × Launch × Option (Nat × Run)) :=
  let top := l.foldl (fun m x => Nat.max m x.2.1.level) 0
  let a := l.filter (fun x => x.2.1.level == top)
  let regions := (a.map (fun x => x.2.1.payer)).eraseDups
  (regions.filter (s.mayServe (ceArbiter g) s.ceWeight regions)).filterMap (fun r => a.find? (fun x => x.2.1.payer == r))

/-- The state at the start of a run. -/
def Launch.start (l : Launch) (id j : Nat) : Run :=
  let a := BitVec.ofNat 64 (l.area + 4 * l.ec * j)
  let ap := [a] ++ l.planes.map (a + ·) ++ [BitVec.ofNat 64 (l.vtgt + elemWo l.ofmt * l.ec * j)]
  { launch := id, chunk := j, lk0 := 2 ^ l.csz / l.spp, ap := Vector.ofFn (fun i : Fin 8 => ap.getD i.val 0) }

/-- CE_RUN_START: CE `arg 0` begins or resumes a run. -/
def ceRunStart : W Unit := do
  let g ← arg 0
  let s ← get
  let waiting := s.ceWaiting g
  let best := s.ceBest g waiting
  waitFor (decide (g < Config.stackCount * Config.channelsPerStack) && (s.ce g).run.isNone && !best.isEmpty)
  match best[(← anyBelow best.length)]? with
  | none => stall
  | some (id, l, saved) =>
    let c := (← get).ce g
    let rivals := ((waiting.filter (fun x => x.2.1.level == l.level)).map (fun x => x.2.1.payer)).eraseDups
    modify (fun s => s.serve (ceArbiter g) s.ceWeight rivals l.payer)
    match saved with
    | some (n, r) => modify (fun s => s.setCe g { c with run := some r, slots := c.slots.filter (fun y => y.1 != n) })
    | none =>
      match l.todo.find? (fun j => l.ce j == g) with
      | none => stall
      | some j => modify (fun s => (s.setCe g { c with run := some (l.start id j) }).onLaunch id (fun l => { l with todo := l.todo.erase j }))
    modify (fun s => s.settleCtx l.ctx)
def execCeRunStart (s : State) : Host.Outcome State Fault Refusal := event ceRunStart s

/-! ## The F slot (R362, R363) -/

/-- A lane of an e register. -/
def lane (e : BitVec 512) (i : Nat) : BitVec 32 := e.extractLsb' (32 * i) 32
/-- An e register from its lanes. -/
def ofLanes (l : List (BitVec 32)) : BitVec 512 := BitVec.ofNat 512 (leNat (l.flatMap (fun v => leBytes 4 v.toNat)))
def eachLane (f : Nat → BitVec 32) : BitVec 512 := ofLanes ((List.range 16).map f)

/-- Access by an F load or WST (R362): the leaf, or the first cause that matches. -/
def ceLeaf (l : Launch) (g : Nat) (va : BitVec 64) (n align : Nat) (wr : Bool) : W Leaf := do
  let a := va.toNat
  walkTurn [.base (g / 32)] l.ctx a 1
  let q ← orTrap (← xlate [.base (g / 32)] l.ctx a .read)
  let mine := (← get).fps.filter (fun f => l.fps.contains f.id)
  let inside := (List.range n).all (fun i => mine.any (fun f => decide (f.base ≤ a + i) && decide (a + i < f.base + 64 * f.len)))
  need (q.kind = 0 && !inTier (q.pa a) && ceAt (q.pa a) = g && (!wr || q.w) && inside) cPROT va
  need (a % align = 0) cALIGN va
  return q

/-- What the F slot delivers, and the increment of its ap register. -/
def fSlot (w : CeWord) (g : Nat) (l : Launch) (r : Run) : W (Option (BitVec 512) × Nat) := do
  let p := r.ap[w.fap.toFin]
  let off := (w.fimm.extractLsb' 0 7 : BitVec 7).signExtend 64
  let inc := if w.fimm.getLsbD 7 then 1 else 0
  match w.fop with
  | .fnop => return (none, 0)
  | .fld =>
    let va := p + off * 64
    let q ← ceLeaf l g va 64 64 false
    let b ← orTrap (← readLeaf (basePath l.ctx (g / 32)) q va.toNat 64)
    return (some (sectorOf b), 64 * inc)
  | .fldw =>
    let va := p + off * 32
    let q ← ceLeaf l g va 32 32 false
    let b ← orTrap (← readLeaf (basePath l.ctx (g / 32)) q va.toNat 32)
    return (some (eachLane (fun i => BitVec.ofNat 32 (exactCode 0 (decodeElem 1 (leNat ((b.drop (2 * i)).take 2)))))), 32 * inc)
  | .fldc => return (some (ofLanes l.consts), 0)

/-! ## The A slot (R365 to R367) -/

/-- fp32 results by RNE, in the .NS column. -/
def resF32 (x : Res × Flags) : BitVec 32 := BitVec.ofNat 32 (roundSpecial 0 false .rne {} x).code
/-- The fp32 code of an exact value. -/
def codeF32 (x : FP) : BitVec 32 := BitVec.ofNat 32 (exactCode 0 x)

/-- The format of an `f` code of ERND and EPACK. -/
def narrowFmt (f : Nat) : Nat := f + 1

/-- A value rounded to a narrower format, as the fp32 of the rounded number (R366). -/
def narrowF32 (fmt : Nat) (ns : Bool) (mode : Mode) (sr : SrIn) (x : FP) : BitVec 32 :=
  codeF32 (decodeElem fmt (roundTo fmt (!ns && decide (3 ≤ fmt)) true mode sr x).code)

/-- Whether ECMP's condition holds. -/
def cmpHolds (cc : Nat) (a b : FP) : Bool :=
  if a.isNan || b.isNan then cc == 1
  else
    match cc with
    | 0 => FP.eqv a b
    | 1 => !FP.eqv a b
    | 2 => FP.lt a b
    | _ => FP.le a b

/-- The maximum magnitude of EBMAX; NaN if any lane is. -/
def blockMax (xs : List FP) : FP := xs.foldl (fun m x => if m.isNan || x.isNan then .nan else FP.maxNum m x.abs) (FP.zero false)

/-- ESRB's reciprocal scale. -/
def blockScale (x : FP) (emax : Int) : FP :=
  if x.isNan || x.isInf then .nan
  else if x.isZero then FP.one
  else .fin false 1 (-(clampInt (-127) 127 (x.abs.floorLog2 - emax)))

/-- One byte of a register replaced. -/
def setByte (d : BitVec 512) (k v : Nat) : BitVec 512 :=
  BitVec.ofNat 512 (leNat (((sectorBytes d).set k (BitVec.ofNat 8 v))))

/-- EPACK (R367). -/
def packLanes (d a : BitVec 512) (md : BitVec 6) (lk1 : Nat) : BitVec 512 :=
  let q := (md.extractLsb' 2 2).toNat
  if md.getLsbD 4 then
    let x := f32 (lane a 0)
    let v := if x.isNan || x.isInf || x.isZero then 255 else (clampInt 0 254 (127 - x.abs.floorLog2)).toNat
    setByte d ((2 * lk1 + q % 2) % 64) v
  else
    let fmt := narrowFmt (md.extractLsb' 0 2).toNat
    let codes := (List.range 16).map (fun i => (roundTo fmt (decide (3 ≤ fmt)) true .rne {} (f32 (lane a i))).code)
    let n := fmtBits fmt / 8
    let at_ := if n = 2 then 32 * (q % 2) else 16 * q
    sectorOf (spliceAt (sectorBytes d) at_ (codes.flatMap (leBytes n)))

/-- The value the A slot gives AD, from the registers before the word. -/
def aSlot (w : CeWord) (l : Launch) (r : Run) : BitVec 512 :=
  let d := r.e[w.ad.toFin]
  let a := r.e[w.aa.toFin]
  let b := r.e[w.ab.toFin]
  let x := fun i => f32 (lane a i)
  let y := fun i => f32 (lane b i)
  let z := fun i => f32 (lane d i)
  let md := w.md.toNat
  let sr := fun i => ({ seed := l.seed, step := l.step, index := (lane b i).setWidth 64 } : SrIn)
  match w.aop with
  | .enop => d
  | .eadd => eachLane (fun i => (FP.add (x i) (y i)).toF32.v)
  | .esub => eachLane (fun i => (FP.sub (x i) (y i)).toF32.v)
  | .emul => eachLane (fun i => (FP.mul (x i) (y i)).toF32.v)
  | .efma => eachLane (fun i => (FP.fma (x i) (y i) (z i)).toF32.v)
  | .ediv => eachLane (fun i => resF32 (FP.div (x i) (y i)))
  | .esqrt => eachLane (fun i => resF32 (FP.sqrt (x i)))
  | .ersq => eachLane (fun i => resF32 (FP.rsqrt (x i)))
  | .emin => eachLane (fun i => codeF32 (FP.minNum (x i) (y i)))
  | .emax => eachLane (fun i => codeF32 (FP.maxNum (x i) (y i)))
  | .eabs => eachLane (fun i => codeF32 (x i).abs)
  | .eneg => eachLane (fun i => codeF32 (x i).negate)
  | .esel => eachLane (fun i => if lane d i ≠ 0 then lane a i else lane b i)
  | .ecmp => eachLane (fun i => if cmpHolds (md % 4) (x i) (y i) then 0xFFFFFFFF else 0)
  | .emov => a
  | .ebc => eachLane (fun _ => lane a (md % 16))
  | .econst => eachLane (fun _ => codeF32 (FP.ofInt w.md.toInt))
  | .esrb => eachLane (fun _ => codeF32 (blockScale (x 0) (if md % 2 = 0 then 8 else 15)))
  | .esr8 => eachLane (fun i =>
      if (z i).isNan then 0
      else narrowF32 (3 + md % 2) (w.md.getLsbD 3) (Mode.ofCode (w.md.extractLsb' 1 2)) (sr i) (FP.mul (x i) (z i)).v)
  | .ebmax => eachLane (fun _ => codeF32 (blockMax ((List.range 16).map x ++ (List.range 16).map y)))
  | .ecvt =>
    let c := md % 4
    eachLane (fun i =>
      if c = 0 then BitVec.ofNat 32 (roundTo 13 true true .rne {} (x i)).code
      else if c = 1 then BitVec.ofNat 32 (roundTo 13 true true .rtz {} (x i)).code
      else if c = 2 then (roundF32 (FP.ofInt (lane a i).toInt)).code else (roundF32 (FP.ofInt (lane a i).toNat)).code)
  | .epack => packLanes d a w.md r.lk1
  | .ernd => eachLane (fun i => narrowF32 (narrowFmt (md % 4)) (w.md.getLsbD 4) (Mode.ofCode (w.md.extractLsb' 2 2)) (sr i) (x i))
  | .eidx => eachLane (fun i => BitVec.ofNat 32 (l.ec * r.chunk + 16 * (l.spp * r.lk1 + md % 4) + i))

/-- CHK (R368): the comparison of the lane groups. DESIGN CHOICE (notes/assumptions/59.md). -/
def checkLanes (w : CeWord) (g : Nat) (l : Launch) (r : Run) : W Unit := do
  if w.chk && w.aop ≠ .enop then
    let u ← arg 0
    if u = 1 then modify (fun s => s.addScore kCorrected l.ctx (g + 2 ^ 16 * r.pc))
    else if u ≠ 0 then trap cCHECKFAIL (word64 (g + 2 ^ 16 * r.pc))

/-! ## The W slot (R364) -/

/-- Completes working-copy writes of a launch; the first uncorrectable error met, with the write that met it (R302, R364). -/
def settleWrites (id : Nat) (mine : RunWrite → Bool) : W (Option (RunWrite × Bad)) := do
  let ws := (((lookup id (← get).launches).map (·.writes)).getD []).filter mine
  let mut bad := none
  for x in ws do
    match ← settleRep (some x.q) with
    | some e => bad := bad.or (some (x, e))
    | none => pure ()
  modify (fun s => s.onLaunch id (fun l => { l with writes := l.writes.filter (fun x => !mine x) }))
  return bad

/-- Whether a working-copy write is one of a run. -/
def Run.wrote (r : Run) (g : Nat) (x : RunWrite) : Bool := x.ce == g && x.chunk == r.chunk

/-- A publication of the run's chunk, unless it has published or the launch's poisoning has reached the CE: the run's
working-copy writes are complete at package scope before it counts. -/
def cePublish (l : Launch) (g : Nat) (r : Run) : W Bool := do
  if r.pub || l.told.contains g then return r.pub
  match ← settleWrites r.launch (r.wrote g) with
  | some (_, c, d) => trap c d
  | none => pure ()
  if l.whistle ≠ 0 then
    match ← publishRound l.ctx l.whistle l.step.toNat with
    | .refused => trap cBUCKET (l.whistle.setWidth 64)
    | .discarded => pure ()
    | .counted t => modify (fun s => s.onLaunch r.launch (fun l => { l with counted := true, tells := l.tells ++ t }))
  return true

/-- Whether a pin of an older round keeps a frame of a versioned page DRAINING (Table 10.5). -/
def State.draining (s : State) (ctx : BitVec 8) (w r : Nat) : Bool :=
  s.pins.any (fun p => p.ctx == ctx && p.whistle == w && decide (p.round < r) && p.round % 2 == r % 2)

/-- The part of a working-copy write that lies in one sector, and whether it goes to a replicated page. There it takes the place
in the one sequence of updates that is next; a replica whose sector is in error is left out and the error is answered, the
others are written (R302). -/
def workingPart (l : Launch) (g : Nat) (va : BitVec 64) (b : List Byte) : W (Bool × Option Bad) := do
  let a := va.toNat
  walkTurn [.base (g / 32)] l.ctx a 1
  let q ← orTrap (← xlate [.base (g / 32)] l.ctx a .read)
  need (q.kind = 1 || q.kind = 2) cPROT va
  if q.kind = 1 then
    match (← get).barrier l.ctx q.wslot with
    | none => trap cBUCKET va
    | some x =>
      need (x.whistle && l.step.toNat = x.seq + 1) cBUCKET va
      waitFor (!(← get).draining l.ctx q.wslot l.step.toNat)
      orTrap (← wrMem (q.pa a + 0x200000 * (l.step.toNat % 2)) q.key b)
      return (false, none)
  else
    let s ← get
    let pas := (List.range 4).map (fun j => (j, q.pa a / 64 * 64 + 3 * j * stackSpan))
    let broken := pas.filter (fun p => decide (b.length < 64) && s.isUncorr p.2 && !s.repPend.any (fun u => u.pa == p.2))
    let d := sectorOf (spliceAt (List.replicate 64 0) (a % 64) b)
    let upd := (pas.filter (fun p => !broken.contains p)).map (fun p =>
      ({ rep := p.1, pa := p.2, q := s.repNext, data := d, key := q.key, lo := a % 64, n := b.length } : RepUpd))
    set { s with repPend := s.repPend ++ upd }
    return (true, broken.head?.map (fun p => (cUNCORR, word64 p.2)))

/-- Bytes at an address cut at sector boundaries. -/
def cutSectors : Nat → Nat → List Byte → List (Nat × List Byte)
  | 0, _, _ => []
  | n + 1, a, b =>
    let m := pieceLen a b.length
    (a, b.take m) :: (if m < b.length then cutSectors n (a + m) (b.drop m) else [])

/-- A working-copy write of at most 64 bytes (R364): one number of the sequence of updates for all of it. The first error that a
replica gives is answered. DEDUCED (notes/assumptions/30.md). -/
def workingCopy (l : Launch) (g : Nat) (r : Run) (va : BitVec 64) (b : List Byte) : W (Option Bad) := do
  let mut rep := false
  let mut bad := none
  for x in cutSectors 2 va.toNat b do
    let (w, e) ← workingPart l g (word64 x.1) x.2
    rep := rep || w
    bad := bad.or e
  if rep then
    let s ← get
    let x : RunWrite := { q := s.repNext, ce := g, chunk := r.chunk, pc := r.pc }
    set (({ s with repNext := s.repNext + 1 } : State).onLaunch r.launch (fun l => { l with writes := l.writes ++ [x] }))
  return bad

/-- The W slot: the increment of its ap register, PUB after it, and the error of a replica that was left out. -/
def wSlot (w : CeWord) (g : Nat) (l : Launch) (r : Run) : W (Nat × Bool × Option Bad) := do
  let p := r.ap[w.wap.toFin]
  let v := sectorBytes r.e[w.wsrc.toFin]
  let inc := if w.wimm.getLsbD 4 then 64 else 0
  match w.wop with
  | .wnop => return (0, r.pub, none)
  | .wst =>
    let va := p + (w.wimm.extractLsb' 0 4 : BitVec 4).signExtend 64 * 64
    let q ← ceLeaf l g va 64 64 true
    orTrap (← writeLeaf (basePath l.ctx (g / 32)) q va.toNat v)
    return (inc, r.pub, none)
  | .wstm =>
    if l.told.contains g then return (0, r.pub, none)
    if w.wimm.getLsbD 3 then
      let n := l.ec / 32
      return (0, r.pub, ← workingCopy l g r (BitVec.ofNat 64 l.vtgt + l.side + BitVec.ofNat 64 (n * r.chunk)) (v.take n))
    else
      need (p.extractLsb' 0 6 = 0) cALIGN p
      return (inc, r.pub, ← workingCopy l g r p v)
  | .wsig => return (0, ← cePublish l g r, none)

/-! ## A word (R360, R361) -/

/-- What becomes of a run by a word: it goes on, at a pass boundary or not, it has ended, or it stops by a fault whose
other replicas stand written. -/
inductive RunStep where
  | goes (pass : Bool)
  | ended
  | fault (e : Bad)
  deriving DecidableEq, Repr, Inhabited

/-- The three slots and the control bits: the run after the word, and what becomes of it. -/
def ceSlots (w : CeWord) (g : Nat) (l : Launch) (r : Run) : W (Run × RunStep) := do
  let (fv, fi) ← fSlot w g l r
  checkLanes w g l r
  let av := aSlot w l r
  let (wi, pub, bad) ← wSlot w g l r
  match bad with
  | some e => return (r, .fault e)
  | none => pure ()
  let e := match fv with
    | some v => r.e.set w.fdst.toFin v
    | none => r.e
  let e := if w.aop = .enop then e else e.set w.ad.toFin av
  let ap := r.ap.set w.fap.toFin (r.ap[w.fap.toFin] + BitVec.ofNat 64 fi)
  let ap := ap.set w.wap.toFin (ap[w.wap.toFin] + BitVec.ofNat 64 wi)
  let r := { r with e := e, ap := ap, pub := pub }
  if w.stop then return ({ r with pub := ← cePublish l g r }, .ended)
  else if w.lend && l.ls ≤ r.pc && 0 < r.lk0 then
    let r := { r with lk0 := r.lk0 - 1, lk1 := r.lk1 + 1, pc := if 1 < r.lk0 then l.ls else r.pc + 1 }
    return (r, .goes true)
  else return ({ r with pc := r.pc + 1 }, .goes false)

/-- A run leaves its CE. DEDUCED (notes/assumptions/60.md). -/
def dropRun (g : Nat) (ctx : BitVec 8) : W Unit := modify (fun s => (s.setCe g { s.ce g with run := none }).settleCtx ctx)

/-- Save slots of a CE (R372). -/
def ceSlotCount : Nat := 8
def Ce.freeSlot (c : Ce) : Option Nat := (List.range ceSlotCount).find? (fun n => !c.slots.any (fun x => x.1 == n))

/-- Saves a run to a free slot; false when all are held. DEDUCED (notes/assumptions/60.md). -/
def saveRun (g kind : Nat) (ctx : BitVec 8) (r : Run) : W Bool := do
  let c := (← get).ce g
  match c.freeSlot with
  | none => return false
  | some n =>
    modify (fun s => (s.setCe g { run := none, slots := c.slots ++ [(n, kind, r)] }).settleCtx ctx)
    return true

/-- Whether a pre-emption of a run is asked for (R372). -/
def State.cePreempt (s : State) (g : Nat) (l : Launch) : Bool :=
  (s.ctx l.ctx).state == .preempting || (s.ceWaiting g).any (fun x => decide (l.level < x.2.1.level))

/-- A fault at word `pc` of a run of chunk `j` (R369): the CE starts no further run of the launch, which is POISONED. -/
def faultLaunch (g id : Nat) (l : Launch) (j pc : Nat) (e : Bad) : W Unit := do
  let first := !l.poisoned
  modify (fun s => s.onLaunch id (fun l =>
    { l with stopped := l.stopped ++ [g], told := l.told ++ [g], poisoned := true,
             cause := if first then e.1 else l.cause, detail := if first then e.2 else l.detail,
             pc := if first then pc else l.pc, unit := if first then g else l.unit }))
  let pc := BitVec.ofNat 16 pc
  match l.src with
  | .bucket b =>
    match (← get).bucket b with
    | some x => poisonBucket b e.1 (if e.1 = cUNCORR then some (l.ec * j) else none) { x.ceCause g e.1 e.2 with pc := pc }
    | none => pure ()
  | .page =>
    if first then withholdRound l.ctx l.whistle l.step.toNat e.1
    postCause l.ctx 0 ((launchOwn l.ctx 0).cause 5 g e.1 e.2 pc)
  | .card _ => if first then withholdRound l.ctx l.whistle l.step.toNat e.1

/-- A fault of a CE's run, which leaves the CE. -/
def ceFault (g id : Nat) (l : Launch) (r : Run) (e : Bad) : W Unit := do
  dropRun g l.ctx
  faultLaunch g id l r.chunk r.pc e

/-- A run is saved at a pass boundary, with every write of it complete (R372). -/
def preempt (g id : Nat) (l : Launch) (r : Run) : W Unit := do
  if ((← get).ce g).freeSlot.isSome then
    match ← settleWrites id (r.wrote g) with
    | some (x, e) =>
      dropRun g l.ctx
      faultLaunch g id l x.chunk x.pc e
    | none => discard (saveRun g 0 l.ctx r)

/-- After a word that took effect. DESIGN CHOICE (notes/assumptions/24.md). -/
def afterWord (g id : Nat) (r : Run) (x : RunStep) : W Unit := do
  let s ← get
  match lookup id s.launches with
  | none => pure ()
  | some l =>
    match x with
    | .ended => dropRun g l.ctx
    | .fault e => ceFault g id l r e
    | .goes pass =>
      set (s.setCe g { s.ce g with run := some r })
      if pass && s.cePreempt g l then preempt g id l r

/-- CE_WORD: the CE at hand executes a word of its run. A run whose launch is to stop, or whose context is DUMPING, stops
before it. A word that publishes first completes the run's earlier working-copy writes; an error met there stops the run at
this word, without effect (R364, R369). -/
def ceWordBody (w : CeWord) : W Unit := do
  let s ← get
  let g := s.cur.ce
  match (s.ce g).run with
  | none => pure ()
  | some r =>
    match lookup r.launch s.launches with
    | none => dropRun g 0
    | some l =>
      if l.cancelled then
        modify (fun s => s.onLaunch r.launch (fun l => { l with stopped := l.stopped ++ [g] }))
        dropRun g l.ctx
      else if (s.ctx l.ctx).state = .dumping then
        if !(← saveRun g 2 l.ctx r) then dropRun g l.ctx
      else
        if l.poisoned && !l.told.contains g then
          if ← anyBit then modify (fun s => s.onLaunch r.launch (fun l => { l with told := l.told ++ [g] }))
        let l := (lookup r.launch (← get).launches).getD l
        match ← (if (w.wop == .wsig || w.stop) && !r.pub && !l.told.contains g then settleWrites r.launch (r.wrote g) else pure none) with
        | some (_, e) => ceFault g r.launch l r e
        | none =>
          let s1 ← get
          let l := (lookup r.launch s1.launches).getD l
          match ceSlots w g l r s1 with
          | .ok (r', x) s2 =>
            set s2
            afterWord g r.launch r' x
          | .error .stall s2 => set { s1 with freeCtr := s2.freeCtr }
          | .error (.trap c d) s2 =>
            set { s1 with freeCtr := s2.freeCtr, tlb := s2.tlb }
            ceFault g r.launch l r (c, d)
def execCeWord (w : CeWord) (s : State) : Host.Outcome State Fault Refusal := event (ceWordBody w) s

/-! ## The end of a launch (R371) -/

/-- The writes that a launch has made complete; an uncorrectable error among them poisons it and stops its run (R302, R369,
R371). -/
def settleLaunch (id : Nat) : W Unit := do
  match ← settleWrites id (fun _ => true), lookup id (← get).launches with
  | some (x, e), some l =>
    if ((← get).ce x.ce).run.any (fun r => r.launch == id && r.chunk == x.chunk) then dropRun x.ce l.ctx
    faultLaunch x.ce id l x.chunk x.pc e
  | _, _ => pure ()

/-- The launches that a Whistle has counted for a round (R386). -/
def State.countedFor (s : State) (ctx : BitVec 8) (num r : Nat) : List Nat :=
  (s.launches.filter (fun l => l.2.ctx == ctx && l.2.counted && l.2.whistle.toNat == num && l.2.step.toNat == r)).map (·.1)

/-- A launch has left: an arrival that it was to tell is sent when it was the last of those counted for the round, and else is
the next one's to tell (R386). -/
def passTells (l : Launch) : W Unit := do
  for t in l.tells do
    match (← get).countedFor l.ctx t.2.1 t.2.2 with
    | [] => tellMembers l.ctx t.1 t.2.1 t.2.2
    | id :: _ => modify (fun s => s.onLaunch id (fun l => { l with tells := l.tells ++ [t] }))

/-- WHISTLE_FLIP: barrier binding `arg 0` is FLIPPING and no pin of round c − 1 is held (R384, R385). It is the
release of what the launches counted for the round have written (R386). -/
def whistleFlip : W Unit := do
  let n ← arg 0
  let s ← get
  match s.barriers.find? (fun b => b.id == n) with
  | none => stall
  | some b =>
    waitFor (b.whistle && b.state == 5 && !s.pins.any (fun p => p.ctx == b.ctx && p.whistle == b.num && p.round + 1 == b.seq))
    for id in s.countedFor b.ctx b.num (b.seq + 1) do settleLaunch id
    keepBarrier b.openNext.settle
def execWhistleFlip (s : State) : Host.Outcome State Fault Refusal := event whistleFlip s

/-- Whether a card's node waits for the end of its attempt. -/
def State.nodeGoing (s : State) (h : HubCard) : Bool := (h.node.bind s.nodeOf).any (fun n => n.state == .cancelPending)

/-- The footprints of an ended launch are released (R318); a cancelled node's are left to it, which reports them first (R410). -/
def releaseLaunch (l : Launch) : W Unit := do
  match l.src with
  | .card c =>
    let s ← get
    if (s.hubCard c).any s.nodeGoing then
      modify (fun s => { (s.onHub c (fun h => { h with fps := h.fps ++ l.fps })) with
        fps := s.fps.map (fun (f : Fp) => if l.fps.contains f.id then { f with owner := .hub c } else f) })
    else releaseFps l.fps
  | _ => releaseFps l.fps

/-- STACK_KERNEL_LAUNCH_END: launch `arg 0`. -/
def stackKernelLaunchEnd : W Unit := do
  let id ← arg 0
  let s ← get
  match lookup id s.launches with
  | none => stall
  | some l =>
    let here := fun (r : Run) => r.launch == id
    let running := s.ces.any (fun c => c.2.run.any here || (!l.cancelled && c.2.slots.any (fun x => here x.2.2)))
    waitFor (!running && (l.cancelled || l.todo.all (fun j => l.stopped.contains (l.ce j))) && (s.ctx l.ctx).serves)
    settleLaunch id
    let s ← get
    let l := (lookup id s.launches).getD l
    releaseLaunch l
    let s ← get
    modify (fun s => { s with launches := erase id s.launches, ces := s.ces.map (fun c => (c.1, { c.2 with slots := c.2.slots.filter (fun x => !here x.2.2) })) })
    match l.src with
    | .bucket b =>
      match s.bucket b with
      | none => pure ()
      | some x =>
        if x.state = 4 then
          keepBucket b { x with state := 5, charged := false, launch := none }
          releaseBucket b
        else
          keepBucket b { x with launch := none }
          settlePoison b
    | .page => pure ()
    | .card c =>
      match s.hubCard c with
      | none => pure ()
      | some h =>
        if l.poisoned && (!l.cancelled || s.nodeGoing h) then
          failHub c ((s.hubOwn h).cause 5 l.unit l.cause l.detail (BitVec.ofNat 16 l.pc)) h.fps
        else if s.nodeGoing h then pure ()
        else finishHub c
    passTells l
    modify (fun s => s.settleCtx l.ctx)
def execStackKernelLaunchEnd (s : State) : Host.Outcome State Fault Refusal := event stackKernelLaunchEnd s

/-! ## Save blocks (Table 13.5) -/

/-- The 64 KiB block of a slot of CE `g`. -/
def Launch.block (l : Launch) (g n kind : Nat) (r : Run) : List Byte :=
  let queued := (l.todo.filter (fun j => l.ce j == g)).length
  let head :=
    leBytes 1 kind ++ leBytes 1 l.ctx.toNat ++ leBytes 2 r.pc ++ leBytes 2 r.lk0 ++ leBytes 2 r.lk1 ++ leBytes 4 r.chunk ++ leBytes 4 queued ++
    leBytes 1 (r.pub.toNat + 2 * l.poisoned.toNat) ++ leBytes 1 n ++ leBytes 2 g ++ leBytes 4 0 ++ leBytes 8 l.hdr ++ leBytes 8 l.handle.toNat ++
    leBytes 8 l.step.toNat ++ leBytes 8 l.seed.toNat ++ leBytes 8 l.vtgt ++
    leBytes 8 (l.ofmt + 2 ^ 4 * l.csz + 2 ^ 8 * l.ps + 2 ^ 32 * l.whistle.toNat) ++ leBytes 8 l.side.toNat
  padTo 0x400 (padTo 0x80 head ++ r.ap.toList.flatMap (fun v => leBytes 8 v.toNat) ++ l.consts.flatMap (fun v => leBytes 4 v.toNat)) ++
  padTo 0xC00 (r.e.toList.flatMap sectorBytes) ++ padTo 0xF000 (l.words.flatMap (fun v => leBytes 8 v.toNat))

end Sys2Proof.Machine
end

