-- ==== Sys2Proof/Machine/Walk.lean ====
section
/-!
DEFINITION. Walks (R421 to R436): requests and their submission by WALK and WALKJ, the slots of a Caddie, the rules, reads
and forwards, and the ways a walk ends.
-/
namespace Sys2Proof.Machine

/-! ## Requests (R424, R425) -/

/-- A request as read. -/
structure WalkRequest where
  rimg : Int
  reso : Int
  limit : Nat
  pol : Nat
  kptr : Bool
  start : Nat
  kw : Nat
  semn : BitVec 4
  semen : Bool
  key0 : BitVec 64
  key1 : BitVec 64
  bad : Bool
  deriving DecidableEq, Repr, Inhabited

def parseRequest (v : Nat) : WalkRequest :=
  let f := fieldOf v
  let kptr := f 0 62 62 == 1
  let kw := f 8 58 56
  let key1 := BitVec.ofNat 64 (f 0x18 63 0)
  { rimg := (BitVec.ofNat 24 (f 0 23 0)).toInt, reso := (BitVec.ofNat 24 (f 0 47 24)).toInt, limit := if f 0 59 48 = 0 then 4096 else f 0 59 48,
    pol := f 0 61 60, kptr := kptr, start := f 8 55 0, kw := kw, semn := BitVec.ofNat 4 (f 8 62 59), semen := f 8 63 63 == 1,
    key0 := BitVec.ofNat 64 (f 0x10 63 0), key1 := key1,
    bad := f 0 63 63 != 0 || f 0 61 60 == 3 || (!kptr && decide (1 < kw)) || ((kptr || kw != 1) && key1 != 0) }

/-- The key words that stand in the request itself. -/
def WalkRequest.inline (q : WalkRequest) : List (BitVec 64) := if q.kw = 0 then [q.key0] else [q.key0, q.key1]

/-- Walks the hub holds (R421), and slots of a Caddie (R20). -/
def walkLimit : Nat := 65536
def caddieSlots : Nat := 64

/-- The stack whose Caddie takes a walk that no stack in particular holds: that of the die, or the first one in service
where that one is not (R11). DESIGN CHOICE (notes/assumptions/85.md). -/
def State.dieStack (s : State) (j : Nat) : Nat :=
  if s.inService (3 * j) then 3 * j else ((List.range 12).find? s.inService).getD (3 * j)

/-- The stack of a walk's start (R435), as the agent of path `p` on die `j` sees it. DESIGN CHOICE (notes/assumptions/85.md). -/
def startStack (p : Path) (j start : Nat) : W Nat := do
  let r ← xlate p.ids p.ctx start .read
  let die := (← get).dieStack j
  match r with
  | .error _ => return die
  | .ok l =>
    let pa := l.pa start
    return if l.kind = 2 || inTier pa || (ctxFrameOf pa).isSome then die else pa / stackSpan

/-- Walks not ended; those of a context that is being dumped have stopped (R427). -/
def State.liveWalks (s : State) : Nat := (s.walks.filter (fun w => (s.ctx w.2.ctx).serves)).length

/-- Enqueues a walk. -/
def submitWalk (w : Walk) : W Unit :=
  modify (fun s => ({ s with walks := s.walks ++ [(s.walkNext, w)], walkNext := s.walkNext + 1 } : State).settleCtx w.ctx)

/-- The owner of a walk's record (R490). -/
def Walk.own (w : Walk) : Own := { ctx := w.ctx, region := w.region, node := w.node, gen := w.gen, attempt := w.attempt }

/-- The walk of a request at `a` with its key, for an owner. -/
def WalkRequest.walk (q : WalkRequest) (o : Own) (a : BitVec 64) (key : List (BitVec 64)) (stack : Nat) : Walk :=
  let reqb := a.toNat / 64 * 64
  { ctx := o.ctx, region := o.region, node := o.node, gen := o.gen, attempt := o.attempt, handle := (BitVec.ofInt 64 (reqb + 64 * q.rimg)).toNat, resAddr := (BitVec.ofInt 64 (reqb + 64 * q.reso)).toNat,
    limit := q.limit, pol := q.pol, start := word64 q.start, kw := q.kw, semn := q.semn, semen := q.semen, key := key, stack := stack }

/-! ## WALK (R435) -/

/-- S reads `n` bytes within a sector under a footprint that it gives up at once. -/
def sReadNow (va n : Nat) : W (List Byte) := do
  let l ← orTrap (← xlateWord .S va .read)
  let c := (← get).cur.core
  waitFor (!(← getC).blocked [{ sp := false, lo := va, len := n, mode := .r }] && !(← get).landing c .S false va n)
  let ids ← if l.free || (← get).claimed c va n .r then pure [] else orTrap (← enterWord [sectorRange va .r] l.cp)
  let b ← readLeaf ((← get).pathOf c .S) l va n
  releaseFps ids
  orTrap b

/-- WALK. -/
def walkBody (d a : BitVec 6) : W Unit := do
  let va ← rdClean a
  need (va.extractLsb' 0 5 = 0) cALIGN va
  let q := parseRequest (leNat (← sReadNow va.toNat 32))
  if q.bad then trap cILLEGAL va
  let mut key := q.inline
  if q.kptr then
    need (q.key0.extractLsb' 0 3 = 0) cALIGN q.key0
    key := []
    for i in List.range (q.kw + 1) do
      let b ← sReadNow (q.key0.toNat + 8 * i) 8
      key := key ++ [word64 (leNat b)]
  waitFor (decide ((← get).liveWalks < walkLimit))
  drainCore
  let s ← get
  let c := s.cur.core
  let k := s.core c
  let st ← startStack (s.pathOf c .S) (c / 24) q.start
  let w := q.walk k.own va key st
  submitWalk { w with gang := k.gang.map (fun g => (g, k.gangRank.toNat)) }
  wrS d { v := word64 st } interlocked
def execWalk (d a : BitVec 6) (s : State) : Host.Outcome State Fault Refusal := plain (walkBody d a) s

/-! ## WALKJ (R436) -/

/-- The owner of the work that a card is. -/
def State.execOwn (s : State) (e : Exec) : Own :=
  match e.ref with
  | .x c _ => (s.core c).own
  | .hub id => ((s.hubCard id).map s.hubOwn).getD { ctx := e.path.ctx, region := 0 }
  | .remote _ _ => { ctx := e.path.ctx, region := 0 }

/-- Who holds the footprints that a card's executor enters. -/
def CardRef.owner : CardRef → Owner
  | .x c _t => .core c
  | .hub id => .hub id
  | .remote _ n => .remote n

/-- A card's executor reads bytes within a sector as a WALK does, under a footprint that it gives up at once: none while
that footprint waits for room. DEDUCED (notes/assumptions/63.md). -/
def cardRead (e : Exec) (va n : Nat) : W (Option (Except Bad (List Byte))) := do
  walkTurn e.path.ids e.path.ctx va n
  match ← xlate e.path.ids e.path.ctx va .read with
  | .error x => return some (.error x)
  | .ok l =>
    let o := e.ref.owner
    let region := ((← get).execOwn e).region
    match ← (if l.free then pure (Entry.entered []) else enterFps (.owner o) o e.path.ctx region [sectorRange va .r] l.cp) with
    | .waiting => return none
    | .bad x => return some (.error x)
    | .entered ids =>
      let b ← readMem e.path va n
      releaseFps ids
      return some b

/-- The words of a key in memory, each read by itself. -/
def cardKey (e : Exec) : Nat → Nat → W (Option (Except Bad (List (BitVec 64))))
  | 0, _ => return some (.ok [])
  | n + 1, a => do
    match ← cardRead e a 8 with
    | none => return none
    | some (.error x) => return some (.error x)
    | some (.ok b) => return (← cardKey e n (a + 8)).map (·.map (word64 (leNat b) :: ·))

/-- The key of a card's request. -/
def WalkRequest.cardKey (q : WalkRequest) (e : Exec) : W (Option (Except Bad (List (BitVec 64)))) := do
  if !q.kptr then return some (.ok q.inline)
  else if q.key0.extractLsb' 0 3 ≠ 0 then return some (.error (cALIGN, q.key0))
  else Machine.cardKey e (q.kw + 1) q.key0.toNat

/-- The card's executor has started (R402). -/
def cardStarted (e : Exec) : W Unit := do
  match e.ref with
  | .hub id =>
    match (← get).hubCard id with
    | some h => nodeStarted h
    | none => pure ()
  | _ => pure ()

/-- WALKJ. -/
def walkjBody (e : Exec) : W Unit := do
  let s ← get
  let src := e.card.src
  waitFor (!s.walks.any (fun w => w.2.card == some e.ref) && decide (s.liveWalks < walkLimit))
  match ← cardRead e src.toNat 32 with
  | none => pure ()
  | some (.error x) => endMove e (some x)
  | some (.ok b) =>
    let q := parseRequest (leNat b)
    if q.bad || q.semen then endMove e (some (cILLEGAL, src))
    else
      match ← q.cardKey e with
      | none => pure ()
      | some (.error x) => endMove e (some x)
      | some (.ok key) =>
        let die := match e.ref with
          | .x c _ => c / 24
          | _ => 0
        let st ← startStack e.path die q.start
        let w := q.walk (s.execOwn e) src key st
        cardStarted e
        submitWalk { w with card := some e.ref }
def execWalkj (s : State) : Host.Outcome State Fault Refusal := event (cardEvent opWALKJ walkjBody) s

/-! ## Endings (R432, R433) -/

/-- Final states, with their codes. -/
inductive WalkEnd where
  | found | miss | limit | faulted
  deriving DecidableEq, Repr, Inhabited

def WalkEnd.code : WalkEnd → Nat
  | .found => 3 | .miss => 4 | .limit => 5 | .faulted => 6

/-- The first 32 bytes of the result record (Table 16.3). -/
def Walk.result (w : Walk) (e : WalkEnd) (lim flt : Bool) (cause : BitVec 8) (val : BitVec 64) (rlen : Nat) : List Byte :=
  leBytes 8 (e.code + 2 ^ 4 * lim.toNat + 2 ^ 5 * flt.toNat + 2 ^ 8 * cause.toNat + 2 ^ 16 * w.steps + 2 ^ 32 * rlen + 2 ^ 48 * w.stack) ++
  leBytes 8 w.cur.toNat ++ leBytes 8 val.toNat ++ leBytes 8 (w.fwd % 65536)

/-- REC as bytes. -/
def Walk.recBytes (w : Walk) : List Byte := w.recw.flatMap (fun v => leBytes 8 v.toNat)

/-- Why a Caddie cannot write a record at all: a page of the second tier (R299). -/
def recordTier (w : Walk) (n : Nat) : W (Option Bad) := do
  for a in [w.resAddr, w.resAddr + n - 1] do
    match ← xlate [.base w.stack] w.ctx a .write with
    | .ok l => if inTier (l.pa a) then return some (cPROT, word64 w.resAddr)
    | .error _ => pure ()
  return none

/-- The result record is being written: each byte is the old one or the new one (R426). DEDUCED (notes/assumptions/63.md). -/
def beginEnd (id : Nat) (w : Walk) (bs : List Byte) (fault : Option Bad) : W Unit := do
  let p := basePath w.ctx w.stack
  modify (fun s => { s with walks := s.walks.map (fun x => if x.1 = id then (id, { w with ending := some (bs, fault) }) else x) })
  match ← recordTier w bs.length, ← probeRun p (bs.length / 64 + 2) w.resAddr bs.length, ← readMem p w.resAddr bs.length with
  | none, .ok _, .ok old =>
    let c ← freshN bs.length
    discard (writeMem p w.resAddr ((List.range bs.length).map (fun i => if Config.freeBit (c + i) then bs.getD i 0 else old.getD i 0)))
  | _, _, _ => pure ()

/-- The end of a walk (R433): its record stands, its footprint is released, and it is told of. -/
def finishWalk (id : Nat) (w : Walk) (bs : List Byte) (fault : Option Bad) : W Unit := do
  match ← recordTier w bs.length with
  | some e => postCause w.ctx w.region (w.own.cause 6 w.stack e.1 e.2)
  | none =>
    noteRecs w.ctx [(w.resAddr, 0x120)]
    ownWrite (basePath w.ctx w.stack) w.own 6 w.stack w.resAddr bs
  releaseFps w.fps
  modify (fun s => ({ s with walks := erase id s.walks } : State).settleCtx w.ctx)
  if w.semen then
    match w.gang with
    | some (g, r) => modify (fun s => s.signalRank g r w.semn 1)
    | none => pure ()
  match w.card with
  | some r =>
    match fault with
    | some x => modify (fun s => s.faultCard r x)
    | none => modify (fun s => s.setMoved r)
  | none => pure ()

/-- A walk comes to its end: with `arg 1` nonzero its record is begun, and a later turn ends it. `hard` marks an ending
that is FAULTED under every policy. -/
def endWalk (id : Nat) (w : Walk) (e : WalkEnd) (lim flt : Bool) (cause : BitVec 8) (val : BitVec 64) (rlen : Nat) (hard : Bool) : W Unit := do
  let bs := w.result e lim flt cause val rlen ++ w.recBytes.take rlen
  let fault := if e = .faulted && (hard || w.pol = 0) then some (cause, val) else none
  if (← arg 1) = 0 then finishWalk id w bs fault else beginEnd id w bs fault

/-- An ending that is FAULTED under every policy. DESIGN CHOICE (notes/assumptions/61.md). -/
def failWalk (id : Nat) (w : Walk) (cause : BitVec 8) (val : BitVec 64) : W Unit := endWalk id w .faulted false false cause val 0 true

/-- ILLEGAL or WATCHDOG: the spec gives no DETAIL for VAL. DESIGN CHOICE (notes/assumptions/61.md). -/
def breakWalk (id : Nat) (w : Walk) (cause : BitVec 8) : W Unit := do failWalk id w cause (← anyWord)

/-- An access fault, by policy (Table 16.6). -/
def accessFault (id : Nat) (w : Walk) (x : Bad) : W Unit :=
  let e := if w.pol = 1 then WalkEnd.miss else .faulted
  endWalk id w e false true x.1 x.2 (if w.pol = 2 then w.lastlen else 0) false

/-- The step limit, by policy. -/
def limitWalk (id : Nat) (w : Walk) : W Unit :=
  let e := if w.pol = 1 then WalkEnd.miss else .limit
  endWalk id w e true false 0 0 (if w.pol = 2 then w.lastlen else 0) false

/-! ## The image (R422, R423) -/

/-- The words of a rule program pass R80. -/
def rulesOk (ws : List Word32) : Bool :=
  ws.all (fun w => match decodeRule w with
    | some (.jmp t) => decide (t.toNat < ws.length)
    | some (.jeq t) => decide (t.toNat < ws.length)
    | some (.jne t) => decide (t.toNat < ws.length)
    | some (.jlt t) => decide (t.toNat < ws.length)
    | some _ => true
    | none => false)

/-- Bytes of an image: program text in normal pages. -/
def imageRead (p : Path) (a n : Nat) : W (Except Bad (List Byte)) := do
  walkTurn p.ids p.ctx a n
  for x in [a, a + n - 1] do
    match ← xlate p.ids p.ctx x .text with
    | .error e => return .error e
    | .ok l => if l.kind ≠ 0 then return .error (cPROT, word64 x)
  readMem p a n .text

/-- Loads the image of a walk: domain, rules and, at the first start, registers. -/
def loadRules (w : Walk) : Check Walk := do
  let p := basePath w.ctx w.stack
  let v := leNat (← tryRead (imageRead p w.handle 128))
  let f := fieldOf v
  let nr := f 0 8 0
  let dbase := f 8 55 0
  let dlen := f 0x10 31 0
  if f 0 63 9 ≠ 0 || f 8 63 56 ≠ 0 || f 0x10 63 32 ≠ 0 || v / 2 ^ (8 * 0x18) % 2 ^ (8 * 0x28) ≠ 0 || nr = 0 || 256 < nr || dlen = 0 || dbase % 64 ≠ 0 ||
      2 ^ 56 < dbase + 64 * dlen then refuse cILLEGAL 0
  let b ← tryRead (imageRead p (w.handle + 0x80) (4 * nr))
  let ws : List Word32 := (List.range nr).map (fun i => BitVec.ofNat 32 (leNat ((b.drop (4 * i)).take 4)))
  if !rulesOk ws then refuse cILLEGAL 0
  let w := { w with dbase := dbase, dlen := dlen, rules := ws }
  if w.begun then return w
  else return { w with cur := w.start, g := Vector.ofFn (fun i : Fin 8 => word64 (f (0x40 + 8 * i.val) 63 0)), begun := true }

/-- A load that failed. DEDUCED (notes/assumptions/62.md). -/
def failLoad (id : Nat) (w : Walk) (e : Bad) : W Unit := if e.1 = cILLEGAL then breakWalk id w cILLEGAL else failWalk id w e.1 e.2

/-! ## Slots (R421, R427) -/

def State.onWalk (s : State) (id : Nat) (w : Walk) : State := { s with walks := s.walks.map (fun x => if x.1 = id then (id, w) else x) }

/-- Whether a queued walk waits for room for its domain's footprint. -/
def State.walkWaits (s : State) (id : Nat) : Bool := s.fpWait.any (fun w => w.who == .owner (.walk id))

/-- The slot that queued walk `id` may take now: every walk that arrived earlier has one or waits for room. A walk whose context
is being dumped keeps its slot (R93). -/
def State.slotFor (s : State) (id : Nat) (w : Walk) : Option Nat :=
  let all := s.walks.filter (fun x => x.2.stack == w.stack)
  let here := all.filter (fun x => (s.ctx x.2.ctx).serves)
  let before := (here.takeWhile (fun x => x.1 != id)).filter (fun x => x.2.st == .queued && !s.walkWaits x.1)
  let used := all.filter (fun x => x.2.st == .walking)
  let waits := (here.filter (fun x => x.2.st == .queued && x.1 != id && s.walkWaits x.1)).length
  if before.isEmpty && used.length + waits < caddieSlots then (List.range caddieSlots).find? (fun n => !used.any (fun x => x.2.slot == n))
  else none

/-- Whether a walk goes on: its context serves, or its record is being written. -/
def State.goesOn (s : State) (w : Walk) : Bool := (s.ctx w.ctx).serves || w.ending.isSome

/-- A queued walk that may take a slot. -/
def takeWalk (begun : Bool) (act : Nat → Walk → Nat → W Unit) : W Unit := do
  let id ← arg 0
  let s ← get
  match lookup id s.walks with
  | none => stall
  | some w =>
    waitFor (w.st == .queued && w.begun == begun && s.goesOn w)
    match w.ending, s.slotFor id w with
    | some (bs, f), _ => finishWalk id w bs f
    | none, none => stall
    | none, some n => act id w n

/-- WALK_SLOT_START: walk `arg 0` starts. DEDUCED (notes/assumptions/62.md). -/
def walkSlotStart : W Unit :=
  takeWalk false (fun id w n => do
    let w := { w with cur := w.start }
    let unwait : W Unit := modify (fun s => s.unwait (.owner (.walk id)))
    match ← (loadRules w).run with
    | .error e => unwait; failLoad id w e
    | .ok v =>
      match ← enterFps (.owner (.walk id)) (.walk id) w.ctx w.region (rangeOf false .r v.dbase (v.dbase + 64 * v.dlen - 1 : Nat)) true with
      | .waiting => pure ()
      | .bad e => failWalk id w e.1 e.2
      | .entered ids => modify (fun s => (s.onWalk id { v with st := .walking, slot := n, fps := ids }).settleCtx w.ctx))
def execWalkSlotStart (s : State) : Host.Outcome State Fault Refusal := event walkSlotStart s

/-- WALK_FORWARD_ARRIVE: forwarded walk `arg 0` arrives last in the queue of its Caddie. -/
def walkForwardArrive : W Unit := do
  let id ← arg 0
  let s ← get
  match lookup id s.walks with
  | none => stall
  | some w =>
    waitFor (w.st == .forwarded && (s.ctx w.ctx).serves)
    set { s with walks := erase id s.walks ++ [(id, { w with st := .queued })] }
def execWalkForwardArrive (s : State) : Host.Outcome State Fault Refusal := event walkForwardArrive s

/-! ## Reads (R431) -/

/-- Moves on past a rule; past the program the walk ends. -/
def goOn (id : Nat) (w : Walk) : W Unit :=
  if w.rules.length ≤ w.pc + 1 then breakWalk id w cILLEGAL
  else modify (fun s => s.onWalk id { w with pc := w.pc + 1 })

/-- The checks of a read: its leaf, or the access fault. -/
def walkLeaf (w : Walk) (a n : Nat) : W (Except Bad Leaf) := do
  let bad := fun (c : BitVec 8) => (Except.error (c, word64 a) : Except Bad Leaf)
  if a % 8 ≠ 0 || a / 2048 ≠ (a + n - 1) / 2048 then return bad cALIGN
  if a < w.dbase || w.dbase + 64 * w.dlen < a + n then return bad cPROT
  walkTurn [.base w.stack] w.ctx a n
  match ← xlate [.base w.stack] w.ctx a .read with
  | .error e => return .error e
  | .ok l => return if inTier (l.pa a) || (ctxFrameOf (l.pa a)).isSome then bad cPROT else if l.kind = 4 then bad cUNCORR else .ok l

/-- RD of `n` words at `a`: forwarded to the stack that holds them, or made here. -/
def walkRead (id : Nat) (w : Walk) (n : Nat) (a : BitVec 64) : W Unit := do
  match ← walkLeaf w a.toNat (8 * n) with
  | .error e => accessFault id w (e.1, a)
  | .ok l =>
    let there := l.pa a.toNat / stackSpan
    if l.kind ≠ 2 && there ≠ w.stack then
      modify (fun s => (s.onWalk id { w with st := .forwarded, stack := there, fwd := w.fwd + 1, pendRd := some (n, a) }).settleCtx w.ctx)
    else
      match ← readMem (basePath w.ctx w.stack) a.toNat (8 * n) with
      | .error e => accessFault id w (e.1, a)
      | .ok b =>
        let ws := (List.range n).map (fun i => word64 (leNat ((b.drop (8 * i)).take 8)))
        goOn id { w with recw := ws ++ w.recw.drop n, lastlen := 8 * n, pendRd := none }

/-- WALK_RESUME: forwarded walk `arg 0` takes a slot, its image is loaded again, and the read is made. -/
def walkResume : W Unit :=
  takeWalk true (fun id w n => do
    match ← (loadRules w).run with
    | .error e => failLoad id w e
    | .ok v =>
      let v := { v with st := .walking, slot := n }
      modify (fun s => (s.onWalk id v).settleCtx w.ctx)
      match v.pendRd with
      | some (k, a) => walkRead id v k a
      | none => pure ())
def execWalkResume (s : State) : Host.Outcome State Fault Refusal := event walkResume s

/-! ## Rules (R428 to R430) -/

/-- The walk in the slot at hand. -/
def State.walkHere (s : State) : Option (Nat × Walk) :=
  s.walks.find? (fun x => x.2.st == .walking && x.2.stack == s.cur.stack && x.2.slot == s.cur.slot)

/-- Rules between two NEXTs. -/
def ruleLimit : Nat := 256

/-- A rule: NRUN rises first, and a rule too many ends the walk. -/
def rule (act : Nat → Walk → W Unit) (s : State) : Host.Outcome State Fault Refusal :=
  event (do
    match (← get).walkHere with
    | none => stall
    | some (id, w) =>
      waitFor ((← get).goesOn w)
      match w.ending with
      | some (bs, f) => finishWalk id w bs f
      | none => if ruleLimit ≤ w.nrun then breakWalk id w cWATCHDOG else act id { w with nrun := w.nrun + 1 }) s

/-- A rule that changes the walk and goes on. -/
def stepRule (f : Walk → Walk) : State → Host.Outcome State Fault Refusal := rule (fun id w => goOn id (f w))

def Walk.word (w : Walk) (i : Nat) : BitVec 64 := w.recw.getD i 0
def Walk.reg (w : Walk) (n : BitVec 3) : BitVec 64 := w.g[n.toFin]
def Walk.setReg (w : Walk) (n : BitVec 3) (v : BitVec 64) : Walk := { w with g := w.g.set n.toFin v }

/-- compare of R430. -/
def compareWords : List (BitVec 64 × BitVec 64) → Cc
  | [] => .eq
  | (x, y) :: r => if x = y then compareWords r else if x < y then .lt else .gt

/-- RD: field n holds the count less one. -/
def execRd (off : BitVec 17) (n : BitVec 5) (s : State) : Host.Outcome State Fault Refusal :=
  rule (fun id w => walkRead id w (n.toNat + 1) (w.cur + off.signExtend 64)) s

/-- CMPK. -/
def execCmpk (f : BitVec 5) (s : State) : Host.Outcome State Fault Refusal :=
  rule (fun id w =>
    if 31 < f.toNat + w.kw then breakWalk id w cILLEGAL
    else goOn id { w with cc := compareWords ((List.range (w.kw + 1)).map (fun i => (w.key.getD i 0, w.word (f.toNat + i)))) }) s

/-- CMPG. -/
def execCmpg (g : BitVec 3) (f : BitVec 5) (s : State) : Host.Outcome State Fault Refusal :=
  stepRule (fun w => { w with cc := compareWords [(w.word f.toNat, w.reg g)] }) s

/-- GETF: field l holds the width less one. -/
def execGetf (g : BitVec 3) (l sh : BitVec 6) (f : BitVec 5) (s : State) : Host.Outcome State Fault Refusal :=
  stepRule (fun w => w.setReg g (word64 ((w.word f.toNat >>> sh.toNat).toNat % 2 ^ (l.toNat + 1)))) s

/-- NEXT to a cursor. -/
def nextTo (id : Nat) (w : Walk) (p : BitVec 64) : W Unit :=
  if w.steps = w.limit then limitWalk id w
  else if p.extractLsb' 56 8 ≠ 0 then accessFault id w (cXLATE, p)
  else goOn id { w with cur := p, steps := w.steps + 1, nrun := 0 }

/-- NEXT. -/
def execNext (f : BitVec 5) (s : State) : Host.Outcome State Fault Refusal := rule (fun id w => nextTo id w (w.word f.toNat)) s
/-- NEXT through a register. -/
def execNextG (g : BitVec 3) (s : State) : Host.Outcome State Fault Refusal :=
  rule (fun id w => nextTo id w (w.word ((w.reg g).toNat % 32))) s

/-- HASH. -/
def execHash (g : BitVec 3) (stride : BitVec 22) (s : State) : Host.Outcome State Fault Refusal :=
  rule (fun id w =>
    let n := w.reg g
    if n = 0 then breakWalk id w cILLEGAL
    else
      let fold := (List.range (w.kw + 1)).foldl (fun x i => x ^^^ w.key.getD i 0) 0
      let h : BitVec 64 := (fold * 0x9E3779B97F4A7C15) >>> 32
      goOn id { w with cur := w.cur + (h % n) * stride.setWidth 64 }) s

/-- ADDG. -/
def execAddg (g : BitVec 3) (imm : BitVec 22) (s : State) : Host.Outcome State Fault Refusal :=
  stepRule (fun w => w.setReg g (w.reg g + imm.signExtend 64)) s
/-- ANDG. -/
def execAndg (g : BitVec 3) (imm : BitVec 22) (s : State) : Host.Outcome State Fault Refusal :=
  stepRule (fun w => w.setReg g (w.reg g &&& imm.signExtend 64)) s

/-- A jump, taken when `c`. -/
def jumpRule (c : Walk → Bool) (t : BitVec 8) : State → Host.Outcome State Fault Refusal :=
  rule (fun id w => if c w then modify (fun s => s.onWalk id { w with pc := t.toNat }) else goOn id w)

/-- JMP. -/
def execJmp (t : BitVec 8) (s : State) : Host.Outcome State Fault Refusal := jumpRule (fun _ => true) t s
/-- JEQ. -/
def execJeq (t : BitVec 8) (s : State) : Host.Outcome State Fault Refusal := jumpRule (fun w => w.cc == .eq) t s
/-- JNE. -/
def execJne (t : BitVec 8) (s : State) : Host.Outcome State Fault Refusal := jumpRule (fun w => w.cc != .eq) t s
/-- JLT. -/
def execJlt (t : BitVec 8) (s : State) : Host.Outcome State Fault Refusal := jumpRule (fun w => w.cc == .lt) t s

/-- EMIT: field n holds the count less one. -/
def execEmit (n : BitVec 5) (s : State) : Host.Outcome State Fault Refusal :=
  rule (fun id w => endWalk id w .found false false 0 0 (8 * (n.toNat + 1)) false) s
/-- EMITG. -/
def execEmitg (g : BitVec 3) (norec : BitVec 1) (n : BitVec 5) (s : State) : Host.Outcome State Fault Refusal :=
  rule (fun id w => endWalk id w .found false false 0 (w.reg g) (if norec = 1 then 0 else 8 * (n.toNat + 1)) false) s
/-- MISS. -/
def execMiss (s : State) : Host.Outcome State Fault Refusal := rule (fun id w => endWalk id w .miss false false 0 0 0 false) s
/-- FAIL. -/
def execFail (code : BitVec 22) (s : State) : Host.Outcome State Fault Refusal :=
  rule (fun id w => failWalk id w cTRAPI (code.setWidth 64)) s

/-! ## The two limits as events -/

/-- The walk of an event, with the rule it stands at. -/
def walkAt (ok : Walk → Option Instr → Bool) (act : Nat → Walk → W Unit) : W Unit := do
  let id ← arg 0
  let s ← get
  match lookup id s.walks with
  | none => stall
  | some w =>
    waitFor (w.st == .walking && w.ending.isNone && (s.ctx w.ctx).serves && ok w (w.rules[w.pc]?.bind decodeRule))
    act id w

/-- WALK_STEP_LIMIT: walk `arg 0` stands at a NEXT with STEPS equal to LIMIT. -/
def execWalkStepLimit (s : State) : Host.Outcome State Fault Refusal :=
  event (walkAt (fun w i => decide (w.steps = w.limit) && decide (w.nrun < ruleLimit) && (match i with
    | some (.next _) => true
    | some (.nextG _) => true
    | _ => false)) limitWalk) s

/-- WALK_WATCHDOG: walk `arg 0` would run a rule too many. -/
def execWalkWatchdog (s : State) : Host.Outcome State Fault Refusal :=
  event (walkAt (fun w _ => decide (ruleLimit ≤ w.nrun)) (fun id w => breakWalk id w cWATCHDOG)) s

end Sys2Proof.Machine
end

