-- ==== Sys2Proof/Machine/Dump.lean ====
section
/-!
DEFINITION. The end of a context: its dump area (R112), and the release of everything it holds when it reaches DEAD
(R93, R307, R339, R377, Table 17.1).
-/
namespace Sys2Proof.Machine

/-! ## DEAD -/

/-- The transfers of a context's cards and messages. -/
def State.xferOf (s : State) (ctx : BitVec 8) : XferOf → Bool
  | .card r _ => (s.refCard r).any (fun q => q.1 == ctx)
  | .rsig c _ _ => (s.core c).lastCtx == ctx
  | .msg c _ _ _ _ _ => c == ctx

/-- Every object of a context ends and every unit it holds is released; the descriptor becomes DEAD (Table 4.2). -/
def endContext (ctx : BitVec 8) : W Unit := do
  for g in (← get).groups.filter (fun g => g.ctx == ctx) do dissolveGroup g
  for b in (← get).barriers.filter (fun b => b.ctx == ctx) do unbindBarrier b.abandon
  cancelBuckets (fun b => b.ctx == ctx)
  modify (fun s => { s with xfers := s.xfers.filter (fun x => !s.xferOf ctx x.2) })
  releaseFps (((← get).fps.filter (fun f => f.ctx == ctx)).map (·.id))
  for g in (← get).gangs.filter (fun g => g.2.ctx == ctx) do modify (fun s => (s.freeGang g.1).dropGang g.1)
  modify (fun s =>
    let mine := (s.launches.filter (fun l => l.2.ctx == ctx)).map (·.1)
    { s with
      hub := s.hub.filter (fun h => h.2.ctx != ctx)
      graphs := s.graphs.filter (fun g => g.ctx != ctx)
      graphWait := s.graphWait.filter (fun g => g.ctx != ctx)
      vtq := s.vtq.filter (fun v => v.1.1 != ctx)
      skReqs := s.skReqs.filter (fun q => q.ctx != ctx)
      launches := s.launches.filter (fun l => l.2.ctx != ctx)
      ces := s.ces.map (fun c => (c.1,
        { run := c.2.run.filter (fun r => !mine.contains r.launch), slots := c.2.slots.filter (fun x => !mine.contains x.2.2.launch) }))
      walks := s.walks.filter (fun w => w.2.ctx != ctx)
      pins := s.pins.filter (fun p => p.ctx != ctx)
      remoteIn := s.remoteIn.filter (fun r => r.ctx != ctx)
      accIn := s.accIn.filter (fun a => a.ctx != ctx)
      launchQ := s.launchQ.filter (fun l => l.ctx != ctx)
      shares := s.shares.filter (fun h => h.1.2.1 != ctx)
      walkReqs := s.walkReqs.filter (fun q => q.ctx != ctx)
      fpWait := s.fpWait.filter (fun q => q.ctx != ctx)
      dcache := s.dcache.filter (fun d => d.ctx != ctx)
      tlb := s.tlb.filter (fun e => e.ctx != ctx) })
  let s0 ← get
  -- R98: the units are zeroed, so that a later context under this number finds nothing
  for c in (List.range 96).filter (fun c => (s0.core c).lastCtx == ctx) do modify (fun s => s.zeroCore c)
  modify (fun s => s.setCtx ctx { s.ctx ctx with state := .dead, saveSlots := [], debugs := [], causes := [] })

/-! ## The dump area (R112) -/

/-- The cores that a context holds. -/
def State.heldCores (s : State) (ctx : BitVec 8) : List Nat :=
  (List.range 96).filter (fun x => ((s.core x).gang.bind s.gang).any (fun k => k.ctx == ctx))

/-- A core's image of KIND 2; a core that hung has only the first 16 bytes, with the last PHINT's bitmaps (R113). -/
def Core.dumpImage (k : Core) (cause : BitVec 8) (strm : List Byte) : List (Nat × List Byte) :=
  if k.mode = .hung then
    let l := k.phint.getD (0, 0)
    [(0, headBytes 2 cWATCHDOG k.engS.pc { a := l.1, b := l.2 })]
  else k.fullImage 2 cause strm

/-- The CE save slots that a context holds, in ascending CE and slot. -/
def State.heldSlots (s : State) (ctx : BitVec 8) : List (Nat × Nat × Nat × Launch × Run) :=
  (List.range 384).flatMap (fun g => (List.range ceSlotCount).flatMap (fun n =>
    ((s.ce g).slots.filter (fun x => x.1 == n)).flatMap (fun x =>
      ((lookup x.2.2.launch s.launches).filter (fun l => l.ctx == ctx)).toList.map (fun l => (g, n, x.2.1, l, x.2.2)))))

/-- Writes pieces of a dump, each at its offset from the area's base. -/
def writeCores (ctx : BitVec 8) (base : Nat) (cause : BitVec 8) : List (Nat × Core) → W (Except Bad Unit)
  | [] => return .ok ()
  | (i, k) :: r => do
    let strm ← anyBytes 16384
    match ← writeSections (hubPath ctx) (base + 0x1000 + slotBytes * i) (k.dumpImage cause strm) with
    | .error e => return .error e
    | .ok _ => writeCores ctx base cause r

/-- Bytes of a CE's block in a dump. -/
def ceBlockBytes : Nat := 0x10000
/-- Most cause records that a dump's chain holds. -/
def chainRoom : Nat := 126

/-- Writes the dump area: the header and the cause chain, then as many blocks as fit, in order. DEDUCED (notes/assumptions/77.md). -/
def writeDump (ctx : BitVec 8) : W (Except Bad Unit) := do
  let s ← get
  let x := s.ctx ctx
  let room := 0x10000 * x.dumplen - 0x1000
  let cores := s.heldCores ctx
  let slots := s.heldSlots ctx
  let nc := min cores.length (room / slotBytes)
  let ns := if nc < cores.length then 0 else min slots.length ((room - slotBytes * nc) / ceBlockBytes)
  let trunc := decide (nc < cores.length ∨ ns < slots.length)
  let chain := x.causes.take chainRoom
  let head := leBytes 2 chain.length ++ leBytes 2 nc ++ leBytes 1 trunc.toNat ++ leBytes 1 0 ++ leBytes 2 ns
  let cause := (x.causes.head?.map (·.cause)).getD 0
  match ← writeMem (hubPath ctx) x.dumpva head with
  | .error e => return .error e
  | .ok _ =>
  match ← writeMem (hubPath ctx) (x.dumpva + 0x40) (chain.flatMap (fun r => leBytes 32 r.num)) with
  | .error e => return .error e
  | .ok _ =>
  match ← writeCores ctx x.dumpva cause ((List.range nc).map (fun i => (i, s.core (cores.getD i 0)))) with
  | .error e => return .error e
  | .ok _ =>
    writeSections (hubPath ctx) (x.dumpva + 0x1000 + slotBytes * nc)
      ((List.range ns).flatMap (fun i => (slots[i]?).toList.map (fun b => (ceBlockBytes * i, b.2.2.2.1.block b.1 b.2.1 b.2.2.1 b.2.2.2.2))))

/-- Whether every unit of a context has stopped. -/
def State.ctxStopped (s : State) (ctx : BitVec 8) : Bool :=
  (s.heldCores ctx).all (fun c => ((s.core c).atRest false || (s.core c).mode == .loading || (s.core c).mode == .restoring) &&
    !s.flights.any (fun f => f.core == c && f.pends)) &&
  !s.ces.any (fun c => c.2.run.any (fun r => (lookup r.launch s.launches).any (fun l => l.ctx == ctx))) &&
  !s.walks.any (fun w => w.2.ctx == ctx && w.2.ending.isSome)

/-- DUMP_COMPLETE: context `arg 0`. DEDUCED (notes/assumptions/77.md). -/
def dumpComplete : W Unit := do
  let ctx := BitVec.ofNat 8 (← arg 0)
  let s ← get
  let x := s.ctx ctx
  waitFor (x.state == .dumping && s.ctxStopped ctx)
  let lost := match x.causes with
    | r :: _ => modify (fun s => s.addScore kCause ctx r.num)
    | [] => pure ()
  if x.dumplen = 0 then lost
  else
    match ← writeDump ctx with
    | .ok _ => pure ()
    | .error _ => lost
  endContext ctx
  decide_
def execDumpComplete (s : State) : Host.Outcome State Fault Refusal := event dumpComplete s

end Sys2Proof.Machine
end

