-- ==== Sys2Proof/Machine/Device.lean ====
section
/-!
DEFINITION. The device: power and reset (R473, R475), verification, self-test and training (R477 to R480), throttles and
the thermal trip (R28, R485), attestation (R483), and the commands of the management mailbox (R481, R482, R489).
-/
namespace Sys2Proof.Machine

/-! ## Power and reset -/

/-- What a reset leaves when nothing but the device's own cells is kept (R478, R479); the model's own fields go on. DESIGN CHOICE (notes/assumptions/9.md). DEDUCED (notes/assumptions/10.md). -/
def State.cold (s : State) (d : DState) : State :=
  { State.reset with
    cur := s.cur, agenda := s.agenda, ticks := s.ticks, freeCtr := s.freeCtr, dstate := d, cfgNext := s.cfgNext,
    banks := s.banks, bank := s.bank, bankNew := s.bankNew, arbRec := s.arbRec, arbFw := s.arbFw, hostMem := s.hostMem }

/-- POWER_GOOD: `arg 0` has a bit for each CXL port that trains at power-up. DEDUCED (notes/assumptions/78.md). -/
def powerGood : W Unit := do
  let m ← arg 0
  let s ← get
  waitFor (s.dstate == .off)
  set { s.cold .verify with cxl := BitVec.ofNat 4 m }
def execPowerGood (s : State) : Host.Outcome State Fault Refusal := event powerGood s

/-- POWER_LOSS. -/
def powerLoss : W Unit := do
  let s ← get
  waitFor (s.dstate != .off)
  set (s.cold .off)
def execPowerLoss (s : State) : Host.Outcome State Fault Refusal := event powerLoss s

/-- A record of KIND 4, 5, 7, 8 or 9: the unit's number, then detail. DEDUCED (notes/assumptions/70.md). -/
def State.unitScore (s : State) (kind : BitVec 8) (unit detail : Nat) : State := s.addScore kind 0 (unit % 2 ^ 16 + 2 ^ 16 * (detail % 2 ^ 176))

/-! ## The configuration record and the firmware (R476 to R478) -/

/-- Bytes of a record without and with its signature. -/
def recordLen : Nat := 0x400
def signedLen : Nat := 0x400 + 29792

/-- A record read from its bytes. DEDUCED (notes/assumptions/75.md). -/
def parseConfig (b : List Byte) : ConfigRec :=
  let v := leNat (b.take recordLen)
  { version := fieldOf v 0 15 0, serial := BitVec.ofNat 64 (fieldOf v 8 63 0)
    coredis := vecFrom 4 (fun j => BitVec.ofNat 32 (fieldOf v (0x10 + 4 * j) 31 0))
    chret := vecFrom 12 (fun s => BitVec.ofNat 32 (fieldOf v (0x360 + 4 * s) 31 0)), raw := b }

/-- The limits of Table 19.2, the reserved bits among them. DESIGN CHOICE (notes/assumptions/88.md). -/
def ConfigRec.limits (c : ConfigRec) (least : Nat) : Bool :=
  let v := leNat (c.raw.take recordLen)
  decide (c.raw.length = signedLen) && decide (least ≤ c.version) && fieldOf v 0 63 16 == 0 && c.serial == Config.serial &&
  c.coredis.toList.all (fun d => d.extractLsb' 26 6 == 0 && ((List.range 26).filter (fun i => d.getLsbD i)).length == 2) &&
  (List.range 104).all (fun b =>
    let p := (List.range 4).map (fun i => fieldOf v (0x20 + 8 * b + i) 7 0)
    let q := (List.range 4).map (fun i => fieldOf v (0x20 + 8 * b + 4 + i) 7 0)
    (p ++ q).all (fun x => decide (x < 132)) && decide p.Nodup && decide q.Nodup) &&
  (List.range 14).all (fun i => fieldOf v (0x390 + 8 * i) 63 0 == 0)

/-- R477 and R479 on a record. -/
def State.recordOk (s : State) (c : ConfigRec) : Bool := Config.signed c.raw && c.limits s.arbRec.count
/-- R478 and R479 on a bank. -/
def State.bankOk (s : State) (b : Bank) : Bool := Config.signed b.image && decide (s.arbFw.count ≤ (Config.firmwareVersion b.image).toNat)

/-- The bank not in use. -/
def State.otherBank (s : State) : Fin 2 := 1 - s.bank

/-- VERIFY_COMPLETE: at a cold reset the record in force is the one that the board controller holds, whose bytes come
with the event unless CFGUPDATE passed them; a warm reset verifies that record again. A new bank that fails is passed over. DEDUCED (notes/assumptions/75.md). -/
def verifyComplete : W Unit := do
  let b ← argBytes
  let s ← get
  waitFor (s.dstate == .verify)
  let c := s.cfgCold.getD (s.cfgNext.getD (parseConfig b))
  let s := { s with cfgCold := some c }
  if s.bankNew then
    if s.bankOk s.banks[s.otherBank] then set { s with bank := s.otherBank, bankNew := false }
    else set { (s.unitScore kVerify 0 1) with bankNew := false }
  let s ← get
  if !s.recordOk c then set { (s.unitScore kVerify 0 0) with dstate := .safe }
  else if !s.bankOk s.banks[s.bank] then set { (s.unitScore kVerify 0 1) with cfg := c, dstate := .safe }
  else set { s with cfg := c, dstate := .selftest }
def execVerifyComplete (s : State) : Host.Outcome State Fault Refusal := event verifyComplete s

/-! ## Self-test and training (R480) -/

/-- What SELFTEST checks, by kind and number: an enabled core, a compute die's caches, a base die's translation cache, a CE of a
stack in service, a Caddie, the hub tables and cache. DEDUCED (notes/assumptions/72.md). -/
def State.tests (s : State) (kind n : Nat) : Bool :=
  match kind with
  | 1 => decide (n < s.coresInService)
  | 2 => decide (n < 4)
  | 3 => decide (n < 12)
  | 4 => decide (n < 384) && s.inService (n / 32)
  | 5 => decide (n < 12)
  | 6 => n == 0
  | _ => false

/-- What TRAIN trains: a channel of a stack in service. -/
def State.trains (s : State) (kind n : Nat) : Bool := kind == 1 && decide (n < 384) && s.inService (n / 32)

/-- A phase's end: `arg 0` is 0 when all passed, else the kind of unit, `arg 1` the number of the unit that failed and `arg 2` the
detail. DEDUCED (notes/assumptions/72.md). -/
def phase (in_ : DState) (kind : BitVec 8) (has : State → Nat → Nat → Bool) (pass : State → State) : W Unit := do
  let bad ← arg 0
  let unit ← arg 1
  let det ← arg 2
  let s ← get
  waitFor (s.dstate == in_ && (bad == 0 || has s bad unit))
  set (if bad = 0 then pass s else { (s.unitScore kind unit det) with dstate := .safe })

def execSelftestComplete (s : State) : Host.Outcome State Fault Refusal :=
  event (phase .selftest kSelftest State.tests (fun s => { s with dstate := .train })) s

/-- Starts training on the ports that are DOWN and may train. -/
def State.trainPorts (s : State) (which : Port → Bool) : State :=
  (List.range 16).foldl (fun s p => if which (s.port p) then (s.setPort p { (s.port p) with clash := false }).portTo p .training else s) s

/-- TRAIN_COMPLETE: in READY the ports of a package with a PKGID begin training (R457, R460). -/
def execTrainComplete (s : State) : Host.Outcome State Fault Refusal :=
  event (phase .train kTraining State.trains (fun s =>
    let s := { s with dstate := .ready }
    if s.pkgid.isSome then s.trainPorts (fun x => x.st == .down && !x.clash) else s)) s

/-! ## Throttles and the trip (R26, R28, R485) -/

/-- The compute dies that a throttle slows. -/
def Throttle.dies : Throttle → List Nat
  | .power j => [j]
  | .die j => [j]
  | .stack s => [s / 3]
  | .package => [0, 1, 2, 3]
  | .hub => [0, 1, 2, 3]

/-- Whether a core inserts idle cycles (R26): only its CYCLE tells. -/
def State.throttles? (s : State) (c : Nat) : Bool := s.throttles.any (fun t => t.dies.contains (c / Config.coresPerDie))

/-- The die an event names: kind `arg 0`, number `arg 1`. -/
def heatOf (kind n : Nat) : Option Throttle :=
  match kind with
  | 0 => if n < 4 then some (.die n) else none
  | 1 => if n < 12 then some (.stack n) else none
  | 2 => some .hub
  | 3 => if n < 4 then some (.power n) else none
  | 4 => some .package
  | _ => none

/-- A throttle begins, with its record: the number of its first compute die. -/
def beginThrottle (t : Option Throttle) : W Unit := do
  match t with
  | none => stall
  | some t =>
    let s ← get
    waitFor (s.dstate != .off && !s.throttles.contains t)
    set ((({ s with throttles := s.throttles ++ [t] }) : State).unitScore kThrottle (t.dies.headD 0) 0)

/-- POWER_THROTTLE: kind 3 a die above its share, 4 the package, once no die alone is above its own. -/
def execPowerThrottle (s : State) : Host.Outcome State Fault Refusal :=
  event (do
    let k ← arg 0
    waitFor (k == 3 || k == 4)
    beginThrottle (heatOf k (← arg 1))) s

/-- THERMAL_THROTTLE: kind 0 a compute die, 1 a stack's base die, 2 the hub die passes 95 °C. -/
def execThermalThrottle (s : State) : Host.Outcome State Fault Refusal :=
  event (do
    let k ← arg 0
    waitFor (decide (k < 3))
    beginThrottle (heatOf k (← arg 1))) s

/-- THROTTLE_LIFT: the die concerned is below 92 °C; for kinds 3 and 4 power is within its limit again. DEDUCED (notes/assumptions/78.md). -/
def execThrottleLift (s : State) : Host.Outcome State Fault Refusal :=
  event (do
    match heatOf (← arg 0) (← arg 1) with
    | none => stall
    | some t =>
      waitFor ((← get).throttles.contains t)
      modify (fun s => { s with throttles := s.throttles.filter (fun x => x != t) })) s

/-- Every context becomes DEAD without a dump. -/
def endAllContexts : W Unit := do
  for c in (← get).ctxs do
    if c.2.state ≠ .dead then endContext (BitVec.ofNat 8 c.1)

/-- THERMAL_TRIP: unit `arg 0` stands at 105 °C. -/
def thermalTrip : W Unit := do
  let u ← arg 0
  waitFor ((← get).dstate != .off)
  endAllContexts
  modify (fun s => { (s.unitScore kThermal u 0) with dstate := .safe })
def execThermalTrip (s : State) : Host.Outcome State Fault Refusal := event thermalTrip s

/-- SPDM_REQUEST: the answer holds the ROM digest, the hashes of the bank in use and of the record, and SERIAL (R483). -/
def spdmRequest : W Unit := do
  let s ← get
  waitFor (s.dstate != .off)
  set { s with spdm := leBytes 32 Config.romDigest.toNat ++ leBytes 32 (Config.digest s.banks[s.bank].image).toNat ++
                       leBytes 32 (Config.digest s.cfg.raw).toNat ++ leBytes 8 s.cfg.serial.toNat }
def execSpdmRequest (s : State) : Host.Outcome State Fault Refusal := event spdmRequest s

/-! ## The mailbox (R481, R482, R489) -/

/-- RESULT codes (Table 19.3). -/
def resOK : BitVec 8 := 0
def resREFUSED : BitVec 8 := 1
def resNOTREADY : BitVec 8 := 2
def resBADARG : BitVec 8 := 3
def resVERIFY : BitVec 8 := 4

/-- What a command answers: RESULT and REPLY. -/
abbrev Answer := BitVec 8 × Nat

def ansOk (v : Nat := 0) : Answer := (resOK, v)
def ansRefused (code : Nat := 0) : Answer := (resREFUSED, code)
/-- BADARG with the doubleword at `off` of record `r` (Table 19.9). -/
def ansBad (r off : Nat) : Answer := (resBADARG, off + 2 ^ 16 * r)
/-- BADARG with an index. -/
def ansBadAt (r off i : Nat) : Answer := (resBADARG, off + 2 ^ 16 * r + 2 ^ 20 + 2 ^ 32 * i)

/-- A command, started with TGT `arg 0`: it runs in the device states of `ok`, else it ends NOTREADY. `arg 1` tells
whether another start came while it ran, which is lost (R482). ARG and LEN stand in their registers. DESIGN CHOICE (notes/assumptions/71.md). -/
def command (op : BitVec 16) (ok : DState → Bool) (body : Nat → BitVec 64 → Nat → W Answer) : W Unit := do
  let tgt := (← arg 0) % 2 ^ 16
  let again ← arg 1
  let s ← get
  waitFor (s.dstate != .off)
  let m := s.mbox
  set { s with mbox := { m with op := op, tgt := BitVec.ofNat 16 tgt, busy := true, lost := false } }
  let r ← if ok s.dstate then body tgt m.arg m.len.toNat else pure (resNOTREADY, 0)
  modify (fun s => { s with mbox := { s.mbox with busy := false, lost := again != 0, result := r.1, reply := word64 r.2 } })

/-- Commands that run in READY only. -/
def inReady (d : DState) : Bool := d == .ready
/-- Commands that SAFE executes too (R474), and that run while the package comes up. -/
def inAny (_ : DState) : Bool := true

/-- STATUS. -/
def execStatus (s : State) : Host.Outcome State Fault Refusal :=
  event (command 0x01 inAny (fun _ _ _ => do
    let s ← get
    let nstacks := ((List.range 12).filter s.inService).length
    let up := (s.ports.toList.filter (·.carries)).length
    return ansOk ((nstacks - 1) % 16 + 2 ^ 8 * up + 2 ^ 16 * (Config.firmwareVersion s.banks[s.bank].image).toNat))) s

/-! ### Contexts (R92, R93, R96) -/

/-- Bits of each doubleword of a descriptor that are not reserved (Table 4.1). -/
def descMasks : List Nat := [0xFFF, 2 ^ 42 - 1, 2 ^ 56 - 1, 0xFFFF, 2 ^ 56 - 1, 2 ^ 32 - 1, 2 ^ 56 - 1, 0xFFFF]
/-- Bits of each doubleword of a region control block that are not reserved (Table 4.3). -/
def rcbMasks : List Nat := [0x13F3F0FFFFFFF, 0xFFFFFFFF00FFFFFF, 0xFFFFFFFF0000FFFF, 2 ^ 32 - 1, 2 ^ 56 - 1, 2 ^ 32 - 1, 0, 0]

/-- The offset of the first doubleword of `v` with a reserved bit set. -/
def reservedAt (masks : List Nat) (v : Nat) : Option Nat :=
  ((List.range masks.length).find? (fun i => fieldOf v (8 * i) 63 0 &&& (2 ^ 64 - 1 - masks.getD i 0) != 0)).map (8 * ·)

/-- What CREATE refuses in an image, by its doubleword (R92). -/
def descBad (tgt v : Nat) : Option Nat :=
  if fieldOf v 0 7 0 ≠ tgt then some 0
  else match reservedAt descMasks v with
  | some o => some o
  | none =>
    if fieldOf v 8 15 0 ≠ 0 then some 8
    else if fieldOf v 0x10 55 0 % 64 ≠ 0 then some 0x10
    else if fieldOf v 0x18 15 0 = 0 then some 0x18
    else if fieldOf v 0x20 55 0 % 4096 ≠ 0 then some 0x20
    else if fieldOf v 0x30 55 0 % slotBytes ≠ 0 then some 0x30
    else none

/-- The state of a context for a command; a descriptor never created stands as DEAD. -/
def State.ctxState (s : State) (n : Nat) : CtxState := ((lookup n s.ctxs).map (·.state)).getD .dead

/-- CREATE: the 64 bytes at ARG come with the event. DESIGN CHOICE (notes/assumptions/91.md). -/
def execCreate (s : State) : Host.Outcome State Fault Refusal :=
  event (command 0x02 inReady (fun tgt _ len => do
    let v := leNat ((← argBytes).take 64)
    let s ← get
    if tgt = 0 || 255 < tgt then return ansBad 0 0
    else if len ≠ 64 then return ansBad 0 0x10
    else if s.ctxState tgt ≠ .dead then return ansRefused (s.ctxState tgt).code
    else match descBad tgt v with
    | some o => return ansBad 1 o
    | none =>
      let c : Ctx := { ptroot := fieldOf v 8 41 0, rtab := fieldOf v 0x10 55 0, rcount := fieldOf v 0x18 15 0,
                       dumpva := fieldOf v 0x20 55 0, dumplen := fieldOf v 0x28 31 0, saveva := fieldOf v 0x30 55 0,
                       savecnt := fieldOf v 0x38 15 0 }
      set (s.setCtx (BitVec.ofNat 8 tgt) c)
      return ansOk)) s

/-- A command on context TGT in one of the states `ok`; otherwise REFUSED with the state's code (R93). -/
def ctxCommand (op : BitVec 16) (ok : CtxState → Bool) (body : BitVec 8 → Ctx → W Answer) : W Unit :=
  command op inReady (fun tgt _ _ => do
    let s ← get
    if tgt = 0 || 255 < tgt then return ansBad 0 0
    else if !ok (s.ctxState tgt) then return ansRefused (s.ctxState tgt).code
    else body (BitVec.ofNat 8 tgt) (s.ctx (BitVec.ofNat 8 tgt)))

/-- A region control block (Table 4.3). DEDUCED (notes/assumptions/51.md). -/
def parseRegion (v : Nat) : Region :=
  { parent := BitVec.ofNat 16 (fieldOf v 0 15 0), ovr := BitVec.ofNat 16 (fieldOf v 0 31 16), pbase := BitVec.ofNat 6 (fieldOf v 0 37 32)
    pceil := BitVec.ofNat 6 (fieldOf v 0 45 40), fd := fieldOf v 0 48 48 == 1, cores := BitVec.ofNat 8 (fieldOf v 8 7 0)
    cesh := BitVec.ofNat 8 (fieldOf v 8 15 8), linksh := BitVec.ofNat 8 (fieldOf v 8 23 16), fpent := BitVec.ofNat 16 (fieldOf v 8 47 32)
    buckets := BitVec.ofNat 16 (fieldOf v 8 63 48), weight := BitVec.ofNat 16 (fieldOf v 0x10 15 0)
    wdog := BitVec.ofNat 32 (fieldOf v 0x10 63 32), quantum := BitVec.ofNat 32 (fieldOf v 0x18 31 0)
    stq := BitVec.ofNat 56 (fieldOf v 0x20 55 0), stqlen := BitVec.ofNat 32 (fieldOf v 0x28 31 0) }

/-- The first region of a table, with the doubleword, that R96 refuses, by the order of its list. -/
def tableBad (vs : List Nat) : Option (Nat × Nat) :=
  let c : Ctx := { regions := vs.map parseRegion, rcount := vs.length }
  let all := List.range vs.length
  let rest := all.filter (· ≠ 0)
  let up := fun n => (c.region n).parent.toNat
  let covered := fun n b => (c.region n).ovr.getLsbD b
  let find := fun (l : List Nat) (off : Nat) (bad : Nat → Bool) => (l.find? bad).map (fun n => (n, off))
  [find [0] 0 (fun _ => (c.region 0).ovr.extractLsb' 0 12 != 0xFFF || (c.region 0).parent != 0xFFFF),
   find rest 0 (fun n => decide (vs.length ≤ up n)),
   find all 0 (fun n => decide (8 < (c.chain n).length) || (c.chain n).getLast? != some 0),
   find all 8 (fun n => decide (96 < (c.region n).cores.toNat) || decide (Config.footprintEntries < (c.region n).fpent.toNat)),
   find all 0x10 (fun n => covered n 8 && (c.region n).weight == 0),
   find all 0 (fun n => decide (c.pceilEff n < c.pbaseEff n)),
   find rest 8 (fun n =>
     (covered n 0 && decide (c.coresEff (up n) < (c.region n).cores.toNat)) || (covered n 3 && decide (c.fpentEff (up n) < (c.region n).fpent.toNat)) ||
     (covered n 4 && decide (c.bucketsEff (up n) < (c.region n).buckets.toNat))),
   (all.findSome? (fun n => (reservedAt rcbMasks (vs.getD n 0)).map (fun o => (n, o))))].findSome? id

/-- Reads blocks `n` on of a region table. -/
def readRcbs (ctx : BitVec 8) (rtab : Nat) : Nat → Nat → W (Except Bad (List Nat))
  | 0, _ => return .ok []
  | k + 1, n => do
    match ← hubRead ctx (rtab + 64 * n) 64 with
    | .error e => return .error e
    | .ok b => match ← readRcbs ctx rtab k (n + 1) with
      | .error e => return .error e
      | .ok l => return .ok (leNat b :: l)

/-- The checks of R96; the table in force changes only when they pass. DEDUCED (notes/assumptions/51.md). DESIGN CHOICE (notes/assumptions/91.md). -/
def acceptTable (ctx : BitVec 8) (st : Option CtxState) : W Answer := do
  let c := (← get).ctx ctx
  match ← readRcbs ctx c.rtab c.rcount 0 with
  | .error _ => return ansBad 1 0x10
  | .ok vs =>
    match tableBad vs with
    | some (n, o) => return ansBadAt 2 o n
    | none =>
      modify (fun s => s.setCtx ctx { s.ctx ctx with regions := vs.map parseRegion, state := st.getD (s.ctx ctx).state })
      return ansOk

/-- LOAD. -/
def execLoad (s : State) : Host.Outcome State Fault Refusal :=
  event (ctxCommand 0x03 (· == .new) (fun n _ => acceptTable n (some .loaded))) s

/-- RELOAD: the next dispatch decision sees the new table. -/
def execReload (s : State) : Host.Outcome State Fault Refusal :=
  event (ctxCommand 0x04 (fun st => st == .loaded || st == .runnable || st == .running || st == .preempting || st == .saved)
    (fun n _ => do
      let r ← acceptTable n none
      decide_
      return r)) s

/-- SUSPEND. -/
def execSuspend (s : State) : Host.Outcome State Fault Refusal :=
  event (ctxCommand 0x05 (fun st => st == .runnable || st == .running) (fun n c => do
    modify (fun s => s.setCtx n { c with state := .preempting })
    decide_
    return ansOk)) s

/-- RESUME. -/
def execResume (s : State) : Host.Outcome State Fault Refusal :=
  event (ctxCommand 0x06 (· == .saved) (fun n c => do
    modify (fun s => (s.setCtx n { c with state := .runnable }).settleCtx n)
    decide_
    return ansOk)) s

/-- DESTROY. -/
def execDestroy (s : State) : Host.Outcome State Fault Refusal :=
  event (ctxCommand 0x07 (fun st => st == .new || st == .loaded || st == .saved) (fun n _ => do
    endContext n
    decide_
    return ansOk)) s

/-- DEBUG: the 32-byte block at ARG comes with the event. -/
def execDebug (s : State) : Host.Outcome State Fault Refusal :=
  event (command 0x08 inReady (fun tgt _ len => do
    let v := leNat ((← argBytes).take 32)
    let s ← get
    let n := BitVec.ofNat 8 tgt
    if tgt = 0 || 255 < tgt then return ansBad 0 0
    else if s.ctxState tgt = .dead then return ansRefused (s.ctxState tgt).code
    else if len ≠ 32 then return ansBad 0 0x10
    else
      let graph := fieldOf v 0 63 0
      let node := fieldOf v 8 31 0
      match ← hubRead64 n (graph + 0x10) with
      | .error _ => return ansBad 3 0
      | .ok w =>
        if fieldOf v 8 63 32 ≠ 0 || w.toNat % 2 ^ 32 ≤ node then return ansBad 3 8
        else
          let d := (graph, node, (BitVec.ofNat 64 (fieldOf v 16 1 0) : BitVec 64), (BitVec.ofNat 64 (fieldOf v 24 63 0) : BitVec 64))
          modify (fun s => s.setCtx n { s.ctx n with debugs := (s.ctx n).debugs.filter (fun x => !(x.1 == graph && x.2.1 == node)) ++ [d] })
          return ansOk)) s

/-- TLBI of the mailbox (R308), over ARG and LEN. -/
def execMailboxTlbi (s : State) : Host.Outcome State Fault Refusal :=
  event (command 0x09 inReady (fun tgt a len => do
    let s ← get
    if tgt = 0 || 255 < tgt then return ansBad 0 0
    else if s.ctxState tgt = .dead then return ansRefused (s.ctxState tgt).code
    else if 2 ^ 56 ≤ a.toNat || (len ≠ 0 && 2 ^ 56 < a.toNat + len) then return ansBad 0 8
    else
      tlbInvalidate (BitVec.ofNat 8 tgt) a.toNat len
      return ansOk)) s

/-! ### Keys (R483) -/

/-- A command on key slot TGT, from 1 to 255. DEDUCED (notes/assumptions/73.md). -/
def keyCommand (op : BitVec 16) (body : Nat → KeySlot → BitVec 64 → W Answer) : W Unit :=
  command op inReady (fun tgt a _ => do
    if tgt = 0 || 255 < tgt then return ansBad 0 0
    else body tgt ((lookup tgt (← get).keys).getD {}) a)

/-- Replaces a key slot. DEDUCED (notes/assumptions/73.md). -/
def setKey (k : Nat) (x : KeySlot) : W Unit := modify (fun s => { s with keys := assign k x s.keys })

/-- KEYLOAD: `arg 2` tells whether the key came inside an SPDM secure session; the key's 64 bytes come with the event. -/
def execKeyload (s : State) : Host.Outcome State Fault Refusal :=
  event (keyCommand 0x10 (fun k x _ => do
    if (← arg 2) = 0 then return ansRefused
    else
      let b ← argBytes
      setKey k { x with loaded := true, load := x.load + 1, key := BitVec.ofNat 512 (leNat (b.take 64)) }
      return ansOk)) s

/-- KEYGRANT: to context ARG. -/
def execKeygrant (s : State) : Host.Outcome State Fault Refusal :=
  event (keyCommand 0x11 (fun k x a => do
    if a = 0 || 255 < a.toNat then return ansBad 0 8
    else
      let n := a.setWidth 8
      setKey k { x with grants := x.grants.filter (· != n) ++ [n] }
      return ansOk)) s

/-- KEYREVOKE: the slot holds no key and no grant any more. -/
def execKeyrevoke (s : State) : Host.Outcome State Fault Refusal :=
  event (keyCommand 0x12 (fun k x _ => do
    let s ← get
    if x.grants.any (fun n => s.ctxState n.toNat != .dead) then return ansRefused
    else
      setKey k { load := x.load + 1 }
      return ansOk)) s

/-! ### Links (R457, R460, R461, R464) -/

/-- SETID: PKGID := ARG. -/
def execSetid (s : State) : Host.Outcome State Fault Refusal :=
  event (command 0x18 (· != .safe) (fun _ a _ => do
    let s ← get
    if s.dstate ≠ .ready || !s.ports.toList.all (fun x => x.st == .down || x.st == .training) then return ansRefused s.dstate.code
    else if 32767 < a.toNat then return ansBad 0 8
    else
      let first := !s.setId
      set (({ s with pkgid := some a.toNat, setId := true } : State).trainPorts (fun (x : Port) => x.st == .down && (first || x.clash)))
      return ansOk)) s

/-- A command on port TGT. -/
def portCommand (op : BitVec 16) (body : Nat → Port → W Answer) : W Unit :=
  command op inReady (fun tgt _ _ => do
    if 16 ≤ tgt then return ansBad 0 0 else body tgt ((← get).port tgt))

/-- PSTAT: Table 18.4. -/
def execPstat (s : State) : Host.Outcome State Fault Refusal :=
  event (portCommand 0x19 (fun p x => do
    modify (fun s => s.setPort p { x with replays := 0, perr := 0 })
    let s ← get
    return ansOk (x.st.code + 2 ^ 4 * x.lanes + 2 ^ 8 * x.gf.toNat + 2 ^ 16 * (s.rgen % 256) + 2 ^ 24 * x.peer.getD 0 +
      2 ^ 39 * x.peer.isSome.toNat + 2 ^ 40 * Nat.min 65535 x.replays + 2 ^ 56 * Nat.min 255 x.perr))) s

/-- PFENCE: no new flit is routed to the port; PORT_FENCED follows. -/
def execPfence (s : State) : Host.Outcome State Fault Refusal :=
  event (portCommand 0x1A (fun p x => do
    if x.carries || x.st = .retraining then
      modify (fun s => s.setPort p { x with fencing := true })
      return ansOk
    else return ansRefused x.st.code)) s

/-- PUNFENCE. A port that is DOWN trains when the package has a PKGID and no clash keeps it DOWN (R457). -/
def execPunfence (s : State) : Host.Outcome State Fault Refusal :=
  event (portCommand 0x1B (fun p x => do
    if x.st = .fenced then
      modify (fun s =>
        let s := (s.setPort p { x with fencing := false }).portTo p (if x.lanes = 8 then .up else .degraded)
        s.setPort p ((s.port p).sendGfence (s.pkgid.getD 0) s.rgen))
      return ansOk
    else if x.st = .down && !x.clash && (← get).pkgid.isSome then
      modify (fun s => s.portTo p .training)
      return ansOk
    else return ansRefused x.st.code)) s

/-- The nonzero entries of a route table's bytes from index `i` on. -/
def routesFrom : Nat → List Byte → List (Nat × BitVec 16)
  | i, a :: b :: r =>
    let e : BitVec 16 := b ++ a
    if e = 0 then routesFrom (i + 1) r else (i, e) :: routesFrom (i + 1) r
  | _, _ => []

/-- Bytes of a route table (R463). -/
def routeBytes : Nat := 65536

/-- RTLOAD: the table at ARG comes with the event (R464, R465). -/
def execRtload (s : State) : Host.Outcome State Fault Refusal :=
  event (command 0x1C inReady (fun _ _ len => do
    let t := routesFrom 0 ((← argBytes).take routeBytes)
    let s ← get
    if len ≠ routeBytes then return ansBad 0 0x10
    else if s.routes.any (fun x => x.1 + 1 == s.rgen) then return ansRefused
    else match t.find? (fun e => e.2.extractLsb' 10 6 != 0 || (some e.1 == s.pkgid && e.2.getLsbD 8)) with
    | some e => return ansBadAt 4 (2 * e.1 / 8 * 8 % 2 ^ 16) e.1
    | none =>
      let old := s.routes.filter (fun x => x.1 != s.rgen + 1)
      set { s with routes := old ++ [(s.rgen + 1, t)] }
      return ansOk)) s

/-- RTUSE: the next generation is used for sourcing; each port sends its fence first (R464), and the flits that wait move to the
new table (R463, R467). -/
def execRtuse (s : State) : Host.Outcome State Fault Refusal :=
  event (command 0x1D inReady (fun _ _ _ => do
    let s ← get
    if !s.routes.any (fun (x : Nat × List (Nat × BitVec 16)) => x.1 == s.rgen + 1) then return ansRefused
    else
      let g := s.rgen + 1
      let s : State := { s with rgen := g }
      let s := (List.range 16).foldl (fun s p =>
        let x : Port := s.port p
        let x := { x with gf := x.lastFence == some (BitVec.ofNat 8 g), sendFence := x.st != PState.down }
        s.setPort p (x.sendGfence (s.pkgid.getD 0) g)) s
      set ({ s with flitWait := s.flitWait.map s.retag } : State).dropOldTable
      return ansOk)) s

/-! ### Scorecard, updates and reset (R475, R478, R479, R484) -/

/-- The 32 bytes of a record (Table 19.5). -/
def Score.bytes (r : Score) : List Byte :=
  leBytes 8 (r.seq.toNat + 2 ^ 48 * r.kind.toNat + 2 ^ 56 * r.ctx.toNat) ++ leBytes 24 r.data.toNat

/-- SCREAD: the records from SEQ ARG on that fit in LEN bytes go to host memory at TGT × 4 KiB. -/
def execScread (s : State) : Host.Outcome State Fault Refusal :=
  event (command 0x20 inAny (fun tgt a len => do
    let s ← get
    let l := (s.score.filter (fun r => decide (a.toNat ≤ r.seq.toNat))).take (len / 32)
    set { s with hostMem := s.hostMem.splice (4096 * tgt) (l.flatMap Score.bytes) }
    return ansOk l.length)) s

/-- MARK. -/
def execMark (s : State) : Host.Outcome State Fault Refusal :=
  event (command 0x21 inAny (fun _ a _ => do
    modify (fun s => s.addScore kMarker 0 a.toNat)
    return ansOk)) s

/-- CFGUPDATE: the record at ARG comes with the event. -/
def execCfgupdate (s : State) : Host.Outcome State Fault Refusal :=
  event (command 0x28 inAny (fun _ _ len => do
    let c := parseConfig ((← argBytes).take len)
    let s ← get
    if !s.recordOk c then return (resVERIFY, 0)
    else
      set { s with cfgNext := some c }
      return ansOk)) s

/-- FWUPDATE: the image at ARG comes with the event. -/
def execFwupdate (s : State) : Host.Outcome State Fault Refusal :=
  event (command 0x29 inAny (fun _ _ len => do
    let b : Bank := { image := (← argBytes).take len }
    let s ← get
    let ok := s.bankOk b
    set { s with banks := s.banks.set s.otherBank b, bankNew := ok }
    return if ok then ansOk else (resVERIFY, 0))) s

/-- What a warm reset keeps (Table 19.8): of a context that it is DEAD (R7), of a key slot how often it has been loaded, since
what stood under its keys does not read as it was under a later one (R304), of a port that a clash of identities keeps it DOWN till
the next SETID (R457). DESIGN CHOICE (notes/assumptions/9.md). -/
def State.warm (s : State) : State :=
  let s := (List.range 16).foldl (fun s p => s.portTo p .down) s
  { s.cold .verify with
    mem := s.mem, uncorr := s.uncorr, keyTags := s.keyTags, keys := s.keys.map (fun k => (k.1, { load := k.2.load + 1 })),
    ctxs := s.ctxs.map (fun c => (c.1, { state := .dead })), pkgid := s.pkgid, setId := s.setId, cfg := s.cfg, cfgCold := s.cfgCold
    score := s.score, scoreSeq := s.scoreSeq, cxl := s.cxl, ports := s.ports.map (fun x => { clash := x.clash }) }

/-- WARMRESET: from READY and SAFE; RESULT OK is written before the reset, which gives the registers their reset values. -/
def warmreset : W Unit := do
  let s ← get
  if s.dstate = .ready || s.dstate = .safe then
    endAllContexts
    modify State.warm
  else command 0x2A inAny (fun _ _ _ => do return ansRefused (← get).dstate.code)
def execWarmreset (s : State) : Host.Outcome State Fault Refusal := event warmreset s

/-- Times that a count can be raised (R479). -/
def arbLimit : Nat := 64

/-- ARBCOMMIT on a count. -/
def Arb.commit (a : Arb) (version : Nat) : Arb × Answer :=
  if arbLimit ≤ a.raised then (a, (resREFUSED, 0xFFFF))
  else if version ≤ a.count then (a, (resREFUSED, a.count))
  else ({ count := version, raised := a.raised + 1 }, ansOk version)

/-- ARBCOMMIT: TGT 0 raises the record count, TGT 1 the firmware count. -/
def execArbcommit (s : State) : Host.Outcome State Fault Refusal :=
  event (command 0x2B inReady (fun tgt _ _ => do
    let s ← get
    if tgt = 0 then
      let r := s.arbRec.commit s.cfg.version
      set { s with arbRec := r.1 }
      return r.2
    else if tgt = 1 then
      let r := s.arbFw.commit (Config.firmwareVersion s.banks[s.bank].image).toNat
      set { s with arbFw := r.1 }
      return r.2
    else return ansBad 0 0)) s

/-- The codes of Table 19.4. -/
def commandCodes : List Nat :=
  [0x01, 0x02, 0x03, 0x04, 0x05, 0x06, 0x07, 0x08, 0x09, 0x10, 0x11, 0x12, 0x18, 0x19, 0x1A, 0x1B, 0x1C, 0x1D, 0x20, 0x21,
   0x28, 0x29, 0x2A, 0x2B]

/-- MAILBOX_UNKNOWN_OP: a start with OP `arg 2`. -/
def execMailboxUnknownOp (s : State) : Host.Outcome State Fault Refusal :=
  event (do
    let op := (← arg 2) % 2 ^ 16
    waitFor (!commandCodes.contains op)
    command (BitVec.ofNat 16 op) inAny (fun _ _ _ => return ansBad 0 0)) s

/-- A register after a write of `size` bytes at offset `at_` of its window; the register has `n` bytes at offset `base`. -/
def mergeWrite (old : Nat) (base n at_ size val : Nat) : Nat :=
  leNat ((List.range n).map (fun i =>
    if at_ ≤ base + i ∧ base + i < at_ + size then BitVec.ofNat 8 (val / 2 ^ (8 * (base + i - at_))) else BitVec.ofNat 8 (old / 2 ^ (8 * i))))

/-- A doubleword of the mailbox (Table 19.3). -/
def State.mailReg (s : State) (o : Nat) : Nat :=
  let m := s.mbox
  match o with
  | 0x00 => m.op.toNat + 2 ^ 16 * m.tgt.toNat
  | 0x08 => m.arg.toNat
  | 0x10 => m.len.toNat
  | 0x18 => m.busy.toNat + 2 * m.lost.toNat + 2 ^ 4 * s.dstate.code + 2 ^ 8 * m.result.toNat
  | 0x20 => m.reply.toNat
  | _ => 0

/-- What a read of `n` bytes of the mailbox returns. It changes nothing, so no event stands for it. -/
def State.mailRead (s : State) (o n : Nat) : Nat :=
  leNat ((List.range n).map (fun i => BitVec.ofNat 8 (s.mailReg ((o + i) / 8 * 8) / 2 ^ (8 * ((o + i) % 8)))))

/-- REGISTER_WRITE: window `arg 0` (0 the mailbox, 1 the launch window), offset, size, value. ARG and LEN are stored; every
other register here is read only, and what has no behaviour in the launch window is ignored. DESIGN CHOICE (notes/assumptions/71.md). -/
def registerWrite : W Unit := do
  let w ← arg 0
  let o ← arg 1
  let n ← arg 2
  let v ← arg 3
  let s ← get
  if w = 0 then
    waitFor (s.dstate != .off && decide (8 ≤ o))
    let m := s.mbox
    set { s with mbox := { m with arg := word64 (mergeWrite (s.mailReg 8) 8 8 o n v), len := BitVec.ofNat 32 (mergeWrite (s.mailReg 0x10) 0x10 4 o n v) } }
  else waitFor (decide (o < 4096) || decide (0x100000 ≤ o) || decide (0x20 ≤ o % 4096))
def execRegisterWrite (s : State) : Host.Outcome State Fault Refusal := event registerWrite s

end Sys2Proof.Machine
end

