-- ==== Sys2Proof/Machine/Fetch.lean ====
section
/-!
DEFINITION. What acts next and with which instruction: engines passing and executing the words of the text (R62 to R64,
R126 to R128), their stops (R100), channel engines and Caddies, and the events of the table.
-/
namespace Sys2Proof.Machine

/-! ## Operations that a register names -/

/-- The operation that the register of a BARV, BKARM or GRPGEN word names (R352, R390, R453), as the word itself will read
it; a reserved code stays with the word, which refuses it. -/
def opsOf (i : Instr) : Option (W Nat × List Instr) :=
  match i with
  | .barvArrive => some ((do return ((← rdS (← regD)).v.extractLsb' 0 4).toNat),
      [.barvArrive, .barvWithdraw, .barvJoin, .barvBind, .barvUnbind, .barvRearm, .barvAbandon])
  | .grpgenRead => some ((do return ((← rdS (← regD)).v.extractLsb' 0 4).toNat),
      [.grpgenRead, .grpgenBind, .grpgenDissolve, .grpgenWithdraw, .grpgenReshape, .grpgenCatch, .grpgenDrop])
  | .bkarmArm => some ((do
      discard (rdS (← regA))
      return ((← rdS (← regB)).v.extractLsb' 0 2).toNat), [.bkarmArm, .bkarmDisarm, .bkarmRemove])
  | _ => none

/-- The instruction that the word at hand stands for. -/
def refine (i : Instr) (s : State) : Instr :=
  match opsOf i with
  | none => i
  | some (read, l) =>
    match read s with
    | .ok n _ => l.getD n i
    | .error _ _ => i

/-! ## Engines -/

/-- What a unit does in a step: nothing further (the state is given), or an instruction, after which the unit stops when
its core is stopping. -/
inductive Todo where
  | done (s : State)
  | run (i : Instr) (s : State) (stop : Bool)
  | absent

/-- Least position of the five engines (R127). -/
def Core.slowest (k : Core) : Nat := engines.foldl (fun m e => Nat.min m (k.eng e).pos) k.engS.pos

/-- Whether the slip window lets an engine pass another word (R127, R128); it does not hold S in the monitor. DESIGN CHOICE (notes/assumptions/20.md). -/
def Core.slips (k : Core) (e : Engine) : Bool := k.mon || decide ((k.eng e).pos < k.slowest + k.slip.toNat)

/-- Whether an engine of a core acts at all (R120, R122). -/
def Core.acts (k : Core) (e : Engine) : Bool :=
  (k.mode == .running || k.mode == .stopping || (k.mode == .monitor && e == .S)) && !k.held && !(k.eng e).stopped && !(k.eng e).ended

/-- Whether a word is for an engine: its own tag, a B word, and for S the reserved tags (R62, R64). DEDUCED (notes/assumptions/13.md). -/
def isFor (w : Word32) (e : Engine) : Bool :=
  match engineOfTag (tagOf w) with
  | some x => x == e
  | none => (tagOf w).toNat == 7 || e == .S

/-- An engine of a core stops. -/
def State.halt (s : State) (c : Nat) (e : Engine) : State :=
  s.onCore c (fun k => k.setEng e { (k.eng e) with stopped := true, ringDone := false, resv := (k.eng e).resv.filter (fun r => r.slot ≠ (k.eng e).slot) })

/-- A core that a stop of its gang can still reach. -/
def Core.reachable (k : Core) : Bool :=
  !k.stopReq && (k.mode == .running || k.mode == .monitor || k.mode == .saving || k.mode == .stopping)

/-- The stop of a gang, or the monitor that another of its cores is in, reaches a core after an open time (R100, R120,
R122). DEDUCED (notes/assumptions/23.md). -/
def State.reachStop (s : State) (c : Nat) : State :=
  let k := s.core c
  match k.gang.bind s.gang with
  | none => s
  | some g =>
    if g.state = .stopping && k.reachable then
      if Config.freeBit s.freeCtr then s.bumpFree.onCore c Core.beginStop else s.bumpFree
    else if g.state = .monitor && k.mode == .running && !k.held && !k.stopReq then
      if Config.freeBit s.freeCtr then s.bumpFree.onCore c (fun k => { k with held := true }) else s.bumpFree
    else s

/-- An engine's turn (R62 to R64, R126): it stops, passes a foreign word, or executes one. In a core that is stopping, the
word in flight may still complete (R100). DEDUCED (notes/assumptions/6.md). DEDUCED (notes/assumptions/76.md). -/
def fetchEngine (s : State) (c : Nat) (e : Engine) : Todo :=
  if 96 ≤ c then .absent
  else if s.dstate == .safe then .done s
  else if !((s.reachStop c).core c).acts e then .done (s.reachStop c)
  else
    let s := s.reachStop c
    let k := s.core c
    let stop := k.stopReq
    let go := !stop || Config.freeBit s.freeCtr
    let s := if stop then s.bumpFree else s
    if !go then .done (s.halt c e)
    else
      let t := k.eng e
      let s := { s with cur := { core := c, eng := e } }
      if 65536 ≤ t.pc.toNat then .done (s.takeTrap c e cILLEGAL 65535)
      else if !k.slips e then .done (if stop then s.halt c e else s)
      else
        let w := k.word t.pc.toNat
        if isFor w e then
          let s := { s with cur := { core := c, eng := e, word := w } }
          .run (refine (decodeWord w) s) s stop
        else .done (if stop then (s.onCore c (·.passWords e 1)).halt c e else s.onCore c (·.passWords e 1))

/-! ## Channel engines, Caddies and events -/

/-- A channel engine's turn: the next word of its run. DEDUCED (notes/assumptions/6.md). DEDUCED (notes/assumptions/76.md). -/
def fetchCe (s : State) (g upset : Nat) : Todo :=
  if 384 ≤ g then .absent
  else
    match (s.ce g).run with
    | none => .done s
    | some r =>
      match (lookup r.launch s.launches).bind (fun l => l.words[r.pc]?) with
      | none => .done s
      | some w =>
        match decodeCe w with
        | none => .done s
        | some x => if s.dstate == .safe then .done s else .run (.ceWord x) { s with cur := { ce := g, args := { n := [upset] } } } false

/-- A Caddie slot's turn: the next rule of its walk. -/
def fetchRule (s : State) (stack slot early : Nat) : Todo :=
  if 12 ≤ stack || caddieSlots ≤ slot then .absent
  else
    let s1 := { s with cur := { stack := stack, slot := slot, args := { n := [0, early] } } }
    match s1.walkHere with
    | none => .done s
    | some (_, w) =>
      match (w.rules[w.pc]?).bind decodeRule with
      | none => .done s
      | some i => if s.dstate == .safe then .done s else .run i { s1 with cur := { s1.cur with word := w.rules.getD w.pc 0 } } false

/-- The rows of the table that are events: no word carries them. -/
def isEvent (i : Instr) : Bool :=
  match i with
  | .illegalWord => false
  | i => (encode Ring.zero i.wordForm).isNone

/-- The sector at an address of local memory comes to hold an uncorrectable error (R488). -/
def State.spoil (s : State) (pa : Nat) : State :=
  if pa < 12 * stackSpan ∨ (inTier pa ∧ s.offered (pa / 64 * 64) 64) then { s with uncorr := pa / 64 :: s.uncorr.filter (· ≠ pa / 64) } else s

/-- The turn that an action gives. -/
def fetchAction (s : State) (a : Action) : Todo :=
  match a with
  | .engine c e => fetchEngine s c e
  | .ce g upset => fetchCe s g upset
  | .caddie st sl early => fetchRule s st sl early
  | .event i args => if isEvent i then .run i { s with cur := { args := args } } false else .done s
  | .upset pa => .done (s.spoil pa)

/-- The next action: the agenda's first, or a free choice (notes/assumptions/1.md). -/
def fetch (s : State) : Todo :=
  match s.agenda with
  | a :: r => fetchAction { s with agenda := r } a
  | [] => fetchAction { s with ticks := s.ticks + 1 } (Config.schedule s.ticks)

/-- What follows an instruction: a unit that was stopping stops. -/
def State.afterWord (s : State) (stop : Bool) : State := if stop then s.halt s.cur.core s.cur.eng else s

/-! ## Placing a word where the next step fetches it -/

/-- An engine ready to execute at its PC, with `w` there. DESIGN CHOICE (notes/assumptions/4.md). -/
def State.placeCore (s : State) (w : Word32) : State :=
  let e := (engineOfTag (tagOf w)).getD .S
  let k := s.core 0
  let t := k.eng e
  let pc := if 65536 ≤ t.pc.toNat then 65535#17 else t.pc
  let k := { (k.setEng e { t with pc := pc, stopped := false, ended := false, pos := k.slowest }) with
             mode := .running, mon := false, held := false, stopReq := false, text := sset 0 pc.toNat w k.text, slip := if k.slip = 0 then 1024 else k.slip }
  { (s.setCore 0 k) with
    agenda := .engine 0 e :: s.agenda, dstate := .ready
    gangs := s.gangs.map (fun g => if some g.1 = k.gang && (g.2.state == .stopping || g.2.state == .monitor) then (g.1, { g.2 with state := .running }) else g) }

/-- A run at the first channel engine, with `w` at its PC. -/
def State.placeCe (s : State) (w : BitVec 64) : State :=
  let id := s.launchNext
  let l : Launch := { (default : Launch) with words := [w] }
  { (s.setCe 0 { s.ce 0 with run := some { launch := id, chunk := 0 } }) with
    launches := assign id l s.launches, launchNext := id + 1, agenda := .ce 0 0 :: s.agenda, dstate := .ready }

/-- A walk in the first slot of the first Caddie, with `w` its first rule. -/
def State.placeRule (s : State) (w : Word32) : State :=
  let id := s.walkNext
  let x : Walk := { (default : Walk) with st := .walking, begun := true, stack := 0, slot := 0, rules := [w] }
  { s with walks := (id, x) :: s.walks.filter (fun y => !(y.2.st == .walking && y.2.stack == 0 && y.2.slot == 0)), walkNext := id + 1,
           agenda := .caddie 0 0 0 :: s.agenda, dstate := .ready }

end Sys2Proof.Machine
end

