-- ==== Sys2Proof/Machine/ScalarFp.lean ====
section
/-!
DEFINITION. S fp32 arithmetic, comparison and conversion (R170 to R172), CHK and ARG (R176, R178).
-/
namespace Sys2Proof.Machine

/-- The fp32 in the low half of a register. -/
def low32 (r : Reg) : FP := f32 (r.v.setWidth 32)

/-- The fp32 code that FMIN32 and FMAX32 deliver: an operand's own bits, or the canonical NaN when both are NaN. -/
def pickF32 (x : FP) : BitVec 32 := (roundF32 x).code

/-- Writes an fp32 result, zero above, with its flags in FSTAT.S (R170). -/
def wrF32 (d : BitVec 6) (r : F32R) (p : Bool) (bound : Nat) : W Unit := do
  addFlags (if p then {} else r.f)
  wrS d { v := r.v.setWidth 64, p := p } bound

/-- sd := round(fp32, g sa sb, RNE). -/
def fpBin (g : FP → FP → Val) (bound : Nat) (d a b : BitVec 6) : W Unit := do
  let x ← rdS a
  let y ← rdS b
  wrF32 d (g (low32 x) (low32 y)).toF32 (x.p || y.p) bound

def execFadd32 (d a b : BitVec 6) (s : State) : Host.Outcome State Fault Refusal := plain (fpBin FP.add 4 d a b) s
def execFsub32 (d a b : BitVec 6) (s : State) : Host.Outcome State Fault Refusal := plain (fpBin FP.sub 4 d a b) s
def execFmul32 (d a b : BitVec 6) (s : State) : Host.Outcome State Fault Refusal := plain (fpBin FP.mul 4 d a b) s
/-- FFMA32 reads sd as its addend; one rounding. -/
def ffmaBody (d a b : BitVec 6) : W Unit := do
  let x ← rdS a
  let y ← rdS b
  let z ← rdS d
  wrF32 d (FP.fma (low32 x) (low32 y) (low32 z)).toF32 (x.p || y.p || z.p) 4
def execFfma32 (d a b : BitVec 6) (s : State) : Host.Outcome State Fault Refusal := plain (ffmaBody d a b) s

/-- A correctly rounded function of Table 6.3. -/
def wrFunc (d : BitVec 6) (r : Res × Flags) (p : Bool) : W Unit := do
  let c := roundSpecial 0 false .rne {} r
  wrF32 d { v := BitVec.ofNat 32 c.code, f := c.f } p 12
def execFdiv32 (d a b : BitVec 6) (s : State) : Host.Outcome State Fault Refusal :=
  plain (do let x ← rdS a; let y ← rdS b; wrFunc d (FP.div (low32 x) (low32 y)) (x.p || y.p)) s
def execFsqrt32 (d a : BitVec 6) (s : State) : Host.Outcome State Fault Refusal :=
  plain (do let x ← rdS a; wrFunc d (FP.sqrt (low32 x)) x.p) s

/-- FMIN32 and FMAX32 (R171): no flag. -/
def fpPick (g : FP → FP → FP) (d a b : BitVec 6) : W Unit := do
  let x ← rdS a
  let y ← rdS b
  wrS d { v := (pickF32 (g (low32 x) (low32 y))).setWidth 64, p := x.p || y.p } 2
def execFmin32 (d a b : BitVec 6) (s : State) : Host.Outcome State Fault Refusal := plain (fpPick FP.minNum d a b) s
def execFmax32 (d a b : BitVec 6) (s : State) : Host.Outcome State Fault Refusal := plain (fpPick FP.maxNum d a b) s

/-- The code of FCMP32 (R171). -/
def fcmpCode (x y : FP) : BitVec 64 :=
  match FP.cmp x y with
  | some .lt => 1
  | some .eq => 2
  | some .gt => 4
  | none => 8
def execFcmp32 (d a b : BitVec 6) (s : State) : Host.Outcome State Fault Refusal :=
  plain (do let x ← rdS a; let y ← rdS b; wrS d { v := fcmpCode (low32 x) (low32 y), p := x.p || y.p } 2) s

/-- The conversions of Table 6.4: result bits and flags, or none where the selector is illegal. -/
def fcvt (conv : Nat) (mode : Mode) (v : BitVec 64) : Option (BitVec 64 × Flags) :=
  let x := f32 (v.setWidth 32)
  let toInt := fun (lo hi : Int) =>
    match x with
    | .nan => ((0 : Int), ({ nv := true } : Flags))
    | .inf n => (if n then lo else hi, { nv := true })
    | .fin n m e => roundInt lo hi mode {} n { man := m, exp := e }
  let toF := fun (fmt : Nat) (sat : Bool) (y : FP) =>
    let c := roundTo fmt sat sat mode {} y
    some (BitVec.ofNat 64 c.code, c.f)
  match conv with
  | 0 => let r := toInt (-2 ^ 63) (2 ^ 63 - 1); some (BitVec.ofInt 64 r.1, r.2)
  | 1 => let r := toInt 0 (2 ^ 64 - 1); some (BitVec.ofInt 64 r.1, r.2)
  | 2 => toF 0 false (FP.ofInt v.toInt)
  | 3 => toF 0 false (FP.ofInt v.toNat)
  | 4 => toF 1 false x
  | 5 => toF 0 false (decodeElem 1 (v.toNat % 2 ^ 16))
  | 6 => toF 2 false x
  | 7 => toF 0 false (decodeElem 2 (v.toNat % 2 ^ 16))
  | 8 => toF 3 true x
  | 9 => toF 4 true x
  | _ => none

/-- FCVT (R172): mode SR, a nonzero mode with an exact conversion, and a selector above 63 are ILLEGAL. -/
def fcvtBody (d a imm : BitVec 6) : W Unit := do
  let sel ← immU imm
  let mode := Mode.ofCode (BitVec.ofNat 2 sel)
  let conv := sel / 4
  if 63 < sel || mode == .sr || (sel % 4 != 0 && (conv == 5 || conv == 7)) then illegal
  let x ← rdS a
  match fcvt conv mode x.v with
  | none => illegal
  | some (v, f) =>
    addFlags (if x.p then {} else f)
    wrS d { v := v, p := x.p } 4
def execFcvt (d a imm : BitVec 6) (s : State) : Host.Outcome State Fault Refusal := withImm (fcvtBody d a imm) s

/-- CHK (R176): POISON with DETAIL 0. -/
def execChk (a : BitVec 6) (s : State) : Host.Outcome State Fault Refusal := plain (do clean (← rdS a) 0) s

/-- ARG (R178): ALIGN when the offset is no multiple of 8, WINDOW past the window. -/
def argBody (d : BitVec 6) (imm : BitVec 12) : W Unit := do
  let off ← immU imm
  let k ← getC
  if 4095 < off then illegal
  need (off % 8 == 0) cALIGN (BitVec.ofNat 64 off)
  need (decide (off + 8 ≤ k.winLen)) cWINDOW (BitVec.ofNat 64 off)
  wrS d { v := k.win.get64 off } 4
def execArg (d : BitVec 6) (imm : BitVec 12) (s : State) : Host.Outcome State Fault Refusal := withImm (argBody d imm) s

end Sys2Proof.Machine
end

