-- ==== Sys2Proof/Machine/ScalarInt.lean ====
section
/-!
DEFINITION. S integer and flag instructions (R166 to R169) and A, X, V and M scalar arithmetic (R181, R249, R271, R232).
-/
namespace Sys2Proof.Machine

/-! ## Shared forms -/

/-- Poison of a result: any contributing operand's (R139). -/
def bin (g : BitVec 64 → BitVec 64 → BitVec 64) (a b : Reg) : Reg := { v := g a.v b.v, p := a.p || b.p }

/-- sd := g sa sb within a bound. -/
def sBin (g : BitVec 64 → BitVec 64 → BitVec 64) (bound : Nat) (d a b : BitVec 6) : W Unit := do
  let x ← rdS a
  let y ← rdS b
  wrS d (bin g x y) bound

/-- sd := g sa within a bound. -/
def sUn (g : BitVec 64 → BitVec 64) (bound : Nat) (d a : BitVec 6) : W Unit := do
  let x ← rdS a
  wrS d { v := g x.v, p := x.p } bound

/-- sd := g sa imm, the immediate sign-extended. -/
def sImmS (g : BitVec 64 → BitVec 64 → BitVec 64) (d a : BitVec 6) (imm : BitVec 6) : W Unit := do
  let i ← immS imm
  let x ← rdS a
  wrS d { v := g x.v i, p := x.p } 1

/-- sd := g sa imm, the immediate zero-extended. -/
def sImmU (g : BitVec 64 → BitVec 64 → BitVec 64) (d a : BitVec 6) (imm : BitVec 6) : W Unit := do
  let i ← immU imm
  let x ← rdS a
  wrS d { v := g x.v (BitVec.ofNat 64 i), p := x.p } 1

/-- sd := sa shifted by an immediate of 0 to 63; a larger composed amount is ILLEGAL (R68). -/
def sShiftI (g : BitVec 64 → Nat → BitVec 64) (d a : BitVec 6) (imm : BitVec 6) : W Unit := do
  let i ← immU imm
  if 63 < i then illegal
  let x ← rdS a
  wrS d { v := g x.v i, p := x.p } 1

/-- fd := g sa sb. -/
def sCmp (g : BitVec 64 → BitVec 64 → Bool) (d : BitVec 3) (a b : BitVec 6) : W Unit := do
  let x ← rdS a
  let y ← rdS b
  wrF d { v := g x.v y.v, p := x.p || y.p } 1

/-! ## Integer functions (R166, R167) -/

/-- Leading zero bits, 0 to 64. -/
def clz64 (x : BitVec 64) : BitVec 64 := BitVec.ofNat 64 (64 - bitLen x.toNat)
/-- Set bits among the low `n`. -/
def popcount (x : Nat) : Nat → Nat
  | 0 => 0
  | n + 1 => x % 2 + popcount (x / 2) n
def popc64 (x : BitVec 64) : BitVec 64 := BitVec.ofNat 64 (popcount x.toNat 64)
/-- Bits [127:64] of the signed product. -/
def mulhS (a b : BitVec 64) : BitVec 64 := ((a.signExtend 128) * (b.signExtend 128)).extractLsb' 64 64
/-- Bits [127:64] of the unsigned product. -/
def mulhU (a b : BitVec 64) : BitVec 64 := ((a.setWidth 128) * (b.setWidth 128)).extractLsb' 64 64
/-- R167, signed: the quotient of -2^63 by -1 wraps to -2^63. -/
def divS (a b : BitVec 64) : BitVec 64 := if b = 0 then BitVec.allOnes 64 else BitVec.ofInt 64 (a.toInt.tdiv b.toInt)
def divU (a b : BitVec 64) : BitVec 64 := if b = 0 then BitVec.allOnes 64 else BitVec.ofNat 64 (a.toNat / b.toNat)
def remS (a b : BitVec 64) : BitVec 64 := if b = 0 then a else BitVec.ofInt 64 (a.toInt.tmod b.toInt)
def remU (a b : BitVec 64) : BitVec 64 := if b = 0 then a else BitVec.ofNat 64 (a.toNat % b.toNat)
/-- A shift amount in a register: bits [5:0]. -/
def amt (b : BitVec 64) : Nat := b.toNat % 64
def minS (a b : BitVec 64) : BitVec 64 := if a.slt b then a else b
def maxS (a b : BitVec 64) : BitVec 64 := if a.slt b then b else a
def minU (a b : BitVec 64) : BitVec 64 := if a.ult b then a else b
def maxU (a b : BitVec 64) : BitVec 64 := if a.ult b then b else a

/-! ## S integer instructions (Table 6.1) -/

def execAdd (d a b : BitVec 6) (s : State) : Host.Outcome State Fault Refusal := plain (sBin (fun x y => x + y) 1 d a b) s
def execSub (d a b : BitVec 6) (s : State) : Host.Outcome State Fault Refusal := plain (sBin (fun x y => x - y) 1 d a b) s
def execMul (d a b : BitVec 6) (s : State) : Host.Outcome State Fault Refusal := plain (sBin (fun x y => x * y) 3 d a b) s
def execMulh (d a b : BitVec 6) (s : State) : Host.Outcome State Fault Refusal := plain (sBin (mulhS) 3 d a b) s
def execMulhn (d a b : BitVec 6) (s : State) : Host.Outcome State Fault Refusal := plain (sBin (mulhU) 3 d a b) s
def execDiv (d a b : BitVec 6) (s : State) : Host.Outcome State Fault Refusal := plain (sBin (divS) 20 d a b) s
def execDivn (d a b : BitVec 6) (s : State) : Host.Outcome State Fault Refusal := plain (sBin (divU) 20 d a b) s
def execRem (d a b : BitVec 6) (s : State) : Host.Outcome State Fault Refusal := plain (sBin (remS) 20 d a b) s
def execRemn (d a b : BitVec 6) (s : State) : Host.Outcome State Fault Refusal := plain (sBin (remU) 20 d a b) s
def execAnd (d a b : BitVec 6) (s : State) : Host.Outcome State Fault Refusal := plain (sBin (fun x y => x &&& y) 1 d a b) s
def execOr (d a b : BitVec 6) (s : State) : Host.Outcome State Fault Refusal := plain (sBin (fun x y => x ||| y) 1 d a b) s
def execXor (d a b : BitVec 6) (s : State) : Host.Outcome State Fault Refusal := plain (sBin (fun x y => x ^^^ y) 1 d a b) s
def execShl (d a b : BitVec 6) (s : State) : Host.Outcome State Fault Refusal := plain (sBin (fun x y => x <<< amt y) 1 d a b) s
def execShr (d a b : BitVec 6) (s : State) : Host.Outcome State Fault Refusal := plain (sBin (fun x y => x >>> amt y) 1 d a b) s
def execSra (d a b : BitVec 6) (s : State) : Host.Outcome State Fault Refusal := plain (sBin (fun x y => x.sshiftRight (amt y)) 1 d a b) s
def execMin (d a b : BitVec 6) (s : State) : Host.Outcome State Fault Refusal := plain (sBin (minS) 1 d a b) s
def execMax (d a b : BitVec 6) (s : State) : Host.Outcome State Fault Refusal := plain (sBin (maxS) 1 d a b) s
def execMinn (d a b : BitVec 6) (s : State) : Host.Outcome State Fault Refusal := plain (sBin (minU) 1 d a b) s
def execMaxn (d a b : BitVec 6) (s : State) : Host.Outcome State Fault Refusal := plain (sBin (maxU) 1 d a b) s
def execClz (d a : BitVec 6) (s : State) : Host.Outcome State Fault Refusal := plain (sUn clz64 2 d a) s
def execPopc (d a : BitVec 6) (s : State) : Host.Outcome State Fault Refusal := plain (sUn popc64 2 d a) s
def execAddi (d a imm : BitVec 6) (s : State) : Host.Outcome State Fault Refusal := withImm (sImmS (fun x y => x + y) d a imm) s
def execAndi (d a imm : BitVec 6) (s : State) : Host.Outcome State Fault Refusal := withImm (sImmU (fun x y => x &&& y) d a imm) s
def execOri (d a imm : BitVec 6) (s : State) : Host.Outcome State Fault Refusal := withImm (sImmU (fun x y => x ||| y) d a imm) s
def execXori (d a imm : BitVec 6) (s : State) : Host.Outcome State Fault Refusal := withImm (sImmU (fun x y => x ^^^ y) d a imm) s
def execShli (d a imm : BitVec 6) (s : State) : Host.Outcome State Fault Refusal := withImm (sShiftI (fun x i => x <<< i) d a imm) s
def execShri (d a imm : BitVec 6) (s : State) : Host.Outcome State Fault Refusal := withImm (sShiftI (fun x i => x >>> i) d a imm) s
def execSrai (d a imm : BitVec 6) (s : State) : Host.Outcome State Fault Refusal := withImm (sShiftI (fun x i => x.sshiftRight i) d a imm) s
def execLdi (d : BitVec 6) (imm : BitVec 12) (s : State) : Host.Outcome State Fault Refusal := withImm (do wrS d { v := ← immS imm } 1) s

/-! ## S flags (Table 6.2) -/

def execCeq (d : BitVec 3) (a b : BitVec 6) (s : State) : Host.Outcome State Fault Refusal := plain (sCmp (fun x y => x == y) d a b) s
def execCne (d : BitVec 3) (a b : BitVec 6) (s : State) : Host.Outcome State Fault Refusal := plain (sCmp (fun x y => x != y) d a b) s
def execClt (d : BitVec 3) (a b : BitVec 6) (s : State) : Host.Outcome State Fault Refusal := plain (sCmp (fun x y => x.slt y) d a b) s
def execCle (d : BitVec 3) (a b : BitVec 6) (s : State) : Host.Outcome State Fault Refusal := plain (sCmp (fun x y => x.sle y) d a b) s
def execCltn (d : BitVec 3) (a b : BitVec 6) (s : State) : Host.Outcome State Fault Refusal := plain (sCmp (fun x y => x.ult y) d a b) s
def execClen (d : BitVec 3) (a b : BitVec 6) (s : State) : Host.Outcome State Fault Refusal := plain (sCmp (fun x y => x.ule y) d a b) s

/-- fd := g fa fb. -/
def fBin (g : Bool → Bool → Bool) (d a b : BitVec 3) : W Unit := do
  let x ← rdF a
  let y ← rdF b
  wrF d { v := g x.v y.v, p := x.p || y.p } 1
def execFand (d a b : BitVec 3) (s : State) : Host.Outcome State Fault Refusal := plain (fBin (fun x y => x && y) d a b) s
def execForF (d a b : BitVec 3) (s : State) : Host.Outcome State Fault Refusal := plain (fBin (fun x y => x || y) d a b) s
def execFnot (d a : BitVec 3) (s : State) : Host.Outcome State Fault Refusal :=
  plain (do let x ← rdF a; wrF d { v := !x.v, p := x.p } 1) s

/-- CMOV (R169): a true flag moves sa and its tag; the flag's own tag poisons sd in both cases. -/
def cmovBody (d a : BitVec 6) (b : BitVec 3) : W Unit := do
  let f ← rdF b
  if f.v then
    let x ← rdS a
    wrS d { v := x.v, p := x.p || f.p } 1
  else if f.p then
    let x ← rdS d
    wrS d { v := x.v, p := true } 1
def execCmov (d a : BitVec 6) (b : BitVec 3) (s : State) : Host.Outcome State Fault Refusal := plain (cmovBody d a b) s
def execFtos (d : BitVec 6) (a : BitVec 3) (s : State) : Host.Outcome State Fault Refusal :=
  plain (do let x ← rdF a; wrS d { v := if x.v then 1 else 0, p := x.p } 1) s

/-! ## A address arithmetic (R181) -/

def aBin (g : BitVec 64 → BitVec 64 → BitVec 64) (bound : Nat) (d a b : BitVec 5) : W Unit := do
  let x ← rdA a
  let y ← rdA b
  wrA d (bin g x y) bound
def execAadd (d a b : BitVec 5) (s : State) : Host.Outcome State Fault Refusal := plain (aBin (fun x y => x + y) 1 d a b) s
def execAsub (d a b : BitVec 5) (s : State) : Host.Outcome State Fault Refusal := plain (aBin (fun x y => x - y) 1 d a b) s
def execAmul (d a b : BitVec 5) (s : State) : Host.Outcome State Fault Refusal := plain (aBin (fun x y => x * y) 3 d a b) s
def execAand (d a b : BitVec 5) (s : State) : Host.Outcome State Fault Refusal := plain (aBin (fun x y => x &&& y) 1 d a b) s
def execAor (d a b : BitVec 5) (s : State) : Host.Outcome State Fault Refusal := plain (aBin (fun x y => x ||| y) 1 d a b) s
def execAshl (d a b : BitVec 5) (s : State) : Host.Outcome State Fault Refusal := plain (aBin (fun x y => x <<< amt y) 1 d a b) s
def execAshr (d a b : BitVec 5) (s : State) : Host.Outcome State Fault Refusal := plain (aBin (fun x y => x.sshiftRight (amt y)) 1 d a b) s
def execAmin (d a b : BitVec 5) (s : State) : Host.Outcome State Fault Refusal := plain (aBin (minS) 1 d a b) s
def execAmax (d a b : BitVec 5) (s : State) : Host.Outcome State Fault Refusal := plain (aBin (maxS) 1 d a b) s
def execAaddi (d a : BitVec 5) (imm : BitVec 6) (s : State) : Host.Outcome State Fault Refusal :=
  withImm (do let i ← immS imm; let x ← rdA a; wrA d { v := x.v + i, p := x.p } 1) s
def execAldi (d : BitVec 5) (imm : BitVec 12) (s : State) : Host.Outcome State Fault Refusal :=
  withImm (do wrA d { v := ← immS imm } 1) s

/-! ## X, k and h arithmetic (R271, R232, R249) -/

def execXadd (d a b : BitVec 4) (s : State) : Host.Outcome State Fault Refusal :=
  plain (do let x ← rdX a; let y ← rdX b; wrX d (bin (fun x y => x + y) x y) 1) s
def execXaddi (d a : BitVec 4) (imm : BitVec 6) (s : State) : Host.Outcome State Fault Refusal :=
  withImm (do let i ← immS imm; let x ← rdX a; wrX d { v := x.v + i, p := x.p } 1) s
def execXldi (d : BitVec 4) (imm : BitVec 12) (s : State) : Host.Outcome State Fault Refusal :=
  withImm (do wrX d { v := ← immS imm } 1) s
def execKadd (d a b : BitVec 4) (s : State) : Host.Outcome State Fault Refusal :=
  plain (do let x ← rdK a; let y ← rdK b; wrK d (bin (fun x y => x + y) x y) 1) s
def execKaddi (d a : BitVec 4) (imm : BitVec 6) (s : State) : Host.Outcome State Fault Refusal :=
  withImm (do let i ← immS imm; let x ← rdK a; wrK d { v := x.v + i, p := x.p } 1) s
def execKldi (d : BitVec 4) (imm : BitVec 12) (s : State) : Host.Outcome State Fault Refusal :=
  withImm (do wrK d { v := ← immS imm } 1) s
def execKmov (d a : BitVec 4) (s : State) : Host.Outcome State Fault Refusal := plain (do wrK d (← rdK a) 1) s
def execMhadd (d a b : BitVec 3) (s : State) : Host.Outcome State Fault Refusal :=
  plain (do let x ← rdH a; let y ← rdH b; wrH d (bin (fun x y => x + y) x y) 1) s

end Sys2Proof.Machine
end

