-- ==== Sys2Proof/Machine/Vector.lean ====
section
/-!
DEFINITION. V instructions (R208 to R233).
-/
namespace Sys2Proof.Machine

/-! ## Configuration and stochastic-rounding state -/

/-- VCFG (R208). With FTS the type and rounding are taken from the entry as it stands. -/
def vcfgBody (imm : BitVec 17) : W Unit := do
  let (v, w) := (fun (p : Nat × Nat) => p) (composeImm (← getE).ext 18 imm.toNat)
  if 18 < w && 2 ^ 18 ≤ v then illegal
  let typ := imm.extractLsb' 0 4
  let rnd := imm.extractLsb' 4 2
  let fts := imm.getLsbD 7
  let ftsel := imm.extractLsb' 8 5
  if fts then
    if typ ≠ 0 || rnd ≠ 0 then illegal
    let e ← ftSeen ftsel
    let o := e.extractLsb' 12 4
    if !isVecType o.toNat then illegal
    let rest : BitVec 17 := imm &&& 0x1E040#17
    modC (fun k => { k with vcfg := rest ||| o.setWidth 17 ||| ((e.extractLsb' 16 2).setWidth 17 <<< 4) })
  else
    if ftsel ≠ 0 || !isVecType typ.toNat then illegal
    modC (fun k => { k with vcfg := imm })
def execVcfg (imm : BitVec 17) (s : State) : Host.Outcome State Fault Refusal := withImm (vcfgBody imm) s

/-- VSRND (R213). -/
def vsrndBody (d a b : BitVec 4) : W Unit := do
  let x ← rdK d
  let y ← rdK a
  let z ← rdK b
  clean x (d.setWidth 64)
  clean y (a.setWidth 64)
  clean z (b.setWidth 64)
  modC (fun k => { k with seed := x.v, step := y.v, idx := z.v })
def execVsrnd (d a b : BitVec 4) (s : State) : Host.Outcome State Fault Refusal := plain (vsrndBody d a b) s

/-! ## The mould of R215 -/

/-- The governing mask, read when the word issues (R210). -/
def rdMask (g : VCfg) : W MaskReg := rdM g.mask

/-- Result elements: `f i` gives an active element's code, tag and flags, inactive ones follow R210. A mask bit's own
tag reaches the element it governs. -/
def mould (g : VCfg) (m : MaskReg) (d : VDst) (old : Elems) (f : Nat → Nat × Bool × Flags) : VecReg × Flags :=
  let rs := (List.range g.n).map (fun i =>
    if m.v.getLsbD i then
      (let r := f i; let p := r.2.1 || m.p.getLsbD i
       ((r.1, p), if p then ({} : Flags) else r.2.2))
    else (let o := inactive g d old i; ((o.1, o.2 || m.p.getLsbD i), ({} : Flags))))
  (vecOf g.w (rs.map (·.1)), orFlags (rs.map (·.2)))

/-- A word of one result register whose elements come from those of its sources. -/
def vecWord (srcs : List VSrc) (d : VDst) (rounds : Bool) (bound : Nat)
    (f : VCfg → Core → List Elems → Nat → Nat × Bool × Flags) : W Unit := do
  let g := (← getC).cfg
  needSrcs srcs
  needDst d 1
  let m ← rdMask g
  let es ← srcs.mapM (rdSrc g.w)
  let old ← oldElems g.w d
  let k ← getC
  let r := mould g m d old (f g k es)
  addFlags r.2
  wrDst d r.1 bound
  if rounds then bumpIdx g.n

/-- Element `i` of source number `j`. -/
def el (es : List Elems) (j i : Nat) : Nat × Bool := (es.getD j []).getD i (0, false)

/-- A binary element operation, tags joined (R139). -/
def vBin (a b : VSrc) (d : VDst) (rounds : Bool) (bound : Nat) (op : VCfg → SrIn → Nat → Nat → Elem) : W Unit :=
  vecWord [a, b] d rounds bound (fun g k es i =>
    let x := el es 0 i
    let y := el es 1 i
    let r := op g (k.srAt i) x.1 y.1
    (r.1, x.2 || y.2, r.2))

/-- A unary element operation. -/
def vUn (a : VSrc) (d : VDst) (rounds : Bool) (bound : Nat) (op : VCfg → SrIn → Nat → Elem) : W Unit :=
  vecWord [a] d rounds bound (fun g k es i =>
    let x := el es 0 i
    let r := op g (k.srAt i) x.1
    (r.1, x.2, r.2))

/-- A form for float types only, or for integer types only (R214). -/
def floatOnly : W Unit := do if !(← getC).cfg.isFloat then illegal
def intOnly : W Unit := do if (← getC).cfg.isFloat then illegal

def execVadd (d : VDst) (a b : VSrc) (s : State) : Host.Outcome State Fault Refusal :=
  plain (vBin a b d true 4 (fun g r x y => addElem g.fmt g.sat g.mode r x y)) s
def execVsub (d : VDst) (a b : VSrc) (s : State) : Host.Outcome State Fault Refusal :=
  plain (vBin a b d true 4 (fun g r x y => subElem g.fmt g.sat g.mode r x y)) s
def execVmul (d : VDst) (a b : VSrc) (s : State) : Host.Outcome State Fault Refusal :=
  plain (vBin a b d true 4 (fun g r x y => mulElem g.fmt g.sat g.mode r x y)) s
/-- VFMA: field d is read after b and is the addend (R211, R215). -/
def vfmaBody (d : BitVec 5) (a b : VSrc) : W Unit :=
  vecWord [a, b, .v d] (.v d) true 4 (fun g k es i =>
    let x := el es 0 i
    let y := el es 1 i
    let z := el es 2 i
    let r := fmaElem g.fmt g.sat g.mode (k.srAt i) x.1 y.1 z.1
    (r.1, x.2 || y.2 || z.2, r.2))
def execVfma (d : BitVec 5) (a b : VSrc) (s : State) : Host.Outcome State Fault Refusal := plain (vfmaBody d a b) s
def execVmin (d : VDst) (a b : VSrc) (s : State) : Host.Outcome State Fault Refusal :=
  plain (vBin a b d false 2 (fun g _ x y => minElem g.fmt x y)) s
def execVmax (d : VDst) (a b : VSrc) (s : State) : Host.Outcome State Fault Refusal :=
  plain (vBin a b d false 2 (fun g _ x y => maxElem g.fmt x y)) s
def execVabs (d : VDst) (a : VSrc) (s : State) : Host.Outcome State Fault Refusal :=
  plain (vUn a d false 2 (fun g _ x => absElem g.fmt x)) s
def execVneg (d : VDst) (a : VSrc) (s : State) : Host.Outcome State Fault Refusal :=
  plain (vUn a d false 2 (fun g _ x => negElem g.fmt x)) s
def execVdiv (d : VDst) (a b : VSrc) (s : State) : Host.Outcome State Fault Refusal :=
  plain (do floatOnly; vBin a b d true 16 (fun g r x y => divElem g.fmt g.sat g.mode r x y)) s
def execVsqrt (d : VDst) (a : VSrc) (s : State) : Host.Outcome State Fault Refusal :=
  plain (do floatOnly; vUn a d true 16 (fun g r x => funcElem FP.sqrt g.fmt g.sat g.mode r x)) s
def execVrcp (d : VDst) (a : VSrc) (s : State) : Host.Outcome State Fault Refusal :=
  plain (do floatOnly; vUn a d true 8 (fun g r x => funcElem FP.rcp g.fmt g.sat g.mode r x)) s
def execVrsq (d : VDst) (a : VSrc) (s : State) : Host.Outcome State Fault Refusal :=
  plain (do floatOnly; vUn a d true 8 (fun g r x => funcElem FP.rsqrt g.fmt g.sat g.mode r x)) s
def execVexp2 (d : VDst) (a : VSrc) (s : State) : Host.Outcome State Fault Refusal :=
  plain (do floatOnly; vUn a d true 8 (fun g r x => funcElem FP.exp2 g.fmt g.sat g.mode r x)) s
def execVlog2 (d : VDst) (a : VSrc) (s : State) : Host.Outcome State Fault Refusal :=
  plain (do floatOnly; vUn a d true 8 (fun g r x => funcElem FP.log2 g.fmt g.sat g.mode r x)) s
def execVadds (d : VDst) (a b : VSrc) (s : State) : Host.Outcome State Fault Refusal :=
  plain (do intOnly; vBin a b d false 4 (fun g _ x y => addsElem g.fmt x y)) s
def execVmulh (d : VDst) (a b : VSrc) (s : State) : Host.Outcome State Fault Refusal :=
  plain (do intOnly; vBin a b d false 4 (fun g _ x y => mulhElem g.fmt x y)) s

/-! ## Logic and shifts (R218) -/

def execVand (d : VDst) (a b : VSrc) (s : State) : Host.Outcome State Fault Refusal :=
  plain (vBin a b d false 2 (fun _ _ x y => (x &&& y, {}))) s
def execVor (d : VDst) (a b : VSrc) (s : State) : Host.Outcome State Fault Refusal :=
  plain (vBin a b d false 2 (fun _ _ x y => (x ||| y, {}))) s
def execVxor (d : VDst) (a b : VSrc) (s : State) : Host.Outcome State Fault Refusal :=
  plain (vBin a b d false 2 (fun _ _ x y => (x ^^^ y, {}))) s
def execVshl (d : VDst) (a b : VSrc) (s : State) : Host.Outcome State Fault Refusal :=
  plain (do intOnly; vBin a b d false 2 (fun g _ x y => shlElem g.fmt x y)) s
def execVshr (d : VDst) (a b : VSrc) (s : State) : Host.Outcome State Fault Refusal :=
  plain (do intOnly; vBin a b d false 2 (fun g _ x y => shrElem g.fmt x y)) s
def execVsra (d : VDst) (a b : VSrc) (s : State) : Host.Outcome State Fault Refusal :=
  plain (do intOnly; vBin a b d false 2 (fun g _ x y => sraElem g.fmt x y)) s

/-! ## Compares, selection and classes (R219, R220) -/

/-- A mask from its bits and tags. -/
def maskOf (l : List (Bool × Bool)) : MaskReg :=
  { v := BitVec.ofNat 1024 (ofElems 1 (l.map (fun b => b.1.toNat))), p := BitVec.ofNat 1024 (ofElems 1 (l.map (fun b => b.2.toNat))) }

/-- A compare into mask `d` (R219): inactive bits keep their value or become 0, bits n and above become 0. -/
def vCmp (d : BitVec 3) (a b : VSrc) (op : Nat → Nat → Nat → Bool) : W Unit := do
  let g := (← getC).cfg
  needSrcs [a, b]
  let m ← rdMask g
  let x ← rdSrc g.w a
  let y ← rdSrc g.w b
  let k ← getC
  let old : MaskReg := if d = 0 then {} else k.m[d.toFin]
  let r := maskOf ((List.range g.n).map (fun i =>
    if m.v.getLsbD i then
      (let p := x.getD i (0, false); let q := y.getD i (0, false)
       (op g.fmt p.1 q.1, p.2 || q.2 || m.p.getLsbD i))
    else if g.zero then (false, m.p.getLsbD i) else (old.v.getLsbD i, old.p.getLsbD i || m.p.getLsbD i)))
  wrM d r 2
def execVceq (d : BitVec 3) (a b : VSrc) (s : State) : Host.Outcome State Fault Refusal := plain (vCmp d a b eqElem) s
def execVcne (d : BitVec 3) (a b : VSrc) (s : State) : Host.Outcome State Fault Refusal := plain (vCmp d a b (fun f x y => !eqElem f x y)) s
def execVclt (d : BitVec 3) (a b : VSrc) (s : State) : Host.Outcome State Fault Refusal := plain (vCmp d a b ltElem) s
def execVcle (d : BitVec 3) (a b : VSrc) (s : State) : Host.Outcome State Fault Refusal := plain (vCmp d a b leElem) s

/-- VSEL (R220): every element is written; ZERO plays no part. -/
def vselBody (d : VDst) (a b : VSrc) : W Unit := do
  let g := (← getC).cfg
  needSrcs [a, b]
  needDst d 1
  let m ← rdMask g
  let x ← rdSrc g.w a
  let y ← rdSrc g.w b
  wrDst d (vecOf g.w ((List.range g.n).map (fun i =>
    let e := (if m.v.getLsbD i then x else y).getD i (0, false)
    (e.1, e.2 || m.p.getLsbD i)))) 2
def execVsel (d : VDst) (a b : VSrc) (s : State) : Host.Outcome State Fault Refusal := plain (vselBody d a b) s
def execVclass (d : VDst) (a : VSrc) (s : State) : Host.Outcome State Fault Refusal :=
  plain (do floatOnly; vUn a d false 2 (fun g _ x => (classElem g.fmt x, {}))) s

/-! ## Masks (R221) -/

def mBin (g : BitVec 1024 → BitVec 1024 → BitVec 1024) (d a b : BitVec 3) : W Unit := do
  let x ← rdM a
  let y ← rdM b
  wrM d { v := g x.v y.v, p := x.p ||| y.p } 1
def execMand (d a b : BitVec 3) (s : State) : Host.Outcome State Fault Refusal := plain (mBin (fun x y => x &&& y) d a b) s
def execMor (d a b : BitVec 3) (s : State) : Host.Outcome State Fault Refusal := plain (mBin (fun x y => x ||| y) d a b) s
def execMxor (d a b : BitVec 3) (s : State) : Host.Outcome State Fault Refusal := plain (mBin (fun x y => x ^^^ y) d a b) s
def execMnot (d a : BitVec 3) (s : State) : Host.Outcome State Fault Refusal :=
  plain (do let x ← rdM a; wrM d { v := ~~~ x.v, p := x.p } 1) s

/-- The low `n` bits of a mask. -/
def lowBits (n : Nat) (v : BitVec 1024) : Nat := v.toNat % 2 ^ n

/-- MPOP and MFIRST: a poisoned bit among the first n poisons the result. -/
def mCount (g : Nat → Nat → Nat) (d : BitVec 4) (a : BitVec 3) : W Unit := do
  let n := (← getC).cfg.n
  let x ← rdM a
  wrK d { v := BitVec.ofNat 64 (g n (lowBits n x.v)), p := lowBits n x.p != 0 } 2
def execMpop (d : BitVec 4) (a : BitVec 3) (s : State) : Host.Outcome State Fault Refusal :=
  plain (mCount (fun n v => popcount v n) d a) s
where popcount (x : Nat) : Nat → Nat
  | 0 => 0
  | n + 1 => x % 2 + popcount (x / 2) n
def execMfirst (d : BitVec 4) (a : BitVec 3) (s : State) : Host.Outcome State Fault Refusal :=
  plain (mCount (fun n v => trailZeros n v) d a) s

/-- MSET (R221): bits in the range from ka up to kb; a poisoned bound poisons every bit. -/
def msetBody (d : BitVec 3) (a b : BitVec 4) : W Unit := do
  let x ← rdK a
  let y ← rdK b
  let lo := min x.v.toNat 1024
  let hi := min y.v.toNat 1024
  wrM d { v := BitVec.ofNat 1024 (2 ^ hi - 1) &&& ~~~ (BitVec.ofNat 1024 (2 ^ lo - 1)),
          p := if x.p || y.p then BitVec.allOnes 1024 else 0 } 1
def execMset (d : BitVec 3) (a b : BitVec 4) (s : State) : Host.Outcome State Fault Refusal := plain (msetBody d a b) s

/-! ## Conversions (R222 to R225) -/

/-- The pairs VCVT admits (R223). -/
def cvtPair (src dst : Nat) : Bool :=
  (src == 0 && dst == 13) || (src == 13 && dst == 0) || (src == 1 && dst == 2) || (src == 2 && dst == 1) ||
  (src == 11 && dst == 12) || (src == 12 && dst == 11)
def vcvtBody (d : VDst) (a : VSrc) (sel : BitVec 4) : W Unit := do
  let v ← immU (sel.setWidth 6)
  if 63 < v || !cvtPair sel.toNat (← getC).cfg.fmt then illegal
  vUn a d true 4 (fun g r x => cvtElem sel.toNat g.fmt g.sat g.mode r x)
def execVcvt (d : VDst) (a : VSrc) (sel : BitVec 4) (s : State) : Host.Outcome State Fault Refusal := withImm (vcvtBody d a sel) s

/-- ρ of a wide and a narrow type, and whether VWIDEN, VNARROW and VCVTQ admit the pair (Table 7.6). -/
def pairOf (wide narrow : Nat) : Option (Nat × Bool × Bool) :=
  match wide, narrow with
  | 0, 1 => some (2, true, true)
  | 0, 2 => some (2, true, true)
  | 0, 3 => some (4, true, true)
  | 0, 4 => some (4, true, true)
  | 0, 11 => some (4, false, true)
  | 0, 12 => some (4, false, true)
  | 1, 3 => some (2, true, true)
  | 1, 4 => some (2, true, true)
  | 2, 3 => some (2, true, true)
  | 2, 4 => some (2, true, true)
  | 1, 11 => some (2, false, true)
  | 1, 12 => some (2, false, true)
  | 2, 11 => some (2, false, true)
  | 2, 12 => some (2, false, true)
  | 1, 7 => some (4, true, true)
  | 2, 7 => some (4, true, true)
  | 13, 11 => some (4, true, false)
  | 13, 12 => some (4, true, false)
  | 11, 14 => some (2, true, false)
  | _, _ => none

/-- Register `j` of a group that starts at a multiple of ρ (R222). -/
def groupReg (n : BitVec 5) (j : Nat) : BitVec 5 := n + BitVec.ofNat 5 j

/-- VWIDEN (R224): no flag, no rounding. -/
def vwidenBody (d : VDst) (a : VIn) (sel : BitVec 4) : W Unit := do
  let v ← immU (sel.setWidth 6)
  let g := (← getC).cfg
  match pairOf g.fmt sel.toNat with
  | none => illegal
  | some (rho, ok, _) =>
    if 63 < v || !ok then illegal
    match d with
    | .v n => if n.toNat % rho != 0 then illegal
    | .oq _ => pure ()
    needSrcs [a.src]
    needDst d rho
    let m ← rdMask g
    let nw := fmtBits sel.toNat
    let x ← rdSrc nw a.src
    let rs ← (List.range rho).mapM (fun j => do
      let dj : VDst := match d with
        | .v n => .v (groupReg n j)
        | .oq q => .oq q
      let old ← oldElems g.w dj
      return (dj, (mould g m dj old (fun i =>
        let e := x.getD (rho * i + j) (0, false)
        (exactCode g.fmt (decodeElem sel.toNat e.1), e.2, {}))).1))
    match d with
    | .oq q => pushOq q (rs.map (·.2))
    | .v _ => for r in rs do wrDst r.1 r.2 4
def execVwiden (d : VDst) (a : VIn) (sel : BitVec 4) (s : State) : Host.Outcome State Fault Refusal := withImm (vwidenBody d a sel) s

/-- Reads a group of ρ wide registers or entries (R222). -/
def rdGroup (w rho : Nat) (a : VIn) : W (List Elems) := do
  match a with
  | .v n => (List.range rho).mapM (fun j => do return elemsOf w (← rdV w (groupReg n j)))
  | .iq q => return (← popMany q rho).map (elemsOf w)

/-- VNARROW and VCVTQ (R225): the narrow result of a group; `scaling` reads, once the word is known to be legal (R233),
VCVTQ's scaling and clipping and whether it is poisoned. -/
def narrow (d : VDst) (a : VIn) (fmt : Nat) (ns q : Bool) (scaling : W ((FP → Val) × Bool)) : W Unit := do
  let g := (← getC).cfg
  match pairOf g.fmt fmt with
  | none => illegal
  | some (rho, okN, okQ) =>
    if !(if q then okQ else okN) then illegal
    match a with
    | .v n => if n.toNat % rho != 0 then illegal
    | .iq _ => pure ()
    match a with
    | .iq p => needIq p rho
    | .v _ => pure ()
    needDst d 1
    let (scale, kp) ← scaling
    let m ← rdMask g
    let xs ← rdGroup g.w rho a
    let nw := fmtBits fmt
    let old ← oldElems nw d
    let k ← getC
    let sat := if fmt == 1 || fmt == 2 then g.sat else !ns
    let rs := (List.range (g.n * rho)).map (fun e =>
      let i := e / rho
      if m.v.getLsbD i then
        let x := (xs.getD (e % rho) []).getD i (0, false)
        let y := scale (decodeElem g.fmt x.1)
        let c := roundTo fmt sat true g.mode (k.srAt e) y.v
        let p := x.2 || kp || m.p.getLsbD i
        ((c.code, p), if p then {} else y.f.or c.f)
      else
        let o := inactive g d old e
        ((o.1, o.2 || kp || m.p.getLsbD i), {}))
    addFlags (orFlags (rs.map (·.2)))
    wrDst d (vecOf nw (rs.map (·.1))) 4
    bumpIdx (g.n * rho)

def vnarrowBody (d : VDst) (a : VIn) (sel : BitVec 5) : W Unit := do
  let v ← immU (sel.setWidth 6)
  if 63 < v then illegal
  narrow d a (sel.toNat % 16) (sel.getLsbD 4) false (pure (fun x => { v := x }, false))
def execVnarrow (d : VDst) (a : VIn) (sel : BitVec 5) (s : State) : Host.Outcome State Fault Refusal := withImm (vnarrowBody d a sel) s

def vcvtqBody (d : VDst) (a : VIn) (sel : BitVec 6) : W Unit := do
  let v ← immU sel
  if 63 < v then illegal
  narrow d a (sel.toNat % 16) (sel.getLsbD 4) true (do
    let k15 ← rdK 15
    return (scaleClip (k15.v.setWidth 32) (k15.v.extractLsb' 32 32) (sel.getLsbD 5), k15.p))
def execVcvtq (d : VDst) (a : VIn) (sel : BitVec 6) (s : State) : Host.Outcome State Fault Refusal := withImm (vcvtqBody d a sel) s

/-! ## Moving elements (R226 to R230) -/

def execVmov (d : VDst) (a : VSrc) (s : State) : Host.Outcome State Fault Refusal :=
  plain (vUn a d false 2 (fun _ _ x => (x, {}))) s
def execVbcast (d : VDst) (a : VSrc) (s : State) : Host.Outcome State Fault Refusal :=
  plain (vecWord [a] d false 2 (fun _ _ es _ => let x := el es 0 0; (x.1, x.2, {}))) s

/-- The indexes of the active elements, ascending. -/
def actives (n : Nat) (m : MaskReg) : List Nat := (List.range n).filter (fun i => m.v.getLsbD i)

/-- Whether a mask bit below element `i` is poisoned. -/
def taintedBelow (m : MaskReg) (i : Nat) : Bool := (List.range i).any (fun j => m.p.getLsbD j)

/-- VCOMP (R227): every element is written; the mask bits that feed an element are those up to the lane it comes from. -/
def vcompBody (d : VDst) (a : VSrc) : W Unit := do
  let g := (← getC).cfg
  needSrcs [a]
  needDst d 1
  let m ← rdMask g
  let x ← rdSrc g.w a
  let act := actives g.n m
  let pm := (List.range g.n).any (fun i => m.p.getLsbD i)
  wrDst d (vecOf g.w ((List.range g.n).map (fun j =>
    match act[j]? with
    | some i => ((x.getD i (0, false)).1, (x.getD i (0, false)).2 || taintedBelow m (i + 1))
    | none => (0, pm)))) 6
def execVcomp (d : VDst) (a : VSrc) (s : State) : Host.Outcome State Fault Refusal := plain (vcompBody d a) s

/-- The count of set mask bits below element `i`. -/
def below (m : MaskReg) (i : Nat) : Nat := ((List.range i).filter (fun j => m.v.getLsbD j)).length
/-- VEXPD (R227): the mask's bits below an active element choose its source, and their tags reach it (R139). -/
def vexpdBody (d : VDst) (a : VSrc) : W Unit := do
  let g := (← getC).cfg
  needSrcs [a]
  needDst d 1
  let m ← rdMask g
  let x ← rdSrc g.w a
  let old ← oldElems g.w d
  let r := mould g m d old (fun i =>
    let v := x.getD (below m i) (0, false)
    (v.1, v.2 || taintedBelow m i, {}))
  wrDst d r.1 6
def execVexpd (d : VDst) (a : VSrc) (s : State) : Host.Outcome State Fault Refusal := plain (vexpdBody d a) s

/-- VIOTA (R227): integer types only; every element is written. -/
def viotaBody (d : VDst) : W Unit := do
  intOnly
  let g := (← getC).cfg
  needDst d 1
  let m ← rdMask g
  wrDst d (vecOf g.w ((List.range g.n).map (fun i => (below m i % 2 ^ g.w, (List.range i).any (fun j => m.p.getLsbD j))))) 4
def execViota (d : VDst) (s : State) : Host.Outcome State Fault Refusal := plain (viotaBody d) s

/-- VSLUP and VSLDN (R228): the freed element takes kb's low bits. -/
def execVslup (d : VDst) (a : VSrc) (b : BitVec 4) (s : State) : Host.Outcome State Fault Refusal :=
  plain (vecWord [a, .k b] d false 2 (fun _ _ es i => let x := if i = 0 then el es 1 0 else el es 0 (i - 1); (x.1, x.2, {}))) s
def execVsldn (d : VDst) (a : VSrc) (b : BitVec 4) (s : State) : Host.Outcome State Fault Refusal :=
  plain (vecWord [a, .k b] d false 2 (fun g _ es i => let x := if i + 1 = g.n then el es 1 0 else el es 0 (i + 1); (x.1, x.2, {}))) s

/-- VPERM (R229): an index at or above n gives +0 bits. -/
def execVperm (d : VDst) (a b : VSrc) (s : State) : Host.Outcome State Fault Refusal :=
  plain (vecWord [a, b] d false 6 (fun g _ es i =>
    let j := el es 1 i
    if j.1 < g.n then (let x := el es 0 j.1; (x.1, x.2 || j.2, {})) else (0, j.2, {}))) s

/-- VXPOSE (R230): C must be a power of two from 1 to n, else ILLEGAL with nothing popped. -/
def vxposeBody (d : VDst) (a : VSrc) (b : BitVec 4) : W Unit := do
  let g := (← getC).cfg
  let c ← rdK b
  let n := c.v.toNat
  if n = 0 || g.n < n || n != 2 ^ n.log2 then illegal
  vecWord [a] d false 6 (fun g _ es i =>
    let q := g.n / n
    let x := el es 0 ((i % q) * n + i / q)
    (x.1, x.2 || c.p, {}))
def execVxpose (d : VDst) (a : VSrc) (b : BitVec 4) (s : State) : Host.Outcome State Fault Refusal := plain (vxposeBody d a b) s

/-! ## Reductions and scan (R54, R231) -/

/-- One level of R54's pairwise tree, over values with their tags: an operation on a tagged value sets no flag (R49). -/
def pairStep (op : Nat → Nat → Elem) (l : List (Nat × Bool)) : List (Nat × Bool) × Flags :=
  let h := l.length / 2
  let ps := List.zip (l.take h) (l.drop h)
  (ps.map (fun p => ((op p.1.1 p.2.1).1, p.1.2 || p.2.2)),
    orFlags (ps.map (fun p => if p.1.2 || p.2.2 then {} else (op p.1.1 p.2.1).2)))

/-- The tree of R54 over a power of two of lanes. -/
def treeReduce (op : Nat → Nat → Elem) : Nat → List (Nat × Bool) → Flags → (Nat × Bool) × Flags
  | 0, l, f => (l.getD 0 (0, false), f)
  | fuel + 1, l, f =>
    if l.length ≤ 1 then (l.getD 0 (0, false), f)
    else let r := pairStep op l; treeReduce op fuel r.1 (f.or r.2)

/-- The running values of R54, left to right. -/
def scanLeft (op : Nat → Nat → Elem) : Nat → List Nat → List Nat × Flags
  | _, [] => ([], {})
  | acc, x :: r =>
    let y := op acc x
    let t := scanLeft op y.1 r
    (y.1 :: t.1, y.2.or t.2)

/-- The identity of an operation (R231): 0 sum, 1 maximum, 2 minimum. -/
def identityOf (fmt op : Nat) : Nat :=
  if op = 0 then 0
  else if isIntFmt fmt then intCode fmt (if op = 1 then intMin fmt else intMax fmt)
  else let h := fshape fmt; if op = 1 then 2 ^ (h.ebits + h.mbits) + h.infCode else h.infCode

/-- The element operation of a reduction. -/
def reduceOp (g : VCfg) (op : Nat) (x y : Nat) : Elem :=
  if op = 0 then addElem g.fmt g.sat g.mode {} x y
  else if op = 1 then maxElem g.fmt x y else minElem g.fmt x y

/-- VRSUM, VRMAX, VRMIN (R231): element 0 takes the result, the rest zero, whatever the mask. -/
def reduceBody (op : Nat) (d : VDst) (a : VSrc) : W Unit := do
  let g := (← getC).cfg
  if g.mode == .sr then illegal
  needSrcs [a]
  needDst d 1
  let m ← rdMask g
  let x ← rdSrc g.w a
  let lanes := (List.range g.n).map (fun i =>
    (if m.v.getLsbD i then (x.getD i (0, false)).1 else identityOf g.fmt op, (m.v.getLsbD i && (x.getD i (0, false)).2) || m.p.getLsbD i))
  let r := treeReduce (reduceOp g op) 10 lanes {}
  addFlags r.2
  wrDst d (vecOf g.w ((List.range g.n).map (fun i => if i = 0 then r.1 else (0, false)))) 12
def execVrsum (d : VDst) (a : VSrc) (s : State) : Host.Outcome State Fault Refusal := plain (reduceBody 0 d a) s
def execVrmax (d : VDst) (a : VSrc) (s : State) : Host.Outcome State Fault Refusal := plain (reduceBody 1 d a) s
def execVrmin (d : VDst) (a : VSrc) (s : State) : Host.Outcome State Fault Refusal := plain (reduceBody 2 d a) s

/-- VSCAN (R231): lane 0 as it is, then each running sum rounded. -/
def vscanBody (d : VDst) (a : VSrc) : W Unit := do
  let g := (← getC).cfg
  if g.mode == .sr then illegal
  needSrcs [a]
  needDst d 1
  let m ← rdMask g
  let x ← rdSrc g.w a
  let lanes := (List.range g.n).map (fun i => if m.v.getLsbD i then (x.getD i (0, false)).1 else 0)
  let tags := (List.range g.n).map (fun i => (m.v.getLsbD i && (x.getD i (0, false)).2) || m.p.getLsbD i)
  let first := lanes.getD 0 0
  let r := scanLeft (reduceOp g 0) first (lanes.drop 1)
  -- R49: a running sum that carries a tag sets no flag
  let untagged := (tags.takeWhile (fun t => !t)).length
  addFlags (scanLeft (reduceOp g 0) first ((lanes.drop 1).take (untagged - 1))).2
  wrDst d (vecOf g.w (List.zip (first :: r.1) (runOr false tags))) 24
where runOr : Bool → List Bool → List Bool
  | _, [] => []
  | b, t :: r => (b || t) :: runOr (b || t) r
def execVscan (d : VDst) (a : VSrc) (s : State) : Host.Outcome State Fault Refusal := plain (vscanBody d a) s

/-! ## VTOK (R232) -/

/-- kd := element kb of A, sign-extended for i8 and i32; an index at or above n gives 0. -/
def vtokBody (d : BitVec 4) (a : VIn) (b : BitVec 4) : W Unit := do
  let g := (← getC).cfg
  needSrcs [a.src]
  let x ← rdSrc g.w a.src
  let i ← rdK b
  if i.v.toNat < g.n then
    let e := x.getD i.v.toNat (0, false)
    let v := if g.fmt == 11 || g.fmt == 13 then BitVec.ofInt 64 (sintOf g.w e.1) else BitVec.ofNat 64 e.1
    wrK d { v := v, p := e.2 || i.p } 3
  else wrK d { v := 0, p := i.p } 3
def execVtok (d : BitVec 4) (a : VIn) (b : BitVec 4) (s : State) : Host.Outcome State Fault Refusal := plain (vtokBody d a b) s

end Sys2Proof.Machine
end

