-- ==== Sys2Proof/Machine/Dispatch.lean ====
section
/-!
DEFINITION. The meaning of every instruction, one arm per constructor.
-/
namespace Sys2Proof.Machine

def exec (i : Instr) (s : State) : Host.Outcome State Fault Refusal :=
  match i with
  | .ceWord w => Sys2Proof.Machine.execCeWord w s
  | .add d a b => Sys2Proof.Machine.execAdd d a b s
  | .sub d a b => Sys2Proof.Machine.execSub d a b s
  | .mul d a b => Sys2Proof.Machine.execMul d a b s
  | .mulh d a b => Sys2Proof.Machine.execMulh d a b s
  | .mulhn d a b => Sys2Proof.Machine.execMulhn d a b s
  | .div d a b => Sys2Proof.Machine.execDiv d a b s
  | .divn d a b => Sys2Proof.Machine.execDivn d a b s
  | .rem d a b => Sys2Proof.Machine.execRem d a b s
  | .remn d a b => Sys2Proof.Machine.execRemn d a b s
  | .and d a b => Sys2Proof.Machine.execAnd d a b s
  | .or d a b => Sys2Proof.Machine.execOr d a b s
  | .xor d a b => Sys2Proof.Machine.execXor d a b s
  | .shl d a b => Sys2Proof.Machine.execShl d a b s
  | .shr d a b => Sys2Proof.Machine.execShr d a b s
  | .sra d a b => Sys2Proof.Machine.execSra d a b s
  | .min d a b => Sys2Proof.Machine.execMin d a b s
  | .max d a b => Sys2Proof.Machine.execMax d a b s
  | .minn d a b => Sys2Proof.Machine.execMinn d a b s
  | .maxn d a b => Sys2Proof.Machine.execMaxn d a b s
  | .clz d a => Sys2Proof.Machine.execClz d a s
  | .popc d a => Sys2Proof.Machine.execPopc d a s
  | .addi d a imm => Sys2Proof.Machine.execAddi d a imm s
  | .andi d a imm => Sys2Proof.Machine.execAndi d a imm s
  | .ori d a imm => Sys2Proof.Machine.execOri d a imm s
  | .xori d a imm => Sys2Proof.Machine.execXori d a imm s
  | .shli d a imm => Sys2Proof.Machine.execShli d a imm s
  | .shri d a imm => Sys2Proof.Machine.execShri d a imm s
  | .srai d a imm => Sys2Proof.Machine.execSrai d a imm s
  | .ldi d imm => Sys2Proof.Machine.execLdi d imm s
  | .ceq d a b => Sys2Proof.Machine.execCeq d a b s
  | .cne d a b => Sys2Proof.Machine.execCne d a b s
  | .clt d a b => Sys2Proof.Machine.execClt d a b s
  | .cle d a b => Sys2Proof.Machine.execCle d a b s
  | .cltn d a b => Sys2Proof.Machine.execCltn d a b s
  | .clen d a b => Sys2Proof.Machine.execClen d a b s
  | .fand d a b => Sys2Proof.Machine.execFand d a b s
  | .forF d a b => Sys2Proof.Machine.execForF d a b s
  | .fnot d a => Sys2Proof.Machine.execFnot d a s
  | .cmov d a b => Sys2Proof.Machine.execCmov d a b s
  | .ftos d a => Sys2Proof.Machine.execFtos d a s
  | .fadd32 d a b => Sys2Proof.Machine.execFadd32 d a b s
  | .fsub32 d a b => Sys2Proof.Machine.execFsub32 d a b s
  | .fmul32 d a b => Sys2Proof.Machine.execFmul32 d a b s
  | .ffma32 d a b => Sys2Proof.Machine.execFfma32 d a b s
  | .fdiv32 d a b => Sys2Proof.Machine.execFdiv32 d a b s
  | .fsqrt32 d a => Sys2Proof.Machine.execFsqrt32 d a s
  | .fmin32 d a b => Sys2Proof.Machine.execFmin32 d a b s
  | .fmax32 d a b => Sys2Proof.Machine.execFmax32 d a b s
  | .fcmp32 d a b => Sys2Proof.Machine.execFcmp32 d a b s
  | .fcvt d a imm => Sys2Proof.Machine.execFcvt d a imm s
  | .gld d a imm => Sys2Proof.Machine.execGld d a imm s
  | .gst d a imm => Sys2Proof.Machine.execGst d a imm s
  | .glds d a imm => Sys2Proof.Machine.execGlds d a imm s
  | .chk a => Sys2Proof.Machine.execChk a s
  | .arg d imm => Sys2Proof.Machine.execArg d imm s
  | .gatom d a b => Sys2Proof.Machine.execGatom d a b s
  | .gcas d a b => Sys2Proof.Machine.execGcas d a b s
  | .puta a => Sys2Proof.Machine.execPuta a s
  | .putv a => Sys2Proof.Machine.execPutv a s
  | .putm a => Sys2Proof.Machine.execPutm a s
  | .putx a => Sys2Proof.Machine.execPutx a s
  | .geta d => Sys2Proof.Machine.execGeta d s
  | .getv d => Sys2Proof.Machine.execGetv d s
  | .getm d => Sys2Proof.Machine.execGetm d s
  | .getx d => Sys2Proof.Machine.execGetx d s
  | .sig sem count => Sys2Proof.Machine.execSig sem count s
  | .wait sem count => Sys2Proof.Machine.execWait sem count s
  | .semrd d imm => Sys2Proof.Machine.execSemrd d imm s
  | .fence kind scope => Sys2Proof.Machine.execFence kind scope s
  | .fpclm d a b => Sys2Proof.Machine.execFpclm d a b s
  | .fprel a => Sys2Proof.Machine.execFprel a s
  | .csrr d imm => Sys2Proof.Machine.execCsrr d imm s
  | .csrw d imm => Sys2Proof.Machine.execCsrw d imm s
  | .trap imm => Sys2Proof.Machine.execTrap imm s
  | .cycle d => Sys2Proof.Machine.execCycle d s
  | .dbg imm => Sys2Proof.Machine.execDbg imm s
  | .tlbi a b => Sys2Proof.Machine.execTlbi a b s
  | .qpush d a => Sys2Proof.Machine.execQpush d a s
  | .glaunch d a => Sys2Proof.Machine.execGlaunch d a s
  | .gtok d a => Sys2Proof.Machine.execGtok d a s
  | .gstat d a b => Sys2Proof.Machine.execGstat d a b s
  | .gcancel d a b => Sys2Proof.Machine.execGcancel d a b s
  | .barw d a b => Sys2Proof.Machine.execBarw d a b s
  | .vpin d a => Sys2Proof.Machine.execVpin d a s
  | .vunpin a => Sys2Proof.Machine.execVunpin a s
  | .bkqry d a => Sys2Proof.Machine.execBkqry d a s
  | .walk d a => Sys2Proof.Machine.execWalk d a s
  | .grprank d a => Sys2Proof.Machine.execGrprank d a s
  | .rsig a b => Sys2Proof.Machine.execRsig a b s
  | .pgqry d a => Sys2Proof.Machine.execPgqry d a s
  | .extS imm => Sys2Proof.Machine.execExtS imm s
  | .aadd d a b => Sys2Proof.Machine.execAadd d a b s
  | .asub d a b => Sys2Proof.Machine.execAsub d a b s
  | .amul d a b => Sys2Proof.Machine.execAmul d a b s
  | .aand d a b => Sys2Proof.Machine.execAand d a b s
  | .aor d a b => Sys2Proof.Machine.execAor d a b s
  | .ashl d a b => Sys2Proof.Machine.execAshl d a b s
  | .ashr d a b => Sys2Proof.Machine.execAshr d a b s
  | .aaddi d a imm => Sys2Proof.Machine.execAaddi d a imm s
  | .aldi d imm => Sys2Proof.Machine.execAldi d imm s
  | .amin d a b => Sys2Proof.Machine.execAmin d a b s
  | .amax d a b => Sys2Proof.Machine.execAmax d a b s
  | .ald d a imm => Sys2Proof.Machine.execAld d a imm s
  | .ast d a imm => Sys2Proof.Machine.execAst d a imm s
  | .aatom d a b => Sys2Proof.Machine.execAatom d a b s
  | .acas d a b => Sys2Proof.Machine.execAcas d a b s
  | .bind d a => Sys2Proof.Machine.execBind d a s
  | .rebind d a => Sys2Proof.Machine.execRebind d a s
  | .unbind d => Sys2Proof.Machine.execUnbind d s
  | .sdrain d => Sys2Proof.Machine.execSdrain d s
  | .sskip d a => Sys2Proof.Machine.execSskip d a s
  | .sstat d a => Sys2Proof.Machine.execSstat d a s
  | .ufold a => Sys2Proof.Machine.execUfold a s
  | .subs d a b => Sys2Proof.Machine.execSubs d a b s
  | .sret d => Sys2Proof.Machine.execSret d s
  | .ringcfg d a b => Sys2Proof.Machine.execRingcfg d a b s
  | .sigA sem count => Sys2Proof.Machine.execSigA sem count s
  | .waitA sem count => Sys2Proof.Machine.execWaitA sem count s
  | .getsA d => Sys2Proof.Machine.execGetsA d s
  | .putsA a => Sys2Proof.Machine.execPutsA a s
  | .extA imm => Sys2Proof.Machine.execExtA imm s
  | .vcfg imm => Sys2Proof.Machine.execVcfg imm s
  | .vmov d a => Sys2Proof.Machine.execVmov d a s
  | .vbcast d a => Sys2Proof.Machine.execVbcast d a s
  | .vadd d a b => Sys2Proof.Machine.execVadd d a b s
  | .vsub d a b => Sys2Proof.Machine.execVsub d a b s
  | .vmul d a b => Sys2Proof.Machine.execVmul d a b s
  | .vfma d a b => Sys2Proof.Machine.execVfma d a b s
  | .vmin d a b => Sys2Proof.Machine.execVmin d a b s
  | .vmax d a b => Sys2Proof.Machine.execVmax d a b s
  | .vabs d a => Sys2Proof.Machine.execVabs d a s
  | .vneg d a => Sys2Proof.Machine.execVneg d a s
  | .vdiv d a b => Sys2Proof.Machine.execVdiv d a b s
  | .vsqrt d a => Sys2Proof.Machine.execVsqrt d a s
  | .vrcp d a => Sys2Proof.Machine.execVrcp d a s
  | .vrsq d a => Sys2Proof.Machine.execVrsq d a s
  | .vexp2 d a => Sys2Proof.Machine.execVexp2 d a s
  | .vlog2 d a => Sys2Proof.Machine.execVlog2 d a s
  | .vadds d a b => Sys2Proof.Machine.execVadds d a b s
  | .vmulh d a b => Sys2Proof.Machine.execVmulh d a b s
  | .vand d a b => Sys2Proof.Machine.execVand d a b s
  | .vor d a b => Sys2Proof.Machine.execVor d a b s
  | .vxor d a b => Sys2Proof.Machine.execVxor d a b s
  | .vshl d a b => Sys2Proof.Machine.execVshl d a b s
  | .vshr d a b => Sys2Proof.Machine.execVshr d a b s
  | .vsra d a b => Sys2Proof.Machine.execVsra d a b s
  | .vceq d a b => Sys2Proof.Machine.execVceq d a b s
  | .vcne d a b => Sys2Proof.Machine.execVcne d a b s
  | .vclt d a b => Sys2Proof.Machine.execVclt d a b s
  | .vcle d a b => Sys2Proof.Machine.execVcle d a b s
  | .vsel d a b => Sys2Proof.Machine.execVsel d a b s
  | .vclass d a => Sys2Proof.Machine.execVclass d a s
  | .vcvt d a sel => Sys2Proof.Machine.execVcvt d a sel s
  | .vcvtq d a sel => Sys2Proof.Machine.execVcvtq d a sel s
  | .vwiden d a sel => Sys2Proof.Machine.execVwiden d a sel s
  | .vnarrow d a sel => Sys2Proof.Machine.execVnarrow d a sel s
  | .vsrnd d a b => Sys2Proof.Machine.execVsrnd d a b s
  | .vcomp d a => Sys2Proof.Machine.execVcomp d a s
  | .vexpd d a => Sys2Proof.Machine.execVexpd d a s
  | .vslup d a b => Sys2Proof.Machine.execVslup d a b s
  | .vsldn d a b => Sys2Proof.Machine.execVsldn d a b s
  | .vperm d a b => Sys2Proof.Machine.execVperm d a b s
  | .vxpose d a b => Sys2Proof.Machine.execVxpose d a b s
  | .viota d => Sys2Proof.Machine.execViota d s
  | .vrsum d a => Sys2Proof.Machine.execVrsum d a s
  | .vrmax d a => Sys2Proof.Machine.execVrmax d a s
  | .vrmin d a => Sys2Proof.Machine.execVrmin d a s
  | .vscan d a => Sys2Proof.Machine.execVscan d a s
  | .mand d a b => Sys2Proof.Machine.execMand d a b s
  | .mor d a b => Sys2Proof.Machine.execMor d a b s
  | .mxor d a b => Sys2Proof.Machine.execMxor d a b s
  | .mnot d a => Sys2Proof.Machine.execMnot d a s
  | .mpop d a => Sys2Proof.Machine.execMpop d a s
  | .mfirst d a => Sys2Proof.Machine.execMfirst d a s
  | .mset d a b => Sys2Proof.Machine.execMset d a b s
  | .vtok d a b => Sys2Proof.Machine.execVtok d a b s
  | .kadd d a b => Sys2Proof.Machine.execKadd d a b s
  | .kaddi d a imm => Sys2Proof.Machine.execKaddi d a imm s
  | .kldi d imm => Sys2Proof.Machine.execKldi d imm s
  | .kmov d a => Sys2Proof.Machine.execKmov d a s
  | .sigV sem count => Sys2Proof.Machine.execSigV sem count s
  | .waitV sem count => Sys2Proof.Machine.execWaitV sem count s
  | .getsV d => Sys2Proof.Machine.execGetsV d s
  | .putsV a => Sys2Proof.Machine.execPutsV a s
  | .extV imm => Sys2Proof.Machine.execExtV imm s
  | .mldn d a ft => Sys2Proof.Machine.execMldn d a ft s
  | .mldw d a ft => Sys2Proof.Machine.execMldw d a ft s
  | .msel d => Sys2Proof.Machine.execMsel d s
  | .mstep d koff ft => Sys2Proof.Machine.execMstep d koff ft s
  | .mstepz d koff ft => Sys2Proof.Machine.execMstepz d koff ft s
  | .mzero d => Sys2Proof.Machine.execMzero d s
  | .mwb d a ft => Sys2Proof.Machine.execMwb d a ft s
  | .mpeek d a b => Sys2Proof.Machine.execMpeek d a b s
  | .mftab ft a => Sys2Proof.Machine.execMftab ft a s
  | .mftabR ft a => Sys2Proof.Machine.execMftabR ft a s
  | .mscl d a b => Sys2Proof.Machine.execMscl d a b s
  | .mchain sem count => Sys2Proof.Machine.execMchain sem count s
  | .mstage stg => Sys2Proof.Machine.execMstage stg s
  | .mstageCfg dm1 lvl => Sys2Proof.Machine.execMstageCfg dm1 lvl s
  | .macc d a b => Sys2Proof.Machine.execMacc d a b s
  | .mtrz d a => Sys2Proof.Machine.execMtrz d a s
  | .mhadd d a b => Sys2Proof.Machine.execMhadd d a b s
  | .sigM sem count => Sys2Proof.Machine.execSigM sem count s
  | .waitM sem count => Sys2Proof.Machine.execWaitM sem count s
  | .getsM d => Sys2Proof.Machine.execGetsM d s
  | .putsM a => Sys2Proof.Machine.execPutsM a s
  | .extM imm => Sys2Proof.Machine.execExtM imm s
  | .xjob d a => Sys2Proof.Machine.execXjob d a s
  | .xjobg d a => Sys2Proof.Machine.execXjobg d a s
  | .xcancel d a => Sys2Proof.Machine.execXcancel d a s
  | .xstat d a => Sys2Proof.Machine.execXstat d a s
  | .xadd d a b => Sys2Proof.Machine.execXadd d a b s
  | .xaddi d a imm => Sys2Proof.Machine.execXaddi d a imm s
  | .xldi d imm => Sys2Proof.Machine.execXldi d imm s
  | .sigX sem count => Sys2Proof.Machine.execSigX sem count s
  | .waitX sem count => Sys2Proof.Machine.execWaitX sem count s
  | .getsX d => Sys2Proof.Machine.execGetsX d s
  | .putsX a => Sys2Proof.Machine.execPutsX a s
  | .extX imm => Sys2Proof.Machine.execExtX imm s
  | .pb d imm => Sys2Proof.Machine.execPb d imm s
  | .br d a => Sys2Proof.Machine.execBr d a s
  | .brn d a => Sys2Proof.Machine.execBrn d a s
  | .call d => Sys2Proof.Machine.execCall d s
  | .loop d a imm => Sys2Proof.Machine.execLoop d a imm s
  | .loopi d len imm => Sys2Proof.Machine.execLoopi d len imm s
  | .breakl d a => Sys2Proof.Machine.execBreakl d a s
  | .extB imm => Sys2Proof.Machine.execExtB imm s
  | .rd off n => Sys2Proof.Machine.execRd off n s
  | .cmpk w => Sys2Proof.Machine.execCmpk w s
  | .cmpg g w => Sys2Proof.Machine.execCmpg g w s
  | .getf g l sh w => Sys2Proof.Machine.execGetf g l sh w s
  | .next w => Sys2Proof.Machine.execNext w s
  | .nextG g => Sys2Proof.Machine.execNextG g s
  | .hash g stride => Sys2Proof.Machine.execHash g stride s
  | .addg g imm => Sys2Proof.Machine.execAddg g imm s
  | .andg g imm => Sys2Proof.Machine.execAndg g imm s
  | .jmp t => Sys2Proof.Machine.execJmp t s
  | .jeq t => Sys2Proof.Machine.execJeq t s
  | .jne t => Sys2Proof.Machine.execJne t s
  | .jlt t => Sys2Proof.Machine.execJlt t s
  | .emit n => Sys2Proof.Machine.execEmit n s
  | .emitg g r n => Sys2Proof.Machine.execEmitg g r n s
  | .fail c => Sys2Proof.Machine.execFail c s
  | .powerGood => Sys2Proof.Machine.execPowerGood s
  | .powerLoss => Sys2Proof.Machine.execPowerLoss s
  | .verifyComplete => Sys2Proof.Machine.execVerifyComplete s
  | .selftestComplete => Sys2Proof.Machine.execSelftestComplete s
  | .trainComplete => Sys2Proof.Machine.execTrainComplete s
  | .powerThrottle => Sys2Proof.Machine.execPowerThrottle s
  | .thermalThrottle => Sys2Proof.Machine.execThermalThrottle s
  | .throttleLift => Sys2Proof.Machine.execThrottleLift s
  | .thermalTrip => Sys2Proof.Machine.execThermalTrip s
  | .spdmRequest => Sys2Proof.Machine.execSpdmRequest s
  | .status => Sys2Proof.Machine.execStatus s
  | .create => Sys2Proof.Machine.execCreate s
  | .load => Sys2Proof.Machine.execLoad s
  | .reload => Sys2Proof.Machine.execReload s
  | .suspend => Sys2Proof.Machine.execSuspend s
  | .resume => Sys2Proof.Machine.execResume s
  | .destroy => Sys2Proof.Machine.execDestroy s
  | .debug => Sys2Proof.Machine.execDebug s
  | .mailboxTlbi => Sys2Proof.Machine.execMailboxTlbi s
  | .keyload => Sys2Proof.Machine.execKeyload s
  | .keygrant => Sys2Proof.Machine.execKeygrant s
  | .keyrevoke => Sys2Proof.Machine.execKeyrevoke s
  | .setid => Sys2Proof.Machine.execSetid s
  | .pstat => Sys2Proof.Machine.execPstat s
  | .pfence => Sys2Proof.Machine.execPfence s
  | .punfence => Sys2Proof.Machine.execPunfence s
  | .rtload => Sys2Proof.Machine.execRtload s
  | .rtuse => Sys2Proof.Machine.execRtuse s
  | .scread => Sys2Proof.Machine.execScread s
  | .mark => Sys2Proof.Machine.execMark s
  | .cfgupdate => Sys2Proof.Machine.execCfgupdate s
  | .fwupdate => Sys2Proof.Machine.execFwupdate s
  | .warmreset => Sys2Proof.Machine.execWarmreset s
  | .arbcommit => Sys2Proof.Machine.execArbcommit s
  | .mailboxUnknownOp => Sys2Proof.Machine.execMailboxUnknownOp s
  | .registerWrite => Sys2Proof.Machine.execRegisterWrite s
  | .launchGraph => Sys2Proof.Machine.execLaunchGraph s
  | .launchStackKernel => Sys2Proof.Machine.execLaunchStackKernel s
  | .launchCard => Sys2Proof.Machine.execLaunchCard s
  | .graphLaunchDeferred => Sys2Proof.Machine.execGraphLaunchDeferred s
  | .dispatchDecision => Sys2Proof.Machine.execDispatchDecision s
  | .quantumExpiry => Sys2Proof.Machine.execQuantumExpiry s
  | .kernelLoadComplete => Sys2Proof.Machine.execKernelLoadComplete s
  | .kernelStopped => Sys2Proof.Machine.execKernelStopped s
  | .coreSaveComplete => Sys2Proof.Machine.execCoreSaveComplete s
  | .kernelRestoreComplete => Sys2Proof.Machine.execKernelRestoreComplete s
  | .coreEnd => Sys2Proof.Machine.execCoreEnd s
  | .watchdogForcedSave => Sys2Proof.Machine.execWatchdogForcedSave s
  | .coreHang => Sys2Proof.Machine.execCoreHang s
  | .contextSaved => Sys2Proof.Machine.execContextSaved s
  | .dumpComplete => Sys2Proof.Machine.execDumpComplete s
  | .footprintWaitTimeout => Sys2Proof.Machine.execFootprintWaitTimeout s
  | .accessComplete => Sys2Proof.Machine.execAccessComplete s
  | .pageTableWalk => Sys2Proof.Machine.execPageTableWalk s
  | .semaphoreChangeApply => Sys2Proof.Machine.execSemaphoreChangeApply s
  | .ringTokenRelease => Sys2Proof.Machine.execRingTokenRelease s
  | .arrayStepComplete => Sys2Proof.Machine.execArrayStepComplete s
  | .chainWordReady => Sys2Proof.Machine.execChainWordReady s
  | .chainedStep => Sys2Proof.Machine.execChainedStep s
  | .streamFetch => Sys2Proof.Machine.execStreamFetch s
  | .streamWrite => Sys2Proof.Machine.execStreamWrite s
  | .loaderTileFill => Sys2Proof.Machine.execLoaderTileFill s
  | .loaderTileFull => Sys2Proof.Machine.execLoaderTileFull s
  | .storerTileStored => Sys2Proof.Machine.execStorerTileStored s
  | .cardWaitsemMet => Sys2Proof.Machine.execCardWaitsemMet s
  | .cardDone => Sys2Proof.Machine.execCardDone s
  | .cardFault => Sys2Proof.Machine.execCardFault s
  | .nodeRetryReady => Sys2Proof.Machine.execNodeRetryReady s
  | .nodeCancelComplete => Sys2Proof.Machine.execNodeCancelComplete s
  | .copy => Sys2Proof.Machine.execCopy s
  | .copycvt => Sys2Proof.Machine.execCopycvt s
  | .fill => Sys2Proof.Machine.execFill s
  | .accw => Sys2Proof.Machine.execAccw s
  | .rwrite => Sys2Proof.Machine.execRwrite s
  | .raccw => Sys2Proof.Machine.execRaccw s
  | .mcast => Sys2Proof.Machine.execMcast s
  | .walkj => Sys2Proof.Machine.execWalkj s
  | .sklaunch => Sys2Proof.Machine.execSklaunch s
  | .klaunch => Sys2Proof.Machine.execKlaunch s
  | .signal => Sys2Proof.Machine.execSignal s
  | .accChunkArrive => Sys2Proof.Machine.execAccChunkArrive s
  | .heldArrivalApply => Sys2Proof.Machine.execHeldArrivalApply s
  | .stackKernelLaunch => Sys2Proof.Machine.execStackKernelLaunch s
  | .ceRunStart => Sys2Proof.Machine.execCeRunStart s
  | .stackKernelLaunchEnd => Sys2Proof.Machine.execStackKernelLaunchEnd s
  | .whistleFlip => Sys2Proof.Machine.execWhistleFlip s
  | .walkSlotStart => Sys2Proof.Machine.execWalkSlotStart s
  | .walkForwardArrive => Sys2Proof.Machine.execWalkForwardArrive s
  | .walkResume => Sys2Proof.Machine.execWalkResume s
  | .walkStepLimit => Sys2Proof.Machine.execWalkStepLimit s
  | .walkWatchdog => Sys2Proof.Machine.execWalkWatchdog s
  | .portTrainingDone => Sys2Proof.Machine.execPortTrainingDone s
  | .portLaneLoss => Sys2Proof.Machine.execPortLaneLoss s
  | .portSignalLoss => Sys2Proof.Machine.execPortSignalLoss s
  | .replayLimit => Sys2Proof.Machine.execReplayLimit s
  | .portFenced => Sys2Proof.Machine.execPortFenced s
  | .flitForward => Sys2Proof.Machine.execFlitForward s
  | .flitRouteRetry => Sys2Proof.Machine.execFlitRouteRetry s
  | .flitHoldTimeout => Sys2Proof.Machine.execFlitHoldTimeout s
  | .creditReturn => Sys2Proof.Machine.execCreditReturn s
  | .replayRequest => Sys2Proof.Machine.execReplayRequest s
  | .remoteCardReceive => Sys2Proof.Machine.execRemoteCardReceive s
  | .remoteDataReceive => Sys2Proof.Machine.execRemoteDataReceive s
  | .remoteCardReport => Sys2Proof.Machine.execRemoteCardReport s
  | .linkLossReport => Sys2Proof.Machine.execLinkLossReport s
  | .rsigAck => Sys2Proof.Machine.execRsigAck s
  | .raccwCancelNotice => Sys2Proof.Machine.execRaccwCancelNotice s
  | .remoteSignalReceive => Sys2Proof.Machine.execRemoteSignalReceive s
  | .groupHello => Sys2Proof.Machine.execGroupHello s
  | .groupHelloAnswer => Sys2Proof.Machine.execGroupHelloAnswer s
  | .groupConfirm => Sys2Proof.Machine.execGroupConfirm s
  | .groupCommitFence => Sys2Proof.Machine.execGroupCommitFence s
  | .groupWithdrawNotice => Sys2Proof.Machine.execGroupWithdrawNotice s
  | .groupWithdrawAck => Sys2Proof.Machine.execGroupWithdrawAck s
  | .memberGone => Sys2Proof.Machine.execMemberGone s
  | .groupMessageResend => Sys2Proof.Machine.execGroupMessageResend s
  | .barrierArrivalMessage => Sys2Proof.Machine.execBarrierArrivalMessage s
  | .gfenceReceive => Sys2Proof.Machine.execGfenceReceive s
  | .nop => Sys2Proof.Machine.execNop s
  | .eret => Sys2Proof.Machine.execEret s
  | .barvArrive => Sys2Proof.Machine.execBarvArrive s
  | .barvWithdraw => Sys2Proof.Machine.execBarvWithdraw s
  | .barvJoin => Sys2Proof.Machine.execBarvJoin s
  | .barvBind => Sys2Proof.Machine.execBarvBind s
  | .barvUnbind => Sys2Proof.Machine.execBarvUnbind s
  | .barvRearm => Sys2Proof.Machine.execBarvRearm s
  | .barvAbandon => Sys2Proof.Machine.execBarvAbandon s
  | .bkarmArm => Sys2Proof.Machine.execBkarmArm s
  | .bkarmDisarm => Sys2Proof.Machine.execBkarmDisarm s
  | .bkarmRemove => Sys2Proof.Machine.execBkarmRemove s
  | .grpgenRead => Sys2Proof.Machine.execGrpgenRead s
  | .grpgenBind => Sys2Proof.Machine.execGrpgenBind s
  | .grpgenDissolve => Sys2Proof.Machine.execGrpgenDissolve s
  | .grpgenWithdraw => Sys2Proof.Machine.execGrpgenWithdraw s
  | .grpgenReshape => Sys2Proof.Machine.execGrpgenReshape s
  | .grpgenCatch => Sys2Proof.Machine.execGrpgenCatch s
  | .grpgenDrop => Sys2Proof.Machine.execGrpgenDrop s
  | .nopA => Sys2Proof.Machine.execNopA s
  | .nopV => Sys2Proof.Machine.execNopV s
  | .nopM => Sys2Proof.Machine.execNopM s
  | .nopX => Sys2Proof.Machine.execNopX s
  | .nopB => Sys2Proof.Machine.execNopB s
  | .ret => Sys2Proof.Machine.execRet s
  | .sync => Sys2Proof.Machine.execSync s
  | .phint => Sys2Proof.Machine.execPhint s
  | .endW => Sys2Proof.Machine.execEndW s
  | .miss => Sys2Proof.Machine.execMiss s
  | .illegalWord => Sys2Proof.Machine.execIllegalWord s
  | .idleFlitReceive => Sys2Proof.Machine.execIdleFlitReceive s
  | .flitCheckDiscard => Sys2Proof.Machine.execFlitCheckDiscard s

end Sys2Proof.Machine
end

