-- ==== Sys2Proof/Machine/Step.lean ====
section
/-!
DEFINITION. One step of the package: the next action's instruction is executed.
-/
namespace Sys2Proof.Machine

/-- One step. -/
def step (s : State) : Host.Outcome State Fault Refusal :=
  match fetch s with
  | .done t => .next t
  | .absent => .fault .noSuchUnit
  | .run i t stop =>
    match exec i t with
    | .next u => .next (u.afterWord stop)
    | .fault f => .fault f
    | .refused r => .refused r

/-- The state with a table row's word where the next step fetches: in the text of core 0, as a rule of a walk, or as a
word of a channel engine's run, by what the word decodes to. DESIGN CHOICE (notes/assumptions/4.md). -/
def State.withFetchWord (s : State) (nbits w : Nat) : State :=
  if nbits = 64 then s.placeCe (BitVec.ofNat 64 w)
  else if ruleOpcodes.contains (w / 2 ^ 26 % 64) && (decodeRule (BitVec.ofNat 32 w)).isSome then s.placeRule (BitVec.ofNat 32 w)
  else s.placeCore (BitVec.ofNat 32 w)

end Sys2Proof.Machine
end

