-- ==== Sys2Proof/Safety.lean ====
section
/-!
DEFINITION. The terms claims are stated in: when a core word may issue and how it completes, what a register reads as and
becomes, and what a step leaves alone.
-/
namespace Sys2Proof.Machine

/-! ## Core words -/

/-- The core at hand. -/
def State.me (s : State) : Core := s.core s.cur.core
/-- The engine at hand. -/
def State.unit (s : State) : EngineSt := s.me.eng s.cur.eng

/-- The ring bits that the word at hand still acts by: one that a trap into the monitor undid has popped its tokens (R130). -/
def State.ring (s : State) : Ring :=
  if s.unit.ringPopped then { ringOf s.cur.word with wb := false, wf := false } else ringOf s.cur.word

/-- The word at hand may begin (R130): its core exists, in the monitor it has no ring bit (R120), and the ring has its tokens and
room. -/
def State.begins (s : State) : Bool :=
  decide (s.cur.core < 96) && (!s.me.mon || ringOf s.cur.word == Ring.zero) && (s.unit.ringDone || s.me.ringReady s.cur.eng s.ring)
/-- It may issue: besides, no earlier write's bound is open, so every register reads as one value (R135). -/
def State.issues (s : State) : Bool := s.begins && s.unit.pend.isEmpty

/-- No prefix is pending. -/
def State.bare (s : State) : Bool := s.unit.ext.isEmpty && !s.unit.extEdge
/-- The prefixes pending, if any, are ones an extendable immediate of the word takes (R69, R70). -/
def State.extends (s : State) : Bool := !s.unit.extEdge && (s.unit.ext.isEmpty || s.unit.extB == ((tagOf s.cur.word).toNat == 7))

/-- The state once the word has popped its tokens and reserved its places. -/
def State.rung (s : State) : State :=
  if s.unit.ringDone then s else s.setCore s.cur.core (s.me.ringTake s.cur.eng s.ring)

/-- The word is executed, and its engine moves on. -/
def State.wordDone (s : State) (f : Flow := .seq 1) : State := s.setCore s.cur.core (s.me.move s.cur.eng f)

/-- The word's immediate, with its prefixes, as an unsigned number and sign-extended (R68, R69). -/
def State.immU {w : Nat} (s : State) (own : BitVec w) : Nat := (composeImm s.unit.ext w own.toNat).1
def State.immS {w : Nat} (s : State) (own : BitVec w) : BitVec 64 :=
  let r := composeImm s.unit.ext w own.toNat
  BitVec.ofInt 64 (sintOf r.2 r.1)

/-! ## Registers as read and written by the engine at hand (Table 3.3) -/

def State.rS (s : State) (n : BitVec 6) : Reg := if n = 0 then {} else s.me.s[n.toFin]
def State.rF (s : State) (n : BitVec 3) : FlagReg := if n = 0 then { v := true } else s.me.f[n.toFin]
def State.rA (s : State) (n : BitVec 5) : Reg := if n = 0 then {} else s.me.a[n.toFin]
def State.rX (s : State) (n : BitVec 4) : Reg := s.me.x[n.toFin]
def State.rK (s : State) (n : BitVec 4) : Reg := if n = 0 then {} else s.me.k[n.toFin]
def State.rH (s : State) (n : BitVec 3) : Reg := s.me.h[n.toFin]
def State.rV (s : State) (n : BitVec 5) : VecReg := s.me.v[n.toFin]
def State.rM (s : State) (n : BitVec 3) : MaskReg := if n = 0 then { v := BitVec.allOnes 1024 } else s.me.m[n.toFin]

/-- Notes a write for the latency rules (R134). -/
def State.note (s : State) (id : RegId) (old : RegVal) (bound : Nat) : State :=
  let t := s.unit
  let p := if bound ≤ 1 then t.pend.filter (fun p => p.reg != id) else t.pend ++ [{ reg := id, old := old, bound := t.slot + bound, pc := t.pc }]
  s.onCore s.cur.core (·.setEng s.cur.eng { t with pend := p })

/-- Changes the core at hand. -/
def State.onMe (s : State) (g : Core → Core) : State := s.onCore s.cur.core g

def State.setS (s : State) (n : BitVec 6) (r : Reg) (bound : Nat) : State :=
  if n = 0 then s else (s.note (.s n) (.word s.me.s[n.toFin]) bound).onMe (fun k => { k with s := k.s.set n.toFin r })
def State.setF (s : State) (n : BitVec 3) (r : FlagReg) (bound : Nat) : State :=
  if n = 0 then s else (s.note (.f n) (.flag s.me.f[n.toFin]) bound).onMe (fun k => { k with f := k.f.set n.toFin r })
def State.setA (s : State) (n : BitVec 5) (r : Reg) (bound : Nat) : State :=
  if n = 0 then s else (s.note (.a n) (.word s.me.a[n.toFin]) bound).onMe (fun k => { k with a := k.a.set n.toFin r })
def State.setX (s : State) (n : BitVec 4) (r : Reg) (bound : Nat) : State :=
  (s.note (.x n) (.word s.me.x[n.toFin]) bound).onMe (fun k => { k with x := k.x.set n.toFin r })
def State.setK (s : State) (n : BitVec 4) (r : Reg) (bound : Nat) : State :=
  if n = 0 then s else (s.note (.k n) (.word s.me.k[n.toFin]) bound).onMe (fun k => { k with k := k.k.set n.toFin r })
def State.setH (s : State) (n : BitVec 3) (r : Reg) (bound : Nat) : State :=
  (s.note (.h n) (.word s.me.h[n.toFin]) bound).onMe (fun k => { k with h := k.h.set n.toFin r })
def State.setV (s : State) (n : BitVec 5) (r : VecReg) (bound : Nat) : State :=
  (s.note (.v n) (.vec s.me.v[n.toFin]) bound).onMe (fun k => { k with v := k.v.set n.toFin r })
def State.setM (s : State) (n : BitVec 3) (r : MaskReg) (bound : Nat) : State :=
  if n = 0 then s else (s.note (.m n) (.mask s.me.m[n.toFin]) bound).onMe (fun k => { k with m := k.m.set n.toFin r })

/-- Flags joined into the engine's FSTAT (R48). -/
def State.flagged (s : State) (f : Flags) : State := s.onMe (·.setEng s.cur.eng { s.unit with fstat := s.unit.fstat ||| f.bits })

/-! ## Control (R142 to R154) -/

/-- Changes the engine at hand. -/
def State.onUnit (s : State) (g : EngineSt → EngineSt) : State := s.onMe (fun k => k.setEng s.cur.eng (g (k.eng s.cur.eng)))
/-- S pushes no decision: in the monitor (R120), nor once a trap has emptied the FIFOs (R143). -/
def State.muted (s : State) : Bool := s.me.mon || s.me.stopReq
/-- S pushes a decision to the four other engines (R142). -/
def State.pushes (s : State) (d : Decision) : State :=
  if s.muted then s else s.onMe (fun k => followers.foldl (fun k e => k.setEng e { (k.eng e) with decs := (k.eng e).decs ++ [d] }) k)
/-- Every other engine's decision FIFO has room, where a decision is pushed. -/
def State.room (s : State) : Bool := s.muted || followers.all (fun e => decide ((s.me.eng e).decs.length < decisionDepth))
/-- Another engine takes its oldest decision. -/
def State.pops (s : State) : State := s.onUnit (fun t => { t with decs := t.decs.tail })
/-- A taken branch closes the open levels of its frame that do not contain the target (R147). -/
def State.leaves (s : State) (target : BitVec 16) : State :=
  s.onUnit (fun t => t.closeWhere (fun l => decide (target.toNat < l.start.toNat) || decide (l.stop.toNat < target.toNat)))
/-- A level opened by LOOP or LOOPI of `count` passes over the `len` words that follow, or those words skipped (R149). -/
def State.loops (s : State) (n : BitVec 2) (len count : Nat) : State :=
  let pc := s.unit.pc.toNat
  if count = 0 then s.wordDone (.goto (BitVec.ofNat 17 (pc + len + 1)))
  else
    let l : LoopLevel := { isOpen := true, start := BitVec.ofNat 16 (pc + 1), stop := BitVec.ofNat 16 (pc + len), index := 0,
                           remaining := BitVec.ofNat 64 count, frame := BitVec.ofNat 5 s.unit.depth }
    (s.onUnit (fun t => { t with loops := t.loops.set n.toFin l })).wordDone (.goto (BitVec.ofNat 17 (pc + 1)))
/-- The checks of R149, R75 and R72 pass. -/
def State.loopOk (s : State) (n : BitVec 2) (len : Nat) : Bool :=
  let t := s.unit
  let stop := t.pc.toNat + len
  len != 0 && decide (stop ≤ 65535) && !t.loops[n.toFin].isOpen && !isBitmap s.me (t.pc.toNat + 1) && !isBitmap s.me (stop + 1) &&
  (match t.innermost with
    | some l => !(decide (t.loops[l].start.toNat ≤ t.pc.toNat) && decide (t.pc.toNat ≤ t.loops[l].stop.toNat) && decide (t.loops[l].stop.toNat < stop))
    | none => true)

/-! ## Value FIFOs and semaphores (R157 to R163) -/

/-- A value joins FIFO `n`; the oldest value leaves it. -/
def State.puts (s : State) (n : Fin 8) (v : BitVec 64) : State := s.onMe (fun k => { k with fifo := k.fifo.set n (k.fifo[n] ++ [v]) })
def State.gets (s : State) (n : Fin 8) : State := s.onMe (fun k => { k with fifo := k.fifo.set n k.fifo[n].tail })

/-- What follows a WAIT that is met: it stands after what the semaphore's increments stood after (R161), and the core acquires
(R330, R333). -/
def State.learns (s : State) (m : BitVec 4) : State :=
  (s.onUnit (fun t => { t with seen := Nat.max t.seen s.me.semSeen[m.toFin] })).onMe (fun k => { k with repAcq := Nat.max k.repAcq s.repDone })

/-! ## Traps (R82, R100, R120) -/

/-- The engine at hand ends its word with a trap: the word's effects and waits are undone, and the trap is taken. -/
def State.traps (s : State) (cause : BitVec 8) (detail : BitVec 64) : State :=
  (s.unwind s s.cur.core s.cur.eng).takeTrap s.cur.core s.cur.eng cause detail

/-! ## Vector operands (R208 to R211) -/

/-- Every in-queue holds the entries that the sources pop. -/
def State.srcsHeld (s : State) (l : List VSrc) : Bool :=
  l.all (fun x => match x with
    | .iq q => decide (popsOf q l ≤ s.me.iq[q.toFin].length)
    | _ => true)
/-- The state after the pops of one source. -/
def State.takes (s : State) (x : VSrc) : State :=
  match x with
  | .iq q => s.onMe (fun k => { k with iq := k.iq.set q.toFin k.iq[q.toFin].tail, iqWant := k.iqWant.set q.toFin 0 })
  | _ => s
/-- The elements of one source. -/
def State.source (s : State) (w : Nat) (x : VSrc) : Elems :=
  match x with
  | .v n => elemsOf w (s.rV n)
  | .iq q => elemsOf w (s.me.iq[q.toFin].headD {})
  | .k n => List.replicate (4096 / w) ((s.rK n).v.toNat % 2 ^ w, (s.rK n).p)
/-- The elements of a list of sources, read and popped in order (R211). -/
def State.sources (w : Nat) : List VSrc → State → List Elems
  | [], _ => []
  | x :: r, s => s.source w x :: State.sources w r (s.takes x)
/-- The elements that a destination holds before the word; an out-queue's are zeros (R210). -/
def State.before (s : State) (w : Nat) (d : VDst) : Elems :=
  match d with
  | .v n => elemsOf w s.me.v[n.toFin]
  | .oq _ => List.replicate (4096 / w) (0, false)
/-- `n` more entries fit the out-queue, within its stream's pattern (R190). -/
def State.fits (s : State) (q : BitVec 2) (n : Nat) : Bool :=
  let held := s.me.oq[q.toFin].length
  match s.me.streamOn (q.toNat + 40) with
  | some t => decide (held + n ≤ s.me.roomInStream t) && (decide (held + n ≤ queueDepth) || (decide (queueDepth < n) && held == 0))
  | none => decide (held + n ≤ queueDepth)
/-- The destination has room for a result. -/
def State.takesOne (s : State) (d : VDst) : Bool :=
  match d with
  | .v _ => true
  | .oq q => s.fits q 1
/-- Entries joined to an out-queue. -/
def State.pushesOq (s : State) (q : BitVec 2) (es : List VecReg) : State := s.onMe (fun k => { k with oq := k.oq.set q.toFin (k.oq[q.toFin] ++ es) })
/-- The result written. -/
def State.setD (s : State) (d : VDst) (r : VecReg) (bound : Nat) : State :=
  match d with
  | .v n => s.setV n r bound
  | .oq q => s.pushesOq q [r]
/-- The governing mask (R210). -/
def State.mask (s : State) : MaskReg := s.rM s.me.cfg.mask
/-- The word ends with a result and its flags, `n` results having drawn on the stochastic-rounding index (R213). -/
def State.vecDone (s : State) (srcs : List VSrc) (d : VDst) (r : VecReg × Flags) (bound n : Nat) : State :=
  let t := (((srcs.foldl State.takes s.rung).flagged r.2).setD d r.1 bound)
  (if n = 0 then t else t.onMe (fun k => { k with idx := k.idx + BitVec.ofNat 64 n })).wordDone

/-- A word whose result goes to `d` ends in state `t`, but a push of a poisoned entry ends it with POISON (R140). -/
def State.orPoison (s : State) (d : VDst) (r : VecReg) (t : State) : State :=
  match d with
  | .v _ => t
  | .oq q => if r.p = 0 then t else s.rung.traps cPOISON (oqCode q)
/-- The same for a word of `vecDone`. -/
def State.vecEnds (s : State) (srcs : List VSrc) (d : VDst) (r : VecReg × Flags) (bound n : Nat) : State :=
  s.orPoison d r.1 (s.vecDone srcs d r bound n)

/-- The entry of the format table that a selector names, when it names one (R59). -/
def State.ftSel (s : State) (sel : BitVec 5) : Option (Fin 16) :=
  let n := sel.toNat
  if n < 16 then some (Fin.ofNat 16 n)
  else if n < 20 then
    let l := s.unit.loops[(Fin.ofNat 4 n)]
    if l.isOpen then some (Fin.ofNat 16 l.index.toNat) else none
  else none
def State.ftEntry (s : State) (sel : BitVec 5) : Option (BitVec 32) := (s.ftSel sel).map (fun i => s.me.ft[i])
/-- What V may find in entry `i` (R208): the entry, or what MFTABs replaced that V does not stand after; and V's choice. -/
def State.ftMay (s : State) (i : Fin 16) : List (BitVec 32) :=
  s.me.ft[i] :: (s.me.ftLog.filter (fun q => q.1 == i.val && decide (s.me.engV.seen ≤ q.2.2))).map (·.2.1)
def State.ftFound (s : State) (i : Fin 16) : BitVec 32 :=
  if (s.ftMay i).length = 1 then s.me.ft[i] else (s.ftMay i).getD (Config.freeNat s.freeCtr % (s.ftMay i).length) s.me.ft[i]
def State.ftChosen (s : State) (i : Fin 16) : State := if (s.ftMay i).length = 1 then s else s.bumpFree
/-- `n` entries of an in-queue leave it. -/
def State.takesMany (s : State) (q : BitVec 3) (n : Nat) : State :=
  s.onMe (fun k => { k with iq := k.iq.set q.toFin (k.iq[q.toFin].drop n), iqWant := k.iqWant.set q.toFin 0 })
/-- The elements of a group of ρ wide registers or entries (R222), when the queue holds them. -/
def State.wideGroup (s : State) (w rho : Nat) (a : VIn) : List Elems :=
  match a with
  | .v n => (List.range rho).map (fun j => elemsOf w (s.rV (groupReg n j)))
  | .iq q => (s.me.iq[q.toFin].take rho).map (elemsOf w)
def State.groupReady (s : State) (rho : Nat) (a : VIn) : Bool :=
  match a with
  | .v n => n.toNat % rho == 0
  | .iq q => decide (rho ≤ s.me.iq[q.toFin].length)
def State.takesGroup (s : State) (rho : Nat) (a : VIn) : State :=
  match a with
  | .v _ => s
  | .iq q => s.takesMany q rho

/-! ## M (R235 to R260) -/

/-- A word whose stage is inactive takes its slot only (R253). -/
def State.skipped (s : State) : Bool := s.me.governs
/-- A member joins the array sequence (R237). -/
def State.enters (s : State) (o : ArrayOp) : State := s.onMe (fun k => { k with stepq := k.stepq ++ [o] })
/-- The step queue has room. -/
def State.stepRoom (s : State) : Bool := decide (s.me.stepq.length < stepqDepth)
/-- The index that a binding's loop level gives, none for no level, when the level is open. -/
def State.levelIndex (s : State) (lvl : BitVec 3) : Option (Option Nat) :=
  if 4 ≤ lvl.toNat then some none
  else
    let l := s.unit.loops[Fin.ofNat 4 lvl.toNat]
    if l.isOpen then some (some l.index.toNat) else none

/-! ## Memory (R173 to R180, R293 to R318) -/

/-- The one translation of an address that S's cache holds (R306). -/
def State.leafOf (s : State) (va : Nat) : Option Leaf :=
  if 2 ^ 56 ≤ va then none
  else match s.tlb.filter (fun e => e.covers (.eng s.cur.core .S) s.me.lastCtx va) with
    | [e] => some e.leaf
    | _ => none
/-- An aligned access of `n` bytes by S may go ahead: its translation is held and admits it, and no X job and no access of S that
has still to land is in its way. -/
def State.opens (s : State) (va n : Nat) (use : Acc) (mode : FpMode) (l : Leaf) : Bool :=
  s.leafOf va == some l && !s.leafProt s.me.lastCtx l use && va % n == 0 && !s.me.blocked [{ sp := false, lo := va, len := n, mode := mode }] &&
  !s.landing s.cur.core .S false va n
/-- It goes to plain memory past the die caches, under a claim of the core. -/
def State.claims (s : State) (va n : Nat) (use : Acc) (mode : FpMode) (l : Leaf) : Bool :=
  s.opens va n use mode l && l.kind == 0 && !l.free && l.cp && (ctxFrameOf (l.pa va)).isNone && s.claimed s.cur.core va n mode && s.dcache.isEmpty
/-- And the sector reads under the page's key. -/
def State.reaches (s : State) (va n : Nat) (use : Acc) (mode : FpMode) (l : Leaf) : Bool :=
  s.claims va n use mode l && !s.isUncorr (l.pa va) && s.tagAt (l.pa va) == s.keyNow l.key
/-- It is to take a footprint, a sector, which its region may hold and the table has room for (R173, R174, R316). -/
def State.asksFp (s : State) (va n : Nat) (use : Acc) (mode : FpMode) (l : Leaf) : Bool :=
  s.opens va n use mode l && !l.free && !s.claimed s.cur.core va n mode && !(use == .read && s.recordRead s.me.lastCtx va n)
/-- An access that writes leaves no record of the device under its bytes. -/
def State.covers (s : State) (va n : Nat) (mode : FpMode) : State := s.dropRecs s.me.lastCtx [{ sp := false, lo := va, len := n, mode := mode }]
/-- The access is in flight (R205, R318), with what it has still to do (R159): bytes to store, or an operation whose register waits. -/
def State.flies (s : State) (va n : Nat) (mode : FpMode) (store : Option (List Byte) := none) (sp : Bool := false) (late : Option Late := none) : State :=
  let f : Flight := { core := s.cur.core, eng := s.cur.eng, slot := s.unit.slot, fp := none, va := va, len := n, mode := mode, seq := s.me.sbNext
                      store := store, late := late, sp := sp, pc := s.unit.pc }
  let t := s.onMe (fun k => { k with sbNext := k.sbNext + 1 })
  let t := { t with flights := t.flights ++ [f] }
  match late with
  | some l => t.onCore s.cur.core (fun k => k.setEng s.cur.eng ((k.eng s.cur.eng).lockReg l.reg s.me.sbNext))
  | none => t
/-- Bytes stored in a sector under a key. -/
def State.stores (s : State) (pa key : Nat) (bs : List Byte) : State :=
  { s with mem := s.mem.splice pa bs, keyTags := sset {} (pa / 64) (s.keyNow key) s.keyTags }
/-- The entrant's one range enters the footprint table at once (R316). -/
def State.fpAdmits (s : State) (who : Who) (o : Owner) (ctx : BitVec 8) (region : Nat) (r : Range) : Bool :=
  decide (1 ≤ (s.ctx ctx).fpentEff region) && s.fpWait.all (fun w => w.who != who) && s.fpGrant who ctx region 1 &&
  (s.fpConflict ctx o [r]).isNone && s.dcache.isEmpty
def State.entersFp (s : State) (o : Owner) (ctx : BitVec 8) (region : Nat) (r : Range) : State :=
  { s with fps := s.fps ++ [{ id := s.fpNext, ctx := ctx, owner := o, base := r.lo, len := r.len / 64, mode := r.mode, region := region }], fpNext := s.fpNext + 1 }
/-- A release of footprints by the core at hand is under way (R318). -/
def State.releases (s : State) (e : Engine) (ids : List Nat) : State :=
  { s with flights := s.flights ++ (s.fps.filter (fun f => ids.contains f.id)).map (fun f =>
      { core := s.cur.core, eng := e, slot := (s.me.eng e).slot, fp := some f.id, va := f.base, len := 64 * f.len, mode := f.mode, seq := s.me.sbNext, rel := true }) }

/-! ## A's scratchpad, streams and rings (R182 to R203) -/

/-- An access of `n` bytes to the scratchpad is in range and aligned, and no X job and no store that has still to land is in
its way. -/
def State.spadOk (s : State) (a : BitVec 64) (n : Nat) (mode : FpMode) : Bool :=
  decide (a.toNat + n ≤ Config.spadBytes) && a.toNat % n == 0 && !s.me.blocked [{ sp := true, lo := a.toNat, len := n, mode := mode }] &&
  !s.landing s.cur.core .A true a.toNat n
/-- The next place in the scoreboard is taken. -/
def State.seqTaken (s : State) : State := s.onMe (fun k => { k with sbNext := k.sbNext + 1 })
/-- A stream slot or a ring is set. -/
def State.setStream (s : State) (n : BitVec 4) (t : Option Stream) : State := s.onMe (fun k => { k with streams := k.streams.set n.toFin t, descRead := none })
def State.setRing (s : State) (n : BitVec 3) (r : Option SpRing) : State := s.onMe (fun k => { k with rings := k.rings.set n.toFin r })
/-- Every store of A has landed. -/
def State.aHasLanded (s : State) : Bool := !s.landing s.cur.core .A true 0 Config.spadBytes
/-- The descriptor that register `a` points to, when its 64 bytes lie in the scratchpad (R187), or the one that the word has
read already (R188); and the word keeps it. -/
def State.descOf (s : State) (a : BitVec 5) : Option (BitVec 64 × StreamDesc) :=
  let x := s.rA a
  if x.p then none
  else match s.me.descRead with
    | some r => some r
    | none =>
      if decide (x.v.toNat + 64 ≤ Config.spadBytes) && x.v.toNat % 64 == 0 && s.aHasLanded then
        some (x.v, parseDesc (leNat (s.me.spad.slice x.v.toNat 64)))
      else none
def State.descKept (s : State) (r : BitVec 64 × StreamDesc) : State := s.onMe (fun k => { k with descRead := some r })
/-- The 64 bytes of the unfold descriptor that register `a` points to (R256). -/
def State.unfoldBytes (s : State) (a : BitVec 5) : Option Nat :=
  let x := s.rA a
  if !x.p && decide (x.v.toNat + 64 ≤ Config.spadBytes) && x.v.toNat % 64 == 0 && s.aHasLanded then
    some (leNat (s.me.spad.slice x.v.toNat 64))
  else none
/-- A stream's queue is dropped, or found empty, by UNBIND and REBIND (R192). -/
def State.quiets (s : State) (d : StreamDesc) : State :=
  if d.isIn then s.onMe (fun k => { k with iq := k.iq.set d.inq.toFin [] }) else s

/-! ## What an operation leaves -/

/-- The state after an operation that always completes, such as the writing of a record that the device keeps (R490). -/
def State.does (s : State) (m : W Unit) : State :=
  match m s with
  | .ok _ t => t
  | .error _ _ => s

/-! ## Releases and acquires (R326 to R333) -/

/-- Where the word at hand began among the core's accesses: what came earlier is what its release waits for (R328). -/
def State.mark (s : State) : Nat := s.unit.mark.getD s.me.sbNext
/-- The place is noted. -/
def State.marks (s : State) : State :=
  match s.unit.mark with
  | some _ => s
  | none => s.seqTaken.onUnit (fun t => { t with mark := some s.me.sbNext })
/-- The core's writes to memory and its releases up to the mark are complete. -/
def State.settledTo (s : State) : Bool := s.flights.all (fun f => !(f.core == s.cur.core && !f.sp && (f.rel || f.mode.writes) && decide (f.seq ≤ s.mark)))
/-- The remote cards accepted up to the mark are DONE (R327). -/
def State.remoteDone (s : State) : Bool := s.me.cards.all (fun x => !(x.live && x.card.isRemote && decide (x.seq ≤ s.mark)))
/-- The core's dirty sectors are in memory. -/
def State.cleaned (s : State) : State := s.does (writeBackAll (fun d => d.owner == some s.cur.core))
/-- An acquire of the core, and one of S at die scope or wider (R330, R333). -/
def State.acquires (s : State) : State := s.onMe (fun k => { k with repAcq := Nat.max k.repAcq s.repDone })
def State.acquiresS (s : State) : State := s.acquires.onMe (fun k => { k with repFloor := Nat.max k.repFloor k.repSeen })

/-! ## Events -/

/-- Number `i` that came with the event. -/
def State.argN (s : State) (i : Nat) : Nat := s.cur.args.n.getD i 0
/-- The core that an event concerns is the core at hand. -/
def State.atCore (s : State) (c : Nat) (e : Engine) : State := { s with cur := { s.cur with core := c, eng := e } }

/-! ## The mailbox (R481, R482) -/

/-- A command of code `op` has started: its registers hold it. -/
def State.asked (s : State) (op : BitVec 16) : State :=
  { s with mbox := { s.mbox with op := op, tgt := BitVec.ofNat 16 (s.argN 0 % 2 ^ 16), busy := true, lost := false } }
/-- A command has ended with RESULT and REPLY. -/
def State.answers (s : State) (r : Answer) : State :=
  { s with mbox := { s.mbox with busy := false, lost := s.argN 1 != 0, result := r.1, reply := word64 r.2 } }
/-- Every context has ended. -/
def State.allDead (s : State) : Bool := s.ctxs.all (fun c => c.2.state == .dead)
/-- No card is queued, and no READY node waits for the store. -/
def State.noneQueued (s : State) : Bool := s.hub.all (fun h => h.2.st != .queued) && s.storeWaiters.isEmpty
/-- A dispatch decision while no card is queued: gangs of a context that is SUSPENDed are asked to yield (R93, R104). -/
def State.yields (s : State) : State :=
  s.gangs.foldl (fun s g => if (s.ctx g.2.ctx).state == .preempting && !(s.gangCores g.1).isEmpty then s.askYield g.1 else s) s
/-- No object of a context is bound or armed, and it holds no gang and no footprint. -/
def State.bareCtx (s : State) (n : BitVec 8) : Bool :=
  s.groups.all (fun g => g.ctx != n) && s.barriers.all (fun b => b.ctx != n) && s.buckets.all (fun b => b.2.ctx != n) &&
  s.gangs.all (fun g => g.2.ctx != n) && s.fps.all (fun f => f.ctx != n)
/-- Nothing in the package belongs to a context (R93). -/
def State.released (s : State) (n : BitVec 8) : Bool :=
  s.bareCtx n && s.hub.all (fun h => h.2.ctx != n) && s.graphs.all (fun g => g.ctx != n) && s.graphWait.all (fun g => g.ctx != n) &&
  s.skReqs.all (fun q => q.ctx != n) && s.launches.all (fun l => l.2.ctx != n) && s.walks.all (fun w => w.2.ctx != n) &&
  s.pins.all (fun p => p.ctx != n) && s.remoteIn.all (fun r => r.ctx != n) && s.accIn.all (fun a => a.ctx != n) &&
  s.launchQ.all (fun l => l.ctx != n) && s.walkReqs.all (fun q => q.ctx != n) && s.fpWait.all (fun q => q.ctx != n)

/-! ## Records that S reads, cards at X, flits that arrive -/

/-- The bytes of a record that S reads for an operation of the hub: in plain readable memory, with no writing access of S to it in
flight and no die cache holding a sector. -/
def State.recordAt (s : State) (va n : Nat) : Option (List Byte) :=
  match s.leafOf va with
  | some l =>
    if !s.leafProt s.me.lastCtx l .read && l.kind == 0 && (ctxFrameOf (l.pa va)).isNone && !s.isUncorr (l.pa va) &&
        s.tagAt (l.pa va) == s.keyNow l.key && s.dcache.isEmpty &&
        !s.flights.any (fun f => f.core == s.cur.core && f.eng == .S && f.mode.writes && overlaps f.va f.len va n) then some (s.mem.slice (l.pa va) n)
    else none
  | none => none
/-- The card that an event names, of X or of the hub, may move its data now (R205, R266). -/
def State.moves (s : State) (op : Nat) : Option Exec :=
  let c := s.argN 1
  let t := s.argN 2
  if s.argN 3 ≠ 0 then none
  else if s.argN 0 = 0 then
    match (s.core c).card? t with
    | some x =>
      if decide (c < 96) && x.st == .running && !x.moved && x.fault.isNone && x.card.op == op && !(s.core c).cardBlocked x && !s.flightsBlock c x then
        some { ref := .x c t, card := x.card, path := { s.jobPath c t with early := x.early }, core := c, tag := x.tag }
      else none
    | none => none
  else
    match s.hubCard c with
    | some h =>
      if h.st == .running && h.entered && !h.moved && h.fault.isNone && h.card.op == op && (s.ctx h.ctx).serves then
        some { ref := .hub c, card := h.card, path := hubPath h.ctx, core := 0, tag := h.tag }
      else none
    | none => none
/-- The flit of a type that an event brings on a port in its turn, and the state once it is taken (R462, R465). -/
def State.arrives (s : State) (type : BitVec 4) : Option (Flit × State) :=
  let p := s.argN 0
  let x := s.port p
  let b := s.cur.args.bytes
  let f := flitOf b
  let y := ({ x.acked f.lack with rxSeq := x.rxSeq + 1 } : Port).takes (s.pkgid.getD 0) s.rgen f
  if decide (p < 16) && x.carries && wireHolds b && !wireReserved b && f.type == type && f.lseq == x.rxSeq &&
      (type == fGFENCE || type == fCTRL || type == fIDLE || s.genOk y f.rgen) then
    some (f, s.setPort p y)
  else none

/-! ## What an instruction leaves alone -/

/-- The registers and stores of a core that a program sees, and all else a core holds but its engines and M's stage, which follows
its engine, its mode and what a trap writes. -/
def Core.data (k : Core) : Core :=
  { k with engS := {}, engA := {}, engM := {}, engV := {}, engX := {}, mode := .free, mon := false, epc := Vector.replicate 5 0
           ecause := 0, edetail := 0, monSaved := {}, entry := none, held := false, causes := [], stopReq := false, sbNext := 0, stage := none }
/-- The package but its cores, the states of its gangs, the free values used up, and what a word waits for. -/
def State.rest (s : State) : State :=
  { s with cores := Vector.replicate 96 {}, gangs := [], freeCtr := 0, tlb := [], walkReqs := [], walkFails := [], fpWait := [] }
/-- Between two states, a core's data became `k`, and nothing else of the package changed; M's stage changes by words of M alone. -/
def State.onlyData (s t : State) (k : Core) : Prop :=
  t.rest = s.rest ∧ (∀ c, c ≠ s.cur.core → t.core c = s.core c) ∧ t.me.data = k ∧ (s.cur.eng ≠ .M → t.me.stage = s.me.stage)
/-- The translations that S may use for an address: its cache's, or where it has none the die cache's (R306). -/
def State.mayUse (s : State) (va : Nat) : List Leaf :=
  let held := fun (id : TlbId) => (s.tlb.filter (fun e => e.covers id s.me.lastCtx va)).map (·.leaf)
  if (held (.eng s.cur.core .S)).isEmpty then held (.die (s.cur.core / 24)) else held (.eng s.cur.core .S)
/-- Memory reads as before but for `n` bytes from an address on, in the sector of which, under another key, all may change
(R304). -/
def State.memBut (s t : State) (va n : Nat) : Prop :=
  ∀ x, (∀ l ∈ s.mayUse va, (x / 64 ≠ l.pa va / 64) ∨ (s.tagAt (l.pa va) = s.keyNow l.key ∧ (x < l.pa va ∨ l.pa va + n ≤ x))) → t.mem.get x = s.mem.get x

/-! ## The invariant -/

/-- Memory, and the memory of the host, keep their canonical form. -/
def State.inv (s : State) : Bool := Memory.wf s.mem && Memory.wf s.hostMem

end Sys2Proof.Machine
end

