-- ==== Sys2Proof/Certificates/Slice0/Obligations.lean ====
section
/-!
DEFINITION. The statements about the model, for the provers.
-/
open Sys2Proof Sys2Proof.Machine

/-! ## Scalar words of S -/

/-- R166, R167 (Table 6.1): the integer words of S with register operands. On every state where the word may issue, with no
prefix pending, the word completes: sd becomes the value the table gives, poisoned as its operands are, and the engine
moves on. A write of s0 is discarded. -/
def Obligations.ScalarIntegerResults : Prop :=
  ∀ (s : State) (d a b : BitVec 6), s.issues = true → s.bare = true →
    let x := (s.rS a).v
    let y := (s.rS b).v
    let p := (s.rS a).p || (s.rS b).p
    let gives := fun (v : BitVec 64) (bound : Nat) => (Host.Outcome.next (s.rung.setS d { v := v, p := p } bound).wordDone : Host.Outcome State Fault Refusal)
    let alone := fun (v : BitVec 64) => (Host.Outcome.next (s.rung.setS d { v := v, p := (s.rS a).p } 2).wordDone : Host.Outcome State Fault Refusal)
    exec (.add d a b) s = gives (x + y) 1 ∧
    exec (.sub d a b) s = gives (x - y) 1 ∧
    exec (.mul d a b) s = gives (x * y) 3 ∧
    exec (.mulh d a b) s = gives ((x.signExtend 128 * y.signExtend 128).extractLsb' 64 64) 3 ∧
    exec (.mulhn d a b) s = gives ((x.setWidth 128 * y.setWidth 128).extractLsb' 64 64) 3 ∧
    exec (.div d a b) s = gives (if y = 0 then BitVec.allOnes 64 else BitVec.ofInt 64 (x.toInt.tdiv y.toInt)) 20 ∧
    exec (.divn d a b) s = gives (if y = 0 then BitVec.allOnes 64 else BitVec.ofNat 64 (x.toNat / y.toNat)) 20 ∧
    exec (.rem d a b) s = gives (if y = 0 then x else BitVec.ofInt 64 (x.toInt.tmod y.toInt)) 20 ∧
    exec (.remn d a b) s = gives (if y = 0 then x else BitVec.ofNat 64 (x.toNat % y.toNat)) 20 ∧
    exec (.and d a b) s = gives (x &&& y) 1 ∧
    exec (.or d a b) s = gives (x ||| y) 1 ∧
    exec (.xor d a b) s = gives (x ^^^ y) 1 ∧
    exec (.shl d a b) s = gives (x <<< (y.toNat % 64)) 1 ∧
    exec (.shr d a b) s = gives (x >>> (y.toNat % 64)) 1 ∧
    exec (.sra d a b) s = gives (x.sshiftRight (y.toNat % 64)) 1 ∧
    exec (.min d a b) s = gives (if x.slt y then x else y) 1 ∧
    exec (.max d a b) s = gives (if x.slt y then y else x) 1 ∧
    exec (.minn d a b) s = gives (if x.ult y then x else y) 1 ∧
    exec (.maxn d a b) s = gives (if x.ult y then y else x) 1 ∧
    exec (.clz d a) s = alone (BitVec.ofNat 64 (64 - bitLen x.toNat)) ∧
    exec (.popc d a) s = alone (BitVec.ofNat 64 (popcount x.toNat 64))

/-- R166, R168 with R68, R69: the words of S with an extendable immediate, prefixed or not; a shift count above 63 raises ILLEGAL. -/
def Obligations.ScalarImmediateResults : Prop :=
  ∀ (s : State) (d a imm : BitVec 6) (imm12 : BitVec 12), s.issues = true → s.extends = true →
    let x := (s.rS a).v
    let gives := fun (v : BitVec 64) => (Host.Outcome.next (s.rung.setS d { v := v, p := (s.rS a).p } 1).wordDone : Host.Outcome State Fault Refusal)
    exec (.addi d a imm) s = gives (x + s.immS imm) ∧
    exec (.andi d a imm) s = gives (x &&& BitVec.ofNat 64 (s.immU imm)) ∧
    exec (.ori d a imm) s = gives (x ||| BitVec.ofNat 64 (s.immU imm)) ∧
    exec (.xori d a imm) s = gives (x ^^^ BitVec.ofNat 64 (s.immU imm)) ∧
    (s.immU imm ≤ 63 →
      exec (.shli d a imm) s = gives (x <<< s.immU imm) ∧
      exec (.shri d a imm) s = gives (x >>> s.immU imm) ∧
      exec (.srai d a imm) s = gives (x.sshiftRight (s.immU imm))) ∧
    (63 < s.immU imm → ∀ i ∈ [Instr.shli d a imm, .shri d a imm, .srai d a imm], exec i s = .next (s.rung.traps cILLEGAL (s.unit.pc.setWidth 64))) ∧
    exec (.ldi d imm12) s = .next (s.rung.setS d { v := s.immS imm12 } 1).wordDone

/-- R169 (Table 6.2): comparisons, flag words, CMOV and FTOS. -/
def Obligations.ScalarFlagResults : Prop :=
  ∀ (s : State) (d : BitVec 3) (a b : BitVec 6) (f g : BitVec 3) (e : BitVec 6), s.issues = true → s.bare = true →
    let x := (s.rS a).v
    let y := (s.rS b).v
    let flag := fun (v : Bool) => (Host.Outcome.next (s.rung.setF d { v := v, p := (s.rS a).p || (s.rS b).p } 1).wordDone : Host.Outcome State Fault Refusal)
    exec (.ceq d a b) s = flag (x == y) ∧
    exec (.cne d a b) s = flag (x != y) ∧
    exec (.clt d a b) s = flag (x.slt y) ∧
    exec (.cle d a b) s = flag (x.sle y) ∧
    exec (.cltn d a b) s = flag (x.ult y) ∧
    exec (.clen d a b) s = flag (x.ule y) ∧
    exec (.fand d f g) s = .next (s.rung.setF d { v := (s.rF f).v && (s.rF g).v, p := (s.rF f).p || (s.rF g).p } 1).wordDone ∧
    exec (.forF d f g) s = .next (s.rung.setF d { v := (s.rF f).v || (s.rF g).v, p := (s.rF f).p || (s.rF g).p } 1).wordDone ∧
    exec (.fnot d f) s = .next (s.rung.setF d { v := !(s.rF f).v, p := (s.rF f).p } 1).wordDone ∧
    exec (.ftos e f) s = .next (s.rung.setS e { v := if (s.rF f).v then 1 else 0, p := (s.rF f).p } 1).wordDone ∧
    exec (.cmov e a f) s = .next
      (if (s.rF f).v then s.rung.setS e { v := x, p := (s.rS a).p || (s.rF f).p } 1
       else if (s.rF f).p then s.rung.setS e { v := (s.rS e).v, p := true } 1 else s.rung).wordDone

/-- R181, R232, R249, R271: the integer words of A, X, V and M. -/
def Obligations.AddressIntegerResults : Prop :=
  ∀ (s : State) (d a b : BitVec 5) (i j k : BitVec 4) (l m n : BitVec 3) (imm : BitVec 6) (imm12 : BitVec 12), s.issues = true →
    let x := (s.rA a).v
    let y := (s.rA b).v
    let gives := fun (v : BitVec 64) (bound : Nat) => (Host.Outcome.next (s.rung.setA d { v := v, p := (s.rA a).p || (s.rA b).p } bound).wordDone : Host.Outcome State Fault Refusal)
    (s.bare = true →
      exec (.aadd d a b) s = gives (x + y) 1 ∧
      exec (.asub d a b) s = gives (x - y) 1 ∧
      exec (.amul d a b) s = gives (x * y) 3 ∧
      exec (.aand d a b) s = gives (x &&& y) 1 ∧
      exec (.aor d a b) s = gives (x ||| y) 1 ∧
      exec (.ashl d a b) s = gives (x <<< (y.toNat % 64)) 1 ∧
      exec (.ashr d a b) s = gives (x.sshiftRight (y.toNat % 64)) 1 ∧
      exec (.amin d a b) s = gives (if x.slt y then x else y) 1 ∧
      exec (.amax d a b) s = gives (if x.slt y then y else x) 1 ∧
      exec (.xadd i j k) s = .next (s.rung.setX i { v := (s.rX j).v + (s.rX k).v, p := (s.rX j).p || (s.rX k).p } 1).wordDone ∧
      exec (.kadd i j k) s = .next (s.rung.setK i { v := (s.rK j).v + (s.rK k).v, p := (s.rK j).p || (s.rK k).p } 1).wordDone ∧
      exec (.kmov i j) s = .next (s.rung.setK i (s.rK j) 1).wordDone ∧
      exec (.mhadd l m n) s = .next (s.rung.setH l { v := (s.rH m).v + (s.rH n).v, p := (s.rH m).p || (s.rH n).p } 1).wordDone) ∧
    (s.extends = true →
      exec (.aaddi d a imm) s = .next (s.rung.setA d { v := x + s.immS imm, p := (s.rA a).p } 1).wordDone ∧
      exec (.aldi d imm12) s = .next (s.rung.setA d { v := s.immS imm12 } 1).wordDone ∧
      exec (.xaddi i j imm) s = .next (s.rung.setX i { v := (s.rX j).v + s.immS imm, p := (s.rX j).p } 1).wordDone ∧
      exec (.xldi i imm12) s = .next (s.rung.setX i { v := s.immS imm12 } 1).wordDone ∧
      exec (.kaddi i j imm) s = .next (s.rung.setK i { v := (s.rK j).v + s.immS imm, p := (s.rK j).p } 1).wordDone ∧
      exec (.kldi i imm12) s = .next (s.rung.setK i { v := s.immS imm12 } 1).wordDone)

/-- R170 to R172 (Tables 6.3, 6.4): fp32 words of S. Results are the exact values rounded once (FP.add and the others,
roundF32), and the flags they raise join FSTAT.S, none from a poisoned operand. FCVT runs for every selector that Table 6.4
gives. Where it rests on the model's choice: notes/assumptions 97. -/
def Obligations.ScalarFloatResults : Prop :=
  ∀ (s : State) (d a b imm : BitVec 6), s.issues = true →
    let x := f32 ((s.rS a).v.setWidth 32)
    let y := f32 ((s.rS b).v.setWidth 32)
    let z := f32 ((s.rS d).v.setWidth 32)
    let p := (s.rS a).p || (s.rS b).p
    let gives := fun (r : F32R) (p : Bool) (bound : Nat) =>
      (Host.Outcome.next ((s.rung.flagged (if p then {} else r.f)).setS d { v := r.v.setWidth 64, p := p } bound).wordDone : Host.Outcome State Fault Refusal)
    let special := fun (r : Res × Flags) => ({ v := BitVec.ofNat 32 (roundSpecial 0 false .rne {} r).code, f := (roundSpecial 0 false .rne {} r).f } : F32R)
    (s.bare = true →
      exec (.fadd32 d a b) s = gives (FP.add x y).toF32 p 4 ∧
      exec (.fsub32 d a b) s = gives (FP.sub x y).toF32 p 4 ∧
      exec (.fmul32 d a b) s = gives (FP.mul x y).toF32 p 4 ∧
      exec (.ffma32 d a b) s = gives (FP.fma x y z).toF32 (p || (s.rS d).p) 4 ∧
      exec (.fdiv32 d a b) s = gives (special (FP.div x y)) p 12 ∧
      exec (.fsqrt32 d a) s = gives (special (FP.sqrt x)) (s.rS a).p 12 ∧
      exec (.fmin32 d a b) s = .next (s.rung.setS d { v := ((roundF32 (FP.minNum x y)).code : BitVec 32).setWidth 64, p := p } 2).wordDone ∧
      exec (.fmax32 d a b) s = .next (s.rung.setS d { v := ((roundF32 (FP.maxNum x y)).code : BitVec 32).setWidth 64, p := p } 2).wordDone ∧
      exec (.fcmp32 d a b) s = .next (s.rung.setS d
        { v := match FP.cmp x y with
            | some .lt => 1
            | some .eq => 2
            | some .gt => 4
            | none => 8
          p := p } 2).wordDone) ∧
    (s.extends = true → s.immU imm ≤ 63 → s.immU imm % 4 ≠ 2 → (s.immU imm % 4 = 0 ∨ (s.immU imm / 4 ≠ 5 ∧ s.immU imm / 4 ≠ 7)) →
      ∀ v f, fcvt (s.immU imm / 4) (Mode.ofCode (BitVec.ofNat 2 (s.immU imm))) (s.rS a).v = some (v, f) →
        exec (.fcvt d a imm) s = .next ((s.rung.flagged (if (s.rS a).p then {} else f)).setS d { v := v, p := (s.rS a).p } 4).wordDone)

/-! ## Control -/

/-- R120, R146 to R148, R154: PB, BR, BRN, CALL, RET and END. S tests the flag of BR and BRN and pushes what it decided to the four
other engines, which take it from their FIFOs; in the monitor it pushes nothing. CALL with 16 entries on the return stack, and RET with
none, raise STACK in S. END stops its engine; S's releases the core's claims and pins once its accesses are complete, A's the streams, rings
and unfold binding (endA). -/
def Obligations.BranchWords : Prop :=
  ∀ (s : State) (n : BitVec 2) (f : BitVec 3) (imm : BitVec 12) (want : Bool), s.issues = true →
    let target := s.unit.b[n.toFin]
    let i : Instr := if want then .br n f else .brn n f
    (s.extends = true →
      let a : Int := s.unit.pc.toNat + (s.immS imm).toInt
      0 ≤ a → a ≤ 65535 → exec (.pb n imm) s = .next (s.rung.onUnit (fun t => { t with b := t.b.set n.toFin (BitVec.ofInt 16 a) })).wordDone) ∧
    (s.bare = true →
      (s.cur.eng = .S → (s.rF f).p = false → s.room = true → ((s.rF f).v = want → isBitmap s.me target.toNat = false) →
        exec i s = .next
          (if (s.rF f).v = want then ((s.rung.pushes (.branch (s.rF f).v)).leaves target).wordDone (.goto (target.setWidth 17))
           else (s.rung.pushes (.branch (s.rF f).v)).wordDone)) ∧
      (s.cur.eng ≠ .S → ∀ v r, s.unit.decs = .branch v :: r →
        exec i s = .next (if v = want then (s.rung.pops.leaves target).wordDone (.goto (target.setWidth 17)) else s.rung.pops.wordDone)) ∧
      (s.unit.rets.length < 16 → isBitmap s.me target.toNat = false →
        exec (.call n) s = .next ((s.rung.onUnit (fun t => { t with rets := (t.pc + 1) :: t.rets })).wordDone (.goto (target.setWidth 17)))) ∧
      (∀ a r, s.unit.rets = a :: r →
        exec .ret s = .next ((s.rung.onUnit (fun t => { t.closeWhere (fun _ => true) with rets := r })).wordDone (.goto a))) ∧
      (s.cur.eng = .S → 16 ≤ s.unit.rets.length → exec (.call n) s = .next (s.rung.traps cSTACK 16)) ∧
      (s.cur.eng = .S → s.unit.rets = [] → exec .ret s = .next (s.rung.traps cSTACK 0)) ∧
      (let ended := fun (t : State) =>
         (Host.Outcome.next ((t.onUnit (fun t => { t with rets := [], loops := Vector.replicate 4 {} })).wordDone .halt) : Host.Outcome State Fault Refusal)
       let c := s.cur.core
       s.me.mon = false →
       (s.cur.eng ≠ .S → s.cur.eng ≠ .A → exec .endW s = ended s.rung) ∧
       (s.cur.eng = .S → s.flights.any (fun f => f.core == c && f.eng == .S && !f.rel) = false →
         s.flights.any (fun f => f.core == c && f.mode == .r && f.fp.isNone) = false →
         exec .endW s = ended { ((s.rung.releases .S (s.me.claims.map (·.2))).onMe (fun k => { k with claims := [] })) with
                                pins := s.pins.filter (fun p => p.owner != .core c) }) ∧
       (s.cur.eng = .A → s.me.streams = Vector.replicate 16 none → s.me.rings = Vector.replicate 8 none →
         exec .endW s = ended (s.rung.onMe (fun k => { k with unfold := none }))) ∧
       (s.cur.eng = .A → ∀ u, endA s.rung = .ok () u → exec .endW s = ended u)))

/-- R149, R151: LOOP, LOOPI and BREAKL. Where it rests on the model's choice: notes/assumptions 17. -/
def Obligations.LoopWords : Prop :=
  ∀ (s : State) (n : BitVec 2) (m imm len : BitVec 6) (f : BitVec 3), s.issues = true → s.me.mon = false →
    (s.extends = true →
      (s.loopOk n (s.immU imm) = true →
        (s.cur.eng = .S → (s.rS m).p = false → (s.rS m).v.toNat < 2 ^ 32 → s.room = true →
          exec (.loop n m imm) s = .next ((s.rung.pushes (.count ((s.rS m).v.setWidth 32))).loops n (s.immU imm) (s.rS m).v.toNat)) ∧
        (s.cur.eng ≠ .S → ∀ c r, s.unit.decs = .count c :: r →
          exec (.loop n m imm) s = .next (s.rung.pops.loops n (s.immU imm) c.toNat))) ∧
      (s.loopOk n len.toNat = true →
        exec (.loopi n len imm) s = .next (s.rung.loops n len.toNat (s.immU imm)))) ∧
    (s.bare = true → s.unit.inFrame n.toFin = true →
      let l := s.unit.loops[n.toFin]
      let after := BitVec.ofNat 17 (l.stop.toNat + 1)
      let out := fun (t : State) => (t.onUnit (fun u => u.closeWhere (fun x => decide (l.start.toNat ≤ x.start.toNat)))).wordDone (.goto after)
      (s.cur.eng = .S → (s.rF f).p = false → s.room = true → ((s.rF f).v = true → isBitmap s.me (l.stop.toNat + 1) = false) →
        exec (.breakl n f) s = .next
          (let t := s.rung.pushes (.branch (s.rF f).v)
           if (s.rF f).v then out t else t.wordDone)) ∧
      (s.cur.eng ≠ .S → ∀ v r, s.unit.decs = .branch v :: r →
        exec (.breakl n f) s = .next (if v then out s.rung.pops else s.rung.pops.wordDone)))

/-- R155, R156, R69, R152, R153: NOP of every engine only takes its slot; EXT of every engine leaves its payload pending for the next
word, behind at most one earlier prefix of the same tag; SYNC passes once all five engines stand at it, and the last to come moves the
other four past it too; a PHINT that asks for no saving is passed so, with its two bitmap words. -/
def Obligations.SlotsAndRendezvous : Prop :=
  ∀ (s : State) (p : BitVec 18),
    (s.issues = true → s.bare = true →
      let meet := fun (t : State) (n : Nat) => (Host.Outcome.next ((t.onMe
        (fun k => (engines.filter (· ≠ s.cur.eng)).foldl (fun k e => k.move e (.seq n)) k)).wordDone (.seq n)) : Host.Outcome State Fault Refusal)
      let stands := s.rung.onUnit (fun t => { t with atSync := true })
      (∀ i ∈ [Instr.nop, .nopA, .nopV, .nopM, .nopX], exec i s = .next s.rung.wordDone) ∧
      (s.me.mon = false → exec .nopB s = .next s.rung.wordDone) ∧
      (s.me.mon = false → (∀ e ∈ engines, e ≠ s.cur.eng → (s.me.eng e).atSync = true) →
        exec .sync s = meet stands 1 ∧
        (s.me.stopReq = false → s.me.preq = false → s.cancelling s.cur.core = false →
          exec .phint s = meet (stands.onMe (fun k => { k with phint := some (s.me.word (s.unit.pc.toNat + 1), s.me.word (s.unit.pc.toNat + 2)) })) 3))) ∧
    (s.cur.core < 96 → s.me.mon = false → s.unit.extEdge = false → s.unit.ext.length < 2 →
      (∀ i ∈ [Instr.extS p, .extA p, .extV p, .extM p, .extX p], (s.unit.ext = [] ∨ s.unit.extB = false) →
        exec i s = .next (s.onMe (fun k => k.moveExt s.cur.eng p false))) ∧
      ((s.unit.ext = [] ∨ s.unit.extB = true) → exec (.extB p) s = .next (s.onMe (fun k => k.moveExt s.cur.eng p true))))

/-! ## Value FIFOs, semaphores and CSRs -/

/-- R157, R158, R140, R161 to R163: a value that carries no poison joins its FIFO while there is room, and one that does raises POISON; a get takes the oldest value of
a FIFO that holds one. SIG leaves its increment with the semaphore unit; WAIT takes its count at once when the semaphore has it and no
WAIT of the engine stands waiting; SEMRD reads a semaphore. Where it rests on the model's choice: notes/assumptions 3, 101. -/
def Obligations.FifoAndSemaphoreWords : Prop :=
  ∀ (s : State) (n : BitVec 6) (a : BitVec 5) (k : BitVec 4) (h : BitVec 3) (m : BitVec 4) (c : BitVec 14) (imm : BitVec 12), s.issues = true →
    let put := fun (i : Fin 8) (r : Reg) => (Host.Outcome.next (s.rung.puts i r.v).wordDone : Host.Outcome State Fault Refusal)
    let room := fun (i : Fin 8) (r : Reg) => s.me.fifo[i].length < 16 ∧ r.p = false
    let first := fun (i : Fin 8) => ({ v := s.me.fifo[i].headD 0 } : Reg)
    let held := fun (i : Fin 8) => s.me.fifo[i] ≠ []
    let poison := fun (i : Instr) (n : Fin 8) (r : Reg) => s.me.fifo[n].length < 16 → r.p = true →
      exec i s = (.next (s.rung.traps cPOISON (BitVec.ofNat 64 n.val)) : Host.Outcome State Fault Refusal)
    (s.bare = true →
      poison (.puta n) 0 (s.rS n) ∧ poison (.putv n) 1 (s.rS n) ∧ poison (.putm n) 2 (s.rS n) ∧ poison (.putx n) 3 (s.rS n) ∧
      poison (.putsA a) 4 (s.rA a) ∧ poison (.putsV k) 5 (s.rK k) ∧ poison (.putsM h) 6 (s.rH h) ∧ poison (.putsX k) 7 (s.rX k) ∧
      (room 0 (s.rS n) → exec (.puta n) s = put 0 (s.rS n)) ∧
      (room 1 (s.rS n) → exec (.putv n) s = put 1 (s.rS n)) ∧
      (room 2 (s.rS n) → exec (.putm n) s = put 2 (s.rS n)) ∧
      (room 3 (s.rS n) → exec (.putx n) s = put 3 (s.rS n)) ∧
      (room 4 (s.rA a) → exec (.putsA a) s = put 4 (s.rA a)) ∧
      (room 5 (s.rK k) → exec (.putsV k) s = put 5 (s.rK k)) ∧
      (room 6 (s.rH h) → exec (.putsM h) s = put 6 (s.rH h)) ∧
      (room 7 (s.rX k) → exec (.putsX k) s = put 7 (s.rX k)) ∧
      (held 4 → exec (.geta n) s = .next ((s.rung.gets 4).setS n (first 4) 0).wordDone) ∧
      (held 5 → exec (.getv n) s = .next ((s.rung.gets 5).setS n (first 5) 0).wordDone) ∧
      (held 6 → exec (.getm n) s = .next ((s.rung.gets 6).setS n (first 6) 0).wordDone) ∧
      (held 7 → exec (.getx n) s = .next ((s.rung.gets 7).setS n (first 7) 0).wordDone) ∧
      (held 0 → exec (.getsA a) s = .next ((s.rung.gets 0).setA a (first 0) 0).wordDone) ∧
      (held 1 → exec (.getsV k) s = .next ((s.rung.gets 1).setK k (first 1) 0).wordDone) ∧
      (held 2 → exec (.getsM h) s = .next ((s.rung.gets 2).setH h (first 2) 0).wordDone) ∧
      (held 3 → exec (.getsX k) s = .next ((s.rung.gets 3).setX k (first 3) 0).wordDone) ∧
      (∀ i ∈ [Instr.sig m c, .sigA m c, .sigV m c, .sigM m c, .sigX m c],
        exec i s = .next (s.rung.onMe (fun k => { k with semIncs := k.semIncs ++ [{ src := .eng s.cur.eng s.unit.slot, sem := m, count := c.toNat, seen := s.rung.unit.seen }] })).wordDone) ∧
      (∀ i ∈ [Instr.wait m c, .waitA m c, .waitV m c, .waitM m c, .waitX m c],
        (s.unit.waitMet = true → exec i s = .next (s.rung.learns m).wordDone) ∧
        (s.unit.waitMet = false → s.me.semWaits.all (fun w => w.eng != s.cur.eng || w.mon != s.me.mon) = true → c.toNat ≤ s.me.sem[m.toFin].toNat →
          exec i s = .next ((s.rung.onMe (fun k => { k with sem := k.sem.set m.toFin (k.sem[m.toFin] - c.setWidth 16) })).learns m).wordDone))) ∧
    (s.extends = true → ∀ j : Fin 16, s.immU imm = j.val →
      exec (.semrd n imm) s = .next (s.rung.setS n { v := s.me.sem[j].setWidth 64 } 4).wordDone)

/-- R114 to R116, R118: CSRR reads every CSR that Table 4.8 lists; CSRW writes the writable ones, WIN only from 64 to 4,096, and raises
PRIV at a read-only one; a number not listed raises ILLEGAL.
CYCLE's counter runs on by a free number of cycles, one at least. Where it rests on the model's choice: notes/assumptions 19, 82. -/
def Obligations.CsrWords : Prop :=
  ∀ (s : State) (d : BitVec 6) (n : BitVec 12), s.issues = true → s.bare = true →
    (s.fstatOwed n = false → ∀ v, readCsr s.cur.core s.me.lastCtx s.me n.toNat = some v →
      exec (.csrr d n) s = .next (s.rung.setS d { v := v } 4).wordDone) ∧
    (s.fstatOwed n = false → readCsr s.cur.core s.me.lastCtx s.me n.toNat = none →
      exec (.csrr d n) s = .next (s.rung.traps cILLEGAL (s.unit.pc.setWidth 64)) ∧ exec (.csrw d n) s = .next (s.rung.traps cILLEGAL (s.unit.pc.setWidth 64))) ∧
    (s.fstatOwed n = false → (readCsr s.cur.core s.me.lastCtx s.me n.toNat).isSome = true → n.toNat ∉ [0x08, 0x10, 0x11, 0x12, 0x13, 0x14, 0x28, 0x29] →
      exec (.csrw d n) s = .next (s.rung.traps cPRIV (n.setWidth 64))) ∧
    (s.fstatOwed n = false → ∀ e ∈ engines, n.toNat = 0x10 + e.code → exec (.csrr d n) s = .next (s.rung.setS d { v := (s.me.eng e).fstat.setWidth 64 } 4).wordDone) ∧
    (s.fstatOwed n = false → (s.rS d).p = false → n.toNat ∈ [0x08, 0x10, 0x11, 0x12, 0x13, 0x14, 0x28, 0x29] → (n.toNat = 8 → 64 ≤ (s.rS d).v.toNat ∧ (s.rS d).v.toNat ≤ 4096) →
      exec (.csrw d n) s = .next (s.rung.onMe (fun k => (writeCsr k n.toNat (s.rS d).v).getD k)).wordDone) ∧
    (let t := s.rung.bumpFree.onMe (fun k => { k with cycle := k.cycle + 1 + BitVec.ofNat 64 (Config.freeNat s.freeCtr) })
     exec (.cycle d) s = .next (t.setS d { v := s.me.cycle + 1 + BitVec.ofNat 64 (Config.freeNat s.freeCtr) } 4).wordDone)

/-! ## V -/

/-- R215 to R217, R213, R214, R218: words of V that take a result element by element from one or two sources. Each active
element is the operation's on the elements at its place, with their tags joined and the governing mask bit's; inactive
elements follow R210; a push of a poisoned entry ends with POISON (R140). VADD to VLOG2 draw on the stochastic-rounding index. Where it rests on the model's choice: notes/assumptions 25, 97. -/
def Obligations.VectorElementResults : Prop :=
  ∀ (s : State) (d : VDst) (a b : VSrc), s.issues = true → s.bare = true →
    let g := s.me.cfg
    let one := State.sources g.w [a] s
    let two := State.sources g.w [a, b] s
    let un := fun (op : SrIn → Nat → Elem) =>
      mould g s.mask d (s.before g.w d) (fun i => let x := el one 0 i; let r := op (s.me.srAt i) x.1; (r.1, x.2, r.2))
    let bin := fun (op : SrIn → Nat → Nat → Elem) =>
      mould g s.mask d (s.before g.w d) (fun i => let x := el two 0 i; let y := el two 1 i; let r := op (s.me.srAt i) x.1 y.1; (r.1, x.2 || y.2, r.2))
    let goes1 := fun (i : Instr) (n bound : Nat) (op : SrIn → Nat → Elem) =>
      s.srcsHeld [a] = true → s.takesOne d = true → exec i s = .next (s.vecEnds [a] d (un op) bound n)
    let goes2 := fun (i : Instr) (n bound : Nat) (op : SrIn → Nat → Nat → Elem) =>
      s.srcsHeld [a, b] = true → s.takesOne d = true → exec i s = .next (s.vecEnds [a, b] d (bin op) bound n)
    goes2 (.vadd d a b) g.n 4 (addElem g.fmt g.sat g.mode) ∧
    goes2 (.vsub d a b) g.n 4 (subElem g.fmt g.sat g.mode) ∧
    goes2 (.vmul d a b) g.n 4 (mulElem g.fmt g.sat g.mode) ∧
    goes2 (.vmin d a b) 0 2 (fun _ => minElem g.fmt) ∧
    goes2 (.vmax d a b) 0 2 (fun _ => maxElem g.fmt) ∧
    goes1 (.vabs d a) 0 2 (fun _ => absElem g.fmt) ∧
    goes1 (.vneg d a) 0 2 (fun _ => negElem g.fmt) ∧
    goes2 (.vand d a b) 0 2 (fun _ x y => (x &&& y, {})) ∧
    goes2 (.vor d a b) 0 2 (fun _ x y => (x ||| y, {})) ∧
    goes2 (.vxor d a b) 0 2 (fun _ x y => (x ^^^ y, {})) ∧
    goes1 (.vmov d a) 0 2 (fun _ x => (x, {})) ∧
    (g.isFloat = true →
      goes2 (.vdiv d a b) g.n 16 (divElem g.fmt g.sat g.mode) ∧
      goes1 (.vsqrt d a) g.n 16 (funcElem FP.sqrt g.fmt g.sat g.mode) ∧
      goes1 (.vrcp d a) g.n 8 (funcElem FP.rcp g.fmt g.sat g.mode) ∧
      goes1 (.vrsq d a) g.n 8 (funcElem FP.rsqrt g.fmt g.sat g.mode) ∧
      goes1 (.vexp2 d a) g.n 8 (funcElem FP.exp2 g.fmt g.sat g.mode) ∧
      goes1 (.vlog2 d a) g.n 8 (funcElem FP.log2 g.fmt g.sat g.mode) ∧
      goes1 (.vclass d a) 0 2 (fun _ x => (classElem g.fmt x, {}))) ∧
    (g.isFloat = false →
      goes2 (.vadds d a b) 0 4 (fun _ => addsElem g.fmt) ∧
      goes2 (.vmulh d a b) 0 4 (fun _ => mulhElem g.fmt) ∧
      goes2 (.vshl d a b) 0 2 (fun _ => shlElem g.fmt) ∧
      goes2 (.vshr d a b) 0 2 (fun _ => shrElem g.fmt) ∧
      goes2 (.vsra d a b) 0 2 (fun _ => sraElem g.fmt))

/-- R216, R220, R226 to R229: VFMA, VSEL, and the words that move elements. -/
def Obligations.VectorMoveResults : Prop :=
  ∀ (s : State) (d : VDst) (v : BitVec 5) (a b : VSrc) (k : BitVec 4), s.issues = true → s.bare = true →
    let g := s.me.cfg
    let m := s.mask
    let one := State.sources g.w [a] s
    let two := State.sources g.w [a, b] s
    let withK := State.sources g.w [a, .k k] s
    let fma := State.sources g.w [a, b, .v v] s
    let res := fun (d : VDst) (f : Nat → Nat × Bool) => mould g m d (s.before g.w d) (fun i => ((f i).1, (f i).2, {}))
    let goes := fun (i : Instr) (srcs : List VSrc) (d : VDst) (r : VecReg × Flags) (bound n : Nat) =>
      s.srcsHeld srcs = true → s.takesOne d = true → exec i s = .next (s.vecEnds srcs d r bound n)
    let every := fun (f : Nat → Nat × Bool) => ((vecOf g.w ((List.range g.n).map f), {}) : VecReg × Flags)
    goes (.vfma v a b) [a, b, .v v] (.v v)
      (mould g m (.v v) (s.before g.w (.v v)) (fun i =>
        let x := el fma 0 i
        let y := el fma 1 i
        let z := el fma 2 i
        let r := fmaElem g.fmt g.sat g.mode (s.me.srAt i) x.1 y.1 z.1
        (r.1, x.2 || y.2 || z.2, r.2))) 4 g.n ∧
    goes (.vsel d a b) [a, b] d (every (fun i => let e := el two (if m.v.getLsbD i then 0 else 1) i; (e.1, e.2 || m.p.getLsbD i))) 2 0 ∧
    goes (.vbcast d a) [a] d (res d (fun _ => el one 0 0)) 2 0 ∧
    goes (.vcomp d a) [a] d (every (fun j =>
      let pm := (List.range g.n).any (fun i => m.p.getLsbD i)
      match (actives g.n m)[j]? with
      | some i => ((el one 0 i).1, (el one 0 i).2 || taintedBelow m (i + 1))
      | none => (0, pm))) 6 0 ∧
    goes (.vexpd d a) [a] d (res d (fun i => ((el one 0 (below m i)).1, (el one 0 (below m i)).2 || taintedBelow m i))) 6 0 ∧
    goes (.vslup d a k) [a, .k k] d (res d (fun i => if i = 0 then el withK 1 0 else el withK 0 (i - 1))) 2 0 ∧
    goes (.vsldn d a k) [a, .k k] d (res d (fun i => if i + 1 = g.n then el withK 1 0 else el withK 0 (i + 1))) 2 0 ∧
    goes (.vperm d a b) [a, b] d (res d (fun i =>
      let j := el two 1 i
      if j.1 < g.n then ((el two 0 j.1).1, (el two 0 j.1).2 || j.2) else (0, j.2))) 6 0 ∧
    (∀ q, (s.rK k).v.toNat = 2 ^ q → 2 ^ q ≤ g.n →
      goes (.vxpose d a k) [a] d (res d (fun i =>
        let x := el one 0 (i % (g.n / 2 ^ q) * 2 ^ q + i / (g.n / 2 ^ q))
        (x.1, x.2 || (s.rK k).p))) 6 0) ∧
    (g.isFloat = false → goes (.viota d) [] d (every (fun i => (below m i % 2 ^ g.w, (List.range i).any (fun j => m.p.getLsbD j)))) 4 0)

/-- R219, R221, R232: compares, mask words, MPOP, MFIRST, MSET and VTOK. -/
def Obligations.VectorMaskResults : Prop :=
  ∀ (s : State) (d x y : BitVec 3) (a b : VSrc) (c : VIn) (k i j : BitVec 4), s.issues = true → s.bare = true →
    let g := s.me.cfg
    let two := State.sources g.w [a, b] s
    let one := State.sources g.w [c.src] s
    let old : MaskReg := if d = 0 then {} else s.me.m[d.toFin]
    let cmp := fun (op : Nat → Nat → Bool) => maskOf ((List.range g.n).map (fun i =>
      let p := el two 0 i
      let q := el two 1 i
      let t := s.mask.p.getLsbD i
      if s.mask.v.getLsbD i then (op p.1 q.1, p.2 || q.2 || t)
      else if g.zero then (false, t) else (old.v.getLsbD i, old.p.getLsbD i || t)))
    let goes := fun (i : Instr) (op : Nat → Nat → Bool) =>
      s.srcsHeld [a, b] = true → exec i s = .next (([a, b].foldl State.takes s.rung).setM d (cmp op) 2).wordDone
    let mask := fun (v p : BitVec 1024) => (Host.Outcome.next (s.rung.setM d { v := v, p := p } 1).wordDone : Host.Outcome State Fault Refusal)
    goes (.vceq d a b) (eqElem g.fmt) ∧
    goes (.vcne d a b) (fun x y => !eqElem g.fmt x y) ∧
    goes (.vclt d a b) (ltElem g.fmt) ∧
    goes (.vcle d a b) (leElem g.fmt) ∧
    exec (.mand d x y) s = mask ((s.rM x).v &&& (s.rM y).v) ((s.rM x).p ||| (s.rM y).p) ∧
    exec (.mor d x y) s = mask ((s.rM x).v ||| (s.rM y).v) ((s.rM x).p ||| (s.rM y).p) ∧
    exec (.mxor d x y) s = mask ((s.rM x).v ^^^ (s.rM y).v) ((s.rM x).p ||| (s.rM y).p) ∧
    exec (.mnot d x) s = mask (~~~ (s.rM x).v) (s.rM x).p ∧
    exec (.mpop k x) s = .next (s.rung.setK k { v := BitVec.ofNat 64 (popcount (lowBits g.n (s.rM x).v) g.n), p := lowBits g.n (s.rM x).p != 0 } 2).wordDone ∧
    exec (.mfirst k x) s = .next (s.rung.setK k { v := BitVec.ofNat 64 (trailZeros g.n (lowBits g.n (s.rM x).v)), p := lowBits g.n (s.rM x).p != 0 } 2).wordDone ∧
    exec (.mset d i j) s = mask
      (BitVec.ofNat 1024 (2 ^ min (s.rK j).v.toNat 1024 - 1) &&& ~~~ (BitVec.ofNat 1024 (2 ^ min (s.rK i).v.toNat 1024 - 1)))
      (if (s.rK i).p || (s.rK j).p then BitVec.allOnes 1024 else 0) ∧
    (s.srcsHeld [c.src] = true →
      exec (.vtok k c i) s = .next ((s.rung.takes c.src).setK k
        (let e := el one 0 (s.rK i).v.toNat
         if (s.rK i).v.toNat < g.n then
           { v := if g.fmt = 11 ∨ g.fmt = 13 then BitVec.ofInt 64 (sintOf g.w e.1) else BitVec.ofNat 64 e.1, p := e.2 || (s.rK i).p }
         else { v := 0, p := (s.rK i).p }) 3).wordDone)

/-- R54, R231: reductions and the scan. In the stochastic rounding mode each raises ILLEGAL. Where it rests on the model's choice: notes/assumptions 97. -/
def Obligations.VectorReductions : Prop :=
  ∀ (s : State) (d : VDst) (a : VSrc), s.issues = true → s.bare = true →
    (s.me.cfg.mode = .sr →
      let ill := (Host.Outcome.next (s.rung.traps cILLEGAL (s.unit.pc.setWidth 64)) : Host.Outcome State Fault Refusal)
      exec (.vrsum d a) s = ill ∧ exec (.vrmax d a) s = ill ∧ exec (.vrmin d a) s = ill ∧ exec (.vscan d a) s = ill) ∧
    (s.me.cfg.mode ≠ .sr → s.srcsHeld [a] = true →
      let g := s.me.cfg
      let x := (State.sources g.w [a] s).getD 0 []
      let m := s.mask
      let tag := fun (i : Nat) => (m.v.getLsbD i && (x.getD i (0, false)).2) || m.p.getLsbD i
      let lanes := fun (id : Nat) => (List.range g.n).map (fun i => if m.v.getLsbD i then (x.getD i (0, false)).1 else id)
      let total := fun (op : Nat) =>
        let r := treeReduce (reduceOp g op) 10 (List.zip (lanes (identityOf g.fmt op)) ((List.range g.n).map tag)) {}
        ((vecOf g.w ((List.range g.n).map (fun i => if i = 0 then r.1 else (0, false))), r.2) : VecReg × Flags)
      let scan :=
        let first := (lanes 0).getD 0 0
        let rest := (lanes 0).drop 1
        let clean := ((List.range g.n).takeWhile (fun i => !tag i)).length
        ((vecOf g.w (List.zip (first :: (scanLeft (reduceOp g 0) first rest).1) ((List.range g.n).map (fun i => (List.range (i + 1)).any tag))),
          (scanLeft (reduceOp g 0) first (rest.take (clean - 1))).2) : VecReg × Flags)
      (s.takesOne d = true → exec (.vrsum d a) s = .next (s.vecEnds [a] d (total 0) 12 0)) ∧
      (s.takesOne d = true → exec (.vrmax d a) s = .next (s.vecEnds [a] d (total 1) 12 0)) ∧
      (s.takesOne d = true → exec (.vrmin d a) s = .next (s.vecEnds [a] d (total 2) 12 0)) ∧
      (s.takesOne d = true → exec (.vscan d a) s = .next (s.vecEnds [a] d scan 24 0)))

/-- R208, R213: VCFG takes its configuration from its immediate or, for type and rounding, from a format-table entry;
VSRND sets the stochastic-rounding state. Where it rests on the model's choice: notes/assumptions 86. -/
def Obligations.VectorConfiguration : Prop :=
  ∀ (s : State) (imm : BitVec 17) (d a b : BitVec 4), s.issues = true →
    (s.extends = true → s.immU (imm.setWidth 18) < 2 ^ 18 →
      (imm.getLsbD 7 = false → imm.extractLsb' 8 5 = 0 → isVecType (imm.extractLsb' 0 4).toNat = true →
        exec (.vcfg imm) s = .next (s.rung.onMe (fun k => { k with vcfg := imm })).wordDone) ∧
      (∀ i ∈ s.ftSel (imm.extractLsb' 8 5),
        let e := s.rung.ftFound i
        imm.getLsbD 7 = true → imm.extractLsb' 0 6 = 0 → isVecType (e.extractLsb' 12 4).toNat = true →
        let v := imm.extractLsb' 13 4 ++ (0#6) ++ imm.extractLsb' 6 1 ++ e.extractLsb' 16 2 ++ e.extractLsb' 12 4
        exec (.vcfg imm) s = .next ((s.rung.ftChosen i).onMe (fun k => { k with vcfg := v })).wordDone)) ∧
    (s.bare = true → (s.rK d).p = false → (s.rK a).p = false → (s.rK b).p = false →
      exec (.vsrnd d a b) s = .next (s.rung.onMe (fun k => { k with seed := (s.rK d).v, step := (s.rK a).v, idx := (s.rK b).v })).wordDone)

/-- R222 to R225: conversions, for every pair of types that Tables 7.5 and 7.6 admit. Where it rests on the model's choice: notes/assumptions 97. -/
def Obligations.VectorConversions : Prop :=
  ∀ (s : State) (d : VDst) (n : BitVec 5) (q : BitVec 2) (x : VSrc) (a : VIn) (sel : BitVec 4) (sel5 : BitVec 5) (sel6 : BitVec 6),
    s.issues = true → s.extends = true →
    let g := s.me.cfg
    let m := s.mask
    let one := State.sources g.w [x] s
    let conv := mould g m d (s.before g.w d) (fun i =>
      let e := el one 0 i
      let r := cvtElem sel.toNat g.fmt g.sat g.mode (s.me.srAt i) e.1
      (r.1, e.2, r.2))
    let wide := fun (d : VDst) (rho j : Nat) => (mould g m d (s.before g.w d) (fun i =>
      let e := (s.source (fmtBits sel.toNat) a.src).getD (rho * i + j) (0, false)
      (exactCode g.fmt (decodeElem sel.toNat e.1), e.2, {}))).1
    let narrow := fun (f rho : Nat) (ns : Bool) (scale : FP → Val) (kp : Bool) =>
      let rs := (List.range (g.n * rho)).map (fun e =>
        let t := m.p.getLsbD (e / rho)
        if m.v.getLsbD (e / rho) then
          let z := ((s.wideGroup g.w rho a).getD (e % rho) []).getD (e / rho) (0, false)
          let y := scale (decodeElem g.fmt z.1)
          let c := roundTo f (if f = 1 ∨ f = 2 then g.sat else !ns) true g.mode (s.me.srAt e) y.v
          ((c.code, z.2 || kp || t), if z.2 || kp || t then {} else y.f.or c.f)
        else (((inactive g d (s.before (fmtBits f) d) e).1, (inactive g d (s.before (fmtBits f) d) e).2 || kp || t), {}))
      ((vecOf (fmtBits f) (rs.map (fun r => (r.1.1, r.1.2))), orFlags (rs.map (·.2))) : VecReg × Flags)
    let narrows := fun (i : Instr) (rho : Nat) (r : VecReg × Flags) =>
      s.groupReady rho a = true → s.takesOne d = true →
        exec i s = .next (s.orPoison d r.1 ((((s.rung.takesGroup rho a).flagged r.2).setD d r.1 4).onMe (fun k => { k with idx := k.idx + BitVec.ofNat 64 (g.n * rho) })).wordDone)
    let k15 := s.rK 15
    (s.immU (sel.setWidth 6) ≤ 63 →
      (cvtPair sel.toNat g.fmt = true → s.srcsHeld [x] = true → s.takesOne d = true →
        exec (.vcvt d x sel) s = .next (s.vecEnds [x] d conv 4 g.n)) ∧
      (∀ r ∈ pairOf g.fmt sel.toNat, r.2.1 = true → s.srcsHeld [a.src] = true →
        (n.toNat % r.1 = 0 → exec (.vwiden (.v n) a sel) s =
          .next ((List.range r.1).foldl (fun t j => t.setV (groupReg n j) (wide (.v (groupReg n j)) r.1 j) 4) (s.rung.takes a.src)).wordDone) ∧
        (s.fits q r.1 = true → exec (.vwiden (.oq q) a sel) s =
          .next (if (List.range r.1).all (fun j => (wide (.oq q) r.1 j).p == 0) then
              ((s.rung.takes a.src).pushesOq q ((List.range r.1).map (wide (.oq q) r.1))).wordDone
            else s.rung.traps cPOISON (oqCode q))))) ∧
    (s.immU (sel5.setWidth 6) ≤ 63 → ∀ r ∈ pairOf g.fmt (sel5.toNat % 16), r.2.1 = true →
      narrows (.vnarrow d a sel5) r.1 (narrow (sel5.toNat % 16) r.1 (sel5.getLsbD 4) (fun x => { v := x }) false)) ∧
    (s.immU sel6 ≤ 63 → ∀ r ∈ pairOf g.fmt (sel6.toNat % 16), r.2.2 = true →
      narrows (.vcvtq d a sel6) r.1
        (narrow (sel6.toNat % 16) r.1 (sel6.getLsbD 4) (scaleClip (k15.v.setWidth 32) (k15.v.extractLsb' 32 32) (sel6.getLsbD 5)) k15.p))

/-! ## Checks, arguments, traps and the monitor -/

/-- R119, R134 to R137, R176, R178: CHK passes a register that carries no poison and raises POISON on one that does; ARG reads a doubleword of
the kernel's argument window. A word that reads a register inside the bound of an earlier write gets the newest value or one the bound still
covers, or with DBGCTL.LAT set raises LATENCY with the producer's PC, which with EN set enters the monitor; a register that an access in flight has still to
bring stalls its reader. Where it rests on the model's choice: notes/assumptions 18, 29. -/
def Obligations.CheckAndArgument : Prop :=
  ∀ (s : State) (a d imm6 : BitVec 6) (imm : BitVec 12),
    (s.begins = true → a ≠ 0 →
      let olds := s.unit.pend.filter (fun p => p.reg == .s a && decide (s.unit.slot < p.bound))
      let words := [Instr.chk a, .clz d a, .popc d a, .puta a, .putv a, .putm a, .putx a]
      (s.bare = true → s.unit.pend.any (fun p => p.reg == .s a && p.lock.isSome) = true → ∀ i ∈ words, exec i s = .next s.rung) ∧
      (s.unit.pend.any (fun p => p.reg == .s a && p.lock.isSome) = false →
        (s.me.dbgLat = true → s.unit.latOnce = false → ∀ p, olds.getLast? = some p →
          let late := (Host.Outcome.next (s.rung.traps cLATENCY (p.pc.setWidth 64)) : Host.Outcome State Fault Refusal)
          (s.bare = true → ∀ i ∈ words, exec i s = late) ∧
          (s.extends = true → ∀ i ∈ [Instr.addi d a imm6, .andi d a imm6, .ori d a imm6, .xori d a imm6], exec i s = late)) ∧
        (s.me.dbgLat = false ∨ s.unit.latOnce = true → s.bare = true → olds ≠ [] →
          let r := (olds.map (·.old.asWord) ++ [s.rS a]).getD (Config.freeNat s.freeCtr % (olds.length + 1)) (s.rS a)
          exec (.clz d a) s = .next (s.rung.bumpFree.setS d { v := BitVec.ofNat 64 (64 - bitLen r.v.toNat), p := r.p } 2).wordDone ∧
          (r.p = false → exec (.chk a) s = .next s.rung.bumpFree.wordDone)))) ∧
    (∀ (c : Nat) (e : Engine) (x : BitVec 64), c < 96 → (s.core c).dbgEn = true → (s.core c).mon = false → (s.core c).stopReq = false →
      let t := s.takeTrap c e cLATENCY x
      (t.core c).mon = true ∧ (t.core c).mode = .monitor ∧ (t.core c).causes = (s.core c).causes ∧ (t.core c).edetail = x ∧
      (t.core c).engS.pc = (s.core c).dbgvec.setWidth 17 ∧ (t.core c).data = (s.core c).data) ∧
    (s.issues = true → s.bare = true →
      ((s.rS a).p = false → exec (.chk a) s = .next s.rung.wordDone) ∧
      ((s.rS a).p = true → exec (.chk a) s = .next (s.rung.traps cPOISON 0))) ∧
    (s.issues = true → s.extends = true → s.immU imm ≤ 4095 →
      (s.immU imm % 8 = 0 → s.immU imm + 8 ≤ s.me.winLen →
        exec (.arg d imm) s = .next (s.rung.setS d { v := s.me.win.get64 (s.immU imm) } 4).wordDone) ∧
      (s.immU imm % 8 ≠ 0 → exec (.arg d imm) s = .next (s.rung.traps cALIGN (BitVec.ofNat 64 (s.immU imm)))) ∧
      (s.immU imm % 8 = 0 → s.me.winLen < s.immU imm + 8 → exec (.arg d imm) s = .next (s.rung.traps cWINDOW (BitVec.ofNat 64 (s.immU imm)))))

/-- R63, R64, R117, R119 to R121: TRAP raises TRAPI with its immediate as DETAIL; a word that is no instruction raises
ILLEGAL with its PC, and where it is a B word only S does; DBG enters the monitor when DBGCTL.EN is set and the core is not stopping,
and else only takes its slot; ERET leaves the monitor, and outside it raises PRIV; in the monitor DBG, ring bits and the B words but PB, BR, BRN,
CALL and RET end the attempt. That a core which is stopping enters no monitor is the model's reading. Where it rests on the model's choice: notes/assumptions 13, 81. -/
def Obligations.TrapAndMonitorWords : Prop :=
  ∀ (s : State) (imm : BitVec 18) (n : BitVec 2) (m len : BitVec 6) (f : BitVec 3), s.cur.core < 96 →
    let ill := fun (t : State) => (Host.Outcome.next (t.traps cILLEGAL (s.unit.pc.setWidth 64)) : Host.Outcome State Fault Refusal)
    (s.me.mon = true →
      (ringOf s.cur.word ≠ Ring.zero → ∀ i ∈ [Instr.nop, .chk m, .add m len m, .pb n 0, .br n f, .brn n f, .call n, .ret, .dbg imm, .eret], exec i s = ill s) ∧
      (s.issues = true → s.bare = true → ∀ i ∈ [Instr.nopB, .sync, .phint, .endW, .breakl n f], exec i s = ill s.rung) ∧
      (s.issues = true → s.extends = true → ∀ i ∈ [Instr.loop n m len, .loopi n m len], exec i s = ill s.rung) ∧
      (s.cur.eng = .S → exec (.extB imm) s = ill s) ∧
      (s.issues = true → s.extends = true → exec (.dbg imm) s = .next (s.rung.traps cDEBUG (BitVec.ofNat 64 (s.immU imm))))) ∧
    (s.me.mon = false → s.issues = true → s.bare = true → exec .eret s = .next (s.rung.traps cPRIV (s.unit.pc.setWidth 64))) ∧
    (s.issues = true → s.extends = true →
      exec (.trap imm) s = .next (s.rung.traps cTRAPI (BitVec.ofNat 64 (s.immU imm))) ∧
      (s.me.mon = false → s.me.dbgEn = false ∨ s.me.stopReq = true → exec (.dbg imm) s = .next s.rung.wordDone) ∧
      (s.me.mon = false → s.me.dbgEn = true → s.me.stopReq = false → exec (.dbg imm) s =
        .next (s.rung.wordDone.monitorEntry s.cur.core .S cDEBUG s.unit.pc (BitVec.ofNat 64 (s.immU imm))))) ∧
    ((tagOf s.cur.word ≠ 7 ∨ s.cur.eng = .S) →
      exec .illegalWord s = .next (s.takeTrap s.cur.core s.cur.eng cILLEGAL (s.unit.pc.setWidth 64))) ∧
    (tagOf s.cur.word = 7 → s.cur.eng ≠ .S → exec .illegalWord s = .next s) ∧
    (s.me.mon = true → ringOf s.cur.word = Ring.zero → s.bare = true →
      exec .eret s = .next (s.rung.wordDone.monitorReturn s.cur.core))

/-- R100, R143, Table 4.5: what a trap outside the monitor leaves, but for LATENCY under DBGCTL.EN. The core has one more cause
record, begins to stop and takes no further words on the engine, its decision FIFOs are emptied (R143); no register or memory changes; the core's gang is
STOPPING unless it has ended, with the first core to trap noted. Where it rests on the model's choice: notes/assumptions 23, 81. -/
def Obligations.TrapEndsAttempt : Prop :=
  ∀ (s : State) (c : Nat) (e : Engine) (cause : BitVec 8) (detail : BitVec 64), c < 96 → (cause ≠ cLATENCY ∨ (s.core c).dbgEn = false ∨ (s.core c).mon = true ∨ (s.core c).stopReq = true) →
    let k := s.core c
    let t := s.takeTrap c e cause detail
    let k' := t.core c
    (∃ r, k'.causes = k.causes ++ [r] ∧ r.cause = cause ∧ r.src = e.src ∧ r.unit = BitVec.ofNat 16 c ∧ r.detail = detail ∧ r.node = k.node ∧
      r.gen = k.gen ∧ r.region = k.region ∧ r.attempt = k.attempt ∧ r.prev = (if k.causes = [] then 0xFF else 0) ∧
      (k.mode ≠ .saving → r.pc = if 65536 ≤ (k.eng e).pc.toNat then 65535 else (k.eng e).pc.setWidth 16)) ∧
    k'.stopReq = true ∧ k'.mode = .stopping ∧ k'.mon = false ∧ (k'.eng e).stopped = true ∧ (k'.eng e).pc = (k.eng e).pc ∧ (∀ x, (k'.eng x).decs = []) ∧
    k'.s = k.s ∧ k'.f = k.f ∧ k'.a = k.a ∧ k'.x = k.x ∧ k'.k = k.k ∧ k'.h = k.h ∧ k'.v = k.v ∧ k'.m = k.m ∧ k'.spad = k.spad ∧
    t.mem = s.mem ∧ (∀ d, d ≠ c → t.core d = s.core d) ∧
    (∀ g q, k.gang = some g → lookup g s.gangs = some q → ∃ q', lookup g t.gangs = some q' ∧
      q'.firstCore = (match q.firstCore with
        | some x => some x
        | none => some c) ∧
      (q.state = .running → q'.state = .stopping))

/-- R120 to R122, Table 4.8: monitor entry fills EPC, ECAUSE and EDETAIL, sets MON, sends S to DBGVEC and puts a running gang in
MONITOR; the return clears MON and sends S back to EPC.S, at its word as it stood. Neither touches a register, the scratchpad or anything else that
a program sees; of the gang's other cores the return changes only that they are no longer held and have seen the request to save. Where it rests on the model's choice: notes/assumptions 81, 105. -/
def Obligations.MonitorEntryAndReturn : Prop :=
  ∀ (s : State) (c : Nat) (e : Engine) (cause : BitVec 8) (pc : BitVec 17) (detail : BitVec 64), c < 96 →
    let k := s.core c
    let t := s.monitorEntry c e cause pc detail
    let u := t.monitorReturn c
    (t.core c).mon = true ∧ (t.core c).mode = .monitor ∧ (t.core c).engS.pc = k.dbgvec.setWidth 17 ∧ (t.core c).edetail = detail ∧
    (t.core c).ecause = (0#16 ++ pc.setWidth 16 ++ BitVec.ofNat 16 c ++ e.src ++ cause) ∧
    (∀ x : Fin 5, (t.core c).epc[x] = (k.eng ([Engine.S, .A, .V, .M, .X].getD x.val .S)).pc.setWidth 64) ∧
    (∀ x, x ≠ .S → (t.core c).eng x = k.eng x) ∧ (t.core c).data = k.data ∧
    (∀ d, d ≠ c → t.core d = s.core d) ∧
    (∀ g q, k.gang = some g → lookup g s.gangs = some q → lookup g t.gangs = some { q with state := if q.state = .running then .monitor else q.state }) ∧
    (u.core c).mon = false ∧ (u.core c).mode = .running ∧ (u.core c).engS.pc = k.engS.pc ∧ (u.core c).engS.ext = k.engS.ext ∧
    (u.core c).engS.ringDone = k.engS.ringDone ∧ (u.core c).engS.waitMet = k.engS.waitMet ∧
    (∀ x, x ≠ .S → (u.core c).eng x = k.eng x) ∧ { (u.core c).data with semWaits := [], preq := false } = { k.data with semWaits := [], preq := false } ∧
    (u.core c).semWaits = k.semWaits.filter (fun w => !w.mon) ∧
    (∀ d, d ≠ c → ∃ h p, u.core d = { s.core d with held := h, preq := p } ∧ ((s.core d).preq = true → p = true)) ∧ u.mem = s.mem

/-! ## M -/

/-- R252, R253, R250, R248: stage predicates, chains and the format table. In an inactive stage a governed word takes its slot, acts on
its ring bits and uses up its prefixes, and nothing else happens. -/
def Obligations.MatrixControl : Prop :=
  ∀ (s : State) (stg dm1 : BitVec 3) (lvl : BitVec 2) (n : BitVec 4) (count : BitVec 14) (w : BitVec 1) (sel : BitVec 5) (h : BitVec 3)
    (q : BitVec 3) (o : BitVec 2) (z a b : BitVec 4) (koff : BitVec 6), s.issues = true →
    (s.extends = true →
      (s.skipped = true → ∀ i ∈ [Instr.mldn w q sel, .mldw w q sel, .mstep z koff sel, .mstepz z koff sel, .mzero z, .mscl z a h, .macc z a b, .mtrz z a,
        .mwb o z sel, .mpeek o z h], exec i s = .next s.rung.wordDone) ∧
      (∀ g ∈ s.me.stage, s.immU (stg.setWidth 18) ≤ 7 → stg.toNat < g.depth →
        exec (.mstage stg) s = .next (s.rung.onMe (fun k => { k with stage := some { g with cur := stg.toNat } })).wordDone) ∧
      (s.immU (1#1 ++ 0#12 ++ dm1 ++ lvl) < 2 ^ 18 → s.me.engM.inFrame lvl.toFin = true →
        exec (.mstageCfg dm1 lvl) s = .next (s.rung.onMe (fun k => { k with stage := some { lvl := lvl, depth := dm1.toNat + 1, cur := 0 } })).wordDone)) ∧
    (s.bare = true →
      exec (.msel w) s = .next (s.rung.onMe (fun k => { k with msel := w })).wordDone ∧
      (count ≠ 0 → (s.me.chain.armed = true → s.me.chain.sem = n) →
        exec (.mchain n count) s = .next (s.rung.onMe (fun k =>
          { k with chain := { k.chain with armed := true, sem := n, remaining := k.chain.remaining + count.toNat } })).wordDone) ∧
      (∀ i ∈ s.ftSel sel,
        ((s.rH h).p = false → exec (.mftab sel h) s = .next (s.rung.onMe (fun k => { k with
          ft := k.ft.set i ((s.rH h).v.setWidth 32)
          ftLog := k.ftLog.filter (fun q => decide (k.engV.seen ≤ q.2.2)) ++ [(i.val, k.ft[i], k.engM.slot)] })).wordDone) ∧
        exec (.mftabR sel h) s = .next (s.rung.setH h { v := (s.me.ft[i]).setWidth 64 } 2).wordDone))

/-- R239, R240, R237, R241, R244, R253: stationary loads, steps and tile operations in an active stage (or with no stage
configured). A load pops its planes; the others enter the array sequence in order. Where it rests on the model's choice: notes/assumptions 26. -/
def Obligations.MatrixEntries : Prop :=
  ∀ (s : State) (w : BitVec 1) (q : BitVec 3) (sel : BitVec 5) (z a b : BitVec 4) (h : BitVec 3) (koff : BitVec 6),
    s.issues = true → s.bare = true → s.skipped = false →
    let n := s.me.engM.slot
    (∀ e ∈ s.ftEntry sel, isArrayFmt (ftW e) = true → 64 + sideEntries (ftW e) ≤ (s.me.iq[q.toFin]).length → s.me.stepq.all (fun o => !o.readsW w) = true →
      let load := fun (west : Bool) => (s.rung.takesMany q (64 + sideEntries (ftW e))).onMe (fun k =>
        { k with w := k.w.set w.toFin (loadSlot (ftW e) west ((s.me.iq[q.toFin]).take 64) (((s.me.iq[q.toFin]).drop 64).take (sideEntries (ftW e)))) })
      exec (.mldn w q sel) s = .next (load false).wordDone ∧ exec (.mldw w q sel) s = .next (load true).wordDone) ∧
    (s.stepRoom = true →
      exec (.mzero z) s = .next (s.rung.enters (.zero z n)).wordDone ∧
      exec (.mscl z a h) s = .next (s.rung.enters (.scl z a (s.rH h) n)).wordDone ∧
      exec (.macc z a b) s = .next (s.rung.enters (.acc z a b n)).wordDone ∧
      exec (.mtrz z a) s = .next (s.rung.enters (.trz z a n)).wordDone ∧
      (∀ e ∈ s.ftEntry sel, ∀ u ∈ s.me.unfold, ∀ mi ∈ s.levelIndex u.mlvl, ∀ ki ∈ s.levelIndex u.klvl,
        ftStepOk e = true → (s.me.w[s.me.msel.toFin]).wfmt.toNat = ftW e → unfoldFits u (ftA e) = true →
        let x := if ftXen e && (ftA e == 10 || ftW e == 10) then s.rH (ftXreg e) else {}
        let op := fun (zero : Bool) => ArrayOp.step
          { z := z, zero := zero, entry := e, slot := s.me.msel, xa := x.v.setWidth 8, xw := x.v.extractLsb' 8 8, xp := x.p
            mb := mi.getD 0, kb := (ki.getD 0) * u.kpp.toNat + koff.toNat, bind := u, covered := [], chain := none } n
        exec (.mstep z koff sel) s = .next (s.rung.enters (op false)).wordDone ∧
        exec (.mstepz z koff sel) s = .next (s.rung.enters (op true)).wordDone))

/-- R245 to R247: MWB writes a tile back in the entry's format, its planes one entry after another; MPEEK gives its 128 rows
and its step count. Where it rests on the model's choice: notes/assumptions 97. -/
def Obligations.MatrixWriteBack : Prop :=
  ∀ (s : State) (q : BitVec 2) (z : BitVec 4) (sel : BitVec 5) (h : BitVec 3), s.issues = true → s.bare = true → s.skipped = false →
    let t := s.me.z[z.toFin]
    (∀ e ∈ s.ftEntry sel, ftBackOk e = true → s.fits q ((backEntries (ftO e)).1 + (backEntries (ftO e)).2) = true →
      s.me.stepq.all (fun o => !o.touchesZ z) = true → t.rows.toList.all (fun r => r.p == 0) = true →
      (∀ r ∈ [4, 5, 6, 7, ftXreg e], (s.rH r).p = false) →
      let x := ((s.rH (ftXreg e)).v.extractLsb' 16 8).toNat
      let b := backCodes t e (if ftScale e then (s.rH 7).v.setWidth 32 else 0x3F800000)
        (if ftScale e || ftClip e then (s.rH 7).v.extractLsb' 32 32 else 0)
        (if ftO e = 10 ∧ ftXen e = true ∧ x ≠ 0 ∧ x ≠ 0x80 then some (decodeElem 3 x) else none)
        (fun i => if ftMode e = .sr ∧ ftO e ≠ 9 ∧ ftO e ≠ 10 then { seed := (s.rH 5).v, step := (s.rH 6).v, index := (s.rH 4).v + BitVec.ofNat 64 i }
          else { seed := 0, step := 0, index := BitVec.ofNat 64 i })
      exec (.mwb q z sel) s = .next ((s.rung.flagged b.2.2).pushesOq q
        (packEntries (fmtBits (ftO e)) (backEntries (ftO e)).1 b.1 ++ packEntries 8 (backEntries (ftO e)).2 b.2.1)).wordDone) ∧
    (s.fits q 128 = true → s.me.stepq.all (fun o => o.isStep || !o.touchesZ z) = true →
      exec (.mpeek q z h) s = .next (if t.rows.toList.all (fun r => r.p == 0) then
          ((s.rung.pushesOq q t.rows.toList).setH h { v := t.steps.setWidth 64 } 0).wordDone
        else s.rung.traps cPOISON (oqCode q)))

/-! ## S on global memory -/

/-- R173 to R175, R179, R180, R304: accesses of S to plain memory past the die caches under a claim. A load gives the
bytes that memory holds there; an atomic operation replaces exactly the bytes of the access, and so does a store. Each acts at once, or
stays in flight at its address and acts when it lands (R159). GLDS leaves poison where GLD would trap with XLATE, ALIGN or PROT. Where it rests on the model's choice: notes/assumptions 28, 29, 38, 84, 94. -/
def Obligations.GlobalAccessWords : Prop :=
  ∀ (s : State) (d a b imm : BitVec 6) (l : Leaf), s.issues = true → (s.rS a).p = false →
    let va := ((s.rS a).v + s.immS imm).toNat
    let vx := (s.rS a).v.toNat
    let y := (s.rS b).v
    let o := (s.rS d).v
    let at8 := s.mem.slice (l.pa va) 8
    let waits := Config.freeBit s.freeCtr
    let begun := fun (va n : Nat) (mode : FpMode) => (s.rung.covers va n mode).bumpFree
    let poison := s.rung.bumpFree.setS d { v := Config.freeWord s.freeCtr, p := true } 0
    (s.extends = true →
      (s.reaches va 8 .read .r l = true →
        let loaded := fun (safe : Bool) =>
          if waits then ((begun va 8 .r).flies va 8 .r none false (some (.load (.s d) safe))).wordDone
          else (((begun va 8 .r).flies va 8 .r).setS d { v := word64 (leNat at8) } 0).wordDone
        exec (.gld d a imm) s = .next (loaded false) ∧ exec (.glds d a imm) s = .next (loaded true)) ∧
      (2 ^ 56 ≤ va ∨ s.leafOf va = some l ∧ (va % 8 ≠ 0 ∨ s.leafProt s.me.lastCtx l .read = true) → exec (.glds d a imm) s = .next poison.wordDone) ∧
      (s.reaches va 8 .write .w l = true → (s.rS d).p = false →
        exec (.gst d a imm) s = .next
          (if waits then ((begun va 8 .w).flies va 8 .w (some (leBytes 8 o.toNat))).wordDone
           else (((begun va 8 .w).stores (l.pa va) l.key (leBytes 8 o.toNat)).flies va 8 .w).wordDone))) ∧
    (s.bare = true → (s.rS b).p = false → (s.rS d).p = false →
      (s.reaches vx (atomWidth o) .atom .atom l = true → atomLegal o = true →
        let old := leNat (s.mem.slice (l.pa vx) (atomWidth o))
        let r := atomOp o old y.toNat
        let t := begun vx (atomWidth o) .atom
        exec (.gatom d a b) s = .next
          (if waits then (t.flies vx (atomWidth o) .atom none false (some (.atom (.s d) o y))).wordDone
           else ((((t.stores (l.pa vx) l.key (leBytes (atomWidth o) r.1)).flies vx (atomWidth o) .atom).flagged r.2).setS d { v := word64 old } 0).wordDone)) ∧
      (s.reaches vx 8 .atom .atom l = true →
        let old := leNat (s.mem.slice (l.pa vx) 8)
        let t := begun vx 8 .atom
        exec (.gcas d a b) s = .next
          (if waits then (t.flies vx 8 .atom none false (some (.cas (.s d) o y))).wordDone
           else (((t.stores (l.pa vx) l.key (if old = o.toNat then leBytes 8 y.toNat else s.mem.slice (l.pa vx) 8)).flies vx 8 .atom).setS d
            { v := word64 old } 0).wordDone)))

/-- R173, R174, R140: an access of S whose address has no page, or whose walk fails, ends with XLATE or what the walk found, a
misaligned one with ALIGN, one that its page forbids with PROT, one that meets a conflicting footprint with RACE, one past its region's
budget or the watchdog's time with the resource fault, one of a sector in error with UNCORR, and one with a poisoned register with POISON. -/
def Obligations.GlobalAccessTraps : Prop :=
  ∀ (s : State) (d a b imm : BitVec 6) (l : Leaf), s.issues = true →
    let c := s.cur.core
    let ctx := s.me.lastCtx
    let region := s.me.region.toNat
    let x := (s.rS a).v
    let o := (s.rS d).v
    let va := x + s.immS imm
    let who : Who := .eng c s.cur.eng
    let plain : List (Instr × BitVec 64 × Nat × Acc × FpMode) :=
      if s.extends then [(.gld d a imm, va, 8, .read, .r), (.gst d a imm, va, 8, .write, .w)] else []
    let atomics : List (Instr × BitVec 64 × Nat × Acc × FpMode) :=
      if s.bare then (if atomLegal o then [(.gatom d a b, x, atomWidth o, .atom, .atom)] else []) ++ [(.gcas d a b, x, 8, .atom, .atom)] else []
    ((s.rS a).p = false → (s.rS b).p = false → (s.rS d).p = false → ∀ q ∈ plain ++ atomics,
      let i := q.1
      let at_ := q.2.1
      let n := q.2.2.1
      let use := q.2.2.2.1
      let mode := q.2.2.2.2
      let asks := s.asksFp at_.toNat n use mode l
      let first := s.fpWait.find? (fun w => w.who == who)
      let budget := (s.ctx ctx).fpentEff region
      (2 ^ 56 ≤ at_.toNat → exec i s = .next (s.rung.traps cXLATE at_)) ∧
      (∀ f, at_.toNat < 2 ^ 56 → s.tlb.all (fun e => !e.covers (.eng c .S) ctx at_.toNat && !e.covers (.die (c / 24)) ctx at_.toNat) = true →
        s.walkFails.find? (fun f => f.who == who && f.va == at_.toNat) = some f → f.cause ≠ cPROT ∨ at_.toNat % n = 0 →
        exec i s = .next (s.rung.traps f.cause f.detail)) ∧
      (s.leafOf at_.toNat = some l → at_.toNat % n ≠ 0 → exec i s = .next (s.rung.traps cALIGN at_)) ∧
      (s.leafOf at_.toNat = some l → at_.toNat % n = 0 → s.leafProt ctx l use = true → exec i s = .next (s.rung.traps cPROT at_)) ∧
      (asks = true → budget < 1 → exec i s = .next (s.rung.traps cBUDGET (word64 region))) ∧
      (∀ w, asks = true → 1 ≤ budget → first = some w → w.timedOut = true → exec i s = .next (s.rung.traps cFPFULL (word64 region))) ∧
      (∀ f, asks = true → 1 ≤ budget → first.all (fun w => !w.timedOut) = true → s.fpGrant who ctx region 1 = true →
        s.fpConflict ctx (.core c) [sectorRange at_.toNat mode] = some f → exec i s = .next (s.rung.traps cRACE (word64 f.base))) ∧
      (s.claims at_.toNat n use mode l = true → s.isUncorr (l.pa at_.toNat) = true → exec i s = .next (s.rung.traps cUNCORR (word64 (l.pa at_.toNat))))) ∧
    (s.extends = true →
      ((s.rS a).p = true → ∀ i ∈ [Instr.gld d a imm, .glds d a imm, .gst d a imm], exec i s = .next (s.rung.traps cPOISON (a.setWidth 64))) ∧
      ((s.rS a).p = false → (s.rS d).p = true → exec (.gst d a imm) s = .next (s.rung.traps cPOISON va))) ∧
    (s.bare = true → ∀ i ∈ [Instr.gatom d a b, .gcas d a b],
      ((s.rS a).p = true → exec i s = .next (s.rung.traps cPOISON (a.setWidth 64))) ∧
      ((s.rS a).p = false → (s.rS b).p = true ∨ (s.rS d).p = true → exec i s = .next (s.rung.traps cPOISON x)))

/-- R326 to R329, R333 to R335, R308, R310: FENCE, claims, TLBI and PGQRY, once what they wait for is complete. Where it rests on the model's choice: notes/assumptions 30. -/
def Obligations.OrderingWords : Prop :=
  ∀ (s : State) (kind scope : BitVec 2) (d a b : BitVec 6) (l : Leaf) (m : FpMode) (n : Nat) (q : Nat × Nat) (f : Fp), s.issues = true →
    let c := s.cur.core
    let x := (s.rS a).v
    let y := (s.rS b).v
    let mine := fun (g : Flight) => g.core == c
    let quiet := s.flights.all (fun g => !(mine g && g.eng == .S && g.mode != .w && !g.rel))
    let released := if scope = 1 then s.rung.marks else s.rung.marks.cleaned
    let hit := fun (a n : Nat) => y.toNat == 0 || overlaps x.toNat y.toNat a n
    let r : Range := { sp := false, lo := x.toNat, len := 64 * (y.extractLsb' 0 32).toNat, mode := m }
    (s.extends = true → s.immU (0#14 ++ kind ++ scope) ≤ 15 → kind ≠ 0 →
      (scope = 0 → exec (.fence kind scope) s = .next s.rung.wordDone) ∧
      (scope ≠ 0 → kind = 1 → quiet = true → exec (.fence kind scope) s = .next s.rung.acquiresS.wordDone) ∧
      (scope ≠ 0 → kind ≠ 1 → (if scope = 1 then s.flights.all (fun g => !(mine g && !g.sp && !g.rel && g.mode.writes && decide (g.seq ≤ s.mark)))
          else s.rung.settledTo) = true → (scope = 3 → s.rung.remoteDone = true) → (kind = 3 → quiet = true) →
        exec (.fence kind scope) s = .next (if kind = 2 then released else released.acquiresS).wordDone)) ∧
    (s.bare = true → (s.rS a).p = false →
      ((s.rS b).p = false → xfModeOf (y.extractLsb' 32 3) = some m → y.extractLsb' 0 32 ≠ 0 → y.extractLsb' 35 29 = 0 → x.toNat % 64 = 0 →
        x.toNat + r.len ≤ 2 ^ 56 → s.me.freeClaim = some n → s.fpAdmits (.eng c s.cur.eng) (.core c) s.me.lastCtx s.me.region.toNat r = true →
        exec (.fpclm d a b) s = .next ((((s.rung.entersFp (.core c) s.me.lastCtx s.me.region.toNat r).dropRecs s.me.lastCtx [r]).onMe (fun k =>
          { k with claims := k.claims ++ [(n, s.fpNext)] })).setS d { v := word64 n } 1).wordDone) ∧
      (s.me.claims.find? (fun p => p.1 == x.toNat) = some q → s.fps.find? (fun f => f.id == q.2) = some f →
        s.flights.all (fun g => !(mine g && g.eng == .S && !g.rel && overlaps g.va g.len f.base (64 * f.len))) = true →
        exec (.fprel a) s = .next ((s.rung.onMe (fun k => { k with claims := k.claims.filter (fun p => p.1 != q.1) })).releases .S [f.id]).wordDone) ∧
      ((s.rS b).p = false → x.toNat < 2 ^ 56 → (y = 0 ∨ x.toNat + y.toNat ≤ 2 ^ 56) →
        s.flights.all (fun g => !(mine g && g.eng == .S && g.mode.writes)) = true →
        s.flights.all (fun g => !((s.core g.core).lastCtx == s.me.lastCtx && !g.sp && !g.rel && !g.pends && hit g.va g.len)) = true →
        exec (.tlbi a b) s = .next (
          let t := s.rung.cleaned.does (writeBackAll (fun d => d.ctx == s.me.lastCtx && hit d.va 64))
          { t.tlbDrop s.me.lastCtx x.toNat y.toNat with
            cores := t.cores.map (fun (k : Core) => if k.lastCtx = s.me.lastCtx then k.dropEarly (fun a => hit a 64) else k) }).wordDone) ∧
      (s.leafOf x.toNat = some l → s.leafProt s.me.lastCtx l .read = false →
        exec (.pgqry d a) s = .next (s.rung.setS d
          { v := word64 (pgqryOk (.core c) l x.toNat (s.newRound s.me.lastCtx l.wslot % 2)) } 0).wordDone) ∧
      (2 ^ 56 ≤ x.toNat → exec (.pgqry d a) s = .next (s.rung.setS d { v := word64 (2 ^ 32 * cXLATE.toNat) } 0).wordDone))

/-! ## A -/

/-- R182, R183, R205, R140: A's accesses to the scratchpad, in range and aligned. Each acts at once, or stays in flight at its
address and acts when it lands (R159). Out of range they end with PROT, misaligned with ALIGN, with a poisoned register with POISON. Where it rests
on the model's choice: notes/assumptions 29. Where it rests on the model's choice: notes/assumptions 29. -/
def Obligations.ScratchpadWords : Prop :=
  ∀ (s : State) (d a b : BitVec 5) (imm : BitVec 6), s.issues = true →
    let va := (s.rA a).v + s.immS imm
    let x := (s.rA a).v
    let y := (s.rA b).v
    let o := (s.rA d).v
    let waits := Config.freeBit s.freeCtr
    let begun := s.rung.seqTaken.bumpFree
    let plain : List (Instr × BitVec 64 × Nat) := if s.extends then [(.ald d a imm, va, 8), (.ast d a imm, va, 8)] else []
    let atomics : List (Instr × BitVec 64 × Nat) :=
      if s.bare then (if atomLegal o then [(.aatom d a b, x, atomWidth o)] else []) ++ [(.acas d a b, x, 8)] else []
    ((s.rA a).p = false →
      (s.extends = true →
        (s.spadOk va 8 .r = true → exec (.ald d a imm) s = .next
          (if waits then (begun.flies va.toNat 8 .r none true (some (.load (.a d) false))).wordDone
           else (begun.setA d { v := s.me.spad.get64 va.toNat } 0).wordDone)) ∧
        (s.spadOk va 8 .w = true → (s.rA d).p = false → exec (.ast d a imm) s = .next
          (if waits then (begun.flies va.toNat 8 .w (some (leBytes 8 o.toNat)) true).wordDone
           else (begun.onMe (fun k => k.spadWrite va.toNat (leBytes 8 o.toNat))).wordDone))) ∧
      (s.bare = true → (s.rA b).p = false → (s.rA d).p = false →
        (atomLegal o = true → s.spadOk x (atomWidth o) .atom = true →
          let old := leNat (s.me.spad.slice x.toNat (atomWidth o))
          let r := atomOp o old y.toNat
          exec (.aatom d a b) s = .next
            (if waits then (begun.flies x.toNat (atomWidth o) .atom none true (some (.atom (.a d) o y))).wordDone
             else (((begun.onMe (fun k => k.spadWrite x.toNat (leBytes (atomWidth o) r.1))).flagged r.2).setA d { v := word64 old } 0).wordDone)) ∧
        (atomLegal o = false → exec (.aatom d a b) s = .next (s.rung.traps cILLEGAL (s.unit.pc.setWidth 64))) ∧
        (s.spadOk x 8 .atom = true →
          let old := leNat (s.me.spad.slice x.toNat 8)
          exec (.acas d a b) s = .next
            (if waits then (begun.flies x.toNat 8 .atom none true (some (.cas (.a d) o y))).wordDone
             else ((begun.onMe (fun k => k.spadWrite x.toNat (leBytes 8 (if old = o.toNat then y.toNat else old)))).setA d { v := word64 old } 0).wordDone))) ∧
      ((s.rA b).p = false → (s.rA d).p = false → ∀ q ∈ plain ++ atomics,
        (Config.spadBytes < q.2.1.toNat + q.2.2 → exec q.1 s = .next (s.rung.traps cPROT q.2.1)) ∧
        (q.2.1.toNat + q.2.2 ≤ Config.spadBytes → q.2.1.toNat % q.2.2 ≠ 0 → exec q.1 s = .next (s.rung.traps cALIGN q.2.1)))) ∧
    (s.extends = true →
      ((s.rA a).p = true → ∀ i ∈ [Instr.ald d a imm, .ast d a imm], exec i s = .next (s.rung.traps cPOISON (a.setWidth 64))) ∧
      ((s.rA a).p = false → (s.rA d).p = true → exec (.ast d a imm) s = .next (s.rung.traps cPOISON va))) ∧
    (s.bare = true → ∀ i ∈ [Instr.aatom d a b, .acas d a b],
      ((s.rA a).p = true → exec i s = .next (s.rung.traps cPOISON (a.setWidth 64))) ∧
      ((s.rA a).p = false → (s.rA b).p = true ∨ (s.rA d).p = true → exec i s = .next (s.rung.traps cPOISON x)))

/-- R184 to R195, R188: stream slots. A pattern in the scratchpad or in ring slots takes no footprint; one in global
memory is bound once enterStream has entered it. A bound slot or queue, and an unbound slot, raise QUEUE; a descriptor, a new base or
a skip that the pattern refuses raises STREAM, and after REBIND the slot is unbound. Where it rests on the model's choice: notes/assumptions 39, 41, 106. -/
def Obligations.StreamWords : Prop :=
  ∀ (s : State) (n : BitVec 4) (a d : BitVec 5) (r : BitVec 64 × StreamDesc) (t : Stream), s.issues = true → s.bare = true →
    let x := (s.rA a).v
    let desc := r.2
    let moving : Stream := { t with desc := { t.desc with base := x.setWidth 56 }, next := 0, psn := false, re := true, early := [] }
    let gone := s.fps.all (fun f => !t.fps.contains f.id)
    (s.descOf a = some r → s.me.streams[n.toFin] = none → s.me.streamOn desc.qsel.toNat = none → s.me.streamBad desc = false →
      (desc.space ≠ 1 →
        exec (.bind n a) s = .next (s.rung.seqTaken.setStream n (some { desc := desc, seq := s.me.sbNext, pc := s.unit.pc })).wordDone) ∧
      (∀ ids seq u, enterStream desc (s.rung.descKept r) = .ok (ids, seq) u →
        exec (.bind n a) s = .next (u.setStream n (some { desc := desc, fps := ids, seq := seq, pc := u.unit.pc })).wordDone)) ∧
    (s.descOf a = some r →
      (s.me.streams[n.toFin] = some t → exec (.bind n a) s = .next (s.rung.traps cQUEUE (n.setWidth 64))) ∧
      (s.me.streams[n.toFin] = none → s.me.streamOn desc.qsel.toNat = some t → exec (.bind n a) s = .next (s.rung.traps cQUEUE (desc.qsel.setWidth 64))) ∧
      (s.me.streams[n.toFin] = none → s.me.streamOn desc.qsel.toNat = none → s.me.streamBad desc = true →
        exec (.bind n a) s = .next (s.rung.traps cSTREAM r.1))) ∧
    (s.me.streams[n.toFin] = none → (s.rA a).p = false → ∀ i ∈ [Instr.unbind n, .rebind n a, .sdrain n, .sskip n a],
      exec i s = .next (s.rung.traps cQUEUE (n.setWidth 64))) ∧
    (s.me.streams[n.toFin] = some t →
      (t.desc.isIn = true → exec (.sdrain n) s = .next (s.rung.traps cILLEGAL (s.unit.pc.setWidth 64))) ∧
      ((s.rA a).p = false → t.desc.isIn = false → s.me.roomInStream t - Nat.min x.toNat (s.me.roomInStream t) < s.me.queueHeld t.desc →
        exec (.sskip n a) s = .next (s.rung.traps cSTREAM (t.desc.qsel.setWidth 64))) ∧
      ((s.rA a).p = false → t.desc.space ≠ 2 → t.re = false → t.desc.isIn = true ∨ s.me.queueHeld t.desc = 0 →
        2 ^ 56 ≤ x.toNat ∨ moving.desc.limitBad 0 = true →
        exec (.rebind n a) s = .next (((s.rung.traps cSTREAM x).releases .A t.fps).onMe (fun k => { k with streams := k.streams.set n.toFin none })))) ∧
    (s.me.streams[n.toFin] = some t →
      (t.desc.isIn = true ∨ s.me.queueHeld t.desc = 0 →
        exec (.unbind n) s = .next (((s.rung.quiets t.desc).releases .A t.fps).setStream n none).wordDone ∧
        ((s.rA a).p = false → t.desc.space ≠ 2 → t.re = false → x.toNat < 2 ^ 56 → moving.desc.limitBad 0 = false →
          let first := ((s.rung.quiets t.desc).releases .A t.fps).setStream n (some moving)
          (gone = false → exec (.rebind n a) s = .next first) ∧
          (gone = true → s.aHasLanded = true → t.desc.space = 0 →
            exec (.rebind n a) s = .next (first.seqTaken.setStream n (some { moving with re := false, fps := [], seq := s.me.sbNext })).wordDone)) ∧
        (t.desc.isIn = false → exec (.sdrain n) s = .next s.rung.wordDone)) ∧
      ((s.rA a).p = false → t.desc.space ≠ 2 → t.re = true → gone = true → s.aHasLanded = true → ∀ ids seq u, enterStream t.desc s.rung = .ok (ids, seq) u →
        exec (.rebind n a) s = .next (u.setStream n (some { t with re := false, fps := ids, seq := seq })).wordDone) ∧
      (let m := Nat.min x.toNat (s.me.roomInStream t)
       (s.rA a).p = false → (t.desc.isIn = true ∨ s.me.queueHeld t.desc ≤ s.me.roomInStream t - m) →
         exec (.sskip n a) s = .next (s.rung.setStream n (some { t with next := t.next + m })).wordDone)) ∧
    exec (.sstat d n) s = .next (s.rung.setA d { v := word64 (s.me.sstat n) } 4).wordDone

/-- R197 to R203, R256: rings, subscriptions and the unfold binding; a bad descriptor raises STREAM, a ring without the subscription
that the word needs, or with one where it needs none, ILLEGAL. Where it rests on the model's choice: notes/assumptions 39. -/
def Obligations.RingWords : Prop :=
  ∀ (s : State) (n : BitVec 3) (m : BitVec 1) (a b : BitVec 5) (v : Nat) (q : BitVec 64 × StreamDesc) (r : SpRing) (u : Subscription), s.issues = true → s.bare = true →
    let x := (s.rA a).v
    let y := (s.rA b).v
    let units := (y.extractLsb' 0 16).toNat
    let count := (y.extractLsb' 16 8).toNat
    let ring := s.me.rings[n.toFin]
    let next : Subscription := { u with passed := u.passed + 1 }
    ((s.rA a).p = false → (s.rA b).p = false → y.extractLsb' 24 40 = 0 → (∀ q, ring = some q → q.sub = none) →
      (1 ≤ count → count ≤ 64 → 1 ≤ units → units ≤ 2048 → x.toNat % 512 = 0 → x.toNat + 512 * units * count ≤ Config.spadBytes →
        exec (.ringcfg n a b) s = .next (s.rung.setRing n (some { base := x.toNat, size := 512 * units, count := count })).wordDone) ∧
      (count = 0 → s.me.ringBound n = false → ring = some r → exec (.ringcfg n a b) s = .next (s.rung.setRing n none).wordDone)) ∧
    (let d := q.2
     s.descOf a = some q → ring = some r → r.sub = none → d.subBad (m == 1) = false →
       ∀ ids t, enterPattern d (if m = 1 then (if d.acc then .acc else .w) else .r) (some (if d.acc then .acc else if m = 1 then .write else .read)) true
           (s.rung.descKept q) = .ok ids t →
         let sub : Subscription := { desc := d, store := m == 1, pc := s.unit.pc, fps := ids, seq := t.me.sbNext }
         exec (.subs n a m) s = .next ((t.seqTaken.setRing n (some { r with sub := some sub })).onMe (fun k => { k with descRead := none })).wordDone) ∧
    (s.descOf a = some q →
      (ring.all (fun r => r.sub.isSome) = true → exec (.subs n a m) s = .next (s.rung.traps cILLEGAL (s.unit.pc.setWidth 64))) ∧
      (ring = some r → r.sub = none → q.2.subBad (m == 1) = true → exec (.subs n a m) s = .next (s.rung.traps cSTREAM q.1))) ∧
    (ring.all (fun r => r.sub.all (fun u => u.passed == r.tiles u) || s.me.ringBound n) = true →
      exec (.sret n) s = .next (s.rung.traps cILLEGAL (s.unit.pc.setWidth 64))) ∧
    (ring = some r → r.sub = some u → u.passed ≠ r.tiles u → s.me.ringBound n = false → r.ready u = true →
      s.landing s.cur.core .A true (r.slot u.passed) r.size = false →
      exec (.sret n) s = .next
        (if (if u.store then u.filled else u.passed + 1) = r.tiles u then (s.rung.releases .A u.fps).setRing n (some { r with sub := none })
         else s.rung.setRing n (some { r with sub := some next })).wordDone) ∧
    (s.unfoldBytes a = some v → unfoldBad (parseUnfold x.toNat v) v = false →
      exec (.ufold a) s = .next (s.rung.seqTaken.onMe (fun k => { k with unfold := some { parseUnfold x.toNat v with seq := s.me.sbNext } })).wordDone)

/-! ## The device -/

/-- R28, R457, R460, R473 to R480, R483, R485: power, verification, self-test and training take the device from OFF to READY
or SAFE; throttles begin and end; a trip with no context left ends in SAFE; SPDM is answered; a register write reaches ARG and
LEN. Which bytes the answer to SPDM holds in which order is the model's choice. Where it rests on the model's choice: notes/assumptions 9, 10, 70, 72, 74, 75, 78. -/
def Obligations.DeviceLifecycle : Prop :=
  ∀ (s : State) (t : Throttle) (w o n v : Nat),
    let c := s.cfgCold.getD (s.cfgNext.getD (parseConfig s.cur.args.bytes))
    let s1 : State := { s with cfgCold := some c }
    let begun := (({ s with throttles := s.throttles ++ [t] } : State).unitScore kThrottle (t.dies.headD 0) 0)
    (s.dstate = .off → exec .powerGood s = .next { s.cold .verify with cxl := BitVec.ofNat 4 (s.argN 0) }) ∧
    (s.dstate ≠ .off → exec .powerLoss s = .next (s.cold .off)) ∧
    (s.dstate = .verify → exec .verifyComplete s = .next
      (let u := if s.bankNew = false then s1
         else if s.bankOk s.banks[s.otherBank] then { s1 with bank := s.otherBank, bankNew := false }
         else { (s1.unitScore kVerify 0 1) with bankNew := false }
       if u.recordOk c = false then { (u.unitScore kVerify 0 0) with dstate := .safe }
       else if u.bankOk u.banks[u.bank] = false then { (u.unitScore kVerify 0 1) with cfg := c, dstate := .safe }
       else { u with cfg := c, dstate := .selftest })) ∧
    (s.dstate = .selftest → s.argN 0 = 0 ∨ s.tests (s.argN 0) (s.argN 1) = true → exec .selftestComplete s = .next
      (if s.argN 0 = 0 then { s with dstate := .train } else { (s.unitScore kSelftest (s.argN 1) (s.argN 2)) with dstate := .safe })) ∧
    (s.dstate = .train → s.argN 0 = 0 ∨ s.trains (s.argN 0) (s.argN 1) = true → exec .trainComplete s = .next
      (if s.argN 0 ≠ 0 then { (s.unitScore kTraining (s.argN 1) (s.argN 2)) with dstate := .safe }
       else if s.pkgid.isSome then ({ s with dstate := .ready } : State).trainPorts (fun x => x.st == .down && !x.clash)
       else { s with dstate := .ready })) ∧
    (heatOf (s.argN 0) (s.argN 1) = some t →
      (s.dstate ≠ .off → s.throttles.contains t = false → s.argN 0 < 3 → exec .thermalThrottle s = .next begun) ∧
      (s.dstate ≠ .off → s.throttles.contains t = false → 3 ≤ s.argN 0 → exec .powerThrottle s = .next begun) ∧
      (s.throttles.contains t = true → exec .throttleLift s = .next { s with throttles := s.throttles.filter (fun x => x != t) })) ∧
    (s.dstate ≠ .off → s.allDead = true → exec .thermalTrip s = .next { (s.unitScore kThermal (s.argN 0) 0) with dstate := .safe }) ∧
    (s.dstate ≠ .off → exec .spdmRequest s = .next
      { s with spdm := leBytes 32 Config.romDigest.toNat ++ leBytes 32 (Config.digest s.banks[s.bank].image).toNat ++
                       leBytes 32 (Config.digest s.cfg.raw).toNat ++ leBytes 8 s.cfg.serial.toNat }) ∧
    (s.dstate = .ready ∨ s.dstate = .safe → s.allDead = true → exec .warmreset s = .next s.warm) ∧
    (s.cur.args.n = [w, o, n, v] →
      (w = 0 → s.dstate ≠ .off → 8 ≤ o → exec .registerWrite s = .next
        { s with mbox := { s.mbox with arg := word64 (mergeWrite (s.mailReg 8) 8 8 o n v)
                                       len := BitVec.ofNat 32 (mergeWrite (s.mailReg 0x10) 0x10 4 o n v) } }) ∧
      (w ≠ 0 → o < 4096 ∨ 0x100000 ≤ o ∨ 0x20 ≤ o % 4096 → exec .registerWrite s = .next s))

/-- R475, R478, R479, R481, R482, R484: the mailbox commands on the device itself. Outside READY a command that needs it
answers NOTREADY and does nothing. Where it rests on the model's choice: notes/assumptions 9, 71, 72, 88. -/
def Obligations.MailboxDevice : Prop :=
  ∀ (s : State) (i : Instr), s.dstate ≠ .off →
    let t := s.argN 0 % 2 ^ 16
    let a := s.mbox.arg.toNat
    let l := (s.score.filter (fun r => decide (a ≤ r.seq.toNat))).take (s.mbox.len.toNat / 32)
    let c := parseConfig (s.cur.args.bytes.take s.mbox.len.toNat)
    let b : Bank := { image := s.cur.args.bytes.take s.mbox.len.toNat }
    let fw := (Config.firmwareVersion s.banks[s.bank].image).toNat
    exec .status s = .next ((s.asked 0x01).answers (resOK,
      (((List.range 12).filter s.inService).length - 1) % 16 + 2 ^ 8 * (s.ports.toList.filter (·.carries)).length + 2 ^ 16 * fw)) ∧
    exec .scread s = .next (({ s.asked 0x20 with hostMem := s.hostMem.splice (4096 * t) (l.flatMap Score.bytes) } : State).answers (resOK, l.length)) ∧
    exec .mark s = .next (((s.asked 0x21).addScore kMarker 0 a).answers (resOK, 0)) ∧
    exec .cfgupdate s = .next (if s.recordOk c then ({ s.asked 0x28 with cfgNext := some c } : State).answers (resOK, 0)
                               else (s.asked 0x28).answers (resVERIFY, 0)) ∧
    exec .fwupdate s = .next (({ s.asked 0x29 with banks := s.banks.set s.otherBank b, bankNew := s.bankOk b } : State).answers
      (if s.bankOk b then resOK else resVERIFY, 0)) ∧
    (s.dstate = .ready → exec .arbcommit s = .next
      (if t = 0 then ({ s.asked 0x2B with arbRec := (s.arbRec.commit s.cfg.version).1 } : State).answers (s.arbRec.commit s.cfg.version).2
       else if t = 1 then ({ s.asked 0x2B with arbFw := (s.arbFw.commit fw).1 } : State).answers (s.arbFw.commit fw).2
       else (s.asked 0x2B).answers (resBADARG, 0))) ∧
    (s.argN 2 < 2 ^ 16 → commandCodes.contains (s.argN 2) = false →
      exec .mailboxUnknownOp s = .next ((s.asked (BitVec.ofNat 16 (s.argN 2))).answers (resBADARG, 0))) ∧
    (s.dstate ≠ .ready → s.dstate ≠ .safe → exec .warmreset s = .next ((s.asked 0x2A).answers (resREFUSED, s.dstate.code))) ∧
    (s.dstate ≠ .ready → [Instr.create, .load, .reload, .suspend, .resume, .destroy, .debug, .mailboxTlbi, .keyload, .keygrant, .keyrevoke,
        .pstat, .pfence, .punfence, .rtload, .rtuse, .arbcommit].contains i = true →
      ∃ op, exec i s = .next ((s.asked op).answers (resNOTREADY, 0)))

/-- R92, R93, R96, R308: the mailbox commands on contexts, in READY with TGT a context and the context in a state that the
command takes. Where a command takes a dispatch decision, no card is queued and no node waits for the store; DESTROY is stated for a
context that holds nothing that must be torn down first; the cores that last ran for it are zeroed. Where it rests on the model's choice: notes/assumptions 51, 71, 72, 91. -/
def Obligations.MailboxContexts : Prop :=
  ∀ (s u : State) (vs : List Nat) (w : BitVec 64), s.dstate = .ready → 1 ≤ s.argN 0 % 2 ^ 16 → s.argN 0 % 2 ^ 16 ≤ 255 →
    let t := s.argN 0 % 2 ^ 16
    let n := BitVec.ofNat 8 t
    let c := s.ctx n
    let st := s.ctxState t
    let v := leNat (s.cur.args.bytes.take 64)
    let d := leNat (s.cur.args.bytes.take 32)
    let a := s.mbox.arg
    let len := s.mbox.len.toNat
    let read := fun (op : BitVec 16) => readRcbs n c.rtab c.rcount 0 (s.asked op)
    (st = .dead → len = 64 → descBad t v = none →
      exec .create s = .next (((s.asked 0x02).setCtx n
        { ptroot := fieldOf v 8 41 0, rtab := fieldOf v 0x10 55 0, rcount := fieldOf v 0x18 15 0, dumpva := fieldOf v 0x20 55 0
          dumplen := fieldOf v 0x28 31 0, saveva := fieldOf v 0x30 55 0, savecnt := fieldOf v 0x38 15 0 }).answers (resOK, 0))) ∧
    (st = .new → read 0x03 = .ok (.ok vs) u → tableBad vs = none →
      exec .load s = .next ((u.setCtx n { u.ctx n with regions := vs.map parseRegion, state := .loaded }).answers (resOK, 0))) ∧
    ([CtxState.loaded, .runnable, .running, .preempting, .saved].contains st = true → read 0x04 = .ok (.ok vs) u → tableBad vs = none → u.noneQueued = true →
      exec .reload s = .next ((u.setCtx n { u.ctx n with regions := vs.map parseRegion }).yields.answers (resOK, 0))) ∧
    (st = .runnable ∨ st = .running → s.noneQueued = true →
      exec .suspend s = .next (((s.asked 0x05).setCtx n { c with state := .preempting }).yields.answers (resOK, 0))) ∧
    (st = .saved → s.noneQueued = true →
      exec .resume s = .next ((((s.asked 0x06).setCtx n { c with state := .runnable }).settleCtx n).yields.answers (resOK, 0))) ∧
    (st = .new ∨ st = .loaded ∨ st = .saved → s.bareCtx n = true → s.noneQueued = true →
      ∃ t', exec .destroy s = .next t' ∧ t'.ctxState t = .dead ∧ t'.released n = true ∧ t'.mbox.result = resOK ∧ t'.mem = s.mem ∧
        (∀ b, b < 96 → (s.core b).lastCtx = n → t'.core b = { cycle := (s.core b).cycle })) ∧
    (st ≠ .dead → len = 32 → hubRead64 n (fieldOf d 0 63 0 + 0x10) (s.asked 0x08) = .ok (.ok w) u →
      fieldOf d 8 63 32 = 0 → fieldOf d 8 31 0 < w.toNat % 2 ^ 32 →
      let keep := (u.ctx n).debugs.filter (fun x => !(x.1 == fieldOf d 0 63 0 && x.2.1 == fieldOf d 8 31 0))
      let set_ := (fieldOf d 0 63 0, fieldOf d 8 31 0, (BitVec.ofNat 64 (fieldOf d 16 1 0) : BitVec 64), (BitVec.ofNat 64 (fieldOf d 24 63 0) : BitVec 64))
      exec .debug s = .next ((u.setCtx n { u.ctx n with debugs := keep ++ [set_] }).answers (resOK, 0))) ∧
    (st ≠ .dead → a.toNat < 2 ^ 56 → (len = 0 ∨ a.toNat + len ≤ 2 ^ 56) →
      let hit := fun (a' n' : Nat) => len == 0 || overlaps a.toNat len a' n'
      s.flights.all (fun f => !((s.core f.core).lastCtx == n && !f.sp && !f.rel && !f.pends && hit f.va f.len)) = true →
      exec .mailboxTlbi s = .next (
        let t' := (s.asked 0x09).does (writeBackAll (fun d => d.ctx == n && hit d.va 64))
        { t'.tlbDrop n a.toNat len with
          cores := t'.cores.map (fun (k : Core) => if k.lastCtx = n then k.dropEarly (fun a' => hit a' 64) else k) }.answers (resOK, 0)))

/-- R457, R460, R461, R463, R464, R483: the mailbox commands on keys, ports and routes, in READY. Where it rests on the model's choice: notes/assumptions 71, 73. -/
def Obligations.MailboxKeysAndLinks : Prop :=
  ∀ (s : State), s.dstate = .ready →
    let t := s.argN 0 % 2 ^ 16
    let a := s.mbox.arg
    let k := (lookup t s.keys).getD {}
    let x := s.port t
    let key := fun (op : BitVec 16) (y : KeySlot) => ({ s.asked op with keys := assign t y s.keys } : State)
    let r := routesFrom 0 (s.cur.args.bytes.take routeBytes)
    let g := s.rgen + 1
    let fenced := (List.range 16).foldl (fun (s : State) p =>
      let x : Port := s.port p
      s.setPort p (({ x with gf := x.lastFence == some (BitVec.ofNat 8 g), sendFence := x.st != PState.down } : Port).sendGfence (s.pkgid.getD 0) g)) { s.asked 0x1D with rgen := g }
    (1 ≤ t → t ≤ 255 →
      (s.argN 2 ≠ 0 → exec .keyload s = .next ((key 0x10 { k with loaded := true, load := k.load + 1, key := BitVec.ofNat 512 (leNat (s.cur.args.bytes.take 64)) }).answers (resOK, 0))) ∧
      (s.argN 2 = 0 → exec .keyload s = .next ((s.asked 0x10).answers (resREFUSED, 0))) ∧
      (a ≠ 0 → a.toNat ≤ 255 → exec .keygrant s = .next ((key 0x11 { k with grants := k.grants.filter (· != a.setWidth 8) ++ [a.setWidth 8] }).answers (resOK, 0))) ∧
      (k.grants.all (fun n => s.ctxState n.toNat == .dead) = true → exec .keyrevoke s = .next ((key 0x12 { load := k.load + 1 }).answers (resOK, 0)))) ∧
    (s.ports.toList.all (fun x => x.st == .down || x.st == .training) = true → a.toNat ≤ 32767 →
      exec .setid s = .next ((({ s.asked 0x18 with pkgid := some a.toNat, setId := true } : State).trainPorts
        (fun x => x.st == .down && (!s.setId || x.clash))).answers (resOK, 0))) ∧
    (t < 16 →
      exec .pstat s = .next (((s.asked 0x19).setPort t { x with replays := 0, perr := 0 }).answers (resOK,
        x.st.code + 2 ^ 4 * x.lanes + 2 ^ 8 * x.gf.toNat + 2 ^ 16 * (s.rgen % 256) + 2 ^ 24 * x.peer.getD 0 + 2 ^ 39 * x.peer.isSome.toNat +
          2 ^ 40 * Nat.min 65535 x.replays + 2 ^ 56 * Nat.min 255 x.perr)) ∧
      (x.carries = true ∨ x.st = .retraining → exec .pfence s = .next (((s.asked 0x1A).setPort t { x with fencing := true }).answers (resOK, 0))) ∧
      (x.st = .fenced →
        let u := ((s.asked 0x1B).setPort t { x with fencing := false }).portTo t (if x.lanes = 8 then .up else .degraded)
        exec .punfence s = .next ((u.setPort t ((u.port t).sendGfence (u.pkgid.getD 0) u.rgen)).answers (resOK, 0))) ∧
      (x.st = .down → x.clash = false → s.pkgid.isSome = true → exec .punfence s = .next (((s.asked 0x1B).portTo t .training).answers (resOK, 0)))) ∧
    (s.mbox.len.toNat = routeBytes → s.routes.any (fun y => y.1 + 1 == s.rgen) = false →
      r.all (fun e => e.2.extractLsb' 10 6 == 0 && !(some e.1 == s.pkgid && e.2.getLsbD 8)) = true →
      exec .rtload s = .next (({ s.asked 0x1C with routes := s.routes.filter (fun y => y.1 != g) ++ [(g, r)] } : State).answers (resOK, 0))) ∧
    (s.routes.any (fun y => y.1 == g) = true → exec .rtuse s = .next (fenced.dropOldTable.answers (resOK, 0)))

/-! ## Kernels -/

/-- R104, R281, R282, R286: a dispatch decision. With no card queued it only asks gangs of a suspended context to yield; a card
that is no kernel is granted, V(L) raised and its footprints asked for; a kernel is granted all its cores or none. Where it rests on the model's choice: notes/assumptions 45, 89, 100, 102. -/
def Obligations.DispatchDecisions : Prop :=
  ∀ (s : State) (id : Nat) (h : HubCard),
    let run := { (s.onHub id (fun h => { h with st := .running })) with vtl := assign h.level (max48 (s.vl h.level) h.deadline) s.vtl }
    let n := h.card.ext0.toNat
    (s.noneQueued = true → exec .dispatchDecision s = .next s.yields) ∧
    (s.hub.filter (fun x => x.2.st == .queued && (s.ctx x.2.ctx).dispatches) = [(id, h)] → s.hubCard id = some h →
      s.hub.all (fun x => x.2.st != .queued || x.2.late) = true → s.gangs.all (fun g => (s.ctx g.2.ctx).state != .preempting) = true → h.node = none → s.storeWaiters = [] →
      (h.card.op ≠ opKLAUNCH → (h.card.onEngine = true → (s.hub.filter (fun x => x.2.st == .running && x.2.card.onEngine)).length < 16) →
        exec .dispatchDecision s = .next (run.does (startHub id))) ∧
      (h.card.op = opKLAUNCH → h.gang = none → n ≤ s.freeCores.length → s.overBudget h.ctx h.region h.card = false → s.coresFit h.ctx h.region n = true →
        ∃ t k, exec .dispatchDecision s = .next t ∧ t.gang s.gangNext = some k ∧ k.state = .loading ∧ k.card = id ∧ k.ctx = h.ctx ∧ k.cores.length = n ∧
          k.cores.Nodup ∧ (∀ c ∈ k.cores, c ∈ s.freeCores ∧ (t.core c).gang = some s.gangNext ∧ (t.core c).mode = .loading ∧ (t.core c).lastCtx = h.ctx) ∧
          (∀ c, c ∉ k.cores → t.core c = s.core c)))

/-- R104, R122, R123, R283, R330: a gang's quantum runs out; its text and window are read; it enters RUNNING with each core in the
launch state, its start an acquire. Where it rests on the model's choice: notes/assumptions 45. -/
def Obligations.KernelStart : Prop :=
  ∀ (s z u v w : State) (k : Gang) (h y : HubCard) (ids : List Nat) (b d : List Byte), s.gang (s.argN 0) = some k →
    let g := s.argN 0
    let live := (s.ctx k.ctx).serves
    let u' := u.onGang g (fun k => { k with fps := ids })
    let s' := (s.does (releaseFps k.fps)).onGang g (fun k => { k with state := .running, fps := [] })
    ((s.ctx k.ctx).eff 10 (fun r => r.quantum.toNat) k.region.toNat ≠ 0 → k.cores ≠ [] → s.noneQueued = true →
      exec .quantumExpiry s = .next (s.setGang g { k with pastQuantum := true }).yields) ∧
    (k.state = .loading → live = true → s.hubCard k.card = some h → h.fault = none → k.causes = [] →
      (h.moved = false → startHub k.card s = .ok () z → z.hubCard k.card = some y → y.entered = true → y.fault = none →
        enterFps (.owner (.gang g)) (.gang g) k.ctx k.region.toNat k.ranges true z = .ok (.entered ids) u →
        hubRead k.ctx k.textVa (4 * k.textLen) .text u' = .ok (.ok b) v → hubRead k.ctx k.winVa k.winLen .read v = .ok (.ok d) w →
        exec .klaunch s = .next ((w.onGang g (fun k => { k with text := textOf b, win := storeOf d })).onHub k.card (fun h => { h with moved := true }))) ∧
      (h.moved = true → k.cancel = false →
        exec .kernelLoadComplete s = .next (((List.range k.cores.length).foldl (fun s' r =>
          s'.onCore (k.cores.getD r 0) (fun c => (c.launch.seatFor k g r).startAcquire s.repDone)) s').does (nodeRuns k))))

/-- R93, R100, R105 to R113, R122, R124, R141: saves, restores, stops, forced saves and hangs of a kernel's cores, and the end of a
core and of a context. Ends are stated where another rank of the gang goes on, or where nothing else of the context is left. Where it rests on the model's choice: notes/assumptions 44, 46, 47, 104, 48, 49, 50, 83, 92. -/
def Obligations.KernelStops : Prop :=
  ∀ (s u v w : State) (g c n : Nat) (k : Gang) (h : HubCard) (strm : List Byte) (l : List (Nat × Core)), s.gang g = some k →
    let x := s.core c
    let live := (s.ctx k.ctx).serves
    let ids := s.gangFps g ++ k.heldFps
    let r := x.gangRank.toNat
    let other := (List.range k.size).any (fun i => i != r && !k.endedRanks.contains i && !k.savedAt.any (fun y => y.1 == i) &&
      k.cores.getD i 0 != c && (s.core (k.cores.getD i 0)).mode != .ended)
    let a := s.atCore c .S
    let pc := x.engS.pc
    let map := x.liveAt pc
    let kept : Kept := { claims := x.claims, repSeen := x.repSeen, repFloor := x.repFloor, ticket := x.ticket, cards := x.cards, streams := x.streams, rings := x.rings, unfold := x.unfold, iq := x.iq, past := (pc + 3).getLsbD 16 }
    let held := s.fps
    let done := s.repDone
    let seat := fun (t : State) (y : Nat × Core) =>
      let incs := (k.heldSigs.filter (fun h => h.1 == y.1)).map (fun h => ({ src := .hub, sem := h.2.1, count := h.2.2 } : SemInc))
      let mine := ((lookup y.1 k.kept).getD {}).fps
      let at_ := k.cores.getD y.1 0
      let t := (held.filter (fun f => mine.contains f.id)).foldl (fun t f => t.dropClean k.ctx (at_ / 24) f.base (64 * f.len)) t
      ({ (t.setCore at_ (({ y.2 with semIncs := incs } : Core).startAcquire done)) with
          fps := t.fps.map (fun f => if mine.contains f.id then { f with owner := .core at_ } else f)
          pins := t.pins.map (fun p => if p.owner == PinOwner.saved g y.1 then { p with owner := .core at_ } else p) } : State)
    let wdog := word64 ((s.ctx k.ctx).wdogEff x.region.toNat)
    (live = true →
      (s.argN 0 = g → k.cancel = true → k.state = .stopping → s.gangAtRest g k = true → (s.gangCores g).all (fun c => (s.core c).causes.isEmpty && (s.core c).cards.isEmpty) = true →
        k.firstCore = none → s.hubCard k.card = some h → h.node = none → h.card.crec = 0 → s.noneQueued = true →
        let t := s.does (releaseFps (ids.filter s.ephemeral))
        exec .kernelStopped s = .next (((((t.freeGang g).dropGang g).dropHub k.card).does (releaseFps (ids.filter (fun i => !s.ephemeral i)))).settleCtx k.ctx).yields) ∧
      (s.argN 0 = c → c < 96 → x.gang = some g → other = true →
        (x.mode = .saving → x.stopReq = false → k.cancel = false → s.coreQuiet c = true → x.liveBad map = false → x.livePoison map = false →
          takeSlot k.ctx a = .ok n u → anyBytes 16384 (u.does (writeBackAll (fun d => d.owner == some c))) = .ok strm v →
          writeSections (hubPath k.ctx) (v.slotAt k.ctx n) ((0, headBytes 0 0 (pc + 3) map) :: x.sections map (x.spTable map) (x.liveSpans map) strm) v = .ok (.ok ()) w →
          exec .coreSaveComplete s = .next (w.does (holdSlot g k c r n kept false))) ∧
        (x.mode = .running → x.stopReq = false → k.preq = false → engines.all (fun e => (x.eng e).ended) = true → s.coreQuiet c = true →
          s.walks.all (fun w => !(w.2.semen && w.2.gang == some (g, r))) = true →
          ∃ t, exec .coreEnd s = .next t ∧ (t.core c).mode = .ended ∧ (t.core c).gang = some g ∧ t.fps.all (fun f => f.owner != .core c) = true ∧
            t.pins = s.pins.filter (fun p => p.owner != .core c) ∧ t.gangs = s.gangs)) ∧
      (s.argN 0 = g → k.state = .restoring → k.cancel = false → loadRanks g k (List.range k.size) s = .ok (.ok l) u →
        let t := l.foldl seat u
        exec .kernelRestoreComplete s = .next (((t.setCtx k.ctx { t.ctx k.ctx with saveSlots := (t.ctx k.ctx).saveSlots.filter (fun y => y.2 != g) }).onGang g (fun k =>
          { k with state := .running, savedAt := [], kept := [], heldSigs := [], endedRanks := [] })).does (nodeRuns k))) ∧
      (s.argN 0 = c → c < 96 → x.gang = some g → x.works = true →
          x.stopReq = false ∨ (x.forced = false ∧ x.cards.any (fun y => y.st == .running && x.stuck y) = true) →
        (s.argN 1 = 0 →
          let fc := a.forcedCause k x (Config.freeWord s.freeCtr)
          let t := a.bumpFree.onMe (fun k => { k.stopAll with forced := true, entry := none })
          let u := match t.dumpPlace k.ctx c with
            | some d => t.does (do
                let strm ← anyBytes 16384
                discard (writeSections (hubPath k.ctx) d (x.fullImage 1 fc.1 strm)))
            | none => t
          exec .watchdogForcedSave s = .next (u.trapStop c .S 10 fc.1 pc fc.2)) ∧
        (s.argN 1 ≠ 0 → exec .watchdogForcedSave s = .next (a.onMe (fun k => { k with forced := true }))))) ∧
    (s.argN 0 = c → c < 96 → x.gang = some g → x.works = true → x.atRest false = false → x.forced = true ∨ (s.ctx k.ctx).state = .dumping →
      let r := x.record c 10 cWATCHDOG pc wdog
      let t := { (a.onMe Core.hangReset) with flights := s.flights.filter (fun f => f.core != c) }
      (live = true → exec .coreHang s = .next (t.does (makeFatal k.ctx [r]))) ∧
      (live = false → exec .coreHang s = .next (t.setCtx k.ctx { (s.ctx k.ctx) with causes := (s.ctx k.ctx).causes ++ chainOf (s.ctx k.ctx).causes.length [r] }))) ∧
    (let m := BitVec.ofNat 8 (s.argN 0)
     ((s.ctx m).state = .preempting → s.holds m = false → s.walks.all (fun w => w.2.ctx != m) = true → s.gangs.all (fun g => !(g.2.ctx == m && g.2.state == .loading)) = true →
        s.hub.all (fun h => !(h.2.ctx == m && h.2.st == .running && (h.2.card.onEngine || h.2.card.op == opWALKJ))) = true → exec .contextSaved s = .next (s.setCtx m { s.ctx m with state := .saved })) ∧
     ((s.ctx m).state = .dumping → (s.ctx m).dumplen = 0 → s.bareCtx m = true → s.noneQueued = true → s.ctxStopped m = true →
        ∃ t, exec .dumpComplete s = .next t ∧ (t.ctx m).state = .dead ∧ t.released m = true ∧ t.mem = s.mem ∧
          t.score = match (s.ctx m).causes with
            | r :: _ => (s.addScore kCause m r.num).score
            | [] => s.score))

/-- R130, R161, R162, R306, R316, R318: a semaphore takes an increment and wakes its waiters; a reserved ring token enters its
queue; an access completes, with the store, load or atomic that it has still to make; a wait for footprints times out; the hub walker answers a request. Where it rests on the model's choice: notes/assumptions 29, 31, 33. -/
def Obligations.UnitEvents : Prop :=
  ∀ (s u : State) (c i : Nat) (q : SemInc) (e : Engine) (r : Resv) (f : Flight) (a : Late) (old : List Byte) (w : FpWaiter) (x : WalkReq) (l : Leaf) (z : Bad),
    let k := s.core c
    let t := k.eng e
    let at_ := s.atCore c e
    let d := { t with resv := t.resv.eraseIdx i }
    let inc := { k with sem := k.sem.set q.sem.toFin (k.sem[q.sem.toFin] + BitVec.ofNat 16 q.count), semIncs := k.semIncs.eraseIdx i
                        semSeen := k.semSeen.set q.sem.toFin (Nat.max k.semSeen[q.sem.toFin] q.stands) }
    (s.argN 0 = 0 → s.argN 1 = c → s.argN 2 = i → c < 96 → k.gang ≠ none → k.semIncs[i]? = some q → k.incReady i q = true → s.sourceDone c q = true →
      exec .semaphoreChangeApply s = .next ((s.atCore c .S).setCore c (inc.wake (inc.semWaits.filter (fun w => w.sem == q.sem))))) ∧
    (s.argN 0 = c → s.argN 1 = e.code → s.argN 2 = i → c < 96 → t.resv[i]? = some r → k.tokensStand = false → k.wordComplete e r.slot = true → s.storesLanded c e r.slot = true →
      exec .ringTokenRelease s = .next (at_.onMe (·.setEng e
        (if r.ahead then { d with toAhead := t.toAhead + 1, aheadSeen := t.aheadSeen ++ [r.stands e] }
         else { d with toBehind := t.toBehind + 1, behindSeen := t.behindSeen ++ [r.stands e] })))) ∧
    (s.flights[s.argN 0]? = some f →
      let ends := fun (t : State) => (Host.Outcome.next (({ t with flights := t.flights.eraseIdx (s.argN 0) } : State).does (releaseFps f.fp.toList)) :
        Host.Outcome State Fault Refusal)
      let free := (s.core f.core).forced = true ∨ (s.core f.core).cardsHold [{ sp := f.sp, lo := f.va, len := f.len, mode := f.mode }] = false
      (f.store = none → f.late = none → exec .accessComplete s = ends s) ∧
      (f.store = none → f.late = some a → free → lateBytes f a s = .ok (.ok old) u →
        exec .accessComplete s = ends ((u.onCore f.core (fun k => k.deliver f.eng f.seq a.reg { v := word64 (leNat old) })).onCore f.core
          (fun k => k.setEng f.eng { (k.eng f.eng) with fstat := (k.eng f.eng).fstat ||| (a.change f.len old).2.bits }))) ∧
      (∀ bs, f.store = some bs → free →
        (f.sp = true → exec .accessComplete s = ends (s.onCore f.core (fun k => k.spadWrite f.va bs))) ∧
        (f.sp = false → writeMem (s.pathOf f.core f.eng) f.va bs s = .ok (.ok ()) u → exec .accessComplete s = ends u))) ∧
    (s.fpWait[s.argN 0]? = some w →
      exec .footprintWaitTimeout s = .next { s with fpWait := s.fpWait.set (s.argN 0) { w with timedOut := true } }) ∧
    (s.walkReqs[s.argN 0]? = some x → s.walkRuns (s.argN 0) x = true →
      (walkVa x.ctx x.va s = .ok (.error z) u → exec .pageTableWalk s = .next
        { u with walkReqs := u.walkReqs.eraseIdx (s.argN 0), walkFails := u.walkFails ++ [{ who := x.who, va := x.va, cause := z.1, detail := z.2 }] }) ∧
      (walkVa x.ctx x.va s = .ok (.ok l) u → ∃ t, exec .pageTableWalk s = .next t ∧ t.mem = s.mem ∧ t.cores = s.cores ∧ t.fps = s.fps ∧
        t.walkReqs = s.walkReqs.filter (fun r => !(r.ctx == x.ctx && decide (l.vbase ≤ r.va) && decide (r.va < l.vbase + l.size)))))

/-! ## Job cards -/

/-- R264, R265, R272, R275, R276, R140: the words of X that submit, cancel and query a card. A card is read from scratchpad, or
from memory under a footprint of its own, once: a word that waits keeps its bytes. Where the ranges of the card enter at once, it is accepted; a card that X
refuses, a card outside the scratchpad and a poisoned register trap. Where it rests on the model's choice: notes/assumptions 42. -/
def Obligations.CardWords : Prop :=
  ∀ (s t u v w : State) (d a : BitVec 4) (ids rids : List Nat) (b : List Byte) (z : TlbEntry) (x : XCard), s.issues = true → s.bare = true →
    let c := s.cur.core
    let k := s.rung.me
    let va := (s.rX a).v.toNat
    let n := va % 65536
    let card := parseCard va b
    let q : XCard := { ticket := k.ticket, card := card, st := if card.waitsem = 0 then .running else .waiting, pc := t.unit.pc, seq := t.me.sbNext, fps := ids
                       tag := s.cardTag k.lastCtx card }
    let taken := t.seqTaken.onMe (fun k =>
      { k with cards := k.cards.filter (fun y => y.ticket != q.ticket) ++ [q], cardRead := none, ticket := (q.ticket + 1) % 65536 })
    let held := { taken with pins := taken.pins ++ (s.corePins c).map (fun (p : Pin) => { p with owner := PinOwner.job c q.ticket }) }
    let done := ((held.does (writeRecord (s.rung.jobPath c q.ticket) k.own 4 c card 1 0)).setX d { v := word64 q.ticket } 1).wordDone
    let keeps := fun (s' : State) => s'.onMe (fun k => { k with cardRead := some b })
    ((s.rX a).p = false → k.liveCards < 16 →
      (card.checkX = none → card.region.toNat < (s.ctx k.lastCtx).rcount → (s.ctx k.lastCtx).inSubtree k.region.toNat card.region.toNat = true →
        (k.cardRead = some b → enterWord card.ranges false s.rung = .ok (.ok ids) t → ∀ i ∈ [Instr.xjob d a, .xjobg d a], exec i s = .next done) ∧
        (k.cardRead = none → va + 128 ≤ Config.spadBytes → b = k.spad.slice va 128 →
          enterWord card.ranges false (keeps s.rung) = .ok (.ok ids) t → exec (.xjob d a) s = .next done) ∧
        (k.cardRead = none → va % 128 = 0 → va < 2 ^ 56 → s.tlb.filter (fun y => y.covers (.eng c .X) k.lastCtx va) = [z] →
          s.leafProt k.lastCtx z.leaf .read = false →
          let own : Range := { sp := false, lo := va, len := 128, mode := .r }
          k.blocked [own] = false →
          (if z.leaf.free then rids = [] ∧ u = s.rung else enterWord [own] z.leaf.cp s.rung = .ok (.ok rids) u) →
          readMem (u.pathOf c .X) va 128 .read u = .ok (.ok b) v → v.does (releaseFps rids) = w →
          w.ctx k.lastCtx = s.ctx k.lastCtx → w.pins = s.pins → w.groups = s.groups → w.cur = s.cur → w.core c = k →
          enterWord card.ranges false (keeps w) = .ok (.ok ids) t → exec (.xjobg d a) s = .next done)) ∧
      (∀ e, k.cardRead = some b → card.checkX = some e → ∀ i ∈ [Instr.xjob d a, .xjobg d a], exec i s = .next (s.rung.traps e (word64 va))) ∧
      (k.cardRead = none → Config.spadBytes < va + 128 → exec (.xjob d a) s = .next (s.rung.traps cPROT (word64 va))) ∧
      (k.cardRead = none → 2 ^ 56 ≤ va → exec (.xjobg d a) s = .next (s.rung.traps cXLATE (word64 va)))) ∧
    ((s.rX a).p = false → k.issued n = some x → exec (.xcancel d a) s = .next
      (if x.st = .waiting then ((s.rung.does (cancelXCard c n)).setX d { v := 1 } 4).wordDone else (s.rung.setX d {} 4).wordDone)) ∧
    ((s.rX a).p = false → k.issued n = none → exec (.xcancel d a) s = .next (s.rung.setX d {} 4).wordDone) ∧
    ((s.rX a).p = false → exec (.xstat d a) s = .next (s.rung.setX d { v := match k.issued n with
      | some x => match x.st with
        | .waiting => 1 | .running => 2 | .done => 3 | .cancelled => 4
      | none => 0 } 4).wordDone) ∧
    ((s.rX a).p = true → ∀ i ∈ [Instr.xjob d a, .xjobg d a, .xcancel d a, .xstat d a], exec i s = .next (s.rung.traps cPOISON (a.setWidth 64)))

/-- R265, R266, R270, R274: a card of X begins when its semaphores allow, ends with its record and its signals, or faults. Where it rests on the model's choice: notes/assumptions 35, 43. -/
def Obligations.CardEnds : Prop :=
  ∀ (s : State) (x : XCard) (f : Bad), s.argN 0 = 0 → s.argN 1 < 96 → (s.core (s.argN 1)).card? (s.argN 2) = some x →
    let c := s.argN 1
    let t := s.argN 2
    let k := s.core c
    let r : CardRef := .x c t
    let m := maskBits x.card.waitsem
    let took := s.onCore c (fun k => m.foldl (fun k b => { k with sem := k.sem.set b.toFin (k.sem[b.toFin] - 1) }) k)
    let freed := (s.does (releaseFps x.fps)).onCard c t (fun x => { x with st := .done })
    let record := fun (s' : State) (bits : Nat) (cause : BitVec 8) => s'.does (writeRecord (s.jobPath c t) k.own 4 c x.card bits cause)
    let sig := (maskBits x.card.sigsem).map (fun b => ({ src := .hub, sem := b, count := 1 } : SemInc))
    let cut : State := freed.dropPins (.job c t)
    (x.st = .waiting → k.stopReq = false → m.all (fun b => k.sem[b.toFin] != 0) = true →
      exec .cardWaitsemMet s = .next (took.onCard c t (fun x => { x with st := .running }))) ∧
    (x.st = .running → x.moved = true → x.fault = none → x.q = none → s.cardIdle r = true → (x.card.chen = true → x.chained = true) →
      exec .cardDone s = .next ((record cut 3 0).onCore c (fun k => { k with semIncs := k.semIncs ++ sig }))) ∧
    (x.st = .running → x.fault = some f →
      exec .cardFault s = .next ((record { cut with accIn := cut.accIn.filter (fun q => q.src != r) } 11 f.1).trapStop c .X 4 f.1 x.pc f.2))

/-- R267 to R269, R302, R341, R357, R436, R448: what each operation of a card does once the card may move: copies and conversions
put every element, ACCW hands its values to the channel engines, MCAST puts its updates on their way, remote cards send their
flits, WALKJ and SKLAUNCH ask for their work, SIGNAL only ends. The card is one of X or one that the hub executes. Reads and writes are those of the model's memory. Where it rests on the model's choice: notes/assumptions 35, 36, 37, 64. -/
def Obligations.CardOperations : Prop :=
  ∀ (s t u v : State) (e : Exec) (l : List (Option (Nat × Bool))) (b : List Byte) (n : Nat) (g : Group) (h : HubCard) (key : List (BitVec 64)),
    let c := e.card
    let w := fmtBits c.fout.toNat
    let puts := (List.range l.length).map (fun n => e.place n w ((l.getD n none).map (·.1)))
    let codes := (List.range l.length).map (fun n => (l.getD n none).map (fun x => c.convert n x.1))
    let cvt : List Put × Flags := if isBlockFmt c.fout.toNat then e.blockPuts l
      else ((List.range l.length).map (fun n => e.place n w ((codes.getD n none).map (·.code))), orFlags (codes.filterMap (fun x => x.map (·.f))))
    let flag : State := match e.ref with
      | .x k _ => u.onCore k (fun k => { k with engX := { k.engX with fstat := k.engX.fstat ||| cvt.2.bits } })
      | _ => u
    let read := e.read c.ssp c.src.toNat c.linearLen s
    let q := parseRequest (leNat b)
    let die := match e.ref with
      | .x c _ => c / 24
      | _ => 0
    (s.moves opCOPY = some e → e.sources s = .ok (l, none) u →
      (e.oneWrite puts = false → movePuts e puts none u = .ok none v → exec .copy s = .next (v.setMoved e.ref)) ∧
      (e.oneWrite puts = true → e.write false c.dst.toNat (puts.flatMap (fun p => leBytes 1 (p.v.getD 0))) u = .ok (.ok ()) v →
        exec .copy s = .next (v.setMoved e.ref))) ∧
    (s.moves opFILL = some e → e.sources s = .ok (l, none) u → movePuts e puts none u = .ok none v →
      exec .fill s = .next (v.setMoved e.ref)) ∧
    (s.moves opCOPYCVT = some e → e.sources s = .ok (l, none) u → movePuts e cvt.1 none flag = .ok none v →
      exec .copycvt s = .next (v.setMoved e.ref)) ∧
    (s.moves opACCW = some e → read = .ok (.ok b) u →
      let a : AccChunk := { ctx := e.path.ctx, src := e.ref, addr := c.dst.toNat, rank := some (c.jobid.toNat % 65536), tag := none, vals := widenElems c.fin.toNat b }
      exec .accw s = .next (({ u with accIn := u.accIn ++ [a] } : State).setMoved e.ref)) ∧
    (s.moves opMCAST = some e → c.ra = false → read = .ok (.ok b) u → multicast e.path c.dst.toNat b u = .ok (.ok n) v →
      exec .mcast s = .next (((match e.ref with
        | .x k t => v.onCard k t (fun x => { x with q := some n })
        | .hub id => v.onHub id (fun h => { h with q := some n })
        | .remote _ _ => v) : State).setMoved e.ref)) ∧
    (s.group e.path.ctx c.grp = some g → g.state ≠ 1 → c.rank < g.members.length → (g.member c.rank).mstate = .active → read = .ok (.ok b) u →
      s.xfers.all (fun x => match x.2 with
        | .card y _ => y != e.ref
        | _ => true) = true →
        ((s.moves opRWRITE = some e → exec .rwrite s = .next (u.does (sendRemote e g b))) ∧
        (s.moves opRACCW = some e → exec .raccw s = .next (u.does (sendRemote e g b))) ∧
        (s.moves opMCAST = some e → c.ra = true → exec .mcast s = .next (u.does (sendRemote e g b))))) ∧
    (s.moves opSIGNAL = some e → exec .signal s = .next (s.setMoved e.ref)) ∧
    (s.moves opWALKJ = some e → s.walks.all (fun w => w.2.card != some e.ref) = true → s.liveWalks < walkLimit →
      cardRead e c.src.toNat 32 s = .ok (some (.ok b)) u → q.bad = false → q.semen = false → q.cardKey e u = .ok (some (.ok key)) t →
      startStack e.path die q.start t = .ok n v →
      let v' := v.does (cardStarted e)
      exec .walkj s = .next (({ v' with walks := v'.walks ++ [(v'.walkNext, { (q.walk (s.execOwn e) c.src key n) with card := some e.ref })]
                                        walkNext := v'.walkNext + 1 } : State).settleCtx (s.execOwn e).ctx)) ∧
    (s.moves opSKLAUNCH = some e → s.argN 0 ≠ 0 → s.hubCard (s.argN 1) = some h → h.cancelled = false → s.skReqs.all (fun q => q.src != .card (s.argN 1)) = true → s.launches.all (fun l => l.2.src != .card (s.argN 1)) = true →
      let a : LaunchReq := { ctx := h.ctx, src := .card (s.argN 1), handle := h.card.src, param := h.card.dst }
      exec .sklaunch s = .next { s with skReqs := s.skReqs ++ [a] })

/-! ## Graphs and the launch page -/

/-- R277, R400, R404, R408, R415 to R419: QPUSH, GLAUNCH, GTOK, GSTAT and GCANCEL, on records in plain memory that S may read, once
what the core did earlier is complete where the word is a release. Where it rests on the model's choice: notes/assumptions 52, 53. -/
def Obligations.GraphWords : Prop :=
  ∀ (s t u w : State) (d a b : BitVec 6) (l : Leaf) (by_ : List Byte) (card : Card) (g : Graph) (r : NodeRef) (n : Node) (e : Succ) (i k : Nat) (ids : List Nat),
    s.issues = true → s.bare = true → (s.rS a).p = false →
    let c := s.cur.core
    let me := s.rung.me
    let ctx := me.lastCtx
    let va := (s.rS a).v.toNat
    let y := (s.rS b).v
    let v := leNat by_
    let kept := w.does (writeRecord (hubPath ctx) { ctx := ctx, region := card.region.toNat } 7 0 card 1 0)
    let out := s.rung.marks.cleaned
    let own : Range := { sp := false, lo := va, len := 128, mode := .r }
    (s.queued < queueRoom → s.leafOf va = some l → s.leafProt ctx l .read = false → va % 128 = 0 →
      me.blocked [own] = false → s.landing c .S false va 128 = false →
      (if l.free then ids = [] ∧ t = s.rung else enterWord [own] l.cp s.rung = .ok (.ok ids) t) →
      readMem (t.pathOf c .S) va 128 .read t = .ok (.ok by_) u → u.does (releaseLater c .S ids) = w → hubCheck ctx me.region.toNat va by_ w = .ok (.ok card) w →
      exec (.qpush d a) s = .next (((kept.does (discard (enqueue ctx card.region.toNat ((kept.ctx ctx).level card.region.toNat card.prio.toNat) card none false
        (me.gang.map (fun g => (g, me.gangRank.toNat))) (kept.cardTag ctx card)))).setS d { v := BitVec.ofNat 64 kept.subNext } 4).wordDone)) ∧
    (s.recordAt va 64 = some by_ → va % 64 = 0 →
      (s.rung.settledTo = true → (out.ctx ctx).serves = true → s.running < graphRoom →
        (match out.graphLine with
          | [] => true
          | q :: _ => q.core == some c) = true →
        launchGraph ctx va v me.region.toNat out = .ok (.ok i) u →
        exec (.glaunch d a) s = .next (({ u with graphWait := u.graphWait.filter (fun q => !(q.core == some c)) } : State).setS d { v := BitVec.ofNat 64 i } interlocked).wordDone) ∧
      ((s.rS b).p = false → s.graph ctx va = some g →
        (y.getLsbD 63 = true → exec (.gstat d a b) s = .next
          ((if 2 ≤ g.status then s.rung.acquiresS else s.rung).setS d { v := BitVec.ofNat 64 (g.status + 2 ^ 32 * g.gen.toNat) } interlocked).wordDone) ∧
        (y.toNat < g.nodes.length → y.toNat < 2 ^ 32 →
          exec (.gstat d a b) s = .next ((if (g.node y.toNat).state = .done then s.rung.acquiresS else s.rung).setS d { v := BitVec.ofNat 64 (g.node y.toNat).words.1 } interlocked).wordDone) ∧
        ((s.ctx ctx).inSubtree me.region.toNat g.region = true → g.status ≠ 1 → y.getLsbD 63 = true ∨ (y.toNat < g.nodes.length ∧ y.toNat < 2 ^ 32) →
          exec (.gcancel d a b) s = .next (s.rung.setS d {} interlocked).wordDone) ∧
        ((s.ctx ctx).inSubtree me.region.toNat g.region = true → g.status = 1 → (s.ctx ctx).serves = true →
          (y.getLsbD 63 = true → cancelGraph ctx va 0xFFFFFFFE 0xFFFFFFFE s.rung = .ok i u →
            exec (.gcancel d a b) s = .next (((u.does (settleGraph ctx va)).does fillStore).setS d { v := BitVec.ofNat 64 i } interlocked).wordDone) ∧
          (y.toNat < g.nodes.length → y.toNat < 2 ^ 32 → cone ctx va y.toNat s.rung = .ok i u →
            exec (.gcancel d a b) s = .next (((u.does (settleGraph ctx va)).does fillStore).setS d { v := BitVec.ofNat 64 i } interlocked).wordDone))) ∧
      ((s.rS b).p = false → s.graph ctx va = none → y.getLsbD 63 = true →
        exec (.gstat d a b) s = .next (s.rung.setS d { v := BitVec.ofNat 64 (v % 16 + 2 ^ 32 * fieldOf v 0 63 32) } interlocked).wordDone)) ∧
    (s.rung.settledTo = true → s.dcache = [] → s.ownNode c = some r → s.nodeOf r = some n → (s.ctx r.ctx).serves = true →
      n.succs.findIdx? (fun e => e.early && e.dest == va) = some k → n.succs[k]? = some e →
      (n.state = .cancelPending ∨ e.sent = true → exec (.gtok d a) s = .next (s.rung.marks.setS d {} interlocked).wordDone) ∧
      (n.state ≠ .cancelPending → e.sent = false → deliver r k s.rung.marks = .ok () u →
        exec (.gtok d a) s = .next (u.setS d { v := 1 } interlocked).wordDone))

/-- R287, R288, R396, R402, R403, R406, R409: launches from a launch page, and two events of a node: its retry begins, and its
cancellation ends. Where it rests on the model's choice: notes/assumptions 54, 89. -/
def Obligations.LaunchesAndNodes : Prop :=
  ∀ (s u t : State) (w : LaunchWrite) (b : List Byte) (gen : Nat) (card : Card) (q : GraphWait) (rest : List GraphWait) (n : Node),
    let c := s.ctx w.ctx
    let counted := fun (x : State) => (x.setCtx w.ctx { x.ctx w.ctx with accepted := (x.ctx w.ctx).accepted + 1 }).settleCtx w.ctx
    let r : NodeRef := { ctx := BitVec.ofNat 8 (s.argN 0), graph := s.argN 1, node := s.argN 2 }
    (s.dstate = .ready → s.argN 0 = 1 → w.ctx = BitVec.ofNat 8 (s.argN 1) → w.off = s.argN 2 → w.size = s.argN 3 → w.value = s.argN 4 →
      (lookup w.ctx.toNat s.ctxs).isSome = true → c.serves = true →
      (w.off = 0 → w.size = 8 → s.running < graphRoom → s.graphLine = [] → hubRead w.ctx w.value 64 .read s = .ok (.ok b) u → w.value % 64 = 0 →
        launchGraph w.ctx w.value (leNat b) 0 u = .ok (.ok gen) t → exec .launchGraph s = .next (counted t)) ∧
      (w.off = 8 → w.size = 16 →
        let a : LaunchReq := { ctx := w.ctx, src := .page, handle := BitVec.ofNat 64 w.value, param := BitVec.ofNat 64 (w.value / 2 ^ 64) }
        exec .launchStackKernel s = .next (counted { s with skReqs := s.skReqs ++ [a] })) ∧
      (w.off = 0x18 → w.size = 8 → s.queued < queueRoom → hubRead w.ctx w.value 128 .read s = .ok (.ok b) u →
        hubCheck w.ctx 0 w.value b u = .ok (.ok card) u → card.sigsem = 0 → u.overBudget w.ctx card.region.toNat card = false →
        exec .launchCard s = .next (counted ((u.does (writeRecord (hubPath w.ctx) { ctx := w.ctx, region := card.region.toNat } 7 0 card 1 0)).does
          (discard (enqueue w.ctx card.region.toNat ((u.ctx w.ctx).level card.region.toNat card.prio.toNat) card none true none (u.cardTag w.ctx card))))))) ∧
    (s.graphLine = q :: rest → q.core = none → q.ctx = w.ctx → q.addr = w.value → s.running < graphRoom → c.serves = true → w.value % 64 = 0 →
      hubRead w.ctx w.value 64 .read { s with graphWait := rest } = .ok (.ok b) u → launchGraph w.ctx w.value (leNat b) 0 u = .ok (.ok gen) t →
      exec .graphLaunchDeferred s = .next (counted t)) ∧
    (s.nodeOf r = some n → (s.ctx r.ctx).serves = true →
      (n.state = .retrying → s.fps.all (fun f => !n.oldFps.contains f.id) = true → makeReady r s = .ok () u →
        exec .nodeRetryReady s = .next u) ∧
      (n.state = .retrying → s.fps.all (fun f => !n.oldFps.contains f.id) = true → queueRoom ≤ s.queued →
        exec .nodeRetryReady s = .next (s.does (onNode r (fun n => { n with state := .ready, hub := none })))) ∧
      (n.state = .cancelPending → n.hub = none →
        exec .nodeCancelComplete s = .next ((s.does (cancelNode r [] false)).does (settleGraph r.ctx r.graph))))

/-! ## Walks -/

/-- R426 to R433: the rules of a Caddie. A rule of the walk in the slot at hand raises NRUN, does what its row says and goes on to
the next rule, past the last of which the walk ends FAULTED; EMIT, EMITG, MISS and FAIL end the walk with its result record. A walk whose record is being written runs no rule:
its next turn ends it. Where it rests on the model's choice: notes/assumptions 61, 63. -/
def Obligations.WalkRules : Prop :=
  ∀ (s u v : State) (id : Nat) (w : Walk) (off : BitVec 17) (n f : BitVec 5) (g : BitVec 3) (l sh : BitVec 6) (stride imm : BitVec 22) (t : BitVec 8) (m : BitVec 1)
    (lf : Leaf) (b : List Byte) (bs : List Byte) (bad : Option Bad), s.walkHere = some (id, w) →
    let all : List Instr := [.rd off n, .cmpk f, .cmpg g f, .getf g l sh f, .next f, .nextG g, .hash g stride, .addg g imm, .andg g imm, .jmp t, .jeq t, .jne t, .jlt t,
                             .emit n, .emitg g m n, .miss, .fail imm]
    (w.ending = some (bs, bad) → ∀ i ∈ all, exec i s = .next (s.does (finishWalk id w bs bad))) ∧
    (w.ending = none → (s.ctx w.ctx).serves = true → w.nrun < ruleLimit →
    let x := { w with nrun := w.nrun + 1 }
    let goes := fun (y : Walk) => if w.pc + 1 < w.rules.length then s.onWalk id { y with pc := w.pc + 1 } else s.does (breakWalk id y cILLEGAL)
    let jumps := fun (c : Bool) => if c then s.onWalk id { x with pc := t.toNat } else goes x
    let a := w.cur + off.signExtend 64
    let k := n.toNat + 1
    let ws := (List.range k).map (fun i => word64 (leNat ((b.drop (8 * i)).take 8)))
    let next := fun (p : BitVec 64) => goes { x with cur := p, steps := w.steps + 1, nrun := 0 }
    let fold := (List.range (w.kw + 1)).foldl (fun y i => y ^^^ w.key.getD i 0) 0
    let cell := fun (i : Nat) => w.recw.getD i 0
    (walkLeaf x a.toNat (8 * k) s = .ok (.ok lf) u →
      (lf.kind ≠ 2 → lf.pa a.toNat / stackSpan ≠ w.stack → exec (.rd off n) s = .next ((u.onWalk id { x with
        st := .forwarded, stack := lf.pa a.toNat / stackSpan, fwd := w.fwd + 1, pendRd := some (k, a) }).settleCtx w.ctx)) ∧
      (w.pc + 1 < w.rules.length → lf.kind = 2 ∨ lf.pa a.toNat / stackSpan = w.stack → readMem (basePath w.ctx w.stack) a.toNat (8 * k) .read u = .ok (.ok b) v →
        exec (.rd off n) s = .next (v.onWalk id { x with recw := ws ++ w.recw.drop k, lastlen := 8 * k, pendRd := none, pc := w.pc + 1 }))) ∧
    (f.toNat + w.kw ≤ 31 → exec (.cmpk f) s = .next (goes { x with
      cc := compareWords ((List.range (w.kw + 1)).map (fun i => (w.key.getD i 0, cell (f.toNat + i)))) })) ∧
    exec (.cmpg g f) s = .next (goes { x with cc := if cell f.toNat = w.reg g then .eq else if cell f.toNat < w.reg g then .lt else .gt }) ∧
    exec (.getf g l sh f) s = .next (goes (x.setReg g (word64 ((cell f.toNat >>> sh.toNat).toNat % 2 ^ (l.toNat + 1))))) ∧
    (w.steps ≠ w.limit → (cell f.toNat).extractLsb' 56 8 = 0 → exec (.next f) s = .next (next (cell f.toNat))) ∧
    (w.steps ≠ w.limit → (cell ((w.reg g).toNat % 32)).extractLsb' 56 8 = 0 → exec (.nextG g) s = .next (next (cell ((w.reg g).toNat % 32)))) ∧
    (w.reg g ≠ 0 → exec (.hash g stride) s = .next (goes { x with cur := w.cur + (((fold * 0x9E3779B97F4A7C15) >>> 32) % w.reg g) * stride.setWidth 64 })) ∧
    exec (.addg g imm) s = .next (goes (x.setReg g (w.reg g + imm.signExtend 64))) ∧
    exec (.andg g imm) s = .next (goes (x.setReg g (w.reg g &&& imm.signExtend 64))) ∧
    exec (.jmp t) s = .next (jumps true) ∧
    exec (.jeq t) s = .next (jumps (w.cc == .eq)) ∧
    exec (.jne t) s = .next (jumps (w.cc != .eq)) ∧
    exec (.jlt t) s = .next (jumps (w.cc == .lt)) ∧
    exec (.emit n) s = .next (s.does (endWalk id x .found false false 0 0 (8 * k) false)) ∧
    exec (.emitg g m n) s = .next (s.does (endWalk id x .found false false 0 (w.reg g) (if m = 1 then 0 else 8 * k) false)) ∧
    exec .miss s = .next (s.does (endWalk id x .miss false false 0 0 0 false)) ∧
    exec (.fail imm) s = .next (s.does (endWalk id x .faulted false false cTRAPI (imm.setWidth 64) 0 true)))

/-- R421 to R427, R432, R435: WALK submits a request and a walk takes a slot, arrives, resumes, and meets its two limits. Where it rests on the model's choice: notes/assumptions 62, 63, 85. -/
def Obligations.WalkEvents : Prop :=
  ∀ (s u v : State) (d a : BitVec 6) (id n : Nat) (w x : Walk) (ids : List Nat) (b : List Byte),
    let q := parseRequest (leNat b)
    let va := (s.rS a).v
    let me := s.rung.me
    let c := s.cur.core
    let out := u.marks.cleaned
    let y := { (q.walk me.own va q.inline n) with gang := me.gang.map (fun g => (g, me.gangRank.toNat)) }
    (s.issues = true → s.bare = true → (s.rS a).p = false → va.toNat % 32 = 0 → sReadNow va.toNat 32 s.rung = .ok b u → q.bad = false → q.kptr = false →
      u.liveWalks < walkLimit → u.settledTo = true → u.cur = s.cur → (out.core c).own = me.own → (out.core c).gang = me.gang → (out.core c).gangRank = me.gangRank →
      startStack (out.pathOf c .S) (c / 24) q.start out = .ok n v →
      exec (.walk d a) s = .next (((({ v with walks := v.walks ++ [(v.walkNext, y)], walkNext := v.walkNext + 1 } : State).settleCtx me.own.ctx).setS d
        { v := word64 n } interlocked).wordDone)) ∧
    (s.argN 0 = id → lookup id s.walks = some w → w.ending = none → (s.ctx w.ctx).serves = true →
      (w.st = .queued → s.slotFor id w = some n →
        (w.begun = false → (loadRules { w with cur := w.start }).run s = .ok (.ok x) u →
          enterFps (.owner (.walk id)) (.walk id) w.ctx w.region (rangeOf false .r x.dbase (x.dbase + 64 * x.dlen - 1 : Nat)) true u = .ok (.entered ids) v →
          exec .walkSlotStart s = .next ((v.onWalk id { x with st := .walking, slot := n, fps := ids }).settleCtx w.ctx)) ∧
        (w.begun = true → (loadRules w).run s = .ok (.ok x) u → x.pendRd = none →
          exec .walkResume s = .next ((u.onWalk id { x with st := .walking, slot := n }).settleCtx w.ctx))) ∧
      (w.st = .forwarded → exec .walkForwardArrive s = .next { s with walks := erase id s.walks ++ [(id, { w with st := .queued })] }) ∧
      (w.st = .walking → ruleLimit ≤ w.nrun → exec .walkWatchdog s = .next (s.does (breakWalk id w cWATCHDOG))) ∧
      (w.st = .walking → w.nrun < ruleLimit → w.steps = w.limit → (∃ f, w.rules[w.pc]?.bind decodeRule = some (.next f)) ∨ (∃ g, w.rules[w.pc]?.bind decodeRule = some (.nextG g)) →
        exec .walkStepLimit s = .next (s.does (endWalk id w (if w.pol = 1 then .miss else .limit) true false 0 0 (if w.pol = 2 then w.lastlen else 0) false))))

/-! ## Links -/

/-- R457 to R468: a port trains, retrains, is fenced or lost; a flit in its turn is taken: forwarded by its route, held, given up,
credited, replayed or counted; a generation fence is noted. Where it rests on the model's choice: notes/assumptions 58, 64, 66, 68, 96. -/
def Obligations.LinkEvents : Prop :=
  ∀ (s u : State) (f : Flit), s.argN 0 < 16 →
    let p := s.argN 0
    let x := s.port p
    let i := s.argN 0
    let good : Port := { x with lanes := if s.argN 1 < 8 then 4 else 8, peer := if s.argN 2 = 0 then none else some (s.argN 3), sendFence := x.sendFence || (x.st == .training && decide (0 < s.rgen)) }
    let up := (s.setPort p good).portTo p (if s.argN 1 < 8 then .degraded else .up)
    let left := { s with flitWait := s.flitWait.eraseIdx i }
    let d := s.cur.args.bytes
    let t := (flitOf d).type
    let again := wireHolds d = false ∨ (flitOf d).lseq ≠ x.rxSeq
    let y := u.port p
    let own := u.pkgid.getD 0
    let credit := ({ y with credits := onChannel y.credits (f.get 1) (· + f.get 2) } : Port).sendGfence own u.rgen
    let fence := { y with lastFence := some (BitVec.ofNat 8 (f.get 0)) }
    (x.st = .training ∨ x.st = .retraining → 4 ≤ s.argN 1 → s.argN 2 ≠ 0 ∨ s.argN 1 < 8 → s.argN 2 = 0 ∨ some (s.argN 3) ≠ s.pkgid →
      exec .portTrainingDone s = .next (up.setPort p ((up.port p).sendGfence (up.pkgid.getD 0) up.rgen)).dropOldTable) ∧
    (x.carries = true →
      let fresh := s.setPort p { x with replay := x.replay.map (fun f => { f with tries := 0 }) }
      exec .portLaneLoss s = .next (fresh.portTo p .retraining) ∧
      (x.replay.any (fun f => decide (16 < f.tries)) = true → exec .replayLimit s = .next (fresh.portTo p .retraining))) ∧
    (x.st ≠ .down → exec .portSignalLoss s = .next ((s.portTo p .down).loseReplay p).dropOldTable) ∧
    (x.fencing = true → x.replay = [] → x.carries = true ∨ x.st = .retraining → exec .portFenced s = .next (s.portTo p .fenced)) ∧
    (x.carries = true →
      (again → 0 < x.credit 2 → x.sendFence = false → exec .flitCheckDiscard s = .next (s.setPort p (x.transmit
        { type := fCTRL, vc := 2, rgen := BitVec.ofNat 8 s.rgen, dst := 0, src := BitVec.ofNat 15 (s.pkgid.getD 0), body := [1, x.rxSeq.toNat] }))) ∧
      (¬ again → wireReserved d = true → exec .flitCheckDiscard s = .next (s.setPort p { x with
        perr := Nat.min 255 (x.perr + 1), replay := x.replay.filter (fun f => !covers (flitOf d).lack f.lseq), rxSeq := x.rxSeq + 1
        owed := onChannel x.owed (flitOf d).vc.toNat (· + 1) }))) ∧
    (s.flitWait[i]? = some f → some f.dpkg ≠ s.pkgid →
      exec .flitRouteRetry s = .next (left.forward f) ∧
      exec .flitHoldTimeout s = .next (left.forward (left.lossReport f 0xFF 4))) ∧
    (1 ≤ t.toNat → t.toNat < 6 → s.arrives t = some (f, u) → some f.dpkg ≠ s.pkgid →
      exec .flitForward s = .next (if u.routeOf (u.retag f) = .unknown then u.setPort p { y with perr := Nat.min 255 (y.perr + 1) } else u.forward f)) ∧
    (s.arrives fCTRL = some (f, u) →
      (f.get 0 = 0 → f.get 1 < 3 → exec .creditReturn s = .next (u.setPort p ((credit.repays own u.rgen 0).repays own u.rgen 1))) ∧
      (f.get 0 = 1 → exec .replayRequest s = .next (u.setPort p { y with
        replay := y.replay.map (fun f => if 16 ≤ f.tries then { f with tries := 17 } else ({ f with lack := y.rxSeq - 1, tries := f.tries + 1 } : Flit).seal)
        replays := Nat.min 65535 (y.replays + (y.replay.filter (fun f => decide (f.tries < 16))).length) }))) ∧
    (s.arrives fIDLE = some (f, u) → exec .idleFlitReceive s = .next u) ∧
    (s.arrives fGFENCE = some (f, u) →
      exec .gfenceReceive s = .next (u.setPort p (if f.get 0 = u.rgen % 256 then { fence with gf := true } else fence)).dropOldTable)

/-! ## Barriers, buckets, groups -/

/-- R377 to R394: BARV's operations, BARW, VPIN and VUNPIN, the flip of a Whistle and an arrival from another package. The hub
holds the barrier's new state and writes its block (keepBarrier), and an arrival tells the group's other members. Where it rests on the model's choice: notes/assumptions 30, 64, 69, 107. -/
def Obligations.BarrierWords : Prop :=
  ∀ (s u : State) (d a c : BitVec 6) (n i : Nat) (b : Barrier) (y : List Byte) (f : Flit),
    let g := s.cur.word.extractLsb' 12 6
    let v := (s.rS g).v
    let x := (s.rS (s.cur.word.extractLsb' 0 6)).v
    let p := (v.extractLsb' 16 16).toNat
    let me := s.rung.me
    let ctx := me.lastCtx
    let keeps := fun (b : Barrier) => s.rung.does (keepBarrier b)
    let fin := fun (t : State) (r : Nat) => (Host.Outcome.next (t.setS g { v := BitVec.ofNat 64 r } interlocked).wordDone : Host.Outcome State Fault Refusal)
    (s.issues = true → s.bare = true → (s.rS g).p = false → (s.rS (s.cur.word.extractLsb' 6 6)).p = false → (s.rS (s.cur.word.extractLsb' 0 6)).p = false →
      (v.extractLsb' 0 4).toNat ≤ 6 → v.extractLsb' 4 12 = 0 → v.extractLsb' 32 32 = 0 → (s.rS (s.cur.word.extractLsb' 6 6)).v.toNat = n → 1 ≤ n → n ≤ 4095 →
      (s.barrier ctx n = some b →
        (b.whistle = false → (if b.group = 0xFFFF then p < b.parties else p = 0) → s.rung.settledTo = true → s.rung.remoteDone = true → s.dcache = [] →
          let out := s.rung.marks
          let who := if b.group = 0xFFFF then p else b.me
          let now := b.expected.contains who && !b.arrived.contains who
          let j := if now then b.seq else b.seq + 1
          (b.state = 3 → exec .barvArrive s = fin out b.seq) ∧
          (b.state ≠ 3 → now = true ∨ b.isAhead (b.seq + 1) who = false →
            exec .barvArrive s = fin ((out.does (tellArrival b j)).does (keepBarrier (b.arrive who j).settle)) j)) ∧
        (b.whistle = false → b.group = 0xFFFF → p < b.parties →
          exec .barvWithdraw s = fin (keeps (b.withdraw p).settle) (b.withdrawnFrom p) ∧
          exec .barvJoin s = fin (keeps (b.join p)) (if b.state = 3 || b.expected.contains p then b.seq else b.seq + 1)) ∧
        (p = 0 → (b.whistle && (b.state == 5 || s.pins.any (fun q => q.ctx == b.ctx && q.whistle == b.num))) = false →
          exec .barvUnbind s = fin ((({ s.rung with barriers := s.barriers.filter (fun x => x.id != b.id) } : State).noteWaits b.id (fun _ => some 1)).does (b.publish 0)) b.seq) ∧
        (p = 0 → b.whistle = true →
          exec .barvRearm s = fin (if b.state = 6 then keeps ({ b with state := 4, count := 0, cause := 0 } : Barrier).settle else s.rung) (b.seq + 1)) ∧
        (p = 0 → b.whistle = false → exec .barvAbandon s = fin (keeps b.abandon) b.seq)) ∧
      (p = 0 → s.barrier ctx n = none → x.extractLsb' 0 6 = 0 → s.recordAt x.toNat 64 = some y → s.blockBad ctx n (leNat y) = false → s.barriers.length < barrierLimit →
        let q := s.newBarrier ctx n x.toNat me.region.toNat (leNat y)
        exec .barvBind s = fin (({ s.rung with barriers := s.barriers ++ [q], barrierNext := s.barrierNext + 1 } : State).does (q.publish q.state)) 0)) ∧
    (s.issues = true → s.bare = true → (s.rS a).p = false → (s.rS a).v.toNat = n → 1 ≤ n →
      ((s.rS c).p = false → n ≤ 4095 →
        let ends := fun (addr r : Nat) => (Host.Outcome.next (if r = 2 then s.rung.traps cBUCKET (word64 addr)
          else (s.rung.acquiresS.setS d { v := BitVec.ofNat 64 r } interlocked).wordDone) : Host.Outcome State Fault Refusal)
        (s.rung.unit.barw = none → s.barrier ctx n = some b → b.waited (s.rS c).v.toNat = some i → exec (.barw d a c) s = ends b.addr i) ∧
        (∀ j ∈ s.rung.unit.barw, j.res = some i → exec (.barw d a c) s = ends j.addr i)) ∧
      (n ≤ 255 → s.barrier ctx n = some b → b.whistle = true → (s.corePins s.cur.core).length < 8 → (s.corePins s.cur.core).all (fun p => p.whistle != n) = true →
        let q : Pin := { ctx := ctx, whistle := n, round := b.seq, owner := .core s.cur.core }
        exec (.vpin d a) s = .next (({ s.rung with pins := s.pins ++ [q] } : State).acquiresS.setS d { v := BitVec.ofNat 64 b.seq } interlocked).wordDone) ∧
      (n ≤ 255 → (s.corePins s.cur.core).any (fun p => p.whistle == n) = true → s.flights.all (fun f => !(f.core == s.cur.core && f.mode == .r && f.fp.isNone)) = true →
        exec (.vunpin a) s = .next ({ s.rung with pins := s.pins.filter (fun p => !(p.owner == PinOwner.core s.cur.core && p.whistle == n)) } : State).wordDone)) ∧
    (∀ t : EngineSt, t.barw = some { id := b.id, i := i, addr := b.addr } → (t.noteWait b.id b.waited).barw = some { id := b.id, i := i, addr := b.addr, res := b.waited i }) ∧
    (s.barriers.find? (fun b => b.id == s.argN 0) = some b → b.whistle = true → b.state = 5 →
      s.pins.all (fun p => !(p.ctx == b.ctx && p.whistle == b.num && p.round + 1 == b.seq)) = true →
      (s.countedFor b.ctx b.num (b.seq + 1)).forM settleLaunch s = .ok () u → exec .whistleFlip s = .next (u.does (keepBarrier b.openNext.settle))) ∧
    (s.arrives fGROUP = some (f, u) → some f.dpkg = s.pkgid → f.get 0 = gmARRIVE →
      exec .barrierArrivalMessage s = .next (match u.barrier (BitVec.ofNat 8 (f.get 1)) (f.get 4) with
        | some b => if b.group.toNat = f.get 2 then u.does (keepBarrier (b.arrive (f.get 3) (f.get 5)).settle) else u
        | none => u))

/-- R341 to R353: BKARM's operations and BKQRY on a header that S may read, an accumulate-write that reaches a channel engine, and
a held arrival that is applied. Where it rests on the model's choice: notes/assumptions 55, 68. -/
def Obligations.BucketWords : Prop :=
  ∀ (s u : State) (d a : BitVec 6) (h : Nat) (y : List Byte) (b : Bucket) (q : AccChunk) (id : Nat) (r : Option Nat),
    let g := s.cur.word.extractLsb' 12 6
    let z := (s.rS (s.cur.word.extractLsb' 0 6)).v
    let ctx := s.rung.me.lastCtx
    let v := leNat y
    let old := v % 16
    let fin := fun (t : State) => (Host.Outcome.next (t.setS g { v := BitVec.ofNat 64 old } interlocked).wordDone : Host.Outcome State Fault Refusal)
    let j := (q.addr - b.area) / (4 * b.ec)
    let m := b.chunkLen j
    let ends := fun (t : State) (n : Nat) =>
      let rest : AccChunk := { q with addr := q.addr + 4 * n, vals := q.vals.drop n }
      let t : State := { t with accIn := if rest.vals.isEmpty && (rest.more = 0 || rest.cut) then t.accIn.eraseIdx (s.argN 0) else t.accIn.set (s.argN 0) rest }
      (Host.Outcome.next (match q.src with
        | .remote p x => t.does (settleRemote p x)
        | _ => t) : Host.Outcome State Fault Refusal)
    (s.issues = true → s.bare = true → (s.rS (s.cur.word.extractLsb' 6 6)).p = false → (s.rS (s.cur.word.extractLsb' 0 6)).p = false →
      (s.rS (s.cur.word.extractLsb' 6 6)).v.toNat = h → h % 64 = 0 → s.recordAt h 64 = some y → z.extractLsb' 3 13 = 0 → z.extractLsb' 32 32 = 0 →
      (z.extractLsb' 0 2 = 0 → old ≠ 1 → old ≠ 2 → old ≠ 4 → headerBad v (z.getLsbD 2) = false → armBucket h v (z.getLsbD 2) s.rung = .ok () u →
        exec .bkarmArm s = fin u ∧
        ∃ stack ces ids, (s.bucketNext, ({ bucketOf ctx s.rung.me (s.graphOf s.cur.core) h v stack ces with fps := ids } : Bucket)) ∈ u.buckets) ∧
      (z.extractLsb' 0 2 = 1 → z.getLsbD 2 = false → old ≠ 4 → exec .bkarmDisarm s = fin (if old = 0 then s.rung else match s.bucketOfHdr ctx h with
        | some id => s.rung.does (disarmBucket id)
        | none => if old = 5 then s.rung else s.rung.does (writeState s.rung.me.own h 0))) ∧
      (z.extractLsb' 0 2 = 2 → z.getLsbD 2 = false → old = 1 ∨ old = 2 → (z.extractLsb' 16 16).toNat < fieldOf v 0 31 16 →
        exec .bkarmRemove s = fin (match s.bucketOfHdr ctx h with
          | some id => s.rung.does (removeRank id (z.extractLsb' 16 16).toNat)
          | none => s.rung))) ∧
    (s.issues = true → s.bare = true → (s.rS a).p = false → (s.rS a).v.toNat = h → h % 64 = 0 → s.recordAt h 64 = some y →
      exec (.bkqry d a) s = .next (match s.buckets.find? (fun x => x.2.ctx == ctx && x.2.hdr == h) with
        | none => (s.rung.setS d { v := BitVec.ofNat 64 old } interlocked).wordDone
        | some x =>
          let done := x.2.chunks.filter (·.done)
          let short := done.filter (fun c => decide (c.accepted.length < x.2.exp))
          ((if x.2.state = 3 ∧ x.2.skh = 0 then s.rung.acquiresS else s.rung).setS d
            { v := BitVec.ofNat 64 (x.2.state + 16 * x.2.order + 256 * x.2.pcause.toNat + 65536 * Nat.min (2 ^ 24 - 1) done.length +
                2 ^ 40 * Nat.min 4095 short.length + 2 ^ 52 * Nat.min 4095 x.2.dup) } interlocked).wordDone)) ∧
    (s.accIn[s.argN 0]? = some q → s.brokenOff q = false →
      (s.bucketAt q.ctx q.addr = none → q.vals ≠ [] →
        let next := s.buckets.foldl (fun m x => if x.2.ctx = q.ctx && q.addr < x.2.area then Nat.min m ((x.2.area - q.addr) / 4) else m) (sectorElems q.addr)
        let n := Nat.min q.vals.length (Nat.max 1 next)
        areaSector (s.accPath q.ctx q.src) q.addr (q.vals.take n) .add s = .ok (.ok ()) u → exec .accChunkArrive s = ends u n) ∧
      (s.bucketAt q.ctx q.addr = some (id, b) →
        let judged := b.judge q.addr (q.vals.length + q.more) q.vals.length q.rank q.tag
        (judged = .duplicate → exec .accChunkArrive s = ends (s.does (keepBucket id { b with dup := Nat.min 4095 (b.dup + 1) })) m) ∧
        (judged = .discard → exec .accChunkArrive s = ends s m) ∧
        (judged = .take r → r.all (fun k => b.order == 0 || b.direct j k || decide (s.heldIn (b.ce j) + 4 * b.ec ≤ heldBytes)) = true →
          takeChunk id j b r (q.vals.take m) s = .ok () u → exec .accChunkArrive s = ends u m))) ∧
    (s.bucket (s.argN 0) = some b → s.argN 1 < b.chunks.length → b.move (s.argN 1) ≠ .none → b.open_ = true ∨ b.state = 6 →
      exec .heldArrivalApply s = .next (s.does (makeMove (s.argN 0) (s.argN 1) (b.move (s.argN 1)))))

/-- R439 to R446, R451 to R454: GRPRANK, RSIG and GRPGEN's operations. Where it rests on the model's choice: notes/assumptions 67, 95. -/
def Obligations.GroupWords : Prop :=
  ∀ (s u : State) (d a c : BitVec 6) (n : Nat) (g : Group) (k : Nat) (w : Bool) (i : GroupImage),
    let e := s.cur.word.extractLsb' 12 6
    let v := (s.rS e).v
    let x := (s.rS (s.cur.word.extractLsb' 0 6)).v
    let rank := (v.extractLsb' 16 15).toNat
    let me := s.rung.me
    let ctx := me.lastCtx
    let fin := fun (t : State) (r : BitVec 32) => (Host.Outcome.next (t.setS e { v := r.setWidth 64 } interlocked).wordDone : Host.Outcome State Fault Refusal)
    (s.issues = true → s.bare = true → (s.rS e).p = false → (s.rS (s.cur.word.extractLsb' 6 6)).p = false → (s.rS (s.cur.word.extractLsb' 0 6)).p = false →
      (s.rS (s.cur.word.extractLsb' 6 6)).v.toNat = n → n ≤ 255 → (v.extractLsb' 0 4).toNat ≤ 6 → v.extractLsb' 4 12 = 0 → v.extractLsb' 31 33 = 0 →
      ((v.extractLsb' 0 4).toNat = 3 ∨ rank = 0) →
      (s.group ctx n = some g →
        exec .grpgenRead s = fin s.rung g.gen ∧
        exec .grpgenDissolve s = fin (s.rung.does (dissolveGroup g)) g.gen ∧
        (rank < g.members.length → withdrawRank g.ctx n rank s.rung = .ok w u → exec .grpgenWithdraw s = fin (if w then match u.group g.ctx n with
            | some h => u.does (sendAll h h.members (h.ranks [.active, .joining, .withdrawing]) gmNOTICE [rank])
            | none => u
          else u) g.gen) ∧
        (g.state = 2 → groupImage x s.rung = .ok i u → g.reshapes i = true →
          ((u.groups.filter (fun h => !(h.ctx == g.ctx && h.num == g.num))).map (·.members.length)).sum + i.nmem ≤ memberLimit →
          let table := i.entries.map memberOf
          let new := (List.range i.nmem).map (fun r =>
            let m := memberAt table r
            let o := g.member r
            if o.mstate = .gone then m else { m with mstate := if o.mstate = .withdrawing then .withdrawing else m.mstate, jgen := o.jgen })
          exec .grpgenReshape s = fin (u.does (enterReshape
            { g with old := some (g.mtab, g.members, g.crc), mtab := i.mtab, members := new, crc := crc32c i.table } (g.gen + 1) (some table))) (g.gen + 1)) ∧
        (me.gang = some k → (((s.gang k).bind (fun q => s.hubCard q.card)).bind (·.node)).isSome = true → g.catcher = none →
          exec .grpgenCatch s = fin (g.sigs.foldl (fun s q => s.catchSig k q) (s.rung.setGroup { g with catcher := some k, sigs := [] })) g.gen) ∧
        (g.catcher = me.gang → g.catcher.isSome = true → exec .grpgenDrop s = fin (s.rung.setGroup { g with catcher := none }) g.gen)) ∧
      (s.group ctx n = none → s.groups.length < groupLimit → (s.groups.map (·.members.length)).sum < memberLimit → groupImage x s.rung = .ok i u →
        (s.groups.map (·.members.length)).sum + i.nmem ≤ memberLimit →
        let f := fieldOf i.block
        let gen := BitVec.ofNat 32 (f 8 31 0)
        let new : Group :=
          { ctx := ctx, num := n, addr := x.toNat, region := me.region.toNat, state := 0, self := i.self, gen := gen, pgen := 0, wbase := f 0x10 55 0
            wlen := f 0x18 39 0, ww := f 0x18 40 40 == 1, wacc := f 0x18 41 41 == 1, wmc := f 0x18 42 42 == 1, mtab := i.mtab
            members := i.entries.map memberOf, crc := crc32c i.table }
        let forming := { new with state := 1, pgen := gen }
        exec .grpgenBind s = fin (((({ u with groups := u.groups ++ [new] } : State).does (keepGroup forming)).does
          (sendAll forming forming.members (forming.ranks [.active, .joining]) gmHELLO [gen.toNat])).does (settleForming ctx n)) gen)) ∧
    (s.issues = true → s.bare = true → (s.rS a).p = false → (s.rS a).v.toNat = n → n ≤ 255 →
      exec (.grprank d a) s = .next ((s.rung.setS d { v := word64 (match s.group ctx n with
        | none => 0
        | some g => g.self + 2 ^ 16 * (g.member g.self).mstate.code + 2 ^ 20 * g.state + 2 ^ 32 * g.gen.toNat) } interlocked).wordDone) ∧
      (let y := (s.rS c).v
       let to_ := (y.extractLsb' 0 15).toNat
       let count := (y.extractLsb' 32 14).toNat
       let m := g.member to_
       let q : Flit := { type := fSIGNAL, vc := 0, rgen := BitVec.ofNat 8 s.rgen, dst := BitVec.ofNat 15 m.pkgid, src := BitVec.ofNat 15 (s.pkgid.getD 0)
                         owner := (ctx, me.region.toNat) }
       let out := s.rung.marks
       (s.rS c).p = false → s.group ctx n = some g → y.getLsbD 15 = false → y.getLsbD 23 = false → y.extractLsb' 28 4 = 0 → y.extractLsb' 46 18 = 0 → count ≠ 0 →
        to_ < g.members.length → m.mstate = .active → s.rung.settledTo = true → s.rung.remoteDone = true → s.dcache = [] → out.leavesNow q = true →
        let sent := fun (t : State) => ((({ t with xidNext := s.xidNext + 1, xfers := assign s.xidNext (.rsig s.cur.core to_ (s.unit.pc.setWidth 16)) s.xfers } : State).does
          (source fSIGNAL m.pkgid s.xidNext 0 [m.ctxid.toNat, g.num, to_, (y.extractLsb' 16 7).toNat, (y.extractLsb' 24 4).toNat, count] [] [] (ctx, me.region.toNat))).onMe
            (fun k => { k with rsigs := k.rsigs ++ [s.xidNext] })).wordDone
        (some m.pkgid = s.pkgid → s.sigHeld g to_ = false → exec (.rsig a c) s = .next (sent out)) ∧
        (some m.pkgid ≠ s.pkgid → exec (.rsig a c) s = .next (if Config.freeBit s.freeCtr then sent out.bumpFree else out.bumpFree))))

/-- R442 to R449, R454, R468: the messages between the members of a group, the reports on what this package sent, and remote cards,
data and signals as they arrive. Where it rests on the model's choice: notes/assumptions 64, 65, 66, 67, 68, 96. -/
def Obligations.GroupEvents : Prop :=
  ∀ (s u v t : State) (f : Flit) (g : Group) (w : Bool) (x : XferOf) (q : RemoteIn) (ids : List Nat) (c : BitVec 8), some f.dpkg = s.pkgid →
    let r := f.get 3
    let kept := fun (g : Group) => u.does (keepGroup g)
    let said := BitVec.ofNat 32 (f.get 4)
    (s.arrives fGROUP = some (f, u) → u.group (BitVec.ofNat 8 (f.get 1)) (f.get 2) = some g → r < g.members.length → (g.member r).mstate ≠ .gone →
      (f.get 0 = gmHELLO → exec .groupHello s = .next (u.does (sendMsg g r (g.member r) gmANSWER [g.gen.toNat, g.pgen.toNat]))) ∧
      (f.get 0 = gmANSWER →
        let heard := { u with xfers := u.xfers.filter (fun x => match x.2 with
          | .msg c n k _ b _ => !(c == g.ctx && n == g.num && k == r && b.headD 0 == gmHELLO)
          | _ => true) }
        let h := { g with answered := noteRank r said g.answered }
        exec .groupHelloAnswer s = .next ((heard.does (keepGroup h)).does
          (if g.state = 1 && (g.member g.self).mstate = .joining && said + 1 = g.gen && BitVec.ofNat 32 (f.get 5) = g.gen then enterReshape h g.gen
           else settleForming g.ctx g.num))) ∧
      (f.get 0 = gmCONFIRM → exec .groupConfirm s = .next
        ((kept { g with confirmed := noteRank r (said, BitVec.ofNat 32 (f.get 5)) g.confirmed }).does (settleReshape g.ctx g.num))) ∧
      (f.get 0 = gmFENCE → exec .groupCommitFence s = .next (kept { g with fenced := noteRank r said g.fenced })) ∧
      (f.get 0 = gmNOTICE →
        withdrawRank g.ctx g.num (f.get 4) (kept { g with acks := if g.acks.contains (f.get 4, r) then g.acks else g.acks ++ [(f.get 4, r)] }) = .ok w v →
        exec .groupWithdrawNotice s = .next (if w then match v.group g.ctx g.num with
            | some h => v.does (sendAll h h.members (h.ranks [.active, .joining, .withdrawing]) gmACK [f.get 4])
            | none => v
          else v)) ∧
      (f.get 0 = gmACK → exec .groupWithdrawAck s = .next (kept { g with acks := if g.acks.contains (f.get 4, r) then g.acks else g.acks ++ [(f.get 4, r)] }))) ∧
    (let n := s.argN 2
     s.group (BitVec.ofNat 8 (s.argN 0)) (s.argN 1) = some g → (g.member n).mstate = .withdrawing → n < g.members.length → n ≠ g.self → s.rankBusy g n = false →
      (g.ranks [.active, .joining, .withdrawing]).all (fun q => q == n || q == g.self || g.acks.contains (n, q)) = true →
      exec .memberGone s = .next (s.does (keepGroup { g.mark n .gone with acks := g.acks.filter (fun x => x.1 ≠ n), confirmed := g.confirmed.filter (fun x => x.1 ≠ n) }))) ∧
    (∀ ctx n k dpkg body, lookup (s.argN 0) s.xfers = some (.msg ctx n k dpkg body true) → s.group ctx n = some g → (g.member k).mstate = .active →
      exec .groupMessageResend s = .next (({ s with xfers := assign (s.argN 0) (.msg ctx n k dpkg body false) s.xfers } : State).does
        (source fGROUP dpkg (s.argN 0) 0 body [] [] (g.ctx, g.region)))) ∧
    (s.arrives fREPORT = some (f, u) →
      let over_ := { u with xfers := erase f.xid u.xfers }
      let detail := fun (rank : Nat) => word64 (f.get 1 % 256 + 256 * (f.get 2 % 256) + 65536 * rank)
      (lookup f.xid u.xfers = some x →
        (f.get 0 = 0 → u.lossHere f.xid = false → ∀ y k, x = .card y k → exec .remoteCardReport s = .next
          (if f.get 1 = 0 then over_.setMoved y else over_.faultCard y (BitVec.ofNat 8 (f.get 1), word64 (f.get 2)))) ∧
        (f.get 0 = 1 → f.get 3 ≠ fREPORT.toNat → exec .linkLossReport s = .next (match x with
          | .card y rank => (match over_.targetOf y with
              | some d => over_.does (source fREPORT d f.xid 0 [4])
              | none => over_).faultCard y (cLINK, detail rank)
          | .rsig c rank pc => (over_.onCore c (fun k => { k with rsigs := k.rsigs.filter (· ≠ f.xid) })).trapStop c .S 0 cLINK (pc.setWidth 17) (detail rank)
          | .msg ctx n k d b _ => { over_ with xfers := assign f.xid (.msg ctx n k d b true) over_.xfers })) ∧
        (f.get 0 = 3 → ∀ c rank pc, x = .rsig c rank pc → exec .rsigAck s = .next (over_.onCore c (fun k => { k with rsigs := k.rsigs.filter (· ≠ f.xid) })))) ∧
      (f.get 0 = 1 → f.get 3 = fREPORT.toNat → exec .linkLossReport s = .next (u.does
        (source fREPORT (f.get 4) f.xid 0 (if f.get 5 = 0 then [1, f.get 1, f.get 2, fCARD.toNat] else f.body.drop 5)))) ∧
      (f.get 0 = 4 → exec .linkLossReport s = .next (u.does (senderLost f))) ∧
      (f.get 0 = 2 → exec .raccwCancelNotice s = .next (match u.group (BitVec.ofNat 8 (f.get 1)) (f.get 2) with
        | none => u
        | some g => u.does (cancelContribution (BitVec.ofNat 8 (f.get 1)) (g.wbase + f.get 3) (f.get 4) (some (BitVec.ofNat 32 (f.get 5))) 0xFFFFFFFF)))) ∧
    (s.arrives fCARD = some (f, u) →
      let y := cardFlit f
      let base := ((u.group y.ctx y.grp).map (·.wbase)).getD 0 + y.off
      let o := Owner.remote (remoteOwner f)
      let z : RemoteIn := { spkg := f.spkg, xid := f.xid, op := y.op, ctx := y.ctx, grp := y.grp, rank := y.rank, tag := y.tag, off := y.off, base := base
                            len := y.len, fin := y.fin, left := y.len }
      let rs := if y.op = opMCAST || y.dest = 0 then [] else rangeOf false (if y.op = opRWRITE then .w else .acc) base (base + y.dest - 1 : Nat)
      u.remoteIn.all (fun r => !r.is f.spkg f.xid) = true →
      (u.refusal y = some c → exec .remoteCardReceive s = .next (u.does (putRemote { z with fault := some (c, word64 y.off) } y))) ∧
      (u.refusal y = none → windowOk y.ctx y.op (y.dest / 0x10000 + 2) base (base + y.dest) u = .ok none v →
        (enterFps (.owner o) o y.ctx 0 rs true v = .ok (.entered ids) t →
          exec .remoteCardReceive s = .next (t.does (putRemote { z with waiting := false, fps := ids } y))) ∧
        (enterFps (.owner o) o y.ctx 0 rs true v = .ok .waiting t →
          exec .remoteCardReceive s = .next ((t.does (putRemote { z with waiting := true } y)).does (holdFlit f))))) ∧
    (s.arrives fDATA = some (f, u) → u.remoteIn.find? (fun r => r.is f.spkg f.xid) = some q → q.waiting = false ∨ q.fault ≠ none → takeData q f u = .ok () v →
      exec .remoteDataReceive s = .next v) ∧
    (s.arrives fSIGNAL = some (f, u) → u.group (BitVec.ofNat 8 (f.get 0)) (f.get 1) = some g →
      let y : RemoteSig := { gr := f.get 3, sem := BitVec.ofNat 4 (f.get 4), count := f.get 5 }
      let acks := fun (t : State) => (Host.Outcome.next (t.does (source fREPORT f.spkg f.xid 0 [3])) : Host.Outcome State Fault Refusal)
      (∀ k, g.catcher = some k → exec .remoteSignalReceive s = acks (u.catchSig k y)) ∧
      (g.catcher = none → g.sigs.length < sigRoom → exec .remoteSignalReceive s = acks (u.setGroup { g with sigs := g.sigs ++ [y] })) ∧
      (g.catcher = none → ¬ g.sigs.length < sigRoom → exec .remoteSignalReceive s = .next (u.does (holdFlit f))))

/-! ## Stack kernels, streams, the array -/

/-- R356 to R371: a launch is checked and accepted or refused, a channel engine begins a run, executes a word with its three slots,
and the launch ends. Where it rests on the model's choice: notes/assumptions 30, 57, 58, 59. -/
def Obligations.StackKernels : Prop :=
  ∀ (s u v t : State) (w : CeWord) (q : LaunchReq) (p : LaunchParam) (l k : Launch) (e : Bad) (ids : List Nat) (id n j fi wi : Nat) (r : Run)
    (fv : Option (BitVec 512)) (pub : Bool),
    let i := s.argN 0
    let num := q.id.getD s.launchNext
    let at_ := { s with launchNext := Nat.max s.launchNext (num + 1), skReqs := s.skReqs.set i { q with id := some num } }
    let checks := (do let p ← launchParam { q with id := some num }; let l ← readImage q.ctx q.src q.handle p; return (p, l) : Check (LaunchParam × Launch)).run at_
    let g := s.cur.ce
    let c := s.ce i
    (s.skReqs[i]? = some q → (s.ctx q.ctx).dispatches = true →
      (checks = .ok (.error e) u → exec .stackKernelLaunch s = .next ((u.unwait (.owner (.launch num))).does (refuseLaunchReq { q with id := some num } e))) ∧
      (checks = .ok (.ok (p, l)) u → enterFps (.owner (.launch num)) (.launch num) q.ctx l.region (l.ranges p) true u = .ok (.entered ids) v →
        (v.widenConflict num l p = none → exec .stackKernelLaunch s = .next (v.does (acceptLaunchReq num l p ids))) ∧
        (∀ f, v.widenConflict num l p = some f → exec .stackKernelLaunch s = .next
          ((v.does (releaseFps ids)).does (refuseLaunchReq { q with id := some num } (cRACE, word64 f.base)))))) ∧
    (i < 384 → c.run = none →
      let rivals := (((s.ceWaiting i).filter (fun x => x.2.1.level == l.level)).map (fun x => x.2.1.payer)).eraseDups
      let served := s.bumpFree.serve (ceArbiter i) s.bumpFree.ceWeight rivals l.payer
      (s.ceBest i (s.ceWaiting i) = [(id, l, some (n, r))] →
        exec .ceRunStart s = .next ((served.setCe i { c with run := some r, slots := c.slots.filter (fun y => y.1 != n) }).settleCtx l.ctx)) ∧
      (s.ceBest i (s.ceWaiting i) = [(id, l, none)] → l.todo.find? (fun j => l.ce j == i) = some j →
        exec .ceRunStart s = .next (((served.setCe i { c with run := some (l.start id j) }).onLaunch id (fun l =>
          { l with todo := l.todo.erase j })).settleCtx l.ctx))) ∧
    ((s.ce g).run = some r → lookup r.launch s.launches = some l → l.cancelled = false → (s.ctx l.ctx).state ≠ .dumping → l.poisoned = false →
      w.chk = false → fSlot w g l r s = .ok (fv, fi) u →
      (wSlot w g l r u = .ok (wi, pub, some e) v → exec (.ceWord w) s = .next (v.does (afterWord g r.launch r (.fault e)))) ∧
      (wSlot w g l r u = .ok (wi, pub, none) v →
      let e1 := match fv with
        | some x => r.e.set w.fdst.toFin x
        | none => r.e
      let ap := r.ap.set w.fap.toFin (r.ap[w.fap.toFin] + BitVec.ofNat 64 fi)
      let x : Run := { r with e := if w.aop = .enop then e1 else e1.set w.ad.toFin (aSlot w l r)
                              ap := ap.set w.wap.toFin (ap[w.wap.toFin] + BitVec.ofNat 64 wi), pub := pub }
      (w.stop = false →
        exec (.ceWord w) s = .next (if w.lend && l.ls ≤ r.pc && 0 < r.lk0 then
            v.does (afterWord g r.launch { x with lk0 := r.lk0 - 1, lk1 := r.lk1 + 1, pc := if 1 < r.lk0 then l.ls else r.pc + 1 } (.goes true))
          else v.does (afterWord g r.launch { x with pc := r.pc + 1 } (.goes false)))) ∧
      (w.stop = true → ∀ b, cePublish l g x v = .ok b t → exec (.ceWord w) s = .next (t.does (afterWord g r.launch { x with pub := b } .ended))))) ∧
    (let here := fun (r : Run) => r.launch == i
     let gone := u.does (releaseLaunch k)
     let left := { gone with launches := erase i gone.launches, ces := gone.ces.map (fun (c : Nat × Ce) => (c.1, { c.2 with slots := c.2.slots.filter (fun x => !here x.2.2) })) }
     lookup i s.launches = some l → l.cancelled = false → (s.ctx l.ctx).serves = true → s.ces.all (fun c => !c.2.run.any here && !c.2.slots.any (fun x => here x.2.2)) = true →
      l.todo.all (fun j => l.stopped.contains (l.ce j)) = true → settleLaunch i s = .ok () u → lookup i u.launches = some k →
      (k.src = .page → exec .stackKernelLaunchEnd s = .next (left.settleCtx k.ctx)) ∧
      (∀ b x, k.src = .bucket b → u.bucket b = some x → exec .stackKernelLaunchEnd s = .next ((if x.state = 4 then
          (left.does (keepBucket b { x with state := 5, charged := false, launch := none })).does (releaseBucket b)
        else (left.does (keepBucket b { x with launch := none })).does (settlePoison b)).settleCtx k.ctx)) ∧
      (∀ m h, k.src = .card m → u.hubCard m = some h → h.node = none → exec .stackKernelLaunchEnd s = .next ((if k.poisoned && !k.cancelled then
          left.does (failHub m ((u.hubOwn h).cause 5 k.unit k.cause k.detail (BitVec.ofNat 16 k.pc)) h.fps)
        else left.does (finishHub m)).settleCtx k.ctx)))

/-- R189, R190, R199 to R202, R237, R241, R250, R251: the stream unit moves entries, the loader and the storer move tiles, and the array
completes its members and takes chain words. Where it rests on the model's choice: notes/assumptions 34, 38, 40. -/
def Obligations.StreamsAndArray : Prop :=
  ∀ (s u v t : State) (n : Nat) (x : Stream) (r : SpRing) (y : Subscription) (e : VecReg) (es : List VecReg) (bs : List (Option Byte)) (base : Int)
    (o : ArrayOp) (cd : XCard) (w : Word32) (tk : Nat) (z : Bool) (d : BitVec 4) (koff : BitVec 6) (ft : BitVec 5),
    s.argN 0 < 96 →
    let c := s.argN 0
    let k := s.core c
    let a := s.atCore c .A
    let m := s.atCore c .M
    (k.unitsRun = true → s.argN 1 = n →
      (n < 16 → k.streams[Fin.ofNat 16 n] = some x → x.re = false → x.desc.space ≠ 2 ∨ x.next < x.desc.entries → 0 < k.roomInStream x →
        streamBase x.desc a = .ok base a →
        let ps := x.desc.entry base x.next
        let next := fun (e : VecReg) => ({ x with next := x.next + 1, psn := x.psn || e.p != 0 } : Stream)
        (x.desc.isIn = true → s.argN 2 = 0 → (k.iq[x.desc.inq.toFin]).length < Nat.max x.desc.depth.toNat k.iqWant[x.desc.inq.toFin] →
          k.cardsBlock x.seq (pieceRanges (x.desc.space != 1) .r ps) = false → readPieces { a.pathOf c .A with early := x.early } (x.desc.space == 1) ps a = .ok bs u →
          advanceStream (BitVec.ofNat 4 n) { next (entryOf bs) with early := [] } (u.onMe (fun k => { k with iq := k.iq.set x.desc.inq.toFin (k.iq[x.desc.inq.toFin] ++ [entryOf bs]) })) = .ok () v →
          exec .streamFetch s = .next v) ∧
        (x.desc.isIn = false → k.oq[x.desc.outq.toFin] = e :: es → k.cardsBlock x.seq (pieceRanges (x.desc.space != 1) x.desc.mode ps) = false →
          let p := if x.desc.acc then (a.pathOf c .A).bypass else a.pathOf c .A
          writePieces p (x.desc.space == 1) x.desc.acc false ps (leBytes 512 e.v.toNat) (a.onMe (fun k => { k with oq := k.oq.set x.desc.outq.toFin es })) = .ok none u →
          advanceStream (BitVec.ofNat 4 n) (next e) u = .ok () v → exec .streamWrite s = .next v)) ∧
      (n < 8 → k.rings[Fin.ofNat 8 n] = some r → r.sub = some y →
        let holds := fun (t : State) (y : Subscription) => t.onMe (fun k => { k with rings := k.rings.set (Fin.ofNat 8 n) (some { r with sub := some y }) })
        let f := y.filled
        let put := fun (t : State) (f : Nat) (tile : List Byte) => t.onMe (fun k => k.spadWrite (r.slot f) tile)
        let signals := fun (t : State) => if y.desc.semen then
          t.onMe (fun k => { k with semIncs := k.semIncs ++ [{ src := .ring (BitVec.ofNat 3 n), sem := y.desc.semn, count := 1 }] }) else t
        (y.store = false → y.busy = true →
          (let got := (List.range y.tile.length).map (fun i => if Config.freeBit (s.freeCtr + i) then y.tile.getD i 0 else (k.spad.slice (r.slot f) y.tile.length).getD i 0)
           exec .loaderTileFill s = .next (put { a with freeCtr := s.freeCtr + y.tile.length } f got)) ∧
          exec .loaderTileFull s = .next (signals (holds (put { a with freeCtr := s.freeCtr + y.tile.length } f ((List.range y.tile.length).map (fun i => y.tile.getD i 0)))
            { y with busy := false, tile := [], filled := f + 1 }))) ∧
        (y.store = true → f < y.passed →
          let len := r.tileLen y f
          let ps := r.tilePieces y f
          k.cardsBlock y.seq ({ sp := true, lo := r.slot f, len := len, mode := .r } :: pieceRanges false y.mode ps) = false →
          writePieces (a.subPath c) true y.desc.acc true ps (storerBytes k y (r.slot f) len s.freeCtr) { a with freeCtr := s.freeCtr + len } = .ok none u →
          keepSub (BitVec.ofNat 3 n) r { y with filled := f + 1, covered := y.covered.filter (fun p => !(decide (r.slot f ≤ p.1) && decide (p.1 < r.slot f + r.size))) } u = .ok () v →
          exec .storerTileStored s = .next (signals v)))) ∧
    (k.stepq[s.argN 1]? = some o → (k.stepq.take (s.argN 1)).all (fun p => !p.shares o) = true →
      (∀ q i, o = .step q i → k.unfoldBlocked q.bind = false) →
      let out := k.runMember o s.freeCtr
      let tells := fun (t : State) => match o with
        | .step q _ => match q.chain with
          | some n => t.onMe (fun k => { k with semIncs := k.semIncs ++ [{ src := .array, sem := n, count := 1 }] })
          | none => t
        | _ => t
      exec .arrayStepComplete s = .next (tells ((({ m with freeCtr := s.freeCtr + stepFree } : State).onMe (fun _ => { out.1 with stepq := k.stepq.eraseIdx (s.argN 1) })).flagged out.2))) ∧
    (k.cards.find? (fun x => x.ticket == s.argN 1) = some cd → cd.card.chen = true → cd.moved = true → cd.chained = false → cd.st = .running → k.chain.slot = none →
      exec .chainWordReady s = .next (m.onMe (fun k => { k with chain := { k.chain with slot := some (cd.card.chain, s.argN 1) } }))) ∧
    (k.chain.slot = some (w, tk) → k.chain.armed = true → 0 < k.chain.remaining → k.stepq.length < stepqDepth → chainStepOf w = some (z, d, koff, ft) →
      let left := k.chain.remaining - 1
      let taken := m.onMe (fun k => ({ k with chain := { k.chain with slot := none, remaining := left, armed := decide (0 < left) } } : Core).chainTaken tk)
      enterStep z d koff ft (some k.chain.sem) taken = .ok () t → exec .chainedStep s = .next t)

/-! ## What is left alone -/

/-- R15, R82, R134: words that write registers. Whatever becomes of the word (it completes, waits or traps), no memory, no other core and
no register but its destination changes; a write of a register that reads as a constant changes nothing. END of S changes claims and pins besides,
that of A what it unbinds; SYNC moves M with the others. What a trap or a wait of
the word writes (State.rest, Core.data) is not data. -/
def Obligations.RegisterWordsKeepTheRest : Prop :=
  ∀ (s t : State) (d a b imm : BitVec 6) (imm12 : BitVec 12) (fd f g m : BitVec 3) (da aa ab : BitVec 5) (i j k : BitVec 4) (h hx hy : BitVec 3)
    (p : BitVec 18) (n : BitVec 2),
    let x := s.me.data
    let y := t.me.data
    (∀ w ∈ [Instr.nop, .nopA, .nopV, .nopM, .nopX, .nopB, .extS p, .extA p, .extV p, .extM p, .extX p, .extB p, .pb n imm12, .br n f, .brn n f, .call n,
        .ret, .loop n a imm, .loopi n a imm, .breakl n f],
      exec w s = .next t → s.onlyData t x) ∧
    (exec .sync s = .next t → t.rest = s.rest ∧ (∀ c, c ≠ s.cur.core → t.core c = s.core c) ∧ y = x) ∧
    (exec .endW s = .next t →
      (s.cur.eng ≠ .S → s.cur.eng ≠ .A → s.onlyData t x) ∧
      (s.cur.eng = .S → s.onlyData { t with flights := s.flights, pins := s.pins } { x with claims := y.claims }) ∧
      (s.cur.eng = .A → s.onlyData { t with flights := s.flights } { x with streams := y.streams, rings := y.rings, unfold := y.unfold, iq := y.iq })) ∧
    (∀ w ∈ [Instr.add d a b, .sub d a b, .mul d a b, .mulh d a b, .mulhn d a b, .div d a b, .divn d a b, .rem d a b, .remn d a b, .and d a b, .or d a b,
        .xor d a b, .shl d a b, .shr d a b, .sra d a b, .min d a b, .max d a b, .minn d a b, .maxn d a b, .clz d a, .popc d a, .addi d a imm, .andi d a imm,
        .ori d a imm, .xori d a imm, .shli d a imm, .shri d a imm, .srai d a imm, .ldi d imm12, .ftos d f, .cmov d a f, .fadd32 d a b, .fsub32 d a b,
        .fmul32 d a b, .ffma32 d a b, .fdiv32 d a b, .fsqrt32 d a, .fmin32 d a b, .fmax32 d a b, .fcmp32 d a b, .fcvt d a imm, .semrd d imm12, .csrr d imm12],
      exec w s = .next t → s.onlyData t { x with s := x.s.set d.toFin y.s[d.toFin] } ∧ (d = 0 → y.s = x.s)) ∧
    (∀ w ∈ [Instr.ceq fd a b, .cne fd a b, .clt fd a b, .cle fd a b, .cltn fd a b, .clen fd a b, .fand fd f g, .forF fd f g, .fnot fd f],
      exec w s = .next t → s.onlyData t { x with f := x.f.set fd.toFin y.f[fd.toFin] } ∧ (fd = 0 → y.f = x.f)) ∧
    (∀ w ∈ [Instr.aadd da aa ab, .asub da aa ab, .amul da aa ab, .aand da aa ab, .aor da aa ab, .ashl da aa ab, .ashr da aa ab, .amin da aa ab,
        .amax da aa ab, .aaddi da aa imm, .aldi da imm12, .sstat da i],
      exec w s = .next t → s.onlyData t { x with a := x.a.set da.toFin y.a[da.toFin] } ∧ (da = 0 → y.a = x.a)) ∧
    (∀ w ∈ [Instr.kadd i j k, .kaddi i j imm, .kldi i imm12, .kmov i j, .mpop i m, .mfirst i m],
      exec w s = .next t → s.onlyData t { x with k := x.k.set i.toFin y.k[i.toFin] } ∧ (i = 0 → y.k = x.k)) ∧
    (∀ w ∈ [Instr.xadd i j k, .xaddi i j imm, .xldi i imm12, .xstat i j], exec w s = .next t → s.onlyData t { x with x := x.x.set i.toFin y.x[i.toFin] }) ∧
    (∀ w ∈ [Instr.mhadd h hx hy], exec w s = .next t → s.onlyData t { x with h := x.h.set h.toFin y.h[h.toFin] })

/-- R208 to R211: words of V that take vectors. Whatever becomes of the word, nothing changes but its destination, the queues that its
sources name, and the stochastic-rounding index; for a compare, its mask register, for VWIDEN the registers of its group, for VTOK its k register. -/
def Obligations.VectorWordsKeepTheRest : Prop :=
  ∀ (s t : State) (d : VDst) (v n5 : BitVec 5) (a b : VSrc) (c : VIn) (n6 : BitVec 6) (m m1 m2 : BitVec 3) (k i j : BitVec 4),
    let x := s.me.data
    let y := t.me.data
    let pops := fun (srcs : List VSrc) => ∀ q, .iq q ∉ srcs → y.iq[q.toFin] = x.iq[q.toFin] ∧ y.iqWant[q.toFin] = x.iqWant[q.toFin]
    let vec := fun (d : VDst) (srcs : List VSrc) =>
      s.onlyData t { x with v := y.v, oq := y.oq, iq := y.iq, iqWant := y.iqWant, idx := y.idx } ∧ pops srcs ∧
      (∀ n, d ≠ .v n → y.v[n.toFin] = x.v[n.toFin]) ∧ (∀ q, d ≠ .oq q → y.oq[q.toFin] = x.oq[q.toFin])
    (∀ w ∈ [Instr.vadd d a b, .vsub d a b, .vmul d a b, .vmin d a b, .vmax d a b, .vdiv d a b, .vadds d a b, .vmulh d a b, .vand d a b, .vor d a b, .vxor d a b,
        .vshl d a b, .vshr d a b, .vsra d a b, .vsel d a b, .vperm d a b], exec w s = .next t → vec d [a, b]) ∧
    (∀ w ∈ [Instr.vabs d a, .vneg d a, .vsqrt d a, .vrcp d a, .vrsq d a, .vexp2 d a, .vlog2 d a, .vclass d a, .vmov d a, .vbcast d a, .vcomp d a, .vexpd d a,
        .vslup d a k, .vsldn d a k, .vxpose d a k, .vrsum d a, .vrmax d a, .vrmin d a, .vscan d a, .vcvt d a k], exec w s = .next t → vec d [a]) ∧
    (∀ w ∈ [Instr.vnarrow d c n5, .vcvtq d c n6], exec w s = .next t → vec d [c.src]) ∧
    (exec (.vwiden d c k) s = .next t →
      let rho := ((pairOf s.me.cfg.fmt k.toNat).map (·.1)).getD 1
      s.onlyData t { x with v := y.v, oq := y.oq, iq := y.iq, iqWant := y.iqWant } ∧ pops [c.src] ∧
      (∀ n : BitVec 5, (∀ m j, d = .v m → j < rho → n ≠ groupReg m j) → y.v[n.toFin] = x.v[n.toFin]) ∧ (∀ q, d ≠ .oq q → y.oq[q.toFin] = x.oq[q.toFin])) ∧
    (exec (.vtok i c j) s = .next t →
      s.onlyData t { x with k := x.k.set i.toFin y.k[i.toFin], iq := y.iq, iqWant := y.iqWant } ∧ pops [c.src] ∧ (i = 0 → y.k = x.k)) ∧
    (exec (.vfma v a b) s = .next t → vec (.v v) [a, b]) ∧
    (exec (.viota d) s = .next t → vec d []) ∧
    (∀ w ∈ [Instr.vceq m a b, .vcne m a b, .vclt m a b, .vcle m a b],
      exec w s = .next t → s.onlyData t { x with m := x.m.set m.toFin y.m[m.toFin], iq := y.iq, iqWant := y.iqWant } ∧ pops [a, b] ∧ (m = 0 → y.m = x.m)) ∧
    (∀ w ∈ [Instr.mand m m1 m2, .mor m m1 m2, .mxor m m1 m2, .mnot m m1, .mset m i j],
      exec w s = .next t → s.onlyData t { x with m := x.m.set m.toFin y.m[m.toFin] } ∧ (m = 0 → y.m = x.m))

/-- R173 to R180, R181 to R183: what words that access memory leave alone, while no earlier write's bound is open, no die cache holds
a sector and no update of a replica is under way. A load changes no memory; a store or an atomic operation changes only the bytes that its address, in any
translation that S may use, gives. In the scratchpad likewise. An access that the word leaves in flight is at the word's address, with the
word's data. No other core changes. -/
def Obligations.MemoryWordsKeepTheRest : Prop :=
  ∀ (s t : State) (d a b imm : BitVec 6) (da aa ab : BitVec 5), s.unit.pend = [] → s.dcache = [] → s.repPend = [] →
    let x := s.me.data
    let y := t.me.data
    let only := fun (k : Core) => (∀ c, c ≠ s.cur.core → t.core c = s.core c) ∧ y = k
    let toS := { x with s := x.s.set d.toFin y.s[d.toFin] }
    let toA := { x with a := x.a.set da.toFin y.a[da.toFin], spad := y.spad, stepq := y.stepq, rings := y.rings }
    let rest := { t with flights := s.flights }
    let spadBut := fun (va n : Nat) => ∀ i, i < va ∨ va + n ≤ i → y.spad.get i = x.spad.get i
    let flew := fun (sp : Bool) (va n : Nat) (store : Option (List Byte)) (late : Option Late) => t.flights = s.flights ∨
      ∃ f, t.flights = s.flights ++ [f] ∧ f.core = s.cur.core ∧ f.eng = s.cur.eng ∧ f.sp = sp ∧ f.va = va ∧ f.len = n ∧
        (f.store = none ∨ f.store = store) ∧ (f.late = none ∨ f.late = late)
    let va := ((s.rS a).v + s.immS imm).toNat
    let vx := (s.rS a).v.toNat
    let o := (s.rS d).v
    let ea := ((s.rA aa).v + s.immS imm).toNat
    let ex := (s.rA aa).v.toNat
    let p := (s.rA da).v
    (exec (.gld d a imm) s = .next t → only { toS with repSeen := y.repSeen } ∧ t.mem = s.mem ∧ flew false va 8 none (some (.load (.s d) false))) ∧
    (exec (.glds d a imm) s = .next t → only { toS with repSeen := y.repSeen } ∧ t.mem = s.mem ∧ flew false va 8 none (some (.load (.s d) true))) ∧
    (exec (.gst d a imm) s = .next t → only x ∧ s.memBut t va 8 ∧ flew false va 8 (some (leBytes 8 o.toNat)) none) ∧
    (exec (.gatom d a b) s = .next t → only toS ∧ s.memBut t vx (atomWidth o) ∧ flew false vx (atomWidth o) none (some (.atom (.s d) o (s.rS b).v))) ∧
    (exec (.gcas d a b) s = .next t → only toS ∧ s.memBut t vx 8 ∧ flew false vx 8 none (some (.cas (.s d) o (s.rS b).v))) ∧
    (exec (.ald da aa imm) s = .next t → s.onlyData rest { x with a := x.a.set da.toFin y.a[da.toFin] } ∧ flew true ea 8 none (some (.load (.a da) false))) ∧
    (exec (.ast da aa imm) s = .next t → s.onlyData rest { x with spad := y.spad, stepq := y.stepq, rings := y.rings } ∧ spadBut ea 8 ∧
      flew true ea 8 (some (leBytes 8 p.toNat)) none) ∧
    (exec (.aatom da aa ab) s = .next t → s.onlyData rest toA ∧ spadBut ex (atomWidth p) ∧ flew true ex (atomWidth p) none (some (.atom (.a da) p (s.rA ab).v))) ∧
    (exec (.acas da aa ab) s = .next t → s.onlyData rest toA ∧ spadBut ex 8 ∧ flew true ex 8 none (some (.cas (.a da) p (s.rA ab).v)))

/-! ## Decoding, the step, reset -/

/-- R61 to R64, R79, R145, Tables 3.1 to 3.13: words written out from the spec's encodings decode to the instructions they stand for, and
reserved tags, opcodes and fields to none. -/
def Obligations.SampleWordsDecode : Prop :=
  decodeWord 0x00043042 = .add 3 1 2 ∧
  ringOf 0x1E043042 = ⟨true, true, true, true⟩ ∧
  decodeWord 0x01605003 = .csrr 5 3 ∧
  decodeWord 0x016C7000 = .cycle 7 ∧
  decodeWord 0x20043042 = .aadd 3 1 2 ∧
  decodeWord 0x40103042 = .vadd (.v 3) (.v 1) (.v 2) ∧
  decodeWord 0x60103142 = .mstep 3 5 2 ∧
  decodeWord 0x80043080 = .xjob 3 2 ∧
  decodeWord 0xE0280000 = .phint ∧
  decodeWord 0xA0000000 = .illegalWord ∧
  decodeWord 0x00000001 = .illegalWord ∧
  decodeRule 0x40000005 = some (.fail 5) ∧
  decodeRule 0x44000000 = none ∧
  decodeCe 0x8000000000000000 = some
    { stop := true, lend := false, chk := false, fop := .fnop, fdst := 0, fap := 0, fimm := 0, aop := .enop, ad := 0, aa := 0, ab := 0, md := 0, wop := .wnop
      wsrc := 0, wap := 0, wimm := 0 } ∧
  decodeCe 0x1000000000000000 = none

/-- R61 to R80: encoding a well-formed instruction and decoding the word gives the instruction back, with every operand, and a core
word outside B and EXT carries the ring bits it was given; every instruction that is no event has a word. Decoding a word and
encoding what it gives yields the word, but for BARV, BKARM and GRPGEN, whose register numbers stay in the word. Where it rests on the model's choice: notes/assumptions 12. -/
def Obligations.DecodeInvertsEncode : Prop :=
  (∀ (r : Ring) (i : Instr), i.wf = true →
    (∀ c, encode r i = some c → decode c = some i ∧
      (∀ w, c = .core w → tagOf w ≠ 7 → opOf w ≠ 0x7F → ringOf w = r) ∧
      (∀ w, c = .core w → tagOf w = 7 ∨ opOf w = 0x7F → ringOf w = Ring.zero)) ∧
    (isEvent i = false → i ≠ .illegalWord → encode r i.wordForm ≠ none)) ∧
  (∀ (w : BitVec 32) (i : Instr), decode (.core w) = some i → i ≠ .barvArrive → i ≠ .bkarmArm → i ≠ .grpgenRead → i.wf = true ∧ encode (ringOf w) i = some (.core w)) ∧
  (∀ (w : BitVec 32) (i : Instr), decode (.rule w) = some i → i.wf = true ∧ encode Ring.zero i = some (.rule w)) ∧
  (∀ (w : BitVec 64) (x : CeWord), decodeCe w = some x → encodeCe x = w)

/-- R62 to R64, R126, R127 (95_what_each_step_holds): the agenda's first action takes place, a free choice where it
names none. An engine at a word of its own runs the instruction that the word decodes to, one at another's word passes it; a channel
engine runs its run's word, a Caddie slot its walk's rule, and an event of the table happens. Where it rests on the model's choice: notes/assumptions 1, 12. -/
def Obligations.StepRunsTheDecodedInstruction : Prop :=
  ∀ (s : State) (r : List Action) (c : Nat) (e : Engine) (g n : Nat) (run : Run) (l : Launch) (w : CeWord) (id : Nat) (x : Walk) (i : Instr) (args : EvArgs) (early pa : Nat),
    let k := s.core c
    let pc := (k.eng e).pc.toNat
    let at_ := { s with agenda := r }
    let here := { at_ with cur := { core := c, eng := e, word := k.word pc } }
    let rule := { at_ with cur := { stack := g, slot := n, args := { n := [0, early] } } }
    (s.agenda = .engine c e :: r → c < 96 → k.acts e = true → s.dstate ≠ .safe → (k.gang.bind s.gang).all (fun g => g.state != .stopping && (g.state != .monitor || k.mode != .running)) = true → k.stopReq = false →
      pc < 65536 → k.slips e = true →
      (isFor (k.word pc) e = true → decodeWord (k.word pc) = i → step s = exec (refine i here) here ∧ (opsOf i = none → refine i here = i)) ∧
      (isFor (k.word pc) e = false → step s = .next ({ at_ with cur := { core := c, eng := e } }.onCore c (·.passWords e 1)))) ∧
    (s.agenda = .ce g n :: r → g < 384 → (s.ce g).run = some run → lookup run.launch s.launches = some l → l.words[run.pc]?.bind decodeCe = some w → s.dstate ≠ .safe →
      step s = exec (.ceWord w) { at_ with cur := { ce := g, args := { n := [n] } } }) ∧
    (s.agenda = .caddie g n early :: r → g < 12 → n < caddieSlots → rule.walkHere = some (id, x) → (x.rules[x.pc]?).bind decodeRule = some i → s.dstate ≠ .safe →
      step s = exec i { rule with cur := { rule.cur with word := x.rules.getD x.pc 0 } }) ∧
    (s.agenda = .event i args :: r → isEvent i = true → step s = exec i { at_ with cur := { args := args } }) ∧
    (s.agenda = .upset pa :: r → step s = .next (at_.spoil pa))

/-- 95_what_each_step_holds: no instruction is refused and none stops the machine: a step answers a next state, unless the agenda names
a core, channel engine or Caddie slot that the package does not have. Where it rests on the model's choice: notes/assumptions 6. -/
def Obligations.StepAnswers : Prop :=
  (∀ (i : Instr) (s : State), ∃ t, exec i s = .next t) ∧
  (∀ (s : State), (∃ t, step s = .next t) ∨ step s = .fault .noSuchUnit) ∧
  (∀ (s : State) (a : Action) (r : List Action), s.agenda = a :: r →
    (step s = .fault .noSuchUnit ↔ match a with
      | .engine c _ => 96 ≤ c
      | .ce g _ => 384 ≤ g
      | .caddie n k _ => 12 ≤ n ∨ caddieSlots ≤ k
      | .event _ _ => False
      | .upset _ => False))

/-- R473, R457, R466, Table 4.8, Table 19.8: the package right after a cold reset. VERIFY; no PKGID and every port DOWN; one route table, of
generation 0, that marks nothing reachable; no context and nothing of one bound; every core idle with its CSRs at their reset
values. Registers whose reset value the spec does not give are 0 in this model, and so is memory: no rule says so. Where it rests on the model's choice: notes/assumptions 7, 8, 11. -/
def Obligations.ResetState : Prop :=
  let s := State.reset
  s.inv = true ∧ s.mem = [] ∧ s.dstate = .verify ∧ s.pkgid = none ∧ s.setId = false ∧ (∀ p : Fin 16, (s.ports[p]).st = .down) ∧ s.routes = [(0, [])] ∧ s.rgen = 0 ∧
  s.ctxs = [] ∧ (∀ n, s.released n = true) ∧ s.keys = [] ∧ s.mbox.busy = false ∧ s.ces = [] ∧
  (∀ c e, c < 96 → (s.core c).acts e = false ∧ ((s.core c).eng e).fstat = 0 ∧ ((s.core c).eng e).pc = 0) ∧
  (∀ c, c < 96 → readCsr c (s.core c).lastCtx (s.core c) 8 = some 1024 ∧ (∀ n ∈ [0, 1, 2, 4, 5, 6, 0x18, 0x19, 0x20, 0x21, 0x22, 0x23, 0x24, 0x25, 0x26, 0x28, 0x29],
    readCsr c (s.core c).lastCtx (s.core c) n = some 0) ∧ ∀ i : Fin 64, ((s.core c).s[i]) = {})

/-- Memory keeps its canonical form: from every state in which addresses rise and no entry is one an unlisted address reads as, each
step leaves such a state. Where it rests on the model's choice: notes/assumptions 8. -/
def Obligations.EveryStepKeepsMemoryCanonical : Prop :=
  ∀ (s t : State), s.inv = true → step s = .next t → t.inv = true
end

