-- ==== Sys2Proof/Laws/Sparse.lean ====
section
/-!
SUPPORT. Sparse arrays: reading what was written, leaving the rest alone, and keeping the canonical form.
-/
namespace Sys2Proof.Machine

/-! ## The canonical form -/

theorem swfFrom_weaken {α : Type} [DecidableEq α] (d : α) {lo hi : Nat} {m : List (Nat × α)} (h : swfFrom d hi m = true) (le : lo ≤ hi) :
    swfFrom d lo m = true := by
  cases m with
  | nil => rfl
  | cons x r => simp only [swfFrom, Bool.and_eq_true, decide_eq_true_eq] at h ⊢; exact ⟨⟨le.trans h.1.1, h.1.2⟩, h.2⟩

theorem sset_swfFrom {α : Type} [DecidableEq α] (d : α) {lo k : Nat} (v : α) {m : List (Nat × α)} (h : swfFrom d lo m = true) (le : lo ≤ k) :
    swfFrom d lo (sset d k v m) = true := by
  induction m generalizing lo with
  | nil => by_cases e : v = d <;> simp [sset, swfFrom, e, le]
  | cons x r ih =>
    obtain ⟨i, w⟩ := x
    simp only [swfFrom, Bool.and_eq_true, decide_eq_true_eq] at h
    obtain ⟨⟨h1, h2⟩, h3⟩ := h
    unfold sset
    split
    · split
      · simp [swfFrom, h1, h2, h3]
      · rename_i hk e; simp [swfFrom, le, e, h2, h3]; omega
    · split
      · rename_i hk; subst hk; split
        · exact swfFrom_weaken d h3 (by omega)
        · rename_i e; simp [swfFrom, le, e, h3]
      · simp [swfFrom, h1, h2]; exact ih h3 (by omega)

/-- A write keeps the canonical form. -/
theorem sset_swf {α : Type} [DecidableEq α] (d : α) (k : Nat) (v : α) {m : List (Nat × α)} (h : swf d m = true) : swf d (sset d k v m) = true :=
  sset_swfFrom d v h (Nat.zero_le k)

/-- In the canonical form nothing stands below the bound. -/
theorem sget_below {α : Type} [DecidableEq α] (d : α) {lo k : Nat} {m : List (Nat × α)} (h : swfFrom d lo m = true) (lt : k < lo) : sget d k m = d := by
  cases m with
  | nil => rfl
  | cons x r => simp only [swfFrom, Bool.and_eq_true, decide_eq_true_eq] at h; simp [sget]; omega

/-! ## A read after a write -/

theorem sget_sset_from {α : Type} [DecidableEq α] (d : α) (k j : Nat) (v : α) {lo : Nat} {m : List (Nat × α)} (h : swfFrom d lo m = true) :
    sget d j (sset d k v m) = if j = k then v else sget d j m := by
  induction m generalizing lo with
  | nil =>
    by_cases e : v = d
    · simp [sset, e, sget]
    · by_cases jk : j = k <;> simp [sset, e, sget, jk]
  | cons x r ih =>
    obtain ⟨i, w⟩ := x
    simp only [swfFrom, Bool.and_eq_true, decide_eq_true_eq] at h
    obtain ⟨⟨h1, h2⟩, h3⟩ := h
    unfold sset
    split
    · rename_i hk; split
      · rename_i e; split
        · rename_i jk; subst jk; simp [sget, hk, e]
        · rfl
      · simp only [sget]; split
        · rename_i jk; rw [if_neg (by omega), if_pos (by omega)]
        · split <;> rfl
    · split
      · rename_i hk; subst hk; split
        · rename_i e; split
          · rename_i jk; subst jk; rw [sget_below d h3 (by omega), e]
          · rename_i jk; simp only [sget]; split
            · exact sget_below d h3 (by omega)
            · simp
        · simp only [sget]; split
          · rename_i jk; rw [if_neg (by omega)]
          · split
            · rfl
            · simp [*]
      · simp only [sget]; rw [ih h3]; split
        · rename_i ji; rw [if_neg (by omega)]
        · split
          · rename_i ji; rw [if_neg (by omega)]
          · rfl

/-- A read gives what the last write put there, or else what was there before. -/
theorem sget_sset {α : Type} [DecidableEq α] (d : α) (k j : Nat) (v : α) {m : List (Nat × α)} (h : swf d m = true) :
    sget d j (sset d k v m) = if j = k then v else sget d j m := sget_sset_from d k j v h

/-- Two stores in canonical form that read alike are equal. -/
theorem swfFrom_ext {α : Type} [DecidableEq α] (d : α) {lo : Nat} {m n : List (Nat × α)} (hm : swfFrom d lo m = true) (hn : swfFrom d lo n = true)
    (h : ∀ k, sget d k m = sget d k n) : m = n := by
  induction m generalizing lo n with
  | nil =>
    cases n with
    | nil => rfl
    | cons y r =>
      obtain ⟨j, v⟩ := y
      simp only [swfFrom, Bool.and_eq_true, decide_eq_true_eq] at hn
      have := h j; simp [sget] at this; exact absurd this.symm hn.1.2
  | cons x q ih =>
    obtain ⟨i, w⟩ := x
    simp only [swfFrom, Bool.and_eq_true, decide_eq_true_eq] at hm
    cases n with
    | nil => have := h i; simp [sget] at this; exact absurd this hm.1.2
    | cons y r =>
      obtain ⟨j, v⟩ := y
      simp only [swfFrom, Bool.and_eq_true, decide_eq_true_eq] at hn
      have ij : i = j := by
        by_contra ne
        rcases Nat.lt_or_gt_of_ne ne with l | l
        · have := h i; simp [sget, l] at this; exact hm.1.2 this
        · have := h j; simp [sget, l] at this; exact hn.1.2 this.symm
      subst ij
      have wv : w = v := by have := h i; simpa [sget] using this
      subst wv
      congr 1
      refine ih hm.2 hn.2 (fun k => ?_)
      rcases Nat.lt_trichotomy k i with l | l | l
      · rw [sget_below d hm.2 (by omega), sget_below d hn.2 (by omega)]
      · rw [sget_below d hm.2 (by omega), sget_below d hn.2 (by omega)]
      · have := h k; simpa [sget, Nat.not_lt.mpr l.le, (Nat.ne_of_gt l)] using this

/-! ## Bytes -/

theorem Bytes.set_wf {m : Bytes} (h : m.wf = true) (a : Nat) (b : Byte) : (m.set a b).wf = true := sset_swf _ a b h
theorem Bytes.get_set {m : Bytes} (h : m.wf = true) (a x : Nat) (b : Byte) : (m.set a b).get x = if x = a then b else m.get x := sget_sset _ a x b h

theorem Bytes.splice_wf {m : Bytes} (h : m.wf = true) (a : Nat) (l : List Byte) : (m.splice a l).wf = true := by
  induction l generalizing m a with
  | nil => exact h
  | cons b r ih => exact ih (Bytes.set_wf h a b) (a + 1)

theorem Bytes.setNat_wf {m : Bytes} (h : m.wf = true) (a n v : Nat) : (m.setNat a n v).wf = true := by
  induction n generalizing m a v with
  | zero => exact h
  | succ n ih => exact ih (Bytes.set_wf h a _) (a + 1) _

/-- A run of bytes written is read back, and every other byte is left alone. -/
theorem Bytes.get_splice {m : Bytes} (h : m.wf = true) (a x : Nat) (l : List Byte) :
    (m.splice a l).get x = if a ≤ x ∧ x < a + l.length then l.getD (x - a) 0 else m.get x := by
  induction l generalizing m a with
  | nil => rw [if_neg (by simp)]; rfl
  | cons b r ih =>
    rw [Bytes.splice, ih (Bytes.set_wf h a b) (a + 1), Bytes.get_set h]
    simp only [List.length_cons]
    by_cases xa : x = a
    · subst xa; rw [if_neg (by omega), if_pos rfl, if_pos (by omega)]; simp
    · by_cases le : a + 1 ≤ x ∧ x < a + 1 + r.length
      · rw [if_pos le, if_pos (by omega)]
        obtain ⟨k, rfl⟩ : ∃ k, x = a + 1 + k := ⟨x - (a + 1), by omega⟩
        simp [show a + 1 + k - a = k + 1 by omega, show a + 1 + k - (a + 1) = k by omega]
      · rw [if_neg le, if_neg xa, if_neg (by omega)]

theorem Bytes.slice_length (m : Bytes) (a n : Nat) : (m.slice a n).length = n := by
  induction n generalizing a with
  | zero => rfl
  | succ n ih => simp [Bytes.slice, ih]

theorem Bytes.slice_getD (m : Bytes) (a n i : Nat) (h : i < n) : (m.slice a n).getD i 0 = m.get (a + i) := by
  induction n generalizing a i with
  | zero => omega
  | succ n ih =>
    cases i with
    | zero => simp [Bytes.slice]
    | succ i => rw [Bytes.slice, List.getD_cons_succ, ih (a + 1) i (by omega)]; congr 1; omega

/-- A load of the bytes just stored gives them. -/
theorem Bytes.slice_splice {m : Bytes} (h : m.wf = true) (a : Nat) (l : List Byte) : (m.splice a l).slice a l.length = l := by
  refine List.ext_getElem (Bytes.slice_length ..) (fun i h1 h2 => ?_)
  have e : ∀ (q : List Byte) (g : i < q.length), q[i] = q.getD i 0 := fun q g => by simp [g]
  rw [e _ h1, e _ h2, Bytes.slice_getD _ _ _ _ h2, Bytes.get_splice h, if_pos (by omega)]
  congr 1; omega

/-- A load of bytes outside those stored gives what it gave before. -/
theorem Bytes.slice_splice_apart {m : Bytes} (h : m.wf = true) (a x n : Nat) (l : List Byte) (ap : x + n ≤ a ∨ a + l.length ≤ x) :
    (m.splice a l).slice x n = m.slice x n := by
  refine List.ext_getElem (by simp [Bytes.slice_length]) (fun i h1 h2 => ?_)
  have e : ∀ (q : List Byte) (g : i < q.length), q[i] = q.getD i 0 := fun q g => by simp [g]
  rw [Bytes.slice_length] at h1
  rw [e _ (by rwa [Bytes.slice_length]), e _ (by rwa [Bytes.slice_length]), Bytes.slice_getD _ _ _ _ h1, Bytes.slice_getD _ _ _ _ h1,
    Bytes.get_splice h, if_neg (by omega)]

/-! ## Little-endian numbers -/

theorem leBytes_length (n v : Nat) : (leBytes n v).length = n := by
  induction n generalizing v with
  | zero => rfl
  | succ n ih => simp [leBytes, ih]

/-- The bytes of a number give the number back. -/
theorem leNat_leBytes (n v : Nat) : leNat (leBytes n v) = v % 256 ^ n := by
  induction n generalizing v with
  | zero => simp [leBytes, leNat, Nat.mod_one]
  | succ n ih =>
    rw [leBytes, leNat, ih, show (BitVec.ofNat 8 v).toNat = v % 256 from BitVec.toNat_ofNat v 8, show 256 ^ (n + 1) = 256 * 256 ^ n from pow_succ' .., Nat.mod_mul]

theorem getNat_eq (m : Bytes) (a n : Nat) : m.getNat a n = leNat (m.slice a n) := by
  induction n generalizing a with
  | zero => rfl
  | succ n ih => simp [Bytes.getNat, Bytes.slice, leNat, ih]

/-- A keyed table gives the record last written under a key. -/
theorem lookup_assign {α : Type} (k j : Nat) (v : α) (m : List (Nat × α)) : lookup j (assign k v m) = if j = k then some v else lookup j m := by
  induction m with
  | nil => by_cases h : j = k <;> simp [assign, lookup, h]
  | cons x r ih =>
    obtain ⟨i, w⟩ := x
    unfold assign
    split
    · rename_i h; subst h; by_cases jk : j = k <;> simp [lookup, jk]
    · simp only [lookup, ih]; split
      · rename_i h1 h2; rw [if_neg (by omega)]
      · rfl

end Sys2Proof.Machine
end

