-- ==== Sys2Proof/Laws/Keeps.lean ====
section
/-!
SUPPORT. Properties of the state that a computation keeps, how they pass through its parts, and memory's canonical form as one.
-/
namespace Sys2Proof.Machine

/-- The property holds of whatever state the computation leaves, completed or stopped, if it held before. -/
def Keeps {α : Type} (P : State → Prop) (m : W α) : Prop :=
  ∀ s, P s → match m s with
    | .ok _ t => P t
    | .error _ t => P t

namespace Keeps
variable {α β : Type} {P : State → Prop}

theorem pure (a : α) : Keeps P (Pure.pure a : W α) := fun _ h => h
theorem throw (e : Stop) : Keeps P (MonadExcept.throw e : W α) := fun _ h => h
theorem get : Keeps P (MonadState.get : W State) := fun _ h => h
theorem get' : Keeps P (MonadStateOf.get : W State) := fun _ h => h
theorem modified {g : State → State} (hg : ∀ s, P s → P (g s)) : Keeps P (modify g : W PUnit) := hg
theorem set {t : State} (ht : P t) : Keeps P (MonadStateOf.set t : W PUnit) := fun _ _ => ht

theorem bind {x : W α} {f : α → W β} (hx : Keeps P x) (hf : ∀ a, Keeps P (f a)) : Keeps P (x >>= f) := by
  intro s h
  have := hx s h
  show match EStateM.bind x f s with | .ok _ t => P t | .error _ t => P t
  unfold EStateM.bind
  cases e : x s with
  | ok a t => rw [e] at this; exact hf a t this
  | error e' t => rw [e] at this; exact this

/-- After a read of the state what follows may use that the property holds of it. -/
theorem get_bind {f : State → W β} (hf : ∀ s, P s → Keeps P (f s)) : Keeps P (MonadState.get >>= f) := fun s h => hf s h s h

theorem map {x : W α} (g : α → β) (hx : Keeps P x) : Keeps P (g <$> x) := by
  rw [← bind_pure_comp]; exact bind hx (fun a => pure (g a))

theorem ite {c : Prop} [Decidable c] {x y : W α} (hx : c → Keeps P x) (hy : ¬ c → Keeps P y) : Keeps P (if c then x else y) := by
  split
  · exact hx ‹_›
  · exact hy ‹_›

theorem option {x : W β} {f : α → W β} (o : Option α) (hx : Keeps P x) (hf : ∀ a, Keeps P (f a)) :
    Keeps P (match o with | some a => f a | none => x) := by
  cases o with
  | none => exact hx
  | some a => exact hf a

/-- A loop keeps what its body keeps. -/
theorem forIn {l : List α} {b : β} {f : α → β → W (ForInStep β)} (hf : ∀ a b, Keeps P (f a b)) : Keeps P (ForIn.forIn l b f) := by
  induction l generalizing b with
  | nil => exact pure b
  | cons x r ih =>
    rw [List.forIn_cons]
    exact bind (hf x b) (fun y => by cases y with
      | done c => exact pure c
      | yield c => exact ih)

theorem mapM {l : List α} {f : α → W β} (hf : ∀ a, Keeps P (f a)) : Keeps P (l.mapM f) := by
  induction l with
  | nil => rw [List.mapM_nil]; exact pure []
  | cons x r ih => rw [List.mapM_cons]; exact bind (hf x) (fun y => bind ih (fun z => pure _))

theorem getC : Keeps P Machine.getC := fun _ h => h
theorem getE : Keeps P Machine.getE := bind getC (fun _ => bind get (fun _ => pure _))
theorem illegal : Keeps P (Machine.illegal : W α) := bind (bind (bind getE (fun _ => pure _)) (fun _ => pure _)) (fun _ => throw _)
theorem illegalAs (b : Bool) : Keeps P (Machine.illegalAs b : W α) := by
  unfold Machine.illegalAs
  refine bind get (fun s => ?_)
  split
  · exact throw .stall
  · exact illegal
theorem waitFor (c : Bool) : Keeps P (Machine.waitFor c) := by
  unfold Machine.waitFor
  split
  · exact pure ()
  · exact throw .stall

/-- An event keeps what its body keeps. -/
theorem event {m : W Unit} (hm : Keeps P m) {s : State} (h : P s) : ∃ t, Machine.event m s = .next t ∧ P t := by
  have := hm s h
  unfold Machine.event
  cases e : m s with
  | ok a t => rw [e] at this; exact ⟨t, rfl, this⟩
  | error a t => exact ⟨s, rfl, h⟩

/-- A word keeps what its body keeps, when the ring part, a trap and the word's end keep it too. -/
theorem runWord {x : Bool} {m : W Flow} (hm : Keeps P m) (hc : ∀ c k t, P t → P (t.setCore c k))
    (hu : ∀ s t c e, P s → P (s.unwind t c e)) (ht : ∀ s c e cause d, P s → P (s.takeTrap c e cause d)) {s : State} (h : P s) :
    ∃ t, Machine.runWord x m s = .next t ∧ P t := by
  have put : ∀ k : Core, Keeps P (putC k) := fun k => fun s h => hc s.cur.core k s h
  have h1 : Keeps P (do checkMonitor (ringOf s.cur.word); ringIssue (ringOf s.cur.word) : W Unit) := by
    refine bind ?_ (fun _ => ?_)
    · unfold checkMonitor
      refine bind getC (fun k => ?_)
      split
      · exact illegal
      · exact pure ()
    · unfold ringIssue
      refine bind get (fun k => ?_)
      simp only []
      split
      · exact bind (waitFor _) (fun _ => put _)
      · exact pure ()
  have h2 : Keeps P (do checkPrefix x; finish (← m) : W Unit) := by
    refine bind ?_ (fun _ => bind hm (fun f => bind get (fun k => put _)))
    unfold checkPrefix
    refine bind getE (fun t => bind get (fun k => ?_))
    simp only []
    split
    · exact illegalAs _
    · exact pure ()
  have k1 := h1 s h
  unfold Machine.runWord
  generalize (do checkMonitor (ringOf s.cur.word); ringIssue (ringOf s.cur.word) : W Unit) s = r at k1 ⊢
  cases r with
  | error e t => cases e with
    | stall => exact ⟨t, rfl, k1⟩
    | trap c d => exact ⟨_, rfl, ht _ _ _ _ _ (hu _ _ _ _ h)⟩
  | ok a t =>
    have k2 := h2 t k1
    refine ⟨_, rfl, ?_⟩
    unfold settle
    generalize (do checkPrefix x; finish (← m) : W Unit) t = r at k2 ⊢
    cases r with
    | ok _ u => exact k2
    | error e u => cases e with
      | stall => exact k2
      | trap c d => exact ht _ _ _ _ _ (hu _ _ _ _ k1)

end Keeps

/-! ## Memory -/

theorem State.inv_of_mem {s t : State} (h : s.inv = true) (hm : t.mem = s.mem) (hh : t.hostMem = s.hostMem) : t.inv = true := by
  unfold State.inv at *; rw [hm, hh]; exact h

/-- Memory with bytes spliced in keeps the canonical form. -/
theorem Memory.wf_splice {m : Bytes} (h : Memory.wf m = true) (a : Nat) (l : List Byte) : Memory.wf (m.splice a l) = true := Bytes.splice_wf h a l

/-- A write of memory keeps the canonical form. -/
theorem keeps_wrPhys (pa key : Nat) (bs : List Byte) : Keeps (fun s => s.inv = true) (wrPhys pa key bs) := by
  unfold wrPhys
  refine Keeps.get_bind (fun s h => ?_)
  simp only []
  have both := h; unfold State.inv at both; rw [Bool.and_eq_true] at both
  split
  · refine Keeps.set ?_
    unfold State.inv; rw [Bool.and_eq_true]
    exact ⟨Memory.wf_splice both.1 _ _, both.2⟩
  · refine Keeps.bind ?_ (fun rest => Keeps.modified (fun t ht => ?_))
    · exact Keeps.bind (x := freshN 64) (fun t ht => ht) (fun _ => Keeps.pure _)
    · unfold State.inv at *; rw [Bool.and_eq_true] at *
      exact ⟨Memory.wf_splice ht.1 _ _, ht.2⟩

theorem keeps_wrMem (pa key : Nat) (bs : List Byte) : Keeps (fun s => s.inv = true) (wrMem pa key bs) := by
  unfold wrMem
  refine Keeps.bind Keeps.get (fun s => ?_)
  split
  · exact Keeps.pure _
  · exact Keeps.bind (keeps_wrPhys _ _ _) (fun _ => Keeps.pure _)

/-- The bytes that the host reads keep the canonical form. -/
theorem hostMem_splice {s : State} (h : s.inv = true) (a : Nat) (l : List Byte) : ({ s with hostMem := s.hostMem.splice a l } : State).inv = true := by
  unfold State.inv at *; rw [Bool.and_eq_true] at *
  exact ⟨h.1, Memory.wf_splice h.2 a l⟩

/-- Reset memory lists nothing. -/
theorem reset_inv : State.reset.inv = true := rfl

end Sys2Proof.Machine
end

