-- ==== Sys2Proof/Laws/Answers.lean ====
section
/-!
SUPPORT. Words, events and rules always answer a next state; what a trap leaves alone.
-/
namespace Sys2Proof.Machine

theorem event_answers (m : W Unit) (s : State) : ∃ t, event m s = .next t := by
  unfold event; split <;> exact ⟨_, rfl⟩
theorem runWord_answers (x : Bool) (m : W Flow) (s : State) : ∃ t, runWord x m s = .next t := by
  unfold runWord; split <;> exact ⟨_, rfl⟩
theorem plain_answers (m : W Unit) (s : State) : ∃ t, plain m s = .next t := runWord_answers ..
theorem withImm_answers (m : W Unit) (s : State) : ∃ t, withImm m s = .next t := runWord_answers ..
theorem governed_answers (m : W Unit) (s : State) : ∃ t, governed m s = .next t := by
  unfold governed; split
  · exact withImm_answers ..
  · exact plain_answers ..
theorem rule_answers (act : Nat → Walk → W Unit) (s : State) : ∃ t, rule act s = .next t := event_answers ..

/-! ## What a trap leaves alone (R100, R120) -/

theorem setCore_mem (s : State) (c : Nat) (k : Core) : (s.setCore c k).mem = s.mem := by unfold State.setCore; split <;> rfl
theorem setCore_hostMem (s : State) (c : Nat) (k : Core) : (s.setCore c k).hostMem = s.hostMem := by unfold State.setCore; split <;> rfl
theorem unwind_mem (s t : State) (c : Nat) (e : Engine) : (s.unwind t c e).mem = s.mem := rfl

theorem stopGang_keeps (s : State) (c : Nat) : (s.stopGang c).mem = s.mem ∧ (s.stopGang c).hostMem = s.hostMem ∧ (s.stopGang c).cores = s.cores := by
  unfold State.stopGang; split
  · exact ⟨rfl, rfl, rfl⟩
  · split <;> exact ⟨rfl, rfl, rfl⟩
theorem monitorEntry_keeps (s : State) (c : Nat) (e : Engine) (cause : BitVec 8) (pc : BitVec 17) (d : BitVec 64) :
    (s.monitorEntry c e cause pc d).mem = s.mem ∧ (s.monitorEntry c e cause pc d).hostMem = s.hostMem := by
  unfold State.monitorEntry; simp only []; split
  · exact ⟨setCore_mem .., setCore_hostMem ..⟩
  · split <;> exact ⟨setCore_mem .., setCore_hostMem ..⟩
theorem trapStop_keeps (s : State) (c : Nat) (e : Engine) (src cause : BitVec 8) (pc : BitVec 17) (d : BitVec 64) :
    (s.trapStop c e src cause pc d).mem = s.mem ∧ (s.trapStop c e src cause pc d).hostMem = s.hostMem := by
  unfold State.trapStop; simp only []
  exact ⟨(stopGang_keeps ..).1.trans (setCore_mem ..), (stopGang_keeps ..).2.1.trans (setCore_hostMem ..)⟩

/-- A trap changes no memory. -/
theorem takeTrap_keeps (s : State) (c : Nat) (e : Engine) (cause : BitVec 8) (d : BitVec 64) :
    (s.takeTrap c e cause d).mem = s.mem ∧ (s.takeTrap c e cause d).hostMem = s.hostMem := by
  unfold State.takeTrap; simp only []
  split
  · exact ⟨(monitorEntry_keeps ..).1.trans (setCore_mem ..), (monitorEntry_keeps ..).2.trans (setCore_hostMem ..)⟩
  · exact trapStop_keeps ..

/-- A word keeps memory's canonical form when its body does. -/
theorem runWord_inv {x : Bool} {m : W Flow} (hm : Keeps (fun s => s.inv = true) m) {s : State} (h : s.inv = true) :
    ∃ t, runWord x m s = .next t ∧ t.inv = true :=
  Keeps.runWord hm (fun c k _ ht => State.inv_of_mem ht (setCore_mem _ c k) (setCore_hostMem _ c k)) (fun _ _ _ _ hs => hs)
    (fun s c e cause d hs => State.inv_of_mem hs (takeTrap_keeps s c e cause d).1 (takeTrap_keeps s c e cause d).2) h

end Sys2Proof.Machine
end

