-- ==== Sys2Proof/Laws/State.lean ====
section
/-!
SUPPORT. What each update of the state and of a core leaves alone: one lemma per field and update.
-/
namespace Sys2Proof.Machine

/-! ## Replacing a core -/

theorem State.core_setCore (s : State) (c : Nat) (k : Core) (h : c < 96) : (s.setCore c k).core c = k := by
  simp [State.setCore, State.core, h]
theorem State.core_setCore_ne (s : State) (c d : Nat) (k : Core) (h : d ≠ c) : (s.setCore c k).core d = s.core d := by
  unfold State.setCore State.core
  split
  · split
    · simp [Vector.getElem_set, Ne.symm h]
    · rfl
  · rfl
@[simp] theorem State.setCore_core (s : State) (c : Nat) (h : c < 96) : s.setCore c (s.core c) = s := by
  simp [State.setCore, State.core, h]
@[simp] theorem State.setCore_setCore (s : State) (c : Nat) (k l : Core) : (s.setCore c k).setCore c l = s.setCore c l := by
  unfold State.setCore
  split <;> simp

@[simp] theorem State.setCore_cur (s : State) (c : Nat) (k : Core) : (s.setCore c k).cur = s.cur := by unfold State.setCore; split <;> rfl
@[simp] theorem State.setCore_agenda (s : State) (c : Nat) (k : Core) : (s.setCore c k).agenda = s.agenda := by unfold State.setCore; split <;> rfl
@[simp] theorem State.setCore_ticks (s : State) (c : Nat) (k : Core) : (s.setCore c k).ticks = s.ticks := by unfold State.setCore; split <;> rfl
@[simp] theorem State.setCore_freeCtr (s : State) (c : Nat) (k : Core) : (s.setCore c k).freeCtr = s.freeCtr := by unfold State.setCore; split <;> rfl
@[simp] theorem State.setCore_mem (s : State) (c : Nat) (k : Core) : (s.setCore c k).mem = s.mem := by unfold State.setCore; split <;> rfl
@[simp] theorem State.setCore_uncorr (s : State) (c : Nat) (k : Core) : (s.setCore c k).uncorr = s.uncorr := by unfold State.setCore; split <;> rfl
@[simp] theorem State.setCore_keyTags (s : State) (c : Nat) (k : Core) : (s.setCore c k).keyTags = s.keyTags := by unfold State.setCore; split <;> rfl
@[simp] theorem State.setCore_keys (s : State) (c : Nat) (k : Core) : (s.setCore c k).keys = s.keys := by unfold State.setCore; split <;> rfl
@[simp] theorem State.setCore_ctxs (s : State) (c : Nat) (k : Core) : (s.setCore c k).ctxs = s.ctxs := by unfold State.setCore; split <;> rfl
@[simp] theorem State.setCore_tlb (s : State) (c : Nat) (k : Core) : (s.setCore c k).tlb = s.tlb := by unfold State.setCore; split <;> rfl
@[simp] theorem State.setCore_walkReqs (s : State) (c : Nat) (k : Core) : (s.setCore c k).walkReqs = s.walkReqs := by unfold State.setCore; split <;> rfl
@[simp] theorem State.setCore_walkFails (s : State) (c : Nat) (k : Core) : (s.setCore c k).walkFails = s.walkFails := by unfold State.setCore; split <;> rfl
@[simp] theorem State.setCore_fps (s : State) (c : Nat) (k : Core) : (s.setCore c k).fps = s.fps := by unfold State.setCore; split <;> rfl
@[simp] theorem State.setCore_fpNext (s : State) (c : Nat) (k : Core) : (s.setCore c k).fpNext = s.fpNext := by unfold State.setCore; split <;> rfl
@[simp] theorem State.setCore_fpWait (s : State) (c : Nat) (k : Core) : (s.setCore c k).fpWait = s.fpWait := by unfold State.setCore; split <;> rfl
@[simp] theorem State.setCore_dcache (s : State) (c : Nat) (k : Core) : (s.setCore c k).dcache = s.dcache := by unfold State.setCore; split <;> rfl
@[simp] theorem State.setCore_flights (s : State) (c : Nat) (k : Core) : (s.setCore c k).flights = s.flights := by unfold State.setCore; split <;> rfl
@[simp] theorem State.setCore_repNext (s : State) (c : Nat) (k : Core) : (s.setCore c k).repNext = s.repNext := by unfold State.setCore; split <;> rfl
@[simp] theorem State.setCore_repPend (s : State) (c : Nat) (k : Core) : (s.setCore c k).repPend = s.repPend := by unfold State.setCore; split <;> rfl
@[simp] theorem State.setCore_repLast (s : State) (c : Nat) (k : Core) : (s.setCore c k).repLast = s.repLast := by unfold State.setCore; split <;> rfl
@[simp] theorem State.setCore_repDone (s : State) (c : Nat) (k : Core) : (s.setCore c k).repDone = s.repDone := by unfold State.setCore; split <;> rfl
@[simp] theorem State.setCore_repBad (s : State) (c : Nat) (k : Core) : (s.setCore c k).repBad = s.repBad := by unfold State.setCore; split <;> rfl
@[simp] theorem State.setCore_launchQ (s : State) (c : Nat) (k : Core) : (s.setCore c k).launchQ = s.launchQ := by unfold State.setCore; split <;> rfl
@[simp] theorem State.setCore_gangs (s : State) (c : Nat) (k : Core) : (s.setCore c k).gangs = s.gangs := by unfold State.setCore; split <;> rfl
@[simp] theorem State.setCore_gangNext (s : State) (c : Nat) (k : Core) : (s.setCore c k).gangNext = s.gangNext := by unfold State.setCore; split <;> rfl
@[simp] theorem State.setCore_hub (s : State) (c : Nat) (k : Core) : (s.setCore c k).hub = s.hub := by unfold State.setCore; split <;> rfl
@[simp] theorem State.setCore_hubNext (s : State) (c : Nat) (k : Core) : (s.setCore c k).hubNext = s.hubNext := by unfold State.setCore; split <;> rfl
@[simp] theorem State.setCore_vtq (s : State) (c : Nat) (k : Core) : (s.setCore c k).vtq = s.vtq := by unfold State.setCore; split <;> rfl
@[simp] theorem State.setCore_vtl (s : State) (c : Nat) (k : Core) : (s.setCore c k).vtl = s.vtl := by unfold State.setCore; split <;> rfl
@[simp] theorem State.setCore_subNext (s : State) (c : Nat) (k : Core) : (s.setCore c k).subNext = s.subNext := by unfold State.setCore; split <;> rfl
@[simp] theorem State.setCore_queueNext (s : State) (c : Nat) (k : Core) : (s.setCore c k).queueNext = s.queueNext := by unfold State.setCore; split <;> rfl
@[simp] theorem State.setCore_shares (s : State) (c : Nat) (k : Core) : (s.setCore c k).shares = s.shares := by unfold State.setCore; split <;> rfl
@[simp] theorem State.setCore_graphs (s : State) (c : Nat) (k : Core) : (s.setCore c k).graphs = s.graphs := by unfold State.setCore; split <;> rfl
@[simp] theorem State.setCore_graphWait (s : State) (c : Nat) (k : Core) : (s.setCore c k).graphWait = s.graphWait := by unfold State.setCore; split <;> rfl
@[simp] theorem State.setCore_buckets (s : State) (c : Nat) (k : Core) : (s.setCore c k).buckets = s.buckets := by unfold State.setCore; split <;> rfl
@[simp] theorem State.setCore_bucketNext (s : State) (c : Nat) (k : Core) : (s.setCore c k).bucketNext = s.bucketNext := by unfold State.setCore; split <;> rfl
@[simp] theorem State.setCore_accIn (s : State) (c : Nat) (k : Core) : (s.setCore c k).accIn = s.accIn := by unfold State.setCore; split <;> rfl
@[simp] theorem State.setCore_skReqs (s : State) (c : Nat) (k : Core) : (s.setCore c k).skReqs = s.skReqs := by unfold State.setCore; split <;> rfl
@[simp] theorem State.setCore_launches (s : State) (c : Nat) (k : Core) : (s.setCore c k).launches = s.launches := by unfold State.setCore; split <;> rfl
@[simp] theorem State.setCore_launchNext (s : State) (c : Nat) (k : Core) : (s.setCore c k).launchNext = s.launchNext := by unfold State.setCore; split <;> rfl
@[simp] theorem State.setCore_ces (s : State) (c : Nat) (k : Core) : (s.setCore c k).ces = s.ces := by unfold State.setCore; split <;> rfl
@[simp] theorem State.setCore_barriers (s : State) (c : Nat) (k : Core) : (s.setCore c k).barriers = s.barriers := by unfold State.setCore; split <;> rfl
@[simp] theorem State.setCore_barrierNext (s : State) (c : Nat) (k : Core) : (s.setCore c k).barrierNext = s.barrierNext := by unfold State.setCore; split <;> rfl
@[simp] theorem State.setCore_pins (s : State) (c : Nat) (k : Core) : (s.setCore c k).pins = s.pins := by unfold State.setCore; split <;> rfl
@[simp] theorem State.setCore_walks (s : State) (c : Nat) (k : Core) : (s.setCore c k).walks = s.walks := by unfold State.setCore; split <;> rfl
@[simp] theorem State.setCore_walkNext (s : State) (c : Nat) (k : Core) : (s.setCore c k).walkNext = s.walkNext := by unfold State.setCore; split <;> rfl
@[simp] theorem State.setCore_groups (s : State) (c : Nat) (k : Core) : (s.setCore c k).groups = s.groups := by unfold State.setCore; split <;> rfl
@[simp] theorem State.setCore_ports (s : State) (c : Nat) (k : Core) : (s.setCore c k).ports = s.ports := by unfold State.setCore; split <;> rfl
@[simp] theorem State.setCore_routes (s : State) (c : Nat) (k : Core) : (s.setCore c k).routes = s.routes := by unfold State.setCore; split <;> rfl
@[simp] theorem State.setCore_rgen (s : State) (c : Nat) (k : Core) : (s.setCore c k).rgen = s.rgen := by unfold State.setCore; split <;> rfl
@[simp] theorem State.setCore_flitWait (s : State) (c : Nat) (k : Core) : (s.setCore c k).flitWait = s.flitWait := by unfold State.setCore; split <;> rfl
@[simp] theorem State.setCore_xfers (s : State) (c : Nat) (k : Core) : (s.setCore c k).xfers = s.xfers := by unfold State.setCore; split <;> rfl
@[simp] theorem State.setCore_xidNext (s : State) (c : Nat) (k : Core) : (s.setCore c k).xidNext = s.xidNext := by unfold State.setCore; split <;> rfl
@[simp] theorem State.setCore_remoteIn (s : State) (c : Nat) (k : Core) : (s.setCore c k).remoteIn = s.remoteIn := by unfold State.setCore; split <;> rfl
@[simp] theorem State.setCore_pkgid (s : State) (c : Nat) (k : Core) : (s.setCore c k).pkgid = s.pkgid := by unfold State.setCore; split <;> rfl
@[simp] theorem State.setCore_setId (s : State) (c : Nat) (k : Core) : (s.setCore c k).setId = s.setId := by unfold State.setCore; split <;> rfl
@[simp] theorem State.setCore_dstate (s : State) (c : Nat) (k : Core) : (s.setCore c k).dstate = s.dstate := by unfold State.setCore; split <;> rfl
@[simp] theorem State.setCore_mbox (s : State) (c : Nat) (k : Core) : (s.setCore c k).mbox = s.mbox := by unfold State.setCore; split <;> rfl
@[simp] theorem State.setCore_score (s : State) (c : Nat) (k : Core) : (s.setCore c k).score = s.score := by unfold State.setCore; split <;> rfl
@[simp] theorem State.setCore_scoreSeq (s : State) (c : Nat) (k : Core) : (s.setCore c k).scoreSeq = s.scoreSeq := by unfold State.setCore; split <;> rfl
@[simp] theorem State.setCore_cfg (s : State) (c : Nat) (k : Core) : (s.setCore c k).cfg = s.cfg := by unfold State.setCore; split <;> rfl
@[simp] theorem State.setCore_cfgNext (s : State) (c : Nat) (k : Core) : (s.setCore c k).cfgNext = s.cfgNext := by unfold State.setCore; split <;> rfl
@[simp] theorem State.setCore_cfgCold (s : State) (c : Nat) (k : Core) : (s.setCore c k).cfgCold = s.cfgCold := by unfold State.setCore; split <;> rfl
@[simp] theorem State.setCore_spdm (s : State) (c : Nat) (k : Core) : (s.setCore c k).spdm = s.spdm := by unfold State.setCore; split <;> rfl
@[simp] theorem State.setCore_banks (s : State) (c : Nat) (k : Core) : (s.setCore c k).banks = s.banks := by unfold State.setCore; split <;> rfl
@[simp] theorem State.setCore_bank (s : State) (c : Nat) (k : Core) : (s.setCore c k).bank = s.bank := by unfold State.setCore; split <;> rfl
@[simp] theorem State.setCore_bankNew (s : State) (c : Nat) (k : Core) : (s.setCore c k).bankNew = s.bankNew := by unfold State.setCore; split <;> rfl
@[simp] theorem State.setCore_arbRec (s : State) (c : Nat) (k : Core) : (s.setCore c k).arbRec = s.arbRec := by unfold State.setCore; split <;> rfl
@[simp] theorem State.setCore_arbFw (s : State) (c : Nat) (k : Core) : (s.setCore c k).arbFw = s.arbFw := by unfold State.setCore; split <;> rfl
@[simp] theorem State.setCore_throttles (s : State) (c : Nat) (k : Core) : (s.setCore c k).throttles = s.throttles := by unfold State.setCore; split <;> rfl
@[simp] theorem State.setCore_cxl (s : State) (c : Nat) (k : Core) : (s.setCore c k).cxl = s.cxl := by unfold State.setCore; split <;> rfl
@[simp] theorem State.setCore_hostMem (s : State) (c : Nat) (k : Core) : (s.setCore c k).hostMem = s.hostMem := by unfold State.setCore; split <;> rfl

@[simp] theorem State.onCore_cur (s : State) (c : Nat) (g : Core → Core) : (s.onCore c g).cur = s.cur := State.setCore_cur s c _
@[simp] theorem State.onCore_agenda (s : State) (c : Nat) (g : Core → Core) : (s.onCore c g).agenda = s.agenda := State.setCore_agenda s c _
@[simp] theorem State.onCore_ticks (s : State) (c : Nat) (g : Core → Core) : (s.onCore c g).ticks = s.ticks := State.setCore_ticks s c _
@[simp] theorem State.onCore_freeCtr (s : State) (c : Nat) (g : Core → Core) : (s.onCore c g).freeCtr = s.freeCtr := State.setCore_freeCtr s c _
@[simp] theorem State.onCore_mem (s : State) (c : Nat) (g : Core → Core) : (s.onCore c g).mem = s.mem := State.setCore_mem s c _
@[simp] theorem State.onCore_uncorr (s : State) (c : Nat) (g : Core → Core) : (s.onCore c g).uncorr = s.uncorr := State.setCore_uncorr s c _
@[simp] theorem State.onCore_keyTags (s : State) (c : Nat) (g : Core → Core) : (s.onCore c g).keyTags = s.keyTags := State.setCore_keyTags s c _
@[simp] theorem State.onCore_keys (s : State) (c : Nat) (g : Core → Core) : (s.onCore c g).keys = s.keys := State.setCore_keys s c _
@[simp] theorem State.onCore_ctxs (s : State) (c : Nat) (g : Core → Core) : (s.onCore c g).ctxs = s.ctxs := State.setCore_ctxs s c _
@[simp] theorem State.onCore_tlb (s : State) (c : Nat) (g : Core → Core) : (s.onCore c g).tlb = s.tlb := State.setCore_tlb s c _
@[simp] theorem State.onCore_walkReqs (s : State) (c : Nat) (g : Core → Core) : (s.onCore c g).walkReqs = s.walkReqs := State.setCore_walkReqs s c _
@[simp] theorem State.onCore_walkFails (s : State) (c : Nat) (g : Core → Core) : (s.onCore c g).walkFails = s.walkFails := State.setCore_walkFails s c _
@[simp] theorem State.onCore_fps (s : State) (c : Nat) (g : Core → Core) : (s.onCore c g).fps = s.fps := State.setCore_fps s c _
@[simp] theorem State.onCore_fpNext (s : State) (c : Nat) (g : Core → Core) : (s.onCore c g).fpNext = s.fpNext := State.setCore_fpNext s c _
@[simp] theorem State.onCore_fpWait (s : State) (c : Nat) (g : Core → Core) : (s.onCore c g).fpWait = s.fpWait := State.setCore_fpWait s c _
@[simp] theorem State.onCore_dcache (s : State) (c : Nat) (g : Core → Core) : (s.onCore c g).dcache = s.dcache := State.setCore_dcache s c _
@[simp] theorem State.onCore_flights (s : State) (c : Nat) (g : Core → Core) : (s.onCore c g).flights = s.flights := State.setCore_flights s c _
@[simp] theorem State.onCore_repNext (s : State) (c : Nat) (g : Core → Core) : (s.onCore c g).repNext = s.repNext := State.setCore_repNext s c _
@[simp] theorem State.onCore_repPend (s : State) (c : Nat) (g : Core → Core) : (s.onCore c g).repPend = s.repPend := State.setCore_repPend s c _
@[simp] theorem State.onCore_repLast (s : State) (c : Nat) (g : Core → Core) : (s.onCore c g).repLast = s.repLast := State.setCore_repLast s c _
@[simp] theorem State.onCore_repDone (s : State) (c : Nat) (g : Core → Core) : (s.onCore c g).repDone = s.repDone := State.setCore_repDone s c _
@[simp] theorem State.onCore_repBad (s : State) (c : Nat) (g : Core → Core) : (s.onCore c g).repBad = s.repBad := State.setCore_repBad s c _
@[simp] theorem State.onCore_launchQ (s : State) (c : Nat) (g : Core → Core) : (s.onCore c g).launchQ = s.launchQ := State.setCore_launchQ s c _
@[simp] theorem State.onCore_gangs (s : State) (c : Nat) (g : Core → Core) : (s.onCore c g).gangs = s.gangs := State.setCore_gangs s c _
@[simp] theorem State.onCore_gangNext (s : State) (c : Nat) (g : Core → Core) : (s.onCore c g).gangNext = s.gangNext := State.setCore_gangNext s c _
@[simp] theorem State.onCore_hub (s : State) (c : Nat) (g : Core → Core) : (s.onCore c g).hub = s.hub := State.setCore_hub s c _
@[simp] theorem State.onCore_hubNext (s : State) (c : Nat) (g : Core → Core) : (s.onCore c g).hubNext = s.hubNext := State.setCore_hubNext s c _
@[simp] theorem State.onCore_vtq (s : State) (c : Nat) (g : Core → Core) : (s.onCore c g).vtq = s.vtq := State.setCore_vtq s c _
@[simp] theorem State.onCore_vtl (s : State) (c : Nat) (g : Core → Core) : (s.onCore c g).vtl = s.vtl := State.setCore_vtl s c _
@[simp] theorem State.onCore_subNext (s : State) (c : Nat) (g : Core → Core) : (s.onCore c g).subNext = s.subNext := State.setCore_subNext s c _
@[simp] theorem State.onCore_queueNext (s : State) (c : Nat) (g : Core → Core) : (s.onCore c g).queueNext = s.queueNext := State.setCore_queueNext s c _
@[simp] theorem State.onCore_shares (s : State) (c : Nat) (g : Core → Core) : (s.onCore c g).shares = s.shares := State.setCore_shares s c _
@[simp] theorem State.onCore_graphs (s : State) (c : Nat) (g : Core → Core) : (s.onCore c g).graphs = s.graphs := State.setCore_graphs s c _
@[simp] theorem State.onCore_graphWait (s : State) (c : Nat) (g : Core → Core) : (s.onCore c g).graphWait = s.graphWait := State.setCore_graphWait s c _
@[simp] theorem State.onCore_buckets (s : State) (c : Nat) (g : Core → Core) : (s.onCore c g).buckets = s.buckets := State.setCore_buckets s c _
@[simp] theorem State.onCore_bucketNext (s : State) (c : Nat) (g : Core → Core) : (s.onCore c g).bucketNext = s.bucketNext := State.setCore_bucketNext s c _
@[simp] theorem State.onCore_accIn (s : State) (c : Nat) (g : Core → Core) : (s.onCore c g).accIn = s.accIn := State.setCore_accIn s c _
@[simp] theorem State.onCore_skReqs (s : State) (c : Nat) (g : Core → Core) : (s.onCore c g).skReqs = s.skReqs := State.setCore_skReqs s c _
@[simp] theorem State.onCore_launches (s : State) (c : Nat) (g : Core → Core) : (s.onCore c g).launches = s.launches := State.setCore_launches s c _
@[simp] theorem State.onCore_launchNext (s : State) (c : Nat) (g : Core → Core) : (s.onCore c g).launchNext = s.launchNext := State.setCore_launchNext s c _
@[simp] theorem State.onCore_ces (s : State) (c : Nat) (g : Core → Core) : (s.onCore c g).ces = s.ces := State.setCore_ces s c _
@[simp] theorem State.onCore_barriers (s : State) (c : Nat) (g : Core → Core) : (s.onCore c g).barriers = s.barriers := State.setCore_barriers s c _
@[simp] theorem State.onCore_barrierNext (s : State) (c : Nat) (g : Core → Core) : (s.onCore c g).barrierNext = s.barrierNext := State.setCore_barrierNext s c _
@[simp] theorem State.onCore_pins (s : State) (c : Nat) (g : Core → Core) : (s.onCore c g).pins = s.pins := State.setCore_pins s c _
@[simp] theorem State.onCore_walks (s : State) (c : Nat) (g : Core → Core) : (s.onCore c g).walks = s.walks := State.setCore_walks s c _
@[simp] theorem State.onCore_walkNext (s : State) (c : Nat) (g : Core → Core) : (s.onCore c g).walkNext = s.walkNext := State.setCore_walkNext s c _
@[simp] theorem State.onCore_groups (s : State) (c : Nat) (g : Core → Core) : (s.onCore c g).groups = s.groups := State.setCore_groups s c _
@[simp] theorem State.onCore_ports (s : State) (c : Nat) (g : Core → Core) : (s.onCore c g).ports = s.ports := State.setCore_ports s c _
@[simp] theorem State.onCore_routes (s : State) (c : Nat) (g : Core → Core) : (s.onCore c g).routes = s.routes := State.setCore_routes s c _
@[simp] theorem State.onCore_rgen (s : State) (c : Nat) (g : Core → Core) : (s.onCore c g).rgen = s.rgen := State.setCore_rgen s c _
@[simp] theorem State.onCore_flitWait (s : State) (c : Nat) (g : Core → Core) : (s.onCore c g).flitWait = s.flitWait := State.setCore_flitWait s c _
@[simp] theorem State.onCore_xfers (s : State) (c : Nat) (g : Core → Core) : (s.onCore c g).xfers = s.xfers := State.setCore_xfers s c _
@[simp] theorem State.onCore_xidNext (s : State) (c : Nat) (g : Core → Core) : (s.onCore c g).xidNext = s.xidNext := State.setCore_xidNext s c _
@[simp] theorem State.onCore_remoteIn (s : State) (c : Nat) (g : Core → Core) : (s.onCore c g).remoteIn = s.remoteIn := State.setCore_remoteIn s c _
@[simp] theorem State.onCore_pkgid (s : State) (c : Nat) (g : Core → Core) : (s.onCore c g).pkgid = s.pkgid := State.setCore_pkgid s c _
@[simp] theorem State.onCore_setId (s : State) (c : Nat) (g : Core → Core) : (s.onCore c g).setId = s.setId := State.setCore_setId s c _
@[simp] theorem State.onCore_dstate (s : State) (c : Nat) (g : Core → Core) : (s.onCore c g).dstate = s.dstate := State.setCore_dstate s c _
@[simp] theorem State.onCore_mbox (s : State) (c : Nat) (g : Core → Core) : (s.onCore c g).mbox = s.mbox := State.setCore_mbox s c _
@[simp] theorem State.onCore_score (s : State) (c : Nat) (g : Core → Core) : (s.onCore c g).score = s.score := State.setCore_score s c _
@[simp] theorem State.onCore_scoreSeq (s : State) (c : Nat) (g : Core → Core) : (s.onCore c g).scoreSeq = s.scoreSeq := State.setCore_scoreSeq s c _
@[simp] theorem State.onCore_cfg (s : State) (c : Nat) (g : Core → Core) : (s.onCore c g).cfg = s.cfg := State.setCore_cfg s c _
@[simp] theorem State.onCore_cfgNext (s : State) (c : Nat) (g : Core → Core) : (s.onCore c g).cfgNext = s.cfgNext := State.setCore_cfgNext s c _
@[simp] theorem State.onCore_cfgCold (s : State) (c : Nat) (g : Core → Core) : (s.onCore c g).cfgCold = s.cfgCold := State.setCore_cfgCold s c _
@[simp] theorem State.onCore_spdm (s : State) (c : Nat) (g : Core → Core) : (s.onCore c g).spdm = s.spdm := State.setCore_spdm s c _
@[simp] theorem State.onCore_banks (s : State) (c : Nat) (g : Core → Core) : (s.onCore c g).banks = s.banks := State.setCore_banks s c _
@[simp] theorem State.onCore_bank (s : State) (c : Nat) (g : Core → Core) : (s.onCore c g).bank = s.bank := State.setCore_bank s c _
@[simp] theorem State.onCore_bankNew (s : State) (c : Nat) (g : Core → Core) : (s.onCore c g).bankNew = s.bankNew := State.setCore_bankNew s c _
@[simp] theorem State.onCore_arbRec (s : State) (c : Nat) (g : Core → Core) : (s.onCore c g).arbRec = s.arbRec := State.setCore_arbRec s c _
@[simp] theorem State.onCore_arbFw (s : State) (c : Nat) (g : Core → Core) : (s.onCore c g).arbFw = s.arbFw := State.setCore_arbFw s c _
@[simp] theorem State.onCore_throttles (s : State) (c : Nat) (g : Core → Core) : (s.onCore c g).throttles = s.throttles := State.setCore_throttles s c _
@[simp] theorem State.onCore_cxl (s : State) (c : Nat) (g : Core → Core) : (s.onCore c g).cxl = s.cxl := State.setCore_cxl s c _
@[simp] theorem State.onCore_hostMem (s : State) (c : Nat) (g : Core → Core) : (s.onCore c g).hostMem = s.hostMem := State.setCore_hostMem s c _

/-! ## The counter of free values -/

@[simp] theorem State.bumpFree_cur (s : State) : s.bumpFree.cur = s.cur := rfl
@[simp] theorem State.bumpFree_agenda (s : State) : s.bumpFree.agenda = s.agenda := rfl
@[simp] theorem State.bumpFree_ticks (s : State) : s.bumpFree.ticks = s.ticks := rfl
@[simp] theorem State.bumpFree_mem (s : State) : s.bumpFree.mem = s.mem := rfl
@[simp] theorem State.bumpFree_uncorr (s : State) : s.bumpFree.uncorr = s.uncorr := rfl
@[simp] theorem State.bumpFree_keyTags (s : State) : s.bumpFree.keyTags = s.keyTags := rfl
@[simp] theorem State.bumpFree_keys (s : State) : s.bumpFree.keys = s.keys := rfl
@[simp] theorem State.bumpFree_ctxs (s : State) : s.bumpFree.ctxs = s.ctxs := rfl
@[simp] theorem State.bumpFree_tlb (s : State) : s.bumpFree.tlb = s.tlb := rfl
@[simp] theorem State.bumpFree_walkReqs (s : State) : s.bumpFree.walkReqs = s.walkReqs := rfl
@[simp] theorem State.bumpFree_walkFails (s : State) : s.bumpFree.walkFails = s.walkFails := rfl
@[simp] theorem State.bumpFree_fps (s : State) : s.bumpFree.fps = s.fps := rfl
@[simp] theorem State.bumpFree_fpNext (s : State) : s.bumpFree.fpNext = s.fpNext := rfl
@[simp] theorem State.bumpFree_fpWait (s : State) : s.bumpFree.fpWait = s.fpWait := rfl
@[simp] theorem State.bumpFree_dcache (s : State) : s.bumpFree.dcache = s.dcache := rfl
@[simp] theorem State.bumpFree_flights (s : State) : s.bumpFree.flights = s.flights := rfl
@[simp] theorem State.bumpFree_repNext (s : State) : s.bumpFree.repNext = s.repNext := rfl
@[simp] theorem State.bumpFree_repPend (s : State) : s.bumpFree.repPend = s.repPend := rfl
@[simp] theorem State.bumpFree_repLast (s : State) : s.bumpFree.repLast = s.repLast := rfl
@[simp] theorem State.bumpFree_repDone (s : State) : s.bumpFree.repDone = s.repDone := rfl
@[simp] theorem State.bumpFree_repBad (s : State) : s.bumpFree.repBad = s.repBad := rfl
@[simp] theorem State.bumpFree_launchQ (s : State) : s.bumpFree.launchQ = s.launchQ := rfl
@[simp] theorem State.bumpFree_cores (s : State) : s.bumpFree.cores = s.cores := rfl
@[simp] theorem State.bumpFree_gangs (s : State) : s.bumpFree.gangs = s.gangs := rfl
@[simp] theorem State.bumpFree_gangNext (s : State) : s.bumpFree.gangNext = s.gangNext := rfl
@[simp] theorem State.bumpFree_hub (s : State) : s.bumpFree.hub = s.hub := rfl
@[simp] theorem State.bumpFree_hubNext (s : State) : s.bumpFree.hubNext = s.hubNext := rfl
@[simp] theorem State.bumpFree_vtq (s : State) : s.bumpFree.vtq = s.vtq := rfl
@[simp] theorem State.bumpFree_vtl (s : State) : s.bumpFree.vtl = s.vtl := rfl
@[simp] theorem State.bumpFree_subNext (s : State) : s.bumpFree.subNext = s.subNext := rfl
@[simp] theorem State.bumpFree_queueNext (s : State) : s.bumpFree.queueNext = s.queueNext := rfl
@[simp] theorem State.bumpFree_shares (s : State) : s.bumpFree.shares = s.shares := rfl
@[simp] theorem State.bumpFree_graphs (s : State) : s.bumpFree.graphs = s.graphs := rfl
@[simp] theorem State.bumpFree_graphWait (s : State) : s.bumpFree.graphWait = s.graphWait := rfl
@[simp] theorem State.bumpFree_buckets (s : State) : s.bumpFree.buckets = s.buckets := rfl
@[simp] theorem State.bumpFree_bucketNext (s : State) : s.bumpFree.bucketNext = s.bucketNext := rfl
@[simp] theorem State.bumpFree_accIn (s : State) : s.bumpFree.accIn = s.accIn := rfl
@[simp] theorem State.bumpFree_skReqs (s : State) : s.bumpFree.skReqs = s.skReqs := rfl
@[simp] theorem State.bumpFree_launches (s : State) : s.bumpFree.launches = s.launches := rfl
@[simp] theorem State.bumpFree_launchNext (s : State) : s.bumpFree.launchNext = s.launchNext := rfl
@[simp] theorem State.bumpFree_ces (s : State) : s.bumpFree.ces = s.ces := rfl
@[simp] theorem State.bumpFree_barriers (s : State) : s.bumpFree.barriers = s.barriers := rfl
@[simp] theorem State.bumpFree_barrierNext (s : State) : s.bumpFree.barrierNext = s.barrierNext := rfl
@[simp] theorem State.bumpFree_pins (s : State) : s.bumpFree.pins = s.pins := rfl
@[simp] theorem State.bumpFree_walks (s : State) : s.bumpFree.walks = s.walks := rfl
@[simp] theorem State.bumpFree_walkNext (s : State) : s.bumpFree.walkNext = s.walkNext := rfl
@[simp] theorem State.bumpFree_groups (s : State) : s.bumpFree.groups = s.groups := rfl
@[simp] theorem State.bumpFree_ports (s : State) : s.bumpFree.ports = s.ports := rfl
@[simp] theorem State.bumpFree_routes (s : State) : s.bumpFree.routes = s.routes := rfl
@[simp] theorem State.bumpFree_rgen (s : State) : s.bumpFree.rgen = s.rgen := rfl
@[simp] theorem State.bumpFree_flitWait (s : State) : s.bumpFree.flitWait = s.flitWait := rfl
@[simp] theorem State.bumpFree_xfers (s : State) : s.bumpFree.xfers = s.xfers := rfl
@[simp] theorem State.bumpFree_xidNext (s : State) : s.bumpFree.xidNext = s.xidNext := rfl
@[simp] theorem State.bumpFree_remoteIn (s : State) : s.bumpFree.remoteIn = s.remoteIn := rfl
@[simp] theorem State.bumpFree_pkgid (s : State) : s.bumpFree.pkgid = s.pkgid := rfl
@[simp] theorem State.bumpFree_setId (s : State) : s.bumpFree.setId = s.setId := rfl
@[simp] theorem State.bumpFree_dstate (s : State) : s.bumpFree.dstate = s.dstate := rfl
@[simp] theorem State.bumpFree_mbox (s : State) : s.bumpFree.mbox = s.mbox := rfl
@[simp] theorem State.bumpFree_score (s : State) : s.bumpFree.score = s.score := rfl
@[simp] theorem State.bumpFree_scoreSeq (s : State) : s.bumpFree.scoreSeq = s.scoreSeq := rfl
@[simp] theorem State.bumpFree_cfg (s : State) : s.bumpFree.cfg = s.cfg := rfl
@[simp] theorem State.bumpFree_cfgNext (s : State) : s.bumpFree.cfgNext = s.cfgNext := rfl
@[simp] theorem State.bumpFree_cfgCold (s : State) : s.bumpFree.cfgCold = s.cfgCold := rfl
@[simp] theorem State.bumpFree_spdm (s : State) : s.bumpFree.spdm = s.spdm := rfl
@[simp] theorem State.bumpFree_banks (s : State) : s.bumpFree.banks = s.banks := rfl
@[simp] theorem State.bumpFree_bank (s : State) : s.bumpFree.bank = s.bank := rfl
@[simp] theorem State.bumpFree_bankNew (s : State) : s.bumpFree.bankNew = s.bankNew := rfl
@[simp] theorem State.bumpFree_arbRec (s : State) : s.bumpFree.arbRec = s.arbRec := rfl
@[simp] theorem State.bumpFree_arbFw (s : State) : s.bumpFree.arbFw = s.arbFw := rfl
@[simp] theorem State.bumpFree_throttles (s : State) : s.bumpFree.throttles = s.throttles := rfl
@[simp] theorem State.bumpFree_cxl (s : State) : s.bumpFree.cxl = s.cxl := rfl
@[simp] theorem State.bumpFree_hostMem (s : State) : s.bumpFree.hostMem = s.hostMem := rfl
@[simp] theorem State.bumpFree_core (s : State) (c : Nat) : s.bumpFree.core c = s.core c := rfl

/-! ## Contexts, ports and gangs -/

@[simp] theorem State.setCtx_cur (s : State) (n : BitVec 8) (c : Ctx) : (s.setCtx n c).cur = s.cur := rfl
@[simp] theorem State.setCtx_agenda (s : State) (n : BitVec 8) (c : Ctx) : (s.setCtx n c).agenda = s.agenda := rfl
@[simp] theorem State.setCtx_ticks (s : State) (n : BitVec 8) (c : Ctx) : (s.setCtx n c).ticks = s.ticks := rfl
@[simp] theorem State.setCtx_freeCtr (s : State) (n : BitVec 8) (c : Ctx) : (s.setCtx n c).freeCtr = s.freeCtr := rfl
@[simp] theorem State.setCtx_mem (s : State) (n : BitVec 8) (c : Ctx) : (s.setCtx n c).mem = s.mem := rfl
@[simp] theorem State.setCtx_uncorr (s : State) (n : BitVec 8) (c : Ctx) : (s.setCtx n c).uncorr = s.uncorr := rfl
@[simp] theorem State.setCtx_keyTags (s : State) (n : BitVec 8) (c : Ctx) : (s.setCtx n c).keyTags = s.keyTags := rfl
@[simp] theorem State.setCtx_keys (s : State) (n : BitVec 8) (c : Ctx) : (s.setCtx n c).keys = s.keys := rfl
@[simp] theorem State.setCtx_tlb (s : State) (n : BitVec 8) (c : Ctx) : (s.setCtx n c).tlb = s.tlb := rfl
@[simp] theorem State.setCtx_walkReqs (s : State) (n : BitVec 8) (c : Ctx) : (s.setCtx n c).walkReqs = s.walkReqs := rfl
@[simp] theorem State.setCtx_walkFails (s : State) (n : BitVec 8) (c : Ctx) : (s.setCtx n c).walkFails = s.walkFails := rfl
@[simp] theorem State.setCtx_fps (s : State) (n : BitVec 8) (c : Ctx) : (s.setCtx n c).fps = s.fps := rfl
@[simp] theorem State.setCtx_fpNext (s : State) (n : BitVec 8) (c : Ctx) : (s.setCtx n c).fpNext = s.fpNext := rfl
@[simp] theorem State.setCtx_fpWait (s : State) (n : BitVec 8) (c : Ctx) : (s.setCtx n c).fpWait = s.fpWait := rfl
@[simp] theorem State.setCtx_dcache (s : State) (n : BitVec 8) (c : Ctx) : (s.setCtx n c).dcache = s.dcache := rfl
@[simp] theorem State.setCtx_flights (s : State) (n : BitVec 8) (c : Ctx) : (s.setCtx n c).flights = s.flights := rfl
@[simp] theorem State.setCtx_repNext (s : State) (n : BitVec 8) (c : Ctx) : (s.setCtx n c).repNext = s.repNext := rfl
@[simp] theorem State.setCtx_repPend (s : State) (n : BitVec 8) (c : Ctx) : (s.setCtx n c).repPend = s.repPend := rfl
@[simp] theorem State.setCtx_repLast (s : State) (n : BitVec 8) (c : Ctx) : (s.setCtx n c).repLast = s.repLast := rfl
@[simp] theorem State.setCtx_repDone (s : State) (n : BitVec 8) (c : Ctx) : (s.setCtx n c).repDone = s.repDone := rfl
@[simp] theorem State.setCtx_repBad (s : State) (n : BitVec 8) (c : Ctx) : (s.setCtx n c).repBad = s.repBad := rfl
@[simp] theorem State.setCtx_launchQ (s : State) (n : BitVec 8) (c : Ctx) : (s.setCtx n c).launchQ = s.launchQ := rfl
@[simp] theorem State.setCtx_cores (s : State) (n : BitVec 8) (c : Ctx) : (s.setCtx n c).cores = s.cores := rfl
@[simp] theorem State.setCtx_gangs (s : State) (n : BitVec 8) (c : Ctx) : (s.setCtx n c).gangs = s.gangs := rfl
@[simp] theorem State.setCtx_gangNext (s : State) (n : BitVec 8) (c : Ctx) : (s.setCtx n c).gangNext = s.gangNext := rfl
@[simp] theorem State.setCtx_hub (s : State) (n : BitVec 8) (c : Ctx) : (s.setCtx n c).hub = s.hub := rfl
@[simp] theorem State.setCtx_hubNext (s : State) (n : BitVec 8) (c : Ctx) : (s.setCtx n c).hubNext = s.hubNext := rfl
@[simp] theorem State.setCtx_vtq (s : State) (n : BitVec 8) (c : Ctx) : (s.setCtx n c).vtq = s.vtq := rfl
@[simp] theorem State.setCtx_vtl (s : State) (n : BitVec 8) (c : Ctx) : (s.setCtx n c).vtl = s.vtl := rfl
@[simp] theorem State.setCtx_subNext (s : State) (n : BitVec 8) (c : Ctx) : (s.setCtx n c).subNext = s.subNext := rfl
@[simp] theorem State.setCtx_queueNext (s : State) (n : BitVec 8) (c : Ctx) : (s.setCtx n c).queueNext = s.queueNext := rfl
@[simp] theorem State.setCtx_shares (s : State) (n : BitVec 8) (c : Ctx) : (s.setCtx n c).shares = s.shares := rfl
@[simp] theorem State.setCtx_graphs (s : State) (n : BitVec 8) (c : Ctx) : (s.setCtx n c).graphs = s.graphs := rfl
@[simp] theorem State.setCtx_graphWait (s : State) (n : BitVec 8) (c : Ctx) : (s.setCtx n c).graphWait = s.graphWait := rfl
@[simp] theorem State.setCtx_buckets (s : State) (n : BitVec 8) (c : Ctx) : (s.setCtx n c).buckets = s.buckets := rfl
@[simp] theorem State.setCtx_bucketNext (s : State) (n : BitVec 8) (c : Ctx) : (s.setCtx n c).bucketNext = s.bucketNext := rfl
@[simp] theorem State.setCtx_accIn (s : State) (n : BitVec 8) (c : Ctx) : (s.setCtx n c).accIn = s.accIn := rfl
@[simp] theorem State.setCtx_skReqs (s : State) (n : BitVec 8) (c : Ctx) : (s.setCtx n c).skReqs = s.skReqs := rfl
@[simp] theorem State.setCtx_launches (s : State) (n : BitVec 8) (c : Ctx) : (s.setCtx n c).launches = s.launches := rfl
@[simp] theorem State.setCtx_launchNext (s : State) (n : BitVec 8) (c : Ctx) : (s.setCtx n c).launchNext = s.launchNext := rfl
@[simp] theorem State.setCtx_ces (s : State) (n : BitVec 8) (c : Ctx) : (s.setCtx n c).ces = s.ces := rfl
@[simp] theorem State.setCtx_barriers (s : State) (n : BitVec 8) (c : Ctx) : (s.setCtx n c).barriers = s.barriers := rfl
@[simp] theorem State.setCtx_barrierNext (s : State) (n : BitVec 8) (c : Ctx) : (s.setCtx n c).barrierNext = s.barrierNext := rfl
@[simp] theorem State.setCtx_pins (s : State) (n : BitVec 8) (c : Ctx) : (s.setCtx n c).pins = s.pins := rfl
@[simp] theorem State.setCtx_walks (s : State) (n : BitVec 8) (c : Ctx) : (s.setCtx n c).walks = s.walks := rfl
@[simp] theorem State.setCtx_walkNext (s : State) (n : BitVec 8) (c : Ctx) : (s.setCtx n c).walkNext = s.walkNext := rfl
@[simp] theorem State.setCtx_groups (s : State) (n : BitVec 8) (c : Ctx) : (s.setCtx n c).groups = s.groups := rfl
@[simp] theorem State.setCtx_ports (s : State) (n : BitVec 8) (c : Ctx) : (s.setCtx n c).ports = s.ports := rfl
@[simp] theorem State.setCtx_routes (s : State) (n : BitVec 8) (c : Ctx) : (s.setCtx n c).routes = s.routes := rfl
@[simp] theorem State.setCtx_rgen (s : State) (n : BitVec 8) (c : Ctx) : (s.setCtx n c).rgen = s.rgen := rfl
@[simp] theorem State.setCtx_flitWait (s : State) (n : BitVec 8) (c : Ctx) : (s.setCtx n c).flitWait = s.flitWait := rfl
@[simp] theorem State.setCtx_xfers (s : State) (n : BitVec 8) (c : Ctx) : (s.setCtx n c).xfers = s.xfers := rfl
@[simp] theorem State.setCtx_xidNext (s : State) (n : BitVec 8) (c : Ctx) : (s.setCtx n c).xidNext = s.xidNext := rfl
@[simp] theorem State.setCtx_remoteIn (s : State) (n : BitVec 8) (c : Ctx) : (s.setCtx n c).remoteIn = s.remoteIn := rfl
@[simp] theorem State.setCtx_pkgid (s : State) (n : BitVec 8) (c : Ctx) : (s.setCtx n c).pkgid = s.pkgid := rfl
@[simp] theorem State.setCtx_setId (s : State) (n : BitVec 8) (c : Ctx) : (s.setCtx n c).setId = s.setId := rfl
@[simp] theorem State.setCtx_dstate (s : State) (n : BitVec 8) (c : Ctx) : (s.setCtx n c).dstate = s.dstate := rfl
@[simp] theorem State.setCtx_mbox (s : State) (n : BitVec 8) (c : Ctx) : (s.setCtx n c).mbox = s.mbox := rfl
@[simp] theorem State.setCtx_score (s : State) (n : BitVec 8) (c : Ctx) : (s.setCtx n c).score = s.score := rfl
@[simp] theorem State.setCtx_scoreSeq (s : State) (n : BitVec 8) (c : Ctx) : (s.setCtx n c).scoreSeq = s.scoreSeq := rfl
@[simp] theorem State.setCtx_cfg (s : State) (n : BitVec 8) (c : Ctx) : (s.setCtx n c).cfg = s.cfg := rfl
@[simp] theorem State.setCtx_cfgNext (s : State) (n : BitVec 8) (c : Ctx) : (s.setCtx n c).cfgNext = s.cfgNext := rfl
@[simp] theorem State.setCtx_cfgCold (s : State) (n : BitVec 8) (c : Ctx) : (s.setCtx n c).cfgCold = s.cfgCold := rfl
@[simp] theorem State.setCtx_spdm (s : State) (n : BitVec 8) (c : Ctx) : (s.setCtx n c).spdm = s.spdm := rfl
@[simp] theorem State.setCtx_banks (s : State) (n : BitVec 8) (c : Ctx) : (s.setCtx n c).banks = s.banks := rfl
@[simp] theorem State.setCtx_bank (s : State) (n : BitVec 8) (c : Ctx) : (s.setCtx n c).bank = s.bank := rfl
@[simp] theorem State.setCtx_bankNew (s : State) (n : BitVec 8) (c : Ctx) : (s.setCtx n c).bankNew = s.bankNew := rfl
@[simp] theorem State.setCtx_arbRec (s : State) (n : BitVec 8) (c : Ctx) : (s.setCtx n c).arbRec = s.arbRec := rfl
@[simp] theorem State.setCtx_arbFw (s : State) (n : BitVec 8) (c : Ctx) : (s.setCtx n c).arbFw = s.arbFw := rfl
@[simp] theorem State.setCtx_throttles (s : State) (n : BitVec 8) (c : Ctx) : (s.setCtx n c).throttles = s.throttles := rfl
@[simp] theorem State.setCtx_cxl (s : State) (n : BitVec 8) (c : Ctx) : (s.setCtx n c).cxl = s.cxl := rfl
@[simp] theorem State.setCtx_hostMem (s : State) (n : BitVec 8) (c : Ctx) : (s.setCtx n c).hostMem = s.hostMem := rfl
@[simp] theorem State.setPort_cur (s : State) (p : Nat) (x : Port) : (s.setPort p x).cur = s.cur := by unfold State.setPort; split <;> rfl
@[simp] theorem State.setPort_agenda (s : State) (p : Nat) (x : Port) : (s.setPort p x).agenda = s.agenda := by unfold State.setPort; split <;> rfl
@[simp] theorem State.setPort_ticks (s : State) (p : Nat) (x : Port) : (s.setPort p x).ticks = s.ticks := by unfold State.setPort; split <;> rfl
@[simp] theorem State.setPort_freeCtr (s : State) (p : Nat) (x : Port) : (s.setPort p x).freeCtr = s.freeCtr := by unfold State.setPort; split <;> rfl
@[simp] theorem State.setPort_mem (s : State) (p : Nat) (x : Port) : (s.setPort p x).mem = s.mem := by unfold State.setPort; split <;> rfl
@[simp] theorem State.setPort_uncorr (s : State) (p : Nat) (x : Port) : (s.setPort p x).uncorr = s.uncorr := by unfold State.setPort; split <;> rfl
@[simp] theorem State.setPort_keyTags (s : State) (p : Nat) (x : Port) : (s.setPort p x).keyTags = s.keyTags := by unfold State.setPort; split <;> rfl
@[simp] theorem State.setPort_keys (s : State) (p : Nat) (x : Port) : (s.setPort p x).keys = s.keys := by unfold State.setPort; split <;> rfl
@[simp] theorem State.setPort_ctxs (s : State) (p : Nat) (x : Port) : (s.setPort p x).ctxs = s.ctxs := by unfold State.setPort; split <;> rfl
@[simp] theorem State.setPort_tlb (s : State) (p : Nat) (x : Port) : (s.setPort p x).tlb = s.tlb := by unfold State.setPort; split <;> rfl
@[simp] theorem State.setPort_walkReqs (s : State) (p : Nat) (x : Port) : (s.setPort p x).walkReqs = s.walkReqs := by unfold State.setPort; split <;> rfl
@[simp] theorem State.setPort_walkFails (s : State) (p : Nat) (x : Port) : (s.setPort p x).walkFails = s.walkFails := by unfold State.setPort; split <;> rfl
@[simp] theorem State.setPort_fps (s : State) (p : Nat) (x : Port) : (s.setPort p x).fps = s.fps := by unfold State.setPort; split <;> rfl
@[simp] theorem State.setPort_fpNext (s : State) (p : Nat) (x : Port) : (s.setPort p x).fpNext = s.fpNext := by unfold State.setPort; split <;> rfl
@[simp] theorem State.setPort_fpWait (s : State) (p : Nat) (x : Port) : (s.setPort p x).fpWait = s.fpWait := by unfold State.setPort; split <;> rfl
@[simp] theorem State.setPort_dcache (s : State) (p : Nat) (x : Port) : (s.setPort p x).dcache = s.dcache := by unfold State.setPort; split <;> rfl
@[simp] theorem State.setPort_flights (s : State) (p : Nat) (x : Port) : (s.setPort p x).flights = s.flights := by unfold State.setPort; split <;> rfl
@[simp] theorem State.setPort_repNext (s : State) (p : Nat) (x : Port) : (s.setPort p x).repNext = s.repNext := by unfold State.setPort; split <;> rfl
@[simp] theorem State.setPort_repPend (s : State) (p : Nat) (x : Port) : (s.setPort p x).repPend = s.repPend := by unfold State.setPort; split <;> rfl
@[simp] theorem State.setPort_repLast (s : State) (p : Nat) (x : Port) : (s.setPort p x).repLast = s.repLast := by unfold State.setPort; split <;> rfl
@[simp] theorem State.setPort_repDone (s : State) (p : Nat) (x : Port) : (s.setPort p x).repDone = s.repDone := by unfold State.setPort; split <;> rfl
@[simp] theorem State.setPort_repBad (s : State) (p : Nat) (x : Port) : (s.setPort p x).repBad = s.repBad := by unfold State.setPort; split <;> rfl
@[simp] theorem State.setPort_launchQ (s : State) (p : Nat) (x : Port) : (s.setPort p x).launchQ = s.launchQ := by unfold State.setPort; split <;> rfl
@[simp] theorem State.setPort_cores (s : State) (p : Nat) (x : Port) : (s.setPort p x).cores = s.cores := by unfold State.setPort; split <;> rfl
@[simp] theorem State.setPort_gangs (s : State) (p : Nat) (x : Port) : (s.setPort p x).gangs = s.gangs := by unfold State.setPort; split <;> rfl
@[simp] theorem State.setPort_gangNext (s : State) (p : Nat) (x : Port) : (s.setPort p x).gangNext = s.gangNext := by unfold State.setPort; split <;> rfl
@[simp] theorem State.setPort_hub (s : State) (p : Nat) (x : Port) : (s.setPort p x).hub = s.hub := by unfold State.setPort; split <;> rfl
@[simp] theorem State.setPort_hubNext (s : State) (p : Nat) (x : Port) : (s.setPort p x).hubNext = s.hubNext := by unfold State.setPort; split <;> rfl
@[simp] theorem State.setPort_vtq (s : State) (p : Nat) (x : Port) : (s.setPort p x).vtq = s.vtq := by unfold State.setPort; split <;> rfl
@[simp] theorem State.setPort_vtl (s : State) (p : Nat) (x : Port) : (s.setPort p x).vtl = s.vtl := by unfold State.setPort; split <;> rfl
@[simp] theorem State.setPort_subNext (s : State) (p : Nat) (x : Port) : (s.setPort p x).subNext = s.subNext := by unfold State.setPort; split <;> rfl
@[simp] theorem State.setPort_queueNext (s : State) (p : Nat) (x : Port) : (s.setPort p x).queueNext = s.queueNext := by unfold State.setPort; split <;> rfl
@[simp] theorem State.setPort_shares (s : State) (p : Nat) (x : Port) : (s.setPort p x).shares = s.shares := by unfold State.setPort; split <;> rfl
@[simp] theorem State.setPort_graphs (s : State) (p : Nat) (x : Port) : (s.setPort p x).graphs = s.graphs := by unfold State.setPort; split <;> rfl
@[simp] theorem State.setPort_graphWait (s : State) (p : Nat) (x : Port) : (s.setPort p x).graphWait = s.graphWait := by unfold State.setPort; split <;> rfl
@[simp] theorem State.setPort_buckets (s : State) (p : Nat) (x : Port) : (s.setPort p x).buckets = s.buckets := by unfold State.setPort; split <;> rfl
@[simp] theorem State.setPort_bucketNext (s : State) (p : Nat) (x : Port) : (s.setPort p x).bucketNext = s.bucketNext := by unfold State.setPort; split <;> rfl
@[simp] theorem State.setPort_accIn (s : State) (p : Nat) (x : Port) : (s.setPort p x).accIn = s.accIn := by unfold State.setPort; split <;> rfl
@[simp] theorem State.setPort_skReqs (s : State) (p : Nat) (x : Port) : (s.setPort p x).skReqs = s.skReqs := by unfold State.setPort; split <;> rfl
@[simp] theorem State.setPort_launches (s : State) (p : Nat) (x : Port) : (s.setPort p x).launches = s.launches := by unfold State.setPort; split <;> rfl
@[simp] theorem State.setPort_launchNext (s : State) (p : Nat) (x : Port) : (s.setPort p x).launchNext = s.launchNext := by unfold State.setPort; split <;> rfl
@[simp] theorem State.setPort_ces (s : State) (p : Nat) (x : Port) : (s.setPort p x).ces = s.ces := by unfold State.setPort; split <;> rfl
@[simp] theorem State.setPort_barriers (s : State) (p : Nat) (x : Port) : (s.setPort p x).barriers = s.barriers := by unfold State.setPort; split <;> rfl
@[simp] theorem State.setPort_barrierNext (s : State) (p : Nat) (x : Port) : (s.setPort p x).barrierNext = s.barrierNext := by unfold State.setPort; split <;> rfl
@[simp] theorem State.setPort_pins (s : State) (p : Nat) (x : Port) : (s.setPort p x).pins = s.pins := by unfold State.setPort; split <;> rfl
@[simp] theorem State.setPort_walks (s : State) (p : Nat) (x : Port) : (s.setPort p x).walks = s.walks := by unfold State.setPort; split <;> rfl
@[simp] theorem State.setPort_walkNext (s : State) (p : Nat) (x : Port) : (s.setPort p x).walkNext = s.walkNext := by unfold State.setPort; split <;> rfl
@[simp] theorem State.setPort_groups (s : State) (p : Nat) (x : Port) : (s.setPort p x).groups = s.groups := by unfold State.setPort; split <;> rfl
@[simp] theorem State.setPort_routes (s : State) (p : Nat) (x : Port) : (s.setPort p x).routes = s.routes := by unfold State.setPort; split <;> rfl
@[simp] theorem State.setPort_rgen (s : State) (p : Nat) (x : Port) : (s.setPort p x).rgen = s.rgen := by unfold State.setPort; split <;> rfl
@[simp] theorem State.setPort_flitWait (s : State) (p : Nat) (x : Port) : (s.setPort p x).flitWait = s.flitWait := by unfold State.setPort; split <;> rfl
@[simp] theorem State.setPort_xfers (s : State) (p : Nat) (x : Port) : (s.setPort p x).xfers = s.xfers := by unfold State.setPort; split <;> rfl
@[simp] theorem State.setPort_xidNext (s : State) (p : Nat) (x : Port) : (s.setPort p x).xidNext = s.xidNext := by unfold State.setPort; split <;> rfl
@[simp] theorem State.setPort_remoteIn (s : State) (p : Nat) (x : Port) : (s.setPort p x).remoteIn = s.remoteIn := by unfold State.setPort; split <;> rfl
@[simp] theorem State.setPort_pkgid (s : State) (p : Nat) (x : Port) : (s.setPort p x).pkgid = s.pkgid := by unfold State.setPort; split <;> rfl
@[simp] theorem State.setPort_setId (s : State) (p : Nat) (x : Port) : (s.setPort p x).setId = s.setId := by unfold State.setPort; split <;> rfl
@[simp] theorem State.setPort_dstate (s : State) (p : Nat) (x : Port) : (s.setPort p x).dstate = s.dstate := by unfold State.setPort; split <;> rfl
@[simp] theorem State.setPort_mbox (s : State) (p : Nat) (x : Port) : (s.setPort p x).mbox = s.mbox := by unfold State.setPort; split <;> rfl
@[simp] theorem State.setPort_score (s : State) (p : Nat) (x : Port) : (s.setPort p x).score = s.score := by unfold State.setPort; split <;> rfl
@[simp] theorem State.setPort_scoreSeq (s : State) (p : Nat) (x : Port) : (s.setPort p x).scoreSeq = s.scoreSeq := by unfold State.setPort; split <;> rfl
@[simp] theorem State.setPort_cfg (s : State) (p : Nat) (x : Port) : (s.setPort p x).cfg = s.cfg := by unfold State.setPort; split <;> rfl
@[simp] theorem State.setPort_cfgNext (s : State) (p : Nat) (x : Port) : (s.setPort p x).cfgNext = s.cfgNext := by unfold State.setPort; split <;> rfl
@[simp] theorem State.setPort_cfgCold (s : State) (p : Nat) (x : Port) : (s.setPort p x).cfgCold = s.cfgCold := by unfold State.setPort; split <;> rfl
@[simp] theorem State.setPort_spdm (s : State) (p : Nat) (x : Port) : (s.setPort p x).spdm = s.spdm := by unfold State.setPort; split <;> rfl
@[simp] theorem State.setPort_banks (s : State) (p : Nat) (x : Port) : (s.setPort p x).banks = s.banks := by unfold State.setPort; split <;> rfl
@[simp] theorem State.setPort_bank (s : State) (p : Nat) (x : Port) : (s.setPort p x).bank = s.bank := by unfold State.setPort; split <;> rfl
@[simp] theorem State.setPort_bankNew (s : State) (p : Nat) (x : Port) : (s.setPort p x).bankNew = s.bankNew := by unfold State.setPort; split <;> rfl
@[simp] theorem State.setPort_arbRec (s : State) (p : Nat) (x : Port) : (s.setPort p x).arbRec = s.arbRec := by unfold State.setPort; split <;> rfl
@[simp] theorem State.setPort_arbFw (s : State) (p : Nat) (x : Port) : (s.setPort p x).arbFw = s.arbFw := by unfold State.setPort; split <;> rfl
@[simp] theorem State.setPort_throttles (s : State) (p : Nat) (x : Port) : (s.setPort p x).throttles = s.throttles := by unfold State.setPort; split <;> rfl
@[simp] theorem State.setPort_cxl (s : State) (p : Nat) (x : Port) : (s.setPort p x).cxl = s.cxl := by unfold State.setPort; split <;> rfl
@[simp] theorem State.setPort_hostMem (s : State) (p : Nat) (x : Port) : (s.setPort p x).hostMem = s.hostMem := by unfold State.setPort; split <;> rfl
@[simp] theorem State.setGang_cur (s : State) (g : Nat) (k : Gang) : (s.setGang g k).cur = s.cur := rfl
@[simp] theorem State.setGang_agenda (s : State) (g : Nat) (k : Gang) : (s.setGang g k).agenda = s.agenda := rfl
@[simp] theorem State.setGang_ticks (s : State) (g : Nat) (k : Gang) : (s.setGang g k).ticks = s.ticks := rfl
@[simp] theorem State.setGang_freeCtr (s : State) (g : Nat) (k : Gang) : (s.setGang g k).freeCtr = s.freeCtr := rfl
@[simp] theorem State.setGang_mem (s : State) (g : Nat) (k : Gang) : (s.setGang g k).mem = s.mem := rfl
@[simp] theorem State.setGang_uncorr (s : State) (g : Nat) (k : Gang) : (s.setGang g k).uncorr = s.uncorr := rfl
@[simp] theorem State.setGang_keyTags (s : State) (g : Nat) (k : Gang) : (s.setGang g k).keyTags = s.keyTags := rfl
@[simp] theorem State.setGang_keys (s : State) (g : Nat) (k : Gang) : (s.setGang g k).keys = s.keys := rfl
@[simp] theorem State.setGang_ctxs (s : State) (g : Nat) (k : Gang) : (s.setGang g k).ctxs = s.ctxs := rfl
@[simp] theorem State.setGang_tlb (s : State) (g : Nat) (k : Gang) : (s.setGang g k).tlb = s.tlb := rfl
@[simp] theorem State.setGang_walkReqs (s : State) (g : Nat) (k : Gang) : (s.setGang g k).walkReqs = s.walkReqs := rfl
@[simp] theorem State.setGang_walkFails (s : State) (g : Nat) (k : Gang) : (s.setGang g k).walkFails = s.walkFails := rfl
@[simp] theorem State.setGang_fps (s : State) (g : Nat) (k : Gang) : (s.setGang g k).fps = s.fps := rfl
@[simp] theorem State.setGang_fpNext (s : State) (g : Nat) (k : Gang) : (s.setGang g k).fpNext = s.fpNext := rfl
@[simp] theorem State.setGang_fpWait (s : State) (g : Nat) (k : Gang) : (s.setGang g k).fpWait = s.fpWait := rfl
@[simp] theorem State.setGang_dcache (s : State) (g : Nat) (k : Gang) : (s.setGang g k).dcache = s.dcache := rfl
@[simp] theorem State.setGang_flights (s : State) (g : Nat) (k : Gang) : (s.setGang g k).flights = s.flights := rfl
@[simp] theorem State.setGang_repNext (s : State) (g : Nat) (k : Gang) : (s.setGang g k).repNext = s.repNext := rfl
@[simp] theorem State.setGang_repPend (s : State) (g : Nat) (k : Gang) : (s.setGang g k).repPend = s.repPend := rfl
@[simp] theorem State.setGang_repLast (s : State) (g : Nat) (k : Gang) : (s.setGang g k).repLast = s.repLast := rfl
@[simp] theorem State.setGang_repDone (s : State) (g : Nat) (k : Gang) : (s.setGang g k).repDone = s.repDone := rfl
@[simp] theorem State.setGang_repBad (s : State) (g : Nat) (k : Gang) : (s.setGang g k).repBad = s.repBad := rfl
@[simp] theorem State.setGang_launchQ (s : State) (g : Nat) (k : Gang) : (s.setGang g k).launchQ = s.launchQ := rfl
@[simp] theorem State.setGang_cores (s : State) (g : Nat) (k : Gang) : (s.setGang g k).cores = s.cores := rfl
@[simp] theorem State.setGang_gangNext (s : State) (g : Nat) (k : Gang) : (s.setGang g k).gangNext = s.gangNext := rfl
@[simp] theorem State.setGang_hub (s : State) (g : Nat) (k : Gang) : (s.setGang g k).hub = s.hub := rfl
@[simp] theorem State.setGang_hubNext (s : State) (g : Nat) (k : Gang) : (s.setGang g k).hubNext = s.hubNext := rfl
@[simp] theorem State.setGang_vtq (s : State) (g : Nat) (k : Gang) : (s.setGang g k).vtq = s.vtq := rfl
@[simp] theorem State.setGang_vtl (s : State) (g : Nat) (k : Gang) : (s.setGang g k).vtl = s.vtl := rfl
@[simp] theorem State.setGang_subNext (s : State) (g : Nat) (k : Gang) : (s.setGang g k).subNext = s.subNext := rfl
@[simp] theorem State.setGang_queueNext (s : State) (g : Nat) (k : Gang) : (s.setGang g k).queueNext = s.queueNext := rfl
@[simp] theorem State.setGang_shares (s : State) (g : Nat) (k : Gang) : (s.setGang g k).shares = s.shares := rfl
@[simp] theorem State.setGang_graphs (s : State) (g : Nat) (k : Gang) : (s.setGang g k).graphs = s.graphs := rfl
@[simp] theorem State.setGang_graphWait (s : State) (g : Nat) (k : Gang) : (s.setGang g k).graphWait = s.graphWait := rfl
@[simp] theorem State.setGang_buckets (s : State) (g : Nat) (k : Gang) : (s.setGang g k).buckets = s.buckets := rfl
@[simp] theorem State.setGang_bucketNext (s : State) (g : Nat) (k : Gang) : (s.setGang g k).bucketNext = s.bucketNext := rfl
@[simp] theorem State.setGang_accIn (s : State) (g : Nat) (k : Gang) : (s.setGang g k).accIn = s.accIn := rfl
@[simp] theorem State.setGang_skReqs (s : State) (g : Nat) (k : Gang) : (s.setGang g k).skReqs = s.skReqs := rfl
@[simp] theorem State.setGang_launches (s : State) (g : Nat) (k : Gang) : (s.setGang g k).launches = s.launches := rfl
@[simp] theorem State.setGang_launchNext (s : State) (g : Nat) (k : Gang) : (s.setGang g k).launchNext = s.launchNext := rfl
@[simp] theorem State.setGang_ces (s : State) (g : Nat) (k : Gang) : (s.setGang g k).ces = s.ces := rfl
@[simp] theorem State.setGang_barriers (s : State) (g : Nat) (k : Gang) : (s.setGang g k).barriers = s.barriers := rfl
@[simp] theorem State.setGang_barrierNext (s : State) (g : Nat) (k : Gang) : (s.setGang g k).barrierNext = s.barrierNext := rfl
@[simp] theorem State.setGang_pins (s : State) (g : Nat) (k : Gang) : (s.setGang g k).pins = s.pins := rfl
@[simp] theorem State.setGang_walks (s : State) (g : Nat) (k : Gang) : (s.setGang g k).walks = s.walks := rfl
@[simp] theorem State.setGang_walkNext (s : State) (g : Nat) (k : Gang) : (s.setGang g k).walkNext = s.walkNext := rfl
@[simp] theorem State.setGang_groups (s : State) (g : Nat) (k : Gang) : (s.setGang g k).groups = s.groups := rfl
@[simp] theorem State.setGang_ports (s : State) (g : Nat) (k : Gang) : (s.setGang g k).ports = s.ports := rfl
@[simp] theorem State.setGang_routes (s : State) (g : Nat) (k : Gang) : (s.setGang g k).routes = s.routes := rfl
@[simp] theorem State.setGang_rgen (s : State) (g : Nat) (k : Gang) : (s.setGang g k).rgen = s.rgen := rfl
@[simp] theorem State.setGang_flitWait (s : State) (g : Nat) (k : Gang) : (s.setGang g k).flitWait = s.flitWait := rfl
@[simp] theorem State.setGang_xfers (s : State) (g : Nat) (k : Gang) : (s.setGang g k).xfers = s.xfers := rfl
@[simp] theorem State.setGang_xidNext (s : State) (g : Nat) (k : Gang) : (s.setGang g k).xidNext = s.xidNext := rfl
@[simp] theorem State.setGang_remoteIn (s : State) (g : Nat) (k : Gang) : (s.setGang g k).remoteIn = s.remoteIn := rfl
@[simp] theorem State.setGang_pkgid (s : State) (g : Nat) (k : Gang) : (s.setGang g k).pkgid = s.pkgid := rfl
@[simp] theorem State.setGang_setId (s : State) (g : Nat) (k : Gang) : (s.setGang g k).setId = s.setId := rfl
@[simp] theorem State.setGang_dstate (s : State) (g : Nat) (k : Gang) : (s.setGang g k).dstate = s.dstate := rfl
@[simp] theorem State.setGang_mbox (s : State) (g : Nat) (k : Gang) : (s.setGang g k).mbox = s.mbox := rfl
@[simp] theorem State.setGang_score (s : State) (g : Nat) (k : Gang) : (s.setGang g k).score = s.score := rfl
@[simp] theorem State.setGang_scoreSeq (s : State) (g : Nat) (k : Gang) : (s.setGang g k).scoreSeq = s.scoreSeq := rfl
@[simp] theorem State.setGang_cfg (s : State) (g : Nat) (k : Gang) : (s.setGang g k).cfg = s.cfg := rfl
@[simp] theorem State.setGang_cfgNext (s : State) (g : Nat) (k : Gang) : (s.setGang g k).cfgNext = s.cfgNext := rfl
@[simp] theorem State.setGang_cfgCold (s : State) (g : Nat) (k : Gang) : (s.setGang g k).cfgCold = s.cfgCold := rfl
@[simp] theorem State.setGang_spdm (s : State) (g : Nat) (k : Gang) : (s.setGang g k).spdm = s.spdm := rfl
@[simp] theorem State.setGang_banks (s : State) (g : Nat) (k : Gang) : (s.setGang g k).banks = s.banks := rfl
@[simp] theorem State.setGang_bank (s : State) (g : Nat) (k : Gang) : (s.setGang g k).bank = s.bank := rfl
@[simp] theorem State.setGang_bankNew (s : State) (g : Nat) (k : Gang) : (s.setGang g k).bankNew = s.bankNew := rfl
@[simp] theorem State.setGang_arbRec (s : State) (g : Nat) (k : Gang) : (s.setGang g k).arbRec = s.arbRec := rfl
@[simp] theorem State.setGang_arbFw (s : State) (g : Nat) (k : Gang) : (s.setGang g k).arbFw = s.arbFw := rfl
@[simp] theorem State.setGang_throttles (s : State) (g : Nat) (k : Gang) : (s.setGang g k).throttles = s.throttles := rfl
@[simp] theorem State.setGang_cxl (s : State) (g : Nat) (k : Gang) : (s.setGang g k).cxl = s.cxl := rfl
@[simp] theorem State.setGang_hostMem (s : State) (g : Nat) (k : Gang) : (s.setGang g k).hostMem = s.hostMem := rfl

/-! ## Replacing an engine of a core -/

@[simp] theorem Core.eng_setEng (k : Core) (e : Engine) (t : EngineSt) : (k.setEng e t).eng e = t := by cases e <;> rfl
theorem Core.eng_setEng_ne (k : Core) (e d : Engine) (t : EngineSt) (h : d ≠ e) : (k.setEng e t).eng d = k.eng d := by
  cases e <;> cases d <;> first | rfl | exact absurd rfl h
@[simp] theorem Core.setEng_setEng (k : Core) (e : Engine) (t u : EngineSt) : (k.setEng e t).setEng e u = k.setEng e u := by cases e <;> rfl
@[simp] theorem Core.setEng_eng (k : Core) (e : Engine) : k.setEng e (k.eng e) = k := by cases e <;> rfl
@[simp] theorem Core.setEng_mode (k : Core) (e : Engine) (t : EngineSt) : (k.setEng e t).mode = k.mode := by cases e <;> rfl
@[simp] theorem Core.setEng_gang (k : Core) (e : Engine) (t : EngineSt) : (k.setEng e t).gang = k.gang := by cases e <;> rfl
@[simp] theorem Core.setEng_lastCtx (k : Core) (e : Engine) (t : EngineSt) : (k.setEng e t).lastCtx = k.lastCtx := by cases e <;> rfl
@[simp] theorem Core.setEng_text (k : Core) (e : Engine) (t : EngineSt) : (k.setEng e t).text = k.text := by cases e <;> rfl
@[simp] theorem Core.setEng_textLen (k : Core) (e : Engine) (t : EngineSt) : (k.setEng e t).textLen = k.textLen := by cases e <;> rfl
@[simp] theorem Core.setEng_win (k : Core) (e : Engine) (t : EngineSt) : (k.setEng e t).win = k.win := by cases e <;> rfl
@[simp] theorem Core.setEng_winLen (k : Core) (e : Engine) (t : EngineSt) : (k.setEng e t).winLen = k.winLen := by cases e <;> rfl
@[simp] theorem Core.setEng_s (k : Core) (e : Engine) (t : EngineSt) : (k.setEng e t).s = k.s := by cases e <;> rfl
@[simp] theorem Core.setEng_f (k : Core) (e : Engine) (t : EngineSt) : (k.setEng e t).f = k.f := by cases e <;> rfl
@[simp] theorem Core.setEng_a (k : Core) (e : Engine) (t : EngineSt) : (k.setEng e t).a = k.a := by cases e <;> rfl
@[simp] theorem Core.setEng_x (k : Core) (e : Engine) (t : EngineSt) : (k.setEng e t).x = k.x := by cases e <;> rfl
@[simp] theorem Core.setEng_k (k : Core) (e : Engine) (t : EngineSt) : (k.setEng e t).k = k.k := by cases e <;> rfl
@[simp] theorem Core.setEng_h (k : Core) (e : Engine) (t : EngineSt) : (k.setEng e t).h = k.h := by cases e <;> rfl
@[simp] theorem Core.setEng_v (k : Core) (e : Engine) (t : EngineSt) : (k.setEng e t).v = k.v := by cases e <;> rfl
@[simp] theorem Core.setEng_m (k : Core) (e : Engine) (t : EngineSt) : (k.setEng e t).m = k.m := by cases e <;> rfl
@[simp] theorem Core.setEng_iq (k : Core) (e : Engine) (t : EngineSt) : (k.setEng e t).iq = k.iq := by cases e <;> rfl
@[simp] theorem Core.setEng_oq (k : Core) (e : Engine) (t : EngineSt) : (k.setEng e t).oq = k.oq := by cases e <;> rfl
@[simp] theorem Core.setEng_iqWant (k : Core) (e : Engine) (t : EngineSt) : (k.setEng e t).iqWant = k.iqWant := by cases e <;> rfl
@[simp] theorem Core.setEng_vcfg (k : Core) (e : Engine) (t : EngineSt) : (k.setEng e t).vcfg = k.vcfg := by cases e <;> rfl
@[simp] theorem Core.setEng_seed (k : Core) (e : Engine) (t : EngineSt) : (k.setEng e t).seed = k.seed := by cases e <;> rfl
@[simp] theorem Core.setEng_step (k : Core) (e : Engine) (t : EngineSt) : (k.setEng e t).step = k.step := by cases e <;> rfl
@[simp] theorem Core.setEng_idx (k : Core) (e : Engine) (t : EngineSt) : (k.setEng e t).idx = k.idx := by cases e <;> rfl
@[simp] theorem Core.setEng_z (k : Core) (e : Engine) (t : EngineSt) : (k.setEng e t).z = k.z := by cases e <;> rfl
@[simp] theorem Core.setEng_w (k : Core) (e : Engine) (t : EngineSt) : (k.setEng e t).w = k.w := by cases e <;> rfl
@[simp] theorem Core.setEng_msel (k : Core) (e : Engine) (t : EngineSt) : (k.setEng e t).msel = k.msel := by cases e <;> rfl
@[simp] theorem Core.setEng_ft (k : Core) (e : Engine) (t : EngineSt) : (k.setEng e t).ft = k.ft := by cases e <;> rfl
@[simp] theorem Core.setEng_stepq (k : Core) (e : Engine) (t : EngineSt) : (k.setEng e t).stepq = k.stepq := by cases e <;> rfl
@[simp] theorem Core.setEng_chain (k : Core) (e : Engine) (t : EngineSt) : (k.setEng e t).chain = k.chain := by cases e <;> rfl
@[simp] theorem Core.setEng_stage (k : Core) (e : Engine) (t : EngineSt) : (k.setEng e t).stage = k.stage := by cases e <;> rfl
@[simp] theorem Core.setEng_sem (k : Core) (e : Engine) (t : EngineSt) : (k.setEng e t).sem = k.sem := by cases e <;> rfl
@[simp] theorem Core.setEng_semWaits (k : Core) (e : Engine) (t : EngineSt) : (k.setEng e t).semWaits = k.semWaits := by cases e <;> rfl
@[simp] theorem Core.setEng_semIncs (k : Core) (e : Engine) (t : EngineSt) : (k.setEng e t).semIncs = k.semIncs := by cases e <;> rfl
@[simp] theorem Core.setEng_semSeen (k : Core) (e : Engine) (t : EngineSt) : (k.setEng e t).semSeen = k.semSeen := by cases e <;> rfl
@[simp] theorem Core.setEng_ftLog (k : Core) (e : Engine) (t : EngineSt) : (k.setEng e t).ftLog = k.ftLog := by cases e <;> rfl
@[simp] theorem Core.setEng_fifo (k : Core) (e : Engine) (t : EngineSt) : (k.setEng e t).fifo = k.fifo := by cases e <;> rfl
@[simp] theorem Core.setEng_streams (k : Core) (e : Engine) (t : EngineSt) : (k.setEng e t).streams = k.streams := by cases e <;> rfl
@[simp] theorem Core.setEng_rings (k : Core) (e : Engine) (t : EngineSt) : (k.setEng e t).rings = k.rings := by cases e <;> rfl
@[simp] theorem Core.setEng_unfold (k : Core) (e : Engine) (t : EngineSt) : (k.setEng e t).unfold = k.unfold := by cases e <;> rfl
@[simp] theorem Core.setEng_descRead (k : Core) (e : Engine) (t : EngineSt) : (k.setEng e t).descRead = k.descRead := by cases e <;> rfl
@[simp] theorem Core.setEng_spad (k : Core) (e : Engine) (t : EngineSt) : (k.setEng e t).spad = k.spad := by cases e <;> rfl
@[simp] theorem Core.setEng_cards (k : Core) (e : Engine) (t : EngineSt) : (k.setEng e t).cards = k.cards := by cases e <;> rfl
@[simp] theorem Core.setEng_cardRead (k : Core) (e : Engine) (t : EngineSt) : (k.setEng e t).cardRead = k.cardRead := by cases e <;> rfl
@[simp] theorem Core.setEng_ticket (k : Core) (e : Engine) (t : EngineSt) : (k.setEng e t).ticket = k.ticket := by cases e <;> rfl
@[simp] theorem Core.setEng_sbNext (k : Core) (e : Engine) (t : EngineSt) : (k.setEng e t).sbNext = k.sbNext := by cases e <;> rfl
@[simp] theorem Core.setEng_claims (k : Core) (e : Engine) (t : EngineSt) : (k.setEng e t).claims = k.claims := by cases e <;> rfl
@[simp] theorem Core.setEng_rsigs (k : Core) (e : Engine) (t : EngineSt) : (k.setEng e t).rsigs = k.rsigs := by cases e <;> rfl
@[simp] theorem Core.setEng_slip (k : Core) (e : Engine) (t : EngineSt) : (k.setEng e t).slip = k.slip := by cases e <;> rfl
@[simp] theorem Core.setEng_preq (k : Core) (e : Engine) (t : EngineSt) : (k.setEng e t).preq = k.preq := by cases e <;> rfl
@[simp] theorem Core.setEng_region (k : Core) (e : Engine) (t : EngineSt) : (k.setEng e t).region = k.region := by cases e <;> rfl
@[simp] theorem Core.setEng_node (k : Core) (e : Engine) (t : EngineSt) : (k.setEng e t).node = k.node := by cases e <;> rfl
@[simp] theorem Core.setEng_gen (k : Core) (e : Engine) (t : EngineSt) : (k.setEng e t).gen = k.gen := by cases e <;> rfl
@[simp] theorem Core.setEng_gangSize (k : Core) (e : Engine) (t : EngineSt) : (k.setEng e t).gangSize = k.gangSize := by cases e <;> rfl
@[simp] theorem Core.setEng_gangRank (k : Core) (e : Engine) (t : EngineSt) : (k.setEng e t).gangRank = k.gangRank := by cases e <;> rfl
@[simp] theorem Core.setEng_attempt (k : Core) (e : Engine) (t : EngineSt) : (k.setEng e t).attempt = k.attempt := by cases e <;> rfl
@[simp] theorem Core.setEng_dbgEn (k : Core) (e : Engine) (t : EngineSt) : (k.setEng e t).dbgEn = k.dbgEn := by cases e <;> rfl
@[simp] theorem Core.setEng_dbgLat (k : Core) (e : Engine) (t : EngineSt) : (k.setEng e t).dbgLat = k.dbgLat := by cases e <;> rfl
@[simp] theorem Core.setEng_mon (k : Core) (e : Engine) (t : EngineSt) : (k.setEng e t).mon = k.mon := by cases e <;> rfl
@[simp] theorem Core.setEng_dbgvec (k : Core) (e : Engine) (t : EngineSt) : (k.setEng e t).dbgvec = k.dbgvec := by cases e <;> rfl
@[simp] theorem Core.setEng_epc (k : Core) (e : Engine) (t : EngineSt) : (k.setEng e t).epc = k.epc := by cases e <;> rfl
@[simp] theorem Core.setEng_ecause (k : Core) (e : Engine) (t : EngineSt) : (k.setEng e t).ecause = k.ecause := by cases e <;> rfl
@[simp] theorem Core.setEng_edetail (k : Core) (e : Engine) (t : EngineSt) : (k.setEng e t).edetail = k.edetail := by cases e <;> rfl
@[simp] theorem Core.setEng_monSaved (k : Core) (e : Engine) (t : EngineSt) : (k.setEng e t).monSaved = k.monSaved := by cases e <;> rfl
@[simp] theorem Core.setEng_entry (k : Core) (e : Engine) (t : EngineSt) : (k.setEng e t).entry = k.entry := by cases e <;> rfl
@[simp] theorem Core.setEng_held (k : Core) (e : Engine) (t : EngineSt) : (k.setEng e t).held = k.held := by cases e <;> rfl
@[simp] theorem Core.setEng_dscr0 (k : Core) (e : Engine) (t : EngineSt) : (k.setEng e t).dscr0 = k.dscr0 := by cases e <;> rfl
@[simp] theorem Core.setEng_dscr1 (k : Core) (e : Engine) (t : EngineSt) : (k.setEng e t).dscr1 = k.dscr1 := by cases e <;> rfl
@[simp] theorem Core.setEng_cycle (k : Core) (e : Engine) (t : EngineSt) : (k.setEng e t).cycle = k.cycle := by cases e <;> rfl
@[simp] theorem Core.setEng_phint (k : Core) (e : Engine) (t : EngineSt) : (k.setEng e t).phint = k.phint := by cases e <;> rfl
@[simp] theorem Core.setEng_causes (k : Core) (e : Engine) (t : EngineSt) : (k.setEng e t).causes = k.causes := by cases e <;> rfl
@[simp] theorem Core.setEng_stopReq (k : Core) (e : Engine) (t : EngineSt) : (k.setEng e t).stopReq = k.stopReq := by cases e <;> rfl
@[simp] theorem Core.setEng_forced (k : Core) (e : Engine) (t : EngineSt) : (k.setEng e t).forced = k.forced := by cases e <;> rfl
@[simp] theorem Core.setEng_repSeen (k : Core) (e : Engine) (t : EngineSt) : (k.setEng e t).repSeen = k.repSeen := by cases e <;> rfl
@[simp] theorem Core.setEng_repFloor (k : Core) (e : Engine) (t : EngineSt) : (k.setEng e t).repFloor = k.repFloor := by cases e <;> rfl
@[simp] theorem Core.setEng_repAcq (k : Core) (e : Engine) (t : EngineSt) : (k.setEng e t).repAcq = k.repAcq := by cases e <;> rfl

end Sys2Proof.Machine
end

