-- ==== Sys2Proof/Laws/Words.lean ====
section
/-!
SUPPORT. How core words run: the ring part, prefixes, and register reads and writes, each said once.
-/
namespace Sys2Proof.Machine

/-! ## Computations -/

@[simp] theorem run_pure {α : Type} (a : α) (s : State) : (pure a : W α) s = .ok a s := rfl
@[simp] theorem run_get (s : State) : (get : W State) s = .ok s s := rfl
@[simp] theorem run_set (s t : State) : (set t : W Unit) s = .ok () t := rfl
@[simp] theorem run_modify (g : State → State) (s : State) : (modify g : W Unit) s = .ok () (g s) := rfl
theorem run_bind {α β : Type} (x : W α) (f : α → W β) (s : State) :
    (x >>= f) s = match x s with
      | .ok a t => f a t
      | .error e t => .error e t := by
  simp only [bind, EStateM.bind]
  cases x s <;> rfl
theorem run_bind_ok {α β : Type} {x : W α} {f : α → W β} {s t : State} {a : α} (h : x s = .ok a t) : (x >>= f) s = f a t := by
  rw [run_bind, h]
@[simp] theorem run_stall {α : Type} (s : State) : (stall : W α) s = .error .stall s := rfl
@[simp] theorem run_trap {α : Type} (c : BitVec 8) (d : BitVec 64) (s : State) : (trap c d : W α) s = .error (.trap c d) s := rfl
@[simp] theorem run_waitFor_true (s : State) : (waitFor true) s = .ok () s := rfl
@[simp] theorem run_need_true (c : BitVec 8) (d : BitVec 64) (s : State) : (need true c d) s = .ok () s := rfl
@[simp] theorem run_getC (s : State) : getC s = .ok s.me s := rfl
@[simp] theorem run_putC (k : Core) (s : State) : putC k s = .ok () (s.setCore s.cur.core k) := rfl
@[simp] theorem run_modC (g : Core → Core) (s : State) : modC g s = .ok () (s.onMe g) := rfl
@[simp] theorem run_getE (s : State) : getE s = .ok s.unit s := rfl
@[simp] theorem run_putE (t : EngineSt) (s : State) : putE t s = .ok () (s.onMe (·.setEng s.cur.eng t)) := rfl
@[simp] theorem run_fresh (s : State) : fresh s = .ok s.freeCtr s.bumpFree := rfl

/-! ## The core at hand -/

theorem State.me_setCore (s : State) (k : Core) (h : s.cur.core < 96) : (s.setCore s.cur.core k).me = k := by
  rw [State.me, State.setCore_cur, State.core_setCore _ _ _ h]
theorem State.me_onMe (s : State) (g : Core → Core) (h : s.cur.core < 96) : (s.onMe g).me = g s.me := State.me_setCore s _ h
@[simp] theorem State.onMe_cur (s : State) (g : Core → Core) : (s.onMe g).cur = s.cur := State.onCore_cur _ _ _
theorem State.setCore_setCore_me (s : State) (k l : Core) : (s.setCore s.cur.core k).setCore s.cur.core l = s.setCore s.cur.core l := by simp

/-! ## The ring part -/

@[simp] theorem State.rung_cur (s : State) : s.rung.cur = s.cur := by unfold State.rung; split <;> simp

@[simp] theorem Core.popToken_mode (k : Core) (p : Engine) (a : Bool) : (k.popToken p a).mode = k.mode := by simp [Core.popToken]
@[simp] theorem Core.popToken_gang (k : Core) (p : Engine) (a : Bool) : (k.popToken p a).gang = k.gang := by simp [Core.popToken]
@[simp] theorem Core.popToken_lastCtx (k : Core) (p : Engine) (a : Bool) : (k.popToken p a).lastCtx = k.lastCtx := by simp [Core.popToken]
@[simp] theorem Core.popToken_text (k : Core) (p : Engine) (a : Bool) : (k.popToken p a).text = k.text := by simp [Core.popToken]
@[simp] theorem Core.popToken_textLen (k : Core) (p : Engine) (a : Bool) : (k.popToken p a).textLen = k.textLen := by simp [Core.popToken]
@[simp] theorem Core.popToken_win (k : Core) (p : Engine) (a : Bool) : (k.popToken p a).win = k.win := by simp [Core.popToken]
@[simp] theorem Core.popToken_winLen (k : Core) (p : Engine) (a : Bool) : (k.popToken p a).winLen = k.winLen := by simp [Core.popToken]
@[simp] theorem Core.popToken_s (k : Core) (p : Engine) (a : Bool) : (k.popToken p a).s = k.s := by simp [Core.popToken]
@[simp] theorem Core.popToken_f (k : Core) (p : Engine) (a : Bool) : (k.popToken p a).f = k.f := by simp [Core.popToken]
@[simp] theorem Core.popToken_a (k : Core) (p : Engine) (a : Bool) : (k.popToken p a).a = k.a := by simp [Core.popToken]
@[simp] theorem Core.popToken_x (k : Core) (p : Engine) (a : Bool) : (k.popToken p a).x = k.x := by simp [Core.popToken]
@[simp] theorem Core.popToken_k (k : Core) (p : Engine) (a : Bool) : (k.popToken p a).k = k.k := by simp [Core.popToken]
@[simp] theorem Core.popToken_h (k : Core) (p : Engine) (a : Bool) : (k.popToken p a).h = k.h := by simp [Core.popToken]
@[simp] theorem Core.popToken_v (k : Core) (p : Engine) (a : Bool) : (k.popToken p a).v = k.v := by simp [Core.popToken]
@[simp] theorem Core.popToken_m (k : Core) (p : Engine) (a : Bool) : (k.popToken p a).m = k.m := by simp [Core.popToken]
@[simp] theorem Core.popToken_iq (k : Core) (p : Engine) (a : Bool) : (k.popToken p a).iq = k.iq := by simp [Core.popToken]
@[simp] theorem Core.popToken_oq (k : Core) (p : Engine) (a : Bool) : (k.popToken p a).oq = k.oq := by simp [Core.popToken]
@[simp] theorem Core.popToken_iqWant (k : Core) (p : Engine) (a : Bool) : (k.popToken p a).iqWant = k.iqWant := by simp [Core.popToken]
@[simp] theorem Core.popToken_vcfg (k : Core) (p : Engine) (a : Bool) : (k.popToken p a).vcfg = k.vcfg := by simp [Core.popToken]
@[simp] theorem Core.popToken_seed (k : Core) (p : Engine) (a : Bool) : (k.popToken p a).seed = k.seed := by simp [Core.popToken]
@[simp] theorem Core.popToken_step (k : Core) (p : Engine) (a : Bool) : (k.popToken p a).step = k.step := by simp [Core.popToken]
@[simp] theorem Core.popToken_idx (k : Core) (p : Engine) (a : Bool) : (k.popToken p a).idx = k.idx := by simp [Core.popToken]
@[simp] theorem Core.popToken_z (k : Core) (p : Engine) (a : Bool) : (k.popToken p a).z = k.z := by simp [Core.popToken]
@[simp] theorem Core.popToken_w (k : Core) (p : Engine) (a : Bool) : (k.popToken p a).w = k.w := by simp [Core.popToken]
@[simp] theorem Core.popToken_msel (k : Core) (p : Engine) (a : Bool) : (k.popToken p a).msel = k.msel := by simp [Core.popToken]
@[simp] theorem Core.popToken_ft (k : Core) (p : Engine) (a : Bool) : (k.popToken p a).ft = k.ft := by simp [Core.popToken]
@[simp] theorem Core.popToken_stepq (k : Core) (p : Engine) (a : Bool) : (k.popToken p a).stepq = k.stepq := by simp [Core.popToken]
@[simp] theorem Core.popToken_chain (k : Core) (p : Engine) (a : Bool) : (k.popToken p a).chain = k.chain := by simp [Core.popToken]
@[simp] theorem Core.popToken_stage (k : Core) (p : Engine) (a : Bool) : (k.popToken p a).stage = k.stage := by simp [Core.popToken]
@[simp] theorem Core.popToken_sem (k : Core) (p : Engine) (a : Bool) : (k.popToken p a).sem = k.sem := by simp [Core.popToken]
@[simp] theorem Core.popToken_semWaits (k : Core) (p : Engine) (a : Bool) : (k.popToken p a).semWaits = k.semWaits := by simp [Core.popToken]
@[simp] theorem Core.popToken_semIncs (k : Core) (p : Engine) (a : Bool) : (k.popToken p a).semIncs = k.semIncs := by simp [Core.popToken]
@[simp] theorem Core.popToken_semSeen (k : Core) (p : Engine) (a : Bool) : (k.popToken p a).semSeen = k.semSeen := by simp [Core.popToken]
@[simp] theorem Core.popToken_ftLog (k : Core) (p : Engine) (a : Bool) : (k.popToken p a).ftLog = k.ftLog := by simp [Core.popToken]
@[simp] theorem Core.popToken_fifo (k : Core) (p : Engine) (a : Bool) : (k.popToken p a).fifo = k.fifo := by simp [Core.popToken]
@[simp] theorem Core.popToken_streams (k : Core) (p : Engine) (a : Bool) : (k.popToken p a).streams = k.streams := by simp [Core.popToken]
@[simp] theorem Core.popToken_rings (k : Core) (p : Engine) (a : Bool) : (k.popToken p a).rings = k.rings := by simp [Core.popToken]
@[simp] theorem Core.popToken_unfold (k : Core) (p : Engine) (a : Bool) : (k.popToken p a).unfold = k.unfold := by simp [Core.popToken]
@[simp] theorem Core.popToken_descRead (k : Core) (p : Engine) (a : Bool) : (k.popToken p a).descRead = k.descRead := by simp [Core.popToken]
@[simp] theorem Core.popToken_cardRead (k : Core) (p : Engine) (a : Bool) : (k.popToken p a).cardRead = k.cardRead := by simp [Core.popToken]
@[simp] theorem Core.popToken_spad (k : Core) (p : Engine) (a : Bool) : (k.popToken p a).spad = k.spad := by simp [Core.popToken]
@[simp] theorem Core.popToken_cards (k : Core) (p : Engine) (a : Bool) : (k.popToken p a).cards = k.cards := by simp [Core.popToken]
@[simp] theorem Core.popToken_ticket (k : Core) (p : Engine) (a : Bool) : (k.popToken p a).ticket = k.ticket := by simp [Core.popToken]
@[simp] theorem Core.popToken_sbNext (k : Core) (p : Engine) (a : Bool) : (k.popToken p a).sbNext = k.sbNext := by simp [Core.popToken]
@[simp] theorem Core.popToken_claims (k : Core) (p : Engine) (a : Bool) : (k.popToken p a).claims = k.claims := by simp [Core.popToken]
@[simp] theorem Core.popToken_rsigs (k : Core) (p : Engine) (a : Bool) : (k.popToken p a).rsigs = k.rsigs := by simp [Core.popToken]
@[simp] theorem Core.popToken_slip (k : Core) (p : Engine) (a : Bool) : (k.popToken p a).slip = k.slip := by simp [Core.popToken]
@[simp] theorem Core.popToken_preq (k : Core) (p : Engine) (a : Bool) : (k.popToken p a).preq = k.preq := by simp [Core.popToken]
@[simp] theorem Core.popToken_region (k : Core) (p : Engine) (a : Bool) : (k.popToken p a).region = k.region := by simp [Core.popToken]
@[simp] theorem Core.popToken_node (k : Core) (p : Engine) (a : Bool) : (k.popToken p a).node = k.node := by simp [Core.popToken]
@[simp] theorem Core.popToken_gen (k : Core) (p : Engine) (a : Bool) : (k.popToken p a).gen = k.gen := by simp [Core.popToken]
@[simp] theorem Core.popToken_gangSize (k : Core) (p : Engine) (a : Bool) : (k.popToken p a).gangSize = k.gangSize := by simp [Core.popToken]
@[simp] theorem Core.popToken_gangRank (k : Core) (p : Engine) (a : Bool) : (k.popToken p a).gangRank = k.gangRank := by simp [Core.popToken]
@[simp] theorem Core.popToken_attempt (k : Core) (p : Engine) (a : Bool) : (k.popToken p a).attempt = k.attempt := by simp [Core.popToken]
@[simp] theorem Core.popToken_dbgEn (k : Core) (p : Engine) (a : Bool) : (k.popToken p a).dbgEn = k.dbgEn := by simp [Core.popToken]
@[simp] theorem Core.popToken_dbgLat (k : Core) (p : Engine) (a : Bool) : (k.popToken p a).dbgLat = k.dbgLat := by simp [Core.popToken]
@[simp] theorem Core.popToken_mon (k : Core) (p : Engine) (a : Bool) : (k.popToken p a).mon = k.mon := by simp [Core.popToken]
@[simp] theorem Core.popToken_dbgvec (k : Core) (p : Engine) (a : Bool) : (k.popToken p a).dbgvec = k.dbgvec := by simp [Core.popToken]
@[simp] theorem Core.popToken_epc (k : Core) (p : Engine) (a : Bool) : (k.popToken p a).epc = k.epc := by simp [Core.popToken]
@[simp] theorem Core.popToken_ecause (k : Core) (p : Engine) (a : Bool) : (k.popToken p a).ecause = k.ecause := by simp [Core.popToken]
@[simp] theorem Core.popToken_edetail (k : Core) (p : Engine) (a : Bool) : (k.popToken p a).edetail = k.edetail := by simp [Core.popToken]
@[simp] theorem Core.popToken_monSaved (k : Core) (p : Engine) (a : Bool) : (k.popToken p a).monSaved = k.monSaved := by simp [Core.popToken]
@[simp] theorem Core.popToken_entry (k : Core) (p : Engine) (a : Bool) : (k.popToken p a).entry = k.entry := by simp [Core.popToken]
@[simp] theorem Core.popToken_held (k : Core) (p : Engine) (a : Bool) : (k.popToken p a).held = k.held := by simp [Core.popToken]
@[simp] theorem Core.popToken_dscr0 (k : Core) (p : Engine) (a : Bool) : (k.popToken p a).dscr0 = k.dscr0 := by simp [Core.popToken]
@[simp] theorem Core.popToken_dscr1 (k : Core) (p : Engine) (a : Bool) : (k.popToken p a).dscr1 = k.dscr1 := by simp [Core.popToken]
@[simp] theorem Core.popToken_cycle (k : Core) (p : Engine) (a : Bool) : (k.popToken p a).cycle = k.cycle := by simp [Core.popToken]
@[simp] theorem Core.popToken_phint (k : Core) (p : Engine) (a : Bool) : (k.popToken p a).phint = k.phint := by simp [Core.popToken]
@[simp] theorem Core.popToken_causes (k : Core) (p : Engine) (a : Bool) : (k.popToken p a).causes = k.causes := by simp [Core.popToken]
@[simp] theorem Core.popToken_stopReq (k : Core) (p : Engine) (a : Bool) : (k.popToken p a).stopReq = k.stopReq := by simp [Core.popToken]
@[simp] theorem Core.popToken_forced (k : Core) (p : Engine) (a : Bool) : (k.popToken p a).forced = k.forced := by simp [Core.popToken]
@[simp] theorem Core.popToken_repSeen (k : Core) (p : Engine) (a : Bool) : (k.popToken p a).repSeen = k.repSeen := by simp [Core.popToken]
@[simp] theorem Core.popToken_repFloor (k : Core) (p : Engine) (a : Bool) : (k.popToken p a).repFloor = k.repFloor := by simp [Core.popToken]
@[simp] theorem Core.popToken_repAcq (k : Core) (p : Engine) (a : Bool) : (k.popToken p a).repAcq = k.repAcq := by simp [Core.popToken]
@[simp] theorem Core.ringTake_mode (k : Core) (e : Engine) (r : Ring) : (k.ringTake e r).mode = k.mode := by
  simp only [Core.ringTake, Core.setEng_mode]; split <;> split <;> simp
@[simp] theorem Core.ringTake_gang (k : Core) (e : Engine) (r : Ring) : (k.ringTake e r).gang = k.gang := by
  simp only [Core.ringTake, Core.setEng_gang]; split <;> split <;> simp
@[simp] theorem Core.ringTake_lastCtx (k : Core) (e : Engine) (r : Ring) : (k.ringTake e r).lastCtx = k.lastCtx := by
  simp only [Core.ringTake, Core.setEng_lastCtx]; split <;> split <;> simp
@[simp] theorem Core.ringTake_text (k : Core) (e : Engine) (r : Ring) : (k.ringTake e r).text = k.text := by
  simp only [Core.ringTake, Core.setEng_text]; split <;> split <;> simp
@[simp] theorem Core.ringTake_textLen (k : Core) (e : Engine) (r : Ring) : (k.ringTake e r).textLen = k.textLen := by
  simp only [Core.ringTake, Core.setEng_textLen]; split <;> split <;> simp
@[simp] theorem Core.ringTake_win (k : Core) (e : Engine) (r : Ring) : (k.ringTake e r).win = k.win := by
  simp only [Core.ringTake, Core.setEng_win]; split <;> split <;> simp
@[simp] theorem Core.ringTake_winLen (k : Core) (e : Engine) (r : Ring) : (k.ringTake e r).winLen = k.winLen := by
  simp only [Core.ringTake, Core.setEng_winLen]; split <;> split <;> simp
@[simp] theorem Core.ringTake_s (k : Core) (e : Engine) (r : Ring) : (k.ringTake e r).s = k.s := by
  simp only [Core.ringTake, Core.setEng_s]; split <;> split <;> simp
@[simp] theorem Core.ringTake_f (k : Core) (e : Engine) (r : Ring) : (k.ringTake e r).f = k.f := by
  simp only [Core.ringTake, Core.setEng_f]; split <;> split <;> simp
@[simp] theorem Core.ringTake_a (k : Core) (e : Engine) (r : Ring) : (k.ringTake e r).a = k.a := by
  simp only [Core.ringTake, Core.setEng_a]; split <;> split <;> simp
@[simp] theorem Core.ringTake_x (k : Core) (e : Engine) (r : Ring) : (k.ringTake e r).x = k.x := by
  simp only [Core.ringTake, Core.setEng_x]; split <;> split <;> simp
@[simp] theorem Core.ringTake_k (k : Core) (e : Engine) (r : Ring) : (k.ringTake e r).k = k.k := by
  simp only [Core.ringTake, Core.setEng_k]; split <;> split <;> simp
@[simp] theorem Core.ringTake_h (k : Core) (e : Engine) (r : Ring) : (k.ringTake e r).h = k.h := by
  simp only [Core.ringTake, Core.setEng_h]; split <;> split <;> simp
@[simp] theorem Core.ringTake_v (k : Core) (e : Engine) (r : Ring) : (k.ringTake e r).v = k.v := by
  simp only [Core.ringTake, Core.setEng_v]; split <;> split <;> simp
@[simp] theorem Core.ringTake_m (k : Core) (e : Engine) (r : Ring) : (k.ringTake e r).m = k.m := by
  simp only [Core.ringTake, Core.setEng_m]; split <;> split <;> simp
@[simp] theorem Core.ringTake_iq (k : Core) (e : Engine) (r : Ring) : (k.ringTake e r).iq = k.iq := by
  simp only [Core.ringTake, Core.setEng_iq]; split <;> split <;> simp
@[simp] theorem Core.ringTake_oq (k : Core) (e : Engine) (r : Ring) : (k.ringTake e r).oq = k.oq := by
  simp only [Core.ringTake, Core.setEng_oq]; split <;> split <;> simp
@[simp] theorem Core.ringTake_iqWant (k : Core) (e : Engine) (r : Ring) : (k.ringTake e r).iqWant = k.iqWant := by
  simp only [Core.ringTake, Core.setEng_iqWant]; split <;> split <;> simp
@[simp] theorem Core.ringTake_vcfg (k : Core) (e : Engine) (r : Ring) : (k.ringTake e r).vcfg = k.vcfg := by
  simp only [Core.ringTake, Core.setEng_vcfg]; split <;> split <;> simp
@[simp] theorem Core.ringTake_seed (k : Core) (e : Engine) (r : Ring) : (k.ringTake e r).seed = k.seed := by
  simp only [Core.ringTake, Core.setEng_seed]; split <;> split <;> simp
@[simp] theorem Core.ringTake_step (k : Core) (e : Engine) (r : Ring) : (k.ringTake e r).step = k.step := by
  simp only [Core.ringTake, Core.setEng_step]; split <;> split <;> simp
@[simp] theorem Core.ringTake_idx (k : Core) (e : Engine) (r : Ring) : (k.ringTake e r).idx = k.idx := by
  simp only [Core.ringTake, Core.setEng_idx]; split <;> split <;> simp
@[simp] theorem Core.ringTake_z (k : Core) (e : Engine) (r : Ring) : (k.ringTake e r).z = k.z := by
  simp only [Core.ringTake, Core.setEng_z]; split <;> split <;> simp
@[simp] theorem Core.ringTake_w (k : Core) (e : Engine) (r : Ring) : (k.ringTake e r).w = k.w := by
  simp only [Core.ringTake, Core.setEng_w]; split <;> split <;> simp
@[simp] theorem Core.ringTake_msel (k : Core) (e : Engine) (r : Ring) : (k.ringTake e r).msel = k.msel := by
  simp only [Core.ringTake, Core.setEng_msel]; split <;> split <;> simp
@[simp] theorem Core.ringTake_ft (k : Core) (e : Engine) (r : Ring) : (k.ringTake e r).ft = k.ft := by
  simp only [Core.ringTake, Core.setEng_ft]; split <;> split <;> simp
@[simp] theorem Core.ringTake_stepq (k : Core) (e : Engine) (r : Ring) : (k.ringTake e r).stepq = k.stepq := by
  simp only [Core.ringTake, Core.setEng_stepq]; split <;> split <;> simp
@[simp] theorem Core.ringTake_chain (k : Core) (e : Engine) (r : Ring) : (k.ringTake e r).chain = k.chain := by
  simp only [Core.ringTake, Core.setEng_chain]; split <;> split <;> simp
@[simp] theorem Core.ringTake_stage (k : Core) (e : Engine) (r : Ring) : (k.ringTake e r).stage = k.stage := by
  simp only [Core.ringTake, Core.setEng_stage]; split <;> split <;> simp
@[simp] theorem Core.ringTake_sem (k : Core) (e : Engine) (r : Ring) : (k.ringTake e r).sem = k.sem := by
  simp only [Core.ringTake, Core.setEng_sem]; split <;> split <;> simp
@[simp] theorem Core.ringTake_semWaits (k : Core) (e : Engine) (r : Ring) : (k.ringTake e r).semWaits = k.semWaits := by
  simp only [Core.ringTake, Core.setEng_semWaits]; split <;> split <;> simp
@[simp] theorem Core.ringTake_semIncs (k : Core) (e : Engine) (r : Ring) : (k.ringTake e r).semIncs = k.semIncs := by
  simp only [Core.ringTake, Core.setEng_semIncs]; split <;> split <;> simp
@[simp] theorem Core.ringTake_semSeen (k : Core) (e : Engine) (r : Ring) : (k.ringTake e r).semSeen = k.semSeen := by
  simp only [Core.ringTake, Core.setEng_semSeen]; split <;> split <;> simp
@[simp] theorem Core.ringTake_ftLog (k : Core) (e : Engine) (r : Ring) : (k.ringTake e r).ftLog = k.ftLog := by
  simp only [Core.ringTake, Core.setEng_ftLog]; split <;> split <;> simp
@[simp] theorem Core.ringTake_fifo (k : Core) (e : Engine) (r : Ring) : (k.ringTake e r).fifo = k.fifo := by
  simp only [Core.ringTake, Core.setEng_fifo]; split <;> split <;> simp
@[simp] theorem Core.ringTake_streams (k : Core) (e : Engine) (r : Ring) : (k.ringTake e r).streams = k.streams := by
  simp only [Core.ringTake, Core.setEng_streams]; split <;> split <;> simp
@[simp] theorem Core.ringTake_rings (k : Core) (e : Engine) (r : Ring) : (k.ringTake e r).rings = k.rings := by
  simp only [Core.ringTake, Core.setEng_rings]; split <;> split <;> simp
@[simp] theorem Core.ringTake_unfold (k : Core) (e : Engine) (r : Ring) : (k.ringTake e r).unfold = k.unfold := by
  simp only [Core.ringTake, Core.setEng_unfold]; split <;> split <;> simp
@[simp] theorem Core.ringTake_descRead (k : Core) (e : Engine) (r : Ring) : (k.ringTake e r).descRead = k.descRead := by
  simp only [Core.ringTake, Core.setEng_descRead]; split <;> split <;> simp
@[simp] theorem Core.ringTake_cardRead (k : Core) (e : Engine) (r : Ring) : (k.ringTake e r).cardRead = k.cardRead := by
  simp only [Core.ringTake, Core.setEng_cardRead]; split <;> split <;> simp
@[simp] theorem Core.ringTake_spad (k : Core) (e : Engine) (r : Ring) : (k.ringTake e r).spad = k.spad := by
  simp only [Core.ringTake, Core.setEng_spad]; split <;> split <;> simp
@[simp] theorem Core.ringTake_cards (k : Core) (e : Engine) (r : Ring) : (k.ringTake e r).cards = k.cards := by
  simp only [Core.ringTake, Core.setEng_cards]; split <;> split <;> simp
@[simp] theorem Core.ringTake_ticket (k : Core) (e : Engine) (r : Ring) : (k.ringTake e r).ticket = k.ticket := by
  simp only [Core.ringTake, Core.setEng_ticket]; split <;> split <;> simp
@[simp] theorem Core.ringTake_sbNext (k : Core) (e : Engine) (r : Ring) : (k.ringTake e r).sbNext = k.sbNext := by
  simp only [Core.ringTake, Core.setEng_sbNext]; split <;> split <;> simp
@[simp] theorem Core.ringTake_claims (k : Core) (e : Engine) (r : Ring) : (k.ringTake e r).claims = k.claims := by
  simp only [Core.ringTake, Core.setEng_claims]; split <;> split <;> simp
@[simp] theorem Core.ringTake_rsigs (k : Core) (e : Engine) (r : Ring) : (k.ringTake e r).rsigs = k.rsigs := by
  simp only [Core.ringTake, Core.setEng_rsigs]; split <;> split <;> simp
@[simp] theorem Core.ringTake_slip (k : Core) (e : Engine) (r : Ring) : (k.ringTake e r).slip = k.slip := by
  simp only [Core.ringTake, Core.setEng_slip]; split <;> split <;> simp
@[simp] theorem Core.ringTake_preq (k : Core) (e : Engine) (r : Ring) : (k.ringTake e r).preq = k.preq := by
  simp only [Core.ringTake, Core.setEng_preq]; split <;> split <;> simp
@[simp] theorem Core.ringTake_region (k : Core) (e : Engine) (r : Ring) : (k.ringTake e r).region = k.region := by
  simp only [Core.ringTake, Core.setEng_region]; split <;> split <;> simp
@[simp] theorem Core.ringTake_node (k : Core) (e : Engine) (r : Ring) : (k.ringTake e r).node = k.node := by
  simp only [Core.ringTake, Core.setEng_node]; split <;> split <;> simp
@[simp] theorem Core.ringTake_gen (k : Core) (e : Engine) (r : Ring) : (k.ringTake e r).gen = k.gen := by
  simp only [Core.ringTake, Core.setEng_gen]; split <;> split <;> simp
@[simp] theorem Core.ringTake_gangSize (k : Core) (e : Engine) (r : Ring) : (k.ringTake e r).gangSize = k.gangSize := by
  simp only [Core.ringTake, Core.setEng_gangSize]; split <;> split <;> simp
@[simp] theorem Core.ringTake_gangRank (k : Core) (e : Engine) (r : Ring) : (k.ringTake e r).gangRank = k.gangRank := by
  simp only [Core.ringTake, Core.setEng_gangRank]; split <;> split <;> simp
@[simp] theorem Core.ringTake_attempt (k : Core) (e : Engine) (r : Ring) : (k.ringTake e r).attempt = k.attempt := by
  simp only [Core.ringTake, Core.setEng_attempt]; split <;> split <;> simp
@[simp] theorem Core.ringTake_dbgEn (k : Core) (e : Engine) (r : Ring) : (k.ringTake e r).dbgEn = k.dbgEn := by
  simp only [Core.ringTake, Core.setEng_dbgEn]; split <;> split <;> simp
@[simp] theorem Core.ringTake_dbgLat (k : Core) (e : Engine) (r : Ring) : (k.ringTake e r).dbgLat = k.dbgLat := by
  simp only [Core.ringTake, Core.setEng_dbgLat]; split <;> split <;> simp
@[simp] theorem Core.ringTake_mon (k : Core) (e : Engine) (r : Ring) : (k.ringTake e r).mon = k.mon := by
  simp only [Core.ringTake, Core.setEng_mon]; split <;> split <;> simp
@[simp] theorem Core.ringTake_dbgvec (k : Core) (e : Engine) (r : Ring) : (k.ringTake e r).dbgvec = k.dbgvec := by
  simp only [Core.ringTake, Core.setEng_dbgvec]; split <;> split <;> simp
@[simp] theorem Core.ringTake_epc (k : Core) (e : Engine) (r : Ring) : (k.ringTake e r).epc = k.epc := by
  simp only [Core.ringTake, Core.setEng_epc]; split <;> split <;> simp
@[simp] theorem Core.ringTake_ecause (k : Core) (e : Engine) (r : Ring) : (k.ringTake e r).ecause = k.ecause := by
  simp only [Core.ringTake, Core.setEng_ecause]; split <;> split <;> simp
@[simp] theorem Core.ringTake_edetail (k : Core) (e : Engine) (r : Ring) : (k.ringTake e r).edetail = k.edetail := by
  simp only [Core.ringTake, Core.setEng_edetail]; split <;> split <;> simp
@[simp] theorem Core.ringTake_monSaved (k : Core) (e : Engine) (r : Ring) : (k.ringTake e r).monSaved = k.monSaved := by
  simp only [Core.ringTake, Core.setEng_monSaved]; split <;> split <;> simp
@[simp] theorem Core.ringTake_entry (k : Core) (e : Engine) (r : Ring) : (k.ringTake e r).entry = k.entry := by
  simp only [Core.ringTake, Core.setEng_entry]; split <;> split <;> simp
@[simp] theorem Core.ringTake_held (k : Core) (e : Engine) (r : Ring) : (k.ringTake e r).held = k.held := by
  simp only [Core.ringTake, Core.setEng_held]; split <;> split <;> simp
@[simp] theorem Core.ringTake_dscr0 (k : Core) (e : Engine) (r : Ring) : (k.ringTake e r).dscr0 = k.dscr0 := by
  simp only [Core.ringTake, Core.setEng_dscr0]; split <;> split <;> simp
@[simp] theorem Core.ringTake_dscr1 (k : Core) (e : Engine) (r : Ring) : (k.ringTake e r).dscr1 = k.dscr1 := by
  simp only [Core.ringTake, Core.setEng_dscr1]; split <;> split <;> simp
@[simp] theorem Core.ringTake_cycle (k : Core) (e : Engine) (r : Ring) : (k.ringTake e r).cycle = k.cycle := by
  simp only [Core.ringTake, Core.setEng_cycle]; split <;> split <;> simp
@[simp] theorem Core.ringTake_phint (k : Core) (e : Engine) (r : Ring) : (k.ringTake e r).phint = k.phint := by
  simp only [Core.ringTake, Core.setEng_phint]; split <;> split <;> simp
@[simp] theorem Core.ringTake_causes (k : Core) (e : Engine) (r : Ring) : (k.ringTake e r).causes = k.causes := by
  simp only [Core.ringTake, Core.setEng_causes]; split <;> split <;> simp
@[simp] theorem Core.ringTake_stopReq (k : Core) (e : Engine) (r : Ring) : (k.ringTake e r).stopReq = k.stopReq := by
  simp only [Core.ringTake, Core.setEng_stopReq]; split <;> split <;> simp
@[simp] theorem Core.ringTake_forced (k : Core) (e : Engine) (r : Ring) : (k.ringTake e r).forced = k.forced := by
  simp only [Core.ringTake, Core.setEng_forced]; split <;> split <;> simp
@[simp] theorem Core.ringTake_repSeen (k : Core) (e : Engine) (r : Ring) : (k.ringTake e r).repSeen = k.repSeen := by
  simp only [Core.ringTake, Core.setEng_repSeen]; split <;> split <;> simp
@[simp] theorem Core.ringTake_repFloor (k : Core) (e : Engine) (r : Ring) : (k.ringTake e r).repFloor = k.repFloor := by
  simp only [Core.ringTake, Core.setEng_repFloor]; split <;> split <;> simp
@[simp] theorem Core.ringTake_repAcq (k : Core) (e : Engine) (r : Ring) : (k.ringTake e r).repAcq = k.repAcq := by
  simp only [Core.ringTake, Core.setEng_repAcq]; split <;> split <;> simp

@[simp] theorem Core.popToken_eng_pc (k : Core) (p : Engine) (a : Bool) (e : Engine) : ((k.popToken p a).eng e).pc = (k.eng e).pc := by
  cases a <;> cases p <;> cases e <;> rfl
@[simp] theorem Core.popToken_eng_pos (k : Core) (p : Engine) (a : Bool) (e : Engine) : ((k.popToken p a).eng e).pos = (k.eng e).pos := by
  cases a <;> cases p <;> cases e <;> rfl
@[simp] theorem Core.popToken_eng_ended (k : Core) (p : Engine) (a : Bool) (e : Engine) : ((k.popToken p a).eng e).ended = (k.eng e).ended := by
  cases a <;> cases p <;> cases e <;> rfl
@[simp] theorem Core.popToken_eng_stopped (k : Core) (p : Engine) (a : Bool) (e : Engine) : ((k.popToken p a).eng e).stopped = (k.eng e).stopped := by
  cases a <;> cases p <;> cases e <;> rfl
@[simp] theorem Core.popToken_eng_atSync (k : Core) (p : Engine) (a : Bool) (e : Engine) : ((k.popToken p a).eng e).atSync = (k.eng e).atSync := by
  cases a <;> cases p <;> cases e <;> rfl
@[simp] theorem Core.popToken_eng_b (k : Core) (p : Engine) (a : Bool) (e : Engine) : ((k.popToken p a).eng e).b = (k.eng e).b := by
  cases a <;> cases p <;> cases e <;> rfl
@[simp] theorem Core.popToken_eng_loops (k : Core) (p : Engine) (a : Bool) (e : Engine) : ((k.popToken p a).eng e).loops = (k.eng e).loops := by
  cases a <;> cases p <;> cases e <;> rfl
@[simp] theorem Core.popToken_eng_rets (k : Core) (p : Engine) (a : Bool) (e : Engine) : ((k.popToken p a).eng e).rets = (k.eng e).rets := by
  cases a <;> cases p <;> cases e <;> rfl
@[simp] theorem Core.popToken_eng_ext (k : Core) (p : Engine) (a : Bool) (e : Engine) : ((k.popToken p a).eng e).ext = (k.eng e).ext := by
  cases a <;> cases p <;> cases e <;> rfl
@[simp] theorem Core.popToken_eng_extB (k : Core) (p : Engine) (a : Bool) (e : Engine) : ((k.popToken p a).eng e).extB = (k.eng e).extB := by
  cases a <;> cases p <;> cases e <;> rfl
@[simp] theorem Core.popToken_eng_extEdge (k : Core) (p : Engine) (a : Bool) (e : Engine) : ((k.popToken p a).eng e).extEdge = (k.eng e).extEdge := by
  cases a <;> cases p <;> cases e <;> rfl
@[simp] theorem Core.popToken_eng_decs (k : Core) (p : Engine) (a : Bool) (e : Engine) : ((k.popToken p a).eng e).decs = (k.eng e).decs := by
  cases a <;> cases p <;> cases e <;> rfl
@[simp] theorem Core.popToken_eng_fstat (k : Core) (p : Engine) (a : Bool) (e : Engine) : ((k.popToken p a).eng e).fstat = (k.eng e).fstat := by
  cases a <;> cases p <;> cases e <;> rfl
@[simp] theorem Core.popToken_eng_slot (k : Core) (p : Engine) (a : Bool) (e : Engine) : ((k.popToken p a).eng e).slot = (k.eng e).slot := by
  cases a <;> cases p <;> cases e <;> rfl
@[simp] theorem Core.popToken_eng_pend (k : Core) (p : Engine) (a : Bool) (e : Engine) : ((k.popToken p a).eng e).pend = (k.eng e).pend := by
  cases a <;> cases p <;> cases e <;> rfl
@[simp] theorem Core.popToken_eng_latOnce (k : Core) (p : Engine) (a : Bool) (e : Engine) : ((k.popToken p a).eng e).latOnce = (k.eng e).latOnce := by
  cases a <;> cases p <;> cases e <;> rfl
@[simp] theorem Core.popToken_eng_waitMet (k : Core) (p : Engine) (a : Bool) (e : Engine) : ((k.popToken p a).eng e).waitMet = (k.eng e).waitMet := by
  cases a <;> cases p <;> cases e <;> rfl
@[simp] theorem Core.popToken_eng_early (k : Core) (p : Engine) (a : Bool) (e : Engine) : ((k.popToken p a).eng e).early = (k.eng e).early := by
  cases a <;> cases p <;> cases e <;> rfl
@[simp] theorem Core.popToken_eng_barw (k : Core) (p : Engine) (a : Bool) (e : Engine) : ((k.popToken p a).eng e).barw = (k.eng e).barw := by
  cases a <;> cases p <;> cases e <;> rfl
@[simp] theorem Core.popToken_eng_mark (k : Core) (p : Engine) (a : Bool) (e : Engine) : ((k.popToken p a).eng e).mark = (k.eng e).mark := by
  cases a <;> cases p <;> cases e <;> rfl
@[simp] theorem Core.popToken_eng_ringPopped (k : Core) (p : Engine) (a : Bool) (e : Engine) : ((k.popToken p a).eng e).ringPopped = (k.eng e).ringPopped := by
  cases a <;> cases p <;> cases e <;> rfl
@[simp] theorem Core.ringTake_eng_pc (k : Core) (e d : Engine) (r : Ring) : ((k.ringTake e r).eng d).pc = (k.eng d).pc := by
  by_cases h : d = e
  · subst h; simp only [Core.ringTake, Core.eng_setEng]; split <;> split <;> simp
  · simp only [Core.ringTake, Core.eng_setEng_ne _ _ _ _ h]; split <;> split <;> simp
@[simp] theorem Core.ringTake_eng_pos (k : Core) (e d : Engine) (r : Ring) : ((k.ringTake e r).eng d).pos = (k.eng d).pos := by
  by_cases h : d = e
  · subst h; simp only [Core.ringTake, Core.eng_setEng]; split <;> split <;> simp
  · simp only [Core.ringTake, Core.eng_setEng_ne _ _ _ _ h]; split <;> split <;> simp
@[simp] theorem Core.ringTake_eng_ended (k : Core) (e d : Engine) (r : Ring) : ((k.ringTake e r).eng d).ended = (k.eng d).ended := by
  by_cases h : d = e
  · subst h; simp only [Core.ringTake, Core.eng_setEng]; split <;> split <;> simp
  · simp only [Core.ringTake, Core.eng_setEng_ne _ _ _ _ h]; split <;> split <;> simp
@[simp] theorem Core.ringTake_eng_stopped (k : Core) (e d : Engine) (r : Ring) : ((k.ringTake e r).eng d).stopped = (k.eng d).stopped := by
  by_cases h : d = e
  · subst h; simp only [Core.ringTake, Core.eng_setEng]; split <;> split <;> simp
  · simp only [Core.ringTake, Core.eng_setEng_ne _ _ _ _ h]; split <;> split <;> simp
@[simp] theorem Core.ringTake_eng_atSync (k : Core) (e d : Engine) (r : Ring) : ((k.ringTake e r).eng d).atSync = (k.eng d).atSync := by
  by_cases h : d = e
  · subst h; simp only [Core.ringTake, Core.eng_setEng]; split <;> split <;> simp
  · simp only [Core.ringTake, Core.eng_setEng_ne _ _ _ _ h]; split <;> split <;> simp
@[simp] theorem Core.ringTake_eng_b (k : Core) (e d : Engine) (r : Ring) : ((k.ringTake e r).eng d).b = (k.eng d).b := by
  by_cases h : d = e
  · subst h; simp only [Core.ringTake, Core.eng_setEng]; split <;> split <;> simp
  · simp only [Core.ringTake, Core.eng_setEng_ne _ _ _ _ h]; split <;> split <;> simp
@[simp] theorem Core.ringTake_eng_loops (k : Core) (e d : Engine) (r : Ring) : ((k.ringTake e r).eng d).loops = (k.eng d).loops := by
  by_cases h : d = e
  · subst h; simp only [Core.ringTake, Core.eng_setEng]; split <;> split <;> simp
  · simp only [Core.ringTake, Core.eng_setEng_ne _ _ _ _ h]; split <;> split <;> simp
@[simp] theorem Core.ringTake_eng_rets (k : Core) (e d : Engine) (r : Ring) : ((k.ringTake e r).eng d).rets = (k.eng d).rets := by
  by_cases h : d = e
  · subst h; simp only [Core.ringTake, Core.eng_setEng]; split <;> split <;> simp
  · simp only [Core.ringTake, Core.eng_setEng_ne _ _ _ _ h]; split <;> split <;> simp
@[simp] theorem Core.ringTake_eng_ext (k : Core) (e d : Engine) (r : Ring) : ((k.ringTake e r).eng d).ext = (k.eng d).ext := by
  by_cases h : d = e
  · subst h; simp only [Core.ringTake, Core.eng_setEng]; split <;> split <;> simp
  · simp only [Core.ringTake, Core.eng_setEng_ne _ _ _ _ h]; split <;> split <;> simp
@[simp] theorem Core.ringTake_eng_extB (k : Core) (e d : Engine) (r : Ring) : ((k.ringTake e r).eng d).extB = (k.eng d).extB := by
  by_cases h : d = e
  · subst h; simp only [Core.ringTake, Core.eng_setEng]; split <;> split <;> simp
  · simp only [Core.ringTake, Core.eng_setEng_ne _ _ _ _ h]; split <;> split <;> simp
@[simp] theorem Core.ringTake_eng_extEdge (k : Core) (e d : Engine) (r : Ring) : ((k.ringTake e r).eng d).extEdge = (k.eng d).extEdge := by
  by_cases h : d = e
  · subst h; simp only [Core.ringTake, Core.eng_setEng]; split <;> split <;> simp
  · simp only [Core.ringTake, Core.eng_setEng_ne _ _ _ _ h]; split <;> split <;> simp
@[simp] theorem Core.ringTake_eng_decs (k : Core) (e d : Engine) (r : Ring) : ((k.ringTake e r).eng d).decs = (k.eng d).decs := by
  by_cases h : d = e
  · subst h; simp only [Core.ringTake, Core.eng_setEng]; split <;> split <;> simp
  · simp only [Core.ringTake, Core.eng_setEng_ne _ _ _ _ h]; split <;> split <;> simp
@[simp] theorem Core.ringTake_eng_fstat (k : Core) (e d : Engine) (r : Ring) : ((k.ringTake e r).eng d).fstat = (k.eng d).fstat := by
  by_cases h : d = e
  · subst h; simp only [Core.ringTake, Core.eng_setEng]; split <;> split <;> simp
  · simp only [Core.ringTake, Core.eng_setEng_ne _ _ _ _ h]; split <;> split <;> simp
@[simp] theorem Core.ringTake_eng_slot (k : Core) (e d : Engine) (r : Ring) : ((k.ringTake e r).eng d).slot = (k.eng d).slot := by
  by_cases h : d = e
  · subst h; simp only [Core.ringTake, Core.eng_setEng]; split <;> split <;> simp
  · simp only [Core.ringTake, Core.eng_setEng_ne _ _ _ _ h]; split <;> split <;> simp
@[simp] theorem Core.ringTake_eng_pend (k : Core) (e d : Engine) (r : Ring) : ((k.ringTake e r).eng d).pend = (k.eng d).pend := by
  by_cases h : d = e
  · subst h; simp only [Core.ringTake, Core.eng_setEng]; split <;> split <;> simp
  · simp only [Core.ringTake, Core.eng_setEng_ne _ _ _ _ h]; split <;> split <;> simp
@[simp] theorem Core.ringTake_eng_latOnce (k : Core) (e d : Engine) (r : Ring) : ((k.ringTake e r).eng d).latOnce = (k.eng d).latOnce := by
  by_cases h : d = e
  · subst h; simp only [Core.ringTake, Core.eng_setEng]; split <;> split <;> simp
  · simp only [Core.ringTake, Core.eng_setEng_ne _ _ _ _ h]; split <;> split <;> simp
@[simp] theorem Core.ringTake_eng_waitMet (k : Core) (e d : Engine) (r : Ring) : ((k.ringTake e r).eng d).waitMet = (k.eng d).waitMet := by
  by_cases h : d = e
  · subst h; simp only [Core.ringTake, Core.eng_setEng]; split <;> split <;> simp
  · simp only [Core.ringTake, Core.eng_setEng_ne _ _ _ _ h]; split <;> split <;> simp
@[simp] theorem Core.ringTake_eng_early (k : Core) (e d : Engine) (r : Ring) : ((k.ringTake e r).eng d).early = (k.eng d).early := by
  by_cases h : d = e
  · subst h; simp only [Core.ringTake, Core.eng_setEng]; split <;> split <;> simp
  · simp only [Core.ringTake, Core.eng_setEng_ne _ _ _ _ h]; split <;> split <;> simp
@[simp] theorem Core.ringTake_eng_barw (k : Core) (e d : Engine) (r : Ring) : ((k.ringTake e r).eng d).barw = (k.eng d).barw := by
  by_cases h : d = e
  · subst h; simp only [Core.ringTake, Core.eng_setEng]; split <;> split <;> simp
  · simp only [Core.ringTake, Core.eng_setEng_ne _ _ _ _ h]; split <;> split <;> simp
@[simp] theorem Core.ringTake_eng_mark (k : Core) (e d : Engine) (r : Ring) : ((k.ringTake e r).eng d).mark = (k.eng d).mark := by
  by_cases h : d = e
  · subst h; simp only [Core.ringTake, Core.eng_setEng]; split <;> split <;> simp
  · simp only [Core.ringTake, Core.eng_setEng_ne _ _ _ _ h]; split <;> split <;> simp
@[simp] theorem Core.ringTake_eng_ringPopped (k : Core) (e d : Engine) (r : Ring) : ((k.ringTake e r).eng d).ringPopped = (k.eng d).ringPopped := by
  by_cases h : d = e
  · subst h; simp only [Core.ringTake, Core.eng_setEng]; split <;> split <;> simp
  · simp only [Core.ringTake, Core.eng_setEng_ne _ _ _ _ h]; split <;> split <;> simp

theorem State.me_rung (s : State) (h : s.cur.core < 96) :
    s.rung.me = if s.unit.ringDone then s.me else s.me.ringTake s.cur.eng s.ring := by
  unfold State.rung
  split
  · rfl
  · exact State.me_setCore s _ h

theorem State.rung_me_mode (s : State) (h : s.cur.core < 96) : s.rung.me.mode = s.me.mode := by
  rw [State.me_rung s h]; split <;> simp
theorem State.rung_me_gang (s : State) (h : s.cur.core < 96) : s.rung.me.gang = s.me.gang := by
  rw [State.me_rung s h]; split <;> simp
theorem State.rung_me_lastCtx (s : State) (h : s.cur.core < 96) : s.rung.me.lastCtx = s.me.lastCtx := by
  rw [State.me_rung s h]; split <;> simp
theorem State.rung_me_text (s : State) (h : s.cur.core < 96) : s.rung.me.text = s.me.text := by
  rw [State.me_rung s h]; split <;> simp
theorem State.rung_me_textLen (s : State) (h : s.cur.core < 96) : s.rung.me.textLen = s.me.textLen := by
  rw [State.me_rung s h]; split <;> simp
theorem State.rung_me_win (s : State) (h : s.cur.core < 96) : s.rung.me.win = s.me.win := by
  rw [State.me_rung s h]; split <;> simp
theorem State.rung_me_winLen (s : State) (h : s.cur.core < 96) : s.rung.me.winLen = s.me.winLen := by
  rw [State.me_rung s h]; split <;> simp
theorem State.rung_me_s (s : State) (h : s.cur.core < 96) : s.rung.me.s = s.me.s := by
  rw [State.me_rung s h]; split <;> simp
theorem State.rung_me_f (s : State) (h : s.cur.core < 96) : s.rung.me.f = s.me.f := by
  rw [State.me_rung s h]; split <;> simp
theorem State.rung_me_a (s : State) (h : s.cur.core < 96) : s.rung.me.a = s.me.a := by
  rw [State.me_rung s h]; split <;> simp
theorem State.rung_me_x (s : State) (h : s.cur.core < 96) : s.rung.me.x = s.me.x := by
  rw [State.me_rung s h]; split <;> simp
theorem State.rung_me_k (s : State) (h : s.cur.core < 96) : s.rung.me.k = s.me.k := by
  rw [State.me_rung s h]; split <;> simp
theorem State.rung_me_h (s : State) (h : s.cur.core < 96) : s.rung.me.h = s.me.h := by
  rw [State.me_rung s h]; split <;> simp
theorem State.rung_me_v (s : State) (h : s.cur.core < 96) : s.rung.me.v = s.me.v := by
  rw [State.me_rung s h]; split <;> simp
theorem State.rung_me_m (s : State) (h : s.cur.core < 96) : s.rung.me.m = s.me.m := by
  rw [State.me_rung s h]; split <;> simp
theorem State.rung_me_iq (s : State) (h : s.cur.core < 96) : s.rung.me.iq = s.me.iq := by
  rw [State.me_rung s h]; split <;> simp
theorem State.rung_me_oq (s : State) (h : s.cur.core < 96) : s.rung.me.oq = s.me.oq := by
  rw [State.me_rung s h]; split <;> simp
theorem State.rung_me_iqWant (s : State) (h : s.cur.core < 96) : s.rung.me.iqWant = s.me.iqWant := by
  rw [State.me_rung s h]; split <;> simp
theorem State.rung_me_vcfg (s : State) (h : s.cur.core < 96) : s.rung.me.vcfg = s.me.vcfg := by
  rw [State.me_rung s h]; split <;> simp
theorem State.rung_me_seed (s : State) (h : s.cur.core < 96) : s.rung.me.seed = s.me.seed := by
  rw [State.me_rung s h]; split <;> simp
theorem State.rung_me_step (s : State) (h : s.cur.core < 96) : s.rung.me.step = s.me.step := by
  rw [State.me_rung s h]; split <;> simp
theorem State.rung_me_idx (s : State) (h : s.cur.core < 96) : s.rung.me.idx = s.me.idx := by
  rw [State.me_rung s h]; split <;> simp
theorem State.rung_me_z (s : State) (h : s.cur.core < 96) : s.rung.me.z = s.me.z := by
  rw [State.me_rung s h]; split <;> simp
theorem State.rung_me_w (s : State) (h : s.cur.core < 96) : s.rung.me.w = s.me.w := by
  rw [State.me_rung s h]; split <;> simp
theorem State.rung_me_msel (s : State) (h : s.cur.core < 96) : s.rung.me.msel = s.me.msel := by
  rw [State.me_rung s h]; split <;> simp
theorem State.rung_me_ft (s : State) (h : s.cur.core < 96) : s.rung.me.ft = s.me.ft := by
  rw [State.me_rung s h]; split <;> simp
theorem State.rung_me_stepq (s : State) (h : s.cur.core < 96) : s.rung.me.stepq = s.me.stepq := by
  rw [State.me_rung s h]; split <;> simp
theorem State.rung_me_chain (s : State) (h : s.cur.core < 96) : s.rung.me.chain = s.me.chain := by
  rw [State.me_rung s h]; split <;> simp
theorem State.rung_me_stage (s : State) (h : s.cur.core < 96) : s.rung.me.stage = s.me.stage := by
  rw [State.me_rung s h]; split <;> simp
theorem State.rung_me_sem (s : State) (h : s.cur.core < 96) : s.rung.me.sem = s.me.sem := by
  rw [State.me_rung s h]; split <;> simp
theorem State.rung_me_semWaits (s : State) (h : s.cur.core < 96) : s.rung.me.semWaits = s.me.semWaits := by
  rw [State.me_rung s h]; split <;> simp
theorem State.rung_me_semIncs (s : State) (h : s.cur.core < 96) : s.rung.me.semIncs = s.me.semIncs := by
  rw [State.me_rung s h]; split <;> simp
theorem State.rung_me_semSeen (s : State) (h : s.cur.core < 96) : s.rung.me.semSeen = s.me.semSeen := by
  rw [State.me_rung s h]; split <;> simp
theorem State.rung_me_ftLog (s : State) (h : s.cur.core < 96) : s.rung.me.ftLog = s.me.ftLog := by
  rw [State.me_rung s h]; split <;> simp
theorem State.rung_me_fifo (s : State) (h : s.cur.core < 96) : s.rung.me.fifo = s.me.fifo := by
  rw [State.me_rung s h]; split <;> simp
theorem State.rung_me_streams (s : State) (h : s.cur.core < 96) : s.rung.me.streams = s.me.streams := by
  rw [State.me_rung s h]; split <;> simp
theorem State.rung_me_rings (s : State) (h : s.cur.core < 96) : s.rung.me.rings = s.me.rings := by
  rw [State.me_rung s h]; split <;> simp
theorem State.rung_me_unfold (s : State) (h : s.cur.core < 96) : s.rung.me.unfold = s.me.unfold := by
  rw [State.me_rung s h]; split <;> simp
theorem State.rung_me_descRead (s : State) (h : s.cur.core < 96) : s.rung.me.descRead = s.me.descRead := by
  rw [State.me_rung s h]; split <;> simp
theorem State.rung_me_cardRead (s : State) (h : s.cur.core < 96) : s.rung.me.cardRead = s.me.cardRead := by
  rw [State.me_rung s h]; split <;> simp
theorem State.rung_me_spad (s : State) (h : s.cur.core < 96) : s.rung.me.spad = s.me.spad := by
  rw [State.me_rung s h]; split <;> simp
theorem State.rung_me_cards (s : State) (h : s.cur.core < 96) : s.rung.me.cards = s.me.cards := by
  rw [State.me_rung s h]; split <;> simp
theorem State.rung_me_ticket (s : State) (h : s.cur.core < 96) : s.rung.me.ticket = s.me.ticket := by
  rw [State.me_rung s h]; split <;> simp
theorem State.rung_me_sbNext (s : State) (h : s.cur.core < 96) : s.rung.me.sbNext = s.me.sbNext := by
  rw [State.me_rung s h]; split <;> simp
theorem State.rung_me_claims (s : State) (h : s.cur.core < 96) : s.rung.me.claims = s.me.claims := by
  rw [State.me_rung s h]; split <;> simp
theorem State.rung_me_rsigs (s : State) (h : s.cur.core < 96) : s.rung.me.rsigs = s.me.rsigs := by
  rw [State.me_rung s h]; split <;> simp
theorem State.rung_me_slip (s : State) (h : s.cur.core < 96) : s.rung.me.slip = s.me.slip := by
  rw [State.me_rung s h]; split <;> simp
theorem State.rung_me_preq (s : State) (h : s.cur.core < 96) : s.rung.me.preq = s.me.preq := by
  rw [State.me_rung s h]; split <;> simp
theorem State.rung_me_region (s : State) (h : s.cur.core < 96) : s.rung.me.region = s.me.region := by
  rw [State.me_rung s h]; split <;> simp
theorem State.rung_me_node (s : State) (h : s.cur.core < 96) : s.rung.me.node = s.me.node := by
  rw [State.me_rung s h]; split <;> simp
theorem State.rung_me_gen (s : State) (h : s.cur.core < 96) : s.rung.me.gen = s.me.gen := by
  rw [State.me_rung s h]; split <;> simp
theorem State.rung_me_gangSize (s : State) (h : s.cur.core < 96) : s.rung.me.gangSize = s.me.gangSize := by
  rw [State.me_rung s h]; split <;> simp
theorem State.rung_me_gangRank (s : State) (h : s.cur.core < 96) : s.rung.me.gangRank = s.me.gangRank := by
  rw [State.me_rung s h]; split <;> simp
theorem State.rung_me_attempt (s : State) (h : s.cur.core < 96) : s.rung.me.attempt = s.me.attempt := by
  rw [State.me_rung s h]; split <;> simp
theorem State.rung_me_dbgEn (s : State) (h : s.cur.core < 96) : s.rung.me.dbgEn = s.me.dbgEn := by
  rw [State.me_rung s h]; split <;> simp
theorem State.rung_me_dbgLat (s : State) (h : s.cur.core < 96) : s.rung.me.dbgLat = s.me.dbgLat := by
  rw [State.me_rung s h]; split <;> simp
theorem State.rung_me_mon (s : State) (h : s.cur.core < 96) : s.rung.me.mon = s.me.mon := by
  rw [State.me_rung s h]; split <;> simp
theorem State.rung_me_dbgvec (s : State) (h : s.cur.core < 96) : s.rung.me.dbgvec = s.me.dbgvec := by
  rw [State.me_rung s h]; split <;> simp
theorem State.rung_me_epc (s : State) (h : s.cur.core < 96) : s.rung.me.epc = s.me.epc := by
  rw [State.me_rung s h]; split <;> simp
theorem State.rung_me_ecause (s : State) (h : s.cur.core < 96) : s.rung.me.ecause = s.me.ecause := by
  rw [State.me_rung s h]; split <;> simp
theorem State.rung_me_edetail (s : State) (h : s.cur.core < 96) : s.rung.me.edetail = s.me.edetail := by
  rw [State.me_rung s h]; split <;> simp
theorem State.rung_me_monSaved (s : State) (h : s.cur.core < 96) : s.rung.me.monSaved = s.me.monSaved := by
  rw [State.me_rung s h]; split <;> simp
theorem State.rung_me_entry (s : State) (h : s.cur.core < 96) : s.rung.me.entry = s.me.entry := by
  rw [State.me_rung s h]; split <;> simp
theorem State.rung_me_held (s : State) (h : s.cur.core < 96) : s.rung.me.held = s.me.held := by
  rw [State.me_rung s h]; split <;> simp
theorem State.rung_me_dscr0 (s : State) (h : s.cur.core < 96) : s.rung.me.dscr0 = s.me.dscr0 := by
  rw [State.me_rung s h]; split <;> simp
theorem State.rung_me_dscr1 (s : State) (h : s.cur.core < 96) : s.rung.me.dscr1 = s.me.dscr1 := by
  rw [State.me_rung s h]; split <;> simp
theorem State.rung_me_cycle (s : State) (h : s.cur.core < 96) : s.rung.me.cycle = s.me.cycle := by
  rw [State.me_rung s h]; split <;> simp
theorem State.rung_me_phint (s : State) (h : s.cur.core < 96) : s.rung.me.phint = s.me.phint := by
  rw [State.me_rung s h]; split <;> simp
theorem State.rung_me_causes (s : State) (h : s.cur.core < 96) : s.rung.me.causes = s.me.causes := by
  rw [State.me_rung s h]; split <;> simp
theorem State.rung_me_stopReq (s : State) (h : s.cur.core < 96) : s.rung.me.stopReq = s.me.stopReq := by
  rw [State.me_rung s h]; split <;> simp
theorem State.rung_me_forced (s : State) (h : s.cur.core < 96) : s.rung.me.forced = s.me.forced := by
  rw [State.me_rung s h]; split <;> simp
theorem State.rung_me_repSeen (s : State) (h : s.cur.core < 96) : s.rung.me.repSeen = s.me.repSeen := by
  rw [State.me_rung s h]; split <;> simp
theorem State.rung_me_repFloor (s : State) (h : s.cur.core < 96) : s.rung.me.repFloor = s.me.repFloor := by
  rw [State.me_rung s h]; split <;> simp
theorem State.rung_me_repAcq (s : State) (h : s.cur.core < 96) : s.rung.me.repAcq = s.me.repAcq := by
  rw [State.me_rung s h]; split <;> simp
theorem State.rung_eng_pc (s : State) (h : s.cur.core < 96) (e : Engine) : (s.rung.me.eng e).pc = (s.me.eng e).pc := by
  rw [State.me_rung s h]; split <;> simp
theorem State.rung_eng_pos (s : State) (h : s.cur.core < 96) (e : Engine) : (s.rung.me.eng e).pos = (s.me.eng e).pos := by
  rw [State.me_rung s h]; split <;> simp
theorem State.rung_eng_ended (s : State) (h : s.cur.core < 96) (e : Engine) : (s.rung.me.eng e).ended = (s.me.eng e).ended := by
  rw [State.me_rung s h]; split <;> simp
theorem State.rung_eng_stopped (s : State) (h : s.cur.core < 96) (e : Engine) : (s.rung.me.eng e).stopped = (s.me.eng e).stopped := by
  rw [State.me_rung s h]; split <;> simp
theorem State.rung_eng_atSync (s : State) (h : s.cur.core < 96) (e : Engine) : (s.rung.me.eng e).atSync = (s.me.eng e).atSync := by
  rw [State.me_rung s h]; split <;> simp
theorem State.rung_eng_b (s : State) (h : s.cur.core < 96) (e : Engine) : (s.rung.me.eng e).b = (s.me.eng e).b := by
  rw [State.me_rung s h]; split <;> simp
theorem State.rung_eng_loops (s : State) (h : s.cur.core < 96) (e : Engine) : (s.rung.me.eng e).loops = (s.me.eng e).loops := by
  rw [State.me_rung s h]; split <;> simp
theorem State.rung_eng_rets (s : State) (h : s.cur.core < 96) (e : Engine) : (s.rung.me.eng e).rets = (s.me.eng e).rets := by
  rw [State.me_rung s h]; split <;> simp
theorem State.rung_eng_ext (s : State) (h : s.cur.core < 96) (e : Engine) : (s.rung.me.eng e).ext = (s.me.eng e).ext := by
  rw [State.me_rung s h]; split <;> simp
theorem State.rung_eng_extB (s : State) (h : s.cur.core < 96) (e : Engine) : (s.rung.me.eng e).extB = (s.me.eng e).extB := by
  rw [State.me_rung s h]; split <;> simp
theorem State.rung_eng_extEdge (s : State) (h : s.cur.core < 96) (e : Engine) : (s.rung.me.eng e).extEdge = (s.me.eng e).extEdge := by
  rw [State.me_rung s h]; split <;> simp
theorem State.rung_eng_decs (s : State) (h : s.cur.core < 96) (e : Engine) : (s.rung.me.eng e).decs = (s.me.eng e).decs := by
  rw [State.me_rung s h]; split <;> simp
theorem State.rung_eng_fstat (s : State) (h : s.cur.core < 96) (e : Engine) : (s.rung.me.eng e).fstat = (s.me.eng e).fstat := by
  rw [State.me_rung s h]; split <;> simp
theorem State.rung_eng_slot (s : State) (h : s.cur.core < 96) (e : Engine) : (s.rung.me.eng e).slot = (s.me.eng e).slot := by
  rw [State.me_rung s h]; split <;> simp
theorem State.rung_eng_pend (s : State) (h : s.cur.core < 96) (e : Engine) : (s.rung.me.eng e).pend = (s.me.eng e).pend := by
  rw [State.me_rung s h]; split <;> simp
theorem State.rung_eng_latOnce (s : State) (h : s.cur.core < 96) (e : Engine) : (s.rung.me.eng e).latOnce = (s.me.eng e).latOnce := by
  rw [State.me_rung s h]; split <;> simp
theorem State.rung_eng_waitMet (s : State) (h : s.cur.core < 96) (e : Engine) : (s.rung.me.eng e).waitMet = (s.me.eng e).waitMet := by
  rw [State.me_rung s h]; split <;> simp
theorem State.rung_eng_early (s : State) (h : s.cur.core < 96) (e : Engine) : (s.rung.me.eng e).early = (s.me.eng e).early := by
  rw [State.me_rung s h]; split <;> simp
theorem State.rung_eng_barw (s : State) (h : s.cur.core < 96) (e : Engine) : (s.rung.me.eng e).barw = (s.me.eng e).barw := by
  rw [State.me_rung s h]; split <;> simp
theorem State.rung_eng_mark (s : State) (h : s.cur.core < 96) (e : Engine) : (s.rung.me.eng e).mark = (s.me.eng e).mark := by
  rw [State.me_rung s h]; split <;> simp
theorem State.rung_eng_ringPopped (s : State) (h : s.cur.core < 96) (e : Engine) : (s.rung.me.eng e).ringPopped = (s.me.eng e).ringPopped := by
  rw [State.me_rung s h]; split <;> simp

/-- What the ring part leaves alone outside the cores. -/
@[simp] theorem State.rung_agenda (s : State) : s.rung.agenda = s.agenda := by unfold State.rung; split <;> simp
@[simp] theorem State.rung_ticks (s : State) : s.rung.ticks = s.ticks := by unfold State.rung; split <;> simp
@[simp] theorem State.rung_freeCtr (s : State) : s.rung.freeCtr = s.freeCtr := by unfold State.rung; split <;> simp
@[simp] theorem State.rung_mem (s : State) : s.rung.mem = s.mem := by unfold State.rung; split <;> simp
@[simp] theorem State.rung_uncorr (s : State) : s.rung.uncorr = s.uncorr := by unfold State.rung; split <;> simp
@[simp] theorem State.rung_keyTags (s : State) : s.rung.keyTags = s.keyTags := by unfold State.rung; split <;> simp
@[simp] theorem State.rung_keys (s : State) : s.rung.keys = s.keys := by unfold State.rung; split <;> simp
@[simp] theorem State.rung_ctxs (s : State) : s.rung.ctxs = s.ctxs := by unfold State.rung; split <;> simp
@[simp] theorem State.rung_tlb (s : State) : s.rung.tlb = s.tlb := by unfold State.rung; split <;> simp
@[simp] theorem State.rung_walkReqs (s : State) : s.rung.walkReqs = s.walkReqs := by unfold State.rung; split <;> simp
@[simp] theorem State.rung_walkFails (s : State) : s.rung.walkFails = s.walkFails := by unfold State.rung; split <;> simp
@[simp] theorem State.rung_fps (s : State) : s.rung.fps = s.fps := by unfold State.rung; split <;> simp
@[simp] theorem State.rung_fpNext (s : State) : s.rung.fpNext = s.fpNext := by unfold State.rung; split <;> simp
@[simp] theorem State.rung_fpWait (s : State) : s.rung.fpWait = s.fpWait := by unfold State.rung; split <;> simp
@[simp] theorem State.rung_dcache (s : State) : s.rung.dcache = s.dcache := by unfold State.rung; split <;> simp
@[simp] theorem State.rung_flights (s : State) : s.rung.flights = s.flights := by unfold State.rung; split <;> simp
@[simp] theorem State.rung_repNext (s : State) : s.rung.repNext = s.repNext := by unfold State.rung; split <;> simp
@[simp] theorem State.rung_repPend (s : State) : s.rung.repPend = s.repPend := by unfold State.rung; split <;> simp
@[simp] theorem State.rung_repLast (s : State) : s.rung.repLast = s.repLast := by unfold State.rung; split <;> simp
@[simp] theorem State.rung_launchQ (s : State) : s.rung.launchQ = s.launchQ := by unfold State.rung; split <;> simp
@[simp] theorem State.rung_gangs (s : State) : s.rung.gangs = s.gangs := by unfold State.rung; split <;> simp
@[simp] theorem State.rung_gangNext (s : State) : s.rung.gangNext = s.gangNext := by unfold State.rung; split <;> simp
@[simp] theorem State.rung_hub (s : State) : s.rung.hub = s.hub := by unfold State.rung; split <;> simp
@[simp] theorem State.rung_hubNext (s : State) : s.rung.hubNext = s.hubNext := by unfold State.rung; split <;> simp
@[simp] theorem State.rung_vtq (s : State) : s.rung.vtq = s.vtq := by unfold State.rung; split <;> simp
@[simp] theorem State.rung_vtl (s : State) : s.rung.vtl = s.vtl := by unfold State.rung; split <;> simp
@[simp] theorem State.rung_subNext (s : State) : s.rung.subNext = s.subNext := by unfold State.rung; split <;> simp
@[simp] theorem State.rung_graphs (s : State) : s.rung.graphs = s.graphs := by unfold State.rung; split <;> simp
@[simp] theorem State.rung_graphWait (s : State) : s.rung.graphWait = s.graphWait := by unfold State.rung; split <;> simp
@[simp] theorem State.rung_buckets (s : State) : s.rung.buckets = s.buckets := by unfold State.rung; split <;> simp
@[simp] theorem State.rung_bucketNext (s : State) : s.rung.bucketNext = s.bucketNext := by unfold State.rung; split <;> simp
@[simp] theorem State.rung_accIn (s : State) : s.rung.accIn = s.accIn := by unfold State.rung; split <;> simp
@[simp] theorem State.rung_skReqs (s : State) : s.rung.skReqs = s.skReqs := by unfold State.rung; split <;> simp
@[simp] theorem State.rung_launches (s : State) : s.rung.launches = s.launches := by unfold State.rung; split <;> simp
@[simp] theorem State.rung_launchNext (s : State) : s.rung.launchNext = s.launchNext := by unfold State.rung; split <;> simp
@[simp] theorem State.rung_ces (s : State) : s.rung.ces = s.ces := by unfold State.rung; split <;> simp
@[simp] theorem State.rung_barriers (s : State) : s.rung.barriers = s.barriers := by unfold State.rung; split <;> simp
@[simp] theorem State.rung_barrierNext (s : State) : s.rung.barrierNext = s.barrierNext := by unfold State.rung; split <;> simp
@[simp] theorem State.rung_pins (s : State) : s.rung.pins = s.pins := by unfold State.rung; split <;> simp
@[simp] theorem State.rung_walks (s : State) : s.rung.walks = s.walks := by unfold State.rung; split <;> simp
@[simp] theorem State.rung_walkNext (s : State) : s.rung.walkNext = s.walkNext := by unfold State.rung; split <;> simp
@[simp] theorem State.rung_groups (s : State) : s.rung.groups = s.groups := by unfold State.rung; split <;> simp
@[simp] theorem State.rung_ports (s : State) : s.rung.ports = s.ports := by unfold State.rung; split <;> simp
@[simp] theorem State.rung_routes (s : State) : s.rung.routes = s.routes := by unfold State.rung; split <;> simp
@[simp] theorem State.rung_rgen (s : State) : s.rung.rgen = s.rgen := by unfold State.rung; split <;> simp
@[simp] theorem State.rung_flitWait (s : State) : s.rung.flitWait = s.flitWait := by unfold State.rung; split <;> simp
@[simp] theorem State.rung_xfers (s : State) : s.rung.xfers = s.xfers := by unfold State.rung; split <;> simp
@[simp] theorem State.rung_xidNext (s : State) : s.rung.xidNext = s.xidNext := by unfold State.rung; split <;> simp
@[simp] theorem State.rung_remoteIn (s : State) : s.rung.remoteIn = s.remoteIn := by unfold State.rung; split <;> simp
@[simp] theorem State.rung_pkgid (s : State) : s.rung.pkgid = s.pkgid := by unfold State.rung; split <;> simp
@[simp] theorem State.rung_setId (s : State) : s.rung.setId = s.setId := by unfold State.rung; split <;> simp
@[simp] theorem State.rung_dstate (s : State) : s.rung.dstate = s.dstate := by unfold State.rung; split <;> simp
@[simp] theorem State.rung_mbox (s : State) : s.rung.mbox = s.mbox := by unfold State.rung; split <;> simp
@[simp] theorem State.rung_score (s : State) : s.rung.score = s.score := by unfold State.rung; split <;> simp
@[simp] theorem State.rung_scoreSeq (s : State) : s.rung.scoreSeq = s.scoreSeq := by unfold State.rung; split <;> simp
@[simp] theorem State.rung_cfg (s : State) : s.rung.cfg = s.cfg := by unfold State.rung; split <;> simp
@[simp] theorem State.rung_cfgNext (s : State) : s.rung.cfgNext = s.cfgNext := by unfold State.rung; split <;> simp
@[simp] theorem State.rung_spdm (s : State) : s.rung.spdm = s.spdm := by unfold State.rung; split <;> simp
@[simp] theorem State.rung_banks (s : State) : s.rung.banks = s.banks := by unfold State.rung; split <;> simp
@[simp] theorem State.rung_bank (s : State) : s.rung.bank = s.bank := by unfold State.rung; split <;> simp
@[simp] theorem State.rung_bankNew (s : State) : s.rung.bankNew = s.bankNew := by unfold State.rung; split <;> simp
@[simp] theorem State.rung_arbRec (s : State) : s.rung.arbRec = s.arbRec := by unfold State.rung; split <;> simp
@[simp] theorem State.rung_arbFw (s : State) : s.rung.arbFw = s.arbFw := by unfold State.rung; split <;> simp
@[simp] theorem State.rung_throttles (s : State) : s.rung.throttles = s.throttles := by unfold State.rung; split <;> simp
@[simp] theorem State.rung_cxl (s : State) : s.rung.cxl = s.cxl := by unfold State.rung; split <;> simp
@[simp] theorem State.rung_repDone (s : State) : s.rung.repDone = s.repDone := by unfold State.rung; split <;> simp
@[simp] theorem State.rung_repBad (s : State) : s.rung.repBad = s.repBad := by unfold State.rung; split <;> simp
@[simp] theorem State.rung_queueNext (s : State) : s.rung.queueNext = s.queueNext := by unfold State.rung; split <;> simp
@[simp] theorem State.rung_shares (s : State) : s.rung.shares = s.shares := by unfold State.rung; split <;> simp
@[simp] theorem State.rung_cfgCold (s : State) : s.rung.cfgCold = s.cfgCold := by unfold State.rung; split <;> simp
@[simp] theorem State.rung_hostMem (s : State) : s.rung.hostMem = s.hostMem := by unfold State.rung; split <;> simp

end Sys2Proof.Machine
end

