-- ==== Sys2Proof/Laws/Issue.lean ====
section
/-!
SUPPORT. A core word that may issue runs its body on the state after its ring part and then moves its engine on; its
register reads give the registers' values and its writes are the writes of Safety.
-/
namespace Sys2Proof.Machine

/-! ## What a word that may issue meets -/

theorem State.issues_core {s : State} (h : s.issues = true) : s.cur.core < 96 := by
  simp only [State.issues, State.begins, Bool.and_eq_true, decide_eq_true_eq] at h; exact h.1.1.1
theorem State.issues_mon {s : State} (h : s.issues = true) : s.me.mon = true → ringOf s.cur.word = Ring.zero := by
  simp only [State.issues, State.begins, Bool.and_eq_true, Bool.or_eq_true, Bool.not_eq_true', beq_iff_eq] at h
  intro hm; rcases h.1.1.2 with h' | h'
  · rw [hm] at h'; cases h'
  · exact h'
theorem State.issues_ring {s : State} (h : s.issues = true) (hr : s.unit.ringDone = false) :
    s.me.ringReady s.cur.eng s.ring = true := by
  simp only [State.issues, State.begins, Bool.and_eq_true, Bool.or_eq_true, hr, Bool.false_eq_true, false_or] at h; exact h.1.2
theorem State.issues_pend {s : State} (h : s.issues = true) : s.unit.pend = [] := by
  simp only [State.issues, Bool.and_eq_true, List.isEmpty_iff] at h; exact h.2

@[simp] theorem State.rung_unit_pend {s : State} (h : s.issues = true) : s.rung.unit.pend = [] := by
  have := State.rung_eng_pend s (State.issues_core h) s.cur.eng
  simp only [State.unit, State.rung_cur]
  rw [this]; exact State.issues_pend h

theorem State.rung_unit (s : State) : s.rung.unit = s.rung.me.eng s.cur.eng := by simp [State.unit]
theorem State.rung_ext (s : State) (h : s.cur.core < 96) : s.rung.unit.ext = s.unit.ext := by
  rw [State.rung_unit s, State.rung_eng_ext s h]; rfl
theorem State.rung_extEdge (s : State) (h : s.cur.core < 96) : s.rung.unit.extEdge = s.unit.extEdge := by
  rw [State.rung_unit s, State.rung_eng_extEdge s h]; rfl
theorem State.rung_extB (s : State) (h : s.cur.core < 96) : s.rung.unit.extB = s.unit.extB := by
  rw [State.rung_unit s, State.rung_eng_extB s h]; rfl
theorem State.rung_pc (s : State) (h : s.cur.core < 96) : s.rung.unit.pc = s.unit.pc := by
  rw [State.rung_unit s, State.rung_eng_pc s h]; rfl

/-- The ring part of a word that may issue. -/
theorem run_issue {s : State} (h : s.issues = true) :
    (do checkMonitor (ringOf s.cur.word); ringIssue (ringOf s.cur.word) : W Unit) s = .ok () s.rung := by
  have h1 : checkMonitor (ringOf s.cur.word) s = .ok () s := by
    by_cases hm : s.me.mon = true
    · simp [checkMonitor, run_bind, State.issues_mon h hm]
    · simp [checkMonitor, run_bind, hm]
  rw [run_bind_ok h1]
  unfold ringIssue State.rung
  rw [run_bind_ok (run_get s)]
  by_cases hd : s.unit.ringDone = true
  · have : ((s.core s.cur.core).eng s.cur.eng).ringDone = true := hd
    simp [this, hd]
  · have hd' : s.unit.ringDone = false := by simpa using hd
    have h2 : ((s.core s.cur.core).eng s.cur.eng).ringDone = false := hd'
    simp only [h2, hd', Bool.not_false, Bool.false_eq_true, if_true, if_false]
    show (waitFor (s.me.ringReady s.cur.eng s.ring) >>= fun _ => putC (s.me.ringTake s.cur.eng s.ring)) s = _
    rw [State.issues_ring h hd']; rfl

/-- A pending prefix that the word takes, or none. -/
theorem run_checkPrefix {s : State} (x : Bool) (h : s.cur.core < 96) (hp : if x then s.extends = true else s.bare = true) :
    checkPrefix x s.rung = .ok () s.rung := by
  unfold checkPrefix
  rw [run_bind_ok (run_getE _)]
  simp only [run_bind, run_get, State.rung_extEdge s h, State.rung_ext s h, State.rung_extB s h, State.rung_cur]
  cases x
  · simp only [Bool.false_eq_true, if_false, State.bare, Bool.and_eq_true, Bool.not_eq_true', List.isEmpty_iff] at hp
    simp [hp.1, hp.2]
  · simp only [if_true, State.extends, Bool.and_eq_true, Bool.not_eq_true', Bool.or_eq_true] at hp
    rcases hp.2 with h2 | h2
    · simp [hp.1, List.isEmpty_iff.mp h2]
    · simp only [beq_iff_eq] at h2
      simp [hp.1, h2]

theorem runWord_ok {s t : State} {x : Bool} {body : W Flow} {f : Flow} (h : s.issues = true)
    (hp : if x then s.extends = true else s.bare = true) (hb : body s.rung = .ok f t) :
    runWord x body s = .next (t.wordDone f) := by
  unfold runWord
  rw [run_issue h]
  simp only []
  rw [run_bind_ok (run_checkPrefix x (State.issues_core h) hp), run_bind_ok hb]
  rfl

/-- A word without a prefix whose body completes. -/
theorem plain_ok {s t : State} {body : W Unit} (h : s.issues = true) (hp : s.bare = true) (hb : body s.rung = .ok () t) :
    plain body s = .next t.wordDone :=
  runWord_ok (x := false) h (by simpa using hp) (by rw [run_bind_ok hb]; rfl)

/-- A word with an extendable immediate whose body completes. -/
theorem withImm_ok {s t : State} {body : W Unit} (h : s.issues = true) (hp : s.extends = true) (hb : body s.rung = .ok () t) :
    withImm body s = .next t.wordDone :=
  runWord_ok (x := true) h (by simpa using hp) (by rw [run_bind_ok hb]; rfl)

/-! ## Immediates -/

theorem run_immU {w : Nat} (own : BitVec w) {s : State} (h : s.cur.core < 96) : Machine.immU own s.rung = .ok (s.immU own) s.rung := by
  unfold Machine.immU State.immU
  rw [run_bind_ok (run_getE _), State.rung_ext s h]; rfl
theorem run_immS {w : Nat} (own : BitVec w) {s : State} (h : s.cur.core < 96) : Machine.immS own s.rung = .ok (s.immS own) s.rung := by
  unfold Machine.immS State.immS
  rw [run_bind_ok (run_getE _), State.rung_ext s h]; rfl

/-! ## Register reads: no bound is open, so the newest value is read -/

theorem readReg_quiet {s : State} (id : RegId) (new : Reg) (h : s.unit.pend = []) : readReg id new s = .ok new s := by
  simp [readReg, run_bind, EngineSt.locked, waitFor, oldsOf, h, latCheck, choose]
theorem readFlag_quiet {s : State} (id : RegId) (new : FlagReg) (h : s.unit.pend = []) : readFlag id new s = .ok new s := by
  simp [readFlag, run_bind, oldsOf, h, latCheck, choose]
theorem readVec_quiet {s : State} (w : Nat) (id : RegId) (new : VecReg) (h : s.unit.pend = []) : readVec w id new s = .ok new s := by
  simp [readVec, run_bind, oldsOf, h, latCheck]
theorem readMask_quiet {s : State} (id : RegId) (new : MaskReg) (h : s.unit.pend = []) : readMask id new s = .ok new s := by
  simp [readMask, run_bind, oldsOf, h, latCheck]

theorem rdS_quiet {s : State} (n : BitVec 6) (h : s.unit.pend = []) : rdS n s = .ok (s.rS n) s := by
  unfold rdS State.rS
  split
  · rfl
  · rw [run_bind_ok (run_getC s), readReg_quiet _ _ h]
theorem rdF_quiet {s : State} (n : BitVec 3) (h : s.unit.pend = []) : rdF n s = .ok (s.rF n) s := by
  unfold rdF State.rF
  split
  · rfl
  · rw [run_bind_ok (run_getC s), readFlag_quiet _ _ h]
theorem rdA_quiet {s : State} (n : BitVec 5) (h : s.unit.pend = []) : rdA n s = .ok (s.rA n) s := by
  unfold rdA State.rA
  split
  · rfl
  · rw [run_bind_ok (run_getC s), readReg_quiet _ _ h]
theorem rdX_quiet {s : State} (n : BitVec 4) (h : s.unit.pend = []) : rdX n s = .ok (s.rX n) s := by
  unfold rdX State.rX
  rw [run_bind_ok (run_getC s), readReg_quiet _ _ h]
theorem rdK_quiet {s : State} (n : BitVec 4) (h : s.unit.pend = []) : rdK n s = .ok (s.rK n) s := by
  unfold rdK State.rK
  split
  · rfl
  · rw [run_bind_ok (run_getC s), readReg_quiet _ _ h]
theorem rdH_quiet {s : State} (n : BitVec 3) (h : s.unit.pend = []) : rdH n s = .ok (s.rH n) s := by
  unfold rdH State.rH
  rw [run_bind_ok (run_getC s), readReg_quiet _ _ h]
theorem rdV_quiet {s : State} (w : Nat) (n : BitVec 5) (h : s.unit.pend = []) : rdV w n s = .ok (s.rV n) s := by
  unfold rdV State.rV
  rw [run_bind_ok (run_getC s), readVec_quiet _ _ _ h]
theorem rdM_quiet {s : State} (n : BitVec 3) (h : s.unit.pend = []) : rdM n s = .ok (s.rM n) s := by
  unfold rdM State.rM
  split
  · rfl
  · rw [run_bind_ok (run_getC s), readMask_quiet _ _ h]

/-- The ring part leaves the registers as they are. -/
theorem State.rung_rS (s : State) (h : s.cur.core < 96) (n : BitVec 6) : s.rung.rS n = s.rS n := by
  unfold State.rS; rw [State.rung_me_s s h]
theorem State.rung_rF (s : State) (h : s.cur.core < 96) (n : BitVec 3) : s.rung.rF n = s.rF n := by
  unfold State.rF; rw [State.rung_me_f s h]
theorem State.rung_rA (s : State) (h : s.cur.core < 96) (n : BitVec 5) : s.rung.rA n = s.rA n := by
  unfold State.rA; rw [State.rung_me_a s h]
theorem State.rung_rX (s : State) (h : s.cur.core < 96) (n : BitVec 4) : s.rung.rX n = s.rX n := by
  unfold State.rX; rw [State.rung_me_x s h]
theorem State.rung_rK (s : State) (h : s.cur.core < 96) (n : BitVec 4) : s.rung.rK n = s.rK n := by
  unfold State.rK; rw [State.rung_me_k s h]
theorem State.rung_rH (s : State) (h : s.cur.core < 96) (n : BitVec 3) : s.rung.rH n = s.rH n := by
  unfold State.rH; rw [State.rung_me_h s h]
theorem State.rung_rV (s : State) (h : s.cur.core < 96) (n : BitVec 5) : s.rung.rV n = s.rV n := by
  unfold State.rV; rw [State.rung_me_v s h]
theorem State.rung_rM (s : State) (h : s.cur.core < 96) (n : BitVec 3) : s.rung.rM n = s.rM n := by
  unfold State.rM; rw [State.rung_me_m s h]

/-- Reads by a word that may issue, after its ring part. -/
theorem rung_rdS {s : State} (h : s.issues = true) (n : BitVec 6) : rdS n s.rung = .ok (s.rS n) s.rung := by
  rw [rdS_quiet n (State.rung_unit_pend h), State.rung_rS s (State.issues_core h)]
theorem rung_rdF {s : State} (h : s.issues = true) (n : BitVec 3) : rdF n s.rung = .ok (s.rF n) s.rung := by
  rw [rdF_quiet n (State.rung_unit_pend h), State.rung_rF s (State.issues_core h)]
theorem rung_rdA {s : State} (h : s.issues = true) (n : BitVec 5) : rdA n s.rung = .ok (s.rA n) s.rung := by
  rw [rdA_quiet n (State.rung_unit_pend h), State.rung_rA s (State.issues_core h)]
theorem rung_rdX {s : State} (h : s.issues = true) (n : BitVec 4) : rdX n s.rung = .ok (s.rX n) s.rung := by
  rw [rdX_quiet n (State.rung_unit_pend h), State.rung_rX s (State.issues_core h)]
theorem rung_rdK {s : State} (h : s.issues = true) (n : BitVec 4) : rdK n s.rung = .ok (s.rK n) s.rung := by
  rw [rdK_quiet n (State.rung_unit_pend h), State.rung_rK s (State.issues_core h)]
theorem rung_rdH {s : State} (h : s.issues = true) (n : BitVec 3) : rdH n s.rung = .ok (s.rH n) s.rung := by
  rw [rdH_quiet n (State.rung_unit_pend h), State.rung_rH s (State.issues_core h)]
theorem rung_rdV {s : State} (h : s.issues = true) (w : Nat) (n : BitVec 5) : rdV w n s.rung = .ok (s.rV n) s.rung := by
  rw [rdV_quiet w n (State.rung_unit_pend h), State.rung_rV s (State.issues_core h)]
theorem rung_rdM {s : State} (h : s.issues = true) (n : BitVec 3) : rdM n s.rung = .ok (s.rM n) s.rung := by
  rw [rdM_quiet n (State.rung_unit_pend h), State.rung_rM s (State.issues_core h)]

/-! ## Register writes -/

theorem run_noteWrite (id : RegId) (old : RegVal) (b : Nat) (s : State) : noteWrite id old b s = .ok () (s.note id old b) := by
  unfold noteWrite State.note
  rw [run_bind_ok (run_getE s)]
  by_cases hb : b ≤ 1 <;> simp [hb] <;> rfl
theorem run_wrS (n : BitVec 6) (r : Reg) (b : Nat) (s : State) : wrS n r b s = .ok () (s.setS n r b) := by
  unfold wrS State.setS
  by_cases hn : n = 0
  · rw [if_neg (by simpa using hn), if_pos hn]; rfl
  · rw [if_pos hn, if_neg hn, run_bind_ok (run_getC s), run_bind_ok (run_noteWrite _ _ _ s)]; rfl
theorem run_wrF (n : BitVec 3) (r : FlagReg) (b : Nat) (s : State) : wrF n r b s = .ok () (s.setF n r b) := by
  unfold wrF State.setF
  by_cases hn : n = 0
  · rw [if_neg (by simpa using hn), if_pos hn]; rfl
  · rw [if_pos hn, if_neg hn, run_bind_ok (run_getC s), run_bind_ok (run_noteWrite _ _ _ s)]; rfl
theorem run_wrA (n : BitVec 5) (r : Reg) (b : Nat) (s : State) : wrA n r b s = .ok () (s.setA n r b) := by
  unfold wrA State.setA
  by_cases hn : n = 0
  · rw [if_neg (by simpa using hn), if_pos hn]; rfl
  · rw [if_pos hn, if_neg hn, run_bind_ok (run_getC s), run_bind_ok (run_noteWrite _ _ _ s)]; rfl
theorem run_wrX (n : BitVec 4) (r : Reg) (b : Nat) (s : State) : wrX n r b s = .ok () (s.setX n r b) := by
  unfold wrX State.setX
  rw [run_bind_ok (run_getC s), run_bind_ok (run_noteWrite _ _ _ s)]; rfl
theorem run_wrK (n : BitVec 4) (r : Reg) (b : Nat) (s : State) : wrK n r b s = .ok () (s.setK n r b) := by
  unfold wrK State.setK
  by_cases hn : n = 0
  · rw [if_neg (by simpa using hn), if_pos hn]; rfl
  · rw [if_pos hn, if_neg hn, run_bind_ok (run_getC s), run_bind_ok (run_noteWrite _ _ _ s)]; rfl
theorem run_wrH (n : BitVec 3) (r : Reg) (b : Nat) (s : State) : wrH n r b s = .ok () (s.setH n r b) := by
  unfold wrH State.setH
  rw [run_bind_ok (run_getC s), run_bind_ok (run_noteWrite _ _ _ s)]; rfl
theorem run_wrV (n : BitVec 5) (r : VecReg) (b : Nat) (s : State) : wrV n r b s = .ok () (s.setV n r b) := by
  unfold wrV State.setV
  rw [run_bind_ok (run_getC s), run_bind_ok (run_noteWrite _ _ _ s)]; rfl
theorem run_wrM (n : BitVec 3) (r : MaskReg) (b : Nat) (s : State) : wrM n r b s = .ok () (s.setM n r b) := by
  unfold wrM State.setM
  by_cases hn : n = 0
  · rw [if_neg (by simpa using hn), if_pos hn]; rfl
  · rw [if_pos hn, if_neg hn, run_bind_ok (run_getC s), run_bind_ok (run_noteWrite _ _ _ s)]; rfl

theorem run_addFlags (f : Flags) (s : State) : addFlags f s = .ok () (s.flagged f) := by
  unfold addFlags; rw [run_bind_ok (run_getE s)]; rfl

theorem State.flagged_pend (s : State) (f : Flags) (h : s.cur.core < 96) : (s.flagged f).unit.pend = s.unit.pend := by
  simp [State.flagged, State.unit, State.me_onMe _ _ h]

end Sys2Proof.Machine
end

