-- ==== Sys2Proof/Laws/Control.lean ====
section
/-!
SUPPORT. What the operations of the control words do: decisions, branch targets, loop levels and the rendezvous.
-/
namespace Sys2Proof.Machine

theorem rung_muted {s : State} (h : s.cur.core < 96) : s.rung.muted = s.muted := by
  unfold State.muted; rw [State.rung_me_mon s h, State.rung_me_stopReq s h]
theorem rung_room {s : State} (h : s.cur.core < 96) : s.rung.room = s.room := by
  unfold State.room; rw [rung_muted h]; simp only [State.rung_eng_decs s h]
theorem run_pushDecision {s : State} (hi : s.issues = true) (hr : s.room = true) (d : Decision) : pushDecision d s.rung = .ok () (s.rung.pushes d) := by
  unfold pushDecision State.pushes
  have hr' : s.rung.room = true := by rw [rung_room (State.issues_core hi), hr]
  rw [run_bind_ok (run_getC _)]
  by_cases hm : s.rung.muted = true
  · have hm' : (s.rung.me.mon || s.rung.me.stopReq) = true := hm
    rw [if_pos hm, if_pos hm']; rfl
  · have hm' : (s.rung.me.mon || s.rung.me.stopReq) ≠ true := hm
    rw [if_neg hm, if_neg hm']
    have hf : s.rung.muted = false := by simpa using hm
    unfold State.room at hr'
    rw [hf, Bool.false_or] at hr'
    rw [hr', run_bind_ok (run_waitFor_true _)]
    rfl
theorem rung_b (s : State) (h : s.cur.core < 96) : s.rung.unit.b = s.unit.b := by rw [State.rung_unit s, State.rung_eng_b s h]; rfl
theorem rung_rets (s : State) (h : s.cur.core < 96) : s.rung.unit.rets = s.unit.rets := by rw [State.rung_unit s, State.rung_eng_rets s h]; rfl
theorem rung_decs (s : State) (h : s.cur.core < 96) : s.rung.unit.decs = s.unit.decs := by rw [State.rung_unit s, State.rung_eng_decs s h]; rfl
theorem rung_loops (s : State) (h : s.cur.core < 96) : s.rung.unit.loops = s.unit.loops := by rw [State.rung_unit s, State.rung_eng_loops s h]; rfl
theorem word_rung (s : State) (h : s.cur.core < 96) : s.rung.me.word = s.me.word := by
  funext a; unfold Core.word; rw [State.rung_me_text s h]
theorem isBitmap_rung (s : State) (h : s.cur.core < 96) (a : Nat) : isBitmap s.rung.me a = isBitmap s.me a := by
  fun_induction isBitmap s.me a <;> simp_all [isBitmap, word_rung s h]
theorem run_checkTarget {s : State} (h : s.cur.core < 96) (a : Nat) (ha : isBitmap s.me a = false) : checkTarget a s.rung = .ok () s.rung := by
  unfold checkTarget
  rw [run_bind_ok (run_getC _), isBitmap_rung s h, ha]; rfl
theorem onUnit_eq (s : State) (g : EngineSt → EngineSt) : s.onUnit g = s.onMe (·.setEng s.cur.eng (g s.unit)) := rfl
theorem run_popDecision {s : State} (d : Decision) (r : List Decision) (h : s.unit.decs = d :: r) : popDecision s = .ok d s.pops := by
  unfold popDecision
  rw [run_bind_ok (run_getE s), h]
  simp only []
  rw [run_bind_ok (run_putE _ _)]
  simp only [run_pure, State.pops, onUnit_eq, h, List.tail]
theorem unit_onUnit {s : State} (h : s.cur.core < 96) (g : EngineSt → EngineSt) : (s.onUnit g).unit = g s.unit := by
  simp [State.onUnit, State.unit, State.me_onMe _ _ h]
theorem unit_pops {s : State} (h : s.cur.core < 96) : s.pops.unit = { s.unit with decs := s.unit.decs.tail } := unit_onUnit h _
theorem run_leaves {s : State} (target : BitVec 16) :
    (do let t ← getE; putE (t.closeWhere (fun l => decide (target.toNat < l.start.toNat) || decide (l.stop.toNat < target.toNat))) : W Unit) s = .ok () (s.leaves target) := rfl

end Sys2Proof.Machine
end

