-- ==== Sys2Proof/Laws/Encoding.lean ====
section
/-!
SUPPORT. Fields of encoded words and codes of selectors, read back.
-/
namespace Sys2Proof

/-! ## Fields of a core word -/

section
variable (tag : BitVec 3) (r : Ring) (op : BitVec 7) (d a b : BitVec 6)

@[simp] theorem tagOf_mkWord : tagOf (mkWord tag r op d a b) = tag := by
  unfold tagOf mkWord; simp only [BitVec.extractLsb'_append_eq_ite]; simp
@[simp] theorem opOf_mkWord : opOf (mkWord tag r op d a b) = op := by
  unfold opOf mkWord; simp only [BitVec.extractLsb'_append_eq_ite]; simp
@[simp] theorem dOf_mkWord : dOf (mkWord tag r op d a b) = d := by
  unfold dOf mkWord; simp only [BitVec.extractLsb'_append_eq_ite]; simp
@[simp] theorem aOf_mkWord : aOf (mkWord tag r op d a b) = a := by
  unfold aOf mkWord; simp only [BitVec.extractLsb'_append_eq_ite]; simp
@[simp] theorem bOf_mkWord : bOf (mkWord tag r op d a b) = b := by
  unfold bOf mkWord; simp only [BitVec.extractLsb'_append_eq_ite]; simp
@[simp] theorem ringOf_mkWord : ringOf (mkWord tag r op d a b) = r := by
  unfold ringOf mkWord
  have h : ∀ (n : Nat) (x : BitVec 3) (p q s t : Bool) (y : BitVec 7) (u v w : BitVec 6), n < 4 →
      (x ++ BitVec.ofBool p ++ BitVec.ofBool q ++ BitVec.ofBool s ++ BitVec.ofBool t ++ y ++ u ++ v ++ w).getLsbD (25 + n) = [t, s, q, p].getD n false := by
    intro n x p q s t y u v w hn
    simp only [BitVec.getLsbD_append]
    interval_cases n <;> simp
  rw [h 3 _ _ _ _ _ _ _ _ _ (by omega), h 2 _ _ _ _ _ _ _ _ _ (by omega), h 1 _ _ _ _ _ _ _ _ _ (by omega), h 0 _ _ _ _ _ _ _ _ _ (by omega)]
  rfl
end

/-! ## Selectors -/

@[simp] theorem reg1_code (n : BitVec 1) : reg1 (n.setWidth 6) = some n := by revert n; decide
@[simp] theorem reg2_code (n : BitVec 2) : reg2 (n.setWidth 6) = some n := by revert n; decide
@[simp] theorem reg3_code (n : BitVec 3) : reg3 (n.setWidth 6) = some n := by revert n; decide
@[simp] theorem reg4_code (n : BitVec 4) : reg4 (n.setWidth 6) = some n := by revert n; decide
@[simp] theorem reg5_code (n : BitVec 5) : reg5 (n.setWidth 6) = some n := by revert n; decide
theorem regFt_code (n : BitVec 5) (h : n.toNat < 20) : regFt (n.setWidth 6) = some n := by revert n; decide
theorem regLen_code (n : BitVec 6) (h : n.toNat ≠ 0) : regLen n = some n := if_neg h
@[simp] theorem selK_code (n : BitVec 4) : selK (codeK n) = some n := by revert n; decide
@[simp] theorem selIq_code (n : BitVec 3) : selIq (codeIq n) = some n := by revert n; decide
@[simp] theorem selOq_code (n : BitVec 2) : selOq (codeOq n) = some n := by revert n; decide
@[simp] theorem selSrc_code (x : VSrc) : selSrc x.code = some x := by cases x <;> rename_i n <;> revert n <;> decide
@[simp] theorem selIn_code (x : VIn) : selIn x.code = some x := by cases x <;> rename_i n <;> revert n <;> decide
@[simp] theorem selDst_code (x : VDst) : selDst x.code = some x := by cases x <;> rename_i n <;> revert n <;> decide
@[simp] theorem isZero_zero : isZero 0#6 = some () := rfl
@[simp] theorem ringZero_zero : ringZero Ring.zero = some () := rfl

/-! ## Immediates in their parts -/

@[simp] theorem imm12_parts (i : BitVec 12) : imm12 (i.extractLsb' 6 6) (i.extractLsb' 0 6) = i := by
  refine BitVec.eq_of_getLsbD_eq (fun k hk => ?_)
  simp only [imm12, BitVec.getLsbD_append, BitVec.getLsbD_extractLsb', Nat.zero_add]
  interval_cases k <;> simp
@[simp] theorem imm18_parts (i : BitVec 18) : imm18 (i.extractLsb' 12 6) (i.extractLsb' 6 6) (i.extractLsb' 0 6) = i := by
  refine BitVec.eq_of_getLsbD_eq (fun k hk => ?_)
  simp only [imm18, BitVec.getLsbD_append, BitVec.getLsbD_extractLsb', Nat.zero_add]
  interval_cases k <;> simp
@[simp] theorem vcfg_parts (i : BitVec 17) : (imm18 (0#1 ++ i.extractLsb' 12 5) (i.extractLsb' 6 6) (i.extractLsb' 0 6)).setWidth 17 = i := by
  refine BitVec.eq_of_getLsbD_eq (fun k hk => ?_)
  simp only [imm18, BitVec.getLsbD_setWidth, BitVec.getLsbD_append, BitVec.getLsbD_extractLsb', Nat.zero_add]
  interval_cases k <;> simp
@[simp] theorem hiZero_vcfg (i : BitVec 5) : hiZero (0#1 ++ i) 5 = some () := by revert i; decide
@[simp] theorem semOf_parts (n : BitVec 4) (c : BitVec 2) : semOf (n ++ c) = n := by revert n c; decide
@[simp] theorem cntOf_parts (n : BitVec 4) (c : BitVec 14) : cntOf (n ++ c.extractLsb' 12 2) (c.extractLsb' 6 6) (c.extractLsb' 0 6) = c := by
  refine BitVec.eq_of_getLsbD_eq (fun k hk => ?_)
  simp only [cntOf, BitVec.getLsbD_append, BitVec.getLsbD_extractLsb', Nat.zero_add]
  interval_cases k <;> simp

/-! ## Rule words -/

theorem decode_rd (off : BitVec 17) (n : BitVec 5) : decodeRule (0x01#6 ++ 0#4 ++ off ++ n) = some (.rd off n) := by
  have ho : ((0x01#6 ++ 0#4 ++ off ++ n) : BitVec 32).extractLsb' 26 6 = 1#6 := by simp only [BitVec.extractLsb'_append_eq_ite]; simp
  have hz : ruleZero (0x01#6 ++ 0#4 ++ off ++ n) 0x03C00000 = some () := by
    refine if_pos (BitVec.eq_of_getLsbD_eq (fun k hk => ?_))
    simp only [BitVec.getLsbD_and, BitVec.getLsbD_append]
    interval_cases k <;> simp
  have f0 : ((0x01#6 ++ 0#4 ++ off ++ n) : BitVec 32).extractLsb' 5 17 = off := by simp only [BitVec.extractLsb'_append_eq_ite]; simp
  have f1 : ((0x01#6 ++ 0#4 ++ off ++ n) : BitVec 32).extractLsb' 0 5 = n := by simp only [BitVec.extractLsb'_append_eq_ite]; simp
  unfold decodeRule; rw [ho]
  simp only [hz, f0, f1]
  rfl
theorem decode_cmpk (w : BitVec 5) : decodeRule (0x02#6 ++ 0#21 ++ w) = some (.cmpk w) := by
  have ho : ((0x02#6 ++ 0#21 ++ w) : BitVec 32).extractLsb' 26 6 = 2#6 := by simp only [BitVec.extractLsb'_append_eq_ite]; simp
  have hz : ruleZero (0x02#6 ++ 0#21 ++ w) 0x03FFFFE0 = some () := by
    refine if_pos (BitVec.eq_of_getLsbD_eq (fun k hk => ?_))
    simp only [BitVec.getLsbD_and, BitVec.getLsbD_append]
    interval_cases k <;> simp
  have f0 : ((0x02#6 ++ 0#21 ++ w) : BitVec 32).extractLsb' 0 5 = w := by simp only [BitVec.extractLsb'_append_eq_ite]; simp
  unfold decodeRule; rw [ho]
  simp only [hz, f0]
  rfl
theorem decode_cmpg (g : BitVec 3) (w : BitVec 5) : decodeRule (0x03#6 ++ 0#1 ++ g ++ 0#17 ++ w) = some (.cmpg g w) := by
  have ho : ((0x03#6 ++ 0#1 ++ g ++ 0#17 ++ w) : BitVec 32).extractLsb' 26 6 = 3#6 := by simp only [BitVec.extractLsb'_append_eq_ite]; simp
  have hz : ruleZero (0x03#6 ++ 0#1 ++ g ++ 0#17 ++ w) 0x003FFFE0 = some () := by
    refine if_pos (BitVec.eq_of_getLsbD_eq (fun k hk => ?_))
    simp only [BitVec.getLsbD_and, BitVec.getLsbD_append]
    interval_cases k <;> simp
  have hg : ruleG (0x03#6 ++ 0#1 ++ g ++ 0#17 ++ w) = some g := by
    have h1 : ((0x03#6 ++ 0#1 ++ g ++ 0#17 ++ w) : BitVec 32).getLsbD 25 = false := by simp only [BitVec.getLsbD_append]; simp
    unfold ruleG; rw [h1]; simp only [BitVec.extractLsb'_append_eq_ite]; simp
  have f0 : ((0x03#6 ++ 0#1 ++ g ++ 0#17 ++ w) : BitVec 32).extractLsb' 0 5 = w := by simp only [BitVec.extractLsb'_append_eq_ite]; simp
  unfold decodeRule; rw [ho]
  simp only [hz, hg, f0]
  rfl
theorem decode_getf (g : BitVec 3) (l sh : BitVec 6) (w : BitVec 5) : decodeRule (0x04#6 ++ 0#1 ++ g ++ 0#5 ++ l ++ sh ++ w) = some (.getf g l sh w) := by
  have ho : ((0x04#6 ++ 0#1 ++ g ++ 0#5 ++ l ++ sh ++ w) : BitVec 32).extractLsb' 26 6 = 4#6 := by simp only [BitVec.extractLsb'_append_eq_ite]; simp
  have hz : ruleZero (0x04#6 ++ 0#1 ++ g ++ 0#5 ++ l ++ sh ++ w) 0x003E0000 = some () := by
    refine if_pos (BitVec.eq_of_getLsbD_eq (fun k hk => ?_))
    simp only [BitVec.getLsbD_and, BitVec.getLsbD_append]
    interval_cases k <;> simp
  have hg : ruleG (0x04#6 ++ 0#1 ++ g ++ 0#5 ++ l ++ sh ++ w) = some g := by
    have h1 : ((0x04#6 ++ 0#1 ++ g ++ 0#5 ++ l ++ sh ++ w) : BitVec 32).getLsbD 25 = false := by simp only [BitVec.getLsbD_append]; simp
    unfold ruleG; rw [h1]; simp only [BitVec.extractLsb'_append_eq_ite]; simp
  have f0 : ((0x04#6 ++ 0#1 ++ g ++ 0#5 ++ l ++ sh ++ w) : BitVec 32).extractLsb' 11 6 = l := by simp only [BitVec.extractLsb'_append_eq_ite]; simp
  have f1 : ((0x04#6 ++ 0#1 ++ g ++ 0#5 ++ l ++ sh ++ w) : BitVec 32).extractLsb' 5 6 = sh := by simp only [BitVec.extractLsb'_append_eq_ite]; simp
  have f2 : ((0x04#6 ++ 0#1 ++ g ++ 0#5 ++ l ++ sh ++ w) : BitVec 32).extractLsb' 0 5 = w := by simp only [BitVec.extractLsb'_append_eq_ite]; simp
  unfold decodeRule; rw [ho]
  simp only [hz, hg, f0, f1, f2]
  rfl
theorem decode_next (w : BitVec 5) : decodeRule (0x05#6 ++ 0#21 ++ w) = some (.next w) := by
  have ho : ((0x05#6 ++ 0#21 ++ w) : BitVec 32).extractLsb' 26 6 = 5#6 := by simp only [BitVec.extractLsb'_append_eq_ite]; simp
  have hz : ruleZero (0x05#6 ++ 0#21 ++ w) 0x03FFFFE0 = some () := by
    refine if_pos (BitVec.eq_of_getLsbD_eq (fun k hk => ?_))
    simp only [BitVec.getLsbD_and, BitVec.getLsbD_append]
    interval_cases k <;> simp
  have h5 : ((0x05#6 ++ 0#21 ++ w) : BitVec 32).getLsbD 5 = false := by simp only [BitVec.getLsbD_append]; simp
  have f0 : ((0x05#6 ++ 0#21 ++ w) : BitVec 32).extractLsb' 0 5 = w := by simp only [BitVec.extractLsb'_append_eq_ite]; simp
  unfold decodeRule; rw [ho]
  simp only [hz, h5, f0]
  rfl
theorem decode_nextG (g : BitVec 3) : decodeRule (0x05#6 ++ 0#1 ++ g ++ 0#16 ++ 1#1 ++ 0#5) = some (.nextG g) := by
  have ho : ((0x05#6 ++ 0#1 ++ g ++ 0#16 ++ 1#1 ++ 0#5) : BitVec 32).extractLsb' 26 6 = 5#6 := by simp only [BitVec.extractLsb'_append_eq_ite]; simp
  have hz : ruleZero (0x05#6 ++ 0#1 ++ g ++ 0#16 ++ 1#1 ++ 0#5) 0x003FFFDF = some () := by
    refine if_pos (BitVec.eq_of_getLsbD_eq (fun k hk => ?_))
    simp only [BitVec.getLsbD_and, BitVec.getLsbD_append]
    interval_cases k <;> simp
  have hg : ruleG (0x05#6 ++ 0#1 ++ g ++ 0#16 ++ 1#1 ++ 0#5) = some g := by
    have h1 : ((0x05#6 ++ 0#1 ++ g ++ 0#16 ++ 1#1 ++ 0#5) : BitVec 32).getLsbD 25 = false := by simp only [BitVec.getLsbD_append]; simp
    unfold ruleG; rw [h1]; simp only [BitVec.extractLsb'_append_eq_ite]; simp
  have h5 : ((0x05#6 ++ 0#1 ++ g ++ 0#16 ++ 1#1 ++ 0#5) : BitVec 32).getLsbD 5 = true := by simp only [BitVec.getLsbD_append]; simp
  unfold decodeRule; rw [ho]
  simp only [hz, hg, h5]
  rfl
theorem decode_hash (g : BitVec 3) (stride : BitVec 22) : decodeRule (0x06#6 ++ 0#1 ++ g ++ stride) = some (.hash g stride) := by
  have ho : ((0x06#6 ++ 0#1 ++ g ++ stride) : BitVec 32).extractLsb' 26 6 = 6#6 := by simp only [BitVec.extractLsb'_append_eq_ite]; simp
  have hg : ruleG (0x06#6 ++ 0#1 ++ g ++ stride) = some g := by
    have h1 : ((0x06#6 ++ 0#1 ++ g ++ stride) : BitVec 32).getLsbD 25 = false := by simp only [BitVec.getLsbD_append]; simp
    unfold ruleG; rw [h1]; simp only [BitVec.extractLsb'_append_eq_ite]; simp
  have f0 : ((0x06#6 ++ 0#1 ++ g ++ stride) : BitVec 32).extractLsb' 0 22 = stride := by simp only [BitVec.extractLsb'_append_eq_ite]; simp
  unfold decodeRule; rw [ho]
  simp only [hg, f0]
  rfl
theorem decode_addg (g : BitVec 3) (imm : BitVec 22) : decodeRule (0x07#6 ++ 0#1 ++ g ++ imm) = some (.addg g imm) := by
  have ho : ((0x07#6 ++ 0#1 ++ g ++ imm) : BitVec 32).extractLsb' 26 6 = 7#6 := by simp only [BitVec.extractLsb'_append_eq_ite]; simp
  have hg : ruleG (0x07#6 ++ 0#1 ++ g ++ imm) = some g := by
    have h1 : ((0x07#6 ++ 0#1 ++ g ++ imm) : BitVec 32).getLsbD 25 = false := by simp only [BitVec.getLsbD_append]; simp
    unfold ruleG; rw [h1]; simp only [BitVec.extractLsb'_append_eq_ite]; simp
  have f0 : ((0x07#6 ++ 0#1 ++ g ++ imm) : BitVec 32).extractLsb' 0 22 = imm := by simp only [BitVec.extractLsb'_append_eq_ite]; simp
  unfold decodeRule; rw [ho]
  simp only [hg, f0]
  rfl
theorem decode_andg (g : BitVec 3) (imm : BitVec 22) : decodeRule (0x08#6 ++ 0#1 ++ g ++ imm) = some (.andg g imm) := by
  have ho : ((0x08#6 ++ 0#1 ++ g ++ imm) : BitVec 32).extractLsb' 26 6 = 8#6 := by simp only [BitVec.extractLsb'_append_eq_ite]; simp
  have hg : ruleG (0x08#6 ++ 0#1 ++ g ++ imm) = some g := by
    have h1 : ((0x08#6 ++ 0#1 ++ g ++ imm) : BitVec 32).getLsbD 25 = false := by simp only [BitVec.getLsbD_append]; simp
    unfold ruleG; rw [h1]; simp only [BitVec.extractLsb'_append_eq_ite]; simp
  have f0 : ((0x08#6 ++ 0#1 ++ g ++ imm) : BitVec 32).extractLsb' 0 22 = imm := by simp only [BitVec.extractLsb'_append_eq_ite]; simp
  unfold decodeRule; rw [ho]
  simp only [hg, f0]
  rfl
theorem decode_jmp (t : BitVec 8) : decodeRule (0x09#6 ++ 0#18 ++ t) = some (.jmp t) := by
  have ho : ((0x09#6 ++ 0#18 ++ t) : BitVec 32).extractLsb' 26 6 = 9#6 := by simp only [BitVec.extractLsb'_append_eq_ite]; simp
  have hz : ruleZero (0x09#6 ++ 0#18 ++ t) 0x03FFFF00 = some () := by
    refine if_pos (BitVec.eq_of_getLsbD_eq (fun k hk => ?_))
    simp only [BitVec.getLsbD_and, BitVec.getLsbD_append]
    interval_cases k <;> simp
  have f0 : ((0x09#6 ++ 0#18 ++ t) : BitVec 32).extractLsb' 0 8 = t := by simp only [BitVec.extractLsb'_append_eq_ite]; simp
  unfold decodeRule; rw [ho]
  simp only [hz, f0]
  rfl
theorem decode_jeq (t : BitVec 8) : decodeRule (0x0A#6 ++ 0#18 ++ t) = some (.jeq t) := by
  have ho : ((0x0A#6 ++ 0#18 ++ t) : BitVec 32).extractLsb' 26 6 = 10#6 := by simp only [BitVec.extractLsb'_append_eq_ite]; simp
  have hz : ruleZero (0x0A#6 ++ 0#18 ++ t) 0x03FFFF00 = some () := by
    refine if_pos (BitVec.eq_of_getLsbD_eq (fun k hk => ?_))
    simp only [BitVec.getLsbD_and, BitVec.getLsbD_append]
    interval_cases k <;> simp
  have f0 : ((0x0A#6 ++ 0#18 ++ t) : BitVec 32).extractLsb' 0 8 = t := by simp only [BitVec.extractLsb'_append_eq_ite]; simp
  unfold decodeRule; rw [ho]
  simp only [hz, f0]
  rfl
theorem decode_jne (t : BitVec 8) : decodeRule (0x0B#6 ++ 0#18 ++ t) = some (.jne t) := by
  have ho : ((0x0B#6 ++ 0#18 ++ t) : BitVec 32).extractLsb' 26 6 = 11#6 := by simp only [BitVec.extractLsb'_append_eq_ite]; simp
  have hz : ruleZero (0x0B#6 ++ 0#18 ++ t) 0x03FFFF00 = some () := by
    refine if_pos (BitVec.eq_of_getLsbD_eq (fun k hk => ?_))
    simp only [BitVec.getLsbD_and, BitVec.getLsbD_append]
    interval_cases k <;> simp
  have f0 : ((0x0B#6 ++ 0#18 ++ t) : BitVec 32).extractLsb' 0 8 = t := by simp only [BitVec.extractLsb'_append_eq_ite]; simp
  unfold decodeRule; rw [ho]
  simp only [hz, f0]
  rfl
theorem decode_jlt (t : BitVec 8) : decodeRule (0x0C#6 ++ 0#18 ++ t) = some (.jlt t) := by
  have ho : ((0x0C#6 ++ 0#18 ++ t) : BitVec 32).extractLsb' 26 6 = 12#6 := by simp only [BitVec.extractLsb'_append_eq_ite]; simp
  have hz : ruleZero (0x0C#6 ++ 0#18 ++ t) 0x03FFFF00 = some () := by
    refine if_pos (BitVec.eq_of_getLsbD_eq (fun k hk => ?_))
    simp only [BitVec.getLsbD_and, BitVec.getLsbD_append]
    interval_cases k <;> simp
  have f0 : ((0x0C#6 ++ 0#18 ++ t) : BitVec 32).extractLsb' 0 8 = t := by simp only [BitVec.extractLsb'_append_eq_ite]; simp
  unfold decodeRule; rw [ho]
  simp only [hz, f0]
  rfl
theorem decode_emit (n : BitVec 5) : decodeRule (0x0D#6 ++ 0#21 ++ n) = some (.emit n) := by
  have ho : ((0x0D#6 ++ 0#21 ++ n) : BitVec 32).extractLsb' 26 6 = 13#6 := by simp only [BitVec.extractLsb'_append_eq_ite]; simp
  have hz : ruleZero (0x0D#6 ++ 0#21 ++ n) 0x03FFFFE0 = some () := by
    refine if_pos (BitVec.eq_of_getLsbD_eq (fun k hk => ?_))
    simp only [BitVec.getLsbD_and, BitVec.getLsbD_append]
    interval_cases k <;> simp
  have f0 : ((0x0D#6 ++ 0#21 ++ n) : BitVec 32).extractLsb' 0 5 = n := by simp only [BitVec.extractLsb'_append_eq_ite]; simp
  unfold decodeRule; rw [ho]
  simp only [hz, f0]
  rfl
theorem decode_emitg (g : BitVec 3) (r : BitVec 1) (n : BitVec 5) : decodeRule (0x0E#6 ++ 0#1 ++ g ++ 0#16 ++ r ++ n) = some (.emitg g r n) := by
  have ho : ((0x0E#6 ++ 0#1 ++ g ++ 0#16 ++ r ++ n) : BitVec 32).extractLsb' 26 6 = 14#6 := by simp only [BitVec.extractLsb'_append_eq_ite]; simp
  have hz : ruleZero (0x0E#6 ++ 0#1 ++ g ++ 0#16 ++ r ++ n) 0x003FFFC0 = some () := by
    refine if_pos (BitVec.eq_of_getLsbD_eq (fun k hk => ?_))
    simp only [BitVec.getLsbD_and, BitVec.getLsbD_append]
    interval_cases k <;> simp
  have hg : ruleG (0x0E#6 ++ 0#1 ++ g ++ 0#16 ++ r ++ n) = some g := by
    have h1 : ((0x0E#6 ++ 0#1 ++ g ++ 0#16 ++ r ++ n) : BitVec 32).getLsbD 25 = false := by simp only [BitVec.getLsbD_append]; simp
    unfold ruleG; rw [h1]; simp only [BitVec.extractLsb'_append_eq_ite]; simp
  have f0 : ((0x0E#6 ++ 0#1 ++ g ++ 0#16 ++ r ++ n) : BitVec 32).extractLsb' 5 1 = r := by simp only [BitVec.extractLsb'_append_eq_ite]; simp
  have f1 : ((0x0E#6 ++ 0#1 ++ g ++ 0#16 ++ r ++ n) : BitVec 32).extractLsb' 0 5 = n := by simp only [BitVec.extractLsb'_append_eq_ite]; simp
  unfold decodeRule; rw [ho]
  simp only [hz, hg, f0, f1]
  rfl
theorem decode_miss : decodeRule (0x0F#6 ++ 0#26) = some .miss := by
  decide
theorem decode_fail (c : BitVec 22) : decodeRule (0x10#6 ++ 0#4 ++ c) = some (.fail c) := by
  have ho : ((0x10#6 ++ 0#4 ++ c) : BitVec 32).extractLsb' 26 6 = 16#6 := by simp only [BitVec.extractLsb'_append_eq_ite]; simp
  have hz : ruleZero (0x10#6 ++ 0#4 ++ c) 0x03C00000 = some () := by
    refine if_pos (BitVec.eq_of_getLsbD_eq (fun k hk => ?_))
    simp only [BitVec.getLsbD_and, BitVec.getLsbD_append]
    interval_cases k <;> simp
  have f0 : ((0x10#6 ++ 0#4 ++ c) : BitVec 32).extractLsb' 0 22 = c := by simp only [BitVec.extractLsb'_append_eq_ite]; simp
  unfold decodeRule; rw [ho]
  simp only [hz, f0]
  rfl

/-! ## Channel-engine words -/

theorem FOp.ofCode_code (x : FOp) : FOp.ofCode x.code = some x := by cases x <;> rfl
theorem AOp.ofCode_code (x : AOp) : AOp.ofCode x.code = some x := by cases x <;> rfl
theorem WOp.ofCode_code (x : WOp) : WOp.ofCode x.code = some x := by cases x <;> rfl
theorem extract_left {m n : Nat} (a : BitVec m) (b : BitVec n) (lo len : Nat) (h : n ≤ lo) : (a ++ b).extractLsb' lo len = a.extractLsb' (lo - n) len := by
  refine BitVec.eq_of_getLsbD_eq (fun k hk => ?_)
  simp only [BitVec.getLsbD_extractLsb', BitVec.getLsbD_append]
  rw [if_neg (by omega), show lo + k - n = lo - n + k by omega]
theorem extract_right {m n : Nat} (a : BitVec m) (b : BitVec n) (len : Nat) (h : len ≤ n) : (a ++ b).extractLsb' 0 len = b.extractLsb' 0 len := by
  refine BitVec.eq_of_getLsbD_eq (fun k hk => ?_)
  simp only [BitVec.getLsbD_extractLsb', BitVec.getLsbD_append]
  rw [if_pos (by omega)]
theorem extract_all {n : Nat} (b : BitVec n) : b.extractLsb' 0 n = b := by
  refine BitVec.eq_of_getLsbD_eq (fun k hk => ?_)
  simp [hk]
theorem decodeCe_encodeCe (w : CeWord) : decodeCe (encodeCe w) = some w := by
  have b0 : (encodeCe w).getLsbD 63 = w.stop := by unfold encodeCe; simp only [BitVec.getLsbD_append]; simp
  have b1 : (encodeCe w).getLsbD 62 = w.lend := by unfold encodeCe; simp only [BitVec.getLsbD_append]; simp
  have b2 : (encodeCe w).getLsbD 61 = w.chk := by unfold encodeCe; simp only [BitVec.getLsbD_append]; simp
  have b3 : (encodeCe w).getLsbD 60 = false := by unfold encodeCe; simp only [BitVec.getLsbD_append]; simp
  have f0 : (encodeCe w).extractLsb' 0 5 = w.wimm := by
    unfold encodeCe; rw [extract_right _ _ _ (by omega)]; exact extract_all _
  have f1 : (encodeCe w).extractLsb' 5 3 = w.wap := by
    unfold encodeCe; rw [extract_left _ _ _ _ (by omega), extract_right _ _ _ (by omega)]; exact extract_all _
  have f2 : (encodeCe w).extractLsb' 8 4 = w.wsrc := by
    unfold encodeCe; rw [extract_left _ _ _ _ (by omega), extract_left _ _ _ _ (by omega), extract_right _ _ _ (by omega)]; exact extract_all _
  have f3 : (encodeCe w).extractLsb' 12 4 = w.wop.code := by
    unfold encodeCe
    iterate 3 rw [extract_left _ _ _ _ (by omega)]
    rw [extract_right _ _ _ (by omega)]; exact extract_all _
  have f4 : (encodeCe w).extractLsb' 16 6 = w.md := by
    unfold encodeCe
    iterate 4 rw [extract_left _ _ _ _ (by omega)]
    rw [extract_right _ _ _ (by omega)]; exact extract_all _
  have f5 : (encodeCe w).extractLsb' 22 4 = w.ab := by
    unfold encodeCe
    iterate 5 rw [extract_left _ _ _ _ (by omega)]
    rw [extract_right _ _ _ (by omega)]; exact extract_all _
  have f6 : (encodeCe w).extractLsb' 26 4 = w.aa := by
    unfold encodeCe
    iterate 6 rw [extract_left _ _ _ _ (by omega)]
    rw [extract_right _ _ _ (by omega)]; exact extract_all _
  have f7 : (encodeCe w).extractLsb' 30 4 = w.ad := by
    unfold encodeCe
    iterate 7 rw [extract_left _ _ _ _ (by omega)]
    rw [extract_right _ _ _ (by omega)]; exact extract_all _
  have f8 : (encodeCe w).extractLsb' 34 6 = w.aop.code := by
    unfold encodeCe
    iterate 8 rw [extract_left _ _ _ _ (by omega)]
    rw [extract_right _ _ _ (by omega)]; exact extract_all _
  have f9 : (encodeCe w).extractLsb' 40 8 = w.fimm := by
    unfold encodeCe
    iterate 9 rw [extract_left _ _ _ _ (by omega)]
    rw [extract_right _ _ _ (by omega)]; exact extract_all _
  have f10 : (encodeCe w).extractLsb' 48 3 = w.fap := by
    unfold encodeCe
    iterate 10 rw [extract_left _ _ _ _ (by omega)]
    rw [extract_right _ _ _ (by omega)]; exact extract_all _
  have f11 : (encodeCe w).extractLsb' 51 4 = w.fdst := by
    unfold encodeCe
    iterate 11 rw [extract_left _ _ _ _ (by omega)]
    rw [extract_right _ _ _ (by omega)]; exact extract_all _
  have f12 : (encodeCe w).extractLsb' 55 5 = w.fop.code := by
    unfold encodeCe
    iterate 12 rw [extract_left _ _ _ _ (by omega)]
    rw [extract_right _ _ _ (by omega)]; exact extract_all _
  unfold decodeCe
  rw [b3]
  simp only [b0, b1, b2, f0, f1, f2, f3, f4, f5, f6, f7, f8, f9, f10, f11, f12, FOp.ofCode_code, AOp.ofCode_code, WOp.ofCode_code]
  rfl
theorem decode_ceWord (w : CeWord) : decode (.ce (encodeCe w)) = some (.ceWord w) := by
  show (decodeCe (encodeCe w)).map Instr.ceWord = _
  rw [decodeCe_encodeCe]; rfl
end Sys2Proof
end

