-- ==== Sys2Proof/Laws/PerInstr.lean ====
section
/-!
SUPPORT. A family of statements, one per instruction: decoding the word that an instruction encodes to gives it back.
-/
namespace Sys2Proof.Laws.RoundTrip

set_option Elab.async false

/-- Whatever word a well-formed instruction encodes to decodes to it, and outside B and EXT carries the ring bits given. -/
def Statement (i : Instr) : Prop :=
  ∀ (r : Ring) (c : Code), i.wf = true → encode r i = some c → decode c = some i ∧
    (∀ w, c = .core w → tagOf w ≠ 7 → opOf w ≠ 0x7F → ringOf w = r) ∧
    (∀ w, c = .core w → tagOf w = 7 ∨ opOf w = 0x7F → ringOf w = Ring.zero)

theorem of_none {i : Instr} (h : ∀ r, encode r i = none) : Statement i := by
  intro r c _ e; rw [h] at e; cases e

/-- A core word outside B and EXT. -/
theorem of_core {i : Instr} (tag : BitVec 3) (op : BitVec 7) (d a b : BitVec 6) (h : ∀ r, encode r i = some (.core (mkWord tag r op d a b)))
    (n7 : tag ≠ 7) (nx : op ≠ 0x7F) (hd : ∀ r, i.wf = true → decodeCore (mkWord tag r op d a b) = some i) : Statement i := by
  intro r c hw e
  rw [h] at e
  cases e
  refine ⟨hd r hw, ?_, ?_⟩
  · intro w e _ _; cases e; exact ringOf_mkWord ..
  · intro w e o; cases e; rw [tagOf_mkWord, opOf_mkWord] at o; exact absurd o (not_or.mpr ⟨n7, nx⟩)

/-- A word of B or EXT. -/
theorem of_bare {i : Instr} (tag : BitVec 3) (op : BitVec 7) (d a b : BitVec 6) (h : ∀ r, encode r i = some (.core (mkWord tag Ring.zero op d a b)))
    (s : tag = 7 ∨ op = 0x7F) (hd : i.wf = true → decodeCore (mkWord tag Ring.zero op d a b) = some i) : Statement i := by
  intro r c hw e
  rw [h] at e
  cases e
  refine ⟨hd hw, ?_, ?_⟩
  · intro w e p q; cases e; rw [tagOf_mkWord] at p; rw [opOf_mkWord] at q; exact absurd s (not_or.mpr ⟨p, q⟩)
  · intro w e _; cases e; exact ringOf_mkWord ..

/-- A rule word. -/
theorem of_rule {i : Instr} (w : BitVec 32) (h : ∀ r, encode r i = some (.rule w)) (hd : decodeRule w = some i) : Statement i := by
  intro r c _ e
  rw [h] at e
  cases e
  refine ⟨hd, ?_, ?_⟩ <;> (intro _ e; cases e)

theorem ceWord (w : CeWord) : Statement (.ceWord w) := by
  intro r c _ e
  cases e
  refine ⟨decode_ceWord w, ?_, ?_⟩ <;> (intro _ e; cases e)
theorem add (d : BitVec 6) (a : BitVec 6) (b : BitVec 6) : Statement (.add d a b) := of_core _ _ _ _ _ (fun _ => rfl) (by decide) (by decide) (fun r hw => by unfold decodeCore; rw [tagOf_mkWord, opOf_mkWord, dOf_mkWord, aOf_mkWord, bOf_mkWord]; rfl)
theorem sub (d : BitVec 6) (a : BitVec 6) (b : BitVec 6) : Statement (.sub d a b) := of_core _ _ _ _ _ (fun _ => rfl) (by decide) (by decide) (fun r hw => by unfold decodeCore; rw [tagOf_mkWord, opOf_mkWord, dOf_mkWord, aOf_mkWord, bOf_mkWord]; rfl)
theorem mul (d : BitVec 6) (a : BitVec 6) (b : BitVec 6) : Statement (.mul d a b) := of_core _ _ _ _ _ (fun _ => rfl) (by decide) (by decide) (fun r hw => by unfold decodeCore; rw [tagOf_mkWord, opOf_mkWord, dOf_mkWord, aOf_mkWord, bOf_mkWord]; rfl)
theorem mulh (d : BitVec 6) (a : BitVec 6) (b : BitVec 6) : Statement (.mulh d a b) := of_core _ _ _ _ _ (fun _ => rfl) (by decide) (by decide) (fun r hw => by unfold decodeCore; rw [tagOf_mkWord, opOf_mkWord, dOf_mkWord, aOf_mkWord, bOf_mkWord]; rfl)
theorem mulhn (d : BitVec 6) (a : BitVec 6) (b : BitVec 6) : Statement (.mulhn d a b) := of_core _ _ _ _ _ (fun _ => rfl) (by decide) (by decide) (fun r hw => by unfold decodeCore; rw [tagOf_mkWord, opOf_mkWord, dOf_mkWord, aOf_mkWord, bOf_mkWord]; rfl)
theorem div (d : BitVec 6) (a : BitVec 6) (b : BitVec 6) : Statement (.div d a b) := of_core _ _ _ _ _ (fun _ => rfl) (by decide) (by decide) (fun r hw => by unfold decodeCore; rw [tagOf_mkWord, opOf_mkWord, dOf_mkWord, aOf_mkWord, bOf_mkWord]; rfl)
theorem divn (d : BitVec 6) (a : BitVec 6) (b : BitVec 6) : Statement (.divn d a b) := of_core _ _ _ _ _ (fun _ => rfl) (by decide) (by decide) (fun r hw => by unfold decodeCore; rw [tagOf_mkWord, opOf_mkWord, dOf_mkWord, aOf_mkWord, bOf_mkWord]; rfl)
theorem rem (d : BitVec 6) (a : BitVec 6) (b : BitVec 6) : Statement (.rem d a b) := of_core _ _ _ _ _ (fun _ => rfl) (by decide) (by decide) (fun r hw => by unfold decodeCore; rw [tagOf_mkWord, opOf_mkWord, dOf_mkWord, aOf_mkWord, bOf_mkWord]; rfl)
theorem remn (d : BitVec 6) (a : BitVec 6) (b : BitVec 6) : Statement (.remn d a b) := of_core _ _ _ _ _ (fun _ => rfl) (by decide) (by decide) (fun r hw => by unfold decodeCore; rw [tagOf_mkWord, opOf_mkWord, dOf_mkWord, aOf_mkWord, bOf_mkWord]; rfl)
theorem and (d : BitVec 6) (a : BitVec 6) (b : BitVec 6) : Statement (.and d a b) := of_core _ _ _ _ _ (fun _ => rfl) (by decide) (by decide) (fun r hw => by unfold decodeCore; rw [tagOf_mkWord, opOf_mkWord, dOf_mkWord, aOf_mkWord, bOf_mkWord]; rfl)
theorem or (d : BitVec 6) (a : BitVec 6) (b : BitVec 6) : Statement (.or d a b) := of_core _ _ _ _ _ (fun _ => rfl) (by decide) (by decide) (fun r hw => by unfold decodeCore; rw [tagOf_mkWord, opOf_mkWord, dOf_mkWord, aOf_mkWord, bOf_mkWord]; rfl)
theorem xor (d : BitVec 6) (a : BitVec 6) (b : BitVec 6) : Statement (.xor d a b) := of_core _ _ _ _ _ (fun _ => rfl) (by decide) (by decide) (fun r hw => by unfold decodeCore; rw [tagOf_mkWord, opOf_mkWord, dOf_mkWord, aOf_mkWord, bOf_mkWord]; rfl)
theorem shl (d : BitVec 6) (a : BitVec 6) (b : BitVec 6) : Statement (.shl d a b) := of_core _ _ _ _ _ (fun _ => rfl) (by decide) (by decide) (fun r hw => by unfold decodeCore; rw [tagOf_mkWord, opOf_mkWord, dOf_mkWord, aOf_mkWord, bOf_mkWord]; rfl)
theorem shr (d : BitVec 6) (a : BitVec 6) (b : BitVec 6) : Statement (.shr d a b) := of_core _ _ _ _ _ (fun _ => rfl) (by decide) (by decide) (fun r hw => by unfold decodeCore; rw [tagOf_mkWord, opOf_mkWord, dOf_mkWord, aOf_mkWord, bOf_mkWord]; rfl)
theorem sra (d : BitVec 6) (a : BitVec 6) (b : BitVec 6) : Statement (.sra d a b) := of_core _ _ _ _ _ (fun _ => rfl) (by decide) (by decide) (fun r hw => by unfold decodeCore; rw [tagOf_mkWord, opOf_mkWord, dOf_mkWord, aOf_mkWord, bOf_mkWord]; rfl)
theorem min (d : BitVec 6) (a : BitVec 6) (b : BitVec 6) : Statement (.min d a b) := of_core _ _ _ _ _ (fun _ => rfl) (by decide) (by decide) (fun r hw => by unfold decodeCore; rw [tagOf_mkWord, opOf_mkWord, dOf_mkWord, aOf_mkWord, bOf_mkWord]; rfl)
theorem max (d : BitVec 6) (a : BitVec 6) (b : BitVec 6) : Statement (.max d a b) := of_core _ _ _ _ _ (fun _ => rfl) (by decide) (by decide) (fun r hw => by unfold decodeCore; rw [tagOf_mkWord, opOf_mkWord, dOf_mkWord, aOf_mkWord, bOf_mkWord]; rfl)
theorem minn (d : BitVec 6) (a : BitVec 6) (b : BitVec 6) : Statement (.minn d a b) := of_core _ _ _ _ _ (fun _ => rfl) (by decide) (by decide) (fun r hw => by unfold decodeCore; rw [tagOf_mkWord, opOf_mkWord, dOf_mkWord, aOf_mkWord, bOf_mkWord]; rfl)
theorem maxn (d : BitVec 6) (a : BitVec 6) (b : BitVec 6) : Statement (.maxn d a b) := of_core _ _ _ _ _ (fun _ => rfl) (by decide) (by decide) (fun r hw => by unfold decodeCore; rw [tagOf_mkWord, opOf_mkWord, dOf_mkWord, aOf_mkWord, bOf_mkWord]; rfl)
theorem clz (d : BitVec 6) (a : BitVec 6) : Statement (.clz d a) := of_core _ _ _ _ _ (fun _ => rfl) (by decide) (by decide) (fun r hw => by unfold decodeCore; rw [tagOf_mkWord, opOf_mkWord, dOf_mkWord, aOf_mkWord, bOf_mkWord, ringOf_mkWord]; show (fun (r : Ring) (d a b : BitVec 6) => ((do isZero b; some (.clz d a)) : Option Instr)) r (d) (a) (0) = _; rfl)
theorem popc (d : BitVec 6) (a : BitVec 6) : Statement (.popc d a) := of_core _ _ _ _ _ (fun _ => rfl) (by decide) (by decide) (fun r hw => by unfold decodeCore; rw [tagOf_mkWord, opOf_mkWord, dOf_mkWord, aOf_mkWord, bOf_mkWord, ringOf_mkWord]; show (fun (r : Ring) (d a b : BitVec 6) => ((do isZero b; some (.popc d a)) : Option Instr)) r (d) (a) (0) = _; rfl)
theorem addi (d : BitVec 6) (a : BitVec 6) (imm : BitVec 6) : Statement (.addi d a imm) := of_core _ _ _ _ _ (fun _ => rfl) (by decide) (by decide) (fun r hw => by unfold decodeCore; rw [tagOf_mkWord, opOf_mkWord, dOf_mkWord, aOf_mkWord, bOf_mkWord]; rfl)
theorem andi (d : BitVec 6) (a : BitVec 6) (imm : BitVec 6) : Statement (.andi d a imm) := of_core _ _ _ _ _ (fun _ => rfl) (by decide) (by decide) (fun r hw => by unfold decodeCore; rw [tagOf_mkWord, opOf_mkWord, dOf_mkWord, aOf_mkWord, bOf_mkWord]; rfl)
theorem ori (d : BitVec 6) (a : BitVec 6) (imm : BitVec 6) : Statement (.ori d a imm) := of_core _ _ _ _ _ (fun _ => rfl) (by decide) (by decide) (fun r hw => by unfold decodeCore; rw [tagOf_mkWord, opOf_mkWord, dOf_mkWord, aOf_mkWord, bOf_mkWord]; rfl)
theorem xori (d : BitVec 6) (a : BitVec 6) (imm : BitVec 6) : Statement (.xori d a imm) := of_core _ _ _ _ _ (fun _ => rfl) (by decide) (by decide) (fun r hw => by unfold decodeCore; rw [tagOf_mkWord, opOf_mkWord, dOf_mkWord, aOf_mkWord, bOf_mkWord]; rfl)
theorem shli (d : BitVec 6) (a : BitVec 6) (imm : BitVec 6) : Statement (.shli d a imm) := of_core _ _ _ _ _ (fun _ => rfl) (by decide) (by decide) (fun r hw => by unfold decodeCore; rw [tagOf_mkWord, opOf_mkWord, dOf_mkWord, aOf_mkWord, bOf_mkWord]; rfl)
theorem shri (d : BitVec 6) (a : BitVec 6) (imm : BitVec 6) : Statement (.shri d a imm) := of_core _ _ _ _ _ (fun _ => rfl) (by decide) (by decide) (fun r hw => by unfold decodeCore; rw [tagOf_mkWord, opOf_mkWord, dOf_mkWord, aOf_mkWord, bOf_mkWord]; rfl)
theorem srai (d : BitVec 6) (a : BitVec 6) (imm : BitVec 6) : Statement (.srai d a imm) := of_core _ _ _ _ _ (fun _ => rfl) (by decide) (by decide) (fun r hw => by unfold decodeCore; rw [tagOf_mkWord, opOf_mkWord, dOf_mkWord, aOf_mkWord, bOf_mkWord]; rfl)
theorem ldi (d : BitVec 6) (imm : BitVec 12) : Statement (.ldi d imm) := of_core _ _ _ _ _ (fun _ => rfl) (by decide) (by decide) (fun r hw => by unfold decodeCore; rw [tagOf_mkWord, opOf_mkWord, dOf_mkWord, aOf_mkWord, bOf_mkWord, ringOf_mkWord]; show (fun (r : Ring) (d a b : BitVec 6) => (some (.ldi d (imm12 a b)) : Option Instr)) r (d) (imm.extractLsb' 6 6) (imm.extractLsb' 0 6) = _; simp only [imm12_parts])
theorem ceq (d : BitVec 3) (a : BitVec 6) (b : BitVec 6) : Statement (.ceq d a b) := of_core _ _ _ _ _ (fun _ => rfl) (by decide) (by decide) (fun r hw => by unfold decodeCore; rw [tagOf_mkWord, opOf_mkWord, dOf_mkWord, aOf_mkWord, bOf_mkWord, ringOf_mkWord]; show (fun (r : Ring) (d a b : BitVec 6) => ((do let d ← reg3 d; some (.ceq d a b)) : Option Instr)) r (d.setWidth 6) (a) (b) = _; simp only [reg3_code]; rfl)
theorem cne (d : BitVec 3) (a : BitVec 6) (b : BitVec 6) : Statement (.cne d a b) := of_core _ _ _ _ _ (fun _ => rfl) (by decide) (by decide) (fun r hw => by unfold decodeCore; rw [tagOf_mkWord, opOf_mkWord, dOf_mkWord, aOf_mkWord, bOf_mkWord, ringOf_mkWord]; show (fun (r : Ring) (d a b : BitVec 6) => ((do let d ← reg3 d; some (.cne d a b)) : Option Instr)) r (d.setWidth 6) (a) (b) = _; simp only [reg3_code]; rfl)
theorem clt (d : BitVec 3) (a : BitVec 6) (b : BitVec 6) : Statement (.clt d a b) := of_core _ _ _ _ _ (fun _ => rfl) (by decide) (by decide) (fun r hw => by unfold decodeCore; rw [tagOf_mkWord, opOf_mkWord, dOf_mkWord, aOf_mkWord, bOf_mkWord, ringOf_mkWord]; show (fun (r : Ring) (d a b : BitVec 6) => ((do let d ← reg3 d; some (.clt d a b)) : Option Instr)) r (d.setWidth 6) (a) (b) = _; simp only [reg3_code]; rfl)
theorem cle (d : BitVec 3) (a : BitVec 6) (b : BitVec 6) : Statement (.cle d a b) := of_core _ _ _ _ _ (fun _ => rfl) (by decide) (by decide) (fun r hw => by unfold decodeCore; rw [tagOf_mkWord, opOf_mkWord, dOf_mkWord, aOf_mkWord, bOf_mkWord, ringOf_mkWord]; show (fun (r : Ring) (d a b : BitVec 6) => ((do let d ← reg3 d; some (.cle d a b)) : Option Instr)) r (d.setWidth 6) (a) (b) = _; simp only [reg3_code]; rfl)
theorem cltn (d : BitVec 3) (a : BitVec 6) (b : BitVec 6) : Statement (.cltn d a b) := of_core _ _ _ _ _ (fun _ => rfl) (by decide) (by decide) (fun r hw => by unfold decodeCore; rw [tagOf_mkWord, opOf_mkWord, dOf_mkWord, aOf_mkWord, bOf_mkWord, ringOf_mkWord]; show (fun (r : Ring) (d a b : BitVec 6) => ((do let d ← reg3 d; some (.cltn d a b)) : Option Instr)) r (d.setWidth 6) (a) (b) = _; simp only [reg3_code]; rfl)
theorem clen (d : BitVec 3) (a : BitVec 6) (b : BitVec 6) : Statement (.clen d a b) := of_core _ _ _ _ _ (fun _ => rfl) (by decide) (by decide) (fun r hw => by unfold decodeCore; rw [tagOf_mkWord, opOf_mkWord, dOf_mkWord, aOf_mkWord, bOf_mkWord, ringOf_mkWord]; show (fun (r : Ring) (d a b : BitVec 6) => ((do let d ← reg3 d; some (.clen d a b)) : Option Instr)) r (d.setWidth 6) (a) (b) = _; simp only [reg3_code]; rfl)
theorem fand (d : BitVec 3) (a : BitVec 3) (b : BitVec 3) : Statement (.fand d a b) := of_core _ _ _ _ _ (fun _ => rfl) (by decide) (by decide) (fun r hw => by unfold decodeCore; rw [tagOf_mkWord, opOf_mkWord, dOf_mkWord, aOf_mkWord, bOf_mkWord, ringOf_mkWord]; show (fun (r : Ring) (d a b : BitVec 6) => ((do let d ← reg3 d; let a ← reg3 a; let b ← reg3 b; some (.fand d a b)) : Option Instr)) r (d.setWidth 6) (a.setWidth 6) (b.setWidth 6) = _; simp only [reg3_code]; rfl)
theorem forF (d : BitVec 3) (a : BitVec 3) (b : BitVec 3) : Statement (.forF d a b) := of_core _ _ _ _ _ (fun _ => rfl) (by decide) (by decide) (fun r hw => by unfold decodeCore; rw [tagOf_mkWord, opOf_mkWord, dOf_mkWord, aOf_mkWord, bOf_mkWord, ringOf_mkWord]; show (fun (r : Ring) (d a b : BitVec 6) => ((do let d ← reg3 d; let a ← reg3 a; let b ← reg3 b; some (.forF d a b)) : Option Instr)) r (d.setWidth 6) (a.setWidth 6) (b.setWidth 6) = _; simp only [reg3_code]; rfl)
theorem fnot (d : BitVec 3) (a : BitVec 3) : Statement (.fnot d a) := of_core _ _ _ _ _ (fun _ => rfl) (by decide) (by decide) (fun r hw => by unfold decodeCore; rw [tagOf_mkWord, opOf_mkWord, dOf_mkWord, aOf_mkWord, bOf_mkWord, ringOf_mkWord]; show (fun (r : Ring) (d a b : BitVec 6) => ((do isZero b; let d ← reg3 d; let a ← reg3 a; some (.fnot d a)) : Option Instr)) r (d.setWidth 6) (a.setWidth 6) (0) = _; simp only [reg3_code]; rfl)
theorem cmov (d : BitVec 6) (a : BitVec 6) (b : BitVec 3) : Statement (.cmov d a b) := of_core _ _ _ _ _ (fun _ => rfl) (by decide) (by decide) (fun r hw => by unfold decodeCore; rw [tagOf_mkWord, opOf_mkWord, dOf_mkWord, aOf_mkWord, bOf_mkWord, ringOf_mkWord]; show (fun (r : Ring) (d a b : BitVec 6) => ((do let b ← reg3 b; some (.cmov d a b)) : Option Instr)) r (d) (a) (b.setWidth 6) = _; simp only [reg3_code]; rfl)
theorem ftos (d : BitVec 6) (a : BitVec 3) : Statement (.ftos d a) := of_core _ _ _ _ _ (fun _ => rfl) (by decide) (by decide) (fun r hw => by unfold decodeCore; rw [tagOf_mkWord, opOf_mkWord, dOf_mkWord, aOf_mkWord, bOf_mkWord, ringOf_mkWord]; show (fun (r : Ring) (d a b : BitVec 6) => ((do isZero b; let a ← reg3 a; some (.ftos d a)) : Option Instr)) r (d) (a.setWidth 6) (0) = _; simp only [reg3_code]; rfl)
theorem fadd32 (d : BitVec 6) (a : BitVec 6) (b : BitVec 6) : Statement (.fadd32 d a b) := of_core _ _ _ _ _ (fun _ => rfl) (by decide) (by decide) (fun r hw => by unfold decodeCore; rw [tagOf_mkWord, opOf_mkWord, dOf_mkWord, aOf_mkWord, bOf_mkWord]; rfl)
theorem fsub32 (d : BitVec 6) (a : BitVec 6) (b : BitVec 6) : Statement (.fsub32 d a b) := of_core _ _ _ _ _ (fun _ => rfl) (by decide) (by decide) (fun r hw => by unfold decodeCore; rw [tagOf_mkWord, opOf_mkWord, dOf_mkWord, aOf_mkWord, bOf_mkWord]; rfl)
theorem fmul32 (d : BitVec 6) (a : BitVec 6) (b : BitVec 6) : Statement (.fmul32 d a b) := of_core _ _ _ _ _ (fun _ => rfl) (by decide) (by decide) (fun r hw => by unfold decodeCore; rw [tagOf_mkWord, opOf_mkWord, dOf_mkWord, aOf_mkWord, bOf_mkWord]; rfl)
theorem ffma32 (d : BitVec 6) (a : BitVec 6) (b : BitVec 6) : Statement (.ffma32 d a b) := of_core _ _ _ _ _ (fun _ => rfl) (by decide) (by decide) (fun r hw => by unfold decodeCore; rw [tagOf_mkWord, opOf_mkWord, dOf_mkWord, aOf_mkWord, bOf_mkWord]; rfl)
theorem fdiv32 (d : BitVec 6) (a : BitVec 6) (b : BitVec 6) : Statement (.fdiv32 d a b) := of_core _ _ _ _ _ (fun _ => rfl) (by decide) (by decide) (fun r hw => by unfold decodeCore; rw [tagOf_mkWord, opOf_mkWord, dOf_mkWord, aOf_mkWord, bOf_mkWord]; rfl)
theorem fsqrt32 (d : BitVec 6) (a : BitVec 6) : Statement (.fsqrt32 d a) := of_core _ _ _ _ _ (fun _ => rfl) (by decide) (by decide) (fun r hw => by unfold decodeCore; rw [tagOf_mkWord, opOf_mkWord, dOf_mkWord, aOf_mkWord, bOf_mkWord, ringOf_mkWord]; show (fun (r : Ring) (d a b : BitVec 6) => ((do isZero b; some (.fsqrt32 d a)) : Option Instr)) r (d) (a) (0) = _; rfl)
theorem fmin32 (d : BitVec 6) (a : BitVec 6) (b : BitVec 6) : Statement (.fmin32 d a b) := of_core _ _ _ _ _ (fun _ => rfl) (by decide) (by decide) (fun r hw => by unfold decodeCore; rw [tagOf_mkWord, opOf_mkWord, dOf_mkWord, aOf_mkWord, bOf_mkWord]; rfl)
theorem fmax32 (d : BitVec 6) (a : BitVec 6) (b : BitVec 6) : Statement (.fmax32 d a b) := of_core _ _ _ _ _ (fun _ => rfl) (by decide) (by decide) (fun r hw => by unfold decodeCore; rw [tagOf_mkWord, opOf_mkWord, dOf_mkWord, aOf_mkWord, bOf_mkWord]; rfl)
theorem fcmp32 (d : BitVec 6) (a : BitVec 6) (b : BitVec 6) : Statement (.fcmp32 d a b) := of_core _ _ _ _ _ (fun _ => rfl) (by decide) (by decide) (fun r hw => by unfold decodeCore; rw [tagOf_mkWord, opOf_mkWord, dOf_mkWord, aOf_mkWord, bOf_mkWord]; rfl)
theorem fcvt (d : BitVec 6) (a : BitVec 6) (imm : BitVec 6) : Statement (.fcvt d a imm) := of_core _ _ _ _ _ (fun _ => rfl) (by decide) (by decide) (fun r hw => by unfold decodeCore; rw [tagOf_mkWord, opOf_mkWord, dOf_mkWord, aOf_mkWord, bOf_mkWord]; rfl)
theorem gld (d : BitVec 6) (a : BitVec 6) (imm : BitVec 6) : Statement (.gld d a imm) := of_core _ _ _ _ _ (fun _ => rfl) (by decide) (by decide) (fun r hw => by unfold decodeCore; rw [tagOf_mkWord, opOf_mkWord, dOf_mkWord, aOf_mkWord, bOf_mkWord]; rfl)
theorem gst (d : BitVec 6) (a : BitVec 6) (imm : BitVec 6) : Statement (.gst d a imm) := of_core _ _ _ _ _ (fun _ => rfl) (by decide) (by decide) (fun r hw => by unfold decodeCore; rw [tagOf_mkWord, opOf_mkWord, dOf_mkWord, aOf_mkWord, bOf_mkWord]; rfl)
theorem glds (d : BitVec 6) (a : BitVec 6) (imm : BitVec 6) : Statement (.glds d a imm) := of_core _ _ _ _ _ (fun _ => rfl) (by decide) (by decide) (fun r hw => by unfold decodeCore; rw [tagOf_mkWord, opOf_mkWord, dOf_mkWord, aOf_mkWord, bOf_mkWord]; rfl)
theorem chk (a : BitVec 6) : Statement (.chk a) := of_core _ _ _ _ _ (fun _ => rfl) (by decide) (by decide) (fun r hw => by unfold decodeCore; rw [tagOf_mkWord, opOf_mkWord, dOf_mkWord, aOf_mkWord, bOf_mkWord, ringOf_mkWord]; show (fun (r : Ring) (d a b : BitVec 6) => ((do isZero d; isZero b; some (.chk a)) : Option Instr)) r (0) (a) (0) = _; rfl)
theorem arg (d : BitVec 6) (imm : BitVec 12) : Statement (.arg d imm) := of_core _ _ _ _ _ (fun _ => rfl) (by decide) (by decide) (fun r hw => by unfold decodeCore; rw [tagOf_mkWord, opOf_mkWord, dOf_mkWord, aOf_mkWord, bOf_mkWord, ringOf_mkWord]; show (fun (r : Ring) (d a b : BitVec 6) => (some (.arg d (imm12 a b)) : Option Instr)) r (d) (imm.extractLsb' 6 6) (imm.extractLsb' 0 6) = _; simp only [imm12_parts])
theorem gatom (d : BitVec 6) (a : BitVec 6) (b : BitVec 6) : Statement (.gatom d a b) := of_core _ _ _ _ _ (fun _ => rfl) (by decide) (by decide) (fun r hw => by unfold decodeCore; rw [tagOf_mkWord, opOf_mkWord, dOf_mkWord, aOf_mkWord, bOf_mkWord]; rfl)
theorem gcas (d : BitVec 6) (a : BitVec 6) (b : BitVec 6) : Statement (.gcas d a b) := of_core _ _ _ _ _ (fun _ => rfl) (by decide) (by decide) (fun r hw => by unfold decodeCore; rw [tagOf_mkWord, opOf_mkWord, dOf_mkWord, aOf_mkWord, bOf_mkWord]; rfl)
theorem puta (a : BitVec 6) : Statement (.puta a) := of_core _ _ _ _ _ (fun _ => rfl) (by decide) (by decide) (fun r hw => by unfold decodeCore; rw [tagOf_mkWord, opOf_mkWord, dOf_mkWord, aOf_mkWord, bOf_mkWord, ringOf_mkWord]; show (fun (r : Ring) (d a b : BitVec 6) => ((do isZero d; isZero b; some (.puta a)) : Option Instr)) r (0) (a) (0) = _; rfl)
theorem putv (a : BitVec 6) : Statement (.putv a) := of_core _ _ _ _ _ (fun _ => rfl) (by decide) (by decide) (fun r hw => by unfold decodeCore; rw [tagOf_mkWord, opOf_mkWord, dOf_mkWord, aOf_mkWord, bOf_mkWord, ringOf_mkWord]; show (fun (r : Ring) (d a b : BitVec 6) => ((do isZero d; isZero b; some (.putv a)) : Option Instr)) r (0) (a) (0) = _; rfl)
theorem putm (a : BitVec 6) : Statement (.putm a) := of_core _ _ _ _ _ (fun _ => rfl) (by decide) (by decide) (fun r hw => by unfold decodeCore; rw [tagOf_mkWord, opOf_mkWord, dOf_mkWord, aOf_mkWord, bOf_mkWord, ringOf_mkWord]; show (fun (r : Ring) (d a b : BitVec 6) => ((do isZero d; isZero b; some (.putm a)) : Option Instr)) r (0) (a) (0) = _; rfl)
theorem putx (a : BitVec 6) : Statement (.putx a) := of_core _ _ _ _ _ (fun _ => rfl) (by decide) (by decide) (fun r hw => by unfold decodeCore; rw [tagOf_mkWord, opOf_mkWord, dOf_mkWord, aOf_mkWord, bOf_mkWord, ringOf_mkWord]; show (fun (r : Ring) (d a b : BitVec 6) => ((do isZero d; isZero b; some (.putx a)) : Option Instr)) r (0) (a) (0) = _; rfl)
theorem geta (d : BitVec 6) : Statement (.geta d) := of_core _ _ _ _ _ (fun _ => rfl) (by decide) (by decide) (fun r hw => by unfold decodeCore; rw [tagOf_mkWord, opOf_mkWord, dOf_mkWord, aOf_mkWord, bOf_mkWord, ringOf_mkWord]; show (fun (r : Ring) (d a b : BitVec 6) => ((do isZero a; isZero b; some (.geta d)) : Option Instr)) r (d) (0) (0) = _; rfl)
theorem getv (d : BitVec 6) : Statement (.getv d) := of_core _ _ _ _ _ (fun _ => rfl) (by decide) (by decide) (fun r hw => by unfold decodeCore; rw [tagOf_mkWord, opOf_mkWord, dOf_mkWord, aOf_mkWord, bOf_mkWord, ringOf_mkWord]; show (fun (r : Ring) (d a b : BitVec 6) => ((do isZero a; isZero b; some (.getv d)) : Option Instr)) r (d) (0) (0) = _; rfl)
theorem getm (d : BitVec 6) : Statement (.getm d) := of_core _ _ _ _ _ (fun _ => rfl) (by decide) (by decide) (fun r hw => by unfold decodeCore; rw [tagOf_mkWord, opOf_mkWord, dOf_mkWord, aOf_mkWord, bOf_mkWord, ringOf_mkWord]; show (fun (r : Ring) (d a b : BitVec 6) => ((do isZero a; isZero b; some (.getm d)) : Option Instr)) r (d) (0) (0) = _; rfl)
theorem getx (d : BitVec 6) : Statement (.getx d) := of_core _ _ _ _ _ (fun _ => rfl) (by decide) (by decide) (fun r hw => by unfold decodeCore; rw [tagOf_mkWord, opOf_mkWord, dOf_mkWord, aOf_mkWord, bOf_mkWord, ringOf_mkWord]; show (fun (r : Ring) (d a b : BitVec 6) => ((do isZero a; isZero b; some (.getx d)) : Option Instr)) r (d) (0) (0) = _; rfl)
theorem sig (sem : BitVec 4) (count : BitVec 14) : Statement (.sig sem count) := of_core _ _ _ _ _ (fun _ => rfl) (by decide) (by decide) (fun r hw => by unfold decodeCore; rw [tagOf_mkWord, opOf_mkWord, dOf_mkWord, aOf_mkWord, bOf_mkWord, ringOf_mkWord]; show (fun (r : Ring) (d a b : BitVec 6) => (some (.sig (semOf d) (cntOf d a b)) : Option Instr)) r ((sem ++ count.extractLsb' 12 2)) (count.extractLsb' 6 6) (count.extractLsb' 0 6) = _; simp only [semOf_parts, cntOf_parts])
theorem wait (sem : BitVec 4) (count : BitVec 14) : Statement (.wait sem count) := of_core _ _ _ _ _ (fun _ => rfl) (by decide) (by decide) (fun r hw => by unfold decodeCore; rw [tagOf_mkWord, opOf_mkWord, dOf_mkWord, aOf_mkWord, bOf_mkWord, ringOf_mkWord]; show (fun (r : Ring) (d a b : BitVec 6) => (some (.wait (semOf d) (cntOf d a b)) : Option Instr)) r ((sem ++ count.extractLsb' 12 2)) (count.extractLsb' 6 6) (count.extractLsb' 0 6) = _; simp only [semOf_parts, cntOf_parts])
theorem semrd (d : BitVec 6) (imm : BitVec 12) : Statement (.semrd d imm) := of_core _ _ _ _ _ (fun _ => rfl) (by decide) (by decide) (fun r hw => by unfold decodeCore; rw [tagOf_mkWord, opOf_mkWord, dOf_mkWord, aOf_mkWord, bOf_mkWord, ringOf_mkWord]; show (fun (r : Ring) (d a b : BitVec 6) => (some (.semrd d (imm12 a b)) : Option Instr)) r (d) (imm.extractLsb' 6 6) (imm.extractLsb' 0 6) = _; simp only [imm12_parts])
theorem fence (kind : BitVec 2) (scope : BitVec 2) : Statement (.fence kind scope) := of_core _ _ _ _ _ (fun _ => rfl) (by decide) (by decide) (fun r hw => by unfold decodeCore; rw [tagOf_mkWord, opOf_mkWord, dOf_mkWord, aOf_mkWord, bOf_mkWord, ringOf_mkWord]; show (do isZero 0; isZero 0; hiZero (0#2 ++ kind ++ scope) 4; some (Instr.fence ((0#2 ++ kind ++ scope).extractLsb' 2 2) ((0#2 ++ kind ++ scope).extractLsb' 0 2))) = _; clear hw; revert kind scope; decide)
theorem fpclm (d : BitVec 6) (a : BitVec 6) (b : BitVec 6) : Statement (.fpclm d a b) := of_core _ _ _ _ _ (fun _ => rfl) (by decide) (by decide) (fun r hw => by unfold decodeCore; rw [tagOf_mkWord, opOf_mkWord, dOf_mkWord, aOf_mkWord, bOf_mkWord]; rfl)
theorem fprel (a : BitVec 6) : Statement (.fprel a) := of_core _ _ _ _ _ (fun _ => rfl) (by decide) (by decide) (fun r hw => by unfold decodeCore; rw [tagOf_mkWord, opOf_mkWord, dOf_mkWord, aOf_mkWord, bOf_mkWord, ringOf_mkWord]; show (fun (r : Ring) (d a b : BitVec 6) => ((do isZero d; isZero b; some (.fprel a)) : Option Instr)) r (0) (a) (0) = _; rfl)
theorem csrr (d : BitVec 6) (imm : BitVec 12) : Statement (.csrr d imm) := of_core _ _ _ _ _ (fun _ => rfl) (by decide) (by decide) (fun r hw => by unfold decodeCore; rw [tagOf_mkWord, opOf_mkWord, dOf_mkWord, aOf_mkWord, bOf_mkWord, ringOf_mkWord]; show (fun (r : Ring) (d a b : BitVec 6) => (some (.csrr d (imm12 a b)) : Option Instr)) r (d) (imm.extractLsb' 6 6) (imm.extractLsb' 0 6) = _; simp only [imm12_parts])
theorem csrw (d : BitVec 6) (imm : BitVec 12) : Statement (.csrw d imm) := of_core _ _ _ _ _ (fun _ => rfl) (by decide) (by decide) (fun r hw => by unfold decodeCore; rw [tagOf_mkWord, opOf_mkWord, dOf_mkWord, aOf_mkWord, bOf_mkWord, ringOf_mkWord]; show (fun (r : Ring) (d a b : BitVec 6) => (some (.csrw d (imm12 a b)) : Option Instr)) r (d) (imm.extractLsb' 6 6) (imm.extractLsb' 0 6) = _; simp only [imm12_parts])
theorem trap (imm : BitVec 18) : Statement (.trap imm) := of_core _ _ _ _ _ (fun _ => rfl) (by decide) (by decide) (fun r hw => by unfold decodeCore; rw [tagOf_mkWord, opOf_mkWord, dOf_mkWord, aOf_mkWord, bOf_mkWord, ringOf_mkWord]; show (fun (r : Ring) (d a b : BitVec 6) => (some (.trap (imm18 d a b)) : Option Instr)) r (imm.extractLsb' 12 6) (imm.extractLsb' 6 6) (imm.extractLsb' 0 6) = _; simp only [imm18_parts])
theorem cycle (d : BitVec 6) : Statement (.cycle d) := of_core _ _ _ _ _ (fun _ => rfl) (by decide) (by decide) (fun r hw => by unfold decodeCore; rw [tagOf_mkWord, opOf_mkWord, dOf_mkWord, aOf_mkWord, bOf_mkWord, ringOf_mkWord]; show (fun (r : Ring) (d a b : BitVec 6) => ((do isZero a; isZero b; some (.cycle d)) : Option Instr)) r (d) (0) (0) = _; rfl)
theorem dbg (imm : BitVec 18) : Statement (.dbg imm) := of_core _ _ _ _ _ (fun _ => rfl) (by decide) (by decide) (fun r hw => by unfold decodeCore; rw [tagOf_mkWord, opOf_mkWord, dOf_mkWord, aOf_mkWord, bOf_mkWord, ringOf_mkWord]; show (fun (r : Ring) (d a b : BitVec 6) => (some (.dbg (imm18 d a b)) : Option Instr)) r (imm.extractLsb' 12 6) (imm.extractLsb' 6 6) (imm.extractLsb' 0 6) = _; simp only [imm18_parts])
theorem tlbi (a : BitVec 6) (b : BitVec 6) : Statement (.tlbi a b) := of_core _ _ _ _ _ (fun _ => rfl) (by decide) (by decide) (fun r hw => by unfold decodeCore; rw [tagOf_mkWord, opOf_mkWord, dOf_mkWord, aOf_mkWord, bOf_mkWord, ringOf_mkWord]; show (fun (r : Ring) (d a b : BitVec 6) => ((do isZero d; some (.tlbi a b)) : Option Instr)) r (0) (a) (b) = _; rfl)
theorem qpush (d : BitVec 6) (a : BitVec 6) : Statement (.qpush d a) := of_core _ _ _ _ _ (fun _ => rfl) (by decide) (by decide) (fun r hw => by unfold decodeCore; rw [tagOf_mkWord, opOf_mkWord, dOf_mkWord, aOf_mkWord, bOf_mkWord, ringOf_mkWord]; show (fun (r : Ring) (d a b : BitVec 6) => ((do isZero b; some (.qpush d a)) : Option Instr)) r (d) (a) (0) = _; rfl)
theorem glaunch (d : BitVec 6) (a : BitVec 6) : Statement (.glaunch d a) := of_core _ _ _ _ _ (fun _ => rfl) (by decide) (by decide) (fun r hw => by unfold decodeCore; rw [tagOf_mkWord, opOf_mkWord, dOf_mkWord, aOf_mkWord, bOf_mkWord, ringOf_mkWord]; show (fun (r : Ring) (d a b : BitVec 6) => ((do isZero b; some (.glaunch d a)) : Option Instr)) r (d) (a) (0) = _; rfl)
theorem gtok (d : BitVec 6) (a : BitVec 6) : Statement (.gtok d a) := of_core _ _ _ _ _ (fun _ => rfl) (by decide) (by decide) (fun r hw => by unfold decodeCore; rw [tagOf_mkWord, opOf_mkWord, dOf_mkWord, aOf_mkWord, bOf_mkWord, ringOf_mkWord]; show (fun (r : Ring) (d a b : BitVec 6) => ((do isZero b; some (.gtok d a)) : Option Instr)) r (d) (a) (0) = _; rfl)
theorem gstat (d : BitVec 6) (a : BitVec 6) (b : BitVec 6) : Statement (.gstat d a b) := of_core _ _ _ _ _ (fun _ => rfl) (by decide) (by decide) (fun r hw => by unfold decodeCore; rw [tagOf_mkWord, opOf_mkWord, dOf_mkWord, aOf_mkWord, bOf_mkWord]; rfl)
theorem gcancel (d : BitVec 6) (a : BitVec 6) (b : BitVec 6) : Statement (.gcancel d a b) := of_core _ _ _ _ _ (fun _ => rfl) (by decide) (by decide) (fun r hw => by unfold decodeCore; rw [tagOf_mkWord, opOf_mkWord, dOf_mkWord, aOf_mkWord, bOf_mkWord]; rfl)
theorem barw (d : BitVec 6) (a : BitVec 6) (b : BitVec 6) : Statement (.barw d a b) := of_core _ _ _ _ _ (fun _ => rfl) (by decide) (by decide) (fun r hw => by unfold decodeCore; rw [tagOf_mkWord, opOf_mkWord, dOf_mkWord, aOf_mkWord, bOf_mkWord]; rfl)
theorem vpin (d : BitVec 6) (a : BitVec 6) : Statement (.vpin d a) := of_core _ _ _ _ _ (fun _ => rfl) (by decide) (by decide) (fun r hw => by unfold decodeCore; rw [tagOf_mkWord, opOf_mkWord, dOf_mkWord, aOf_mkWord, bOf_mkWord, ringOf_mkWord]; show (fun (r : Ring) (d a b : BitVec 6) => ((do isZero b; some (.vpin d a)) : Option Instr)) r (d) (a) (0) = _; rfl)
theorem vunpin (a : BitVec 6) : Statement (.vunpin a) := of_core _ _ _ _ _ (fun _ => rfl) (by decide) (by decide) (fun r hw => by unfold decodeCore; rw [tagOf_mkWord, opOf_mkWord, dOf_mkWord, aOf_mkWord, bOf_mkWord, ringOf_mkWord]; show (fun (r : Ring) (d a b : BitVec 6) => ((do isZero d; isZero b; some (.vunpin a)) : Option Instr)) r (0) (a) (0) = _; rfl)
theorem bkqry (d : BitVec 6) (a : BitVec 6) : Statement (.bkqry d a) := of_core _ _ _ _ _ (fun _ => rfl) (by decide) (by decide) (fun r hw => by unfold decodeCore; rw [tagOf_mkWord, opOf_mkWord, dOf_mkWord, aOf_mkWord, bOf_mkWord, ringOf_mkWord]; show (fun (r : Ring) (d a b : BitVec 6) => ((do isZero b; some (.bkqry d a)) : Option Instr)) r (d) (a) (0) = _; rfl)
theorem walk (d : BitVec 6) (a : BitVec 6) : Statement (.walk d a) := of_core _ _ _ _ _ (fun _ => rfl) (by decide) (by decide) (fun r hw => by unfold decodeCore; rw [tagOf_mkWord, opOf_mkWord, dOf_mkWord, aOf_mkWord, bOf_mkWord, ringOf_mkWord]; show (fun (r : Ring) (d a b : BitVec 6) => ((do isZero b; some (.walk d a)) : Option Instr)) r (d) (a) (0) = _; rfl)
theorem grprank (d : BitVec 6) (a : BitVec 6) : Statement (.grprank d a) := of_core _ _ _ _ _ (fun _ => rfl) (by decide) (by decide) (fun r hw => by unfold decodeCore; rw [tagOf_mkWord, opOf_mkWord, dOf_mkWord, aOf_mkWord, bOf_mkWord, ringOf_mkWord]; show (fun (r : Ring) (d a b : BitVec 6) => ((do isZero b; some (.grprank d a)) : Option Instr)) r (d) (a) (0) = _; rfl)
theorem rsig (a : BitVec 6) (b : BitVec 6) : Statement (.rsig a b) := of_core _ _ _ _ _ (fun _ => rfl) (by decide) (by decide) (fun r hw => by unfold decodeCore; rw [tagOf_mkWord, opOf_mkWord, dOf_mkWord, aOf_mkWord, bOf_mkWord, ringOf_mkWord]; show (fun (r : Ring) (d a b : BitVec 6) => ((do isZero d; some (.rsig a b)) : Option Instr)) r (0) (a) (b) = _; rfl)
theorem pgqry (d : BitVec 6) (a : BitVec 6) : Statement (.pgqry d a) := of_core _ _ _ _ _ (fun _ => rfl) (by decide) (by decide) (fun r hw => by unfold decodeCore; rw [tagOf_mkWord, opOf_mkWord, dOf_mkWord, aOf_mkWord, bOf_mkWord, ringOf_mkWord]; show (fun (r : Ring) (d a b : BitVec 6) => ((do isZero b; some (.pgqry d a)) : Option Instr)) r (d) (a) (0) = _; rfl)
theorem extS (imm : BitVec 18) : Statement (.extS imm) := of_bare _ _ _ _ _ (fun _ => rfl) (by decide) (fun hw => by unfold decodeCore; rw [tagOf_mkWord, opOf_mkWord, dOf_mkWord, aOf_mkWord, bOf_mkWord, ringOf_mkWord]; show (fun (r : Ring) (d a b : BitVec 6) => ((do ringZero r; some (.extS (imm18 d a b))) : Option Instr)) Ring.zero (imm.extractLsb' 12 6) (imm.extractLsb' 6 6) (imm.extractLsb' 0 6) = _; simp only [imm18_parts]; rfl)
theorem aadd (d : BitVec 5) (a : BitVec 5) (b : BitVec 5) : Statement (.aadd d a b) := of_core _ _ _ _ _ (fun _ => rfl) (by decide) (by decide) (fun r hw => by unfold decodeCore; rw [tagOf_mkWord, opOf_mkWord, dOf_mkWord, aOf_mkWord, bOf_mkWord, ringOf_mkWord]; show (fun (r : Ring) (d a b : BitVec 6) => ((do let d ← reg5 d; let a ← reg5 a; let b ← reg5 b; some (.aadd d a b)) : Option Instr)) r (d.setWidth 6) (a.setWidth 6) (b.setWidth 6) = _; simp only [reg5_code]; rfl)
theorem asub (d : BitVec 5) (a : BitVec 5) (b : BitVec 5) : Statement (.asub d a b) := of_core _ _ _ _ _ (fun _ => rfl) (by decide) (by decide) (fun r hw => by unfold decodeCore; rw [tagOf_mkWord, opOf_mkWord, dOf_mkWord, aOf_mkWord, bOf_mkWord, ringOf_mkWord]; show (fun (r : Ring) (d a b : BitVec 6) => ((do let d ← reg5 d; let a ← reg5 a; let b ← reg5 b; some (.asub d a b)) : Option Instr)) r (d.setWidth 6) (a.setWidth 6) (b.setWidth 6) = _; simp only [reg5_code]; rfl)
theorem amul (d : BitVec 5) (a : BitVec 5) (b : BitVec 5) : Statement (.amul d a b) := of_core _ _ _ _ _ (fun _ => rfl) (by decide) (by decide) (fun r hw => by unfold decodeCore; rw [tagOf_mkWord, opOf_mkWord, dOf_mkWord, aOf_mkWord, bOf_mkWord, ringOf_mkWord]; show (fun (r : Ring) (d a b : BitVec 6) => ((do let d ← reg5 d; let a ← reg5 a; let b ← reg5 b; some (.amul d a b)) : Option Instr)) r (d.setWidth 6) (a.setWidth 6) (b.setWidth 6) = _; simp only [reg5_code]; rfl)
theorem aand (d : BitVec 5) (a : BitVec 5) (b : BitVec 5) : Statement (.aand d a b) := of_core _ _ _ _ _ (fun _ => rfl) (by decide) (by decide) (fun r hw => by unfold decodeCore; rw [tagOf_mkWord, opOf_mkWord, dOf_mkWord, aOf_mkWord, bOf_mkWord, ringOf_mkWord]; show (fun (r : Ring) (d a b : BitVec 6) => ((do let d ← reg5 d; let a ← reg5 a; let b ← reg5 b; some (.aand d a b)) : Option Instr)) r (d.setWidth 6) (a.setWidth 6) (b.setWidth 6) = _; simp only [reg5_code]; rfl)
theorem aor (d : BitVec 5) (a : BitVec 5) (b : BitVec 5) : Statement (.aor d a b) := of_core _ _ _ _ _ (fun _ => rfl) (by decide) (by decide) (fun r hw => by unfold decodeCore; rw [tagOf_mkWord, opOf_mkWord, dOf_mkWord, aOf_mkWord, bOf_mkWord, ringOf_mkWord]; show (fun (r : Ring) (d a b : BitVec 6) => ((do let d ← reg5 d; let a ← reg5 a; let b ← reg5 b; some (.aor d a b)) : Option Instr)) r (d.setWidth 6) (a.setWidth 6) (b.setWidth 6) = _; simp only [reg5_code]; rfl)
theorem ashl (d : BitVec 5) (a : BitVec 5) (b : BitVec 5) : Statement (.ashl d a b) := of_core _ _ _ _ _ (fun _ => rfl) (by decide) (by decide) (fun r hw => by unfold decodeCore; rw [tagOf_mkWord, opOf_mkWord, dOf_mkWord, aOf_mkWord, bOf_mkWord, ringOf_mkWord]; show (fun (r : Ring) (d a b : BitVec 6) => ((do let d ← reg5 d; let a ← reg5 a; let b ← reg5 b; some (.ashl d a b)) : Option Instr)) r (d.setWidth 6) (a.setWidth 6) (b.setWidth 6) = _; simp only [reg5_code]; rfl)
theorem ashr (d : BitVec 5) (a : BitVec 5) (b : BitVec 5) : Statement (.ashr d a b) := of_core _ _ _ _ _ (fun _ => rfl) (by decide) (by decide) (fun r hw => by unfold decodeCore; rw [tagOf_mkWord, opOf_mkWord, dOf_mkWord, aOf_mkWord, bOf_mkWord, ringOf_mkWord]; show (fun (r : Ring) (d a b : BitVec 6) => ((do let d ← reg5 d; let a ← reg5 a; let b ← reg5 b; some (.ashr d a b)) : Option Instr)) r (d.setWidth 6) (a.setWidth 6) (b.setWidth 6) = _; simp only [reg5_code]; rfl)
theorem aaddi (d : BitVec 5) (a : BitVec 5) (imm : BitVec 6) : Statement (.aaddi d a imm) := of_core _ _ _ _ _ (fun _ => rfl) (by decide) (by decide) (fun r hw => by unfold decodeCore; rw [tagOf_mkWord, opOf_mkWord, dOf_mkWord, aOf_mkWord, bOf_mkWord, ringOf_mkWord]; show (fun (r : Ring) (d a b : BitVec 6) => ((do let d ← reg5 d; let a ← reg5 a; some (.aaddi d a b)) : Option Instr)) r (d.setWidth 6) (a.setWidth 6) (imm) = _; simp only [reg5_code]; rfl)
theorem aldi (d : BitVec 5) (imm : BitVec 12) : Statement (.aldi d imm) := of_core _ _ _ _ _ (fun _ => rfl) (by decide) (by decide) (fun r hw => by unfold decodeCore; rw [tagOf_mkWord, opOf_mkWord, dOf_mkWord, aOf_mkWord, bOf_mkWord, ringOf_mkWord]; show (fun (r : Ring) (d a b : BitVec 6) => ((do let d ← reg5 d; some (.aldi d (imm12 a b))) : Option Instr)) r (d.setWidth 6) (imm.extractLsb' 6 6) (imm.extractLsb' 0 6) = _; simp only [reg5_code, imm12_parts]; rfl)
theorem amin (d : BitVec 5) (a : BitVec 5) (b : BitVec 5) : Statement (.amin d a b) := of_core _ _ _ _ _ (fun _ => rfl) (by decide) (by decide) (fun r hw => by unfold decodeCore; rw [tagOf_mkWord, opOf_mkWord, dOf_mkWord, aOf_mkWord, bOf_mkWord, ringOf_mkWord]; show (fun (r : Ring) (d a b : BitVec 6) => ((do let d ← reg5 d; let a ← reg5 a; let b ← reg5 b; some (.amin d a b)) : Option Instr)) r (d.setWidth 6) (a.setWidth 6) (b.setWidth 6) = _; simp only [reg5_code]; rfl)
theorem amax (d : BitVec 5) (a : BitVec 5) (b : BitVec 5) : Statement (.amax d a b) := of_core _ _ _ _ _ (fun _ => rfl) (by decide) (by decide) (fun r hw => by unfold decodeCore; rw [tagOf_mkWord, opOf_mkWord, dOf_mkWord, aOf_mkWord, bOf_mkWord, ringOf_mkWord]; show (fun (r : Ring) (d a b : BitVec 6) => ((do let d ← reg5 d; let a ← reg5 a; let b ← reg5 b; some (.amax d a b)) : Option Instr)) r (d.setWidth 6) (a.setWidth 6) (b.setWidth 6) = _; simp only [reg5_code]; rfl)
theorem ald (d : BitVec 5) (a : BitVec 5) (imm : BitVec 6) : Statement (.ald d a imm) := of_core _ _ _ _ _ (fun _ => rfl) (by decide) (by decide) (fun r hw => by unfold decodeCore; rw [tagOf_mkWord, opOf_mkWord, dOf_mkWord, aOf_mkWord, bOf_mkWord, ringOf_mkWord]; show (fun (r : Ring) (d a b : BitVec 6) => ((do let d ← reg5 d; let a ← reg5 a; some (.ald d a b)) : Option Instr)) r (d.setWidth 6) (a.setWidth 6) (imm) = _; simp only [reg5_code]; rfl)
theorem ast (d : BitVec 5) (a : BitVec 5) (imm : BitVec 6) : Statement (.ast d a imm) := of_core _ _ _ _ _ (fun _ => rfl) (by decide) (by decide) (fun r hw => by unfold decodeCore; rw [tagOf_mkWord, opOf_mkWord, dOf_mkWord, aOf_mkWord, bOf_mkWord, ringOf_mkWord]; show (fun (r : Ring) (d a b : BitVec 6) => ((do let d ← reg5 d; let a ← reg5 a; some (.ast d a b)) : Option Instr)) r (d.setWidth 6) (a.setWidth 6) (imm) = _; simp only [reg5_code]; rfl)
theorem aatom (d : BitVec 5) (a : BitVec 5) (b : BitVec 5) : Statement (.aatom d a b) := of_core _ _ _ _ _ (fun _ => rfl) (by decide) (by decide) (fun r hw => by unfold decodeCore; rw [tagOf_mkWord, opOf_mkWord, dOf_mkWord, aOf_mkWord, bOf_mkWord, ringOf_mkWord]; show (fun (r : Ring) (d a b : BitVec 6) => ((do let d ← reg5 d; let a ← reg5 a; let b ← reg5 b; some (.aatom d a b)) : Option Instr)) r (d.setWidth 6) (a.setWidth 6) (b.setWidth 6) = _; simp only [reg5_code]; rfl)
theorem acas (d : BitVec 5) (a : BitVec 5) (b : BitVec 5) : Statement (.acas d a b) := of_core _ _ _ _ _ (fun _ => rfl) (by decide) (by decide) (fun r hw => by unfold decodeCore; rw [tagOf_mkWord, opOf_mkWord, dOf_mkWord, aOf_mkWord, bOf_mkWord, ringOf_mkWord]; show (fun (r : Ring) (d a b : BitVec 6) => ((do let d ← reg5 d; let a ← reg5 a; let b ← reg5 b; some (.acas d a b)) : Option Instr)) r (d.setWidth 6) (a.setWidth 6) (b.setWidth 6) = _; simp only [reg5_code]; rfl)
theorem bind (d : BitVec 4) (a : BitVec 5) : Statement (.bind d a) := of_core _ _ _ _ _ (fun _ => rfl) (by decide) (by decide) (fun r hw => by unfold decodeCore; rw [tagOf_mkWord, opOf_mkWord, dOf_mkWord, aOf_mkWord, bOf_mkWord, ringOf_mkWord]; show (fun (r : Ring) (d a b : BitVec 6) => ((do isZero b; let d ← reg4 d; let a ← reg5 a; some (.bind d a)) : Option Instr)) r (d.setWidth 6) (a.setWidth 6) (0) = _; simp only [reg4_code, reg5_code]; rfl)
theorem rebind (d : BitVec 4) (a : BitVec 5) : Statement (.rebind d a) := of_core _ _ _ _ _ (fun _ => rfl) (by decide) (by decide) (fun r hw => by unfold decodeCore; rw [tagOf_mkWord, opOf_mkWord, dOf_mkWord, aOf_mkWord, bOf_mkWord, ringOf_mkWord]; show (fun (r : Ring) (d a b : BitVec 6) => ((do isZero b; let d ← reg4 d; let a ← reg5 a; some (.rebind d a)) : Option Instr)) r (d.setWidth 6) (a.setWidth 6) (0) = _; simp only [reg4_code, reg5_code]; rfl)
theorem unbind (d : BitVec 4) : Statement (.unbind d) := of_core _ _ _ _ _ (fun _ => rfl) (by decide) (by decide) (fun r hw => by unfold decodeCore; rw [tagOf_mkWord, opOf_mkWord, dOf_mkWord, aOf_mkWord, bOf_mkWord, ringOf_mkWord]; show (fun (r : Ring) (d a b : BitVec 6) => ((do isZero a; isZero b; let d ← reg4 d; some (.unbind d)) : Option Instr)) r (d.setWidth 6) (0) (0) = _; simp only [reg4_code]; rfl)
theorem sdrain (d : BitVec 4) : Statement (.sdrain d) := of_core _ _ _ _ _ (fun _ => rfl) (by decide) (by decide) (fun r hw => by unfold decodeCore; rw [tagOf_mkWord, opOf_mkWord, dOf_mkWord, aOf_mkWord, bOf_mkWord, ringOf_mkWord]; show (fun (r : Ring) (d a b : BitVec 6) => ((do isZero a; isZero b; let d ← reg4 d; some (.sdrain d)) : Option Instr)) r (d.setWidth 6) (0) (0) = _; simp only [reg4_code]; rfl)
theorem sskip (d : BitVec 4) (a : BitVec 5) : Statement (.sskip d a) := of_core _ _ _ _ _ (fun _ => rfl) (by decide) (by decide) (fun r hw => by unfold decodeCore; rw [tagOf_mkWord, opOf_mkWord, dOf_mkWord, aOf_mkWord, bOf_mkWord, ringOf_mkWord]; show (fun (r : Ring) (d a b : BitVec 6) => ((do isZero b; let d ← reg4 d; let a ← reg5 a; some (.sskip d a)) : Option Instr)) r (d.setWidth 6) (a.setWidth 6) (0) = _; simp only [reg4_code, reg5_code]; rfl)
theorem sstat (d : BitVec 5) (a : BitVec 4) : Statement (.sstat d a) := of_core _ _ _ _ _ (fun _ => rfl) (by decide) (by decide) (fun r hw => by unfold decodeCore; rw [tagOf_mkWord, opOf_mkWord, dOf_mkWord, aOf_mkWord, bOf_mkWord, ringOf_mkWord]; show (fun (r : Ring) (d a b : BitVec 6) => ((do isZero b; let d ← reg5 d; let a ← reg4 a; some (.sstat d a)) : Option Instr)) r (d.setWidth 6) (a.setWidth 6) (0) = _; simp only [reg4_code, reg5_code]; rfl)
theorem ufold (a : BitVec 5) : Statement (.ufold a) := of_core _ _ _ _ _ (fun _ => rfl) (by decide) (by decide) (fun r hw => by unfold decodeCore; rw [tagOf_mkWord, opOf_mkWord, dOf_mkWord, aOf_mkWord, bOf_mkWord, ringOf_mkWord]; show (fun (r : Ring) (d a b : BitVec 6) => ((do isZero d; isZero b; let a ← reg5 a; some (.ufold a)) : Option Instr)) r (0) (a.setWidth 6) (0) = _; simp only [reg5_code]; rfl)
theorem subs (d : BitVec 3) (a : BitVec 5) (b : BitVec 1) : Statement (.subs d a b) := of_core _ _ _ _ _ (fun _ => rfl) (by decide) (by decide) (fun r hw => by unfold decodeCore; rw [tagOf_mkWord, opOf_mkWord, dOf_mkWord, aOf_mkWord, bOf_mkWord, ringOf_mkWord]; show (fun (r : Ring) (d a b : BitVec 6) => ((do let d ← reg3 d; let a ← reg5 a; let b ← reg1 b; some (.subs d a b)) : Option Instr)) r (d.setWidth 6) (a.setWidth 6) (b.setWidth 6) = _; simp only [reg1_code, reg3_code, reg5_code]; rfl)
theorem sret (d : BitVec 3) : Statement (.sret d) := of_core _ _ _ _ _ (fun _ => rfl) (by decide) (by decide) (fun r hw => by unfold decodeCore; rw [tagOf_mkWord, opOf_mkWord, dOf_mkWord, aOf_mkWord, bOf_mkWord, ringOf_mkWord]; show (fun (r : Ring) (d a b : BitVec 6) => ((do isZero a; isZero b; let d ← reg3 d; some (.sret d)) : Option Instr)) r (d.setWidth 6) (0) (0) = _; simp only [reg3_code]; rfl)
theorem ringcfg (d : BitVec 3) (a : BitVec 5) (b : BitVec 5) : Statement (.ringcfg d a b) := of_core _ _ _ _ _ (fun _ => rfl) (by decide) (by decide) (fun r hw => by unfold decodeCore; rw [tagOf_mkWord, opOf_mkWord, dOf_mkWord, aOf_mkWord, bOf_mkWord, ringOf_mkWord]; show (fun (r : Ring) (d a b : BitVec 6) => ((do let d ← reg3 d; let a ← reg5 a; let b ← reg5 b; some (.ringcfg d a b)) : Option Instr)) r (d.setWidth 6) (a.setWidth 6) (b.setWidth 6) = _; simp only [reg3_code, reg5_code]; rfl)
theorem sigA (sem : BitVec 4) (count : BitVec 14) : Statement (.sigA sem count) := of_core _ _ _ _ _ (fun _ => rfl) (by decide) (by decide) (fun r hw => by unfold decodeCore; rw [tagOf_mkWord, opOf_mkWord, dOf_mkWord, aOf_mkWord, bOf_mkWord, ringOf_mkWord]; show (fun (r : Ring) (d a b : BitVec 6) => (some (.sigA (semOf d) (cntOf d a b)) : Option Instr)) r ((sem ++ count.extractLsb' 12 2)) (count.extractLsb' 6 6) (count.extractLsb' 0 6) = _; simp only [semOf_parts, cntOf_parts])
theorem waitA (sem : BitVec 4) (count : BitVec 14) : Statement (.waitA sem count) := of_core _ _ _ _ _ (fun _ => rfl) (by decide) (by decide) (fun r hw => by unfold decodeCore; rw [tagOf_mkWord, opOf_mkWord, dOf_mkWord, aOf_mkWord, bOf_mkWord, ringOf_mkWord]; show (fun (r : Ring) (d a b : BitVec 6) => (some (.waitA (semOf d) (cntOf d a b)) : Option Instr)) r ((sem ++ count.extractLsb' 12 2)) (count.extractLsb' 6 6) (count.extractLsb' 0 6) = _; simp only [semOf_parts, cntOf_parts])
theorem getsA (d : BitVec 5) : Statement (.getsA d) := of_core _ _ _ _ _ (fun _ => rfl) (by decide) (by decide) (fun r hw => by unfold decodeCore; rw [tagOf_mkWord, opOf_mkWord, dOf_mkWord, aOf_mkWord, bOf_mkWord, ringOf_mkWord]; show (fun (r : Ring) (d a b : BitVec 6) => ((do isZero a; isZero b; let d ← reg5 d; some (.getsA d)) : Option Instr)) r (d.setWidth 6) (0) (0) = _; simp only [reg5_code]; rfl)
theorem putsA (a : BitVec 5) : Statement (.putsA a) := of_core _ _ _ _ _ (fun _ => rfl) (by decide) (by decide) (fun r hw => by unfold decodeCore; rw [tagOf_mkWord, opOf_mkWord, dOf_mkWord, aOf_mkWord, bOf_mkWord, ringOf_mkWord]; show (fun (r : Ring) (d a b : BitVec 6) => ((do isZero d; isZero b; let a ← reg5 a; some (.putsA a)) : Option Instr)) r (0) (a.setWidth 6) (0) = _; simp only [reg5_code]; rfl)
theorem extA (imm : BitVec 18) : Statement (.extA imm) := of_bare _ _ _ _ _ (fun _ => rfl) (by decide) (fun hw => by unfold decodeCore; rw [tagOf_mkWord, opOf_mkWord, dOf_mkWord, aOf_mkWord, bOf_mkWord, ringOf_mkWord]; show (fun (r : Ring) (d a b : BitVec 6) => ((do ringZero r; some (.extA (imm18 d a b))) : Option Instr)) Ring.zero (imm.extractLsb' 12 6) (imm.extractLsb' 6 6) (imm.extractLsb' 0 6) = _; simp only [imm18_parts]; rfl)
theorem vcfg (imm : BitVec 17) : Statement (.vcfg imm) := of_core _ _ _ _ _ (fun _ => rfl) (by decide) (by decide) (fun r hw => by unfold decodeCore; rw [tagOf_mkWord, opOf_mkWord, dOf_mkWord, aOf_mkWord, bOf_mkWord, ringOf_mkWord]; show (do hiZero (0#1 ++ imm.extractLsb' 12 5) 5; some (Instr.vcfg ((imm18 (0#1 ++ imm.extractLsb' 12 5) (imm.extractLsb' 6 6) (imm.extractLsb' 0 6)).setWidth 17))) = _; rw [hiZero_vcfg, vcfg_parts]; rfl)
theorem vmov (d : VDst) (a : VSrc) : Statement (.vmov d a) := of_core _ _ _ _ _ (fun _ => rfl) (by decide) (by decide) (fun r hw => by unfold decodeCore; rw [tagOf_mkWord, opOf_mkWord, dOf_mkWord, aOf_mkWord, bOf_mkWord, ringOf_mkWord]; show (fun (r : Ring) (d a b : BitVec 6) => ((do isZero b; let d ← selDst d; let a ← selSrc a; some (.vmov d a)) : Option Instr)) r (d.code) (a.code) (0) = _; simp only [selSrc_code, selDst_code]; rfl)
theorem vbcast (d : VDst) (a : VSrc) : Statement (.vbcast d a) := of_core _ _ _ _ _ (fun _ => rfl) (by decide) (by decide) (fun r hw => by unfold decodeCore; rw [tagOf_mkWord, opOf_mkWord, dOf_mkWord, aOf_mkWord, bOf_mkWord, ringOf_mkWord]; show (fun (r : Ring) (d a b : BitVec 6) => ((do isZero b; let d ← selDst d; let a ← selSrc a; some (.vbcast d a)) : Option Instr)) r (d.code) (a.code) (0) = _; simp only [selSrc_code, selDst_code]; rfl)
theorem vadd (d : VDst) (a : VSrc) (b : VSrc) : Statement (.vadd d a b) := of_core _ _ _ _ _ (fun _ => rfl) (by decide) (by decide) (fun r hw => by unfold decodeCore; rw [tagOf_mkWord, opOf_mkWord, dOf_mkWord, aOf_mkWord, bOf_mkWord, ringOf_mkWord]; show (fun (r : Ring) (d a b : BitVec 6) => ((do let d ← selDst d; let a ← selSrc a; let b ← selSrc b; some (.vadd d a b)) : Option Instr)) r (d.code) (a.code) (b.code) = _; simp only [selSrc_code, selDst_code]; rfl)
theorem vsub (d : VDst) (a : VSrc) (b : VSrc) : Statement (.vsub d a b) := of_core _ _ _ _ _ (fun _ => rfl) (by decide) (by decide) (fun r hw => by unfold decodeCore; rw [tagOf_mkWord, opOf_mkWord, dOf_mkWord, aOf_mkWord, bOf_mkWord, ringOf_mkWord]; show (fun (r : Ring) (d a b : BitVec 6) => ((do let d ← selDst d; let a ← selSrc a; let b ← selSrc b; some (.vsub d a b)) : Option Instr)) r (d.code) (a.code) (b.code) = _; simp only [selSrc_code, selDst_code]; rfl)
theorem vmul (d : VDst) (a : VSrc) (b : VSrc) : Statement (.vmul d a b) := of_core _ _ _ _ _ (fun _ => rfl) (by decide) (by decide) (fun r hw => by unfold decodeCore; rw [tagOf_mkWord, opOf_mkWord, dOf_mkWord, aOf_mkWord, bOf_mkWord, ringOf_mkWord]; show (fun (r : Ring) (d a b : BitVec 6) => ((do let d ← selDst d; let a ← selSrc a; let b ← selSrc b; some (.vmul d a b)) : Option Instr)) r (d.code) (a.code) (b.code) = _; simp only [selSrc_code, selDst_code]; rfl)
theorem vfma (d : BitVec 5) (a : VSrc) (b : VSrc) : Statement (.vfma d a b) := of_core _ _ _ _ _ (fun _ => rfl) (by decide) (by decide) (fun r hw => by unfold decodeCore; rw [tagOf_mkWord, opOf_mkWord, dOf_mkWord, aOf_mkWord, bOf_mkWord, ringOf_mkWord]; show (fun (r : Ring) (d a b : BitVec 6) => ((do let d ← reg5 d; let a ← selSrc a; let b ← selSrc b; some (.vfma d a b)) : Option Instr)) r (d.setWidth 6) (a.code) (b.code) = _; simp only [reg5_code, selSrc_code]; rfl)
theorem vmin (d : VDst) (a : VSrc) (b : VSrc) : Statement (.vmin d a b) := of_core _ _ _ _ _ (fun _ => rfl) (by decide) (by decide) (fun r hw => by unfold decodeCore; rw [tagOf_mkWord, opOf_mkWord, dOf_mkWord, aOf_mkWord, bOf_mkWord, ringOf_mkWord]; show (fun (r : Ring) (d a b : BitVec 6) => ((do let d ← selDst d; let a ← selSrc a; let b ← selSrc b; some (.vmin d a b)) : Option Instr)) r (d.code) (a.code) (b.code) = _; simp only [selSrc_code, selDst_code]; rfl)
theorem vmax (d : VDst) (a : VSrc) (b : VSrc) : Statement (.vmax d a b) := of_core _ _ _ _ _ (fun _ => rfl) (by decide) (by decide) (fun r hw => by unfold decodeCore; rw [tagOf_mkWord, opOf_mkWord, dOf_mkWord, aOf_mkWord, bOf_mkWord, ringOf_mkWord]; show (fun (r : Ring) (d a b : BitVec 6) => ((do let d ← selDst d; let a ← selSrc a; let b ← selSrc b; some (.vmax d a b)) : Option Instr)) r (d.code) (a.code) (b.code) = _; simp only [selSrc_code, selDst_code]; rfl)
theorem vabs (d : VDst) (a : VSrc) : Statement (.vabs d a) := of_core _ _ _ _ _ (fun _ => rfl) (by decide) (by decide) (fun r hw => by unfold decodeCore; rw [tagOf_mkWord, opOf_mkWord, dOf_mkWord, aOf_mkWord, bOf_mkWord, ringOf_mkWord]; show (fun (r : Ring) (d a b : BitVec 6) => ((do isZero b; let d ← selDst d; let a ← selSrc a; some (.vabs d a)) : Option Instr)) r (d.code) (a.code) (0) = _; simp only [selSrc_code, selDst_code]; rfl)
theorem vneg (d : VDst) (a : VSrc) : Statement (.vneg d a) := of_core _ _ _ _ _ (fun _ => rfl) (by decide) (by decide) (fun r hw => by unfold decodeCore; rw [tagOf_mkWord, opOf_mkWord, dOf_mkWord, aOf_mkWord, bOf_mkWord, ringOf_mkWord]; show (fun (r : Ring) (d a b : BitVec 6) => ((do isZero b; let d ← selDst d; let a ← selSrc a; some (.vneg d a)) : Option Instr)) r (d.code) (a.code) (0) = _; simp only [selSrc_code, selDst_code]; rfl)
theorem vdiv (d : VDst) (a : VSrc) (b : VSrc) : Statement (.vdiv d a b) := of_core _ _ _ _ _ (fun _ => rfl) (by decide) (by decide) (fun r hw => by unfold decodeCore; rw [tagOf_mkWord, opOf_mkWord, dOf_mkWord, aOf_mkWord, bOf_mkWord, ringOf_mkWord]; show (fun (r : Ring) (d a b : BitVec 6) => ((do let d ← selDst d; let a ← selSrc a; let b ← selSrc b; some (.vdiv d a b)) : Option Instr)) r (d.code) (a.code) (b.code) = _; simp only [selSrc_code, selDst_code]; rfl)
theorem vsqrt (d : VDst) (a : VSrc) : Statement (.vsqrt d a) := of_core _ _ _ _ _ (fun _ => rfl) (by decide) (by decide) (fun r hw => by unfold decodeCore; rw [tagOf_mkWord, opOf_mkWord, dOf_mkWord, aOf_mkWord, bOf_mkWord, ringOf_mkWord]; show (fun (r : Ring) (d a b : BitVec 6) => ((do isZero b; let d ← selDst d; let a ← selSrc a; some (.vsqrt d a)) : Option Instr)) r (d.code) (a.code) (0) = _; simp only [selSrc_code, selDst_code]; rfl)
theorem vrcp (d : VDst) (a : VSrc) : Statement (.vrcp d a) := of_core _ _ _ _ _ (fun _ => rfl) (by decide) (by decide) (fun r hw => by unfold decodeCore; rw [tagOf_mkWord, opOf_mkWord, dOf_mkWord, aOf_mkWord, bOf_mkWord, ringOf_mkWord]; show (fun (r : Ring) (d a b : BitVec 6) => ((do isZero b; let d ← selDst d; let a ← selSrc a; some (.vrcp d a)) : Option Instr)) r (d.code) (a.code) (0) = _; simp only [selSrc_code, selDst_code]; rfl)
theorem vrsq (d : VDst) (a : VSrc) : Statement (.vrsq d a) := of_core _ _ _ _ _ (fun _ => rfl) (by decide) (by decide) (fun r hw => by unfold decodeCore; rw [tagOf_mkWord, opOf_mkWord, dOf_mkWord, aOf_mkWord, bOf_mkWord, ringOf_mkWord]; show (fun (r : Ring) (d a b : BitVec 6) => ((do isZero b; let d ← selDst d; let a ← selSrc a; some (.vrsq d a)) : Option Instr)) r (d.code) (a.code) (0) = _; simp only [selSrc_code, selDst_code]; rfl)
theorem vexp2 (d : VDst) (a : VSrc) : Statement (.vexp2 d a) := of_core _ _ _ _ _ (fun _ => rfl) (by decide) (by decide) (fun r hw => by unfold decodeCore; rw [tagOf_mkWord, opOf_mkWord, dOf_mkWord, aOf_mkWord, bOf_mkWord, ringOf_mkWord]; show (fun (r : Ring) (d a b : BitVec 6) => ((do isZero b; let d ← selDst d; let a ← selSrc a; some (.vexp2 d a)) : Option Instr)) r (d.code) (a.code) (0) = _; simp only [selSrc_code, selDst_code]; rfl)
theorem vlog2 (d : VDst) (a : VSrc) : Statement (.vlog2 d a) := of_core _ _ _ _ _ (fun _ => rfl) (by decide) (by decide) (fun r hw => by unfold decodeCore; rw [tagOf_mkWord, opOf_mkWord, dOf_mkWord, aOf_mkWord, bOf_mkWord, ringOf_mkWord]; show (fun (r : Ring) (d a b : BitVec 6) => ((do isZero b; let d ← selDst d; let a ← selSrc a; some (.vlog2 d a)) : Option Instr)) r (d.code) (a.code) (0) = _; simp only [selSrc_code, selDst_code]; rfl)
theorem vadds (d : VDst) (a : VSrc) (b : VSrc) : Statement (.vadds d a b) := of_core _ _ _ _ _ (fun _ => rfl) (by decide) (by decide) (fun r hw => by unfold decodeCore; rw [tagOf_mkWord, opOf_mkWord, dOf_mkWord, aOf_mkWord, bOf_mkWord, ringOf_mkWord]; show (fun (r : Ring) (d a b : BitVec 6) => ((do let d ← selDst d; let a ← selSrc a; let b ← selSrc b; some (.vadds d a b)) : Option Instr)) r (d.code) (a.code) (b.code) = _; simp only [selSrc_code, selDst_code]; rfl)
theorem vmulh (d : VDst) (a : VSrc) (b : VSrc) : Statement (.vmulh d a b) := of_core _ _ _ _ _ (fun _ => rfl) (by decide) (by decide) (fun r hw => by unfold decodeCore; rw [tagOf_mkWord, opOf_mkWord, dOf_mkWord, aOf_mkWord, bOf_mkWord, ringOf_mkWord]; show (fun (r : Ring) (d a b : BitVec 6) => ((do let d ← selDst d; let a ← selSrc a; let b ← selSrc b; some (.vmulh d a b)) : Option Instr)) r (d.code) (a.code) (b.code) = _; simp only [selSrc_code, selDst_code]; rfl)
theorem vand (d : VDst) (a : VSrc) (b : VSrc) : Statement (.vand d a b) := of_core _ _ _ _ _ (fun _ => rfl) (by decide) (by decide) (fun r hw => by unfold decodeCore; rw [tagOf_mkWord, opOf_mkWord, dOf_mkWord, aOf_mkWord, bOf_mkWord, ringOf_mkWord]; show (fun (r : Ring) (d a b : BitVec 6) => ((do let d ← selDst d; let a ← selSrc a; let b ← selSrc b; some (.vand d a b)) : Option Instr)) r (d.code) (a.code) (b.code) = _; simp only [selSrc_code, selDst_code]; rfl)
theorem vor (d : VDst) (a : VSrc) (b : VSrc) : Statement (.vor d a b) := of_core _ _ _ _ _ (fun _ => rfl) (by decide) (by decide) (fun r hw => by unfold decodeCore; rw [tagOf_mkWord, opOf_mkWord, dOf_mkWord, aOf_mkWord, bOf_mkWord, ringOf_mkWord]; show (fun (r : Ring) (d a b : BitVec 6) => ((do let d ← selDst d; let a ← selSrc a; let b ← selSrc b; some (.vor d a b)) : Option Instr)) r (d.code) (a.code) (b.code) = _; simp only [selSrc_code, selDst_code]; rfl)
theorem vxor (d : VDst) (a : VSrc) (b : VSrc) : Statement (.vxor d a b) := of_core _ _ _ _ _ (fun _ => rfl) (by decide) (by decide) (fun r hw => by unfold decodeCore; rw [tagOf_mkWord, opOf_mkWord, dOf_mkWord, aOf_mkWord, bOf_mkWord, ringOf_mkWord]; show (fun (r : Ring) (d a b : BitVec 6) => ((do let d ← selDst d; let a ← selSrc a; let b ← selSrc b; some (.vxor d a b)) : Option Instr)) r (d.code) (a.code) (b.code) = _; simp only [selSrc_code, selDst_code]; rfl)
theorem vshl (d : VDst) (a : VSrc) (b : VSrc) : Statement (.vshl d a b) := of_core _ _ _ _ _ (fun _ => rfl) (by decide) (by decide) (fun r hw => by unfold decodeCore; rw [tagOf_mkWord, opOf_mkWord, dOf_mkWord, aOf_mkWord, bOf_mkWord, ringOf_mkWord]; show (fun (r : Ring) (d a b : BitVec 6) => ((do let d ← selDst d; let a ← selSrc a; let b ← selSrc b; some (.vshl d a b)) : Option Instr)) r (d.code) (a.code) (b.code) = _; simp only [selSrc_code, selDst_code]; rfl)
theorem vshr (d : VDst) (a : VSrc) (b : VSrc) : Statement (.vshr d a b) := of_core _ _ _ _ _ (fun _ => rfl) (by decide) (by decide) (fun r hw => by unfold decodeCore; rw [tagOf_mkWord, opOf_mkWord, dOf_mkWord, aOf_mkWord, bOf_mkWord, ringOf_mkWord]; show (fun (r : Ring) (d a b : BitVec 6) => ((do let d ← selDst d; let a ← selSrc a; let b ← selSrc b; some (.vshr d a b)) : Option Instr)) r (d.code) (a.code) (b.code) = _; simp only [selSrc_code, selDst_code]; rfl)
theorem vsra (d : VDst) (a : VSrc) (b : VSrc) : Statement (.vsra d a b) := of_core _ _ _ _ _ (fun _ => rfl) (by decide) (by decide) (fun r hw => by unfold decodeCore; rw [tagOf_mkWord, opOf_mkWord, dOf_mkWord, aOf_mkWord, bOf_mkWord, ringOf_mkWord]; show (fun (r : Ring) (d a b : BitVec 6) => ((do let d ← selDst d; let a ← selSrc a; let b ← selSrc b; some (.vsra d a b)) : Option Instr)) r (d.code) (a.code) (b.code) = _; simp only [selSrc_code, selDst_code]; rfl)
theorem vceq (d : BitVec 3) (a : VSrc) (b : VSrc) : Statement (.vceq d a b) := of_core _ _ _ _ _ (fun _ => rfl) (by decide) (by decide) (fun r hw => by unfold decodeCore; rw [tagOf_mkWord, opOf_mkWord, dOf_mkWord, aOf_mkWord, bOf_mkWord, ringOf_mkWord]; show (fun (r : Ring) (d a b : BitVec 6) => ((do let d ← reg3 d; let a ← selSrc a; let b ← selSrc b; some (.vceq d a b)) : Option Instr)) r (d.setWidth 6) (a.code) (b.code) = _; simp only [reg3_code, selSrc_code]; rfl)
theorem vcne (d : BitVec 3) (a : VSrc) (b : VSrc) : Statement (.vcne d a b) := of_core _ _ _ _ _ (fun _ => rfl) (by decide) (by decide) (fun r hw => by unfold decodeCore; rw [tagOf_mkWord, opOf_mkWord, dOf_mkWord, aOf_mkWord, bOf_mkWord, ringOf_mkWord]; show (fun (r : Ring) (d a b : BitVec 6) => ((do let d ← reg3 d; let a ← selSrc a; let b ← selSrc b; some (.vcne d a b)) : Option Instr)) r (d.setWidth 6) (a.code) (b.code) = _; simp only [reg3_code, selSrc_code]; rfl)
theorem vclt (d : BitVec 3) (a : VSrc) (b : VSrc) : Statement (.vclt d a b) := of_core _ _ _ _ _ (fun _ => rfl) (by decide) (by decide) (fun r hw => by unfold decodeCore; rw [tagOf_mkWord, opOf_mkWord, dOf_mkWord, aOf_mkWord, bOf_mkWord, ringOf_mkWord]; show (fun (r : Ring) (d a b : BitVec 6) => ((do let d ← reg3 d; let a ← selSrc a; let b ← selSrc b; some (.vclt d a b)) : Option Instr)) r (d.setWidth 6) (a.code) (b.code) = _; simp only [reg3_code, selSrc_code]; rfl)
theorem vcle (d : BitVec 3) (a : VSrc) (b : VSrc) : Statement (.vcle d a b) := of_core _ _ _ _ _ (fun _ => rfl) (by decide) (by decide) (fun r hw => by unfold decodeCore; rw [tagOf_mkWord, opOf_mkWord, dOf_mkWord, aOf_mkWord, bOf_mkWord, ringOf_mkWord]; show (fun (r : Ring) (d a b : BitVec 6) => ((do let d ← reg3 d; let a ← selSrc a; let b ← selSrc b; some (.vcle d a b)) : Option Instr)) r (d.setWidth 6) (a.code) (b.code) = _; simp only [reg3_code, selSrc_code]; rfl)
theorem vsel (d : VDst) (a : VSrc) (b : VSrc) : Statement (.vsel d a b) := of_core _ _ _ _ _ (fun _ => rfl) (by decide) (by decide) (fun r hw => by unfold decodeCore; rw [tagOf_mkWord, opOf_mkWord, dOf_mkWord, aOf_mkWord, bOf_mkWord, ringOf_mkWord]; show (fun (r : Ring) (d a b : BitVec 6) => ((do let d ← selDst d; let a ← selSrc a; let b ← selSrc b; some (.vsel d a b)) : Option Instr)) r (d.code) (a.code) (b.code) = _; simp only [selSrc_code, selDst_code]; rfl)
theorem vclass (d : VDst) (a : VSrc) : Statement (.vclass d a) := of_core _ _ _ _ _ (fun _ => rfl) (by decide) (by decide) (fun r hw => by unfold decodeCore; rw [tagOf_mkWord, opOf_mkWord, dOf_mkWord, aOf_mkWord, bOf_mkWord, ringOf_mkWord]; show (fun (r : Ring) (d a b : BitVec 6) => ((do isZero b; let d ← selDst d; let a ← selSrc a; some (.vclass d a)) : Option Instr)) r (d.code) (a.code) (0) = _; simp only [selSrc_code, selDst_code]; rfl)
theorem vcvt (d : VDst) (a : VSrc) (sel : BitVec 4) : Statement (.vcvt d a sel) := of_core _ _ _ _ _ (fun _ => rfl) (by decide) (by decide) (fun r hw => by unfold decodeCore; rw [tagOf_mkWord, opOf_mkWord, dOf_mkWord, aOf_mkWord, bOf_mkWord, ringOf_mkWord]; show (fun (r : Ring) (d a b : BitVec 6) => ((do let d ← selDst d; let a ← selSrc a; let b ← reg4 b; some (.vcvt d a b)) : Option Instr)) r (d.code) (a.code) (sel.setWidth 6) = _; simp only [reg4_code, selSrc_code, selDst_code]; rfl)
theorem vcvtq (d : VDst) (a : VIn) (sel : BitVec 6) : Statement (.vcvtq d a sel) := of_core _ _ _ _ _ (fun _ => rfl) (by decide) (by decide) (fun r hw => by unfold decodeCore; rw [tagOf_mkWord, opOf_mkWord, dOf_mkWord, aOf_mkWord, bOf_mkWord, ringOf_mkWord]; show (fun (r : Ring) (d a b : BitVec 6) => ((do let d ← selDst d; let a ← selIn a; some (.vcvtq d a b)) : Option Instr)) r (d.code) (a.code) (sel) = _; simp only [selIn_code, selDst_code]; rfl)
theorem vwiden (d : VDst) (a : VIn) (sel : BitVec 4) : Statement (.vwiden d a sel) := of_core _ _ _ _ _ (fun _ => rfl) (by decide) (by decide) (fun r hw => by unfold decodeCore; rw [tagOf_mkWord, opOf_mkWord, dOf_mkWord, aOf_mkWord, bOf_mkWord, ringOf_mkWord]; show (fun (r : Ring) (d a b : BitVec 6) => ((do let d ← selDst d; let a ← selIn a; let b ← reg4 b; some (.vwiden d a b)) : Option Instr)) r (d.code) (a.code) (sel.setWidth 6) = _; simp only [reg4_code, selIn_code, selDst_code]; rfl)
theorem vnarrow (d : VDst) (a : VIn) (sel : BitVec 5) : Statement (.vnarrow d a sel) := of_core _ _ _ _ _ (fun _ => rfl) (by decide) (by decide) (fun r hw => by unfold decodeCore; rw [tagOf_mkWord, opOf_mkWord, dOf_mkWord, aOf_mkWord, bOf_mkWord, ringOf_mkWord]; show (fun (r : Ring) (d a b : BitVec 6) => ((do let d ← selDst d; let a ← selIn a; let b ← reg5 b; some (.vnarrow d a b)) : Option Instr)) r (d.code) (a.code) (sel.setWidth 6) = _; simp only [reg5_code, selIn_code, selDst_code]; rfl)
theorem vsrnd (d : BitVec 4) (a : BitVec 4) (b : BitVec 4) : Statement (.vsrnd d a b) := of_core _ _ _ _ _ (fun _ => rfl) (by decide) (by decide) (fun r hw => by unfold decodeCore; rw [tagOf_mkWord, opOf_mkWord, dOf_mkWord, aOf_mkWord, bOf_mkWord, ringOf_mkWord]; show (fun (r : Ring) (d a b : BitVec 6) => ((do let d ← reg4 d; let a ← reg4 a; let b ← reg4 b; some (.vsrnd d a b)) : Option Instr)) r (d.setWidth 6) (a.setWidth 6) (b.setWidth 6) = _; simp only [reg4_code]; rfl)
theorem vcomp (d : VDst) (a : VSrc) : Statement (.vcomp d a) := of_core _ _ _ _ _ (fun _ => rfl) (by decide) (by decide) (fun r hw => by unfold decodeCore; rw [tagOf_mkWord, opOf_mkWord, dOf_mkWord, aOf_mkWord, bOf_mkWord, ringOf_mkWord]; show (fun (r : Ring) (d a b : BitVec 6) => ((do isZero b; let d ← selDst d; let a ← selSrc a; some (.vcomp d a)) : Option Instr)) r (d.code) (a.code) (0) = _; simp only [selSrc_code, selDst_code]; rfl)
theorem vexpd (d : VDst) (a : VSrc) : Statement (.vexpd d a) := of_core _ _ _ _ _ (fun _ => rfl) (by decide) (by decide) (fun r hw => by unfold decodeCore; rw [tagOf_mkWord, opOf_mkWord, dOf_mkWord, aOf_mkWord, bOf_mkWord, ringOf_mkWord]; show (fun (r : Ring) (d a b : BitVec 6) => ((do isZero b; let d ← selDst d; let a ← selSrc a; some (.vexpd d a)) : Option Instr)) r (d.code) (a.code) (0) = _; simp only [selSrc_code, selDst_code]; rfl)
theorem vslup (d : VDst) (a : VSrc) (b : BitVec 4) : Statement (.vslup d a b) := of_core _ _ _ _ _ (fun _ => rfl) (by decide) (by decide) (fun r hw => by unfold decodeCore; rw [tagOf_mkWord, opOf_mkWord, dOf_mkWord, aOf_mkWord, bOf_mkWord, ringOf_mkWord]; show (fun (r : Ring) (d a b : BitVec 6) => ((do let d ← selDst d; let a ← selSrc a; let b ← selK b; some (.vslup d a b)) : Option Instr)) r (d.code) (a.code) (codeK b) = _; simp only [selK_code, selSrc_code, selDst_code]; rfl)
theorem vsldn (d : VDst) (a : VSrc) (b : BitVec 4) : Statement (.vsldn d a b) := of_core _ _ _ _ _ (fun _ => rfl) (by decide) (by decide) (fun r hw => by unfold decodeCore; rw [tagOf_mkWord, opOf_mkWord, dOf_mkWord, aOf_mkWord, bOf_mkWord, ringOf_mkWord]; show (fun (r : Ring) (d a b : BitVec 6) => ((do let d ← selDst d; let a ← selSrc a; let b ← selK b; some (.vsldn d a b)) : Option Instr)) r (d.code) (a.code) (codeK b) = _; simp only [selK_code, selSrc_code, selDst_code]; rfl)
theorem vperm (d : VDst) (a : VSrc) (b : VSrc) : Statement (.vperm d a b) := of_core _ _ _ _ _ (fun _ => rfl) (by decide) (by decide) (fun r hw => by unfold decodeCore; rw [tagOf_mkWord, opOf_mkWord, dOf_mkWord, aOf_mkWord, bOf_mkWord, ringOf_mkWord]; show (fun (r : Ring) (d a b : BitVec 6) => ((do let d ← selDst d; let a ← selSrc a; let b ← selSrc b; some (.vperm d a b)) : Option Instr)) r (d.code) (a.code) (b.code) = _; simp only [selSrc_code, selDst_code]; rfl)
theorem vxpose (d : VDst) (a : VSrc) (b : BitVec 4) : Statement (.vxpose d a b) := of_core _ _ _ _ _ (fun _ => rfl) (by decide) (by decide) (fun r hw => by unfold decodeCore; rw [tagOf_mkWord, opOf_mkWord, dOf_mkWord, aOf_mkWord, bOf_mkWord, ringOf_mkWord]; show (fun (r : Ring) (d a b : BitVec 6) => ((do let d ← selDst d; let a ← selSrc a; let b ← selK b; some (.vxpose d a b)) : Option Instr)) r (d.code) (a.code) (codeK b) = _; simp only [selK_code, selSrc_code, selDst_code]; rfl)
theorem viota (d : VDst) : Statement (.viota d) := of_core _ _ _ _ _ (fun _ => rfl) (by decide) (by decide) (fun r hw => by unfold decodeCore; rw [tagOf_mkWord, opOf_mkWord, dOf_mkWord, aOf_mkWord, bOf_mkWord, ringOf_mkWord]; show (fun (r : Ring) (d a b : BitVec 6) => ((do isZero a; isZero b; let d ← selDst d; some (.viota d)) : Option Instr)) r (d.code) (0) (0) = _; simp only [selDst_code]; rfl)
theorem vrsum (d : VDst) (a : VSrc) : Statement (.vrsum d a) := of_core _ _ _ _ _ (fun _ => rfl) (by decide) (by decide) (fun r hw => by unfold decodeCore; rw [tagOf_mkWord, opOf_mkWord, dOf_mkWord, aOf_mkWord, bOf_mkWord, ringOf_mkWord]; show (fun (r : Ring) (d a b : BitVec 6) => ((do isZero b; let d ← selDst d; let a ← selSrc a; some (.vrsum d a)) : Option Instr)) r (d.code) (a.code) (0) = _; simp only [selSrc_code, selDst_code]; rfl)
theorem vrmax (d : VDst) (a : VSrc) : Statement (.vrmax d a) := of_core _ _ _ _ _ (fun _ => rfl) (by decide) (by decide) (fun r hw => by unfold decodeCore; rw [tagOf_mkWord, opOf_mkWord, dOf_mkWord, aOf_mkWord, bOf_mkWord, ringOf_mkWord]; show (fun (r : Ring) (d a b : BitVec 6) => ((do isZero b; let d ← selDst d; let a ← selSrc a; some (.vrmax d a)) : Option Instr)) r (d.code) (a.code) (0) = _; simp only [selSrc_code, selDst_code]; rfl)
theorem vrmin (d : VDst) (a : VSrc) : Statement (.vrmin d a) := of_core _ _ _ _ _ (fun _ => rfl) (by decide) (by decide) (fun r hw => by unfold decodeCore; rw [tagOf_mkWord, opOf_mkWord, dOf_mkWord, aOf_mkWord, bOf_mkWord, ringOf_mkWord]; show (fun (r : Ring) (d a b : BitVec 6) => ((do isZero b; let d ← selDst d; let a ← selSrc a; some (.vrmin d a)) : Option Instr)) r (d.code) (a.code) (0) = _; simp only [selSrc_code, selDst_code]; rfl)
theorem vscan (d : VDst) (a : VSrc) : Statement (.vscan d a) := of_core _ _ _ _ _ (fun _ => rfl) (by decide) (by decide) (fun r hw => by unfold decodeCore; rw [tagOf_mkWord, opOf_mkWord, dOf_mkWord, aOf_mkWord, bOf_mkWord, ringOf_mkWord]; show (fun (r : Ring) (d a b : BitVec 6) => ((do isZero b; let d ← selDst d; let a ← selSrc a; some (.vscan d a)) : Option Instr)) r (d.code) (a.code) (0) = _; simp only [selSrc_code, selDst_code]; rfl)
theorem mand (d : BitVec 3) (a : BitVec 3) (b : BitVec 3) : Statement (.mand d a b) := of_core _ _ _ _ _ (fun _ => rfl) (by decide) (by decide) (fun r hw => by unfold decodeCore; rw [tagOf_mkWord, opOf_mkWord, dOf_mkWord, aOf_mkWord, bOf_mkWord, ringOf_mkWord]; show (fun (r : Ring) (d a b : BitVec 6) => ((do let d ← reg3 d; let a ← reg3 a; let b ← reg3 b; some (.mand d a b)) : Option Instr)) r (d.setWidth 6) (a.setWidth 6) (b.setWidth 6) = _; simp only [reg3_code]; rfl)
theorem mor (d : BitVec 3) (a : BitVec 3) (b : BitVec 3) : Statement (.mor d a b) := of_core _ _ _ _ _ (fun _ => rfl) (by decide) (by decide) (fun r hw => by unfold decodeCore; rw [tagOf_mkWord, opOf_mkWord, dOf_mkWord, aOf_mkWord, bOf_mkWord, ringOf_mkWord]; show (fun (r : Ring) (d a b : BitVec 6) => ((do let d ← reg3 d; let a ← reg3 a; let b ← reg3 b; some (.mor d a b)) : Option Instr)) r (d.setWidth 6) (a.setWidth 6) (b.setWidth 6) = _; simp only [reg3_code]; rfl)
theorem mxor (d : BitVec 3) (a : BitVec 3) (b : BitVec 3) : Statement (.mxor d a b) := of_core _ _ _ _ _ (fun _ => rfl) (by decide) (by decide) (fun r hw => by unfold decodeCore; rw [tagOf_mkWord, opOf_mkWord, dOf_mkWord, aOf_mkWord, bOf_mkWord, ringOf_mkWord]; show (fun (r : Ring) (d a b : BitVec 6) => ((do let d ← reg3 d; let a ← reg3 a; let b ← reg3 b; some (.mxor d a b)) : Option Instr)) r (d.setWidth 6) (a.setWidth 6) (b.setWidth 6) = _; simp only [reg3_code]; rfl)
theorem mnot (d : BitVec 3) (a : BitVec 3) : Statement (.mnot d a) := of_core _ _ _ _ _ (fun _ => rfl) (by decide) (by decide) (fun r hw => by unfold decodeCore; rw [tagOf_mkWord, opOf_mkWord, dOf_mkWord, aOf_mkWord, bOf_mkWord, ringOf_mkWord]; show (fun (r : Ring) (d a b : BitVec 6) => ((do isZero b; let d ← reg3 d; let a ← reg3 a; some (.mnot d a)) : Option Instr)) r (d.setWidth 6) (a.setWidth 6) (0) = _; simp only [reg3_code]; rfl)
theorem mpop (d : BitVec 4) (a : BitVec 3) : Statement (.mpop d a) := of_core _ _ _ _ _ (fun _ => rfl) (by decide) (by decide) (fun r hw => by unfold decodeCore; rw [tagOf_mkWord, opOf_mkWord, dOf_mkWord, aOf_mkWord, bOf_mkWord, ringOf_mkWord]; show (fun (r : Ring) (d a b : BitVec 6) => ((do isZero b; let d ← reg4 d; let a ← reg3 a; some (.mpop d a)) : Option Instr)) r (d.setWidth 6) (a.setWidth 6) (0) = _; simp only [reg3_code, reg4_code]; rfl)
theorem mfirst (d : BitVec 4) (a : BitVec 3) : Statement (.mfirst d a) := of_core _ _ _ _ _ (fun _ => rfl) (by decide) (by decide) (fun r hw => by unfold decodeCore; rw [tagOf_mkWord, opOf_mkWord, dOf_mkWord, aOf_mkWord, bOf_mkWord, ringOf_mkWord]; show (fun (r : Ring) (d a b : BitVec 6) => ((do isZero b; let d ← reg4 d; let a ← reg3 a; some (.mfirst d a)) : Option Instr)) r (d.setWidth 6) (a.setWidth 6) (0) = _; simp only [reg3_code, reg4_code]; rfl)
theorem mset (d : BitVec 3) (a : BitVec 4) (b : BitVec 4) : Statement (.mset d a b) := of_core _ _ _ _ _ (fun _ => rfl) (by decide) (by decide) (fun r hw => by unfold decodeCore; rw [tagOf_mkWord, opOf_mkWord, dOf_mkWord, aOf_mkWord, bOf_mkWord, ringOf_mkWord]; show (fun (r : Ring) (d a b : BitVec 6) => ((do let d ← reg3 d; let a ← reg4 a; let b ← reg4 b; some (.mset d a b)) : Option Instr)) r (d.setWidth 6) (a.setWidth 6) (b.setWidth 6) = _; simp only [reg3_code, reg4_code]; rfl)
theorem vtok (d : BitVec 4) (a : VIn) (b : BitVec 4) : Statement (.vtok d a b) := of_core _ _ _ _ _ (fun _ => rfl) (by decide) (by decide) (fun r hw => by unfold decodeCore; rw [tagOf_mkWord, opOf_mkWord, dOf_mkWord, aOf_mkWord, bOf_mkWord, ringOf_mkWord]; show (fun (r : Ring) (d a b : BitVec 6) => ((do let d ← reg4 d; let a ← selIn a; let b ← reg4 b; some (.vtok d a b)) : Option Instr)) r (d.setWidth 6) (a.code) (b.setWidth 6) = _; simp only [reg4_code, selIn_code]; rfl)
theorem kadd (d : BitVec 4) (a : BitVec 4) (b : BitVec 4) : Statement (.kadd d a b) := of_core _ _ _ _ _ (fun _ => rfl) (by decide) (by decide) (fun r hw => by unfold decodeCore; rw [tagOf_mkWord, opOf_mkWord, dOf_mkWord, aOf_mkWord, bOf_mkWord, ringOf_mkWord]; show (fun (r : Ring) (d a b : BitVec 6) => ((do let d ← reg4 d; let a ← reg4 a; let b ← reg4 b; some (.kadd d a b)) : Option Instr)) r (d.setWidth 6) (a.setWidth 6) (b.setWidth 6) = _; simp only [reg4_code]; rfl)
theorem kaddi (d : BitVec 4) (a : BitVec 4) (imm : BitVec 6) : Statement (.kaddi d a imm) := of_core _ _ _ _ _ (fun _ => rfl) (by decide) (by decide) (fun r hw => by unfold decodeCore; rw [tagOf_mkWord, opOf_mkWord, dOf_mkWord, aOf_mkWord, bOf_mkWord, ringOf_mkWord]; show (fun (r : Ring) (d a b : BitVec 6) => ((do let d ← reg4 d; let a ← reg4 a; some (.kaddi d a b)) : Option Instr)) r (d.setWidth 6) (a.setWidth 6) (imm) = _; simp only [reg4_code]; rfl)
theorem kldi (d : BitVec 4) (imm : BitVec 12) : Statement (.kldi d imm) := of_core _ _ _ _ _ (fun _ => rfl) (by decide) (by decide) (fun r hw => by unfold decodeCore; rw [tagOf_mkWord, opOf_mkWord, dOf_mkWord, aOf_mkWord, bOf_mkWord, ringOf_mkWord]; show (fun (r : Ring) (d a b : BitVec 6) => ((do let d ← reg4 d; some (.kldi d (imm12 a b))) : Option Instr)) r (d.setWidth 6) (imm.extractLsb' 6 6) (imm.extractLsb' 0 6) = _; simp only [reg4_code, imm12_parts]; rfl)
theorem kmov (d : BitVec 4) (a : BitVec 4) : Statement (.kmov d a) := of_core _ _ _ _ _ (fun _ => rfl) (by decide) (by decide) (fun r hw => by unfold decodeCore; rw [tagOf_mkWord, opOf_mkWord, dOf_mkWord, aOf_mkWord, bOf_mkWord, ringOf_mkWord]; show (fun (r : Ring) (d a b : BitVec 6) => ((do isZero b; let d ← reg4 d; let a ← reg4 a; some (.kmov d a)) : Option Instr)) r (d.setWidth 6) (a.setWidth 6) (0) = _; simp only [reg4_code]; rfl)
theorem sigV (sem : BitVec 4) (count : BitVec 14) : Statement (.sigV sem count) := of_core _ _ _ _ _ (fun _ => rfl) (by decide) (by decide) (fun r hw => by unfold decodeCore; rw [tagOf_mkWord, opOf_mkWord, dOf_mkWord, aOf_mkWord, bOf_mkWord, ringOf_mkWord]; show (fun (r : Ring) (d a b : BitVec 6) => (some (.sigV (semOf d) (cntOf d a b)) : Option Instr)) r ((sem ++ count.extractLsb' 12 2)) (count.extractLsb' 6 6) (count.extractLsb' 0 6) = _; simp only [semOf_parts, cntOf_parts])
theorem waitV (sem : BitVec 4) (count : BitVec 14) : Statement (.waitV sem count) := of_core _ _ _ _ _ (fun _ => rfl) (by decide) (by decide) (fun r hw => by unfold decodeCore; rw [tagOf_mkWord, opOf_mkWord, dOf_mkWord, aOf_mkWord, bOf_mkWord, ringOf_mkWord]; show (fun (r : Ring) (d a b : BitVec 6) => (some (.waitV (semOf d) (cntOf d a b)) : Option Instr)) r ((sem ++ count.extractLsb' 12 2)) (count.extractLsb' 6 6) (count.extractLsb' 0 6) = _; simp only [semOf_parts, cntOf_parts])
theorem getsV (d : BitVec 4) : Statement (.getsV d) := of_core _ _ _ _ _ (fun _ => rfl) (by decide) (by decide) (fun r hw => by unfold decodeCore; rw [tagOf_mkWord, opOf_mkWord, dOf_mkWord, aOf_mkWord, bOf_mkWord, ringOf_mkWord]; show (fun (r : Ring) (d a b : BitVec 6) => ((do isZero a; isZero b; let d ← reg4 d; some (.getsV d)) : Option Instr)) r (d.setWidth 6) (0) (0) = _; simp only [reg4_code]; rfl)
theorem putsV (a : BitVec 4) : Statement (.putsV a) := of_core _ _ _ _ _ (fun _ => rfl) (by decide) (by decide) (fun r hw => by unfold decodeCore; rw [tagOf_mkWord, opOf_mkWord, dOf_mkWord, aOf_mkWord, bOf_mkWord, ringOf_mkWord]; show (fun (r : Ring) (d a b : BitVec 6) => ((do isZero d; isZero b; let a ← reg4 a; some (.putsV a)) : Option Instr)) r (0) (a.setWidth 6) (0) = _; simp only [reg4_code]; rfl)
theorem extV (imm : BitVec 18) : Statement (.extV imm) := of_bare _ _ _ _ _ (fun _ => rfl) (by decide) (fun hw => by unfold decodeCore; rw [tagOf_mkWord, opOf_mkWord, dOf_mkWord, aOf_mkWord, bOf_mkWord, ringOf_mkWord]; show (fun (r : Ring) (d a b : BitVec 6) => ((do ringZero r; some (.extV (imm18 d a b))) : Option Instr)) Ring.zero (imm.extractLsb' 12 6) (imm.extractLsb' 6 6) (imm.extractLsb' 0 6) = _; simp only [imm18_parts]; rfl)
theorem mldn (d : BitVec 1) (a : BitVec 3) (ft : BitVec 5) : Statement (.mldn d a ft) := of_core _ _ _ _ _ (fun _ => rfl) (by decide) (by decide) (fun r hw => by unfold decodeCore; rw [tagOf_mkWord, opOf_mkWord, dOf_mkWord, aOf_mkWord, bOf_mkWord, ringOf_mkWord]; show (fun (r : Ring) (d a b : BitVec 6) => ((do let d ← reg1 d; let a ← selIq a; let b ← regFt b; some (.mldn d a b)) : Option Instr)) r (d.setWidth 6) (codeIq a) (ft.setWidth 6) = _; simp only [reg1_code, regFt_code _ (of_decide_eq_true hw), selIq_code]; rfl)
theorem mldw (d : BitVec 1) (a : BitVec 3) (ft : BitVec 5) : Statement (.mldw d a ft) := of_core _ _ _ _ _ (fun _ => rfl) (by decide) (by decide) (fun r hw => by unfold decodeCore; rw [tagOf_mkWord, opOf_mkWord, dOf_mkWord, aOf_mkWord, bOf_mkWord, ringOf_mkWord]; show (fun (r : Ring) (d a b : BitVec 6) => ((do let d ← reg1 d; let a ← selIq a; let b ← regFt b; some (.mldw d a b)) : Option Instr)) r (d.setWidth 6) (codeIq a) (ft.setWidth 6) = _; simp only [reg1_code, regFt_code _ (of_decide_eq_true hw), selIq_code]; rfl)
theorem msel (d : BitVec 1) : Statement (.msel d) := of_core _ _ _ _ _ (fun _ => rfl) (by decide) (by decide) (fun r hw => by unfold decodeCore; rw [tagOf_mkWord, opOf_mkWord, dOf_mkWord, aOf_mkWord, bOf_mkWord, ringOf_mkWord]; show (fun (r : Ring) (d a b : BitVec 6) => ((do isZero a; isZero b; let d ← reg1 d; some (.msel d)) : Option Instr)) r (d.setWidth 6) (0) (0) = _; simp only [reg1_code]; rfl)
theorem mstep (d : BitVec 4) (koff : BitVec 6) (ft : BitVec 5) : Statement (.mstep d koff ft) := of_core _ _ _ _ _ (fun _ => rfl) (by decide) (by decide) (fun r hw => by unfold decodeCore; rw [tagOf_mkWord, opOf_mkWord, dOf_mkWord, aOf_mkWord, bOf_mkWord, ringOf_mkWord]; show (fun (r : Ring) (d a b : BitVec 6) => ((do let d ← reg4 d; let b ← regFt b; some (.mstep d a b)) : Option Instr)) r (d.setWidth 6) (koff) (ft.setWidth 6) = _; simp only [reg4_code, regFt_code _ (of_decide_eq_true hw)]; rfl)
theorem mstepz (d : BitVec 4) (koff : BitVec 6) (ft : BitVec 5) : Statement (.mstepz d koff ft) := of_core _ _ _ _ _ (fun _ => rfl) (by decide) (by decide) (fun r hw => by unfold decodeCore; rw [tagOf_mkWord, opOf_mkWord, dOf_mkWord, aOf_mkWord, bOf_mkWord, ringOf_mkWord]; show (fun (r : Ring) (d a b : BitVec 6) => ((do let d ← reg4 d; let b ← regFt b; some (.mstepz d a b)) : Option Instr)) r (d.setWidth 6) (koff) (ft.setWidth 6) = _; simp only [reg4_code, regFt_code _ (of_decide_eq_true hw)]; rfl)
theorem mzero (d : BitVec 4) : Statement (.mzero d) := of_core _ _ _ _ _ (fun _ => rfl) (by decide) (by decide) (fun r hw => by unfold decodeCore; rw [tagOf_mkWord, opOf_mkWord, dOf_mkWord, aOf_mkWord, bOf_mkWord, ringOf_mkWord]; show (fun (r : Ring) (d a b : BitVec 6) => ((do isZero a; isZero b; let d ← reg4 d; some (.mzero d)) : Option Instr)) r (d.setWidth 6) (0) (0) = _; simp only [reg4_code]; rfl)
theorem mwb (d : BitVec 2) (a : BitVec 4) (ft : BitVec 5) : Statement (.mwb d a ft) := of_core _ _ _ _ _ (fun _ => rfl) (by decide) (by decide) (fun r hw => by unfold decodeCore; rw [tagOf_mkWord, opOf_mkWord, dOf_mkWord, aOf_mkWord, bOf_mkWord, ringOf_mkWord]; show (fun (r : Ring) (d a b : BitVec 6) => ((do let d ← selOq d; let a ← reg4 a; let b ← regFt b; some (.mwb d a b)) : Option Instr)) r (codeOq d) (a.setWidth 6) (ft.setWidth 6) = _; simp only [reg4_code, regFt_code _ (of_decide_eq_true hw), selOq_code]; rfl)
theorem mpeek (d : BitVec 2) (a : BitVec 4) (b : BitVec 3) : Statement (.mpeek d a b) := of_core _ _ _ _ _ (fun _ => rfl) (by decide) (by decide) (fun r hw => by unfold decodeCore; rw [tagOf_mkWord, opOf_mkWord, dOf_mkWord, aOf_mkWord, bOf_mkWord, ringOf_mkWord]; show (fun (r : Ring) (d a b : BitVec 6) => ((do let d ← selOq d; let a ← reg4 a; let b ← reg3 b; some (.mpeek d a b)) : Option Instr)) r (codeOq d) (a.setWidth 6) (b.setWidth 6) = _; simp only [reg3_code, reg4_code, selOq_code]; rfl)
theorem mftab (ft : BitVec 5) (a : BitVec 3) : Statement (.mftab ft a) := of_core _ _ _ _ _ (fun _ => rfl) (by decide) (by decide) (fun r hw => by unfold decodeCore; rw [tagOf_mkWord, opOf_mkWord, dOf_mkWord, aOf_mkWord, bOf_mkWord, ringOf_mkWord]; show (fun (r : Ring) (d a b : BitVec 6) => (if b = 1 then (do let d ← regFt d; let a ← reg3 a; some (.mftabR d a)) else (do isZero b; let d ← regFt d; let a ← reg3 a; some (.mftab d a)) : Option Instr)) r (ft.setWidth 6) (a.setWidth 6) (0) = _; simp only [reg3_code, regFt_code _ (of_decide_eq_true hw)]; rfl)
theorem mftabR (ft : BitVec 5) (a : BitVec 3) : Statement (.mftabR ft a) := of_core _ _ _ _ _ (fun _ => rfl) (by decide) (by decide) (fun r hw => by unfold decodeCore; rw [tagOf_mkWord, opOf_mkWord, dOf_mkWord, aOf_mkWord, bOf_mkWord, ringOf_mkWord]; show (fun (r : Ring) (d a b : BitVec 6) => (if b = 1 then (do let d ← regFt d; let a ← reg3 a; some (.mftabR d a)) else (do isZero b; let d ← regFt d; let a ← reg3 a; some (.mftab d a)) : Option Instr)) r (ft.setWidth 6) (a.setWidth 6) (1) = _; simp only [reg3_code, regFt_code _ (of_decide_eq_true hw)]; rfl)
theorem mscl (d : BitVec 4) (a : BitVec 4) (b : BitVec 3) : Statement (.mscl d a b) := of_core _ _ _ _ _ (fun _ => rfl) (by decide) (by decide) (fun r hw => by unfold decodeCore; rw [tagOf_mkWord, opOf_mkWord, dOf_mkWord, aOf_mkWord, bOf_mkWord, ringOf_mkWord]; show (fun (r : Ring) (d a b : BitVec 6) => ((do let d ← reg4 d; let a ← reg4 a; let b ← reg3 b; some (.mscl d a b)) : Option Instr)) r (d.setWidth 6) (a.setWidth 6) (b.setWidth 6) = _; simp only [reg3_code, reg4_code]; rfl)
theorem mchain (sem : BitVec 4) (count : BitVec 14) : Statement (.mchain sem count) := of_core _ _ _ _ _ (fun _ => rfl) (by decide) (by decide) (fun r hw => by unfold decodeCore; rw [tagOf_mkWord, opOf_mkWord, dOf_mkWord, aOf_mkWord, bOf_mkWord, ringOf_mkWord]; show (fun (r : Ring) (d a b : BitVec 6) => (some (.mchain (semOf d) (cntOf d a b)) : Option Instr)) r ((sem ++ count.extractLsb' 12 2)) (count.extractLsb' 6 6) (count.extractLsb' 0 6) = _; simp only [semOf_parts, cntOf_parts])
theorem mstage (stg : BitVec 3) : Statement (.mstage stg) := of_core _ _ _ _ _ (fun _ => rfl) (by decide) (by decide) (fun r hw => by unfold decodeCore; rw [tagOf_mkWord, opOf_mkWord, dOf_mkWord, aOf_mkWord, bOf_mkWord, ringOf_mkWord]; show (do isZero 0; isZero 0; hiZero (stg.setWidth 6) 3; some (Instr.mstage ((stg.setWidth 6 : BitVec 6).extractLsb' 0 3))) = _; clear hw; revert stg; decide)
theorem mstageCfg (dm1 : BitVec 3) (lvl : BitVec 2) : Statement (.mstageCfg dm1 lvl) := of_core _ _ _ _ _ (fun _ => rfl) (by decide) (by decide) (fun r hw => by unfold decodeCore; rw [tagOf_mkWord, opOf_mkWord, dOf_mkWord, aOf_mkWord, bOf_mkWord, ringOf_mkWord]; show (do isZero (32#6 ^^^ 32#6); isZero 0; hiZero (0#1 ++ dm1 ++ lvl) 5; some (Instr.mstageCfg ((0#1 ++ dm1 ++ lvl).extractLsb' 2 3) ((0#1 ++ dm1 ++ lvl).extractLsb' 0 2))) = _; clear hw; revert dm1 lvl; decide)
theorem macc (d : BitVec 4) (a : BitVec 4) (b : BitVec 4) : Statement (.macc d a b) := of_core _ _ _ _ _ (fun _ => rfl) (by decide) (by decide) (fun r hw => by unfold decodeCore; rw [tagOf_mkWord, opOf_mkWord, dOf_mkWord, aOf_mkWord, bOf_mkWord, ringOf_mkWord]; show (fun (r : Ring) (d a b : BitVec 6) => ((do let d ← reg4 d; let a ← reg4 a; let b ← reg4 b; some (.macc d a b)) : Option Instr)) r (d.setWidth 6) (a.setWidth 6) (b.setWidth 6) = _; simp only [reg4_code]; rfl)
theorem mtrz (d : BitVec 4) (a : BitVec 4) : Statement (.mtrz d a) := of_core _ _ _ _ _ (fun _ => rfl) (by decide) (by decide) (fun r hw => by unfold decodeCore; rw [tagOf_mkWord, opOf_mkWord, dOf_mkWord, aOf_mkWord, bOf_mkWord, ringOf_mkWord]; show (fun (r : Ring) (d a b : BitVec 6) => ((do isZero b; let d ← reg4 d; let a ← reg4 a; some (.mtrz d a)) : Option Instr)) r (d.setWidth 6) (a.setWidth 6) (0) = _; simp only [reg4_code]; rfl)
theorem mhadd (d : BitVec 3) (a : BitVec 3) (b : BitVec 3) : Statement (.mhadd d a b) := of_core _ _ _ _ _ (fun _ => rfl) (by decide) (by decide) (fun r hw => by unfold decodeCore; rw [tagOf_mkWord, opOf_mkWord, dOf_mkWord, aOf_mkWord, bOf_mkWord, ringOf_mkWord]; show (fun (r : Ring) (d a b : BitVec 6) => ((do let d ← reg3 d; let a ← reg3 a; let b ← reg3 b; some (.mhadd d a b)) : Option Instr)) r (d.setWidth 6) (a.setWidth 6) (b.setWidth 6) = _; simp only [reg3_code]; rfl)
theorem sigM (sem : BitVec 4) (count : BitVec 14) : Statement (.sigM sem count) := of_core _ _ _ _ _ (fun _ => rfl) (by decide) (by decide) (fun r hw => by unfold decodeCore; rw [tagOf_mkWord, opOf_mkWord, dOf_mkWord, aOf_mkWord, bOf_mkWord, ringOf_mkWord]; show (fun (r : Ring) (d a b : BitVec 6) => (some (.sigM (semOf d) (cntOf d a b)) : Option Instr)) r ((sem ++ count.extractLsb' 12 2)) (count.extractLsb' 6 6) (count.extractLsb' 0 6) = _; simp only [semOf_parts, cntOf_parts])
theorem waitM (sem : BitVec 4) (count : BitVec 14) : Statement (.waitM sem count) := of_core _ _ _ _ _ (fun _ => rfl) (by decide) (by decide) (fun r hw => by unfold decodeCore; rw [tagOf_mkWord, opOf_mkWord, dOf_mkWord, aOf_mkWord, bOf_mkWord, ringOf_mkWord]; show (fun (r : Ring) (d a b : BitVec 6) => (some (.waitM (semOf d) (cntOf d a b)) : Option Instr)) r ((sem ++ count.extractLsb' 12 2)) (count.extractLsb' 6 6) (count.extractLsb' 0 6) = _; simp only [semOf_parts, cntOf_parts])
theorem getsM (d : BitVec 3) : Statement (.getsM d) := of_core _ _ _ _ _ (fun _ => rfl) (by decide) (by decide) (fun r hw => by unfold decodeCore; rw [tagOf_mkWord, opOf_mkWord, dOf_mkWord, aOf_mkWord, bOf_mkWord, ringOf_mkWord]; show (fun (r : Ring) (d a b : BitVec 6) => ((do isZero a; isZero b; let d ← reg3 d; some (.getsM d)) : Option Instr)) r (d.setWidth 6) (0) (0) = _; simp only [reg3_code]; rfl)
theorem putsM (a : BitVec 3) : Statement (.putsM a) := of_core _ _ _ _ _ (fun _ => rfl) (by decide) (by decide) (fun r hw => by unfold decodeCore; rw [tagOf_mkWord, opOf_mkWord, dOf_mkWord, aOf_mkWord, bOf_mkWord, ringOf_mkWord]; show (fun (r : Ring) (d a b : BitVec 6) => ((do isZero d; isZero b; let a ← reg3 a; some (.putsM a)) : Option Instr)) r (0) (a.setWidth 6) (0) = _; simp only [reg3_code]; rfl)
theorem extM (imm : BitVec 18) : Statement (.extM imm) := of_bare _ _ _ _ _ (fun _ => rfl) (by decide) (fun hw => by unfold decodeCore; rw [tagOf_mkWord, opOf_mkWord, dOf_mkWord, aOf_mkWord, bOf_mkWord, ringOf_mkWord]; show (fun (r : Ring) (d a b : BitVec 6) => ((do ringZero r; some (.extM (imm18 d a b))) : Option Instr)) Ring.zero (imm.extractLsb' 12 6) (imm.extractLsb' 6 6) (imm.extractLsb' 0 6) = _; simp only [imm18_parts]; rfl)
theorem xjob (d : BitVec 4) (a : BitVec 4) : Statement (.xjob d a) := of_core _ _ _ _ _ (fun _ => rfl) (by decide) (by decide) (fun r hw => by unfold decodeCore; rw [tagOf_mkWord, opOf_mkWord, dOf_mkWord, aOf_mkWord, bOf_mkWord, ringOf_mkWord]; show (fun (r : Ring) (d a b : BitVec 6) => ((do isZero b; let d ← reg4 d; let a ← reg4 a; some (.xjob d a)) : Option Instr)) r (d.setWidth 6) (a.setWidth 6) (0) = _; simp only [reg4_code]; rfl)
theorem xjobg (d : BitVec 4) (a : BitVec 4) : Statement (.xjobg d a) := of_core _ _ _ _ _ (fun _ => rfl) (by decide) (by decide) (fun r hw => by unfold decodeCore; rw [tagOf_mkWord, opOf_mkWord, dOf_mkWord, aOf_mkWord, bOf_mkWord, ringOf_mkWord]; show (fun (r : Ring) (d a b : BitVec 6) => ((do isZero b; let d ← reg4 d; let a ← reg4 a; some (.xjobg d a)) : Option Instr)) r (d.setWidth 6) (a.setWidth 6) (0) = _; simp only [reg4_code]; rfl)
theorem xcancel (d : BitVec 4) (a : BitVec 4) : Statement (.xcancel d a) := of_core _ _ _ _ _ (fun _ => rfl) (by decide) (by decide) (fun r hw => by unfold decodeCore; rw [tagOf_mkWord, opOf_mkWord, dOf_mkWord, aOf_mkWord, bOf_mkWord, ringOf_mkWord]; show (fun (r : Ring) (d a b : BitVec 6) => ((do isZero b; let d ← reg4 d; let a ← reg4 a; some (.xcancel d a)) : Option Instr)) r (d.setWidth 6) (a.setWidth 6) (0) = _; simp only [reg4_code]; rfl)
theorem xstat (d : BitVec 4) (a : BitVec 4) : Statement (.xstat d a) := of_core _ _ _ _ _ (fun _ => rfl) (by decide) (by decide) (fun r hw => by unfold decodeCore; rw [tagOf_mkWord, opOf_mkWord, dOf_mkWord, aOf_mkWord, bOf_mkWord, ringOf_mkWord]; show (fun (r : Ring) (d a b : BitVec 6) => ((do isZero b; let d ← reg4 d; let a ← reg4 a; some (.xstat d a)) : Option Instr)) r (d.setWidth 6) (a.setWidth 6) (0) = _; simp only [reg4_code]; rfl)
theorem xadd (d : BitVec 4) (a : BitVec 4) (b : BitVec 4) : Statement (.xadd d a b) := of_core _ _ _ _ _ (fun _ => rfl) (by decide) (by decide) (fun r hw => by unfold decodeCore; rw [tagOf_mkWord, opOf_mkWord, dOf_mkWord, aOf_mkWord, bOf_mkWord, ringOf_mkWord]; show (fun (r : Ring) (d a b : BitVec 6) => ((do let d ← reg4 d; let a ← reg4 a; let b ← reg4 b; some (.xadd d a b)) : Option Instr)) r (d.setWidth 6) (a.setWidth 6) (b.setWidth 6) = _; simp only [reg4_code]; rfl)
theorem xaddi (d : BitVec 4) (a : BitVec 4) (imm : BitVec 6) : Statement (.xaddi d a imm) := of_core _ _ _ _ _ (fun _ => rfl) (by decide) (by decide) (fun r hw => by unfold decodeCore; rw [tagOf_mkWord, opOf_mkWord, dOf_mkWord, aOf_mkWord, bOf_mkWord, ringOf_mkWord]; show (fun (r : Ring) (d a b : BitVec 6) => ((do let d ← reg4 d; let a ← reg4 a; some (.xaddi d a b)) : Option Instr)) r (d.setWidth 6) (a.setWidth 6) (imm) = _; simp only [reg4_code]; rfl)
theorem xldi (d : BitVec 4) (imm : BitVec 12) : Statement (.xldi d imm) := of_core _ _ _ _ _ (fun _ => rfl) (by decide) (by decide) (fun r hw => by unfold decodeCore; rw [tagOf_mkWord, opOf_mkWord, dOf_mkWord, aOf_mkWord, bOf_mkWord, ringOf_mkWord]; show (fun (r : Ring) (d a b : BitVec 6) => ((do let d ← reg4 d; some (.xldi d (imm12 a b))) : Option Instr)) r (d.setWidth 6) (imm.extractLsb' 6 6) (imm.extractLsb' 0 6) = _; simp only [reg4_code, imm12_parts]; rfl)
theorem sigX (sem : BitVec 4) (count : BitVec 14) : Statement (.sigX sem count) := of_core _ _ _ _ _ (fun _ => rfl) (by decide) (by decide) (fun r hw => by unfold decodeCore; rw [tagOf_mkWord, opOf_mkWord, dOf_mkWord, aOf_mkWord, bOf_mkWord, ringOf_mkWord]; show (fun (r : Ring) (d a b : BitVec 6) => (some (.sigX (semOf d) (cntOf d a b)) : Option Instr)) r ((sem ++ count.extractLsb' 12 2)) (count.extractLsb' 6 6) (count.extractLsb' 0 6) = _; simp only [semOf_parts, cntOf_parts])
theorem waitX (sem : BitVec 4) (count : BitVec 14) : Statement (.waitX sem count) := of_core _ _ _ _ _ (fun _ => rfl) (by decide) (by decide) (fun r hw => by unfold decodeCore; rw [tagOf_mkWord, opOf_mkWord, dOf_mkWord, aOf_mkWord, bOf_mkWord, ringOf_mkWord]; show (fun (r : Ring) (d a b : BitVec 6) => (some (.waitX (semOf d) (cntOf d a b)) : Option Instr)) r ((sem ++ count.extractLsb' 12 2)) (count.extractLsb' 6 6) (count.extractLsb' 0 6) = _; simp only [semOf_parts, cntOf_parts])
theorem getsX (d : BitVec 4) : Statement (.getsX d) := of_core _ _ _ _ _ (fun _ => rfl) (by decide) (by decide) (fun r hw => by unfold decodeCore; rw [tagOf_mkWord, opOf_mkWord, dOf_mkWord, aOf_mkWord, bOf_mkWord, ringOf_mkWord]; show (fun (r : Ring) (d a b : BitVec 6) => ((do isZero a; isZero b; let d ← reg4 d; some (.getsX d)) : Option Instr)) r (d.setWidth 6) (0) (0) = _; simp only [reg4_code]; rfl)
theorem putsX (a : BitVec 4) : Statement (.putsX a) := of_core _ _ _ _ _ (fun _ => rfl) (by decide) (by decide) (fun r hw => by unfold decodeCore; rw [tagOf_mkWord, opOf_mkWord, dOf_mkWord, aOf_mkWord, bOf_mkWord, ringOf_mkWord]; show (fun (r : Ring) (d a b : BitVec 6) => ((do isZero d; isZero b; let a ← reg4 a; some (.putsX a)) : Option Instr)) r (0) (a.setWidth 6) (0) = _; simp only [reg4_code]; rfl)
theorem extX (imm : BitVec 18) : Statement (.extX imm) := of_bare _ _ _ _ _ (fun _ => rfl) (by decide) (fun hw => by unfold decodeCore; rw [tagOf_mkWord, opOf_mkWord, dOf_mkWord, aOf_mkWord, bOf_mkWord, ringOf_mkWord]; show (fun (r : Ring) (d a b : BitVec 6) => ((do ringZero r; some (.extX (imm18 d a b))) : Option Instr)) Ring.zero (imm.extractLsb' 12 6) (imm.extractLsb' 6 6) (imm.extractLsb' 0 6) = _; simp only [imm18_parts]; rfl)
theorem pb (d : BitVec 2) (imm : BitVec 12) : Statement (.pb d imm) := of_bare _ _ _ _ _ (fun _ => rfl) (by decide) (fun hw => by unfold decodeCore; rw [tagOf_mkWord, opOf_mkWord, dOf_mkWord, aOf_mkWord, bOf_mkWord, ringOf_mkWord]; show (fun (r : Ring) (d a b : BitVec 6) => ((do ringZero r; let d ← reg2 d; some (.pb d (imm12 a b))) : Option Instr)) Ring.zero (d.setWidth 6) (imm.extractLsb' 6 6) (imm.extractLsb' 0 6) = _; simp only [reg2_code, imm12_parts]; rfl)
theorem br (d : BitVec 2) (a : BitVec 3) : Statement (.br d a) := of_bare _ _ _ _ _ (fun _ => rfl) (by decide) (fun hw => by unfold decodeCore; rw [tagOf_mkWord, opOf_mkWord, dOf_mkWord, aOf_mkWord, bOf_mkWord, ringOf_mkWord]; show (fun (r : Ring) (d a b : BitVec 6) => ((do isZero b; ringZero r; let d ← reg2 d; let a ← reg3 a; some (.br d a)) : Option Instr)) Ring.zero (d.setWidth 6) (a.setWidth 6) (0) = _; simp only [reg2_code, reg3_code]; rfl)
theorem brn (d : BitVec 2) (a : BitVec 3) : Statement (.brn d a) := of_bare _ _ _ _ _ (fun _ => rfl) (by decide) (fun hw => by unfold decodeCore; rw [tagOf_mkWord, opOf_mkWord, dOf_mkWord, aOf_mkWord, bOf_mkWord, ringOf_mkWord]; show (fun (r : Ring) (d a b : BitVec 6) => ((do isZero b; ringZero r; let d ← reg2 d; let a ← reg3 a; some (.brn d a)) : Option Instr)) Ring.zero (d.setWidth 6) (a.setWidth 6) (0) = _; simp only [reg2_code, reg3_code]; rfl)
theorem call (d : BitVec 2) : Statement (.call d) := of_bare _ _ _ _ _ (fun _ => rfl) (by decide) (fun hw => by unfold decodeCore; rw [tagOf_mkWord, opOf_mkWord, dOf_mkWord, aOf_mkWord, bOf_mkWord, ringOf_mkWord]; show (fun (r : Ring) (d a b : BitVec 6) => ((do isZero a; isZero b; ringZero r; let d ← reg2 d; some (.call d)) : Option Instr)) Ring.zero (d.setWidth 6) (0) (0) = _; simp only [reg2_code]; rfl)
theorem loop (d : BitVec 2) (a : BitVec 6) (imm : BitVec 6) : Statement (.loop d a imm) := of_bare _ _ _ _ _ (fun _ => rfl) (by decide) (fun hw => by unfold decodeCore; rw [tagOf_mkWord, opOf_mkWord, dOf_mkWord, aOf_mkWord, bOf_mkWord, ringOf_mkWord]; show (fun (r : Ring) (d a b : BitVec 6) => ((do ringZero r; let d ← reg2 d; some (.loop d a b)) : Option Instr)) Ring.zero (d.setWidth 6) (a) (imm) = _; simp only [reg2_code]; rfl)
theorem loopi (d : BitVec 2) (len : BitVec 6) (imm : BitVec 6) : Statement (.loopi d len imm) := of_bare _ _ _ _ _ (fun _ => rfl) (by decide) (fun hw => by unfold decodeCore; rw [tagOf_mkWord, opOf_mkWord, dOf_mkWord, aOf_mkWord, bOf_mkWord, ringOf_mkWord]; show (fun (r : Ring) (d a b : BitVec 6) => ((do ringZero r; let d ← reg2 d; let a ← regLen a; some (.loopi d a b)) : Option Instr)) Ring.zero (d.setWidth 6) (len) (imm) = _; simp only [reg2_code, regLen_code _ (of_decide_eq_true hw)]; rfl)
theorem breakl (d : BitVec 2) (a : BitVec 3) : Statement (.breakl d a) := of_bare _ _ _ _ _ (fun _ => rfl) (by decide) (fun hw => by unfold decodeCore; rw [tagOf_mkWord, opOf_mkWord, dOf_mkWord, aOf_mkWord, bOf_mkWord, ringOf_mkWord]; show (fun (r : Ring) (d a b : BitVec 6) => ((do isZero b; ringZero r; let d ← reg2 d; let a ← reg3 a; some (.breakl d a)) : Option Instr)) Ring.zero (d.setWidth 6) (a.setWidth 6) (0) = _; simp only [reg2_code, reg3_code]; rfl)
theorem extB (imm : BitVec 18) : Statement (.extB imm) := of_bare _ _ _ _ _ (fun _ => rfl) (by decide) (fun hw => by unfold decodeCore; rw [tagOf_mkWord, opOf_mkWord, dOf_mkWord, aOf_mkWord, bOf_mkWord, ringOf_mkWord]; show (fun (r : Ring) (d a b : BitVec 6) => ((do ringZero r; some (.extB (imm18 d a b))) : Option Instr)) Ring.zero (imm.extractLsb' 12 6) (imm.extractLsb' 6 6) (imm.extractLsb' 0 6) = _; simp only [imm18_parts]; rfl)
theorem rd (off : BitVec 17) (n : BitVec 5) : Statement (.rd off n) := of_rule _ (fun _ => rfl) (decode_rd off n)
theorem cmpk (w : BitVec 5) : Statement (.cmpk w) := of_rule _ (fun _ => rfl) (decode_cmpk w)
theorem cmpg (g : BitVec 3) (w : BitVec 5) : Statement (.cmpg g w) := of_rule _ (fun _ => rfl) (decode_cmpg g w)
theorem getf (g : BitVec 3) (l : BitVec 6) (sh : BitVec 6) (w : BitVec 5) : Statement (.getf g l sh w) := of_rule _ (fun _ => rfl) (decode_getf g l sh w)
theorem next (w : BitVec 5) : Statement (.next w) := of_rule _ (fun _ => rfl) (decode_next w)
theorem nextG (g : BitVec 3) : Statement (.nextG g) := of_rule _ (fun _ => rfl) (decode_nextG g)
theorem hash (g : BitVec 3) (stride : BitVec 22) : Statement (.hash g stride) := of_rule _ (fun _ => rfl) (decode_hash g stride)
theorem addg (g : BitVec 3) (imm : BitVec 22) : Statement (.addg g imm) := of_rule _ (fun _ => rfl) (decode_addg g imm)
theorem andg (g : BitVec 3) (imm : BitVec 22) : Statement (.andg g imm) := of_rule _ (fun _ => rfl) (decode_andg g imm)
theorem jmp (t : BitVec 8) : Statement (.jmp t) := of_rule _ (fun _ => rfl) (decode_jmp t)
theorem jeq (t : BitVec 8) : Statement (.jeq t) := of_rule _ (fun _ => rfl) (decode_jeq t)
theorem jne (t : BitVec 8) : Statement (.jne t) := of_rule _ (fun _ => rfl) (decode_jne t)
theorem jlt (t : BitVec 8) : Statement (.jlt t) := of_rule _ (fun _ => rfl) (decode_jlt t)
theorem emit (n : BitVec 5) : Statement (.emit n) := of_rule _ (fun _ => rfl) (decode_emit n)
theorem emitg (g : BitVec 3) (r : BitVec 1) (n : BitVec 5) : Statement (.emitg g r n) := of_rule _ (fun _ => rfl) (decode_emitg g r n)
theorem fail (c : BitVec 22) : Statement (.fail c) := of_rule _ (fun _ => rfl) (decode_fail c)
theorem powerGood : Statement .powerGood := of_none (fun _ => rfl)
theorem powerLoss : Statement .powerLoss := of_none (fun _ => rfl)
theorem verifyComplete : Statement .verifyComplete := of_none (fun _ => rfl)
theorem selftestComplete : Statement .selftestComplete := of_none (fun _ => rfl)
theorem trainComplete : Statement .trainComplete := of_none (fun _ => rfl)
theorem powerThrottle : Statement .powerThrottle := of_none (fun _ => rfl)
theorem thermalThrottle : Statement .thermalThrottle := of_none (fun _ => rfl)
theorem throttleLift : Statement .throttleLift := of_none (fun _ => rfl)
theorem thermalTrip : Statement .thermalTrip := of_none (fun _ => rfl)
theorem spdmRequest : Statement .spdmRequest := of_none (fun _ => rfl)
theorem status : Statement .status := of_none (fun _ => rfl)
theorem create : Statement .create := of_none (fun _ => rfl)
theorem load : Statement .load := of_none (fun _ => rfl)
theorem reload : Statement .reload := of_none (fun _ => rfl)
theorem suspend : Statement .suspend := of_none (fun _ => rfl)
theorem resume : Statement .resume := of_none (fun _ => rfl)
theorem destroy : Statement .destroy := of_none (fun _ => rfl)
theorem debug : Statement .debug := of_none (fun _ => rfl)
theorem mailboxTlbi : Statement .mailboxTlbi := of_none (fun _ => rfl)
theorem keyload : Statement .keyload := of_none (fun _ => rfl)
theorem keygrant : Statement .keygrant := of_none (fun _ => rfl)
theorem keyrevoke : Statement .keyrevoke := of_none (fun _ => rfl)
theorem setid : Statement .setid := of_none (fun _ => rfl)
theorem pstat : Statement .pstat := of_none (fun _ => rfl)
theorem pfence : Statement .pfence := of_none (fun _ => rfl)
theorem punfence : Statement .punfence := of_none (fun _ => rfl)
theorem rtload : Statement .rtload := of_none (fun _ => rfl)
theorem rtuse : Statement .rtuse := of_none (fun _ => rfl)
theorem scread : Statement .scread := of_none (fun _ => rfl)
theorem mark : Statement .mark := of_none (fun _ => rfl)
theorem cfgupdate : Statement .cfgupdate := of_none (fun _ => rfl)
theorem fwupdate : Statement .fwupdate := of_none (fun _ => rfl)
theorem warmreset : Statement .warmreset := of_none (fun _ => rfl)
theorem arbcommit : Statement .arbcommit := of_none (fun _ => rfl)
theorem mailboxUnknownOp : Statement .mailboxUnknownOp := of_none (fun _ => rfl)
theorem registerWrite : Statement .registerWrite := of_none (fun _ => rfl)
theorem launchGraph : Statement .launchGraph := of_none (fun _ => rfl)
theorem launchStackKernel : Statement .launchStackKernel := of_none (fun _ => rfl)
theorem launchCard : Statement .launchCard := of_none (fun _ => rfl)
theorem graphLaunchDeferred : Statement .graphLaunchDeferred := of_none (fun _ => rfl)
theorem dispatchDecision : Statement .dispatchDecision := of_none (fun _ => rfl)
theorem quantumExpiry : Statement .quantumExpiry := of_none (fun _ => rfl)
theorem kernelLoadComplete : Statement .kernelLoadComplete := of_none (fun _ => rfl)
theorem kernelStopped : Statement .kernelStopped := of_none (fun _ => rfl)
theorem coreSaveComplete : Statement .coreSaveComplete := of_none (fun _ => rfl)
theorem kernelRestoreComplete : Statement .kernelRestoreComplete := of_none (fun _ => rfl)
theorem coreEnd : Statement .coreEnd := of_none (fun _ => rfl)
theorem watchdogForcedSave : Statement .watchdogForcedSave := of_none (fun _ => rfl)
theorem coreHang : Statement .coreHang := of_none (fun _ => rfl)
theorem contextSaved : Statement .contextSaved := of_none (fun _ => rfl)
theorem dumpComplete : Statement .dumpComplete := of_none (fun _ => rfl)
theorem footprintWaitTimeout : Statement .footprintWaitTimeout := of_none (fun _ => rfl)
theorem accessComplete : Statement .accessComplete := of_none (fun _ => rfl)
theorem pageTableWalk : Statement .pageTableWalk := of_none (fun _ => rfl)
theorem semaphoreChangeApply : Statement .semaphoreChangeApply := of_none (fun _ => rfl)
theorem ringTokenRelease : Statement .ringTokenRelease := of_none (fun _ => rfl)
theorem arrayStepComplete : Statement .arrayStepComplete := of_none (fun _ => rfl)
theorem chainWordReady : Statement .chainWordReady := of_none (fun _ => rfl)
theorem chainedStep : Statement .chainedStep := of_none (fun _ => rfl)
theorem streamFetch : Statement .streamFetch := of_none (fun _ => rfl)
theorem streamWrite : Statement .streamWrite := of_none (fun _ => rfl)
theorem loaderTileFill : Statement .loaderTileFill := of_none (fun _ => rfl)
theorem loaderTileFull : Statement .loaderTileFull := of_none (fun _ => rfl)
theorem storerTileStored : Statement .storerTileStored := of_none (fun _ => rfl)
theorem cardWaitsemMet : Statement .cardWaitsemMet := of_none (fun _ => rfl)
theorem cardDone : Statement .cardDone := of_none (fun _ => rfl)
theorem cardFault : Statement .cardFault := of_none (fun _ => rfl)
theorem nodeRetryReady : Statement .nodeRetryReady := of_none (fun _ => rfl)
theorem nodeCancelComplete : Statement .nodeCancelComplete := of_none (fun _ => rfl)
theorem copy : Statement .copy := of_none (fun _ => rfl)
theorem copycvt : Statement .copycvt := of_none (fun _ => rfl)
theorem fill : Statement .fill := of_none (fun _ => rfl)
theorem accw : Statement .accw := of_none (fun _ => rfl)
theorem rwrite : Statement .rwrite := of_none (fun _ => rfl)
theorem raccw : Statement .raccw := of_none (fun _ => rfl)
theorem mcast : Statement .mcast := of_none (fun _ => rfl)
theorem walkj : Statement .walkj := of_none (fun _ => rfl)
theorem sklaunch : Statement .sklaunch := of_none (fun _ => rfl)
theorem klaunch : Statement .klaunch := of_none (fun _ => rfl)
theorem signal : Statement .signal := of_none (fun _ => rfl)
theorem accChunkArrive : Statement .accChunkArrive := of_none (fun _ => rfl)
theorem heldArrivalApply : Statement .heldArrivalApply := of_none (fun _ => rfl)
theorem stackKernelLaunch : Statement .stackKernelLaunch := of_none (fun _ => rfl)
theorem ceRunStart : Statement .ceRunStart := of_none (fun _ => rfl)
theorem stackKernelLaunchEnd : Statement .stackKernelLaunchEnd := of_none (fun _ => rfl)
theorem whistleFlip : Statement .whistleFlip := of_none (fun _ => rfl)
theorem walkSlotStart : Statement .walkSlotStart := of_none (fun _ => rfl)
theorem walkForwardArrive : Statement .walkForwardArrive := of_none (fun _ => rfl)
theorem walkResume : Statement .walkResume := of_none (fun _ => rfl)
theorem walkStepLimit : Statement .walkStepLimit := of_none (fun _ => rfl)
theorem walkWatchdog : Statement .walkWatchdog := of_none (fun _ => rfl)
theorem portTrainingDone : Statement .portTrainingDone := of_none (fun _ => rfl)
theorem portLaneLoss : Statement .portLaneLoss := of_none (fun _ => rfl)
theorem portSignalLoss : Statement .portSignalLoss := of_none (fun _ => rfl)
theorem replayLimit : Statement .replayLimit := of_none (fun _ => rfl)
theorem portFenced : Statement .portFenced := of_none (fun _ => rfl)
theorem flitForward : Statement .flitForward := of_none (fun _ => rfl)
theorem flitRouteRetry : Statement .flitRouteRetry := of_none (fun _ => rfl)
theorem flitHoldTimeout : Statement .flitHoldTimeout := of_none (fun _ => rfl)
theorem creditReturn : Statement .creditReturn := of_none (fun _ => rfl)
theorem replayRequest : Statement .replayRequest := of_none (fun _ => rfl)
theorem remoteCardReceive : Statement .remoteCardReceive := of_none (fun _ => rfl)
theorem remoteDataReceive : Statement .remoteDataReceive := of_none (fun _ => rfl)
theorem remoteCardReport : Statement .remoteCardReport := of_none (fun _ => rfl)
theorem linkLossReport : Statement .linkLossReport := of_none (fun _ => rfl)
theorem rsigAck : Statement .rsigAck := of_none (fun _ => rfl)
theorem raccwCancelNotice : Statement .raccwCancelNotice := of_none (fun _ => rfl)
theorem remoteSignalReceive : Statement .remoteSignalReceive := of_none (fun _ => rfl)
theorem groupHello : Statement .groupHello := of_none (fun _ => rfl)
theorem groupHelloAnswer : Statement .groupHelloAnswer := of_none (fun _ => rfl)
theorem groupConfirm : Statement .groupConfirm := of_none (fun _ => rfl)
theorem groupCommitFence : Statement .groupCommitFence := of_none (fun _ => rfl)
theorem groupWithdrawNotice : Statement .groupWithdrawNotice := of_none (fun _ => rfl)
theorem groupWithdrawAck : Statement .groupWithdrawAck := of_none (fun _ => rfl)
theorem memberGone : Statement .memberGone := of_none (fun _ => rfl)
theorem groupMessageResend : Statement .groupMessageResend := of_none (fun _ => rfl)
theorem barrierArrivalMessage : Statement .barrierArrivalMessage := of_none (fun _ => rfl)
theorem gfenceReceive : Statement .gfenceReceive := of_none (fun _ => rfl)
theorem nop : Statement .nop := of_core _ _ _ _ _ (fun _ => rfl) (by decide) (by decide) (fun r hw => by unfold decodeCore; rw [tagOf_mkWord, opOf_mkWord, dOf_mkWord, aOf_mkWord, bOf_mkWord, ringOf_mkWord]; show (fun (r : Ring) (d a b : BitVec 6) => ((do isZero d; isZero a; isZero b; some (.nop)) : Option Instr)) r (0) (0) (0) = _; rfl)
theorem eret : Statement .eret := of_core _ _ _ _ _ (fun _ => rfl) (by decide) (by decide) (fun r hw => by unfold decodeCore; rw [tagOf_mkWord, opOf_mkWord, dOf_mkWord, aOf_mkWord, bOf_mkWord, ringOf_mkWord]; show (fun (r : Ring) (d a b : BitVec 6) => ((do isZero d; isZero a; isZero b; some (.eret)) : Option Instr)) r (0) (0) (0) = _; rfl)
theorem barvArrive : Statement .barvArrive := of_core _ _ _ _ _ (fun _ => rfl) (by decide) (by decide) (fun r hw => by unfold decodeCore; rw [tagOf_mkWord, opOf_mkWord, dOf_mkWord, aOf_mkWord, bOf_mkWord]; rfl)
theorem barvWithdraw : Statement .barvWithdraw := of_none (fun _ => rfl)
theorem barvJoin : Statement .barvJoin := of_none (fun _ => rfl)
theorem barvBind : Statement .barvBind := of_none (fun _ => rfl)
theorem barvUnbind : Statement .barvUnbind := of_none (fun _ => rfl)
theorem barvRearm : Statement .barvRearm := of_none (fun _ => rfl)
theorem barvAbandon : Statement .barvAbandon := of_none (fun _ => rfl)
theorem bkarmArm : Statement .bkarmArm := of_core _ _ _ _ _ (fun _ => rfl) (by decide) (by decide) (fun r hw => by unfold decodeCore; rw [tagOf_mkWord, opOf_mkWord, dOf_mkWord, aOf_mkWord, bOf_mkWord]; rfl)
theorem bkarmDisarm : Statement .bkarmDisarm := of_none (fun _ => rfl)
theorem bkarmRemove : Statement .bkarmRemove := of_none (fun _ => rfl)
theorem grpgenRead : Statement .grpgenRead := of_core _ _ _ _ _ (fun _ => rfl) (by decide) (by decide) (fun r hw => by unfold decodeCore; rw [tagOf_mkWord, opOf_mkWord, dOf_mkWord, aOf_mkWord, bOf_mkWord]; rfl)
theorem grpgenBind : Statement .grpgenBind := of_none (fun _ => rfl)
theorem grpgenDissolve : Statement .grpgenDissolve := of_none (fun _ => rfl)
theorem grpgenWithdraw : Statement .grpgenWithdraw := of_none (fun _ => rfl)
theorem grpgenReshape : Statement .grpgenReshape := of_none (fun _ => rfl)
theorem grpgenCatch : Statement .grpgenCatch := of_none (fun _ => rfl)
theorem grpgenDrop : Statement .grpgenDrop := of_none (fun _ => rfl)
theorem nopA : Statement .nopA := of_core _ _ _ _ _ (fun _ => rfl) (by decide) (by decide) (fun r hw => by unfold decodeCore; rw [tagOf_mkWord, opOf_mkWord, dOf_mkWord, aOf_mkWord, bOf_mkWord, ringOf_mkWord]; show (fun (r : Ring) (d a b : BitVec 6) => ((do isZero d; isZero a; isZero b; some (.nopA)) : Option Instr)) r (0) (0) (0) = _; rfl)
theorem nopV : Statement .nopV := of_core _ _ _ _ _ (fun _ => rfl) (by decide) (by decide) (fun r hw => by unfold decodeCore; rw [tagOf_mkWord, opOf_mkWord, dOf_mkWord, aOf_mkWord, bOf_mkWord, ringOf_mkWord]; show (fun (r : Ring) (d a b : BitVec 6) => ((do isZero d; isZero a; isZero b; some (.nopV)) : Option Instr)) r (0) (0) (0) = _; rfl)
theorem nopM : Statement .nopM := of_core _ _ _ _ _ (fun _ => rfl) (by decide) (by decide) (fun r hw => by unfold decodeCore; rw [tagOf_mkWord, opOf_mkWord, dOf_mkWord, aOf_mkWord, bOf_mkWord, ringOf_mkWord]; show (fun (r : Ring) (d a b : BitVec 6) => ((do isZero d; isZero a; isZero b; some (.nopM)) : Option Instr)) r (0) (0) (0) = _; rfl)
theorem nopX : Statement .nopX := of_core _ _ _ _ _ (fun _ => rfl) (by decide) (by decide) (fun r hw => by unfold decodeCore; rw [tagOf_mkWord, opOf_mkWord, dOf_mkWord, aOf_mkWord, bOf_mkWord, ringOf_mkWord]; show (fun (r : Ring) (d a b : BitVec 6) => ((do isZero d; isZero a; isZero b; some (.nopX)) : Option Instr)) r (0) (0) (0) = _; rfl)
theorem nopB : Statement .nopB := of_bare _ _ _ _ _ (fun _ => rfl) (by decide) (fun hw => by unfold decodeCore; rw [tagOf_mkWord, opOf_mkWord, dOf_mkWord, aOf_mkWord, bOf_mkWord, ringOf_mkWord]; show (fun (r : Ring) (d a b : BitVec 6) => ((do isZero d; isZero a; isZero b; ringZero r; some (.nopB)) : Option Instr)) Ring.zero (0) (0) (0) = _; rfl)
theorem ret : Statement .ret := of_bare _ _ _ _ _ (fun _ => rfl) (by decide) (fun hw => by unfold decodeCore; rw [tagOf_mkWord, opOf_mkWord, dOf_mkWord, aOf_mkWord, bOf_mkWord, ringOf_mkWord]; show (fun (r : Ring) (d a b : BitVec 6) => ((do isZero d; isZero a; isZero b; ringZero r; some (.ret)) : Option Instr)) Ring.zero (0) (0) (0) = _; rfl)
theorem sync : Statement .sync := of_bare _ _ _ _ _ (fun _ => rfl) (by decide) (fun hw => by unfold decodeCore; rw [tagOf_mkWord, opOf_mkWord, dOf_mkWord, aOf_mkWord, bOf_mkWord, ringOf_mkWord]; show (fun (r : Ring) (d a b : BitVec 6) => ((do isZero d; isZero a; isZero b; ringZero r; some (.sync)) : Option Instr)) Ring.zero (0) (0) (0) = _; rfl)
theorem phint : Statement .phint := of_bare _ _ _ _ _ (fun _ => rfl) (by decide) (fun hw => by unfold decodeCore; rw [tagOf_mkWord, opOf_mkWord, dOf_mkWord, aOf_mkWord, bOf_mkWord, ringOf_mkWord]; show (fun (r : Ring) (d a b : BitVec 6) => ((do isZero d; isZero a; isZero b; ringZero r; some (.phint)) : Option Instr)) Ring.zero (0) (0) (0) = _; rfl)
theorem endW : Statement .endW := of_bare _ _ _ _ _ (fun _ => rfl) (by decide) (fun hw => by unfold decodeCore; rw [tagOf_mkWord, opOf_mkWord, dOf_mkWord, aOf_mkWord, bOf_mkWord, ringOf_mkWord]; show (fun (r : Ring) (d a b : BitVec 6) => ((do isZero d; isZero a; isZero b; ringZero r; some (.endW)) : Option Instr)) Ring.zero (0) (0) (0) = _; rfl)
theorem miss : Statement .miss := of_rule _ (fun _ => rfl) (decode_miss)
theorem illegalWord : Statement .illegalWord := of_none (fun _ => rfl)
theorem idleFlitReceive : Statement .idleFlitReceive := of_none (fun _ => rfl)
theorem flitCheckDiscard : Statement .flitCheckDiscard := of_none (fun _ => rfl)

end Sys2Proof.Laws.RoundTrip
end

