-- ==== Sys2Proof/Tests/Slice0.lean ====
section
/-!
SUPPORT. Tests: small states that meet the hypotheses of each statement, clause by clause (`witness_<name>`), ill-formed instructions that the
checks refuse, words written out from the spec's encodings, and single steps whose results stand in the spec's tables and worked examples.
-/
namespace Sys2Proof.Machine.Tests
open Sys2Proof Sys2Proof.Machine
set_option maxRecDepth 100000
set_option Elab.async false

/-! ## Small states -/

/-- The package right after reset with a word of core 3 at hand. -/
def base (e : Engine) (w : Word32 := 0) : State := { State.reset with cur := { core := 3, eng := e, word := w } }
/-- The same with context 5 resident, a page at 0x10000000 in the translation cache and a claim over its first 32 KiB. -/
def gbase (e : Engine) (g : Core → Core) (pte : BitVec 64 := 0x400010007) : State :=
  { (base e).onMe (fun k => g { k with lastCtx := 5, claims := [(2, 9), (0, 7)] }) with
    tlb := [{ cache := .eng 3 e, ctx := 5, vbase := 0x10000000, size := 0x200000, pte := pte }],
    fps := [{ id := 9, ctx := 5, owner := .core 3, base := 0x10000000, len := 0x8000, mode := .rw, region := 0 }],
    ctxs := [(5, { regions := [{ ovr := 0xFFF, fpent := 100, parent := 0xFFFF, cores := 96 }] })], fpNext := 20 }
/-- The translation of that page. -/
def leaf (pte : BitVec 64 := 0x400010007) : Leaf := { vbase := 0x10000000, size := 0x200000, pte := pte }
/-- A core with `v` in register S1. -/
def s1 (v : BitVec 64) (k : Core) : Core := { k with s := k.s.set 1 { v := v } }
/-- A core with `v` in register A1. -/
def a1 (v : BitVec 64) (k : Core) : Core := { k with a := k.a.set 1 { v := v } }
/-- A core with the 64 bytes of `d` at 0x400 of its scratchpad and that address in A1. -/
def desc (d : Nat) (k : Core) : Core := a1 0x400 { k with spad := Bytes.splice [] 0x400 (leBytes 64 d) }
/-- A one-dimensional pattern of one 4,096-byte run at the claimed page (Table 6.3): for a loader, a subscription or nothing. -/
def oneRun (fields : Nat) : Nat := 0x1000000010000000100000040000000001000000000000000000000 + fields
/-- Word `w` with the event's arguments and bytes. -/
def ev (n : List Nat) (s : State) (b : List Byte := []) : State := { s with cur := { s.cur with args := { n := n, bytes := b } } }
/-- The mailbox's ARG and LEN. -/
def mb (a : BitVec 64) (l : BitVec 32) (s : State) : State := { s with mbox := { s.mbox with arg := a, len := l } }
/-- The device in a state, with one configuration record. -/
def dev (d : DState) : State := { State.reset with dstate := d, cfg := { raw := [1], version := 5 } }
/-- Context 7 of a ready device, its region table of one entry in mapped memory. -/
def cx7 (st : CtxState) : State :=
  { dev .ready with
    ctxs := [(7, { state := st, rtab := 0x10000, rcount := 1 })]
    tlb := [{ cache := .hub, ctx := 7, vbase := 0x10000, size := 0x10000, pte := BitVec.ofNat 64 (7 + 0x200 * 2 ^ 22) }]
    mem := Bytes.splice (Bytes.splice [] 0x20000 (leBytes 8 (0xFFFF + 0xFFF * 2 ^ 16 + 63 * 2 ^ 40) ++ leBytes 8 (96 + 100 * 2 ^ 32 + 5 * 2 ^ 48) ++ leBytes 8 1))
      0x20110 [9] }
/-- A ready device whose port 5 is in a state. -/
def port5 (st : PState) : State :=
  { dev .ready with pkgid := some 9, ports := Vector.ofFn (fun i => if i.val = 5 then { st := st, lanes := 8, peer := some 77, lastFence := some 1 } else {}) }
/-- A card of context 7. -/
def hc (op : BitVec 8) (n : BitVec 16 := 0) : HubCard := { (default : HubCard) with ctx := 7, card := { opc := op, ext0 := n, src := 0x1000, dst := 0x2000, ext1 := 1 }, late := true }
def root7 : Region := { parent := 0xFFFF, ovr := 0xFFF, fpent := 100, pceil := 63, cores := 96, quantum := 5 }
/-- A gang of context 7 on cores 3 and 5, and card 44 of a running context. -/
def kg (st : KState) : Gang := { (default : Gang) with ctx := 7, state := st, cores := [3, 5], size := 2, card := 44, textVa := 0x10000, textLen := 4, winVa := 0x10100, winLen := 16 }
def ks (g : Gang) (h : HubCard) (k : Core) : State :=
  { State.reset with
    gangs := [(1, g)], hub := [(44, h)], fpNext := 6
    ctxs := [(7, { state := .running, regions := [root7], rcount := 1, savecnt := 1 }), (9, { state := .preempting })]
    tlb := [{ cache := .hub, ctx := 7, vbase := 0, size := 2 ^ 40, pte := BitVec.ofNat 64 (15 + 0x500 * 2 ^ 22) }]
    cores := (State.reset.cores.set 3 { k with gang := some 1, lastCtx := 7 }).set 5 { gang := some 1, lastCtx := 7, mode := .running, gangRank := 1 } }
/-- Every engine has ended. -/
def endAll (k : Core) : Core := engines.foldl (fun k e => k.setEng e { (k.eng e) with ended := true }) k
/-- Page tables from 0x1000 on that map 0x10000 to 0x50000. -/
def tables : Bytes :=
  Bytes.splice (Bytes.splice (Bytes.splice (Bytes.splice [] 0x1000 (leBytes 8 (1 + 0x20 * 2 ^ 22))) 0x2000 (leBytes 8 (1 + 0x30 * 2 ^ 22))) 0x3000
    (leBytes 8 (1 + 0x40 * 2 ^ 22))) 0x4008 (leBytes 8 (7 + 0x500 * 2 ^ 22))
/-- The one slot that is free is taken. -/
theorem takeSlot_one {s : State} {c : BitVec 8} {n : Nat} (h : (s.ctx c).freeSlots = [n]) : takeSlot c s = .ok n { s with freeCtr := s.freeCtr + 1 } := by
  show (match (s.ctx c).freeSlots[Config.freeNat s.freeCtr % (s.ctx c).freeSlots.length]? with | none => stall | some n => (pure n : W Nat)) { s with freeCtr := s.freeCtr + 1 } = _
  rw [h]
  simp [Nat.mod_one] <;> rfl
/-- Whether an operation that may fail succeeded, and the state it left. -/
def went {α : Type} (r : EStateM.Result Stop State (Except Bad α)) : Bool :=
  match r with
  | .ok (.ok _) _ => true
  | _ => false
def left_ {α : Type} (r : EStateM.Result Stop State α) : State :=
  match r with
  | .ok _ s => s
  | .error _ s => s
theorem went_ok {r : EStateM.Result Stop State (Except Bad Unit)} (h : went r = true) : r = .ok (.ok ()) (left_ r) := by
  cases r with
  | ok a s =>
    cases a with
    | ok x => rfl
    | error e => exact (Bool.false_ne_true h).elim
  | error e s => exact (Bool.false_ne_true h).elim
/-- Core 3 of the gang saves, and the states once its slot and the image's free bytes are fixed. -/
def saving (n : Nat) : State := { (ev [3] (ks (kg .running) { hc 9 2 with st := .running } { mode := .saving })).atCore 3 .S with freeCtr := n }
/-- The value an operation gave. -/
def got {α : Type} (d : α) (r : EStateM.Result Stop State (Except Bad α)) : α :=
  match r with
  | .ok (.ok x) _ => x
  | _ => d
theorem went_got {α : Type} (d : α) {r : EStateM.Result Stop State (Except Bad α)} (h : went r = true) : r = .ok (.ok (got d r)) (left_ r) := by
  cases r with
  | ok a s =>
    cases a with
    | ok x => rfl
    | error e => exact (Bool.false_ne_true h).elim
  | error e s => exact (Bool.false_ne_true h).elim
/-- Core 3 of a gang of context 7 that maps 0 to 0x50000 in each cache, with a claim over its first 6,400 bytes. -/
def cw (e : Engine) (k : Core) : State :=
  { (base e) with
    cores := State.reset.cores.set 3 { k with mode := .running, gang := some 1, lastCtx := 7, claims := [(0, 5)] }
    ctxs := [(7, { state := .running, regions := [root7], rcount := 1 })]
    gangs := [(1, { (default : Gang) with ctx := 7, state := .running, cores := [3], size := 1, card := 44 })]
    fps := [{ id := 5, ctx := 7, owner := .core 3, base := 0, len := 100, mode := .r, region := 0 }], fpNext := 6
    tlb := [TlbId.eng 3 e, .hub, .base 0].map (fun z => { cache := z, ctx := 7, vbase := 0, size := 0x10000, pte := BitVec.ofNat 64 (0x1000F + 0x500 * 2 ^ 22) }) }
/-- The 128 bytes of a card with one operation code. -/
def cb (op : Nat) : List Byte := leBytes 8 op ++ List.replicate 120 0
/-- A card with source and destination in the scratchpad, one row of two elements. -/
def cop (op : BitVec 8) (fin fout : BitVec 4) (dst : BitVec 64 := 0x2000) (n : BitVec 16 := 2) : Card :=
  { opc := op, ssp := true, dsp := true, fin := fin, fout := fout, src := 0x1000, dst := dst, ext0 := n, ext1 := 1, ext2 := 1, ext3 := 1 }
def xc (st : CardState) (c : Card) (f : Option Bad := none) (moved : Bool := false) : XCard := { ticket := 7, card := c, st := st, moved := moved, fault := f }
/-- Card 7 of core 3 moves its data; the context's group 5 has two members. -/
def moving (c : Card) (mem : Bytes := []) : State :=
  { ev [0, 3, 7] (cw .X { cards := [xc .running c], spad := Bytes.splice [] 0x1000 [1, 2, 3, 4, 5, 6, 7, 8] }) with
    groups := [{ (default : Group) with ctx := 7, num := 5, state := 2, gen := 3, members := [{ pkgid := 1, mstate := .active, ctxid := 7 }, { pkgid := 2, mstate := .active, ctxid := 9 }] }]
    pkgid := some 1, mem := mem }
def runs (c : Card) : Exec := { ref := .x 3 7, card := c, path := (moving c).jobPath 3 7, core := 3 }
def fine {α : Type} (r : EStateM.Result Stop State α) : Bool :=
  match r with
  | .ok _ _ => true
  | _ => false
def val {α : Type} (d : α) (r : EStateM.Result Stop State α) : α :=
  match r with
  | .ok x _ => x
  | _ => d
theorem fine_val {α : Type} (d : α) {r : EStateM.Result Stop State α} (h : fine r = true) : r = .ok (val d r) (left_ r) := by
  cases r with
  | ok a s => rfl
  | error e s => exact (Bool.false_ne_true h).elim
theorem went_is {α : Type} [DecidableEq α] {x : α} {r : EStateM.Result Stop State (Except Bad α)} (h : (went r && decide (got x r = x)) = true) :
    r = .ok (.ok x) (left_ r) := by
  have h' := Bool.and_eq_true _ _ ▸ h
  rw [← of_decide_eq_true h'.2]
  exact went_got x h'.1
/-- A graph record at 0x400 of one node whose card stands at 0xA00. -/
def gmem : Bytes :=
  Bytes.splice (Bytes.splice (Bytes.splice (Bytes.splice [] 0x50400 (leBytes 8 (16 + 2 ^ 32 * 6) ++ leBytes 8 0x800 ++ leBytes 8 (1 + 2 ^ 32) ++ leBytes 8 0x700))
    0x50800 (leBytes 8 16 ++ leBytes 8 0xA00)) 0x50700 [0]) 0x50A00 [10]
/-- A word of S of core 3 with two operands, in a package with some graphs. -/
def gw (x y : BitVec 64) (gs : List Graph := []) : State :=
  { cw .S { s := (State.reset.me.s.set 1 { v := x }).set 2 { v := y }, repSeen := 7 } with
    mem := gmem, graphs := gs, hub := [(44, { hc 9 with st := .running, node := some { ctx := 7, graph := 0x400, node := 0 } })], hubNext := 50 }
def nd (st : NState) (sent : Bool := false) (p : Nat := 0) : Node := { state := st, succs := [{ dest := 1, early := true, sent := sent }], pend := p, succAddr := 0x900, hub := some 44 }
def gr (st : Nat) (ns : List Node) : Graph := { ctx := 7, addr := 0x400, status := st, dpol := 1, region := 0, gen := 7, ntab := 0x800, ilist := 0, ilen := 0, elist := 0, elen := 0, nodes := ns }
def ready (n : List Nat) (s : State) : State := ev n { s with dstate := .ready }
/-- A walk of context 7 in stack 2, and a package with it alone. -/
def wk0 : Walk := { (default : Walk) with ctx := 7, stack := 2, slot := 3, st := .walking, handle := 0x8000, limit := 10, kw := 1, recw := List.replicate 32 0, rules := [0, 0], dlen := 0x1000 }
def walking (w : Walk) (va : Nat) (pa : Nat) (mem : Bytes := []) : State :=
  { State.reset with
    cur := { stack := 2, slot := 3, args := { n := [9], bytes := [] } }, walks := [(9, w)], mem := mem, ctxs := [(7, { state := .loaded, regions := [root7], rcount := 1 })]
    tlb := [{ cache := .base 2, ctx := 7, vbase := va, size := 0x10000, pte := BitVec.ofNat 64 (0x1000F + pa / 256 * 2 ^ 22) }] }
/-- A walk image of two rules. -/
def wimg : List Byte := leBytes 8 2 ++ leBytes 8 0x1000 ++ leBytes 8 4 ++ List.replicate 40 0 ++ leBytes 8 9 ++ List.replicate 56 0 ++ leBytes 4 603979776 ++ leBytes 4 335544323
/-- Port 1 in a state, the others up. -/
def link (st : PState) (n : List Nat) (b : List Byte := []) (x : Port := {}) : State :=
  ev n { State.reset with pkgid := some 3, rgen := 5, routes := [(5, [(77, 0x102)])], ports := Vector.ofFn (fun i => if i.val = 1 then { x with st := st } else { st := .up, rxSeq := 9, credits := Vector.replicate 3 5 }) } b
/-- As many cards wait as the queue holds. -/
theorem queue_full (s : State) : queueRoom ≤ ({ s with hub := List.replicate queueRoom (44, hc 9) } : State).queued := by
  have h : ((hc 9).st == HubState.queued) = true := by decide +kernel
  simp only [State.queued, List.filter_replicate, h, if_true, List.length_replicate]
  exact Nat.le_refl _
/-- BARV, BKARM or GRPGEN with S3 as its control, S1 = `n` and S2 = `y` (rd, ra and rb of the word at hand). -/
def bw (v n y : BitVec 64) (mem : Bytes := []) : State :=
  let s := cw .S { s := ((State.reset.me.s.set 1 { v := n }).set 2 { v := y }).set 3 { v := v }, repSeen := 7 }
  { s with
    cur := { s.cur with word := BitVec.ofNat 32 (3 * 4096 + 64 + 2) }, pkgid := some 21, mem := mem
    fps := [{ id := 5, ctx := 7, owner := .core 3, base := 0, len := 64, mode := .r, region := 0 }]
    ctxs := [(7, { state := .running, regions := [{ root7 with buckets := 5, weight := 1 }], rcount := 1 })]
    hub := [(44, { hc 9 with st := .running, node := some { ctx := 7, graph := 0x400, node := 0 } })], hubNext := 50 }
def bar (n : Nat := 4095) (st : Nat := 2) : Barrier :=
  { id := 4, ctx := 7, num := n, addr := 0x400, region := 0, whistle := false, group := 0xFFFF, parties := 3, locexp := 0, me := 0, seq := 5, state := st, count := 1, expected := [0, 1, 2],
    arrived := [1], ahead := [(6, 1)], aband := none }
def whi (st : Nat) (n : Nat := 255) : Barrier := { bar n st with whistle := true, parties := 0, locexp := 2, expected := [0], arrived := [] }
/-- Group 255 of context 7: this package is rank 1 of three. -/
def grp : Group :=
  { (default : Group) with
    ctx := 7, num := 255, state := 2, self := 1, gen := 6, pgen := 6, addr := 0x600, mtab := 0x700
    members := [{ pkgid := 30, mstate := .active, ctxid := 3 }, { pkgid := 21, mstate := .active, ctxid := 7 }, { pkgid := 33, mstate := .withdrawing, ctxid := 4 }]
    wbase := 0x1000, wlen := 0x800, ww := true, wacc := true, wmc := true, acks := [(2, 0)] }
/-- Package 30 is on port 2, and an event brings numbers and bytes. -/
def ge (n : List Nat) (g : Group := grp) (b : List Byte := []) : State :=
  { ev n (bw 0 255 0) b with groups := [g], routes := [(0, [(30, 0x122), (33, 0x122)])], xidNext := 60, ports := Vector.replicate 16 { st := .up, peer := some 30, rxSeq := 9, credits := Vector.replicate 3 50 } }
theorem fine_ok {r : EStateM.Result Stop State Unit} (h : fine r = true) : r = .ok () (left_ r) := by
  cases r with
  | ok a s => rfl
  | error e s => exact (Bool.false_ne_true h).elim
/-- A stack kernel's image of one word at 0x8000 and its parameters at 0x400, for CE 0. -/
def sk (n : List Nat) (qs : List LaunchReq) (ls : List (Nat × Launch)) (ce : Ce) : State :=
  { ev n (bw 0 9 0 (Bytes.splice (Bytes.splice [] 0x58000 (leBytes 8 1 ++ List.replicate 120 0 ++ leBytes 8 (2 ^ 63))) 0x50400 (leBytes 8 0 ++ leBytes 8 20 ++ leBytes 8 0x1000))) with
    skReqs := qs, launches := ls, launchNext := 4, ces := [(0, ce)], fps := [] }
def la (src : LaunchSrc := .page) : Launch :=
  { (default : Launch) with ctx := 7, src := src, words := [2 ^ 63], ces := [0], todo := [0], area := 0x1000, elems := 20, step := 6, vtgt := 0x2000, ofmt := 1, planes := List.replicate 6 0x400 }
def ru : Run := { la.start 3 0 with lk0 := 3, lk1 := 4 }
def ceW (stop : Bool) : CeWord :=
  { stop := stop, lend := true, chk := false, fop := .fnop, fap := 0, fimm := 0, fdst := 0, aop := .enop, aa := 0, ab := 0, ad := 0, md := 0, wop := .wnop, wap := 0, wimm := 0, wsrc := 0 }
/-- A stream or ring of core 3 over mapped memory. -/
def sdesc (q : BitVec 6) : StreamDesc := { base := 0x1000, space := 1, qsel := q, depth := 8, len0 := 1100, cnt1 := 1, cnt2 := 1, cnt3 := 1 }
def ssub (store : Bool) : Subscription := { desc := { sdesc 0 with len0 := 2500, base := 0x2000 }, store := store, filled := 1, passed := if store then 2 else 0, busy := !store, tile := List.replicate 1024 5 }
def ring (store : Bool) : SpRing := { base := 512, size := 1024, count := 2, sub := some (ssub store) }
def units (n : List Nat) (k : Core) : State := { ev n (cw .A k) with fps := [] }
def ccard : XCard := { ticket := 6, st := .running, moved := true, chained := false, card := { (default : Card) with chen := true, chain := 77 } }
/-- The state after an instruction that answers a next state. -/
def after (o : Host.Outcome State Fault Refusal) : State :=
  match o with
  | .next t => t
  | _ => State.reset
def answers (o : Host.Outcome State Fault Refusal) : Bool :=
  match o with
  | .next _ => true
  | _ => false
theorem answers_next {o : Host.Outcome State Fault Refusal} (h : answers o = true) : o = .next (after o) := by
  cases o with
  | next t => rfl
  | fault f => exact (Bool.false_ne_true h).elim
  | refused r => exact (Bool.false_ne_true h).elim
theorem fine_is {α : Type} [DecidableEq α] {x : α} {r : EStateM.Result Stop State α} (h : (fine r && decide (val x r = x)) = true) : r = .ok x (left_ r) := by
  have h' := Bool.and_eq_true _ _ ▸ h
  rw [← of_decide_eq_true h'.2]
  exact fine_val x h'.1
/-- Whether an operation that may wait or fail succeeded, and the value it gave. -/
def read {α : Type} (d : α) (r : EStateM.Result Stop State (Option (Except Bad α))) : Bool × α :=
  match r with
  | .ok (some (.ok x)) _ => (true, x)
  | _ => (false, d)
theorem read_is {α : Type} [DecidableEq α] {x : α} {r : EStateM.Result Stop State (Option (Except Bad α))} (h : (read x r).1 = true ∧ (read x r).2 = x) :
    r = .ok (some (.ok x)) (left_ r) := by
  obtain ⟨h1, h2⟩ := h
  match r, h1, h2 with
  | .ok (some (.ok y)) s, _, h2 => exact h2 ▸ rfl
  | .ok (some (.error e)) s, h1, _ => exact (Bool.false_ne_true h1).elim
  | .ok none s, h1, _ => exact (Bool.false_ne_true h1).elim
  | .error e s, h1, _ => exact (Bool.false_ne_true h1).elim
theorem pick_clean {l : List Reg} {d : Reg} (n : Nat) (h : l.all (fun r => !r.p) = true) (hd : d.p = false) : (l.getD n d).p = false := by
  rw [List.getD_eq_getElem?_getD]
  cases e : l[n]? with
  | none => simpa using hd
  | some r => simpa using List.all_eq_true.mp h r (List.mem_of_getElem? e)
/-- The 256 bytes of a flit in its turn (LSEQ 9) to package `dst`. -/
def flit (type : BitVec 4) (vc : BitVec 2) (rgen : BitVec 8) (dst : BitVec 15) (xid : Nat) (body : List Nat) (data : List Byte := []) : List Byte :=
  (Flit.seal { type := type, vc := vc, rgen := rgen, dst := dst, src := 30, lseq := 9, id := BitVec.ofNat 64 xid, body := body, data := data,
               scrc := if data = [] then [] else [crc32c data], nsec := if data = [] then 0 else 1 }).wire
/-- The state once the flit of a type is taken. -/
def came_ (s : State) (t : BitVec 4) : State :=
  match s.arrives t with
  | some p => p.2
  | none => s
theorem came {s : State} {t : BitVec 4} {f : Flit} (h : decide ((s.arrives t).map (·.1) = some f) = true) : s.arrives t = some (f, came_ s t) := by
  have h' := of_decide_eq_true h
  unfold came_
  cases e : s.arrives t with
  | none => simp [e] at h'
  | some p => rw [e] at h'; simp only [Option.map_some, Option.some.injEq] at h'; rw [← h']

/-! ## Well-formed instructions (R59, R78, R145): each check refuses an ill-formed term and lets its neighbour pass -/

theorem test_wf_format_selector :
    ([20, 31].all fun ft => [Instr.mldn 0 0 ft, .mldw 0 0 ft, .mstep 0 0 ft, .mstepz 0 0 ft, .mwb 0 0 ft, .mftab ft 0, .mftabR ft 0].all (fun i => !i.wf)) = true ∧
    ([Instr.mldn 1 7 19, .mldw 1 7 19, .mstep 15 63 19, .mstepz 15 63 19, .mwb 3 15 19, .mftab 19 7, .mftabR 19 7].all Instr.wf) = true := by decide +kernel
theorem test_wf_loop_body : (Instr.loopi 0 0 5).wf = false ∧ (Instr.loopi 0 1 0).wf = true := by decide +kernel
theorem test_wf_mod_bits :
    (Instr.ceWord { ceW true with aop := .esrb, md := 2 }).wf = false ∧ (Instr.ceWord { ceW true with aop := .enop, md := 1 }).wf = false ∧
    (Instr.ceWord { ceW true with aop := .econst, md := 63 }).wf = true := by decide +kernel

/-! ## Words written out from the spec's encodings (Figures and Tables of 03_words.md; fields TAG, ring bits, OP, d, a, b) -/

theorem test_decode_S_integer : decodeWord (0#3 ++ 0b1010#4 ++ 0x01#7 ++ 3#6 ++ 1#6 ++ 2#6) = .add 3 1 2 := by decide +kernel
theorem test_decode_S_immediate : decodeWord (0#3 ++ 0#4 ++ 0x18#7 ++ 63#6 ++ 1#6 ++ 32#6) = .addi 63 1 32 := by decide +kernel
theorem test_decode_S_flags : decodeWord (0#3 ++ 0#4 ++ 0x20#7 ++ 7#6 ++ 1#6 ++ 2#6) = .ceq 7 1 2 ∧
    decodeWord (0#3 ++ 0#4 ++ 0x20#7 ++ 8#6 ++ 1#6 ++ 2#6) = .illegalWord := by decide +kernel
theorem test_decode_S_float : decodeWord (0#3 ++ 0#4 ++ 0x30#7 ++ 3#6 ++ 1#6 ++ 2#6) = .fadd32 3 1 2 := by decide +kernel
/-- The examples under R173, R180 and R310. -/
theorem test_decode_S_memory : decodeWord 0x01004090 = .gld 4 2 16 ∧ decodeWord 0x01145187 = .gatom 5 6 7 ∧ decodeWord 0x01B84080 = .pgqry 4 2 := by decide +kernel
theorem test_decode_S_semaphores : decodeWord (0#3 ++ 0#4 ++ 0x50#7 ++ 15#4 ++ 0x3FFF#14) = .sig 15 0x3FFF ∧
    decodeWord (0#3 ++ 0#4 ++ 0x51#7 ++ 4#4 ++ 1#14) = .wait 4 1 := by decide +kernel
theorem test_decode_S_ordering : decodeWord (0#3 ++ 0#4 ++ 0x54#7 ++ 0#14 ++ 2#2 ++ 3#2) = .fence 2 3 ∧
    decodeWord (0#3 ++ 0#4 ++ 0x56#7 ++ 3#6 ++ 1#6 ++ 2#6) = .fpclm 3 1 2 := by decide +kernel
theorem test_decode_S_system : decodeWord (0#3 ++ 0#4 ++ 0x58#7 ++ 3#6 ++ 3#12) = .csrr 3 3 ∧ decodeWord (0#3 ++ 0#4 ++ 0x5A#7 ++ 0x3FFFF#18) = .trap 0x3FFFF := by
  decide +kernel
/-- The examples of 12_bucket.md, 14_barrier.md, 16_walk.md and 17_group.md. -/
theorem test_decode_S_objects : decodeWord 0x01A45083 = .bkarmArm ∧ decodeWord 0x01A86080 = .bkqry 6 2 ∧ decodeWord 0x01A00040 = .vunpin 1 ∧
    decodeWord 0x01943102 = .barvArrive ∧ decodeWord 0x01AC2040 = .walk 2 1 ∧ decodeWord 0x01B40042 = .rsig 1 2 := by decide +kernel
theorem test_decode_S_queue : decodeWord (0#3 ++ 0#4 ++ 0x60#7 ++ 3#6 ++ 1#6 ++ 0#6) = .qpush 3 1 ∧
    decodeWord (0#3 ++ 0#4 ++ 0x60#7 ++ 3#6 ++ 1#6 ++ 1#6) = .illegalWord ∧ decodeWord (0#3 ++ 0#4 ++ 0x63#7 ++ 3#6 ++ 1#6 ++ 2#6) = .gstat 3 1 2 := by decide +kernel
/-- R182's example among them. -/
theorem test_decode_A : decodeWord (1#3 ++ 0#4 ++ 0x01#7 ++ 31#6 ++ 1#6 ++ 2#6) = .aadd 31 1 2 ∧ decodeWord (1#3 ++ 0#4 ++ 0x01#7 ++ 32#6 ++ 1#6 ++ 2#6) = .illegalWord ∧
    decodeWord 0x20403078 = .ald 3 1 56 ∧ decodeWord (1#3 ++ 0#4 ++ 0x18#7 ++ 15#6 ++ 1#6 ++ 0#6) = .bind 15 1 ∧
    decodeWord (1#3 ++ 0#4 ++ 0x23#7 ++ 7#6 ++ 1#6 ++ 2#6) = .ringcfg 7 1 2 := by decide +kernel
/-- The example under Table 3.4: iq1 is code 33, k3 is code 47. -/
theorem test_decode_V : decodeWord (2#3 ++ 0#4 ++ 0x04#7 ++ 4#6 ++ 33#6 ++ 47#6) = .vadd (.v 4) (.iq 1) (.k 3) ∧
    decodeWord (2#3 ++ 0#4 ++ 0x04#7 ++ 4#6 ++ 40#6 ++ 47#6) = .illegalWord ∧ decodeWord (2#3 ++ 0#4 ++ 0x28#7 ++ 43#6 ++ 1#6 ++ 13#6) = .vcvt (.oq 3) (.v 1) 13 ∧
    decodeWord (2#3 ++ 0#4 ++ 0x3C#7 ++ 3#6 ++ 1#6 ++ 0#6) = .vrsum (.v 3) (.v 1) ∧ decodeWord (2#3 ++ 0#4 ++ 0x40#7 ++ 1#6 ++ 2#6 ++ 3#6) = .mand 1 2 3 ∧
    decodeWord (2#3 ++ 0#4 ++ 0x4A#7 ++ 1#6 ++ 2#6 ++ 15#6) = .kadd 1 2 15 := by decide +kernel
/-- The examples under R253 among them. -/
theorem test_decode_M : decodeWord (3#3 ++ 0#4 ++ 0x01#7 ++ 1#6 ++ 39#6 ++ 19#6) = .mldn 1 7 19 ∧ decodeWord (3#3 ++ 0#4 ++ 0x01#7 ++ 1#6 ++ 39#6 ++ 20#6) = .illegalWord ∧
    decodeWord (3#3 ++ 0#4 ++ 0x04#7 ++ 3#6 ++ 63#6 ++ 2#6) = .mstep 3 63 2 ∧ decodeWord 0x60320008 = .mstageCfg 2 0 ∧ decodeWord 0x60300002 = .mstage 2 := by decide +kernel
theorem test_decode_X : decodeWord (4#3 ++ 0#4 ++ 0x01#7 ++ 3#6 ++ 2#6 ++ 0#6) = .xjob 3 2 ∧ decodeWord (4#3 ++ 0#4 ++ 0x05#7 ++ 3#6 ++ 2#6 ++ 15#6) = .xadd 3 2 15 := by decide +kernel
/-- The examples under R75 and R106 among them. -/
theorem test_decode_B : decodeWord (7#3 ++ 0#4 ++ 0x02#7 ++ 3#6 ++ 7#6 ++ 0#6) = .br 3 7 ∧ decodeWord (7#3 ++ 1#4 ++ 0x02#7 ++ 3#6 ++ 7#6 ++ 0#6) = .illegalWord ∧
    decodeWord (7#3 ++ 0#4 ++ 0x06#7 ++ 3#6 ++ 9#6 ++ 4#6) = .loop 3 9 4 ∧ decodeWord 0xE1FC0001 = .extB 1 ∧ decodeWord 0xE01C11A4 = .loopi 1 6 0x24 ∧
    decodeWord 0xE0280000 = .phint := by decide +kernel
/-- The example under R70. -/
theorem test_decode_EXT : decodeWord 0x01FC0012 = .extS 0x12 ∧ decodeWord 0x007C5345 = .ldi 5 0x345 := by decide +kernel
/-- Tags 5 and 6 are reserved (R62). -/
theorem test_decode_reserved : decodeWord (5#3 ++ 0#29) = .illegalWord ∧ decodeWord (6#3 ++ 0#29) = .illegalWord ∧ decodeWord (0#3 ++ 0#4 ++ 0x7E#7 ++ 0#18) = .illegalWord := by decide +kernel
/-- The examples under Table 16.5 among them; fields as in the table. -/
theorem test_decode_rules : decodeRule 0x0C000000 = some (.cmpg 0 0) ∧ decodeRule 0x28000009 = some (.jeq 9) ∧
    decodeRule (1#6 ++ 0#4 ++ 0x1FFF8#17 ++ 31#5) = some (.rd 0x1FFF8 31) ∧ decodeRule (4#6 ++ 0#1 ++ 5#3 ++ 1#5 ++ 63#6 ++ 0#6 ++ 31#5) = none := by decide +kernel
/-- The example under R90; bit 60 is reserved: `fnop | enop | wnop !stop`. -/
theorem test_decode_CE : decodeCe (1#1 ++ 0#63) = some { ceW true with lend := false } ∧ decodeCe (1#1 ++ 0#2 ++ 1#1 ++ 0#60) = none := by decide +kernel
theorem test_encode_events : encode Ring.zero .powerGood = none ∧ encode Ring.zero .thermalTrip = none := by decide +kernel
/-- The table numbers an instruction's bits from its first byte. -/
theorem test_table_words : decodeTableWord 32 0x00043042 = some (.add 3 1 2) := by decide +kernel

/-! ## One step of some instructions; what is expected stands in the spec's tables and worked examples -/

/-- A core word of S with S1 = `x` and S2 = `y`. -/
def sregs (x y : BitVec 64) : State := (base .S).onMe (fun k => { k with s := (k.s.set 1 { v := x }).set 2 { v := y } })
/-- Table 6.1. -/
theorem test_add_wraps : (after (exec (.add 3 1 2) (sregs 0xFFFFFFFFFFFFFFFF 2))).rS 3 = { v := 1 } := by decide +kernel
theorem test_sub_wraps : (after (exec (.sub 1 1 2) (sregs 0 1))).rS 1 = { v := 0xFFFFFFFFFFFFFFFF } := by decide +kernel
theorem test_shl_takes_six_bits : (after (exec (.shl 3 1 2) (sregs 1 127))).rS 3 = { v := 0x8000000000000000 } := by decide +kernel
theorem test_sra_keeps_sign : (after (exec (.sra 3 1 2) (sregs 0x8000000000000000 63))).rS 3 = { v := 0xFFFFFFFFFFFFFFFF } := by decide +kernel
theorem test_clz_of_zero : (after (exec (.clz 3 1) (sregs 0 0))).rS 3 = { v := 64 } := by decide +kernel
theorem test_s0_stays_zero : (after (exec (.add 0 1 2) (sregs 1 2))).rS 0 = {} := by decide +kernel
/-- The example under R167. -/
theorem test_div_truncates : (after (exec (.div 3 1 2) (sregs (-7) 2))).rS 3 = { v := -3 } ∧ (after (exec (.rem 3 1 2) (sregs (-7) 2))).rS 3 = { v := -1 } := by decide +kernel
theorem test_divn_by_zero : (after (exec (.divn 3 1 2) (sregs 5 0))).rS 3 = { v := 0xFFFFFFFFFFFFFFFF } ∧ (after (exec (.remn 3 1 2) (sregs 5 0))).rS 3 = { v := 5 } := by
  decide +kernel
theorem test_div_overflow : (after (exec (.div 3 1 2) (sregs (2 ^ 63) (-1)))).rS 3 = { v := 2 ^ 63 } ∧ (after (exec (.rem 3 1 2) (sregs (2 ^ 63) (-1)))).rS 3 = { v := 0 } := by
  decide +kernel
/-- Table 6.2. -/
theorem test_clt_signed : (after (exec (.clt 1 1 2) (sregs (-1) 0))).rF 1 = { v := true } ∧ (after (exec (.cltn 1 1 2) (sregs (-1) 0))).rF 1 = { v := false } := by decide +kernel
/-- R170: 1.5 + 2.25 = 3.75; the upper half of a source is ignored. -/
theorem test_fadd32 : (after (exec (.fadd32 3 1 2) (sregs 0x123456783FC00000 0x40100000))).rS 3 = { v := 0x40700000 } := by decide +kernel
/-- Table 6.3: √−0 is −0. -/
theorem test_fsqrt32_of_minus_zero : (after (exec (.fsqrt32 3 1) (sregs 0x80000000 0))).rS 3 = { v := 0x80000000 } := by decide +kernel
/-- The example under R70: the prefix holds 0x12, the word 0x345. -/
theorem test_ldi_prefixed : (after (exec (.ldi 5 0x345) ((base .S).onUnit (fun t => { t with ext := [0x12] })))).rS 5 = { v := 0x12345 } := by decide +kernel
/-- The example under R75: 1 × 64 + 36 passes. -/
theorem test_loopi_prefixed : ((base .S).onUnit (fun t => { t with ext := [1], extB := true })).immU (0x24 : BitVec 6) = 100 := by decide +kernel
/-- The example under R221: 37 elements from element 0. -/
theorem test_mset_tail : (after (exec (.mset 1 0 2) ((base .V).onMe (fun k => { k with k := k.k.set 2 { v := 37 } })))).rM 1 = { v := BitVec.ofNat 1024 (2 ^ 37 - 1) } := by decide +kernel
/-- Table 7.3: 1.5 + 2.25 in element 0; the others hold zero. -/
theorem test_vadd_fp32 : (after (exec (.vadd (.v 3) (.v 1) (.v 2)) ((base .V).onMe (fun k => { k with v := (k.v.set 1 { v := 0x3FC00000 }).set 2 { v := 0x40100000 } })))).rV 3 = { v := 0x40700000 } := by
  decide +kernel
/-- The example under R296: where the byte lies. -/
theorem test_walk_of_R296 :
    (match walkVa 1 0x4000001000 { State.reset with
        ctxs := [(1, { ptroot := 0x400000 })]
        mem := Bytes.splice (Bytes.splice (Bytes.splice [] 0x400000 (leBytes 8 0x0000001400000001)) 0x500800 (leBytes 8 0x0000001404000001)) 0x501000 (leBytes 8 0x001C080000000307) } with
      | .ok (.ok l) _ => l.pa 0x4000001000
      | _ => 0) = 0x07020001000 := by decide +kernel
/-- The example under R310. -/
theorem test_pgqry_of_R310 : (after (exec (.pgqry 4 2) { (sregs 0 0x4000001000).onMe (fun k => { k with lastCtx := 1 }) with
      tlb := [{ cache := .eng 3 .S, ctx := 1, vbase := 0x4000000000, size := 0x200000, pte := 0x001C080000000307 }]
      keys := [(3, { grants := [1], loaded := true, load := 1 })] })).rS 4 = { v := 0x00000000009C0351 } := by decide +kernel
/-- The example of 12_bucket.md: chunks 0 and 30 of a bucket there. -/
theorem test_chunk_engines : ceAt (0x07020001000 + 2048 * 0) = 226 ∧ ceAt (0x07020001000 + 2048 * 30) = 224 := by decide +kernel
/-- The example under R95: child 9 of child 3 has 32 cores, as its parent does. -/
theorem test_region_inherits : ({ regions := [{ parent := 0xFFFF, ovr := 0xFFF, cores := 96 }, {}, {}, { parent := 0, ovr := 1, cores := 32 }, {}, {}, {}, {}, {}, { parent := 3, cores := 96 }] } : Ctx).coresEff 9 = 32 := by
  decide +kernel
/-- The example under R255: amax 3.0 in mx8 gives scale code 0x78, and pads are +0. -/
theorem test_mx8_scale : (quantBlock 5 .rne ((List.replicate 20 { inb := true, v := f32 0x40400000 }) ++ List.replicate 12 { inb := false, v := f32 0 })).scale = 0x78 := by decide +kernel
/-- The example under R45: with seed, step and index zero, u is zero and SR truncates. -/
theorem test_sr_truncates : srWord {} = 0 ∧ (cvtElem 0 1 false .sr {} 0x3F806000).1 = 0x3F80 := by decide +kernel
/-- S's TRAP ends the attempt with its own cause. -/
theorem test_trap_ends : (after (exec (.trap 5) (base .S))).me.causes.map (fun r => r.cause) = [cTRAPI] := by decide +kernel
/-- R473: power good takes the package from OFF to VERIFY. -/
theorem test_power_good : (after (exec .powerGood (dev .off))).dstate = .verify := by decide +kernel
/-- The example of 19_bringup.md: MARK writes a record of kind 6. -/
theorem test_mark : (after (exec .mark { mb 0x51 0 (dev .ready) with scoreSeq := 4100 })).score.map (fun r => (r.seq, r.kind, r.ctx, r.data)) = [(0x1004, 6, 0, 0x51)] := by decide +kernel

/-! ## What meets the hypotheses of the statements -/

theorem witness_ScalarIntegerResults :
  ∃ (s : State),
    s.issues = true ∧ s.bare = true :=
  ⟨base .S, by decide +kernel⟩

theorem witness_ScalarImmediateResults :
  (∃ (s : State) (imm : BitVec 6),
    s.issues = true ∧ s.extends = true ∧ s.immU imm ≤ 63) ∧
  (∃ (s : State) (d : BitVec 6) (a : BitVec 6) (imm : BitVec 6) (i : _),
    s.issues = true ∧ s.extends = true ∧ 63 < s.immU imm ∧ i ∈ [Instr.shli d a imm, .shri d a imm, .srai d a imm]) :=
  ⟨⟨base .S, 63, by decide +kernel⟩,
   ⟨(base .S).onUnit (fun t => { t with ext := [1] }), 0, 0, 0, .srai 0 0 0, by decide +kernel⟩⟩

theorem witness_ScalarFlagResults :
  ∃ (s : State),
    s.issues = true ∧ s.bare = true :=
  ⟨base .S, by decide +kernel⟩

theorem witness_AddressIntegerResults :
  (∃ (s : State),
    s.issues = true ∧ s.bare = true) ∧
  (∃ (s : State),
    s.issues = true ∧ s.extends = true) :=
  ⟨⟨base .A, by decide +kernel⟩,
   ⟨base .A, by decide +kernel⟩⟩

theorem witness_ScalarFloatResults :
  (∃ (s : State),
    s.issues = true ∧ s.bare = true) ∧
  (∃ (s : State) (a : BitVec 6) (imm : BitVec 6) (v : _) (f : _),
    s.issues = true ∧ s.extends = true ∧ s.immU imm ≤ 63 ∧ s.immU imm % 4 ≠ 2 ∧ (s.immU imm % 4 = 0 ∨ (s.immU imm / 4 ≠ 5 ∧ s.immU imm / 4 ≠ 7)) ∧
    fcvt (s.immU imm / 4) (Mode.ofCode (BitVec.ofNat 2 (s.immU imm))) (s.rS a).v = some (v, f)) :=
  ⟨⟨base .S, by decide +kernel⟩,
   ⟨base .S, 0, 0, _, _, (by and_intros <;> first | decide +kernel | rfl)⟩⟩

theorem witness_BranchWords :
  (∃ (s : State) (imm : BitVec 12),
    let a : Int := s.unit.pc.toNat + (s.immS imm).toInt
    s.issues = true ∧ s.extends = true ∧ 0 ≤ a ∧ a ≤ 65535) ∧
  (∃ (s : State) (n : BitVec 2) (f : BitVec 3) (want : Bool),
    let target := s.unit.b[n.toFin]
    s.issues = true ∧ s.bare = true ∧ s.cur.eng = .S ∧ (s.rF f).p = false ∧ s.room = true ∧ ((s.rF f).v = want → isBitmap s.me target.toNat = false)) ∧
  (∃ (s : State) (v : _) (r : _),
    s.issues = true ∧ s.bare = true ∧ s.cur.eng ≠ .S ∧ s.unit.decs = .branch v :: r) ∧
  (∃ (s : State) (n : BitVec 2),
    let target := s.unit.b[n.toFin]
    s.issues = true ∧ s.bare = true ∧ s.unit.rets.length < 16 ∧ isBitmap s.me target.toNat = false) ∧
  (∃ (s : State) (a : _) (r : _),
    s.issues = true ∧ s.bare = true ∧ s.unit.rets = a :: r) ∧
  (∃ (s : State),
    s.issues = true ∧ s.bare = true ∧ s.cur.eng = .S ∧ 16 ≤ s.unit.rets.length) ∧
  (∃ (s : State),
    s.issues = true ∧ s.bare = true ∧ s.cur.eng = .S ∧ s.unit.rets = []) ∧
  (∃ (s : State),
    s.issues = true ∧ s.bare = true ∧ s.me.mon = false ∧ s.cur.eng ≠ .S ∧ s.cur.eng ≠ .A) ∧
  (∃ (s : State) (f : BitVec 3),
    let c := s.cur.core
    s.issues = true ∧ s.bare = true ∧ s.me.mon = false ∧ s.cur.eng = .S ∧ s.flights.any (fun f => f.core == c && f.eng == .S && !f.rel) = false ∧
    s.flights.any (fun f => f.core == c && f.mode == .r && f.fp.isNone) = false) ∧
  (∃ (s : State),
    s.issues = true ∧ s.bare = true ∧ s.me.mon = false ∧ s.cur.eng = .A ∧ s.me.streams = Vector.replicate 16 none ∧
    s.me.rings = Vector.replicate 8 none) ∧
  (∃ (s : State) (u : _),
    s.issues = true ∧ s.bare = true ∧ s.me.mon = false ∧ s.cur.eng = .A ∧ endA s.rung = .ok () u) :=
  ⟨⟨(base .S).onUnit (fun t => { t with pc := 1 }), 4095, by decide +kernel⟩,
   ⟨base .S, 3, 7, true, by decide +kernel⟩,
   ⟨(base .V).onUnit (fun t => { t with decs := [.branch true] }), true, [], by decide +kernel⟩,
   ⟨(base .S).onUnit (fun t => { t with rets := List.replicate 15 0 }), 3, by decide +kernel⟩,
   ⟨(base .S).onUnit (fun t => { t with rets := [65535] }), 65535, [], by decide +kernel⟩,
   ⟨(base .S).onUnit (fun t => { t with rets := List.replicate 16 0 }), by decide +kernel⟩,
   ⟨base .S, by decide +kernel⟩,
   ⟨base .V, by decide +kernel⟩,
   ⟨(base .S).onMe (fun k => { k with claims := [(2, 9)] }), 7, by decide +kernel⟩,
   ⟨(base .A).onMe (fun k => { k with unfold := some {} }), by decide +kernel⟩,
   ⟨base .A, left_ (endA (base .A).rung),
    (by (try dsimp only); and_intros; all_goals (try first | exact fine_val () (by decide +kernel)); all_goals first | decide +kernel | rfl | (intro q h; first | (cases h; rfl) | cases h))⟩⟩

theorem witness_LoopWords :
  (∃ (s : State) (n : BitVec 2) (m : BitVec 6) (imm : BitVec 6),
    s.issues = true ∧ s.me.mon = false ∧ s.extends = true ∧ s.loopOk n (s.immU imm) = true ∧ s.cur.eng = .S ∧ (s.rS m).p = false ∧
    (s.rS m).v.toNat < 2 ^ 32 ∧ s.room = true) ∧
  (∃ (s : State) (n : BitVec 2) (imm : BitVec 6) (c : _) (r : _),
    s.issues = true ∧ s.me.mon = false ∧ s.extends = true ∧ s.loopOk n (s.immU imm) = true ∧ s.cur.eng ≠ .S ∧ s.unit.decs = .count c :: r) ∧
  (∃ (s : State) (n : BitVec 2) (len : BitVec 6),
    s.issues = true ∧ s.me.mon = false ∧ s.extends = true ∧ s.loopOk n len.toNat = true) ∧
  (∃ (s : State) (n : BitVec 2) (f : BitVec 3),
    let l := s.unit.loops[n.toFin]
    s.issues = true ∧ s.me.mon = false ∧ s.bare = true ∧ s.unit.inFrame n.toFin = true ∧ s.cur.eng = .S ∧ (s.rF f).p = false ∧ s.room = true ∧
    ((s.rF f).v = true → isBitmap s.me (l.stop.toNat + 1) = false)) ∧
  (∃ (s : State) (n : BitVec 2) (v : _) (r : _),
    s.issues = true ∧ s.me.mon = false ∧ s.bare = true ∧ s.unit.inFrame n.toFin = true ∧ s.cur.eng ≠ .S ∧ s.unit.decs = .branch v :: r) :=
  ⟨⟨(base .S).onMe (fun k => { k with s := k.s.set 1 { v := 0xFFFFFFFF } }), 3, 1, 63, by decide +kernel⟩,
   ⟨(base .X).onUnit (fun t => { t with decs := [.count 0] }), 3, 63, 0, [], by decide +kernel⟩,
   ⟨base .S, 3, 63, by decide +kernel⟩,
   ⟨(base .S).onUnit (fun t => { t with pc := 9, loops := t.loops.set 3 { isOpen := true, start := 5, stop := 9, index := 1, remaining := 2, frame := 0 } }),
    3, 0, by decide +kernel⟩,
   ⟨(base .M).onUnit (fun t => { t with pc := 5, loops := t.loops.set 3 { isOpen := true, start := 5, stop := 9, index := 1, remaining := 2, frame := 0 }, decs := [.branch false] }),
    3, false, [], by decide +kernel⟩⟩

theorem witness_SlotsAndRendezvous :
  (∃ (s : State) (i : _),
    s.issues = true ∧ s.bare = true ∧ i ∈ [Instr.nop, .nopA, .nopV, .nopM, .nopX]) ∧
  (∃ (s : State),
    s.issues = true ∧ s.bare = true ∧ s.me.mon = false ∧ (∀ e ∈ engines, e ≠ s.cur.eng → (s.me.eng e).atSync = true) ∧ s.me.stopReq = false ∧
    s.me.preq = false ∧ s.cancelling s.cur.core = false) ∧
  (∃ (s : State) (p : BitVec 18) (i : _),
    s.cur.core < 96 ∧ s.me.mon = false ∧ s.unit.extEdge = false ∧ s.unit.ext.length < 2 ∧ i ∈ [Instr.extS p, .extA p, .extV p, .extM p, .extX p] ∧
    (s.unit.ext = [] ∨ s.unit.extB = false)) ∧
  (∃ (s : State),
    s.cur.core < 96 ∧ s.me.mon = false ∧ s.unit.extEdge = false ∧ s.unit.ext.length < 2 ∧ (s.unit.ext = [] ∨ s.unit.extB = true)) :=
  ⟨⟨base .S, Instr.nopX, by decide +kernel⟩,
   ⟨(base .S).onMe (fun k => [Engine.A, .M, .V, .X].foldl (fun k e => k.setEng e { (k.eng e) with atSync := true }) k), by decide +kernel⟩,
   ⟨(base .A).onUnit (fun t => { t with ext := [7] }), 0x3FFFF, .extX 0x3FFFF, by decide +kernel⟩,
   ⟨(base .M).onUnit (fun t => { t with ext := [7], extB := true }), by decide +kernel⟩⟩

theorem witness_FifoAndSemaphoreWords :
  (∃ (s : State) (n : BitVec 6),
    let room := fun (i : Fin 8) (r : Reg) => s.me.fifo[i].length < 16 ∧ r.p = false
    s.issues = true ∧ s.bare = true ∧ room 0 (s.rS n)) ∧
  (∃ (s : State) (n : BitVec 6),
    let room := fun (i : Fin 8) (r : Reg) => s.me.fifo[i].length < 16 ∧ r.p = false
    s.issues = true ∧ s.bare = true ∧ room 1 (s.rS n)) ∧
  (∃ (s : State) (n : BitVec 6),
    let room := fun (i : Fin 8) (r : Reg) => s.me.fifo[i].length < 16 ∧ r.p = false
    s.issues = true ∧ s.bare = true ∧ room 2 (s.rS n)) ∧
  (∃ (s : State) (n : BitVec 6),
    let room := fun (i : Fin 8) (r : Reg) => s.me.fifo[i].length < 16 ∧ r.p = false
    s.issues = true ∧ s.bare = true ∧ room 3 (s.rS n)) ∧
  (∃ (s : State) (a : BitVec 5),
    let room := fun (i : Fin 8) (r : Reg) => s.me.fifo[i].length < 16 ∧ r.p = false
    s.issues = true ∧ s.bare = true ∧ room 4 (s.rA a)) ∧
  (∃ (s : State) (k : BitVec 4),
    let room := fun (i : Fin 8) (r : Reg) => s.me.fifo[i].length < 16 ∧ r.p = false
    s.issues = true ∧ s.bare = true ∧ room 5 (s.rK k)) ∧
  (∃ (s : State) (h : BitVec 3),
    let room := fun (i : Fin 8) (r : Reg) => s.me.fifo[i].length < 16 ∧ r.p = false
    s.issues = true ∧ s.bare = true ∧ room 6 (s.rH h)) ∧
  (∃ (s : State) (k : BitVec 4),
    let room := fun (i : Fin 8) (r : Reg) => s.me.fifo[i].length < 16 ∧ r.p = false
    s.issues = true ∧ s.bare = true ∧ room 7 (s.rX k)) ∧
  (∃ (s : State),
    let held := fun (i : Fin 8) => s.me.fifo[i] ≠ []
    s.issues = true ∧ s.bare = true ∧ held 4) ∧
  (∃ (s : State),
    let held := fun (i : Fin 8) => s.me.fifo[i] ≠ []
    s.issues = true ∧ s.bare = true ∧ held 5) ∧
  (∃ (s : State),
    let held := fun (i : Fin 8) => s.me.fifo[i] ≠ []
    s.issues = true ∧ s.bare = true ∧ held 6) ∧
  (∃ (s : State),
    let held := fun (i : Fin 8) => s.me.fifo[i] ≠ []
    s.issues = true ∧ s.bare = true ∧ held 7) ∧
  (∃ (s : State),
    let held := fun (i : Fin 8) => s.me.fifo[i] ≠ []
    s.issues = true ∧ s.bare = true ∧ held 0) ∧
  (∃ (s : State),
    let held := fun (i : Fin 8) => s.me.fifo[i] ≠ []
    s.issues = true ∧ s.bare = true ∧ held 1) ∧
  (∃ (s : State),
    let held := fun (i : Fin 8) => s.me.fifo[i] ≠ []
    s.issues = true ∧ s.bare = true ∧ held 2) ∧
  (∃ (s : State),
    let held := fun (i : Fin 8) => s.me.fifo[i] ≠ []
    s.issues = true ∧ s.bare = true ∧ held 3) ∧
  (∃ (s : State) (m : BitVec 4) (c : BitVec 14) (i : _),
    s.issues = true ∧ s.bare = true ∧ i ∈ [Instr.sig m c, .sigA m c, .sigV m c, .sigM m c, .sigX m c]) ∧
  (∃ (s : State) (m : BitVec 4) (c : BitVec 14) (i : _),
    s.issues = true ∧ s.bare = true ∧ i ∈ [Instr.wait m c, .waitA m c, .waitV m c, .waitM m c, .waitX m c] ∧ s.unit.waitMet = true) ∧
  (∃ (s : State) (m : BitVec 4) (c : BitVec 14) (i : _),
    s.issues = true ∧ s.bare = true ∧ i ∈ [Instr.wait m c, .waitA m c, .waitV m c, .waitM m c, .waitX m c] ∧ s.unit.waitMet = false ∧
    s.me.semWaits.all (fun w => w.eng != s.cur.eng || w.mon != s.me.mon) = true ∧ c.toNat ≤ s.me.sem[m.toFin].toNat) ∧
  (∃ (s : State) (imm : BitVec 12) (j : Fin 16),
    s.issues = true ∧ s.extends = true ∧ s.immU imm = j.val) :=
  ⟨⟨(base .S).onMe (fun k => { k with fifo := Vector.replicate 8 (List.replicate 15 1) }), 63, by decide +kernel⟩,
   ⟨(base .S).onMe (fun k => { k with fifo := Vector.replicate 8 (List.replicate 15 1) }), 63, by decide +kernel⟩,
   ⟨(base .S).onMe (fun k => { k with fifo := Vector.replicate 8 (List.replicate 15 1) }), 63, by decide +kernel⟩,
   ⟨(base .S).onMe (fun k => { k with fifo := Vector.replicate 8 (List.replicate 15 1) }), 63, by decide +kernel⟩,
   ⟨(base .S).onMe (fun k => { k with fifo := Vector.replicate 8 (List.replicate 15 1) }), 31, by decide +kernel⟩,
   ⟨(base .S).onMe (fun k => { k with fifo := Vector.replicate 8 (List.replicate 15 1) }), 15, by decide +kernel⟩,
   ⟨(base .S).onMe (fun k => { k with fifo := Vector.replicate 8 (List.replicate 15 1) }), 7, by decide +kernel⟩,
   ⟨(base .S).onMe (fun k => { k with fifo := Vector.replicate 8 (List.replicate 15 1) }), 15, by decide +kernel⟩,
   ⟨(base .S).onMe (fun k => { k with fifo := Vector.replicate 8 (List.replicate 15 1) }), by decide +kernel⟩,
   ⟨(base .S).onMe (fun k => { k with fifo := Vector.replicate 8 (List.replicate 15 1) }), by decide +kernel⟩,
   ⟨(base .S).onMe (fun k => { k with fifo := Vector.replicate 8 (List.replicate 15 1) }), by decide +kernel⟩,
   ⟨(base .S).onMe (fun k => { k with fifo := Vector.replicate 8 (List.replicate 15 1) }), by decide +kernel⟩,
   ⟨(base .S).onMe (fun k => { k with fifo := Vector.replicate 8 (List.replicate 15 1) }), by decide +kernel⟩,
   ⟨(base .S).onMe (fun k => { k with fifo := Vector.replicate 8 (List.replicate 15 1) }), by decide +kernel⟩,
   ⟨(base .S).onMe (fun k => { k with fifo := Vector.replicate 8 (List.replicate 15 1) }), by decide +kernel⟩,
   ⟨(base .S).onMe (fun k => { k with fifo := Vector.replicate 8 (List.replicate 15 1) }), by decide +kernel⟩,
   ⟨(base .S).onMe (fun k => { k with fifo := Vector.replicate 8 (List.replicate 15 1) }), 15, 0x3FFF, .sigX 15 0x3FFF, by decide +kernel⟩,
   ⟨(base .S).onUnit (fun t => { t with waitMet := true }), 15, 0x3FFF, .waitX 15 0x3FFF, by decide +kernel⟩,
   ⟨(base .M).onMe (fun k => { k with sem := Vector.replicate 16 0x3FFF }), 15, 0x3FFF, .waitM 15 0x3FFF, by decide +kernel⟩,
   ⟨(base .S).onMe (fun k => { k with fifo := Vector.replicate 8 (List.replicate 15 1) }), 15, 15, by decide +kernel⟩⟩

theorem witness_CsrWords :
  (∃ (s : State) (n : BitVec 12) (v : _),
    s.issues = true ∧ s.bare = true ∧ s.fstatOwed n = false ∧ readCsr s.cur.core s.me.lastCtx s.me n.toNat = some v) ∧
  (∃ (s : State) (n : BitVec 12),
    s.issues = true ∧ s.bare = true ∧ s.fstatOwed n = false ∧ readCsr s.cur.core s.me.lastCtx s.me n.toNat = none) ∧
  (∃ (s : State) (n : BitVec 12),
    s.issues = true ∧ s.bare = true ∧ s.fstatOwed n = false ∧ (readCsr s.cur.core s.me.lastCtx s.me n.toNat).isSome = true ∧
    n.toNat ∉ [0x08, 0x10, 0x11, 0x12, 0x13, 0x14, 0x28, 0x29]) ∧
  (∃ (s : State) (n : BitVec 12) (e : _),
    s.issues = true ∧ s.bare = true ∧ s.fstatOwed n = false ∧ e ∈ engines ∧ n.toNat = 0x10 + e.code) ∧
  (∃ (s : State) (d : BitVec 6) (n : BitVec 12),
    s.issues = true ∧ s.bare = true ∧ s.fstatOwed n = false ∧ (s.rS d).p = false ∧ n.toNat ∈ [0x08, 0x10, 0x11, 0x12, 0x13, 0x14, 0x28, 0x29] ∧
    (n.toNat = 8 → 64 ≤ (s.rS d).v.toNat ∧ (s.rS d).v.toNat ≤ 4096)) :=
  ⟨⟨base .S, 8, 1024, by decide +kernel⟩,
   ⟨base .S, 0x30, by decide +kernel⟩,
   ⟨base .S, 0x01, by decide +kernel⟩,
   ⟨base .S, 0x14, .X, by decide +kernel⟩,
   ⟨(base .S).onMe (fun k => { k with s := k.s.set 1 { v := 4096 } }), 1, 8, by decide +kernel⟩⟩

theorem witness_VectorElementResults :
  (∃ (s : State),
    let g := s.me.cfg
    s.issues = true ∧ s.bare = true ∧ g.isFloat = true) ∧
  (∃ (s : State),
    let g := s.me.cfg
    s.issues = true ∧ s.bare = true ∧ g.isFloat = false) :=
  ⟨⟨(base .V).onMe (fun k => { k with vcfg := 0 }), by decide +kernel⟩,
   ⟨(base .V).onMe (fun k => { k with vcfg := 11 }), by decide +kernel⟩⟩

theorem witness_VectorMoveResults :
  (∃ (s : State) (k : BitVec 4) (q : _),
    let g := s.me.cfg
    s.issues = true ∧ s.bare = true ∧ (s.rK k).v.toNat = 2 ^ q ∧ 2 ^ q ≤ g.n) ∧
  (∃ (s : State),
    let g := s.me.cfg
    s.issues = true ∧ s.bare = true ∧ g.isFloat = false) :=
  ⟨⟨(base .V).onMe (fun k => { k with k := k.k.set 1 { v := 128 } }), 1, 7, by decide +kernel⟩,
   ⟨(base .V).onMe (fun k => { k with vcfg := 11 }), by decide +kernel⟩⟩

theorem witness_VectorMaskResults :
  ∃ (s : State) (c : VIn),
    s.issues = true ∧ s.bare = true ∧ s.srcsHeld [c.src] = true :=
  ⟨(base .V).onMe (fun k => { k with iq := k.iq.set 7 [{}] }), .iq 7, by decide +kernel⟩

theorem witness_VectorReductions :
  (∃ (s : State),
    s.issues = true ∧ s.bare = true ∧ s.me.cfg.mode = .sr) ∧
  (∃ (s : State) (d : VDst) (a : VSrc),
    s.issues = true ∧ s.bare = true ∧ s.me.cfg.mode ≠ .sr ∧ s.srcsHeld [a] = true ∧ s.takesOne d = true) :=
  ⟨⟨(base .V).onMe (fun k => { k with vcfg := 0x20 }), by decide +kernel⟩,
   ⟨(base .V).onMe (fun k => { k with iq := k.iq.set 7 [{}] }), .oq 3, .iq 7, by decide +kernel⟩⟩

theorem witness_VectorConfiguration :
  (∃ (s : State) (imm : BitVec 17),
    s.issues = true ∧ s.extends = true ∧ s.immU (imm.setWidth 18) < 2 ^ 18 ∧ imm.getLsbD 7 = false ∧ imm.extractLsb' 8 5 = 0 ∧
    isVecType (imm.extractLsb' 0 4).toNat = true) ∧
  (∃ (s : State) (imm : BitVec 17) (i : _),
    let e := s.rung.ftFound i
    s.issues = true ∧ s.extends = true ∧ s.immU (imm.setWidth 18) < 2 ^ 18 ∧ i ∈ s.ftSel (imm.extractLsb' 8 5) ∧ imm.getLsbD 7 = true ∧
    imm.extractLsb' 0 6 = 0 ∧ isVecType (e.extractLsb' 12 4).toNat = true) ∧
  (∃ (s : State) (d : BitVec 4) (a : BitVec 4) (b : BitVec 4),
    s.issues = true ∧ s.bare = true ∧ (s.rK d).p = false ∧ (s.rK a).p = false ∧ (s.rK b).p = false) :=
  ⟨⟨(base .V).onMe (fun k => { k with ft := k.ft.set 15 0xD000 }), 0x1E06D, by decide +kernel⟩,
   ⟨(base .V).onMe (fun k => { k with ft := k.ft.set 15 0xD000 }), 0x10FC0, 15, by decide +kernel⟩,
   ⟨(base .V).onMe (fun k => { k with ft := k.ft.set 15 0xD000 }), 15, 0, 1, by decide +kernel⟩⟩

theorem witness_VectorConversions :
  (∃ (s : State) (d : VDst) (x : VSrc) (sel : BitVec 4),
    let g := s.me.cfg
    s.issues = true ∧ s.extends = true ∧ s.immU (sel.setWidth 6) ≤ 63 ∧ cvtPair sel.toNat g.fmt = true ∧ s.srcsHeld [x] = true ∧ s.takesOne d = true) ∧
  (∃ (s : State) (n : BitVec 5) (a : VIn) (sel : BitVec 4) (r : _),
    let g := s.me.cfg
    s.issues = true ∧ s.extends = true ∧ s.immU (sel.setWidth 6) ≤ 63 ∧ r ∈ pairOf g.fmt sel.toNat ∧ r.2.1 = true ∧ s.srcsHeld [a.src] = true ∧
    n.toNat % r.1 = 0) ∧
  (∃ (s : State) (q : BitVec 2) (a : VIn) (sel : BitVec 4) (r : _),
    let g := s.me.cfg
    s.issues = true ∧ s.extends = true ∧ s.immU (sel.setWidth 6) ≤ 63 ∧ r ∈ pairOf g.fmt sel.toNat ∧ r.2.1 = true ∧ s.srcsHeld [a.src] = true ∧
    s.fits q r.1 = true) ∧
  (∃ (s : State) (sel5 : BitVec 5) (r : _),
    let g := s.me.cfg
    s.issues = true ∧ s.extends = true ∧ s.immU (sel5.setWidth 6) ≤ 63 ∧ r ∈ pairOf g.fmt (sel5.toNat % 16) ∧ r.2.1 = true) ∧
  (∃ (s : State) (sel6 : BitVec 6) (r : _),
    let g := s.me.cfg
    s.issues = true ∧ s.extends = true ∧ s.immU sel6 ≤ 63 ∧ r ∈ pairOf g.fmt (sel6.toNat % 16) ∧ r.2.2 = true) :=
  ⟨⟨(base .V).onMe (fun k => { k with iq := k.iq.set 7 [{}] }), .oq 3, .iq 7, 13, by decide +kernel⟩,
   ⟨(base .V).onMe (fun k => { k with iq := k.iq.set 7 [{}] }), 30, .iq 7, 2, (2, true, true), by decide +kernel⟩,
   ⟨(base .V).onMe (fun k => { k with iq := k.iq.set 7 [{}] }), 3, .iq 7, 2, (2, true, true), by decide +kernel⟩,
   ⟨(base .V).onMe (fun k => { k with iq := k.iq.set 7 [{}] }), 0x12, (2, true, true), by decide +kernel⟩,
   ⟨(base .V).onMe (fun k => { k with iq := k.iq.set 7 [{}] }), 0x32, (2, true, true), by decide +kernel⟩⟩

theorem witness_CheckAndArgument :
  (∃ (s : State) (a : BitVec 6) (d : BitVec 6) (i : _),
    let words := [Instr.chk a, .clz d a, .popc d a, .puta a, .putv a, .putm a, .putx a]
    s.begins = true ∧ a ≠ 0 ∧ s.bare = true ∧ s.unit.pend.any (fun p => p.reg == .s a && p.lock.isSome) = true ∧ i ∈ words) ∧
  (∃ (s : State) (a : BitVec 6) (d : BitVec 6) (p : _) (i : _),
    let olds := s.unit.pend.filter (fun p => p.reg == .s a && decide (s.unit.slot < p.bound))
    let words := [Instr.chk a, .clz d a, .popc d a, .puta a, .putv a, .putm a, .putx a]
    s.begins = true ∧ a ≠ 0 ∧ s.unit.pend.any (fun p => p.reg == .s a && p.lock.isSome) = false ∧ s.me.dbgLat = true ∧ s.unit.latOnce = false ∧
    olds.getLast? = some p ∧ s.bare = true ∧ i ∈ words) ∧
  (∃ (s : State) (a : BitVec 6) (d : BitVec 6) (imm6 : BitVec 6) (p : _) (i : _),
    let olds := s.unit.pend.filter (fun p => p.reg == .s a && decide (s.unit.slot < p.bound))
    s.begins = true ∧ a ≠ 0 ∧ s.unit.pend.any (fun p => p.reg == .s a && p.lock.isSome) = false ∧ s.me.dbgLat = true ∧ s.unit.latOnce = false ∧
    olds.getLast? = some p ∧ s.extends = true ∧ i ∈ [Instr.addi d a imm6, .andi d a imm6, .ori d a imm6, .xori d a imm6]) ∧
  (∃ (s : State) (a : BitVec 6),
    let olds := s.unit.pend.filter (fun p => p.reg == .s a && decide (s.unit.slot < p.bound))
    let r := (olds.map (·.old.asWord) ++ [s.rS a]).getD (Config.freeNat s.freeCtr % (olds.length + 1)) (s.rS a)
    s.begins = true ∧ a ≠ 0 ∧ s.unit.pend.any (fun p => p.reg == .s a && p.lock.isSome) = false ∧ (s.me.dbgLat = false ∨ s.unit.latOnce = true) ∧
    s.bare = true ∧ olds ≠ [] ∧ r.p = false) ∧
  (∃ (s : State) (c : Nat),
    c < 96 ∧ (s.core c).dbgEn = true ∧ (s.core c).mon = false ∧ (s.core c).stopReq = false) ∧
  (∃ (s : State) (a : BitVec 6),
    s.issues = true ∧ s.bare = true ∧ (s.rS a).p = false) ∧
  (∃ (s : State) (a : BitVec 6),
    s.issues = true ∧ s.bare = true ∧ (s.rS a).p = true) ∧
  (∃ (s : State) (imm : BitVec 12),
    s.issues = true ∧ s.extends = true ∧ s.immU imm ≤ 4095 ∧ s.immU imm % 8 = 0 ∧ s.immU imm + 8 ≤ s.me.winLen) ∧
  (∃ (s : State) (imm : BitVec 12),
    s.issues = true ∧ s.extends = true ∧ s.immU imm ≤ 4095 ∧ s.immU imm % 8 ≠ 0) ∧
  (∃ (s : State) (imm : BitVec 12),
    s.issues = true ∧ s.extends = true ∧ s.immU imm ≤ 4095 ∧ s.immU imm % 8 = 0 ∧ s.me.winLen < s.immU imm + 8) :=
  ⟨⟨(base .S).onUnit (fun t => { t with slot := 4, pend := [{ reg := .s 63, old := .word { v := 9 }, bound := 6, pc := 2, lock := (some 3) }] }), 63,
    63, .putx 63, by decide +kernel⟩,
   ⟨((base .S).onMe (fun k => { k with dbgLat := true })).onUnit (fun t => { t with slot := 4, pend := [{ reg := .s 63, old := .word { v := 9 }, bound := 6, pc := 2, lock := none }] }),
    63, 63, { reg := .s 63, old := .word { v := 9 }, bound := 6, pc := 2 }, .putx 63, by decide +kernel⟩,
   ⟨((base .S).onMe (fun k => { k with dbgLat := true })).onUnit (fun t => { t with slot := 4, pend := [{ reg := .s 63, old := .word { v := 9 }, bound := 6, pc := 2, lock := none }] }),
    63, 63, 63, { reg := .s 63, old := .word { v := 9 }, bound := 6, pc := 2 }, .xori 63 63 63, by decide +kernel⟩,
   ⟨(base .S).onUnit (fun t => { t with slot := 4, pend := [{ reg := .s 63, old := .word { v := 9 }, bound := 6, pc := 2, lock := none }] }), 63,
    (by (try dsimp only); exact ⟨by decide +kernel, by decide +kernel, by decide +kernel, Or.inl (by decide +kernel), by decide +kernel, by decide +kernel, pick_clean _ (by decide +kernel) (by decide +kernel)⟩)⟩,
   ⟨(base .S).onCore 95 (fun k => { k with dbgEn := true }), 95, by decide +kernel⟩,
   ⟨(base .S).onMe (fun k => { k with s := k.s.set 63 { v := 1, p := true }, winLen := 4096 }), 0, by decide +kernel⟩,
   ⟨(base .S).onMe (fun k => { k with s := k.s.set 63 { v := 1, p := true }, winLen := 4096 }), 63, by decide +kernel⟩,
   ⟨(base .S).onMe (fun k => { k with s := k.s.set 63 { v := 1, p := true }, winLen := 4096 }), 4088, by decide +kernel⟩,
   ⟨(base .S).onMe (fun k => { k with s := k.s.set 63 { v := 1, p := true }, winLen := 4096 }), 4095, by decide +kernel⟩,
   ⟨(base .S).onMe (fun k => { k with winLen := 4095 }), 4088, by decide +kernel⟩⟩

theorem witness_TrapAndMonitorWords :
  (∃ (s : State) (imm : BitVec 18) (n : BitVec 2) (m : BitVec 6) (len : BitVec 6) (f : BitVec 3) (i : _),
    s.cur.core < 96 ∧ s.me.mon = true ∧ ringOf s.cur.word ≠ Ring.zero ∧
    i ∈ [Instr.nop, .chk m, .add m len m, .pb n 0, .br n f, .brn n f, .call n, .ret, .dbg imm, .eret]) ∧
  (∃ (s : State) (n : BitVec 2) (f : BitVec 3) (i : _),
    s.cur.core < 96 ∧ s.me.mon = true ∧ s.issues = true ∧ s.bare = true ∧ i ∈ [Instr.nopB, .sync, .phint, .endW, .breakl n f]) ∧
  (∃ (s : State) (n : BitVec 2) (m : BitVec 6) (len : BitVec 6) (i : _),
    s.cur.core < 96 ∧ s.me.mon = true ∧ s.issues = true ∧ s.extends = true ∧ i ∈ [Instr.loop n m len, .loopi n m len]) ∧
  (∃ (s : State),
    s.cur.core < 96 ∧ s.me.mon = true ∧ s.cur.eng = .S) ∧
  (∃ (s : State),
    s.cur.core < 96 ∧ s.me.mon = true ∧ s.issues = true ∧ s.extends = true) ∧
  (∃ (s : State),
    s.cur.core < 96 ∧ s.me.mon = false ∧ s.issues = true ∧ s.bare = true) ∧
  (∃ (s : State),
    s.cur.core < 96 ∧ s.issues = true ∧ s.extends = true ∧ s.me.mon = false ∧ (s.me.dbgEn = false ∨ s.me.stopReq = true)) ∧
  (∃ (s : State),
    s.cur.core < 96 ∧ s.issues = true ∧ s.extends = true ∧ s.me.mon = false ∧ s.me.dbgEn = true ∧ s.me.stopReq = false) ∧
  (∃ (s : State),
    s.cur.core < 96 ∧ (tagOf s.cur.word ≠ 7 ∨ s.cur.eng = .S)) ∧
  (∃ (s : State),
    s.cur.core < 96 ∧ tagOf s.cur.word = 7 ∧ s.cur.eng ≠ .S) ∧
  (∃ (s : State),
    s.cur.core < 96 ∧ s.me.mon = true ∧ ringOf s.cur.word = Ring.zero ∧ s.bare = true) :=
  ⟨⟨(base .S 0x10000000).onMe (fun k => { k with mon := true }), 1, 0, 1, 1, 1, .dbg 1, by decide +kernel⟩,
   ⟨(base .S 0).onMe (fun k => { k with mon := true }), 0, 1, .phint, by decide +kernel⟩,
   ⟨(base .S 0).onMe (fun k => { k with mon := true }), 0, 1, 1, .loop 0 1 1, by decide +kernel⟩,
   ⟨(base .S 0).onMe (fun k => { k with mon := true }), by decide +kernel⟩,
   ⟨(base .S 0).onMe (fun k => { k with mon := true }), by decide +kernel⟩,
   ⟨base .S, by decide +kernel⟩,
   ⟨base .S, by decide +kernel⟩,
   ⟨(base .S).onMe (fun k => { k with dbgEn := true }), by decide +kernel⟩,
   ⟨base .S 0xFFFFFFFF, by decide +kernel⟩,
   ⟨base .X 0xFFFFFFFF, by decide +kernel⟩,
   ⟨(base .S 0x01740000).onMe (fun k => { k with mon := true }), by decide +kernel⟩⟩

theorem witness_TrapEndsAttempt :
  (∃ (s : State) (c : Nat) (cause : BitVec 8),
    c < 96 ∧ (cause ≠ cLATENCY ∨ (s.core c).dbgEn = false ∨ (s.core c).mon = true ∨ (s.core c).stopReq = true)) ∧
  (∃ (s : State) (c : Nat) (cause : BitVec 8),
    c < 96 ∧ (cause ≠ cLATENCY ∨ (s.core c).dbgEn = false ∨ (s.core c).mon = true ∨ (s.core c).stopReq = true)) ∧
  (∃ (s : State) (c : Nat) (cause : BitVec 8) (d : _),
    c < 96 ∧ (cause ≠ cLATENCY ∨ (s.core c).dbgEn = false ∨ (s.core c).mon = true ∨ (s.core c).stopReq = true) ∧ d ≠ c) ∧
  (∃ (s : State) (c : Nat) (e : Engine) (cause : BitVec 8) (detail : BitVec 64) (g : _) (q : _),
    let k := s.core c
    let t := s.takeTrap c e cause detail
    let k' := t.core c
    c < 96 ∧ (cause ≠ cLATENCY ∨ (s.core c).dbgEn = false ∨ (s.core c).mon = true ∨ (s.core c).stopReq = true) ∧ k.gang = some g ∧
    lookup g s.gangs = some q ∧ q.state = .running) :=
  ⟨⟨base .S, 95, cLATENCY, by decide +kernel⟩,
   ⟨base .S, 95, cLATENCY, by decide +kernel⟩,
   ⟨base .S, 95, cLATENCY, 94, by decide +kernel⟩,
   ⟨{ (base .S).onMe (fun k => { k with gang := some 1 }) with gangs := [(1, { (default : Gang) with ctx := 7, state := .running, cores := [3], size := 1 })] },
    3, .X, cLATENCY, 0, 1, { (default : Gang) with ctx := 7, state := .running, cores := [3], size := 1 }, by decide +kernel⟩⟩

theorem witness_MonitorEntryAndReturn :
  (∃ (c : Nat),
    c < 96) ∧
  (∃ (c : Nat),
    c < 96) ∧
  (∃ (c : Nat) (x : Engine),
    c < 96 ∧ x ≠ .S) ∧
  (∃ (s : State) (c : Nat) (g : _) (q : _),
    let k := s.core c
    c < 96 ∧ k.gang = some g ∧ lookup g s.gangs = some q) ∧
  (∃ (s : State) (c : Nat) (d : _),
    c < 96 ∧ d ≠ c ∧ (s.core d).preq = true) :=
  ⟨⟨95, by decide +kernel⟩,
   ⟨95, by decide +kernel⟩,
   ⟨95, .X, by decide +kernel⟩,
   ⟨{ (base .S).onMe (fun k => { k with gang := some 1 }) with gangs := [(1, { (default : Gang) with ctx := 7, state := .running, cores := [3], size := 1 })] },
    3, 1, { (default : Gang) with ctx := 7, state := .running, cores := [3], size := 1 }, by decide +kernel⟩,
   ⟨(base .S).onCore 0 (fun k => { k with preq := true }), 95, 0, by decide +kernel⟩⟩

theorem witness_MatrixControl :
  (∃ (s : State) (w : BitVec 1) (sel : BitVec 5) (h : BitVec 3) (q : BitVec 3) (o : BitVec 2) (z : BitVec 4) (a : BitVec 4) (b : BitVec 4)
    (koff : BitVec 6) (i : _),
    s.issues = true ∧ s.extends = true ∧ s.skipped = true ∧ i ∈ [Instr.mldn w q sel, .mldw w q sel, .mstep z koff sel, .mstepz z koff sel, .mzero z, .mscl z a h, .macc z a b, .mtrz z a,
        .mwb o z sel, .mpeek o z h]) ∧
  (∃ (s : State) (stg : BitVec 3) (g : _),
    s.issues = true ∧ s.extends = true ∧ g ∈ s.me.stage ∧ s.immU (stg.setWidth 18) ≤ 7 ∧ stg.toNat < g.depth) ∧
  (∃ (s : State) (dm1 : BitVec 3) (lvl : BitVec 2),
    s.issues = true ∧ s.extends = true ∧ s.immU (1#1 ++ 0#12 ++ dm1 ++ lvl) < 2 ^ 18 ∧ s.me.engM.inFrame lvl.toFin = true) ∧
  (∃ (s : State) (n : BitVec 4) (count : BitVec 14),
    s.issues = true ∧ s.bare = true ∧ count ≠ 0 ∧ (s.me.chain.armed = true → s.me.chain.sem = n)) ∧
  (∃ (s : State) (sel : BitVec 5) (h : BitVec 3) (i : _),
    s.issues = true ∧ s.bare = true ∧ i ∈ s.ftSel sel ∧ (s.rH h).p = false) :=
  ⟨⟨(base .M).onMe (fun k => ({ k with stage := some { lvl := 3, depth := 4, cur := 0 } } : Core).setEng .M { k.engM with pc := 5, loops := k.engM.loops.set 3 { isOpen := true, start := 5, stop := 9, remaining := 2, frame := 0, index := 9 } }),
    1, 15, 7, 7, 3, 15, 15, 15, 63, .mpeek 3 15 7, by decide +kernel⟩,
   ⟨(base .M).onMe (fun k => { k with stage := some { lvl := 3, depth := 8, cur := 0 } }), 7, { lvl := 3, depth := 8, cur := 0 }, by decide +kernel⟩,
   ⟨(base .M).onMe (fun k => k.setEng .M { k.engM with pc := 5, loops := k.engM.loops.set 3 { isOpen := true, start := 5, stop := 9, index := 1, remaining := 2, frame := 0 } }),
    7, 3, by decide +kernel⟩,
   ⟨(base .M).onMe (fun k => { k with chain := { k.chain with armed := true, sem := 15 } }), 15, 0x3FFF, by decide +kernel⟩,
   ⟨base .M, 15, 7, 15, by decide +kernel⟩⟩

theorem witness_MatrixEntries :
  (∃ (s : State) (w : BitVec 1) (q : BitVec 3) (sel : BitVec 5) (e : _),
    s.issues = true ∧ s.bare = true ∧ s.skipped = false ∧ e ∈ s.ftEntry sel ∧ isArrayFmt (ftW e) = true ∧
    64 + sideEntries (ftW e) ≤ (s.me.iq[q.toFin]).length ∧ s.me.stepq.all (fun o => !o.readsW w) = true) ∧
  (∃ (s : State),
    s.issues = true ∧ s.bare = true ∧ s.skipped = false ∧ s.stepRoom = true) ∧
  (∃ (s : State) (sel : BitVec 5) (e : _) (u : _) (mi : _) (ki : _),
    s.issues = true ∧ s.bare = true ∧ s.skipped = false ∧ s.stepRoom = true ∧ e ∈ s.ftEntry sel ∧ u ∈ s.me.unfold ∧ mi ∈ s.levelIndex u.mlvl ∧
    ki ∈ s.levelIndex u.klvl ∧ ftStepOk e = true ∧ (s.me.w[s.me.msel.toFin]).wfmt.toNat = ftW e ∧ unfoldFits u (ftA e) = true) :=
  ⟨⟨(base .M).onMe (fun k => { k with iq := k.iq.set 7 (List.replicate 128 {}), unfold := some { sfmt := 1, mlvl := 4, klvl := 4, kpp := 1 }, w := Vector.replicate 2 { wfmt := 1 }, ft := k.ft.set 15 0x11 }),
    1, 7, 15, 0x11, by decide +kernel⟩,
   ⟨(base .M).onMe (fun k => { k with iq := k.iq.set 7 (List.replicate 128 {}), unfold := some { sfmt := 1, mlvl := 4, klvl := 4, kpp := 1 }, w := Vector.replicate 2 { wfmt := 1 }, ft := k.ft.set 15 0x11 }),
    by decide +kernel⟩,
   ⟨(base .M).onMe (fun k => { k with iq := k.iq.set 7 (List.replicate 128 {}), unfold := some { sfmt := 1, mlvl := 4, klvl := 4, kpp := 1 }, w := Vector.replicate 2 { wfmt := 1 }, ft := k.ft.set 15 0x11 }),
    15, 0x11, { sfmt := 1, mlvl := 4, klvl := 4, kpp := 1 }, none, none, by decide +kernel⟩⟩

theorem witness_MatrixWriteBack :
  (∃ (s : State) (q : BitVec 2) (z : BitVec 4) (sel : BitVec 5) (e : _),
    let t := s.me.z[z.toFin]
    s.issues = true ∧ s.bare = true ∧ s.skipped = false ∧ e ∈ s.ftEntry sel ∧ ftBackOk e = true ∧
    s.fits q ((backEntries (ftO e)).1 + (backEntries (ftO e)).2) = true ∧ s.me.stepq.all (fun o => !o.touchesZ z) = true ∧
    t.rows.toList.all (fun r => r.p == 0) = true ∧ (∀ r ∈ [4, 5, 6, 7, ftXreg e], (s.rH r).p = false)) ∧
  (∃ (s : State) (q : BitVec 2) (z : BitVec 4),
    s.issues = true ∧ s.bare = true ∧ s.skipped = false ∧ s.fits q 128 = true ∧ s.me.stepq.all (fun o => o.isStep || !o.touchesZ z) = true) :=
  ⟨⟨(base .M).onMe (fun k => { k with ft := k.ft.set 15 0, streams := k.streams.set 0 (some { desc := { qsel := 43, space := 1, len0 := 1000000, cnt1 := 1, cnt2 := 1, cnt3 := 1 } }) }),
    3, 15, 15, 0, by decide +kernel⟩,
   ⟨(base .M).onMe (fun k => { k with ft := k.ft.set 15 0, streams := k.streams.set 0 (some { desc := { qsel := 43, space := 1, len0 := 1000000, cnt1 := 1, cnt2 := 1, cnt3 := 1 } }) }),
    3, 15, by decide +kernel⟩⟩

theorem witness_GlobalAccessWords :
  (∃ (s : State) (a : BitVec 6) (imm : BitVec 6) (l : Leaf),
    let va := ((s.rS a).v + s.immS imm).toNat
    s.issues = true ∧ (s.rS a).p = false ∧ s.extends = true ∧ s.reaches va 8 .read .r l = true) ∧
  (∃ (s : State) (a : BitVec 6) (imm : BitVec 6) (l : Leaf),
    let va := ((s.rS a).v + s.immS imm).toNat
    s.issues = true ∧ (s.rS a).p = false ∧ s.extends = true ∧
    (2 ^ 56 ≤ va ∨ s.leafOf va = some l ∧ (va % 8 ≠ 0 ∨ s.leafProt s.me.lastCtx l .read = true))) ∧
  (∃ (s : State) (d : BitVec 6) (a : BitVec 6) (imm : BitVec 6) (l : Leaf),
    let va := ((s.rS a).v + s.immS imm).toNat
    s.issues = true ∧ (s.rS a).p = false ∧ s.extends = true ∧ s.reaches va 8 .write .w l = true ∧ (s.rS d).p = false) ∧
  (∃ (s : State) (d : BitVec 6) (a : BitVec 6) (b : BitVec 6) (l : Leaf),
    let vx := (s.rS a).v.toNat
    let o := (s.rS d).v
    s.issues = true ∧ (s.rS a).p = false ∧ s.bare = true ∧ (s.rS b).p = false ∧ (s.rS d).p = false ∧ s.reaches vx (atomWidth o) .atom .atom l = true ∧
    atomLegal o = true) ∧
  (∃ (s : State) (d : BitVec 6) (a : BitVec 6) (b : BitVec 6) (l : Leaf),
    let vx := (s.rS a).v.toNat
    s.issues = true ∧ (s.rS a).p = false ∧ s.bare = true ∧ (s.rS b).p = false ∧ (s.rS d).p = false ∧ s.reaches vx 8 .atom .atom l = true) :=
  ⟨⟨gbase .S (s1 0x101FFFF0), 1, 8, leaf, by decide +kernel⟩,
   ⟨gbase .S (s1 0x100000000000000), 1, 8, leaf, by decide +kernel⟩,
   ⟨gbase .S (s1 0x10007FF0), 2, 1, 8, leaf, by decide +kernel⟩,
   ⟨gbase .S (fun k => s1 0x10007FFC { k with s := k.s.set 2 { v := 0x109 } }), 2, 1, 0, leaf, by decide +kernel⟩,
   ⟨gbase .S (s1 0x10007FF8), 2, 1, 0, leaf, by decide +kernel⟩⟩

theorem witness_GlobalAccessTraps :
  (∃ (s : State) (d : BitVec 6) (a : BitVec 6) (b : BitVec 6) (imm : BitVec 6) (q : Instr × BitVec 64 × Nat × Acc × FpMode),
    let x := (s.rS a).v
    let o := (s.rS d).v
    let va := x + s.immS imm
    let plain : List (Instr × BitVec 64 × Nat × Acc × FpMode) :=
      if s.extends then [(.gld d a imm, va, 8, .read, .r), (.gst d a imm, va, 8, .write, .w)] else []
    let atomics : List (Instr × BitVec 64 × Nat × Acc × FpMode) :=
      if s.bare then (if atomLegal o then [(.gatom d a b, x, atomWidth o, .atom, .atom)] else []) ++ [(.gcas d a b, x, 8, .atom, .atom)] else []
    let at_ := q.2.1
    s.issues = true ∧ (s.rS a).p = false ∧ (s.rS b).p = false ∧ (s.rS d).p = false ∧ q ∈ plain ++ atomics ∧ 2 ^ 56 ≤ at_.toNat) ∧
  (∃ (s : State) (d : BitVec 6) (a : BitVec 6) (b : BitVec 6) (imm : BitVec 6) (q : Instr × BitVec 64 × Nat × Acc × FpMode) (f : _),
    let c := s.cur.core
    let ctx := s.me.lastCtx
    let x := (s.rS a).v
    let o := (s.rS d).v
    let va := x + s.immS imm
    let who : Who := .eng c s.cur.eng
    let plain : List (Instr × BitVec 64 × Nat × Acc × FpMode) :=
      if s.extends then [(.gld d a imm, va, 8, .read, .r), (.gst d a imm, va, 8, .write, .w)] else []
    let atomics : List (Instr × BitVec 64 × Nat × Acc × FpMode) :=
      if s.bare then (if atomLegal o then [(.gatom d a b, x, atomWidth o, .atom, .atom)] else []) ++ [(.gcas d a b, x, 8, .atom, .atom)] else []
    let at_ := q.2.1
    let n := q.2.2.1
    s.issues = true ∧ (s.rS a).p = false ∧ (s.rS b).p = false ∧ (s.rS d).p = false ∧ q ∈ plain ++ atomics ∧ at_.toNat < 2 ^ 56 ∧
    s.tlb.all (fun e => !e.covers (.eng c .S) ctx at_.toNat && !e.covers (.die (c / 24)) ctx at_.toNat) = true ∧
    s.walkFails.find? (fun f => f.who == who && f.va == at_.toNat) = some f ∧ (f.cause ≠ cPROT ∨ at_.toNat % n = 0)) ∧
  (∃ (s : State) (d : BitVec 6) (a : BitVec 6) (b : BitVec 6) (imm : BitVec 6) (l : Leaf) (q : Instr × BitVec 64 × Nat × Acc × FpMode),
    let x := (s.rS a).v
    let o := (s.rS d).v
    let va := x + s.immS imm
    let plain : List (Instr × BitVec 64 × Nat × Acc × FpMode) :=
      if s.extends then [(.gld d a imm, va, 8, .read, .r), (.gst d a imm, va, 8, .write, .w)] else []
    let atomics : List (Instr × BitVec 64 × Nat × Acc × FpMode) :=
      if s.bare then (if atomLegal o then [(.gatom d a b, x, atomWidth o, .atom, .atom)] else []) ++ [(.gcas d a b, x, 8, .atom, .atom)] else []
    let at_ := q.2.1
    let n := q.2.2.1
    s.issues = true ∧ (s.rS a).p = false ∧ (s.rS b).p = false ∧ (s.rS d).p = false ∧ q ∈ plain ++ atomics ∧ s.leafOf at_.toNat = some l ∧
    at_.toNat % n ≠ 0) ∧
  (∃ (s : State) (d : BitVec 6) (a : BitVec 6) (b : BitVec 6) (imm : BitVec 6) (l : Leaf) (q : Instr × BitVec 64 × Nat × Acc × FpMode),
    let ctx := s.me.lastCtx
    let x := (s.rS a).v
    let o := (s.rS d).v
    let va := x + s.immS imm
    let plain : List (Instr × BitVec 64 × Nat × Acc × FpMode) :=
      if s.extends then [(.gld d a imm, va, 8, .read, .r), (.gst d a imm, va, 8, .write, .w)] else []
    let atomics : List (Instr × BitVec 64 × Nat × Acc × FpMode) :=
      if s.bare then (if atomLegal o then [(.gatom d a b, x, atomWidth o, .atom, .atom)] else []) ++ [(.gcas d a b, x, 8, .atom, .atom)] else []
    let at_ := q.2.1
    let n := q.2.2.1
    let use := q.2.2.2.1
    s.issues = true ∧ (s.rS a).p = false ∧ (s.rS b).p = false ∧ (s.rS d).p = false ∧ q ∈ plain ++ atomics ∧ s.leafOf at_.toNat = some l ∧
    at_.toNat % n = 0 ∧ s.leafProt ctx l use = true) ∧
  (∃ (s : State) (d : BitVec 6) (a : BitVec 6) (b : BitVec 6) (imm : BitVec 6) (l : Leaf) (q : Instr × BitVec 64 × Nat × Acc × FpMode),
    let ctx := s.me.lastCtx
    let region := s.me.region.toNat
    let x := (s.rS a).v
    let o := (s.rS d).v
    let va := x + s.immS imm
    let plain : List (Instr × BitVec 64 × Nat × Acc × FpMode) :=
      if s.extends then [(.gld d a imm, va, 8, .read, .r), (.gst d a imm, va, 8, .write, .w)] else []
    let atomics : List (Instr × BitVec 64 × Nat × Acc × FpMode) :=
      if s.bare then (if atomLegal o then [(.gatom d a b, x, atomWidth o, .atom, .atom)] else []) ++ [(.gcas d a b, x, 8, .atom, .atom)] else []
    let at_ := q.2.1
    let n := q.2.2.1
    let use := q.2.2.2.1
    let mode := q.2.2.2.2
    let asks := s.asksFp at_.toNat n use mode l
    let budget := (s.ctx ctx).fpentEff region
    s.issues = true ∧ (s.rS a).p = false ∧ (s.rS b).p = false ∧ (s.rS d).p = false ∧ q ∈ plain ++ atomics ∧ asks = true ∧ budget < 1) ∧
  (∃ (s : State) (d : BitVec 6) (a : BitVec 6) (b : BitVec 6) (imm : BitVec 6) (l : Leaf) (q : Instr × BitVec 64 × Nat × Acc × FpMode) (w : _),
    let c := s.cur.core
    let ctx := s.me.lastCtx
    let region := s.me.region.toNat
    let x := (s.rS a).v
    let o := (s.rS d).v
    let va := x + s.immS imm
    let who : Who := .eng c s.cur.eng
    let plain : List (Instr × BitVec 64 × Nat × Acc × FpMode) :=
      if s.extends then [(.gld d a imm, va, 8, .read, .r), (.gst d a imm, va, 8, .write, .w)] else []
    let atomics : List (Instr × BitVec 64 × Nat × Acc × FpMode) :=
      if s.bare then (if atomLegal o then [(.gatom d a b, x, atomWidth o, .atom, .atom)] else []) ++ [(.gcas d a b, x, 8, .atom, .atom)] else []
    let at_ := q.2.1
    let n := q.2.2.1
    let use := q.2.2.2.1
    let mode := q.2.2.2.2
    let asks := s.asksFp at_.toNat n use mode l
    let first := s.fpWait.find? (fun w => w.who == who)
    let budget := (s.ctx ctx).fpentEff region
    s.issues = true ∧ (s.rS a).p = false ∧ (s.rS b).p = false ∧ (s.rS d).p = false ∧ q ∈ plain ++ atomics ∧ asks = true ∧ 1 ≤ budget ∧
    first = some w ∧ w.timedOut = true) ∧
  (∃ (s : State) (d : BitVec 6) (a : BitVec 6) (b : BitVec 6) (imm : BitVec 6) (l : Leaf) (q : Instr × BitVec 64 × Nat × Acc × FpMode) (f : _),
    let c := s.cur.core
    let ctx := s.me.lastCtx
    let region := s.me.region.toNat
    let x := (s.rS a).v
    let o := (s.rS d).v
    let va := x + s.immS imm
    let who : Who := .eng c s.cur.eng
    let plain : List (Instr × BitVec 64 × Nat × Acc × FpMode) :=
      if s.extends then [(.gld d a imm, va, 8, .read, .r), (.gst d a imm, va, 8, .write, .w)] else []
    let atomics : List (Instr × BitVec 64 × Nat × Acc × FpMode) :=
      if s.bare then (if atomLegal o then [(.gatom d a b, x, atomWidth o, .atom, .atom)] else []) ++ [(.gcas d a b, x, 8, .atom, .atom)] else []
    let at_ := q.2.1
    let n := q.2.2.1
    let use := q.2.2.2.1
    let mode := q.2.2.2.2
    let asks := s.asksFp at_.toNat n use mode l
    let first := s.fpWait.find? (fun w => w.who == who)
    let budget := (s.ctx ctx).fpentEff region
    s.issues = true ∧ (s.rS a).p = false ∧ (s.rS b).p = false ∧ (s.rS d).p = false ∧ q ∈ plain ++ atomics ∧ asks = true ∧ 1 ≤ budget ∧
    first.all (fun w => !w.timedOut) = true ∧ s.fpGrant who ctx region 1 = true ∧ s.fpConflict ctx (.core c) [sectorRange at_.toNat mode] = some f) ∧
  (∃ (s : State) (d : BitVec 6) (a : BitVec 6) (b : BitVec 6) (imm : BitVec 6) (l : Leaf) (q : Instr × BitVec 64 × Nat × Acc × FpMode),
    let x := (s.rS a).v
    let o := (s.rS d).v
    let va := x + s.immS imm
    let plain : List (Instr × BitVec 64 × Nat × Acc × FpMode) :=
      if s.extends then [(.gld d a imm, va, 8, .read, .r), (.gst d a imm, va, 8, .write, .w)] else []
    let atomics : List (Instr × BitVec 64 × Nat × Acc × FpMode) :=
      if s.bare then (if atomLegal o then [(.gatom d a b, x, atomWidth o, .atom, .atom)] else []) ++ [(.gcas d a b, x, 8, .atom, .atom)] else []
    let at_ := q.2.1
    let n := q.2.2.1
    let use := q.2.2.2.1
    let mode := q.2.2.2.2
    s.issues = true ∧ (s.rS a).p = false ∧ (s.rS b).p = false ∧ (s.rS d).p = false ∧ q ∈ plain ++ atomics ∧ s.claims at_.toNat n use mode l = true ∧
    s.isUncorr (l.pa at_.toNat) = true) ∧
  (∃ (s : State) (d : BitVec 6) (a : BitVec 6) (imm : BitVec 6) (i : _),
    s.issues = true ∧ s.extends = true ∧ (s.rS a).p = true ∧ i ∈ [Instr.gld d a imm, .glds d a imm, .gst d a imm]) ∧
  (∃ (s : State) (d : BitVec 6) (a : BitVec 6),
    s.issues = true ∧ s.extends = true ∧ (s.rS a).p = false ∧ (s.rS d).p = true) ∧
  (∃ (s : State) (d : BitVec 6) (a : BitVec 6) (b : BitVec 6) (i : _),
    s.issues = true ∧ s.bare = true ∧ i ∈ [Instr.gatom d a b, .gcas d a b] ∧ (s.rS a).p = true) ∧
  (∃ (s : State) (d : BitVec 6) (a : BitVec 6) (b : BitVec 6) (i : _),
    s.issues = true ∧ s.bare = true ∧ i ∈ [Instr.gatom d a b, .gcas d a b] ∧ (s.rS a).p = false ∧ (s.rS b).p = true ∨ (s.rS d).p = true) :=
  ⟨⟨gbase .S (s1 0x100000000000000), 2, 1, 0, 8, (.gld 2 1 8, 0x100000000000008, 8, .read, .r), by decide +kernel⟩,
   ⟨{ gbase .S (s1 0x1FFFFFF8) with walkFails := [{ who := .eng 3 .S, va := 0x1FFFFFF8, cause := cXLATE, detail := 0x1FFFFFF8 }] }, 2, 1, 0, 8,
    (.gcas 2 1 0, 0x1FFFFFF8, 8, .atom, .atom), { who := .eng 3 .S, va := 0x1FFFFFF8, cause := cXLATE, detail := 0x1FFFFFF8 },
    (by (try dsimp only); and_intros; all_goals (try first | exact Or.inl (by decide +kernel)); all_goals first | decide +kernel | rfl | (intro q h; first | (cases h; rfl) | cases h))⟩,
   ⟨gbase .S (s1 0x10000001), 2, 1, 0, 8, leaf, (.gatom 2 1 0, 0x10000001, 8, .atom, .atom), by decide +kernel⟩,
   ⟨gbase .S (s1 0x10000000) 0x400010003, 2, 1, 0, 8, (leaf 0x400010003), (.gst 2 1 8, 0x10000008, 8, .write, .w), by decide +kernel⟩,
   ⟨{ gbase .S (s1 0x10008000) with fps := [], ctxs := [(5, { regions := [{ ovr := 0xFFF, fpent := 0, parent := 0xFFFF, cores := 96 }] })] }, 2, 1, 0,
    8, leaf, (.gld 2 1 8, 0x10008008, 8, .read, .r), by decide +kernel⟩,
   ⟨{ gbase .S (s1 0x10008000) with fps := [], fpWait := [{ who := .eng 3 .S, ctx := 5, region := 0, count := 1, timedOut := true }] }, 2, 1, 0, 8,
    leaf, (.gst 2 1 8, 0x10008008, 8, .write, .w), { who := .eng 3 .S, ctx := 5, region := 0, count := 1, timedOut := true }, by decide +kernel⟩,
   ⟨{ gbase .S (s1 0x10008000) with fps := [{ id := 8, ctx := 5, owner := .core 4, base := 0x10008000, len := 1, mode := .r, region := 0 }] }, 2, 1, 0,
    8, leaf, (.gcas 2 1 0, 0x10008000, 8, .atom, .atom),
    { id := 8, ctx := 5, owner := .core 4, base := 0x10008000, len := 1, mode := .r, region := 0 }, by decide +kernel⟩,
   ⟨{ gbase .S (s1 0x10000000) with uncorr := [(leaf).pa 0x10000000 / 64] }, 2, 1, 0, 8, leaf, (.gld 2 1 8, 0x10000008, 8, .read, .r),
    by decide +kernel⟩,
   ⟨(base .S).onMe (fun k => { k with s := k.s.set 1 { p := true } }), 2, 1, 8, .glds 2 1 8, by decide +kernel⟩,
   ⟨(base .S).onMe (fun k => { k with s := k.s.set 2 { p := true } }), 2, 1, by decide +kernel⟩,
   ⟨(base .S).onMe (fun k => { k with s := k.s.set 1 { p := true } }), 2, 1, 0, .gcas 2 1 0, by decide +kernel⟩,
   ⟨(base .S).onMe (fun k => { k with s := k.s.set 2 { p := true } }), 2, 1, 0, .gatom 2 1 0,
    (by (try dsimp only); and_intros; all_goals (try first | exact Or.inr (by decide +kernel)); all_goals first | decide +kernel | rfl | (intro q h; first | (cases h; rfl) | cases h))⟩⟩

theorem witness_OrderingWords :
  (∃ (s : State) (kind : BitVec 2) (scope : BitVec 2),
    s.issues = true ∧ s.extends = true ∧ s.immU (0#14 ++ kind ++ scope) ≤ 15 ∧ kind ≠ 0 ∧ scope = 0) ∧
  (∃ (s : State) (kind : BitVec 2) (scope : BitVec 2),
    let c := s.cur.core
    let mine := fun (g : Flight) => g.core == c
    let quiet := s.flights.all (fun g => !(mine g && g.eng == .S && g.mode != .w && !g.rel))
    s.issues = true ∧ s.extends = true ∧ s.immU (0#14 ++ kind ++ scope) ≤ 15 ∧ kind ≠ 0 ∧ scope ≠ 0 ∧ kind = 1 ∧ quiet = true) ∧
  (∃ (s : State) (kind : BitVec 2) (scope : BitVec 2),
    let c := s.cur.core
    let mine := fun (g : Flight) => g.core == c
    let quiet := s.flights.all (fun g => !(mine g && g.eng == .S && g.mode != .w && !g.rel))
    s.issues = true ∧ s.extends = true ∧ s.immU (0#14 ++ kind ++ scope) ≤ 15 ∧ kind ≠ 0 ∧ scope ≠ 0 ∧ kind ≠ 1 ∧
    (if scope = 1 then s.flights.all (fun g => !(mine g && !g.sp && !g.rel && g.mode.writes && decide (g.seq ≤ s.mark))) else s.rung.settledTo) = true ∧
    (scope = 3 → s.rung.remoteDone = true) ∧ (kind = 3 → quiet = true)) ∧
  (∃ (s : State) (a : BitVec 6) (b : BitVec 6) (m : FpMode) (n : Nat),
    let c := s.cur.core
    let x := (s.rS a).v
    let y := (s.rS b).v
    let r : Range := { sp := false, lo := x.toNat, len := 64 * (y.extractLsb' 0 32).toNat, mode := m }
    s.issues = true ∧ s.bare = true ∧ (s.rS a).p = false ∧ (s.rS b).p = false ∧ xfModeOf (y.extractLsb' 32 3) = some m ∧ y.extractLsb' 0 32 ≠ 0 ∧
    y.extractLsb' 35 29 = 0 ∧ x.toNat % 64 = 0 ∧ x.toNat + r.len ≤ 2 ^ 56 ∧ s.me.freeClaim = some n ∧
    s.fpAdmits (.eng c s.cur.eng) (.core c) s.me.lastCtx s.me.region.toNat r = true) ∧
  (∃ (s : State) (a : BitVec 6) (q : Nat × Nat) (f : Fp),
    let c := s.cur.core
    let x := (s.rS a).v
    let mine := fun (g : Flight) => g.core == c
    s.issues = true ∧ s.bare = true ∧ (s.rS a).p = false ∧ s.me.claims.find? (fun p => p.1 == x.toNat) = some q ∧
    s.fps.find? (fun f => f.id == q.2) = some f ∧
    s.flights.all (fun g => !(mine g && g.eng == .S && !g.rel && overlaps g.va g.len f.base (64 * f.len))) = true) ∧
  (∃ (s : State) (a : BitVec 6) (b : BitVec 6) (n : Nat),
    let c := s.cur.core
    let x := (s.rS a).v
    let y := (s.rS b).v
    let mine := fun (g : Flight) => g.core == c
    let hit := fun (a n : Nat) => y.toNat == 0 || overlaps x.toNat y.toNat a n
    s.issues = true ∧ s.bare = true ∧ (s.rS a).p = false ∧ (s.rS b).p = false ∧ x.toNat < 2 ^ 56 ∧ (y = 0 ∨ x.toNat + y.toNat ≤ 2 ^ 56) ∧
    s.flights.all (fun g => !(mine g && g.eng == .S && g.mode.writes)) = true ∧
    s.flights.all (fun g => !((s.core g.core).lastCtx == s.me.lastCtx && !g.sp && !g.rel && !g.pends && hit g.va g.len)) = true) ∧
  (∃ (s : State) (a : BitVec 6) (l : Leaf),
    let x := (s.rS a).v
    s.issues = true ∧ s.bare = true ∧ (s.rS a).p = false ∧ s.leafOf x.toNat = some l ∧ s.leafProt s.me.lastCtx l .read = false) ∧
  (∃ (s : State) (a : BitVec 6),
    let x := (s.rS a).v
    s.issues = true ∧ s.bare = true ∧ (s.rS a).p = false ∧ 2 ^ 56 ≤ x.toNat) :=
  ⟨⟨gbase .S (id), 1, 0, by decide +kernel⟩,
   ⟨gbase .S (id), 1, 3, by decide +kernel⟩,
   ⟨gbase .S (id), 3, 3, by decide +kernel⟩,
   ⟨gbase .S (fun k => s1 0xFFFFFFFFFFFFC0 { k with s := k.s.set 2 { v := 0x400000001 } }), 1, 2, FpMode.acc, 1, by decide +kernel⟩,
   ⟨gbase .S (s1 2), 1, (2, 9), { id := 9, ctx := 5, owner := .core 3, base := 0x10000000, len := 0x8000, mode := .rw, region := 0 }, by decide +kernel⟩,
   ⟨gbase .S (s1 0xFFFFFFFFFFFFFF), 1, 2, 0, by decide +kernel⟩,
   ⟨gbase .S (s1 0x101FFFFF), 1, leaf, by decide +kernel⟩,
   ⟨gbase .S (s1 0x100000000000000), 1, by decide +kernel⟩⟩

theorem witness_ScratchpadWords :
  (∃ (s : State) (a : BitVec 5) (imm : BitVec 6),
    let va := (s.rA a).v + s.immS imm
    s.issues = true ∧ (s.rA a).p = false ∧ s.extends = true ∧ s.spadOk va 8 .r = true) ∧
  (∃ (s : State) (d : BitVec 5) (a : BitVec 5) (imm : BitVec 6),
    let va := (s.rA a).v + s.immS imm
    s.issues = true ∧ (s.rA a).p = false ∧ s.extends = true ∧ s.spadOk va 8 .w = true ∧ (s.rA d).p = false) ∧
  (∃ (s : State) (d : BitVec 5) (a : BitVec 5) (b : BitVec 5),
    let x := (s.rA a).v
    let o := (s.rA d).v
    s.issues = true ∧ (s.rA a).p = false ∧ s.bare = true ∧ (s.rA b).p = false ∧ (s.rA d).p = false ∧ atomLegal o = true ∧
    s.spadOk x (atomWidth o) .atom = true) ∧
  (∃ (s : State) (d : BitVec 5) (a : BitVec 5) (b : BitVec 5),
    let o := (s.rA d).v
    s.issues = true ∧ (s.rA a).p = false ∧ s.bare = true ∧ (s.rA b).p = false ∧ (s.rA d).p = false ∧ atomLegal o = false) ∧
  (∃ (s : State) (d : BitVec 5) (a : BitVec 5) (b : BitVec 5),
    let x := (s.rA a).v
    s.issues = true ∧ (s.rA a).p = false ∧ s.bare = true ∧ (s.rA b).p = false ∧ (s.rA d).p = false ∧ s.spadOk x 8 .atom = true) ∧
  (∃ (s : State) (d : BitVec 5) (a : BitVec 5) (b : BitVec 5) (imm : BitVec 6) (q : Instr × BitVec 64 × Nat),
    let va := (s.rA a).v + s.immS imm
    let x := (s.rA a).v
    let o := (s.rA d).v
    let plain : List (Instr × BitVec 64 × Nat) := if s.extends then [(.ald d a imm, va, 8), (.ast d a imm, va, 8)] else []
    let atomics : List (Instr × BitVec 64 × Nat) :=
      if s.bare then (if atomLegal o then [(.aatom d a b, x, atomWidth o)] else []) ++ [(.acas d a b, x, 8)] else []
    s.issues = true ∧ (s.rA a).p = false ∧ (s.rA b).p = false ∧ (s.rA d).p = false ∧ q ∈ plain ++ atomics ∧ Config.spadBytes < q.2.1.toNat + q.2.2) ∧
  (∃ (s : State) (d : BitVec 5) (a : BitVec 5) (b : BitVec 5) (imm : BitVec 6) (q : Instr × BitVec 64 × Nat),
    let va := (s.rA a).v + s.immS imm
    let x := (s.rA a).v
    let o := (s.rA d).v
    let plain : List (Instr × BitVec 64 × Nat) := if s.extends then [(.ald d a imm, va, 8), (.ast d a imm, va, 8)] else []
    let atomics : List (Instr × BitVec 64 × Nat) :=
      if s.bare then (if atomLegal o then [(.aatom d a b, x, atomWidth o)] else []) ++ [(.acas d a b, x, 8)] else []
    s.issues = true ∧ (s.rA a).p = false ∧ (s.rA b).p = false ∧ (s.rA d).p = false ∧ q ∈ plain ++ atomics ∧ q.2.1.toNat + q.2.2 ≤ Config.spadBytes ∧
    q.2.1.toNat % q.2.2 ≠ 0) ∧
  (∃ (s : State) (d : BitVec 5) (a : BitVec 5) (imm : BitVec 6) (i : _),
    s.issues = true ∧ s.extends = true ∧ (s.rA a).p = true ∧ i ∈ [Instr.ald d a imm, .ast d a imm]) ∧
  (∃ (s : State) (d : BitVec 5) (a : BitVec 5),
    s.issues = true ∧ s.extends = true ∧ (s.rA a).p = false ∧ (s.rA d).p = true) ∧
  (∃ (s : State) (d : BitVec 5) (a : BitVec 5) (b : BitVec 5) (i : _),
    s.issues = true ∧ s.bare = true ∧ i ∈ [Instr.aatom d a b, .acas d a b] ∧ (s.rA a).p = true) ∧
  (∃ (s : State) (d : BitVec 5) (a : BitVec 5) (b : BitVec 5) (i : _),
    s.issues = true ∧ s.bare = true ∧ i ∈ [Instr.aatom d a b, .acas d a b] ∧ (s.rA a).p = false ∧ (s.rA b).p = true ∨ (s.rA d).p = true) :=
  ⟨⟨gbase .A (a1 0x3FFFF8), 1, 0, by decide +kernel⟩,
   ⟨gbase .A (a1 0x3FFFF8), 2, 1, 0, by decide +kernel⟩,
   ⟨gbase .A (fun k => a1 0 { k with a := k.a.set 2 { v := 0x109 } }), 2, 1, 0, by decide +kernel⟩,
   ⟨gbase .A (fun k => { k with a := k.a.set 2 { v := 10 } }), 2, 1, 0, by decide +kernel⟩,
   ⟨gbase .A (a1 0), 2, 1, 0, by decide +kernel⟩,
   ⟨gbase .A (a1 0x3FFFF9), 2, 1, 0, 0, (.ast 2 1 0, 0x3FFFF9, 8), by decide +kernel⟩,
   ⟨gbase .A (fun k => a1 0x3FFFFB { k with a := (k.a.set 2 { v := 0x109 }).set 1 { v := 0x3FFFFB } }), 2, 1, 0, 0, (.aatom 2 1 0, 0x3FFFFB, 4),
    by decide +kernel⟩,
   ⟨(base .A).onMe (fun k => { k with a := k.a.set 1 { p := true } }), 2, 1, 0, .ast 2 1 0, by decide +kernel⟩,
   ⟨(base .A).onMe (fun k => { k with a := k.a.set 2 { p := true } }), 2, 1, by decide +kernel⟩,
   ⟨(base .A).onMe (fun k => { k with a := k.a.set 1 { p := true } }), 2, 1, 0, .acas 2 1 0, by decide +kernel⟩,
   ⟨(base .A).onMe (fun k => { k with a := k.a.set 2 { p := true } }), 2, 1, 0, .aatom 2 1 0,
    (by (try dsimp only); and_intros; all_goals (try first | exact Or.inr (by decide +kernel)); all_goals first | decide +kernel | rfl | (intro q h; first | (cases h; rfl) | cases h))⟩⟩

theorem witness_StreamWords :
  (∃ (s : State) (n : BitVec 4) (a : BitVec 5) (r : BitVec 64 × StreamDesc),
    let desc := r.2
    s.issues = true ∧ s.bare = true ∧ s.descOf a = some r ∧ s.me.streams[n.toFin] = none ∧ s.me.streamOn desc.qsel.toNat = none ∧
    s.me.streamBad desc = false ∧ desc.space ≠ 1) ∧
  (∃ (s : State) (n : BitVec 4) (a : BitVec 5) (r : BitVec 64 × StreamDesc) (ids : _) (seq : _) (u : _),
    let desc := r.2
    s.issues = true ∧ s.bare = true ∧ s.descOf a = some r ∧ s.me.streams[n.toFin] = none ∧ s.me.streamOn desc.qsel.toNat = none ∧
    s.me.streamBad desc = false ∧ enterStream desc (s.rung.descKept r) = .ok (ids, seq) u) ∧
  (∃ (s : State) (n : BitVec 4) (a : BitVec 5) (r : BitVec 64 × StreamDesc) (t : Stream),
    s.issues = true ∧ s.bare = true ∧ s.descOf a = some r ∧ s.me.streams[n.toFin] = some t) ∧
  (∃ (s : State) (n : BitVec 4) (a : BitVec 5) (r : BitVec 64 × StreamDesc) (t : Stream),
    let desc := r.2
    s.issues = true ∧ s.bare = true ∧ s.descOf a = some r ∧ s.me.streams[n.toFin] = none ∧ s.me.streamOn desc.qsel.toNat = some t) ∧
  (∃ (s : State) (n : BitVec 4) (a : BitVec 5) (r : BitVec 64 × StreamDesc),
    let desc := r.2
    s.issues = true ∧ s.bare = true ∧ s.descOf a = some r ∧ s.me.streams[n.toFin] = none ∧ s.me.streamOn desc.qsel.toNat = none ∧
    s.me.streamBad desc = true) ∧
  (∃ (s : State) (n : BitVec 4) (a : BitVec 5) (i : _),
    s.issues = true ∧ s.bare = true ∧ s.me.streams[n.toFin] = none ∧ (s.rA a).p = false ∧ i ∈ [Instr.unbind n, .rebind n a, .sdrain n, .sskip n a]) ∧
  (∃ (s : State) (n : BitVec 4) (t : Stream),
    s.issues = true ∧ s.bare = true ∧ s.me.streams[n.toFin] = some t ∧ t.desc.isIn = true) ∧
  (∃ (s : State) (n : BitVec 4) (a : BitVec 5) (t : Stream),
    let x := (s.rA a).v
    s.issues = true ∧ s.bare = true ∧ s.me.streams[n.toFin] = some t ∧ (s.rA a).p = false ∧ t.desc.isIn = false ∧
    s.me.roomInStream t - Nat.min x.toNat (s.me.roomInStream t) < s.me.queueHeld t.desc) ∧
  (∃ (s : State) (n : BitVec 4) (a : BitVec 5) (r : BitVec 64 × StreamDesc) (t : Stream),
    let x := (s.rA a).v
    let desc := r.2
    let moving : Stream := { t with desc := { t.desc with base := x.setWidth 56 }, next := 0, psn := false, re := true, early := [] }
    s.issues = true ∧ s.bare = true ∧ s.me.streams[n.toFin] = some t ∧ (s.rA a).p = false ∧ t.desc.space ≠ 2 ∧ t.re = false ∧
    (t.desc.isIn = true ∨ s.me.queueHeld t.desc = 0) ∧ (2 ^ 56 ≤ x.toNat ∨ moving.desc.limitBad 0 = true)) ∧
  (∃ (s : State) (n : BitVec 4) (a : BitVec 5) (r : BitVec 64 × StreamDesc) (t : Stream),
    let x := (s.rA a).v
    let desc := r.2
    let moving : Stream := { t with desc := { t.desc with base := x.setWidth 56 }, next := 0, psn := false, re := true, early := [] }
    let gone := s.fps.all (fun f => !t.fps.contains f.id)
    s.issues = true ∧ s.bare = true ∧ s.me.streams[n.toFin] = some t ∧ (t.desc.isIn = true ∨ s.me.queueHeld t.desc = 0) ∧ (s.rA a).p = false ∧
    t.desc.space ≠ 2 ∧ t.re = false ∧ x.toNat < 2 ^ 56 ∧ moving.desc.limitBad 0 = false ∧ gone = false) ∧
  (∃ (s : State) (n : BitVec 4) (a : BitVec 5) (r : BitVec 64 × StreamDesc) (t : Stream),
    let x := (s.rA a).v
    let desc := r.2
    let moving : Stream := { t with desc := { t.desc with base := x.setWidth 56 }, next := 0, psn := false, re := true, early := [] }
    let gone := s.fps.all (fun f => !t.fps.contains f.id)
    s.issues = true ∧ s.bare = true ∧ s.me.streams[n.toFin] = some t ∧ (t.desc.isIn = true ∨ s.me.queueHeld t.desc = 0) ∧ (s.rA a).p = false ∧
    t.desc.space ≠ 2 ∧ t.re = false ∧ x.toNat < 2 ^ 56 ∧ moving.desc.limitBad 0 = false ∧ gone = true ∧ s.aHasLanded = true ∧ t.desc.space = 0) ∧
  (∃ (s : State) (n : BitVec 4) (t : Stream),
    s.issues = true ∧ s.bare = true ∧ s.me.streams[n.toFin] = some t ∧ (t.desc.isIn = true ∨ s.me.queueHeld t.desc = 0) ∧ t.desc.isIn = false) ∧
  (∃ (s : State) (n : BitVec 4) (a : BitVec 5) (t : Stream) (ids : _) (seq : _) (u : _),
    let gone := s.fps.all (fun f => !t.fps.contains f.id)
    s.issues = true ∧ s.bare = true ∧ s.me.streams[n.toFin] = some t ∧ (s.rA a).p = false ∧ t.desc.space ≠ 2 ∧ t.re = true ∧ gone = true ∧
    s.aHasLanded = true ∧ enterStream t.desc s.rung = .ok (ids, seq) u) ∧
  (∃ (s : State) (n : BitVec 4) (a : BitVec 5) (t : Stream),
    let x := (s.rA a).v
    let m := Nat.min x.toNat (s.me.roomInStream t)
    s.issues = true ∧ s.bare = true ∧ s.me.streams[n.toFin] = some t ∧ (s.rA a).p = false ∧
    (t.desc.isIn = true ∨ s.me.queueHeld t.desc ≤ s.me.roomInStream t - m)) :=
  ⟨⟨gbase .A (desc 0x100000001000000010000004000000000000010000000000000040021), 15, 1,
    (0x400, parseDesc 0x100000001000000010000004000000000000010000000000000040021), by decide +kernel⟩,
   ⟨gbase .A (desc 0x100000001000000010000004000000000100000000000000000000069), 15, 1,
    (0x400, parseDesc 0x100000001000000010000004000000000100000000000000000000069), _, _, _, by and_intros <;> first | decide +kernel | rfl⟩,
   ⟨gbase .A (fun k => desc 0x100000001000000010000004000000000000010000000000000040021 { k with streams := k.streams.set 15 (some { desc := parseDesc 0x100000001000000010000004000000000100000000000000000000069 }) }),
    15, 1, (0x400, parseDesc 0x100000001000000010000004000000000000010000000000000040021),
    { desc := parseDesc 0x100000001000000010000004000000000100000000000000000000069 }, by decide +kernel⟩,
   ⟨gbase .A (fun k => desc 0x100000001000000010000004000000000000010000000000000040021 { k with streams := k.streams.set 14 (some { desc := parseDesc 0x100000001000000010000004000000000000010000000000000040021 }) }),
    15, 1, (0x400, parseDesc 0x100000001000000010000004000000000000010000000000000040021),
    { desc := parseDesc 0x100000001000000010000004000000000000010000000000000040021 }, by decide +kernel⟩,
   ⟨gbase .A (desc 0x100000001000000010000004000000000000010000000000000040821), 15, 1,
    (0x400, parseDesc 0x100000001000000010000004000000000000010000000000000040821), by decide +kernel⟩,
   ⟨base .A, 15, 1, .sskip 15 1, by decide +kernel⟩,
   ⟨gbase .A (fun k => a1 0x3FF000 { k with streams := k.streams.set 15 (some { desc := parseDesc 0x100000001000000010000004000000000000010000000000000040021 }) }),
    15, { desc := parseDesc 0x100000001000000010000004000000000000010000000000000040021 }, by decide +kernel⟩,
   ⟨gbase .A (fun k => a1 8 { k with streams := k.streams.set 15 (some { desc := parseDesc 0x100000001000000010000004000000000100000000000000000000069 }), oq := k.oq.set 1 [{}] }),
    15, 1, { desc := parseDesc 0x100000001000000010000004000000000100000000000000000000069 }, by decide +kernel⟩,
   ⟨gbase .A (fun k => a1 0x3FFFF1 { k with streams := k.streams.set 15 (some { desc := parseDesc 0x100000001000000010000004000000000000010000000000000040021 }) }),
    15, 1, default, { desc := parseDesc 0x100000001000000010000004000000000000010000000000000040021 },
    (by (try dsimp only); exact ⟨by decide +kernel, by decide +kernel, rfl, by decide +kernel, by decide +kernel, rfl, Or.inl (by decide +kernel), Or.inr (by decide +kernel)⟩)⟩,
   ⟨gbase .A (fun k => a1 0x3FF000 { k with streams := k.streams.set 15 (some { desc := parseDesc 0x100000001000000010000004000000000000010000000000000040021, fps := [9] }) }),
    15, 1, default, { desc := parseDesc 0x100000001000000010000004000000000000010000000000000040021, fps := [9] }, by decide +kernel⟩,
   ⟨gbase .A (fun k => a1 0x3FF000 { k with streams := k.streams.set 15 (some { desc := parseDesc 0x100000001000000010000004000000000000010000000000000040021 }) }),
    15, 1, default, { desc := parseDesc 0x100000001000000010000004000000000000010000000000000040021 }, by decide +kernel⟩,
   ⟨gbase .A (fun k => a1 0x3FF000 { k with streams := k.streams.set 15 (some { desc := parseDesc 0x100000001000000010000004000000000100000000000000000000069 }) }),
    15, { desc := parseDesc 0x100000001000000010000004000000000100000000000000000000069 }, by decide +kernel⟩,
   ⟨gbase .A (fun k => a1 0x3FF000 { k with streams := k.streams.set 15 (some { desc := parseDesc 0x100000001000000010000004000000000000010000000000000040021, re := true }) }),
    15, 1, { desc := parseDesc 0x100000001000000010000004000000000000010000000000000040021, re := true }, [], 0, left_ _,
    (by (try dsimp only); and_intros; all_goals (try first | exact fine_is (by decide +kernel)); all_goals first | decide +kernel | rfl | (intro q h; first | (cases h; rfl) | cases h))⟩,
   ⟨gbase .A (fun k => a1 8 { k with streams := k.streams.set 15 (some { desc := parseDesc 0x100000001000000010000004000000000000010000000000000040021 }) }),
    15, 1, { desc := parseDesc 0x100000001000000010000004000000000000010000000000000040021 }, by decide +kernel⟩⟩

theorem witness_RingWords :
  (∃ (s : State) (n : BitVec 3) (a : BitVec 5) (b : BitVec 5) (q : BitVec 64 × StreamDesc),
    let x := (s.rA a).v
    let y := (s.rA b).v
    let units := (y.extractLsb' 0 16).toNat
    let count := (y.extractLsb' 16 8).toNat
    let ring := s.me.rings[n.toFin]
    s.issues = true ∧ s.bare = true ∧ (s.rA a).p = false ∧ (s.rA b).p = false ∧ y.extractLsb' 24 40 = 0 ∧ (∀ q, ring = some q → q.sub = none) ∧
    1 ≤ count ∧ count ≤ 64 ∧ 1 ≤ units ∧ units ≤ 2048 ∧ x.toNat % 512 = 0 ∧ x.toNat + 512 * units * count ≤ Config.spadBytes) ∧
  (∃ (s : State) (n : BitVec 3) (a : BitVec 5) (b : BitVec 5) (q : BitVec 64 × StreamDesc) (r : SpRing),
    let y := (s.rA b).v
    let count := (y.extractLsb' 16 8).toNat
    let ring := s.me.rings[n.toFin]
    s.issues = true ∧ s.bare = true ∧ (s.rA a).p = false ∧ (s.rA b).p = false ∧ y.extractLsb' 24 40 = 0 ∧ (∀ q, ring = some q → q.sub = none) ∧
    count = 0 ∧ s.me.ringBound n = false ∧ ring = some r) ∧
  (∃ (s : State) (n : BitVec 3) (m : BitVec 1) (a : BitVec 5) (q : BitVec 64 × StreamDesc) (r : SpRing) (ids : _) (t : _),
    let ring := s.me.rings[n.toFin]
    let d := q.2
    s.issues = true ∧ s.bare = true ∧ s.descOf a = some q ∧ ring = some r ∧ r.sub = none ∧ d.subBad (m == 1) = false ∧
    enterPattern d (if m = 1 then (if d.acc then .acc else .w) else .r) (some (if d.acc then .acc else if m = 1 then .write else .read)) true (s.rung.descKept q) = .ok ids t) ∧
  (∃ (s : State) (n : BitVec 3) (a : BitVec 5) (q : BitVec 64 × StreamDesc) (r : SpRing),
    let ring := s.me.rings[n.toFin]
    s.issues = true ∧ s.bare = true ∧ s.descOf a = some q ∧ ring.all (fun r => r.sub.isSome) = true) ∧
  (∃ (s : State) (n : BitVec 3) (m : BitVec 1) (a : BitVec 5) (q : BitVec 64 × StreamDesc) (r : SpRing),
    let ring := s.me.rings[n.toFin]
    s.issues = true ∧ s.bare = true ∧ s.descOf a = some q ∧ ring = some r ∧ r.sub = none ∧ q.2.subBad (m == 1) = true) ∧
  (∃ (s : State) (n : BitVec 3) (r : SpRing) (u : Subscription),
    let ring := s.me.rings[n.toFin]
    s.issues = true ∧ s.bare = true ∧ ring.all (fun r => r.sub.all (fun u => u.passed == r.tiles u) || s.me.ringBound n) = true) ∧
  (∃ (s : State) (n : BitVec 3) (r : SpRing) (u : Subscription),
    let ring := s.me.rings[n.toFin]
    s.issues = true ∧ s.bare = true ∧ ring = some r ∧ r.sub = some u ∧ u.passed ≠ r.tiles u ∧ s.me.ringBound n = false ∧ r.ready u = true ∧
    s.landing s.cur.core .A true (r.slot u.passed) r.size = false) ∧
  (∃ (s : State) (a : BitVec 5) (v : Nat),
    let x := (s.rA a).v
    s.issues = true ∧ s.bare = true ∧ s.unfoldBytes a = some v ∧ unfoldBad (parseUnfold x.toNat v) v = false) :=
  ⟨⟨gbase .A (fun k => a1 0x3E0000 { k with a := k.a.set 2 { v := 0x400004 } }), 7, 1, 2, default, by decide +kernel⟩,
   ⟨gbase .A (fun k => { k with rings := k.rings.set 7 (some { base := 0x2000, size := 512, count := 4 }) }), 7, 1, 2, default,
    { base := 0x2000, size := 512, count := 4 }, by decide +kernel⟩,
   ⟨gbase .A (fun k => desc 0x100000001000000010000004000000000100000000000000000000040 { k with rings := k.rings.set 7 (some { base := 0x2000, size := 512, count := 4 }) }),
    7, 1, 1, (0x400, parseDesc 0x100000001000000010000004000000000100000000000000000000040), { base := 0x2000, size := 512, count := 4 }, _, _,
    by and_intros <;> first | decide +kernel | rfl⟩,
   ⟨gbase .A (desc 0x100000001000000010000004000000000100000000000000000000040), 7, 1,
    (0x400, parseDesc 0x100000001000000010000004000000000100000000000000000000040), { base := 0x2000, size := 512, count := 4 }, by decide +kernel⟩,
   ⟨gbase .A (fun k => desc 0x100000001000000010000004000000000000010000000000000040021 { k with rings := k.rings.set 7 (some { base := 0x2000, size := 512, count := 4 }) }),
    7, 1, 1, (0x400, parseDesc 0x100000001000000010000004000000000000010000000000000040021), { base := 0x2000, size := 512, count := 4 },
    by decide +kernel⟩,
   ⟨base .A, 7, { base := 0x2000, size := 512, count := 4 },
    { desc := parseDesc 0x100000001000000010000004000000000100000000000000000000040, store := false, filled := 1, passed := 0 }, by decide +kernel⟩,
   ⟨gbase .A (fun k => { k with rings := k.rings.set 7 (some { base := 0x2000, size := 512, count := 4, sub := some { desc := parseDesc 0x100000001000000010000004000000000100000000000000000000040, store := false, filled := 1, passed := 0 } }) }),
    7,
    { base := 0x2000, size := 512, count := 4, sub := some { desc := parseDesc 0x100000001000000010000004000000000100000000000000000000040, store := false, filled := 1, passed := 0 } },
    { desc := parseDesc 0x100000001000000010000004000000000100000000000000000000040, store := false, filled := 1, passed := 0 }, by decide +kernel⟩,
   ⟨gbase .A (desc 0x40000000040000000400000000000010000000000000011440), 1, 0x40000000040000000400000000000010000000000000011440, by decide +kernel⟩⟩

theorem witness_DeviceLifecycle :
  (∃ (s : State),
    s.dstate = .off) ∧
  (∃ (s : State),
    s.dstate = .verify) ∧
  (∃ (s : State),
    s.dstate = .selftest ∧ (s.argN 0 = 0 ∨ s.tests (s.argN 0) (s.argN 1) = true)) ∧
  (∃ (s : State),
    s.dstate = .train ∧ (s.argN 0 = 0 ∨ s.trains (s.argN 0) (s.argN 1) = true)) ∧
  (∃ (s : State) (t : Throttle),
    heatOf (s.argN 0) (s.argN 1) = some t ∧ s.dstate ≠ .off ∧ s.throttles.contains t = false ∧ s.argN 0 < 3) ∧
  (∃ (s : State) (t : Throttle),
    heatOf (s.argN 0) (s.argN 1) = some t ∧ s.dstate ≠ .off ∧ s.throttles.contains t = false ∧ 3 ≤ s.argN 0) ∧
  (∃ (s : State) (t : Throttle),
    heatOf (s.argN 0) (s.argN 1) = some t ∧ s.throttles.contains t = true) ∧
  (∃ (s : State),
    s.dstate ≠ .off ∧ s.allDead = true) ∧
  (∃ (s : State),
    (s.dstate = .ready ∨ s.dstate = .safe) ∧ s.allDead = true) ∧
  (∃ (s : State) (w : Nat) (o : Nat) (n : Nat) (v : Nat),
    s.cur.args.n = [w, o, n, v] ∧ w = 0 ∧ s.dstate ≠ .off ∧ 8 ≤ o) ∧
  (∃ (s : State) (w : Nat) (o : Nat) (n : Nat) (v : Nat),
    s.cur.args.n = [w, o, n, v] ∧ w ≠ 0 ∧ (o < 4096 ∨ 0x100000 ≤ o ∨ 0x20 ≤ o % 4096)) :=
  ⟨⟨ev [15] (dev .off), by decide +kernel⟩,
   ⟨{ dev .verify with bankNew := true }, by decide +kernel⟩,
   ⟨ev [0] (dev .selftest), by decide +kernel⟩,
   ⟨ev [1, 7, 9] (dev .train), by decide +kernel⟩,
   ⟨ev [2, 0] (dev .ready), .hub, by decide +kernel⟩,
   ⟨ev [4, 0] (dev .safe), .package, by decide +kernel⟩,
   ⟨ev [0, 2] { dev .verify with throttles := [.die 2] }, .die 2, by decide +kernel⟩,
   ⟨ev [0] (dev .train), by decide +kernel⟩,
   ⟨{ dev .safe with ctxs := [(255, { state := .dead })] }, by decide +kernel⟩,
   ⟨ev [0, 8, 8, 77] (dev .ready), 0, 8, 8, 77, by decide +kernel⟩,
   ⟨ev [1, 0x20, 4, 77] (dev .off), 1, 0x20, 4, 77, by decide +kernel⟩⟩

theorem witness_MailboxDevice :
  (∃ (s : State),
    s.dstate ≠ .off ∧ s.dstate = .ready) ∧
  (∃ (s : State),
    s.dstate ≠ .off ∧ s.argN 2 < 2 ^ 16 ∧ commandCodes.contains (s.argN 2) = false) ∧
  (∃ (s : State),
    s.dstate ≠ .off ∧ s.dstate ≠ .ready ∧ s.dstate ≠ .safe) ∧
  (∃ (s : State) (i : Instr),
    s.dstate ≠ .off ∧ s.dstate ≠ .ready ∧
    [Instr.create, .load, .reload, .suspend, .resume, .destroy, .debug, .mailboxTlbi, .keyload, .keygrant, .keyrevoke, .pstat, .pfence, .punfence, .rtload, .rtuse, .arbcommit].contains i = true) :=
  ⟨⟨ev [1] (dev .ready), by decide +kernel⟩,
   ⟨ev [0, 0, 0xFFFF] (dev .verify), by decide +kernel⟩,
   ⟨dev .train, by decide +kernel⟩,
   ⟨dev .selftest, .arbcommit, by decide +kernel⟩⟩

theorem witness_MailboxContexts :
  (∃ (s : State),
    let t := s.argN 0 % 2 ^ 16
    let st := s.ctxState t
    let v := leNat (s.cur.args.bytes.take 64)
    let len := s.mbox.len.toNat
    s.dstate = .ready ∧ 1 ≤ s.argN 0 % 2 ^ 16 ∧ s.argN 0 % 2 ^ 16 ≤ 255 ∧ st = .dead ∧ len = 64 ∧ descBad t v = none) ∧
  (∃ (s : State) (u : State) (vs : List Nat),
    let t := s.argN 0 % 2 ^ 16
    let n := BitVec.ofNat 8 t
    let c := s.ctx n
    let st := s.ctxState t
    let read := fun (op : BitVec 16) => readRcbs n c.rtab c.rcount 0 (s.asked op)
    s.dstate = .ready ∧ 1 ≤ s.argN 0 % 2 ^ 16 ∧ s.argN 0 % 2 ^ 16 ≤ 255 ∧ st = .new ∧ read 0x03 = .ok (.ok vs) u ∧ tableBad vs = none) ∧
  (∃ (s : State) (u : State) (vs : List Nat),
    let t := s.argN 0 % 2 ^ 16
    let n := BitVec.ofNat 8 t
    let c := s.ctx n
    let st := s.ctxState t
    let read := fun (op : BitVec 16) => readRcbs n c.rtab c.rcount 0 (s.asked op)
    s.dstate = .ready ∧ 1 ≤ s.argN 0 % 2 ^ 16 ∧ s.argN 0 % 2 ^ 16 ≤ 255 ∧
    [CtxState.loaded, .runnable, .running, .preempting, .saved].contains st = true ∧ read 0x04 = .ok (.ok vs) u ∧ tableBad vs = none ∧
    u.noneQueued = true) ∧
  (∃ (s : State),
    let t := s.argN 0 % 2 ^ 16
    let st := s.ctxState t
    s.dstate = .ready ∧ 1 ≤ s.argN 0 % 2 ^ 16 ∧ s.argN 0 % 2 ^ 16 ≤ 255 ∧ (st = .runnable ∨ st = .running) ∧ s.noneQueued = true) ∧
  (∃ (s : State),
    let t := s.argN 0 % 2 ^ 16
    let st := s.ctxState t
    s.dstate = .ready ∧ 1 ≤ s.argN 0 % 2 ^ 16 ∧ s.argN 0 % 2 ^ 16 ≤ 255 ∧ st = .saved ∧ s.noneQueued = true) ∧
  (∃ (s : State),
    let t := s.argN 0 % 2 ^ 16
    let n := BitVec.ofNat 8 t
    let st := s.ctxState t
    s.dstate = .ready ∧ 1 ≤ s.argN 0 % 2 ^ 16 ∧ s.argN 0 % 2 ^ 16 ≤ 255 ∧ (st = .new ∨ st = .loaded ∨ st = .saved) ∧ s.bareCtx n = true ∧
    s.noneQueued = true) ∧
  (∃ (s : State) (b : Nat),
    let t := s.argN 0 % 2 ^ 16
    let n := BitVec.ofNat 8 t
    let st := s.ctxState t
    s.dstate = .ready ∧ 1 ≤ s.argN 0 % 2 ^ 16 ∧ s.argN 0 % 2 ^ 16 ≤ 255 ∧ (st = .new ∨ st = .loaded ∨ st = .saved) ∧ s.bareCtx n = true ∧
    s.noneQueued = true ∧ b < 96 ∧ (s.core b).lastCtx = n) ∧
  (∃ (s : State) (u : State) (w : BitVec 64),
    let t := s.argN 0 % 2 ^ 16
    let n := BitVec.ofNat 8 t
    let st := s.ctxState t
    let d := leNat (s.cur.args.bytes.take 32)
    let len := s.mbox.len.toNat
    s.dstate = .ready ∧ 1 ≤ s.argN 0 % 2 ^ 16 ∧ s.argN 0 % 2 ^ 16 ≤ 255 ∧ st ≠ .dead ∧ len = 32 ∧
    hubRead64 n (fieldOf d 0 63 0 + 0x10) (s.asked 0x08) = .ok (.ok w) u ∧ fieldOf d 8 63 32 = 0 ∧ fieldOf d 8 31 0 < w.toNat % 2 ^ 32) ∧
  (∃ (s : State),
    let t := s.argN 0 % 2 ^ 16
    let n := BitVec.ofNat 8 t
    let st := s.ctxState t
    let a := s.mbox.arg
    let len := s.mbox.len.toNat
    let hit := fun (a' n' : Nat) => len == 0 || overlaps a.toNat len a' n'
    s.dstate = .ready ∧ 1 ≤ s.argN 0 % 2 ^ 16 ∧ s.argN 0 % 2 ^ 16 ≤ 255 ∧ st ≠ .dead ∧ a.toNat < 2 ^ 56 ∧ (len = 0 ∨ a.toNat + len ≤ 2 ^ 56) ∧
    s.flights.all (fun f => !((s.core f.core).lastCtx == n && !f.sp && !f.rel && !f.pends && hit f.va f.len)) = true) :=
  ⟨⟨ev [255] (mb 0 64 (dev .ready)) (leBytes 8 255 ++ leBytes 8 0x10000 ++ leBytes 8 0x40 ++ leBytes 8 2 ++ leBytes 8 0x1000 ++ leBytes 24 0),
    by decide +kernel⟩,
   ⟨ev [7] (cx7 .new), _, _, by and_intros <;> first | decide +kernel | rfl⟩,
   ⟨ev [7] (cx7 .saved), _, _, by and_intros <;> first | decide +kernel | rfl⟩,
   ⟨ev [7] (cx7 .runnable), by decide +kernel⟩,
   ⟨ev [7] (cx7 .saved), by decide +kernel⟩,
   ⟨ev [7] (cx7 .loaded), by decide +kernel⟩,
   ⟨ev [7] ((cx7 .loaded).onCore 95 (fun k => { k with lastCtx := 7 })), 95, by decide +kernel⟩,
   ⟨ev [7] (mb 0 32 (cx7 .loaded)) (leBytes 8 0x10100 ++ leBytes 8 3 ++ leBytes 8 3 ++ leBytes 8 77), _, _,
    by and_intros <;> first | decide +kernel | rfl⟩,
   ⟨ev [7] (mb 0xFFFFFFFFFFFFFF 1 (cx7 .preempting)), by decide +kernel⟩⟩

theorem witness_MailboxKeysAndLinks :
  (∃ (s : State),
    let t := s.argN 0 % 2 ^ 16
    s.dstate = .ready ∧ 1 ≤ t ∧ t ≤ 255 ∧ s.argN 2 ≠ 0) ∧
  (∃ (s : State),
    let t := s.argN 0 % 2 ^ 16
    s.dstate = .ready ∧ 1 ≤ t ∧ t ≤ 255 ∧ s.argN 2 = 0) ∧
  (∃ (s : State),
    let t := s.argN 0 % 2 ^ 16
    let a := s.mbox.arg
    s.dstate = .ready ∧ 1 ≤ t ∧ t ≤ 255 ∧ a ≠ 0 ∧ a.toNat ≤ 255) ∧
  (∃ (s : State),
    let t := s.argN 0 % 2 ^ 16
    let k := (lookup t s.keys).getD {}
    s.dstate = .ready ∧ 1 ≤ t ∧ t ≤ 255 ∧ k.grants.all (fun n => s.ctxState n.toNat == .dead) = true) ∧
  (∃ (s : State),
    let t := s.argN 0 % 2 ^ 16
    let a := s.mbox.arg
    let x := s.port t
    s.dstate = .ready ∧ s.ports.toList.all (fun x => x.st == .down || x.st == .training) = true ∧ a.toNat ≤ 32767) ∧
  (∃ (s : State),
    let t := s.argN 0 % 2 ^ 16
    let x := s.port t
    s.dstate = .ready ∧ t < 16 ∧ (x.carries = true ∨ x.st = .retraining)) ∧
  (∃ (s : State),
    let t := s.argN 0 % 2 ^ 16
    let x := s.port t
    s.dstate = .ready ∧ t < 16 ∧ x.st = .fenced) ∧
  (∃ (s : State),
    let t := s.argN 0 % 2 ^ 16
    let x := s.port t
    s.dstate = .ready ∧ t < 16 ∧ x.st = .down ∧ x.clash = false ∧ s.pkgid.isSome = true) ∧
  (∃ (s : State),
    let r := routesFrom 0 (s.cur.args.bytes.take routeBytes)
    s.dstate = .ready ∧ s.mbox.len.toNat = routeBytes ∧ s.routes.any (fun y => y.1 + 1 == s.rgen) = false ∧
    r.all (fun e => e.2.extractLsb' 10 6 == 0 && !(some e.1 == s.pkgid && e.2.getLsbD 8)) = true) ∧
  (∃ (s : State),
    let g := s.rgen + 1
    s.dstate = .ready ∧ s.routes.any (fun y => y.1 == g) = true) :=
  ⟨⟨ev [255, 0, 1] (dev .ready), by decide +kernel⟩,
   ⟨ev [1, 0, 0] (dev .ready), by decide +kernel⟩,
   ⟨ev [255] (mb 255 0 (dev .ready)), by decide +kernel⟩,
   ⟨ev [7] { dev .ready with keys := [(7, { grants := [3], loaded := true, load := 2 })] }, by decide +kernel⟩,
   ⟨ev [5] (mb 0x7FFF 0 (port5 .training)), by decide +kernel⟩,
   ⟨ev [5] (mb 0x7FFF 0 (port5 .retraining)), by decide +kernel⟩,
   ⟨ev [5] (mb 0x7FFF 0 (port5 .fenced)), by decide +kernel⟩,
   ⟨ev [5] (mb 0x7FFF 0 (port5 .down)), by decide +kernel⟩,
   ⟨ev [0] (mb 0 65536 (dev .ready)) [3, 0, 4, 0], by decide +kernel⟩,
   ⟨ev [] { dev .ready with routes := [(1, [(3, 4)])] }, by decide +kernel⟩⟩

theorem witness_DispatchDecisions :
  (∃ (s : State),
    s.noneQueued = true) ∧
  (∃ (s : State) (id : Nat) (h : HubCard),
    s.hub.filter (fun x => x.2.st == .queued && (s.ctx x.2.ctx).dispatches) = [(id, h)] ∧ s.hubCard id = some h ∧
    s.hub.all (fun x => x.2.st != .queued || x.2.late) = true ∧ s.gangs.all (fun g => (s.ctx g.2.ctx).state != .preempting) = true ∧ h.node = none ∧
    s.storeWaiters = [] ∧ h.card.op ≠ opKLAUNCH ∧
    (h.card.onEngine = true → (s.hub.filter (fun x => x.2.st == .running && x.2.card.onEngine)).length < 16)) ∧
  (∃ (s : State) (id : Nat) (h : HubCard),
    let n := h.card.ext0.toNat
    s.hub.filter (fun x => x.2.st == .queued && (s.ctx x.2.ctx).dispatches) = [(id, h)] ∧ s.hubCard id = some h ∧
    s.hub.all (fun x => x.2.st != .queued || x.2.late) = true ∧ s.gangs.all (fun g => (s.ctx g.2.ctx).state != .preempting) = true ∧ h.node = none ∧
    s.storeWaiters = [] ∧ h.card.op = opKLAUNCH ∧ h.gang = none ∧ n ≤ s.freeCores.length ∧ s.overBudget h.ctx h.region h.card = false ∧
    s.coresFit h.ctx h.region n = true) :=
  ⟨⟨State.reset, by decide +kernel⟩,
   ⟨ks (kg .running) (hc 1) {}, 44, (hc 1), by decide +kernel⟩,
   ⟨{ ks (kg .running) (hc 9 94) {} with gangNext := 4 }, 44, (hc 9 94), by decide +kernel⟩⟩

theorem witness_KernelStart :
  (∃ (s : State) (k : Gang),
    let g := s.argN 0
    let s' := (s.does (releaseFps k.fps)).onGang g (fun k => { k with state := .running, fps := [] })
    s.gang (s.argN 0) = some k ∧ (s.ctx k.ctx).eff 10 (fun r => r.quantum.toNat) k.region.toNat ≠ 0 ∧ k.cores ≠ [] ∧ s.noneQueued = true) ∧
  (∃ (s : State) (z : State) (u : State) (v : State) (w : State) (k : Gang) (h : HubCard) (y : HubCard) (ids : List Nat) (b : List Byte) (d : List Byte),
    let g := s.argN 0
    let live := (s.ctx k.ctx).serves
    let u' := u.onGang g (fun k => { k with fps := ids })
    let s' := (s.does (releaseFps k.fps)).onGang g (fun k => { k with state := .running, fps := [] })
    s.gang (s.argN 0) = some k ∧ k.state = .loading ∧ live = true ∧ s.hubCard k.card = some h ∧ h.fault = none ∧ k.causes = [] ∧ h.moved = false ∧
    startHub k.card s = .ok () z ∧ z.hubCard k.card = some y ∧ y.entered = true ∧ y.fault = none ∧
    enterFps (.owner (.gang g)) (.gang g) k.ctx k.region.toNat k.ranges true z = .ok (.entered ids) u ∧
    hubRead k.ctx k.textVa (4 * k.textLen) .text u' = .ok (.ok b) v ∧ hubRead k.ctx k.winVa k.winLen .read v = .ok (.ok d) w) ∧
  (∃ (s : State) (k : Gang) (h : HubCard),
    let g := s.argN 0
    let live := (s.ctx k.ctx).serves
    let s' := (s.does (releaseFps k.fps)).onGang g (fun k => { k with state := .running, fps := [] })
    s.gang (s.argN 0) = some k ∧ k.state = .loading ∧ live = true ∧ s.hubCard k.card = some h ∧ h.fault = none ∧ k.causes = [] ∧ h.moved = true ∧
    k.cancel = false) :=
  ⟨⟨ev [1] (ks (kg .running) { hc 9 2 with st := .running } {}), (kg .running), by decide +kernel⟩,
   ⟨ev [1] (ks (kg .loading) (hc 9 2) { mode := .loading }), left_ _, left_ _, left_ _, left_ _, (kg .loading), (hc 9 2), _, [6, 7], got [] _,
    got [] _,
    (by (try dsimp only); (iterate 7 refine ⟨by decide +kernel, ?_⟩); exact ⟨fine_ok (by decide +kernel), rfl, by decide +kernel, by decide +kernel, fine_is (by decide +kernel), went_got [] (by decide +kernel), went_got [] (by decide +kernel)⟩)⟩,
   ⟨ev [1] (ks (kg .loading) { hc 9 2 with moved := true } { mode := .loading }), (kg .loading), { hc 9 2 with moved := true }, by decide +kernel⟩⟩

theorem witness_KernelStops :
  (∃ (s : State) (g : Nat) (c : Nat) (k : Gang) (h : HubCard),
    let live := (s.ctx k.ctx).serves
    s.gang g = some k ∧ live = true ∧ s.argN 0 = g ∧ k.cancel = true ∧ k.state = .stopping ∧ s.gangAtRest g k = true ∧
    (s.gangCores g).all (fun c => (s.core c).causes.isEmpty && (s.core c).cards.isEmpty) = true ∧ k.firstCore = none ∧ s.hubCard k.card = some h ∧
    h.node = none ∧ h.card.crec = 0 ∧ s.noneQueued = true) ∧
  (∃ (s : State) (u : State) (v : State) (w : State) (g : Nat) (c : Nat) (n : Nat) (k : Gang) (strm : List Byte),
    let x := s.core c
    let live := (s.ctx k.ctx).serves
    let r := x.gangRank.toNat
    let other := (List.range k.size).any (fun i => i != r && !k.endedRanks.contains i && !k.savedAt.any (fun y => y.1 == i) &&
      k.cores.getD i 0 != c && (s.core (k.cores.getD i 0)).mode != .ended)
    let a := s.atCore c .S
    let pc := x.engS.pc
    let map := x.liveAt pc
    s.gang g = some k ∧ live = true ∧ s.argN 0 = c ∧ c < 96 ∧ x.gang = some g ∧ other = true ∧ x.mode = .saving ∧ x.stopReq = false ∧
    k.cancel = false ∧ s.coreQuiet c = true ∧ x.liveBad map = false ∧ x.livePoison map = false ∧ takeSlot k.ctx a = .ok n u ∧
    anyBytes 16384 (u.does (writeBackAll (fun d => d.owner == some c))) = .ok strm v ∧
    writeSections (hubPath k.ctx) (v.slotAt k.ctx n) ((0, headBytes 0 0 (pc + 3) map) :: x.sections map (x.spTable map) (x.liveSpans map) strm) v = .ok (.ok ()) w) ∧
  (∃ (s : State) (w : State) (g : Nat) (c : Nat) (k : Gang),
    let x := s.core c
    let live := (s.ctx k.ctx).serves
    let r := x.gangRank.toNat
    let other := (List.range k.size).any (fun i => i != r && !k.endedRanks.contains i && !k.savedAt.any (fun y => y.1 == i) &&
      k.cores.getD i 0 != c && (s.core (k.cores.getD i 0)).mode != .ended)
    s.gang g = some k ∧ live = true ∧ s.argN 0 = c ∧ c < 96 ∧ x.gang = some g ∧ other = true ∧ x.mode = .running ∧ x.stopReq = false ∧
    k.preq = false ∧ engines.all (fun e => (x.eng e).ended) = true ∧ s.coreQuiet c = true ∧
    s.walks.all (fun w => !(w.2.semen && w.2.gang == some (g, r))) = true) ∧
  (∃ (s : State) (u : State) (g : Nat) (k : Gang) (l : List (Nat × Core)),
    let live := (s.ctx k.ctx).serves
    s.gang g = some k ∧ live = true ∧ s.argN 0 = g ∧ k.state = .restoring ∧ k.cancel = false ∧ loadRanks g k (List.range k.size) s = .ok (.ok l) u) ∧
  (∃ (s : State) (g : Nat) (c : Nat) (k : Gang),
    let x := s.core c
    let live := (s.ctx k.ctx).serves
    s.gang g = some k ∧ live = true ∧ s.argN 0 = c ∧ c < 96 ∧ x.gang = some g ∧ x.works = true ∧
    (x.stopReq = false ∨ (x.forced = false ∧ x.cards.any (fun y => y.st == .running && x.stuck y) = true)) ∧ s.argN 1 = 0) ∧
  (∃ (s : State) (g : Nat) (c : Nat) (k : Gang),
    let x := s.core c
    let live := (s.ctx k.ctx).serves
    s.gang g = some k ∧ live = true ∧ s.argN 0 = c ∧ c < 96 ∧ x.gang = some g ∧ x.works = true ∧
    (x.stopReq = false ∨ (x.forced = false ∧ x.cards.any (fun y => y.st == .running && x.stuck y) = true)) ∧ s.argN 1 ≠ 0) ∧
  (∃ (s : State) (g : Nat) (c : Nat) (k : Gang),
    let x := s.core c
    let live := (s.ctx k.ctx).serves
    s.gang g = some k ∧ s.argN 0 = c ∧ c < 96 ∧ x.gang = some g ∧ x.works = true ∧ x.atRest false = false ∧
    (x.forced = true ∨ (s.ctx k.ctx).state = .dumping) ∧ live = true) ∧
  (∃ (s : State) (g : Nat) (c : Nat) (k : Gang),
    let x := s.core c
    let live := (s.ctx k.ctx).serves
    s.gang g = some k ∧ s.argN 0 = c ∧ c < 96 ∧ x.gang = some g ∧ x.works = true ∧ x.atRest false = false ∧
    (x.forced = true ∨ (s.ctx k.ctx).state = .dumping) ∧ live = false) ∧
  (∃ (s : State) (w : State) (g : Nat) (k : Gang) (h : HubCard),
    let m := BitVec.ofNat 8 (s.argN 0)
    s.gang g = some k ∧ (s.ctx m).state = .preempting ∧ s.holds m = false ∧ s.walks.all (fun w => w.2.ctx != m) = true ∧
    s.gangs.all (fun g => !(g.2.ctx == m && g.2.state == .loading)) = true ∧
    s.hub.all (fun h => !(h.2.ctx == m && h.2.st == .running && (h.2.card.onEngine || h.2.card.op == opWALKJ))) = true) ∧
  (∃ (s : State) (g : Nat) (k : Gang),
    let m := BitVec.ofNat 8 (s.argN 0)
    s.gang g = some k ∧ (s.ctx m).state = .dumping ∧ (s.ctx m).dumplen = 0 ∧ s.bareCtx m = true ∧ s.noneQueued = true ∧ s.ctxStopped m = true) :=
  ⟨⟨let s := ev [1] (ks { kg .stopping with cancel := true } { hc 9 2 with st := .running } (({} : Core).stopAll)); { s with cores := s.cores.set 5 { gang := some 1, lastCtx := 7, mode := .ended, gangRank := 1 } },
    1, 3, { kg .stopping with cancel := true }, { hc 9 2 with st := .running }, by decide +kernel⟩,
   ⟨ev [3] (ks (kg .running) { hc 9 2 with st := .running } ({ mode := .saving })), saving 1, saving 16385, left_ _, 1, 3, 0, (kg .running),
    (List.range 16384).map (fun i => Config.freeByte (1 + i)),
    (by (try dsimp only); and_intros; all_goals (try first | exact went_ok (by decide +kernel) | exact takeSlot_one (by decide +kernel)); all_goals first | decide +kernel | rfl | (intro q h; first | (cases h; rfl) | cases h))⟩,
   ⟨ev [3] (ks (kg .running) { hc 9 2 with st := .running } (endAll { mode := .running })), State.reset, 1, 3, (kg .running), by decide +kernel⟩,
   ⟨ev [1] (ks { kg .restoring with savedAt := [(0, 2)], endedRanks := [1] } { hc 9 2 with st := .running } ({})), left_ _, 1,
    { kg .restoring with savedAt := [(0, 2)], endedRanks := [1] }, got [] _,
    (by (try dsimp only); and_intros; all_goals (try first | exact went_got [] (by decide +kernel)); all_goals first | decide +kernel | rfl | (intro q h; first | (cases h; rfl) | cases h))⟩,
   ⟨ev [3] (ks (kg .running) { hc 9 2 with st := .running } ({ mode := .running })), 1, 3, (kg .running), by decide +kernel⟩,
   ⟨ev [3, 1] (ks (kg .running) { hc 9 2 with st := .running } ({ mode := .running })), 1, 3, (kg .running), by decide +kernel⟩,
   ⟨ev [3] (ks (kg .running) { hc 9 2 with st := .running } ({ mode := .running, forced := true })), 1, 3, (kg .running), by decide +kernel⟩,
   ⟨let s := ev [3] (ks (kg .running) { hc 9 2 with st := .running } ({ mode := .running })); { s with ctxs := [(7, { state := .dumping })] }, 1, 3,
    (kg .running), by decide +kernel⟩,
   ⟨let s := ev [9] (ks (kg .running) { hc 9 2 with st := .running } ({})); { s with gangs := [(1, kg .running)] }, State.reset, 1, (kg .running),
    { hc 9 2 with st := .running }, by decide +kernel⟩,
   ⟨let s := ev [9] (ks (kg .running) { hc 9 2 with st := .running } ({})); { s with ctxs := [(7, { state := .running }), (9, { state := .dumping, causes := [default] })] },
    1, (kg .running), by decide +kernel⟩⟩

theorem witness_UnitEvents :
  (∃ (s : State) (c : Nat) (i : Nat) (q : SemInc),
    let k := s.core c
    s.argN 0 = 0 ∧ s.argN 1 = c ∧ s.argN 2 = i ∧ c < 96 ∧ k.gang ≠ none ∧ k.semIncs[i]? = some q ∧ k.incReady i q = true ∧ s.sourceDone c q = true) ∧
  (∃ (s : State) (c : Nat) (i : Nat) (e : Engine) (r : Resv),
    let k := s.core c
    let t := k.eng e
    s.argN 0 = c ∧ s.argN 1 = e.code ∧ s.argN 2 = i ∧ c < 96 ∧ t.resv[i]? = some r ∧ k.tokensStand = false ∧ k.wordComplete e r.slot = true ∧
    s.storesLanded c e r.slot = true) ∧
  (∃ (s : State) (f : Flight),
    s.flights[s.argN 0]? = some f ∧ f.store = none ∧ f.late = none) ∧
  (∃ (s : State) (u : State) (f : Flight) (a : Late) (old : List Byte),
    let free := (s.core f.core).forced = true ∨ (s.core f.core).cardsHold [{ sp := f.sp, lo := f.va, len := f.len, mode := f.mode }] = false
    s.flights[s.argN 0]? = some f ∧ f.store = none ∧ f.late = some a ∧ free ∧ lateBytes f a s = .ok (.ok old) u) ∧
  (∃ (s : State) (f : Flight) (bs : _),
    let free := (s.core f.core).forced = true ∨ (s.core f.core).cardsHold [{ sp := f.sp, lo := f.va, len := f.len, mode := f.mode }] = false
    s.flights[s.argN 0]? = some f ∧ f.store = some bs ∧ free ∧ f.sp = true) ∧
  (∃ (s : State) (u : State) (f : Flight) (bs : _),
    let free := (s.core f.core).forced = true ∨ (s.core f.core).cardsHold [{ sp := f.sp, lo := f.va, len := f.len, mode := f.mode }] = false
    s.flights[s.argN 0]? = some f ∧ f.store = some bs ∧ free ∧ f.sp = false ∧ writeMem (s.pathOf f.core f.eng) f.va bs s = .ok (.ok ()) u) ∧
  (∃ (s : State) (w : FpWaiter),
    s.fpWait[s.argN 0]? = some w) ∧
  (∃ (s : State) (u : State) (x : WalkReq) (z : Bad),
    s.walkReqs[s.argN 0]? = some x ∧ s.walkRuns (s.argN 0) x = true ∧ walkVa x.ctx x.va s = .ok (.error z) u) ∧
  (∃ (s : State) (u : State) (x : WalkReq) (l : Leaf),
    s.walkReqs[s.argN 0]? = some x ∧ s.walkRuns (s.argN 0) x = true ∧ walkVa x.ctx x.va s = .ok (.ok l) u) :=
  ⟨⟨ev [0, 95, 0] (State.reset.setCore 95 { gang := some 1, lastCtx := 7, sem := Vector.ofFn (fun i => BitVec.ofNat 16 i.val), semIncs := [{ src := .hub, sem := 15, count := 5 }] }),
    95, 0, { src := .hub, sem := 15, count := 5 }, by decide +kernel⟩,
   ⟨ev [95, Engine.M.code, 0] (State.reset.setCore 95 (({} : Core).setEng .M { slot := 9, resv := [{ slot := 8, ahead := true }] })), 95, 0, .M,
    { slot := 8, ahead := true }, by decide +kernel⟩,
   ⟨ev [0] { State.reset with flights := [{ core := 3, eng := .S, slot := 0, fp := some 5, va := 0, len := 8, mode := .w, seq := 0 }] }, _,
    by and_intros <;> first | decide +kernel | rfl⟩,
   ⟨{ ev [0] (cw .S {}) with flights := [{ core := 3, eng := .S, slot := 0, fp := some 5, va := 0x80, len := 8, mode := .r, seq := 0, late := some (.load (.s 1) false) }] },
    left_ _, _, _, got [] _, (by (try dsimp only); exact ⟨rfl, rfl, rfl, by decide +kernel, went_got [] (by decide +kernel)⟩)⟩,
   ⟨ev [0] { State.reset with flights := [{ core := 95, eng := .A, slot := 0, fp := none, va := 0x3FFFF8, len := 8, mode := .w, seq := 0, sp := true, store := some [1, 2, 3, 4, 5, 6, 7, 8] }] },
    _, [1, 2, 3, 4, 5, 6, 7, 8], by and_intros <;> first | decide +kernel | rfl⟩,
   ⟨{ ev [0] (cw .S {}) with flights := [{ core := 3, eng := .S, slot := 0, fp := some 5, va := 0x80, len := 8, mode := .w, seq := 0, store := some [1, 2, 3, 4, 5, 6, 7, 8] }] },
    left_ _, _, [1, 2, 3, 4, 5, 6, 7, 8], (by (try dsimp only); exact ⟨rfl, rfl, by decide +kernel, rfl, went_ok (by decide +kernel)⟩)⟩,
   ⟨ev [0] { State.reset with fpWait := [{ who := .eng 3 .S, ctx := 7, region := 0, count := 1 }] }, _, by and_intros <;> first | decide +kernel | rfl⟩,
   ⟨ev [0] { State.reset with walkReqs := [{ ctx := 7, va := 0x30100, acc := .read, who := .owner (.hub 3) }], ctxs := [(7, { ptroot := 0x1000 })] },
    _, _, _, by and_intros <;> first | decide +kernel | rfl⟩,
   ⟨ev [0] { State.reset with walkReqs := [{ ctx := 7, va := 0x10000, acc := .read, who := .eng 3 .S }], ctxs := [(7, { ptroot := 0x1000 })], mem := tables },
    _, _, _, by and_intros <;> first | decide +kernel | rfl⟩⟩

theorem witness_CardWords :
  (∃ (s : State) (t : State) (d : BitVec 4) (a : BitVec 4) (ids : List Nat) (b : List Byte) (i : _),
    let k := s.rung.me
    let va := (s.rX a).v.toNat
    let card := parseCard va b
    s.issues = true ∧ s.bare = true ∧ (s.rX a).p = false ∧ k.liveCards < 16 ∧ card.checkX = none ∧ card.region.toNat < (s.ctx k.lastCtx).rcount ∧
    (s.ctx k.lastCtx).inSubtree k.region.toNat card.region.toNat = true ∧ k.cardRead = some b ∧ enterWord card.ranges false s.rung = .ok (.ok ids) t ∧
    i ∈ [Instr.xjob d a, .xjobg d a]) ∧
  (∃ (s : State) (t : State) (a : BitVec 4) (ids : List Nat) (b : List Byte),
    let k := s.rung.me
    let va := (s.rX a).v.toNat
    let card := parseCard va b
    let keeps := fun (s' : State) => s'.onMe (fun k => { k with cardRead := some b })
    s.issues = true ∧ s.bare = true ∧ (s.rX a).p = false ∧ k.liveCards < 16 ∧ card.checkX = none ∧ card.region.toNat < (s.ctx k.lastCtx).rcount ∧
    (s.ctx k.lastCtx).inSubtree k.region.toNat card.region.toNat = true ∧ k.cardRead = none ∧ va + 128 ≤ Config.spadBytes ∧ b = k.spad.slice va 128 ∧
    enterWord card.ranges false (keeps s.rung) = .ok (.ok ids) t) ∧
  (∃ (s : State) (t : State) (u : State) (v : State) (w : State) (a : BitVec 4) (ids : List Nat) (rids : List Nat) (b : List Byte) (z : TlbEntry),
    let c := s.cur.core
    let k := s.rung.me
    let va := (s.rX a).v.toNat
    let card := parseCard va b
    let keeps := fun (s' : State) => s'.onMe (fun k => { k with cardRead := some b })
    let own : Range := { sp := false, lo := va, len := 128, mode := .r }
    s.issues = true ∧ s.bare = true ∧ (s.rX a).p = false ∧ k.liveCards < 16 ∧ card.checkX = none ∧ card.region.toNat < (s.ctx k.lastCtx).rcount ∧
    (s.ctx k.lastCtx).inSubtree k.region.toNat card.region.toNat = true ∧ k.cardRead = none ∧ va % 128 = 0 ∧ va < 2 ^ 56 ∧
    s.tlb.filter (fun y => y.covers (.eng c .X) k.lastCtx va) = [z] ∧ s.leafProt k.lastCtx z.leaf .read = false ∧ k.blocked [own] = false ∧
    (if z.leaf.free then rids = [] ∧ u = s.rung else enterWord [own] z.leaf.cp s.rung = .ok (.ok rids) u) ∧
    readMem (u.pathOf c .X) va 128 .read u = .ok (.ok b) v ∧ v.does (releaseFps rids) = w ∧ w.ctx k.lastCtx = s.ctx k.lastCtx ∧ w.pins = s.pins ∧
    w.groups = s.groups ∧ w.cur = s.cur ∧ w.core c = k ∧ enterWord card.ranges false (keeps w) = .ok (.ok ids) t) ∧
  (∃ (s : State) (d : BitVec 4) (a : BitVec 4) (b : List Byte) (e : _) (i : _),
    let k := s.rung.me
    let va := (s.rX a).v.toNat
    let card := parseCard va b
    s.issues = true ∧ s.bare = true ∧ (s.rX a).p = false ∧ k.liveCards < 16 ∧ k.cardRead = some b ∧ card.checkX = some e ∧
    i ∈ [Instr.xjob d a, .xjobg d a]) ∧
  (∃ (s : State) (a : BitVec 4),
    let k := s.rung.me
    let va := (s.rX a).v.toNat
    s.issues = true ∧ s.bare = true ∧ (s.rX a).p = false ∧ k.liveCards < 16 ∧ k.cardRead = none ∧ Config.spadBytes < va + 128) ∧
  (∃ (s : State) (a : BitVec 4),
    let k := s.rung.me
    let va := (s.rX a).v.toNat
    s.issues = true ∧ s.bare = true ∧ (s.rX a).p = false ∧ k.liveCards < 16 ∧ k.cardRead = none ∧ 2 ^ 56 ≤ va) ∧
  (∃ (s : State) (a : BitVec 4) (x : XCard),
    let k := s.rung.me
    let va := (s.rX a).v.toNat
    let n := va % 65536
    s.issues = true ∧ s.bare = true ∧ (s.rX a).p = false ∧ k.issued n = some x) ∧
  (∃ (s : State) (a : BitVec 4),
    let k := s.rung.me
    let va := (s.rX a).v.toNat
    let n := va % 65536
    s.issues = true ∧ s.bare = true ∧ (s.rX a).p = false ∧ k.issued n = none) ∧
  (∃ (s : State) (d : BitVec 4) (a : BitVec 4) (i : _),
    s.issues = true ∧ s.bare = true ∧ (s.rX a).p = true ∧ i ∈ [Instr.xjob d a, .xjobg d a, .xcancel d a, .xstat d a]) :=
  ⟨⟨cw .X { x := State.reset.me.x.set 1 { v := 0x3FFF80 }, cardRead := some (cb 10) }, left_ _, 15, 1, got [] _, (cb 10), .xjobg 15 1,
    (by (try dsimp only); and_intros; all_goals (try first | exact went_got [] (by decide +kernel)); all_goals first | decide +kernel | rfl | (intro q h; first | (cases h; rfl) | cases h))⟩,
   ⟨cw .X { x := State.reset.me.x.set 1 { v := 0x3FFF80 }, spad := Bytes.splice [] 0x3FFF80 (cb 10) }, left_ _, 1, got [] _, (cb 10),
    (by (try dsimp only); and_intros; all_goals (try first | exact went_got [] (by decide +kernel)); all_goals first | decide +kernel | rfl | (intro q h; first | (cases h; rfl) | cases h))⟩,
   ⟨{ cw .X { x := State.reset.me.x.set 1 { v := 0x1880 } } with mem := Bytes.splice [] 0x51880 (cb 10) }, left_ _, left_ _, left_ _, _, 1, got [] _,
    got [] _, (cb 10), { cache := .eng 3 .X, ctx := 7, vbase := 0, size := 0x10000, pte := BitVec.ofNat 64 (0x1000F + 0x500 * 2 ^ 22) },
    (by (try dsimp only); (iterate 13 refine ⟨by decide +kernel, ?_⟩); exact ⟨Eq.mpr (if_neg (by decide +kernel)) (went_got [] (by decide +kernel)), went_is (by decide +kernel), rfl, by decide +kernel, by decide +kernel, by decide +kernel, by decide +kernel, by decide +kernel, went_got [] (by decide +kernel)⟩)⟩,
   ⟨cw .X { x := State.reset.me.x.set 1 { v := 0x3FFF80 }, cardRead := some (cb 255) }, 15, 1, (cb 255), cILLEGAL, .xjob 15 1, by decide +kernel⟩,
   ⟨cw .X { x := State.reset.me.x.set 1 { v := 0x3FFFC0 } }, 1, by decide +kernel⟩,
   ⟨cw .X { x := State.reset.me.x.set 1 { v := 2 ^ 56 } }, 1, by decide +kernel⟩,
   ⟨cw .X { x := State.reset.me.x.set 1 { v := 7 }, ticket := 8, cards := [xc .waiting (cop 10 0 0)] }, 1, (xc .waiting (cop 10 0 0)),
    by decide +kernel⟩,
   ⟨cw .X { x := State.reset.me.x.set 1 { v := 0xFFFF }, ticket := 8 }, 1, by decide +kernel⟩,
   ⟨cw .X { x := State.reset.me.x.set 1 { v := 0, p := true } }, 15, 1, .xstat 15 1, by decide +kernel⟩⟩

theorem witness_CardEnds :
  (∃ (s : State) (x : XCard),
    let c := s.argN 1
    let k := s.core c
    let m := maskBits x.card.waitsem
    s.argN 0 = 0 ∧ s.argN 1 < 96 ∧ (s.core (s.argN 1)).card? (s.argN 2) = some x ∧ x.st = .waiting ∧ k.stopReq = false ∧
    m.all (fun b => k.sem[b.toFin] != 0) = true) ∧
  (∃ (s : State) (x : XCard),
    let c := s.argN 1
    let t := s.argN 2
    let r : CardRef := .x c t
    s.argN 0 = 0 ∧ s.argN 1 < 96 ∧ (s.core (s.argN 1)).card? (s.argN 2) = some x ∧ x.st = .running ∧ x.moved = true ∧ x.fault = none ∧ x.q = none ∧
    s.cardIdle r = true ∧ (x.card.chen = true → x.chained = true)) ∧
  (∃ (s : State) (x : XCard) (f : Bad),
    s.argN 0 = 0 ∧ s.argN 1 < 96 ∧ (s.core (s.argN 1)).card? (s.argN 2) = some x ∧ x.st = .running ∧ x.fault = some f) :=
  ⟨⟨ev [0, 3, 7] (cw .X { cards := [(xc .waiting ({ cop 10 0 0 with waitsem := 0x8001 }) none false)], sem := Vector.replicate 16 1 }),
    (xc .waiting ({ cop 10 0 0 with waitsem := 0x8001 }) none false), by decide +kernel⟩,
   ⟨ev [0, 3, 7] (cw .X { cards := [(xc .running (cop 10 0 0) none true)], sem := Vector.replicate 16 1 }), (xc .running (cop 10 0 0) none true),
    by decide +kernel⟩,
   ⟨ev [0, 3, 7] (cw .X { cards := [(xc .running (cop 10 0 0) (some (cPROT, 0x77)) false)], sem := Vector.replicate 16 1 }),
    (xc .running (cop 10 0 0) (some (cPROT, 0x77)) false), (cPROT, 0x77), by decide +kernel⟩⟩

theorem witness_CardOperations :
  (∃ (s : State) (u : State) (v : State) (e : Exec) (l : List (Option (Nat × Bool))) (n : Nat),
    let c := e.card
    let w := fmtBits c.fout.toNat
    let puts := (List.range l.length).map (fun n => e.place n w ((l.getD n none).map (·.1)))
    s.moves opCOPY = some e ∧ e.sources s = .ok (l, none) u ∧ e.oneWrite puts = false ∧ movePuts e puts none u = .ok none v) ∧
  (∃ (s : State) (u : State) (v : State) (e : Exec) (l : List (Option (Nat × Bool))) (n : Nat),
    let c := e.card
    let w := fmtBits c.fout.toNat
    let puts := (List.range l.length).map (fun n => e.place n w ((l.getD n none).map (·.1)))
    s.moves opCOPY = some e ∧ e.sources s = .ok (l, none) u ∧ e.oneWrite puts = true ∧
    e.write false c.dst.toNat (puts.flatMap (fun p => leBytes 1 (p.v.getD 0))) u = .ok (.ok ()) v) ∧
  (∃ (s : State) (u : State) (v : State) (e : Exec) (l : List (Option (Nat × Bool))) (n : Nat),
    let c := e.card
    let w := fmtBits c.fout.toNat
    let puts := (List.range l.length).map (fun n => e.place n w ((l.getD n none).map (·.1)))
    s.moves opFILL = some e ∧ e.sources s = .ok (l, none) u ∧ movePuts e puts none u = .ok none v) ∧
  (∃ (s : State) (u : State) (v : State) (e : Exec) (l : List (Option (Nat × Bool))) (n : Nat),
    let c := e.card
    let w := fmtBits c.fout.toNat
    let codes := (List.range l.length).map (fun n => (l.getD n none).map (fun x => c.convert n x.1))
    let cvt : List Put × Flags := if isBlockFmt c.fout.toNat then e.blockPuts l
      else ((List.range l.length).map (fun n => e.place n w ((codes.getD n none).map (·.code))), orFlags (codes.filterMap (fun x => x.map (·.f))))
    let flag : State := match e.ref with
      | .x k _ => u.onCore k (fun k => { k with engX := { k.engX with fstat := k.engX.fstat ||| cvt.2.bits } })
      | _ => u
    s.moves opCOPYCVT = some e ∧ e.sources s = .ok (l, none) u ∧ movePuts e cvt.1 none flag = .ok none v) ∧
  (∃ (s : State) (u : State) (e : Exec) (b : List Byte),
    let c := e.card
    let read := e.read c.ssp c.src.toNat c.linearLen s
    s.moves opACCW = some e ∧ read = .ok (.ok b) u) ∧
  (∃ (s : State) (u : State) (v : State) (e : Exec) (b : List Byte) (n : Nat),
    let c := e.card
    let read := e.read c.ssp c.src.toNat c.linearLen s
    s.moves opMCAST = some e ∧ c.ra = false ∧ read = .ok (.ok b) u ∧ multicast e.path c.dst.toNat b u = .ok (.ok n) v) ∧
  (∃ (s : State) (u : State) (e : Exec) (b : List Byte) (g : Group),
    let c := e.card
    let read := e.read c.ssp c.src.toNat c.linearLen s
    s.group e.path.ctx c.grp = some g ∧ g.state ≠ 1 ∧ c.rank < g.members.length ∧ (g.member c.rank).mstate = .active ∧ read = .ok (.ok b) u ∧
    s.xfers.all (fun x => match x.2 with | .card y _ => y != e.ref | _ => true) = true ∧ s.moves opRWRITE = some e) ∧
  (∃ (s : State) (u : State) (e : Exec) (b : List Byte) (g : Group),
    let c := e.card
    let read := e.read c.ssp c.src.toNat c.linearLen s
    s.group e.path.ctx c.grp = some g ∧ g.state ≠ 1 ∧ c.rank < g.members.length ∧ (g.member c.rank).mstate = .active ∧ read = .ok (.ok b) u ∧
    s.xfers.all (fun x => match x.2 with | .card y _ => y != e.ref | _ => true) = true ∧ s.moves opRACCW = some e) ∧
  (∃ (s : State) (u : State) (e : Exec) (b : List Byte) (g : Group),
    let c := e.card
    let read := e.read c.ssp c.src.toNat c.linearLen s
    s.group e.path.ctx c.grp = some g ∧ g.state ≠ 1 ∧ c.rank < g.members.length ∧ (g.member c.rank).mstate = .active ∧ read = .ok (.ok b) u ∧
    s.xfers.all (fun x => match x.2 with | .card y _ => y != e.ref | _ => true) = true ∧ s.moves opMCAST = some e ∧ c.ra = true) ∧
  (∃ (s : State) (e : Exec),
    s.moves opSIGNAL = some e) ∧
  (∃ (s : State) (t : State) (u : State) (v : State) (e : Exec) (b : List Byte) (n : Nat) (key : List (BitVec 64)),
    let c := e.card
    let w := fmtBits c.fout.toNat
    let q := parseRequest (leNat b)
    let die := match e.ref with
      | .x c _ => c / 24
      | _ => 0
    let v' := v.does (cardStarted e)
    s.moves opWALKJ = some e ∧ s.walks.all (fun w => w.2.card != some e.ref) = true ∧ s.liveWalks < walkLimit ∧
    cardRead e c.src.toNat 32 s = .ok (some (.ok b)) u ∧ q.bad = false ∧ q.semen = false ∧ q.cardKey e u = .ok (some (.ok key)) t ∧
    startStack e.path die q.start t = .ok n v) ∧
  (∃ (s : State) (e : Exec) (l : List (Option (Nat × Bool))) (b : List Byte) (h : HubCard),
    let q := parseRequest (leNat b)
    s.moves opSKLAUNCH = some e ∧ s.argN 0 ≠ 0 ∧ s.hubCard (s.argN 1) = some h ∧ h.cancelled = false ∧
    s.skReqs.all (fun q => q.src != .card (s.argN 1)) = true ∧ s.launches.all (fun l => l.2.src != .card (s.argN 1)) = true) :=
  ⟨⟨moving (cop 1 12 12), _, _, runs (cop 1 12 12), _, 0, by and_intros <;> first | decide +kernel | rfl⟩,
   ⟨moving ({ cop 1 12 12 0x8008 16 with dsp := false }), left_ _, left_ _, runs ({ cop 1 12 12 0x8008 16 with dsp := false }),
    (val ([], none) ((runs ({ cop 1 12 12 0x8008 16 with dsp := false })).sources (moving ({ cop 1 12 12 0x8008 16 with dsp := false })))).1, 0,
    (by (try dsimp only); exact ⟨by decide +kernel, fine_is (by decide +kernel), by decide +kernel, went_ok (by decide +kernel)⟩)⟩,
   ⟨moving (cop 11 0 12), _, _, runs (cop 11 0 12), _, 0, by and_intros <;> first | decide +kernel | rfl⟩,
   ⟨moving (cop 2 1 0), _, _, runs (cop 2 1 0), _, 0, by and_intros <;> first | decide +kernel | rfl⟩,
   ⟨moving (cop 3 1 0 0x4000 8), _, runs (cop 3 1 0 0x4000 8), _, by and_intros <;> first | decide +kernel | rfl⟩,
   ⟨{ moving (cop 6 0 0 0x10400) with tlb := [{ cache := .eng 3 .X, ctx := 7, vbase := 0x10000, size := 0x10000, pte := BitVec.ofNat 64 (0x1002F + 0x500 * 2 ^ 22) }] },
    _, _, runs (cop 6 0 0 0x10400), _, _, by and_intros <;> first | decide +kernel | rfl⟩,
   ⟨moving (cop 4 0 0 0x8001050000000400 2), _, runs (cop 4 0 0 0x8001050000000400 2), _, _, by and_intros <;> first | decide +kernel | rfl⟩,
   ⟨moving (cop 5 0 0 0x8001050000000400 2), _, runs (cop 5 0 0 0x8001050000000400 2), _, _, by and_intros <;> first | decide +kernel | rfl⟩,
   ⟨moving (cop 6 0 0 0x8001050000000400 2), _, runs (cop 6 0 0 0x8001050000000400 2), _, _, by and_intros <;> first | decide +kernel | rfl⟩,
   ⟨moving (cop 10 0 0), runs (cop 10 0 0), by decide +kernel⟩,
   ⟨moving ({ cop 7 0 0 0 0 with ssp := false, dsp := false }) (Bytes.splice [] 0x51000 (leBytes 8 (5 + 2 ^ 24 * 3) ++ leBytes 8 0x2000)), left_ _,
    left_ _, left_ _, runs ({ cop 7 0 0 0 0 with ssp := false, dsp := false }),
    (leBytes 8 (5 + 2 ^ 24 * 3) ++ leBytes 8 0x2000 ++ List.replicate 16 0), val 0 _,
    (parseRequest (leNat (leBytes 8 (5 + 2 ^ 24 * 3) ++ leBytes 8 0x2000 ++ List.replicate 16 0))).inline,
    (by (try dsimp only); exact ⟨by decide +kernel, by decide +kernel, by decide +kernel, read_is (by decide +kernel), by decide +kernel, by decide +kernel, read_is (by decide +kernel), fine_val 0 (by decide +kernel)⟩)⟩,
   ⟨ev [1, 44] { cw .S {} with hub := [(44, { hc 8 with st := .running, entered := true })] }, _, [], [],
    { hc 8 with st := .running, entered := true },
    (by (try dsimp only); exact ⟨rfl, by decide +kernel, by decide +kernel, by decide +kernel, by decide +kernel, by decide +kernel⟩)⟩⟩

theorem witness_GraphWords :
  (∃ (s : State) (t : State) (u : State) (w : State) (a : BitVec 6) (l : Leaf) (by_ : List Byte) (card : Card) (ids : List Nat),
    let c := s.cur.core
    let me := s.rung.me
    let ctx := me.lastCtx
    let va := (s.rS a).v.toNat
    let own : Range := { sp := false, lo := va, len := 128, mode := .r }
    s.issues = true ∧ s.bare = true ∧ (s.rS a).p = false ∧ s.queued < queueRoom ∧ s.leafOf va = some l ∧ s.leafProt ctx l .read = false ∧
    va % 128 = 0 ∧ me.blocked [own] = false ∧ s.landing c .S false va 128 = false ∧
    (if l.free then ids = [] ∧ t = s.rung else enterWord [own] l.cp s.rung = .ok (.ok ids) t) ∧
    readMem (t.pathOf c .S) va 128 .read t = .ok (.ok by_) u ∧ u.does (releaseLater c .S ids) = w ∧
    hubCheck ctx me.region.toNat va by_ w = .ok (.ok card) w) ∧
  (∃ (s : State) (u : State) (a : BitVec 6) (by_ : List Byte) (i : Nat),
    let c := s.cur.core
    let me := s.rung.me
    let ctx := me.lastCtx
    let va := (s.rS a).v.toNat
    let v := leNat by_
    let out := s.rung.marks.cleaned
    s.issues = true ∧ s.bare = true ∧ (s.rS a).p = false ∧ s.recordAt va 64 = some by_ ∧ va % 64 = 0 ∧ s.rung.settledTo = true ∧
    (out.ctx ctx).serves = true ∧ s.running < graphRoom ∧ (match out.graphLine with | [] => true | q :: _ => q.core == some c) = true ∧
    launchGraph ctx va v me.region.toNat out = .ok (.ok i) u) ∧
  (∃ (s : State) (a : BitVec 6) (b : BitVec 6) (by_ : List Byte) (g : Graph),
    let me := s.rung.me
    let ctx := me.lastCtx
    let va := (s.rS a).v.toNat
    let y := (s.rS b).v
    s.issues = true ∧ s.bare = true ∧ (s.rS a).p = false ∧ s.recordAt va 64 = some by_ ∧ va % 64 = 0 ∧ (s.rS b).p = false ∧ s.graph ctx va = some g ∧
    (s.ctx ctx).inSubtree me.region.toNat g.region = true ∧ g.status ≠ 1 ∧ (y.getLsbD 63 = true ∨ (y.toNat < g.nodes.length ∧ y.toNat < 2 ^ 32))) ∧
  (∃ (s : State) (u : State) (a : BitVec 6) (b : BitVec 6) (by_ : List Byte) (g : Graph) (i : Nat),
    let me := s.rung.me
    let ctx := me.lastCtx
    let va := (s.rS a).v.toNat
    let y := (s.rS b).v
    s.issues = true ∧ s.bare = true ∧ (s.rS a).p = false ∧ s.recordAt va 64 = some by_ ∧ va % 64 = 0 ∧ (s.rS b).p = false ∧ s.graph ctx va = some g ∧
    (s.ctx ctx).inSubtree me.region.toNat g.region = true ∧ g.status = 1 ∧ (s.ctx ctx).serves = true ∧ y.getLsbD 63 = true ∧
    cancelGraph ctx va 0xFFFFFFFE 0xFFFFFFFE s.rung = .ok i u) ∧
  (∃ (s : State) (u : State) (a : BitVec 6) (b : BitVec 6) (by_ : List Byte) (g : Graph) (i : Nat),
    let me := s.rung.me
    let ctx := me.lastCtx
    let va := (s.rS a).v.toNat
    let y := (s.rS b).v
    s.issues = true ∧ s.bare = true ∧ (s.rS a).p = false ∧ s.recordAt va 64 = some by_ ∧ va % 64 = 0 ∧ (s.rS b).p = false ∧ s.graph ctx va = some g ∧
    (s.ctx ctx).inSubtree me.region.toNat g.region = true ∧ g.status = 1 ∧ (s.ctx ctx).serves = true ∧ y.toNat < g.nodes.length ∧ y.toNat < 2 ^ 32 ∧
    cone ctx va y.toNat s.rung = .ok i u) ∧
  (∃ (s : State) (a : BitVec 6) (b : BitVec 6) (by_ : List Byte),
    let me := s.rung.me
    let ctx := me.lastCtx
    let va := (s.rS a).v.toNat
    let y := (s.rS b).v
    s.issues = true ∧ s.bare = true ∧ (s.rS a).p = false ∧ s.recordAt va 64 = some by_ ∧ va % 64 = 0 ∧ (s.rS b).p = false ∧ s.graph ctx va = none ∧
    y.getLsbD 63 = true) ∧
  (∃ (s : State) (a : BitVec 6) (r : NodeRef) (n : Node) (e : Succ) (k : Nat),
    let c := s.cur.core
    let va := (s.rS a).v.toNat
    s.issues = true ∧ s.bare = true ∧ (s.rS a).p = false ∧ s.rung.settledTo = true ∧ s.dcache = [] ∧ s.ownNode c = some r ∧ s.nodeOf r = some n ∧
    (s.ctx r.ctx).serves = true ∧ n.succs.findIdx? (fun e => e.early && e.dest == va) = some k ∧ n.succs[k]? = some e ∧
    (n.state = .cancelPending ∨ e.sent = true)) ∧
  (∃ (s : State) (u : State) (a : BitVec 6) (r : NodeRef) (n : Node) (e : Succ) (k : Nat),
    let c := s.cur.core
    let va := (s.rS a).v.toNat
    s.issues = true ∧ s.bare = true ∧ (s.rS a).p = false ∧ s.rung.settledTo = true ∧ s.dcache = [] ∧ s.ownNode c = some r ∧ s.nodeOf r = some n ∧
    (s.ctx r.ctx).serves = true ∧ n.succs.findIdx? (fun e => e.early && e.dest == va) = some k ∧ n.succs[k]? = some e ∧ n.state ≠ .cancelPending ∧
    e.sent = false ∧ deliver r k s.rung.marks = .ok () u) :=
  ⟨⟨gw 0xA00 0, left_ _, left_ _, _, 1, _, (10 :: List.replicate 127 0), got default _, got [] _,
    (by (try dsimp only); (iterate 4 refine ⟨by decide +kernel, ?_⟩); exact ⟨rfl, by decide +kernel, by decide +kernel, by decide +kernel, by decide +kernel, Eq.mpr (if_neg (by decide +kernel)) (went_got [] (by decide +kernel)), went_is (by decide +kernel), rfl, went_got _ (by decide +kernel)⟩)⟩,
   ⟨gw 0x400 0, left_ _, 1, _, got 0 _,
    (by (try dsimp only); and_intros; all_goals (try first | exact went_got 0 (by decide +kernel)); all_goals first | decide +kernel | rfl | (intro q h; first | (cases h; rfl) | cases h))⟩,
   ⟨gw 0x400 1 [(gr 2 [nd .running, nd .idle false 3])], 1, 2, _, (gr 2 [nd .running, nd .idle false 3]),
    by and_intros <;> first | decide +kernel | rfl⟩,
   ⟨gw 0x400 0x8000000000000000 [(gr 1 [nd .running, nd .idle false 3])], left_ _, 1, 2, _, (gr 1 [nd .running, nd .idle false 3]), val _ _,
    (by (try dsimp only); and_intros; all_goals (try first | exact fine_val default (by decide +kernel)); all_goals first | decide +kernel | rfl | (intro q h; first | (cases h; rfl) | cases h))⟩,
   ⟨gw 0x400 1 [(gr 1 [nd .running, nd .idle false 3])], left_ _, 1, 2, _, (gr 1 [nd .running, nd .idle false 3]), val _ _,
    (by (try dsimp only); and_intros; all_goals (try first | exact fine_val default (by decide +kernel)); all_goals first | decide +kernel | rfl | (intro q h; first | (cases h; rfl) | cases h))⟩,
   ⟨gw 0x400 0xFFFFFFFFFFFFFFFF, 1, 2, _, by and_intros <;> first | decide +kernel | rfl⟩,
   ⟨gw 1 0 [gr 1 [nd .running true, nd .idle false 3]], 1, { ctx := 7, graph := 0x400, node := 0 }, (nd .running true), _, 0,
    by and_intros <;> first | decide +kernel | rfl⟩,
   ⟨gw 1 0 [(gr 1 [nd .running, nd .idle false 3])], left_ _, 1, { ctx := 7, graph := 0x400, node := 0 }, (nd .running), _, 0,
    (by (try dsimp only); and_intros; all_goals (try first | exact fine_ok (by decide +kernel)); all_goals first | decide +kernel | rfl | (intro q h; first | (cases h; rfl) | cases h))⟩⟩

theorem witness_LaunchesAndNodes :
  (∃ (s : State) (u : State) (t : State) (w : LaunchWrite) (b : List Byte) (gen : Nat),
    let c := s.ctx w.ctx
    s.dstate = .ready ∧ s.argN 0 = 1 ∧ w.ctx = BitVec.ofNat 8 (s.argN 1) ∧ w.off = s.argN 2 ∧ w.size = s.argN 3 ∧ w.value = s.argN 4 ∧
    (lookup w.ctx.toNat s.ctxs).isSome = true ∧ c.serves = true ∧ w.off = 0 ∧ w.size = 8 ∧ s.running < graphRoom ∧ s.graphLine = [] ∧
    hubRead w.ctx w.value 64 .read s = .ok (.ok b) u ∧ w.value % 64 = 0 ∧ launchGraph w.ctx w.value (leNat b) 0 u = .ok (.ok gen) t) ∧
  (∃ (s : State) (w : LaunchWrite),
    let c := s.ctx w.ctx
    s.dstate = .ready ∧ s.argN 0 = 1 ∧ w.ctx = BitVec.ofNat 8 (s.argN 1) ∧ w.off = s.argN 2 ∧ w.size = s.argN 3 ∧ w.value = s.argN 4 ∧
    (lookup w.ctx.toNat s.ctxs).isSome = true ∧ c.serves = true ∧ w.off = 8 ∧ w.size = 16) ∧
  (∃ (s : State) (u : State) (w : LaunchWrite) (b : List Byte) (card : Card),
    let c := s.ctx w.ctx
    s.dstate = .ready ∧ s.argN 0 = 1 ∧ w.ctx = BitVec.ofNat 8 (s.argN 1) ∧ w.off = s.argN 2 ∧ w.size = s.argN 3 ∧ w.value = s.argN 4 ∧
    (lookup w.ctx.toNat s.ctxs).isSome = true ∧ c.serves = true ∧ w.off = 0x18 ∧ w.size = 8 ∧ s.queued < queueRoom ∧
    hubRead w.ctx w.value 128 .read s = .ok (.ok b) u ∧ hubCheck w.ctx 0 w.value b u = .ok (.ok card) u ∧ card.sigsem = 0 ∧
    u.overBudget w.ctx card.region.toNat card = false) ∧
  (∃ (s : State) (u : State) (t : State) (w : LaunchWrite) (b : List Byte) (gen : Nat) (q : GraphWait) (rest : List GraphWait),
    let c := s.ctx w.ctx
    s.graphLine = q :: rest ∧ q.core = none ∧ q.ctx = w.ctx ∧ q.addr = w.value ∧ s.running < graphRoom ∧ c.serves = true ∧ w.value % 64 = 0 ∧
    hubRead w.ctx w.value 64 .read { s with graphWait := rest } = .ok (.ok b) u ∧ launchGraph w.ctx w.value (leNat b) 0 u = .ok (.ok gen) t) ∧
  (∃ (s : State) (u : State) (n : Node),
    let r : NodeRef := { ctx := BitVec.ofNat 8 (s.argN 0), graph := s.argN 1, node := s.argN 2 }
    s.nodeOf r = some n ∧ (s.ctx r.ctx).serves = true ∧ n.state = .retrying ∧ s.fps.all (fun f => !n.oldFps.contains f.id) = true ∧
    makeReady r s = .ok () u) ∧
  (∃ (s : State) (n : Node),
    let r : NodeRef := { ctx := BitVec.ofNat 8 (s.argN 0), graph := s.argN 1, node := s.argN 2 }
    s.nodeOf r = some n ∧ (s.ctx r.ctx).serves = true ∧ n.state = .retrying ∧ s.fps.all (fun f => !n.oldFps.contains f.id) = true ∧
    queueRoom ≤ s.queued) ∧
  (∃ (s : State) (n : Node),
    let r : NodeRef := { ctx := BitVec.ofNat 8 (s.argN 0), graph := s.argN 1, node := s.argN 2 }
    s.nodeOf r = some n ∧ (s.ctx r.ctx).serves = true ∧ n.state = .cancelPending ∧ n.hub = none) :=
  ⟨⟨ready [1, 7, 0, 8, 0x400] (gw 0 0), left_ _, left_ _, { ctx := 7, off := 0, size := 8, value := 1024 }, got [] _, got 0 _,
    (by (try dsimp only); (iterate 12 refine ⟨by decide +kernel, ?_⟩); exact ⟨went_got _ (by decide +kernel), by decide +kernel, went_got _ (by decide +kernel)⟩)⟩,
   ⟨ready [1, 7, 8, 16, 0x400 + 2 ^ 127] (gw 0 0), { ctx := 7, off := 8, size := 16, value := 0x400 + 2 ^ 127 }, by decide +kernel⟩,
   ⟨ready [1, 7, 0x18, 8, 0xA00] (gw 0 0), left_ _, { ctx := 7, off := 0x18, size := 8, value := 0xA00 }, (10 :: List.replicate 127 0), got default _,
    (by (try dsimp only); and_intros; all_goals (try first | exact went_is (by decide +kernel) | exact went_got default (by decide +kernel)); all_goals first | decide +kernel | rfl | (intro q h; first | (cases h; rfl) | cases h))⟩,
   ⟨{ ready [1] (gw 0 0) with graphWait := [{ ctx := 7, addr := 0x400, core := none }] }, left_ _, left_ _,
    { ctx := 7, off := 0, size := 8, value := 1024 }, got [] _, got 0 _, { ctx := 7, addr := 0x400, core := none }, [],
    (by (try dsimp only); exact ⟨by decide +kernel, rfl, rfl, rfl, by decide +kernel, by decide +kernel, by decide +kernel, went_got _ (by decide +kernel), went_got _ (by decide +kernel)⟩)⟩,
   ⟨ready [7, 0x400, 0] (gw 0 0 [gr 1 [{ nd .retrying with hub := none }, nd .idle false 3]]), left_ _, { nd .retrying with hub := none },
    (by (try dsimp only); and_intros; all_goals (try first | exact fine_ok (by decide +kernel)); all_goals first | decide +kernel | rfl | (intro q h; first | (cases h; rfl) | cases h))⟩,
   ⟨{ ready [7, 0x400, 0] (gw 0 0 [gr 1 [{ nd .retrying with hub := none }, nd .idle false 3]]) with hub := List.replicate queueRoom (44, hc 9) },
    { nd .retrying with hub := none },
    (by (try dsimp only); and_intros; all_goals (try first | exact queue_full _); all_goals first | decide +kernel | rfl | (intro q h; first | (cases h; rfl) | cases h))⟩,
   ⟨ready [7, 0x400, 0] (gw 0 0 [gr 1 [{ nd .cancelPending with hub := none }, nd .idle false 3]]), { nd .cancelPending with hub := none },
    by decide +kernel⟩⟩

theorem witness_WalkRules :
  (∃ (s : State) (id : Nat) (w : Walk) (off : BitVec 17) (n : BitVec 5) (f : BitVec 5) (g : BitVec 3) (l : BitVec 6) (sh : BitVec 6) (stride : BitVec 22)
    (imm : BitVec 22) (t : BitVec 8) (m : BitVec 1) (bs : List Byte) (bad : Option Bad) (i : _),
    let all : List Instr := [.rd off n, .cmpk f, .cmpg g f, .getf g l sh f, .next f, .nextG g, .hash g stride, .addg g imm, .andg g imm, .jmp t, .jeq t, .jne t, .jlt t,
                             .emit n, .emitg g m n, .miss, .fail imm]
    s.walkHere = some (id, w) ∧ w.ending = some (bs, bad) ∧ i ∈ all) ∧
  (∃ (s : State) (u : State) (id : Nat) (w : Walk) (off : BitVec 17) (n : BitVec 5) (lf : Leaf),
    let x := { w with nrun := w.nrun + 1 }
    let a := w.cur + off.signExtend 64
    let k := n.toNat + 1
    s.walkHere = some (id, w) ∧ w.ending = none ∧ (s.ctx w.ctx).serves = true ∧ w.nrun < ruleLimit ∧ walkLeaf x a.toNat (8 * k) s = .ok (.ok lf) u ∧
    lf.kind ≠ 2 ∧ lf.pa a.toNat / stackSpan ≠ w.stack) ∧
  (∃ (s : State) (u : State) (v : State) (id : Nat) (w : Walk) (off : BitVec 17) (n : BitVec 5) (lf : Leaf) (b : List Byte),
    let x := { w with nrun := w.nrun + 1 }
    let a := w.cur + off.signExtend 64
    let k := n.toNat + 1
    s.walkHere = some (id, w) ∧ w.ending = none ∧ (s.ctx w.ctx).serves = true ∧ w.nrun < ruleLimit ∧ walkLeaf x a.toNat (8 * k) s = .ok (.ok lf) u ∧
    w.pc + 1 < w.rules.length ∧ (lf.kind = 2 ∨ lf.pa a.toNat / stackSpan = w.stack) ∧
    readMem (basePath w.ctx w.stack) a.toNat (8 * k) .read u = .ok (.ok b) v) ∧
  (∃ (s : State) (id : Nat) (w : Walk) (f : BitVec 5),
    s.walkHere = some (id, w) ∧ w.ending = none ∧ (s.ctx w.ctx).serves = true ∧ w.nrun < ruleLimit ∧ f.toNat + w.kw ≤ 31) ∧
  (∃ (s : State) (id : Nat) (w : Walk) (f : BitVec 5),
    let cell := fun (i : Nat) => w.recw.getD i 0
    s.walkHere = some (id, w) ∧ w.ending = none ∧ (s.ctx w.ctx).serves = true ∧ w.nrun < ruleLimit ∧ w.steps ≠ w.limit ∧
    (cell f.toNat).extractLsb' 56 8 = 0) ∧
  (∃ (s : State) (id : Nat) (w : Walk) (g : BitVec 3),
    let cell := fun (i : Nat) => w.recw.getD i 0
    s.walkHere = some (id, w) ∧ w.ending = none ∧ (s.ctx w.ctx).serves = true ∧ w.nrun < ruleLimit ∧ w.steps ≠ w.limit ∧
    (cell ((w.reg g).toNat % 32)).extractLsb' 56 8 = 0) ∧
  (∃ (s : State) (id : Nat) (w : Walk) (g : BitVec 3),
    s.walkHere = some (id, w) ∧ w.ending = none ∧ (s.ctx w.ctx).serves = true ∧ w.nrun < ruleLimit ∧ w.reg g ≠ 0) :=
  ⟨⟨walking { wk0 with ending := some ([1, 2], none) } 0 0, 9, { wk0 with ending := some ([1, 2], none) }, 0xFF00, 31, 30, 7, 63, 63, 1, 0x3FFFFF, 255,
    1, [1, 2], none, .fail 0x3FFFFF, by decide +kernel⟩,
   ⟨walking { wk0 with dlen := 0x2000 } 0 0x3000050000, _, 9, { wk0 with dlen := 0x2000 }, 0xFF00, 31, _,
    by and_intros <;> first | decide +kernel | rfl⟩,
   ⟨walking { wk0 with dlen := 0x2000 } 0 0x2000050000, _, _, 9, { wk0 with dlen := 0x2000 }, 0xFF00, 31, _, _,
    by and_intros <;> first | decide +kernel | rfl⟩,
   ⟨walking wk0 0 0, 9, wk0, 30, by decide +kernel⟩,
   ⟨walking wk0 0 0, 9, wk0, 30, by decide +kernel⟩,
   ⟨walking wk0 0 0, 9, wk0, 7, by decide +kernel⟩,
   ⟨walking { wk0 with g := wk0.g.set 7 1 } 0 0, 9, { wk0 with g := wk0.g.set 7 1 }, 7, by decide +kernel⟩⟩

theorem witness_WalkEvents :
  (∃ (s : State) (u : State) (v : State) (a : BitVec 6) (n : Nat) (b : List Byte),
    let q := parseRequest (leNat b)
    let va := (s.rS a).v
    let me := s.rung.me
    let c := s.cur.core
    let out := u.marks.cleaned
    s.issues = true ∧ s.bare = true ∧ (s.rS a).p = false ∧ va.toNat % 32 = 0 ∧ sReadNow va.toNat 32 s.rung = .ok b u ∧ q.bad = false ∧
    q.kptr = false ∧ u.liveWalks < walkLimit ∧ u.settledTo = true ∧ u.cur = s.cur ∧ (out.core c).own = me.own ∧ (out.core c).gang = me.gang ∧
    (out.core c).gangRank = me.gangRank ∧ startStack (out.pathOf c .S) (c / 24) q.start out = .ok n v) ∧
  (∃ (s : State) (u : State) (v : State) (id : Nat) (n : Nat) (w : Walk) (x : Walk) (ids : List Nat),
    s.argN 0 = id ∧ lookup id s.walks = some w ∧ w.ending = none ∧ (s.ctx w.ctx).serves = true ∧ w.st = .queued ∧ s.slotFor id w = some n ∧
    w.begun = false ∧ (loadRules { w with cur := w.start }).run s = .ok (.ok x) u ∧
    enterFps (.owner (.walk id)) (.walk id) w.ctx w.region (rangeOf false .r x.dbase (x.dbase + 64 * x.dlen - 1 : Nat)) true u = .ok (.entered ids) v) ∧
  (∃ (s : State) (u : State) (id : Nat) (n : Nat) (w : Walk) (x : Walk),
    s.argN 0 = id ∧ lookup id s.walks = some w ∧ w.ending = none ∧ (s.ctx w.ctx).serves = true ∧ w.st = .queued ∧ s.slotFor id w = some n ∧
    w.begun = true ∧ (loadRules w).run s = .ok (.ok x) u ∧ x.pendRd = none) ∧
  (∃ (s : State) (id : Nat) (w : Walk),
    s.argN 0 = id ∧ lookup id s.walks = some w ∧ w.ending = none ∧ (s.ctx w.ctx).serves = true ∧ w.st = .forwarded) ∧
  (∃ (s : State) (id : Nat) (w : Walk),
    s.argN 0 = id ∧ lookup id s.walks = some w ∧ w.ending = none ∧ (s.ctx w.ctx).serves = true ∧ w.st = .walking ∧ ruleLimit ≤ w.nrun) ∧
  (∃ (s : State) (id : Nat) (w : Walk),
    s.argN 0 = id ∧ lookup id s.walks = some w ∧ w.ending = none ∧ (s.ctx w.ctx).serves = true ∧ w.st = .walking ∧ w.nrun < ruleLimit ∧
    w.steps = w.limit ∧ (∃ f, w.rules[w.pc]?.bind decodeRule = some (.next f)) ∨ (∃ g, w.rules[w.pc]?.bind decodeRule = some (.nextG g))) :=
  ⟨⟨{ cw .S { s := State.reset.me.s.set 1 { v := 0x440 } } with mem := Bytes.splice [] 0x50440 (leBytes 8 (5 + 2 ^ 24 * 3) ++ leBytes 8 0x2000) }, _,
    _, 1, _, _, by and_intros <;> first | decide +kernel | rfl⟩,
   ⟨walking { wk0 with st := .queued } 0 0x2000050000 (Bytes.splice [] 0x2000058000 wimg), left_ _, _, 9, _, { wk0 with st := .queued }, got default _,
    _,
    (by (try dsimp only); and_intros; all_goals (try first | exact went_got default (by decide +kernel)); all_goals first | decide +kernel | rfl | (intro q h; first | (cases h; rfl) | cases h))⟩,
   ⟨walking { wk0 with st := .queued, begun := true } 0 0x2000050000 (Bytes.splice [] 0x2000058000 wimg), left_ _, 9, _,
    { wk0 with st := .queued, begun := true }, got default _,
    (by (try dsimp only); and_intros; all_goals (try first | exact went_got default (by decide +kernel)); all_goals first | decide +kernel | rfl | (intro q h; first | (cases h; rfl) | cases h))⟩,
   ⟨walking { wk0 with st := .forwarded } 0 0x2000050000 (Bytes.splice [] 0x2000058000 wimg), 9, { wk0 with st := .forwarded }, by decide +kernel⟩,
   ⟨walking { wk0 with nrun := 256 } 0 0x2000050000 (Bytes.splice [] 0x2000058000 wimg), 9, { wk0 with nrun := 256 }, by decide +kernel⟩,
   ⟨walking { wk0 with nrun := 255, steps := 10, rules := [335544323] } 0 0x2000050000 (Bytes.splice [] 0x2000058000 wimg), 9,
    { wk0 with nrun := 255, steps := 10, rules := [335544323] },
    (by and_intros; all_goals first | decide +kernel | rfl | exact .inl ⟨_, rfl⟩ | exact .inr ⟨_, rfl⟩)⟩⟩

theorem witness_LinkEvents :
  (∃ (s : State),
    let p := s.argN 0
    let x := s.port p
    s.argN 0 < 16 ∧ (x.st = .training ∨ x.st = .retraining) ∧ 4 ≤ s.argN 1 ∧ (s.argN 2 ≠ 0 ∨ s.argN 1 < 8) ∧
    (s.argN 2 = 0 ∨ some (s.argN 3) ≠ s.pkgid)) ∧
  (∃ (s : State) (f : Flit),
    let p := s.argN 0
    let x := s.port p
    s.argN 0 < 16 ∧ x.carries = true ∧ x.replay.any (fun f => decide (16 < f.tries)) = true) ∧
  (∃ (s : State),
    let p := s.argN 0
    let x := s.port p
    s.argN 0 < 16 ∧ x.st ≠ .down) ∧
  (∃ (s : State),
    let p := s.argN 0
    let x := s.port p
    s.argN 0 < 16 ∧ x.fencing = true ∧ x.replay = [] ∧ (x.carries = true ∨ x.st = .retraining)) ∧
  (∃ (s : State),
    let p := s.argN 0
    let x := s.port p
    let d := s.cur.args.bytes
    let again := wireHolds d = false ∨ (flitOf d).lseq ≠ x.rxSeq
    s.argN 0 < 16 ∧ x.carries = true ∧ again ∧ 0 < x.credit 2 ∧ x.sendFence = false) ∧
  (∃ (s : State),
    let p := s.argN 0
    let x := s.port p
    let d := s.cur.args.bytes
    let again := wireHolds d = false ∨ (flitOf d).lseq ≠ x.rxSeq
    s.argN 0 < 16 ∧ x.carries = true ∧ ¬ again ∧ wireReserved d = true) ∧
  (∃ (s : State) (f : Flit),
    let i := s.argN 0
    s.argN 0 < 16 ∧ s.flitWait[i]? = some f ∧ some f.dpkg ≠ s.pkgid) ∧
  (∃ (s : State) (u : State) (f : Flit),
    let d := s.cur.args.bytes
    let t := (flitOf d).type
    s.argN 0 < 16 ∧ 1 ≤ t.toNat ∧ t.toNat < 6 ∧ s.arrives t = some (f, u) ∧ some f.dpkg ≠ s.pkgid) ∧
  (∃ (s : State) (u : State) (f : Flit),
    s.argN 0 < 16 ∧ s.arrives fCTRL = some (f, u) ∧ f.get 0 = 0 ∧ f.get 1 < 3) ∧
  (∃ (s : State) (u : State) (f : Flit),
    s.argN 0 < 16 ∧ s.arrives fCTRL = some (f, u) ∧ f.get 0 = 1) ∧
  (∃ (s : State) (u : State) (f : Flit),
    s.argN 0 < 16 ∧ s.arrives fIDLE = some (f, u)) ∧
  (∃ (s : State) (u : State) (f : Flit),
    s.argN 0 < 16 ∧ s.arrives fGFENCE = some (f, u)) :=
  ⟨⟨link .training [1, 4, 1, 32767], by decide +kernel⟩,
   ⟨link .degraded [1] [] { replay := [{ type := 1, vc := 0, rgen := 5, dst := 77, src := 4, lseq := 3, tries := 17 }] }, default, by decide +kernel⟩,
   ⟨link .fenced [1], by decide +kernel⟩,
   ⟨link .retraining [1] [] { fencing := true }, by decide +kernel⟩,
   ⟨link .up [2],
    (by (try dsimp only); and_intros; all_goals (try first | fail); all_goals first | decide +kernel | rfl | (intro q h; first | (cases h; rfl) | cases h))⟩,
   ⟨link .up [2] (flit fCARD 3 5 77 0 []),
    (by (try dsimp only); and_intros; all_goals (try first | fail); all_goals first | decide +kernel | rfl | (intro q h; first | (cases h; rfl) | cases h))⟩,
   ⟨{ link .up [0] with flitWait := [{ type := 3, vc := 1, rgen := 5, dst := 77, src := 4 }] }, { type := 3, vc := 1, rgen := 5, dst := 77, src := 4 },
    by and_intros <;> first | decide +kernel | rfl⟩,
   ⟨link .up [2] (flit fDATA 0 5 77 0 []), _, (flitOf (flit fDATA 0 5 77 0 [])),
    (by (try dsimp only); and_intros; all_goals (try first | exact came (by decide +kernel)); all_goals first | decide +kernel | rfl | (intro q h; first | (cases h; rfl) | cases h))⟩,
   ⟨link .up [2] (flit fCTRL 2 5 0 0 [0, 2, 7]), _, (flitOf (flit fCTRL 2 5 0 0 [0, 2, 7])),
    (by (try dsimp only); and_intros; all_goals (try first | exact came (by decide +kernel)); all_goals first | decide +kernel | rfl | (intro q h; first | (cases h; rfl) | cases h))⟩,
   ⟨link .up [2] (flit fCTRL 2 5 0 0 [1, 3]), _, (flitOf (flit fCTRL 2 5 0 0 [1, 3])),
    (by (try dsimp only); and_intros; all_goals (try first | exact came (by decide +kernel)); all_goals first | decide +kernel | rfl | (intro q h; first | (cases h; rfl) | cases h))⟩,
   ⟨link .up [2] (flit fIDLE 0 5 0 0 []), _, (flitOf (flit fIDLE 0 5 0 0 [])),
    (by (try dsimp only); and_intros; all_goals (try first | exact came (by decide +kernel)); all_goals first | decide +kernel | rfl | (intro q h; first | (cases h; rfl) | cases h))⟩,
   ⟨link .up [2] (flit fGFENCE 2 5 0 0 [6]), _, (flitOf (flit fGFENCE 2 5 0 0 [6])),
    (by (try dsimp only); and_intros; all_goals (try first | exact came (by decide +kernel)); all_goals first | decide +kernel | rfl | (intro q h; first | (cases h; rfl) | cases h))⟩⟩

theorem witness_BarrierWords :
  (∃ (s : State) (n : Nat) (b : Barrier),
    let g := s.cur.word.extractLsb' 12 6
    let v := (s.rS g).v
    let p := (v.extractLsb' 16 16).toNat
    let me := s.rung.me
    let ctx := me.lastCtx
    s.issues = true ∧ s.bare = true ∧ (s.rS g).p = false ∧ (s.rS (s.cur.word.extractLsb' 6 6)).p = false ∧
    (s.rS (s.cur.word.extractLsb' 0 6)).p = false ∧ (v.extractLsb' 0 4).toNat ≤ 6 ∧ v.extractLsb' 4 12 = 0 ∧ v.extractLsb' 32 32 = 0 ∧
    (s.rS (s.cur.word.extractLsb' 6 6)).v.toNat = n ∧ 1 ≤ n ∧ n ≤ 4095 ∧ s.barrier ctx n = some b ∧ b.whistle = false ∧
    (if b.group = 0xFFFF then p < b.parties else p = 0) ∧ s.rung.settledTo = true ∧ s.rung.remoteDone = true ∧ s.dcache = [] ∧ b.state = 3) ∧
  (∃ (s : State) (n : Nat) (b : Barrier),
    let g := s.cur.word.extractLsb' 12 6
    let v := (s.rS g).v
    let p := (v.extractLsb' 16 16).toNat
    let me := s.rung.me
    let ctx := me.lastCtx
    let who := if b.group = 0xFFFF then p else b.me
    let now := b.expected.contains who && !b.arrived.contains who
    s.issues = true ∧ s.bare = true ∧ (s.rS g).p = false ∧ (s.rS (s.cur.word.extractLsb' 6 6)).p = false ∧
    (s.rS (s.cur.word.extractLsb' 0 6)).p = false ∧ (v.extractLsb' 0 4).toNat ≤ 6 ∧ v.extractLsb' 4 12 = 0 ∧ v.extractLsb' 32 32 = 0 ∧
    (s.rS (s.cur.word.extractLsb' 6 6)).v.toNat = n ∧ 1 ≤ n ∧ n ≤ 4095 ∧ s.barrier ctx n = some b ∧ b.whistle = false ∧
    (if b.group = 0xFFFF then p < b.parties else p = 0) ∧ s.rung.settledTo = true ∧ s.rung.remoteDone = true ∧ s.dcache = [] ∧ b.state ≠ 3 ∧
    (now = true ∨ b.isAhead (b.seq + 1) who = false)) ∧
  (∃ (s : State) (n : Nat) (b : Barrier),
    let g := s.cur.word.extractLsb' 12 6
    let v := (s.rS g).v
    let p := (v.extractLsb' 16 16).toNat
    let me := s.rung.me
    let ctx := me.lastCtx
    s.issues = true ∧ s.bare = true ∧ (s.rS g).p = false ∧ (s.rS (s.cur.word.extractLsb' 6 6)).p = false ∧
    (s.rS (s.cur.word.extractLsb' 0 6)).p = false ∧ (v.extractLsb' 0 4).toNat ≤ 6 ∧ v.extractLsb' 4 12 = 0 ∧ v.extractLsb' 32 32 = 0 ∧
    (s.rS (s.cur.word.extractLsb' 6 6)).v.toNat = n ∧ 1 ≤ n ∧ n ≤ 4095 ∧ s.barrier ctx n = some b ∧ b.whistle = false ∧ b.group = 0xFFFF ∧
    p < b.parties) ∧
  (∃ (s : State) (n : Nat) (b : Barrier),
    let g := s.cur.word.extractLsb' 12 6
    let v := (s.rS g).v
    let p := (v.extractLsb' 16 16).toNat
    let me := s.rung.me
    let ctx := me.lastCtx
    s.issues = true ∧ s.bare = true ∧ (s.rS g).p = false ∧ (s.rS (s.cur.word.extractLsb' 6 6)).p = false ∧
    (s.rS (s.cur.word.extractLsb' 0 6)).p = false ∧ (v.extractLsb' 0 4).toNat ≤ 6 ∧ v.extractLsb' 4 12 = 0 ∧ v.extractLsb' 32 32 = 0 ∧
    (s.rS (s.cur.word.extractLsb' 6 6)).v.toNat = n ∧ 1 ≤ n ∧ n ≤ 4095 ∧ s.barrier ctx n = some b ∧ p = 0 ∧
    (b.whistle && (b.state == 5 || s.pins.any (fun q => q.ctx == b.ctx && q.whistle == b.num))) = false) ∧
  (∃ (s : State) (n : Nat) (b : Barrier),
    let g := s.cur.word.extractLsb' 12 6
    let v := (s.rS g).v
    let p := (v.extractLsb' 16 16).toNat
    let me := s.rung.me
    let ctx := me.lastCtx
    s.issues = true ∧ s.bare = true ∧ (s.rS g).p = false ∧ (s.rS (s.cur.word.extractLsb' 6 6)).p = false ∧
    (s.rS (s.cur.word.extractLsb' 0 6)).p = false ∧ (v.extractLsb' 0 4).toNat ≤ 6 ∧ v.extractLsb' 4 12 = 0 ∧ v.extractLsb' 32 32 = 0 ∧
    (s.rS (s.cur.word.extractLsb' 6 6)).v.toNat = n ∧ 1 ≤ n ∧ n ≤ 4095 ∧ s.barrier ctx n = some b ∧ p = 0 ∧ b.whistle = true) ∧
  (∃ (s : State) (n : Nat) (b : Barrier),
    let g := s.cur.word.extractLsb' 12 6
    let v := (s.rS g).v
    let p := (v.extractLsb' 16 16).toNat
    let me := s.rung.me
    let ctx := me.lastCtx
    s.issues = true ∧ s.bare = true ∧ (s.rS g).p = false ∧ (s.rS (s.cur.word.extractLsb' 6 6)).p = false ∧
    (s.rS (s.cur.word.extractLsb' 0 6)).p = false ∧ (v.extractLsb' 0 4).toNat ≤ 6 ∧ v.extractLsb' 4 12 = 0 ∧ v.extractLsb' 32 32 = 0 ∧
    (s.rS (s.cur.word.extractLsb' 6 6)).v.toNat = n ∧ 1 ≤ n ∧ n ≤ 4095 ∧ s.barrier ctx n = some b ∧ p = 0 ∧ b.whistle = false) ∧
  (∃ (s : State) (n : Nat) (y : List Byte),
    let g := s.cur.word.extractLsb' 12 6
    let v := (s.rS g).v
    let x := (s.rS (s.cur.word.extractLsb' 0 6)).v
    let p := (v.extractLsb' 16 16).toNat
    let me := s.rung.me
    let ctx := me.lastCtx
    s.issues = true ∧ s.bare = true ∧ (s.rS g).p = false ∧ (s.rS (s.cur.word.extractLsb' 6 6)).p = false ∧
    (s.rS (s.cur.word.extractLsb' 0 6)).p = false ∧ (v.extractLsb' 0 4).toNat ≤ 6 ∧ v.extractLsb' 4 12 = 0 ∧ v.extractLsb' 32 32 = 0 ∧
    (s.rS (s.cur.word.extractLsb' 6 6)).v.toNat = n ∧ 1 ≤ n ∧ n ≤ 4095 ∧ p = 0 ∧ s.barrier ctx n = none ∧ x.extractLsb' 0 6 = 0 ∧
    s.recordAt x.toNat 64 = some y ∧ s.blockBad ctx n (leNat y) = false ∧ s.barriers.length < barrierLimit) ∧
  (∃ (s : State) (a : BitVec 6) (c : BitVec 6) (n : Nat) (i : Nat) (b : Barrier),
    let me := s.rung.me
    let ctx := me.lastCtx
    s.issues = true ∧ s.bare = true ∧ (s.rS a).p = false ∧ (s.rS a).v.toNat = n ∧ 1 ≤ n ∧ (s.rS c).p = false ∧ n ≤ 4095 ∧ s.rung.unit.barw = none ∧
    s.barrier ctx n = some b ∧ b.waited (s.rS c).v.toNat = some i) ∧
  (∃ (s : State) (a : BitVec 6) (c : BitVec 6) (n : Nat) (i : Nat) (j : _),
    s.issues = true ∧ s.bare = true ∧ (s.rS a).p = false ∧ (s.rS a).v.toNat = n ∧ 1 ≤ n ∧ (s.rS c).p = false ∧ n ≤ 4095 ∧ j ∈ s.rung.unit.barw ∧
    j.res = some i) ∧
  (∃ (s : State) (a : BitVec 6) (n : Nat) (b : Barrier),
    let g := s.cur.word.extractLsb' 12 6
    let v := (s.rS g).v
    let p := (v.extractLsb' 16 16).toNat
    let me := s.rung.me
    let ctx := me.lastCtx
    s.issues = true ∧ s.bare = true ∧ (s.rS a).p = false ∧ (s.rS a).v.toNat = n ∧ 1 ≤ n ∧ n ≤ 255 ∧ s.barrier ctx n = some b ∧ b.whistle = true ∧
    (s.corePins s.cur.core).length < 8 ∧ (s.corePins s.cur.core).all (fun p => p.whistle != n) = true) ∧
  (∃ (s : State) (a : BitVec 6) (n : Nat) (f : Flit),
    let g := s.cur.word.extractLsb' 12 6
    let v := (s.rS g).v
    let p := (v.extractLsb' 16 16).toNat
    s.issues = true ∧ s.bare = true ∧ (s.rS a).p = false ∧ (s.rS a).v.toNat = n ∧ 1 ≤ n ∧ n ≤ 255 ∧
    (s.corePins s.cur.core).any (fun p => p.whistle == n) = true ∧
    s.flights.all (fun f => !(f.core == s.cur.core && f.mode == .r && f.fp.isNone)) = true) ∧
  (∃ (i : Nat) (b : Barrier) (t : EngineSt),
    t.barw = some { id := b.id, i := i, addr := b.addr }) ∧
  (∃ (s : State) (u : State) (b : Barrier),
    let g := s.cur.word.extractLsb' 12 6
    let v := (s.rS g).v
    let p := (v.extractLsb' 16 16).toNat
    s.barriers.find? (fun b => b.id == s.argN 0) = some b ∧ b.whistle = true ∧ b.state = 5 ∧
    s.pins.all (fun p => !(p.ctx == b.ctx && p.whistle == b.num && p.round + 1 == b.seq)) = true ∧
    (s.countedFor b.ctx b.num (b.seq + 1)).forM settleLaunch s = .ok () u) ∧
  (∃ (s : State) (u : State) (f : Flit),
    s.arrives fGROUP = some (f, u) ∧ some f.dpkg = s.pkgid ∧ f.get 0 = gmARRIVE) :=
  ⟨⟨{ bw 0x20001 4095 0 with barriers := [bar 4095 3] }, 4095, (bar 4095 3), by decide +kernel⟩,
   ⟨{ bw 0x20001 4095 0 with barriers := [bar] }, 4095, bar, by decide +kernel⟩,
   ⟨{ bw 0x20001 4095 0 with barriers := [bar] }, 4095, bar, by decide +kernel⟩,
   ⟨{ bw 0 4095 0 with barriers := [bar] }, 4095, bar, by decide +kernel⟩,
   ⟨{ bw 4 255 0 with barriers := [whi 6] }, 255, (whi 6), by decide +kernel⟩,
   ⟨{ bw 5 1 0 with barriers := [bar 1] }, 1, (bar 1), by decide +kernel⟩,
   ⟨bw 3 4095 0x400 (Bytes.splice [] 0x50400 (leBytes 8 0xFFFF0000 ++ leBytes 8 3)), 4095, _, by and_intros <;> first | decide +kernel | rfl⟩,
   ⟨{ bw 0 4095 4 with barriers := [bar] }, 1, 2, 4095, _, bar, by and_intros <;> first | decide +kernel | rfl⟩,
   ⟨(bw 0 4095 4).onUnit (fun t => { t with barw := some { id := 4, i := 5, addr := 0x400, res := some 1 } }), 1, 2, 4095, 1,
    { id := 4, i := 5, addr := 0x400, res := some 1 }, by decide +kernel⟩,
   ⟨{ bw 0 255 0 with barriers := [whi 4] }, 1, 255, (whi 4), by decide +kernel⟩,
   ⟨{ bw 0 255 0 with barriers := [whi 4], pins := [{ ctx := 7, whistle := 255, round := 4, owner := .core 3 }] }, 1, 255, default, by decide +kernel⟩,
   ⟨5, bar, { barw := some { id := 4, i := 5, addr := 0x400 } }, by decide +kernel⟩,
   ⟨ev [4] { bw 0 255 0 with barriers := [whi 5] }, left_ _, (whi 5),
    (by (try dsimp only); exact ⟨rfl, rfl, rfl, by decide +kernel, fine_ok (by decide +kernel)⟩)⟩,
   ⟨ge [2] grp (flit fGROUP 2 0 21 5 [6, 7, 9, 0, 9, 5]), _, (flitOf (flit fGROUP 2 0 21 5 [6, 7, 9, 0, 9, 5])),
    (by (try dsimp only); and_intros; all_goals (try first | exact came (by decide +kernel)); all_goals first | decide +kernel | rfl | (intro q h; first | (cases h; rfl) | cases h))⟩⟩

theorem witness_BucketWords :
  (∃ (s : State) (u : State) (h : Nat) (y : List Byte),
    let z := (s.rS (s.cur.word.extractLsb' 0 6)).v
    let v := leNat y
    let old := v % 16
    s.issues = true ∧ s.bare = true ∧ (s.rS (s.cur.word.extractLsb' 6 6)).p = false ∧ (s.rS (s.cur.word.extractLsb' 0 6)).p = false ∧
    (s.rS (s.cur.word.extractLsb' 6 6)).v.toNat = h ∧ h % 64 = 0 ∧ s.recordAt h 64 = some y ∧ z.extractLsb' 3 13 = 0 ∧ z.extractLsb' 32 32 = 0 ∧
    z.extractLsb' 0 2 = 0 ∧ old ≠ 1 ∧ old ≠ 2 ∧ old ≠ 4 ∧ headerBad v (z.getLsbD 2) = false ∧ armBucket h v (z.getLsbD 2) s.rung = .ok () u) ∧
  (∃ (s : State) (h : Nat) (y : List Byte),
    let z := (s.rS (s.cur.word.extractLsb' 0 6)).v
    let v := leNat y
    let old := v % 16
    s.issues = true ∧ s.bare = true ∧ (s.rS (s.cur.word.extractLsb' 6 6)).p = false ∧ (s.rS (s.cur.word.extractLsb' 0 6)).p = false ∧
    (s.rS (s.cur.word.extractLsb' 6 6)).v.toNat = h ∧ h % 64 = 0 ∧ s.recordAt h 64 = some y ∧ z.extractLsb' 3 13 = 0 ∧ z.extractLsb' 32 32 = 0 ∧
    z.extractLsb' 0 2 = 1 ∧ z.getLsbD 2 = false ∧ old ≠ 4) ∧
  (∃ (s : State) (h : Nat) (y : List Byte),
    let z := (s.rS (s.cur.word.extractLsb' 0 6)).v
    let v := leNat y
    let old := v % 16
    s.issues = true ∧ s.bare = true ∧ (s.rS (s.cur.word.extractLsb' 6 6)).p = false ∧ (s.rS (s.cur.word.extractLsb' 0 6)).p = false ∧
    (s.rS (s.cur.word.extractLsb' 6 6)).v.toNat = h ∧ h % 64 = 0 ∧ s.recordAt h 64 = some y ∧ z.extractLsb' 3 13 = 0 ∧ z.extractLsb' 32 32 = 0 ∧
    z.extractLsb' 0 2 = 2 ∧ z.getLsbD 2 = false ∧ (old = 1 ∨ old = 2) ∧ (z.extractLsb' 16 16).toNat < fieldOf v 0 31 16) ∧
  (∃ (s : State) (a : BitVec 6) (h : Nat) (y : List Byte),
    s.issues = true ∧ s.bare = true ∧ (s.rS a).p = false ∧ (s.rS a).v.toNat = h ∧ h % 64 = 0 ∧ s.recordAt h 64 = some y) ∧
  (∃ (s : State) (u : State) (b : Bucket) (q : AccChunk),
    let j := (q.addr - b.area) / (4 * b.ec)
    let m := b.chunkLen j
    let next := s.buckets.foldl (fun m x => if x.2.ctx = q.ctx && q.addr < x.2.area then Nat.min m ((x.2.area - q.addr) / 4) else m) (sectorElems q.addr)
    let n := Nat.min q.vals.length (Nat.max 1 next)
    s.accIn[s.argN 0]? = some q ∧ s.brokenOff q = false ∧ s.bucketAt q.ctx q.addr = none ∧ q.vals ≠ [] ∧
    areaSector (s.accPath q.ctx q.src) q.addr (q.vals.take n) .add s = .ok (.ok ()) u) ∧
  (∃ (s : State) (b : Bucket) (q : AccChunk) (id : Nat),
    let judged := b.judge q.addr (q.vals.length + q.more) q.vals.length q.rank q.tag
    s.accIn[s.argN 0]? = some q ∧ s.brokenOff q = false ∧ s.bucketAt q.ctx q.addr = some (id, b) ∧ judged = .duplicate) ∧
  (∃ (s : State) (b : Bucket) (q : AccChunk) (id : Nat),
    let judged := b.judge q.addr (q.vals.length + q.more) q.vals.length q.rank q.tag
    s.accIn[s.argN 0]? = some q ∧ s.brokenOff q = false ∧ s.bucketAt q.ctx q.addr = some (id, b) ∧ judged = .discard) ∧
  (∃ (s : State) (u : State) (b : Bucket) (q : AccChunk) (id : Nat) (r : Option Nat),
    let j := (q.addr - b.area) / (4 * b.ec)
    let m := b.chunkLen j
    let judged := b.judge q.addr (q.vals.length + q.more) q.vals.length q.rank q.tag
    s.accIn[s.argN 0]? = some q ∧ s.brokenOff q = false ∧ s.bucketAt q.ctx q.addr = some (id, b) ∧ judged = .take r ∧
    r.all (fun k => b.order == 0 || b.direct j k || decide (s.heldIn (b.ce j) + 4 * b.ec ≤ heldBytes)) = true ∧
    takeChunk id j b r (q.vals.take m) s = .ok () u) ∧
  (∃ (s : State) (b : Bucket),
    s.bucket (s.argN 0) = some b ∧ s.argN 1 < b.chunks.length ∧ b.move (s.argN 1) ≠ .none ∧ (b.open_ = true ∨ b.state = 6)) :=
  ⟨⟨bw 0 0x400 0 (Bytes.splice [] 0x50400 (leBytes 8 (3 + 16 * 0 + 2 ^ 17 + 2 ^ 32 * 6) ++ leBytes 8 20 ++ leBytes 8 0x1000 ++ leBytes 8 7 ++ leBytes 8 0 ++ leBytes 8 3)),
    left_ _, 0x400,
    (leBytes 8 (3 + 2 ^ 17 + 2 ^ 32 * 6) ++ leBytes 8 20 ++ leBytes 8 0x1000 ++ leBytes 8 7 ++ leBytes 8 0 ++ leBytes 8 3 ++ List.replicate 16 0),
    (by (try dsimp only); (iterate 14 refine ⟨by decide +kernel, ?_⟩); exact fine_ok (by decide +kernel))⟩,
   ⟨bw 0 0x400 1 (Bytes.splice [] 0x50400 (leBytes 8 (3 + 16 * 0 + 2 ^ 17 + 2 ^ 32 * 6) ++ leBytes 8 20 ++ leBytes 8 0x1000 ++ leBytes 8 7 ++ leBytes 8 0 ++ leBytes 8 3)),
    0x400, _, by and_intros <;> first | decide +kernel | rfl⟩,
   ⟨bw 0 0x400 0x10002 (Bytes.splice [] 0x50400 (leBytes 8 (1 + 16 * 1 + 2 ^ 17 + 2 ^ 32 * 6) ++ leBytes 8 20 ++ leBytes 8 0x1000 ++ leBytes 8 7 ++ leBytes 8 0 ++ leBytes 8 3)),
    0x400, _, by and_intros <;> first | decide +kernel | rfl⟩,
   ⟨bw 0 0x400 0 (Bytes.splice [] 0x50400 (leBytes 8 (2 + 16 * 0 + 2 ^ 17 + 2 ^ 32 * 6) ++ leBytes 8 20 ++ leBytes 8 0x1000 ++ leBytes 8 7 ++ leBytes 8 0 ++ leBytes 8 3)),
    1, 0x400, _, by and_intros <;> first | decide +kernel | rfl⟩,
   ⟨ev [0] { bw 0 0 0 with accIn := [{ ctx := 7, src := .hub 44, addr := 0xFF0, rank := none, tag := none, vals := List.replicate 16 0x3F800000, more := 0 }] },
    left_ _, default, { ctx := 7, src := .hub 44, addr := 0xFF0, rank := none, tag := none, vals := List.replicate 16 0x3F800000, more := 0 },
    (by (try dsimp only); (iterate 4 refine ⟨by decide +kernel, ?_⟩); exact went_ok (by decide +kernel))⟩,
   ⟨ev [0] { bw 0 0 0 with accIn := [{ ctx := 7, src := .x 3 5, addr := 0x1000, rank := (some 0), tag := none, vals := List.replicate 16 0x3F800000, more := 0 }], buckets := [(4, { (default : Bucket) with ctx := 7, hdr := 0x400, state := 2, order := 1, csz := 0, exp := 2, ggen := 6, elems := 20, area := 0x1000, chunks := [{ accepted := [0] }, {}], ces := [4, 5], poff := 0xFFFFFFFF })] },
    { (default : Bucket) with ctx := 7, hdr := 0x400, state := 2, order := 1, csz := 0, exp := 2, ggen := 6, elems := 20, area := 0x1000, chunks := [{ accepted := [0] }, {}], ces := [4, 5], poff := 0xFFFFFFFF },
    { ctx := 7, src := .x 3 5, addr := 0x1000, rank := (some 0), tag := none, vals := List.replicate 16 0x3F800000, more := 0 }, 4,
    by decide +kernel⟩,
   ⟨ev [0] { bw 0 0 0 with accIn := [{ ctx := 7, src := .x 3 5, addr := 0x1000, rank := none, tag := none, vals := List.replicate 16 0x3F800000, more := 0 }], buckets := [(4, { (default : Bucket) with ctx := 7, hdr := 0x400, state := 6, order := 0, csz := 0, exp := 2, ggen := 6, elems := 20, area := 0x1000, chunks := [{ accepted := [0] }, {}], ces := [4, 5], poff := 0xFFFFFFFF })] },
    { (default : Bucket) with ctx := 7, hdr := 0x400, state := 6, order := 0, csz := 0, exp := 2, ggen := 6, elems := 20, area := 0x1000, chunks := [{ accepted := [0] }, {}], ces := [4, 5], poff := 0xFFFFFFFF },
    { ctx := 7, src := .x 3 5, addr := 0x1000, rank := none, tag := none, vals := List.replicate 16 0x3F800000, more := 0 }, 4, by decide +kernel⟩,
   ⟨ev [0] { bw 0 0 0 with accIn := [{ ctx := 7, src := .x 3 5, addr := 0x1000, rank := (some 1), tag := none, vals := List.replicate 16 0x3F800000, more := 0 }], buckets := [(4, { (default : Bucket) with ctx := 7, hdr := 0x400, state := 2, order := 1, csz := 0, exp := 2, ggen := 6, elems := 20, area := 0x1000, chunks := [{ accepted := [0] }, {}], ces := [4, 5], poff := 0xFFFFFFFF })] },
    left_ _,
    { (default : Bucket) with ctx := 7, hdr := 0x400, state := 2, order := 1, csz := 0, exp := 2, ggen := 6, elems := 20, area := 0x1000, chunks := [{ accepted := [0] }, {}], ces := [4, 5], poff := 0xFFFFFFFF },
    { ctx := 7, src := .x 3 5, addr := 0x1000, rank := (some 1), tag := none, vals := List.replicate 16 0x3F800000, more := 0 }, 4, (some 1),
    (by (try dsimp only); (iterate 5 refine ⟨by decide +kernel, ?_⟩); exact fine_ok (by decide +kernel))⟩,
   ⟨ev [4, 0] { bw 0 0 0 with buckets := [(4, { (default : Bucket) with ctx := 7, hdr := 0x400, state := 2, order := 1, csz := 0, exp := 2, ggen := 6, elems := 20, area := 0x1000, chunks := [{ accepted := [0], held := [(0, 0, List.replicate 16 0x3F800000)] }, {}], ces := [4, 5], poff := 0xFFFFFFFF })] },
    { (default : Bucket) with ctx := 7, hdr := 0x400, state := 2, order := 1, csz := 0, exp := 2, ggen := 6, elems := 20, area := 0x1000, chunks := [{ accepted := [0], held := [(0, 0, List.replicate 16 0x3F800000)] }, {}], ces := [4, 5], poff := 0xFFFFFFFF },
    by decide +kernel⟩⟩

theorem witness_GroupWords :
  (∃ (s : State) (u : State) (n : Nat) (g : Group) (w : Bool),
    let e := s.cur.word.extractLsb' 12 6
    let v := (s.rS e).v
    let rank := (v.extractLsb' 16 15).toNat
    let me := s.rung.me
    let ctx := me.lastCtx
    s.issues = true ∧ s.bare = true ∧ (s.rS e).p = false ∧ (s.rS (s.cur.word.extractLsb' 6 6)).p = false ∧
    (s.rS (s.cur.word.extractLsb' 0 6)).p = false ∧ (s.rS (s.cur.word.extractLsb' 6 6)).v.toNat = n ∧ n ≤ 255 ∧ (v.extractLsb' 0 4).toNat ≤ 6 ∧
    v.extractLsb' 4 12 = 0 ∧ v.extractLsb' 31 33 = 0 ∧ ((v.extractLsb' 0 4).toNat = 3 ∨ rank = 0) ∧ s.group ctx n = some g ∧ rank < g.members.length ∧
    withdrawRank g.ctx n rank s.rung = .ok w u) ∧
  (∃ (s : State) (u : State) (n : Nat) (g : Group) (i : GroupImage),
    let e := s.cur.word.extractLsb' 12 6
    let v := (s.rS e).v
    let x := (s.rS (s.cur.word.extractLsb' 0 6)).v
    let rank := (v.extractLsb' 16 15).toNat
    let me := s.rung.me
    let ctx := me.lastCtx
    s.issues = true ∧ s.bare = true ∧ (s.rS e).p = false ∧ (s.rS (s.cur.word.extractLsb' 6 6)).p = false ∧
    (s.rS (s.cur.word.extractLsb' 0 6)).p = false ∧ (s.rS (s.cur.word.extractLsb' 6 6)).v.toNat = n ∧ n ≤ 255 ∧ (v.extractLsb' 0 4).toNat ≤ 6 ∧
    v.extractLsb' 4 12 = 0 ∧ v.extractLsb' 31 33 = 0 ∧ ((v.extractLsb' 0 4).toNat = 3 ∨ rank = 0) ∧ s.group ctx n = some g ∧ g.state = 2 ∧
    groupImage x s.rung = .ok i u ∧ g.reshapes i = true ∧
    ((u.groups.filter (fun h => !(h.ctx == g.ctx && h.num == g.num))).map (·.members.length)).sum + i.nmem ≤ memberLimit) ∧
  (∃ (s : State) (n : Nat) (g : Group) (k : Nat),
    let e := s.cur.word.extractLsb' 12 6
    let v := (s.rS e).v
    let rank := (v.extractLsb' 16 15).toNat
    let me := s.rung.me
    let ctx := me.lastCtx
    s.issues = true ∧ s.bare = true ∧ (s.rS e).p = false ∧ (s.rS (s.cur.word.extractLsb' 6 6)).p = false ∧
    (s.rS (s.cur.word.extractLsb' 0 6)).p = false ∧ (s.rS (s.cur.word.extractLsb' 6 6)).v.toNat = n ∧ n ≤ 255 ∧ (v.extractLsb' 0 4).toNat ≤ 6 ∧
    v.extractLsb' 4 12 = 0 ∧ v.extractLsb' 31 33 = 0 ∧ ((v.extractLsb' 0 4).toNat = 3 ∨ rank = 0) ∧ s.group ctx n = some g ∧ me.gang = some k ∧
    (((s.gang k).bind (fun q => s.hubCard q.card)).bind (·.node)).isSome = true ∧ g.catcher = none) ∧
  (∃ (s : State) (n : Nat) (g : Group),
    let e := s.cur.word.extractLsb' 12 6
    let v := (s.rS e).v
    let rank := (v.extractLsb' 16 15).toNat
    let me := s.rung.me
    let ctx := me.lastCtx
    s.issues = true ∧ s.bare = true ∧ (s.rS e).p = false ∧ (s.rS (s.cur.word.extractLsb' 6 6)).p = false ∧
    (s.rS (s.cur.word.extractLsb' 0 6)).p = false ∧ (s.rS (s.cur.word.extractLsb' 6 6)).v.toNat = n ∧ n ≤ 255 ∧ (v.extractLsb' 0 4).toNat ≤ 6 ∧
    v.extractLsb' 4 12 = 0 ∧ v.extractLsb' 31 33 = 0 ∧ ((v.extractLsb' 0 4).toNat = 3 ∨ rank = 0) ∧ s.group ctx n = some g ∧ g.catcher = me.gang ∧
    g.catcher.isSome = true) ∧
  (∃ (s : State) (u : State) (n : Nat) (i : GroupImage),
    let e := s.cur.word.extractLsb' 12 6
    let v := (s.rS e).v
    let x := (s.rS (s.cur.word.extractLsb' 0 6)).v
    let rank := (v.extractLsb' 16 15).toNat
    let me := s.rung.me
    let ctx := me.lastCtx
    s.issues = true ∧ s.bare = true ∧ (s.rS e).p = false ∧ (s.rS (s.cur.word.extractLsb' 6 6)).p = false ∧
    (s.rS (s.cur.word.extractLsb' 0 6)).p = false ∧ (s.rS (s.cur.word.extractLsb' 6 6)).v.toNat = n ∧ n ≤ 255 ∧ (v.extractLsb' 0 4).toNat ≤ 6 ∧
    v.extractLsb' 4 12 = 0 ∧ v.extractLsb' 31 33 = 0 ∧ ((v.extractLsb' 0 4).toNat = 3 ∨ rank = 0) ∧ s.group ctx n = none ∧
    s.groups.length < groupLimit ∧ (s.groups.map (·.members.length)).sum < memberLimit ∧ groupImage x s.rung = .ok i u ∧
    (s.groups.map (·.members.length)).sum + i.nmem ≤ memberLimit) ∧
  (∃ (s : State) (a : BitVec 6) (c : BitVec 6) (n : Nat) (g : Group),
    let me := s.rung.me
    let ctx := me.lastCtx
    let y := (s.rS c).v
    let to_ := (y.extractLsb' 0 15).toNat
    let count := (y.extractLsb' 32 14).toNat
    let m := g.member to_
    let q : Flit := { type := fSIGNAL, vc := 0, rgen := BitVec.ofNat 8 s.rgen, dst := BitVec.ofNat 15 m.pkgid, src := BitVec.ofNat 15 (s.pkgid.getD 0)
                      owner := (ctx, me.region.toNat) }
    let out := s.rung.marks
    s.issues = true ∧ s.bare = true ∧ (s.rS a).p = false ∧ (s.rS a).v.toNat = n ∧ n ≤ 255 ∧ (s.rS c).p = false ∧ s.group ctx n = some g ∧
    y.getLsbD 15 = false ∧ y.getLsbD 23 = false ∧ y.extractLsb' 28 4 = 0 ∧ y.extractLsb' 46 18 = 0 ∧ count ≠ 0 ∧ to_ < g.members.length ∧
    m.mstate = .active ∧ s.rung.settledTo = true ∧ s.rung.remoteDone = true ∧ s.dcache = [] ∧ out.leavesNow q = true ∧ some m.pkgid = s.pkgid ∧
    s.sigHeld g to_ = false) ∧
  (∃ (s : State) (a : BitVec 6) (c : BitVec 6) (n : Nat) (g : Group),
    let me := s.rung.me
    let ctx := me.lastCtx
    let y := (s.rS c).v
    let to_ := (y.extractLsb' 0 15).toNat
    let count := (y.extractLsb' 32 14).toNat
    let m := g.member to_
    let q : Flit := { type := fSIGNAL, vc := 0, rgen := BitVec.ofNat 8 s.rgen, dst := BitVec.ofNat 15 m.pkgid, src := BitVec.ofNat 15 (s.pkgid.getD 0)
                      owner := (ctx, me.region.toNat) }
    let out := s.rung.marks
    s.issues = true ∧ s.bare = true ∧ (s.rS a).p = false ∧ (s.rS a).v.toNat = n ∧ n ≤ 255 ∧ (s.rS c).p = false ∧ s.group ctx n = some g ∧
    y.getLsbD 15 = false ∧ y.getLsbD 23 = false ∧ y.extractLsb' 28 4 = 0 ∧ y.extractLsb' 46 18 = 0 ∧ count ≠ 0 ∧ to_ < g.members.length ∧
    m.mstate = .active ∧ s.rung.settledTo = true ∧ s.rung.remoteDone = true ∧ s.dcache = [] ∧ out.leavesNow q = true ∧ some m.pkgid ≠ s.pkgid) :=
  ⟨⟨{ bw 0x20003 255 0 (Bytes.splice (Bytes.splice [] 0x50400 (leBytes 8 (3 * 65536 + 2 ^ 32) ++ leBytes 8 9 ++ leBytes 8 0x1000 ++ leBytes 8 (0x800 + 2 ^ 40) ++ leBytes 8 0x800)) 0x50800 (leBytes 8 (30 + 65536 + 3 * 2 ^ 24) ++ leBytes 8 (21 + 65536 + 7 * 2 ^ 24) ++ leBytes 8 (33 + 4 * 2 ^ 24))) with groups := [grp] },
    left_ _, 255, grp, val false _, (by (try dsimp only); (iterate 13 refine ⟨by decide +kernel, ?_⟩); exact fine_val _ (by decide +kernel))⟩,
   ⟨{ bw 4 255 0x400 (Bytes.splice (Bytes.splice [] 0x50400 (leBytes 8 (3 * 65536 + 2 ^ 32) ++ leBytes 8 9 ++ leBytes 8 0x1000 ++ leBytes 8 (0x800 + 2 ^ 40) ++ leBytes 8 0x800)) 0x50800 (leBytes 8 (30 + 65536 + 3 * 2 ^ 24) ++ leBytes 8 (21 + 65536 + 7 * 2 ^ 24) ++ leBytes 8 (33 + 4 * 2 ^ 24))) with groups := [grp] },
    left_ _, 255, grp, val default _,
    (by (try dsimp only); (iterate 13 refine ⟨by decide +kernel, ?_⟩); exact ⟨fine_val default (by decide +kernel), by decide +kernel, by decide +kernel⟩)⟩,
   ⟨{ bw 5 255 0 (Bytes.splice (Bytes.splice [] 0x50400 (leBytes 8 (3 * 65536 + 2 ^ 32) ++ leBytes 8 9 ++ leBytes 8 0x1000 ++ leBytes 8 (0x800 + 2 ^ 40) ++ leBytes 8 0x800)) 0x50800 (leBytes 8 (30 + 65536 + 3 * 2 ^ 24) ++ leBytes 8 (21 + 65536 + 7 * 2 ^ 24) ++ leBytes 8 (33 + 4 * 2 ^ 24))) with groups := [grp] },
    255, grp, 1, by decide +kernel⟩,
   ⟨{ bw 6 255 0 (Bytes.splice (Bytes.splice [] 0x50400 (leBytes 8 (3 * 65536 + 2 ^ 32) ++ leBytes 8 9 ++ leBytes 8 0x1000 ++ leBytes 8 (0x800 + 2 ^ 40) ++ leBytes 8 0x800)) 0x50800 (leBytes 8 (30 + 65536 + 3 * 2 ^ 24) ++ leBytes 8 (21 + 65536 + 7 * 2 ^ 24) ++ leBytes 8 (33 + 4 * 2 ^ 24))) with groups := [{ grp with catcher := some 1 }] },
    255, { grp with catcher := some 1 }, by decide +kernel⟩,
   ⟨{ bw 1 255 0x400 (Bytes.splice (Bytes.splice [] 0x50400 (leBytes 8 (3 * 65536 + 2 ^ 32) ++ leBytes 8 9 ++ leBytes 8 0x1000 ++ leBytes 8 (0x800 + 2 ^ 40) ++ leBytes 8 0x800)) 0x50800 (leBytes 8 (30 + 65536 + 3 * 2 ^ 24) ++ leBytes 8 (21 + 65536 + 7 * 2 ^ 24) ++ leBytes 8 (33 + 4 * 2 ^ 24))) with groups := [] },
    left_ _, 255, val default _,
    (by (try dsimp only); (iterate 14 refine ⟨by decide +kernel, ?_⟩); exact ⟨fine_val _ (by decide +kernel), by decide +kernel⟩)⟩,
   ⟨{ ge [] with cores := (bw 0 255 0x3FFF0F000001).cores }, 1, 2, 255, grp, by decide +kernel⟩,
   ⟨{ ge [] with cores := (bw 0 255 0x3FFF0F000000).cores }, 1, 2, 255, grp, by decide +kernel⟩⟩

theorem witness_GroupEvents_1 :
  (∃ (s : State) (u : State) (f : Flit) (g : Group),
    let r := f.get 3
    some f.dpkg = s.pkgid ∧ s.arrives fGROUP = some (f, u) ∧ u.group (BitVec.ofNat 8 (f.get 1)) (f.get 2) = some g ∧ r < g.members.length ∧
    (g.member r).mstate ≠ .gone ∧ f.get 0 = gmHELLO) ∧
  (∃ (s : State) (u : State) (f : Flit) (g : Group),
    let r := f.get 3
    some f.dpkg = s.pkgid ∧ s.arrives fGROUP = some (f, u) ∧ u.group (BitVec.ofNat 8 (f.get 1)) (f.get 2) = some g ∧ r < g.members.length ∧
    (g.member r).mstate ≠ .gone ∧ f.get 0 = gmANSWER) ∧
  (∃ (s : State) (u : State) (f : Flit) (g : Group),
    let r := f.get 3
    some f.dpkg = s.pkgid ∧ s.arrives fGROUP = some (f, u) ∧ u.group (BitVec.ofNat 8 (f.get 1)) (f.get 2) = some g ∧ r < g.members.length ∧
    (g.member r).mstate ≠ .gone ∧ f.get 0 = gmCONFIRM) ∧
  (∃ (s : State) (u : State) (f : Flit) (g : Group),
    let r := f.get 3
    some f.dpkg = s.pkgid ∧ s.arrives fGROUP = some (f, u) ∧ u.group (BitVec.ofNat 8 (f.get 1)) (f.get 2) = some g ∧ r < g.members.length ∧
    (g.member r).mstate ≠ .gone ∧ f.get 0 = gmFENCE) :=
  ⟨⟨ge [2] grp (flit fGROUP 2 0 21 5 [0, 7, 255, 0] []), _, (flitOf (flit fGROUP 2 0 21 5 [0, 7, 255, 0] [])), grp,
    (by (try dsimp only); and_intros; all_goals (try first | exact came (by decide +kernel)); all_goals first | decide +kernel | rfl | (intro q h; first | (cases h; rfl) | cases h))⟩,
   ⟨ge [2] grp (flit fGROUP 2 0 21 5 [1, 7, 255, 0, 6, 7] []), _, (flitOf (flit fGROUP 2 0 21 5 [1, 7, 255, 0, 6, 7] [])), grp,
    (by (try dsimp only); and_intros; all_goals (try first | exact came (by decide +kernel)); all_goals first | decide +kernel | rfl | (intro q h; first | (cases h; rfl) | cases h))⟩,
   ⟨ge [2] grp (flit fGROUP 2 0 21 5 [2, 7, 255, 2, 6, 7] []), _, (flitOf (flit fGROUP 2 0 21 5 [2, 7, 255, 2, 6, 7] [])), grp,
    (by (try dsimp only); and_intros; all_goals (try first | exact came (by decide +kernel)); all_goals first | decide +kernel | rfl | (intro q h; first | (cases h; rfl) | cases h))⟩,
   ⟨ge [2] grp (flit fGROUP 2 0 21 5 [3, 7, 255, 0, 6] []), _, (flitOf (flit fGROUP 2 0 21 5 [3, 7, 255, 0, 6] [])), grp,
    (by (try dsimp only); and_intros; all_goals (try first | exact came (by decide +kernel)); all_goals first | decide +kernel | rfl | (intro q h; first | (cases h; rfl) | cases h))⟩⟩

theorem witness_GroupEvents_2 :
  (∃ (s : State) (u : State) (v : State) (f : Flit) (g : Group) (w : Bool),
    let r := f.get 3
    let kept := fun (g : Group) => u.does (keepGroup g)
    some f.dpkg = s.pkgid ∧ s.arrives fGROUP = some (f, u) ∧ u.group (BitVec.ofNat 8 (f.get 1)) (f.get 2) = some g ∧ r < g.members.length ∧
    (g.member r).mstate ≠ .gone ∧ f.get 0 = gmNOTICE ∧
    withdrawRank g.ctx g.num (f.get 4) (kept { g with acks := if g.acks.contains (f.get 4, r) then g.acks else g.acks ++ [(f.get 4, r)] }) = .ok w v) ∧
  (∃ (s : State) (u : State) (f : Flit) (g : Group),
    let r := f.get 3
    some f.dpkg = s.pkgid ∧ s.arrives fGROUP = some (f, u) ∧ u.group (BitVec.ofNat 8 (f.get 1)) (f.get 2) = some g ∧ r < g.members.length ∧
    (g.member r).mstate ≠ .gone ∧ f.get 0 = gmACK) ∧
  (∃ (s : State) (f : Flit) (g : Group) (q : RemoteIn),
    let n := s.argN 2
    some f.dpkg = s.pkgid ∧ s.group (BitVec.ofNat 8 (s.argN 0)) (s.argN 1) = some g ∧ (g.member n).mstate = .withdrawing ∧ n < g.members.length ∧
    n ≠ g.self ∧ s.rankBusy g n = false ∧
    (g.ranks [.active, .joining, .withdrawing]).all (fun q => q == n || q == g.self || g.acks.contains (n, q)) = true) ∧
  (∃ (s : State) (f : Flit) (g : Group) (ctx : _) (n : _) (k : _) (dpkg : _) (body : _),
    some f.dpkg = s.pkgid ∧ lookup (s.argN 0) s.xfers = some (.msg ctx n k dpkg body true) ∧ s.group ctx n = some g ∧ (g.member k).mstate = .active) :=
  ⟨⟨ge [2] grp (flit fGROUP 2 0 21 5 [4, 7, 255, 0, 2] []), _, left_ _, (flitOf (flit fGROUP 2 0 21 5 [4, 7, 255, 0, 2] [])), grp, val false _,
    (by (try dsimp only); and_intros; all_goals (try first | exact came (by decide +kernel) | exact fine_val false (by decide +kernel)); all_goals first | decide +kernel | rfl | (intro q h; first | (cases h; rfl) | cases h))⟩,
   ⟨ge [2] grp (flit fGROUP 2 0 21 5 [5, 7, 255, 0, 1] []), _, (flitOf (flit fGROUP 2 0 21 5 [5, 7, 255, 0, 1] [])), grp,
    (by (try dsimp only); and_intros; all_goals (try first | exact came (by decide +kernel)); all_goals first | decide +kernel | rfl | (intro q h; first | (cases h; rfl) | cases h))⟩,
   ⟨ge [7, 255, 2], { (default : Flit) with dst := 21 }, grp,
    { (default : RemoteIn) with spkg := 30, xid := 5, op := opRWRITE, ctx := 7, grp := 255, rank := 0, base := 0x1000, len := 128, left := 128 },
    (by (try dsimp only); and_intros; all_goals (try first | (show State.arrives _ _ = _; exact rfl) | (show lookup _ _ = _; exact rfl)); all_goals first | decide +kernel | rfl | (intro q h; first | (cases h; rfl) | cases h))⟩,
   ⟨{ ge [4] with xfers := [(4, .msg 7 255 0 30 [2, 3, 255, 1, 7] true), (5, .card (.x 3 5) 0), (6, .rsig 3 0 100)] },
    { (default : Flit) with dst := 21 }, grp, _, _, _, _, _,
    (by (try dsimp only); and_intros; all_goals (try first | (show State.arrives _ _ = _; exact rfl) | (show lookup _ _ = _; exact rfl)); all_goals first | decide +kernel | rfl | (intro q h; first | (cases h; rfl) | cases h))⟩⟩

theorem witness_GroupEvents_3 :
  (∃ (s : State) (u : State) (f : Flit) (x : XferOf) (y : _) (k : _),
    some f.dpkg = s.pkgid ∧ s.arrives fREPORT = some (f, u) ∧ lookup f.xid u.xfers = some x ∧ f.get 0 = 0 ∧ u.lossHere f.xid = false ∧ x = .card y k) ∧
  (∃ (s : State) (u : State) (f : Flit) (x : XferOf),
    some f.dpkg = s.pkgid ∧ s.arrives fREPORT = some (f, u) ∧ lookup f.xid u.xfers = some x ∧ f.get 0 = 1 ∧ f.get 3 ≠ fREPORT.toNat) ∧
  (∃ (s : State) (u : State) (f : Flit) (x : XferOf) (c : BitVec 8) (c : _) (rank : _) (pc : _),
    some f.dpkg = s.pkgid ∧ s.arrives fREPORT = some (f, u) ∧ lookup f.xid u.xfers = some x ∧ f.get 0 = 3 ∧ x = .rsig c rank pc) ∧
  (∃ (s : State) (u : State) (f : Flit),
    some f.dpkg = s.pkgid ∧ s.arrives fREPORT = some (f, u) ∧ f.get 0 = 1 ∧ f.get 3 = fREPORT.toNat) :=
  ⟨⟨{ ge [2] grp (flit fREPORT 1 0 21 5 [0, 5, 77] []) with xfers := [(4, .msg 7 255 0 30 [2, 3, 255, 1, 7] true), (5, .card (.x 3 5) 0), (6, .rsig 3 0 100)] },
    _, (flitOf (flit fREPORT 1 0 21 5 [0, 5, 77] [])), (.card (.x 3 5) 0), (.x 3 5), 0,
    (by (try dsimp only); and_intros; all_goals (try first | exact came (by decide +kernel)); all_goals first | decide +kernel | rfl | (intro q h; first | (cases h; rfl) | cases h))⟩,
   ⟨{ ge [2] grp (flit fREPORT 1 0 21 5 [1, 2, 3, 1] []) with xfers := [(4, .msg 7 255 0 30 [2, 3, 255, 1, 7] true), (5, .card (.x 3 5) 0), (6, .rsig 3 0 100)] },
    _, (flitOf (flit fREPORT 1 0 21 5 [1, 2, 3, 1] [])), (.card (.x 3 5) 0),
    (by (try dsimp only); and_intros; all_goals (try first | exact came (by decide +kernel)); all_goals first | decide +kernel | rfl | (intro q h; first | (cases h; rfl) | cases h))⟩,
   ⟨{ ge [2] grp (flit fREPORT 1 0 21 6 [3] []) with xfers := [(4, .msg 7 255 0 30 [2, 3, 255, 1, 7] true), (5, .card (.x 3 5) 0), (6, .rsig 3 0 100)] },
    _, (flitOf (flit fREPORT 1 0 21 6 [3] [])), (.rsig 3 0 100), 3, 3, 0, 100,
    (by (try dsimp only); and_intros; all_goals (try first | exact came (by decide +kernel)); all_goals first | decide +kernel | rfl | (intro q h; first | (cases h; rfl) | cases h))⟩,
   ⟨ge [2] grp (flit fREPORT 1 0 21 5 [1, 0, 0, 3, 30, 0] []), _, (flitOf (flit fREPORT 1 0 21 5 [1, 0, 0, 3, 30, 0] [])),
    (by (try dsimp only); and_intros; all_goals (try first | exact came (by decide +kernel)); all_goals first | decide +kernel | rfl | (intro q h; first | (cases h; rfl) | cases h))⟩⟩

theorem witness_GroupEvents_4 :
  (∃ (s : State) (u : State) (f : Flit),
    some f.dpkg = s.pkgid ∧ s.arrives fREPORT = some (f, u) ∧ f.get 0 = 4) ∧
  (∃ (s : State) (u : State) (f : Flit),
    some f.dpkg = s.pkgid ∧ s.arrives fREPORT = some (f, u) ∧ f.get 0 = 2) ∧
  (∃ (s : State) (u : State) (f : Flit) (c : BitVec 8),
    let r := f.get 3
    let y := cardFlit f
    some f.dpkg = s.pkgid ∧ s.arrives fCARD = some (f, u) ∧ u.remoteIn.all (fun r => !r.is f.spkg f.xid) = true ∧ u.refusal y = some c) :=
  ⟨⟨ge [2] grp (flit fREPORT 1 0 21 5 [4] []), _, (flitOf (flit fREPORT 1 0 21 5 [4] [])),
    (by (try dsimp only); and_intros; all_goals (try first | exact came (by decide +kernel)); all_goals first | decide +kernel | rfl | (intro q h; first | (cases h; rfl) | cases h))⟩,
   ⟨ge [2] grp (flit fREPORT 1 0 21 5 [2, 7, 9, 16, 64, 6] []), _, (flitOf (flit fREPORT 1 0 21 5 [2, 7, 9, 16, 64, 6] [])),
    (by (try dsimp only); and_intros; all_goals (try first | exact came (by decide +kernel)); all_goals first | decide +kernel | rfl | (intro q h; first | (cases h; rfl) | cases h))⟩,
   ⟨ge [2] grp (flit fCARD 0 0 21 5 [opRWRITE, 255, 0, 0x40, 3, 0, 7, 128, 1] []), _,
    (flitOf (flit fCARD 0 0 21 5 [opRWRITE, 255, 0, 0x40, 3, 0, 7, 128, 1] [])), cLINK,
    (by (try dsimp only); and_intros; all_goals (try first | exact came (by decide +kernel)); all_goals first | decide +kernel | rfl | (intro q h; first | (cases h; rfl) | cases h))⟩⟩

theorem witness_GroupEvents_5 :
  (∃ (s : State) (u : State) (v : State) (t : State) (f : Flit) (ids : List Nat),
    let r := f.get 3
    let y := cardFlit f
    let base := ((u.group y.ctx y.grp).map (·.wbase)).getD 0 + y.off
    let o := Owner.remote (remoteOwner f)
    let rs := if y.op = opMCAST || y.dest = 0 then [] else rangeOf false (if y.op = opRWRITE then .w else .acc) base (base + y.dest - 1 : Nat)
    some f.dpkg = s.pkgid ∧ s.arrives fCARD = some (f, u) ∧ u.remoteIn.all (fun r => !r.is f.spkg f.xid) = true ∧ u.refusal y = none ∧
    windowOk y.ctx y.op (y.dest / 0x10000 + 2) base (base + y.dest) u = .ok none v ∧ enterFps (.owner o) o y.ctx 0 rs true v = .ok (.entered ids) t) ∧
  (∃ (s : State) (u : State) (v : State) (t : State) (f : Flit),
    let r := f.get 3
    let y := cardFlit f
    let base := ((u.group y.ctx y.grp).map (·.wbase)).getD 0 + y.off
    let o := Owner.remote (remoteOwner f)
    let rs := if y.op = opMCAST || y.dest = 0 then [] else rangeOf false (if y.op = opRWRITE then .w else .acc) base (base + y.dest - 1 : Nat)
    some f.dpkg = s.pkgid ∧ s.arrives fCARD = some (f, u) ∧ u.remoteIn.all (fun r => !r.is f.spkg f.xid) = true ∧ u.refusal y = none ∧
    windowOk y.ctx y.op (y.dest / 0x10000 + 2) base (base + y.dest) u = .ok none v ∧ enterFps (.owner o) o y.ctx 0 rs true v = .ok .waiting t) :=
  ⟨⟨ge [2] grp (flit fCARD 0 0 21 5 [opRWRITE, 255, 0, 0x40, 6, 0, 7, 128, 1] []), _, left_ _, left_ _,
    (flitOf (flit fCARD 0 0 21 5 [opRWRITE, 255, 0, 0x40, 6, 0, 7, 128, 1] [])), [6],
    (by (try dsimp only); and_intros; all_goals (try first | exact came (by decide +kernel) | exact fine_is (by decide +kernel)); all_goals first | decide +kernel | rfl | (intro q h; first | (cases h; rfl) | cases h))⟩,
   ⟨{ ge [2] grp (flit fCARD 0 0 21 5 [opRWRITE, 255, 0, 0x40, 6, 0, 7, 128, 1] []) with ctxs := [(7, { state := .running, regions := [{ root7 with fpent := 1 }], rcount := 1 })] },
    _, left_ _, left_ _, (flitOf (flit fCARD 0 0 21 5 [opRWRITE, 255, 0, 0x40, 6, 0, 7, 128, 1] [])),
    (by (try dsimp only); and_intros; all_goals (try first | exact came (by decide +kernel) | exact fine_is (by decide +kernel)); all_goals first | decide +kernel | rfl | (intro q h; first | (cases h; rfl) | cases h))⟩⟩

theorem witness_GroupEvents_6 :
  ∃ (s : State) (u : State) (v : State) (f : Flit) (q : RemoteIn),
    let r := f.get 3
    some f.dpkg = s.pkgid ∧ s.arrives fDATA = some (f, u) ∧ u.remoteIn.find? (fun r => r.is f.spkg f.xid) = some q ∧
    (q.waiting = false ∨ q.fault ≠ none) ∧ takeData q f u = .ok () v :=
  ⟨{ ge [2] grp (flit fDATA 0 0 21 5 [] (List.replicate 64 5)) with remoteIn := [{ (default : RemoteIn) with spkg := 30, xid := 5, op := opRWRITE, ctx := 7, grp := 255, rank := 0, base := 0x1000, len := 128, left := 128 }] },
   _, left_ _, (flitOf (flit fDATA 0 0 21 5 [] (List.replicate 64 5))),
   { (default : RemoteIn) with spkg := 30, xid := 5, op := opRWRITE, ctx := 7, grp := 255, rank := 0, base := 0x1000, len := 128, left := 128 },
   (by (try dsimp only); and_intros; all_goals (try first | exact came (by decide +kernel) | exact fine_ok (by decide +kernel)); all_goals first | decide +kernel | rfl | (intro q h; first | (cases h; rfl) | cases h))⟩

theorem witness_GroupEvents_7 :
  (∃ (s : State) (u : State) (f : Flit) (g : Group) (k : _),
    some f.dpkg = s.pkgid ∧ s.arrives fSIGNAL = some (f, u) ∧ u.group (BitVec.ofNat 8 (f.get 0)) (f.get 1) = some g ∧ g.catcher = some k) ∧
  (∃ (s : State) (u : State) (f : Flit) (g : Group),
    some f.dpkg = s.pkgid ∧ s.arrives fSIGNAL = some (f, u) ∧ u.group (BitVec.ofNat 8 (f.get 0)) (f.get 1) = some g ∧ g.catcher = none ∧
    g.sigs.length < sigRoom) ∧
  (∃ (s : State) (u : State) (f : Flit) (g : Group),
    some f.dpkg = s.pkgid ∧ s.arrives fSIGNAL = some (f, u) ∧ u.group (BitVec.ofNat 8 (f.get 0)) (f.get 1) = some g ∧ g.catcher = none ∧
    ¬ g.sigs.length < sigRoom) :=
  ⟨⟨ge [2] { grp with catcher := some 1 } (flit fSIGNAL 0 0 21 5 [7, 255, 1, 0, 3, 5] []), _, (flitOf (flit fSIGNAL 0 0 21 5 [7, 255, 1, 0, 3, 5] [])),
    { grp with catcher := some 1 }, 1,
    (by (try dsimp only); and_intros; all_goals (try first | exact came (by decide +kernel)); all_goals first | decide +kernel | rfl | (intro q h; first | (cases h; rfl) | cases h))⟩,
   ⟨ge [2] grp (flit fSIGNAL 0 0 21 5 [7, 255, 1, 0, 3, 5] []), _, (flitOf (flit fSIGNAL 0 0 21 5 [7, 255, 1, 0, 3, 5] [])), grp,
    (by (try dsimp only); and_intros; all_goals (try first | exact came (by decide +kernel)); all_goals first | decide +kernel | rfl | (intro q h; first | (cases h; rfl) | cases h))⟩,
   ⟨ge [2] { grp with sigs := List.replicate 4096 default } (flit fSIGNAL 0 0 21 5 [7, 255, 1, 0, 3, 5] []), _,
    (flitOf (flit fSIGNAL 0 0 21 5 [7, 255, 1, 0, 3, 5] [])), { grp with sigs := List.replicate 4096 default },
    (by (try dsimp only); and_intros; all_goals (try first | exact came (by decide +kernel)); all_goals first | decide +kernel | rfl | (intro q h; first | (cases h; rfl) | cases h))⟩⟩

theorem witness_StackKernels :
  (∃ (s : State) (u : State) (q : LaunchReq) (p : LaunchParam) (l : Launch) (e : Bad) (id : Nat),
    let i := s.argN 0
    let num := q.id.getD s.launchNext
    let at_ := { s with launchNext := Nat.max s.launchNext (num + 1), skReqs := s.skReqs.set i { q with id := some num } }
    let checks := (do let p ← launchParam { q with id := some num }; let l ← readImage q.ctx q.src q.handle p; return (p, l) : Check (LaunchParam × Launch)).run at_
    s.skReqs[i]? = some q ∧ (s.ctx q.ctx).dispatches = true ∧ checks = .ok (.error e) u) ∧
  (∃ (s : State) (u : State) (v : State) (q : LaunchReq) (p : LaunchParam) (l : Launch) (ids : List Nat) (id : Nat),
    let i := s.argN 0
    let num := q.id.getD s.launchNext
    let at_ := { s with launchNext := Nat.max s.launchNext (num + 1), skReqs := s.skReqs.set i { q with id := some num } }
    let checks := (do let p ← launchParam { q with id := some num }; let l ← readImage q.ctx q.src q.handle p; return (p, l) : Check (LaunchParam × Launch)).run at_
    s.skReqs[i]? = some q ∧ (s.ctx q.ctx).dispatches = true ∧ checks = .ok (.ok (p, l)) u ∧
    enterFps (.owner (.launch num)) (.launch num) q.ctx l.region (l.ranges p) true u = .ok (.entered ids) v ∧ v.widenConflict num l p = none) ∧
  (∃ (s : State) (u : State) (v : State) (q : LaunchReq) (p : LaunchParam) (l : Launch) (ids : List Nat) (id : Nat) (f : _),
    let i := s.argN 0
    let num := q.id.getD s.launchNext
    let at_ := { s with launchNext := Nat.max s.launchNext (num + 1), skReqs := s.skReqs.set i { q with id := some num } }
    let checks := (do let p ← launchParam { q with id := some num }; let l ← readImage q.ctx q.src q.handle p; return (p, l) : Check (LaunchParam × Launch)).run at_
    s.skReqs[i]? = some q ∧ (s.ctx q.ctx).dispatches = true ∧ checks = .ok (.ok (p, l)) u ∧
    enterFps (.owner (.launch num)) (.launch num) q.ctx l.region (l.ranges p) true u = .ok (.entered ids) v ∧ v.widenConflict num l p = some f) ∧
  (∃ (s : State) (l : Launch) (id : Nat) (n : Nat) (r : Run),
    let i := s.argN 0
    let c := s.ce i
    i < 384 ∧ c.run = none ∧ s.ceBest i (s.ceWaiting i) = [(id, l, some (n, r))]) ∧
  (∃ (s : State) (l : Launch) (id : Nat) (j : Nat),
    let i := s.argN 0
    let c := s.ce i
    i < 384 ∧ c.run = none ∧ s.ceBest i (s.ceWaiting i) = [(id, l, none)] ∧ l.todo.find? (fun j => l.ce j == i) = some j) ∧
  (∃ (s : State) (u : State) (v : State) (w : CeWord) (l : Launch) (e : Bad) (fi : Nat) (wi : Nat) (r : Run) (fv : Option (BitVec 512)) (pub : Bool),
    let g := s.cur.ce
    (s.ce g).run = some r ∧ lookup r.launch s.launches = some l ∧ l.cancelled = false ∧ (s.ctx l.ctx).state ≠ .dumping ∧ l.poisoned = false ∧
    w.chk = false ∧ fSlot w g l r s = .ok (fv, fi) u ∧ wSlot w g l r u = .ok (wi, pub, some e) v) ∧
  (∃ (s : State) (u : State) (v : State) (w : CeWord) (l : Launch) (fi : Nat) (wi : Nat) (r : Run) (fv : Option (BitVec 512)) (pub : Bool),
    let g := s.cur.ce
    (s.ce g).run = some r ∧ lookup r.launch s.launches = some l ∧ l.cancelled = false ∧ (s.ctx l.ctx).state ≠ .dumping ∧ l.poisoned = false ∧
    w.chk = false ∧ fSlot w g l r s = .ok (fv, fi) u ∧ wSlot w g l r u = .ok (wi, pub, none) v ∧ w.stop = false) ∧
  (∃ (s : State) (u : State) (v : State) (t : State) (w : CeWord) (l : Launch) (e : Bad) (fi : Nat) (wi : Nat) (r : Run) (fv : Option (BitVec 512))
    (pub : Bool) (b : _),
    let g := s.cur.ce
    let e1 := match fv with
      | some x => r.e.set w.fdst.toFin x
      | none => r.e
    let ap := r.ap.set w.fap.toFin (r.ap[w.fap.toFin] + BitVec.ofNat 64 fi)
    let x : Run := { r with e := if w.aop = .enop then e1 else e1.set w.ad.toFin (aSlot w l r)
                            ap := ap.set w.wap.toFin (ap[w.wap.toFin] + BitVec.ofNat 64 wi), pub := pub }
    (s.ce g).run = some r ∧ lookup r.launch s.launches = some l ∧ l.cancelled = false ∧ (s.ctx l.ctx).state ≠ .dumping ∧ l.poisoned = false ∧
    w.chk = false ∧ fSlot w g l r s = .ok (fv, fi) u ∧ wSlot w g l r u = .ok (wi, pub, none) v ∧ w.stop = true ∧ cePublish l g x v = .ok b t) ∧
  (∃ (s : State) (u : State) (l : Launch) (k : Launch) (j : Nat) (r : Run),
    let i := s.argN 0
    let c := s.ce i
    let here := fun (r : Run) => r.launch == i
    lookup i s.launches = some l ∧ l.cancelled = false ∧ (s.ctx l.ctx).serves = true ∧
    s.ces.all (fun c => !c.2.run.any here && !c.2.slots.any (fun x => here x.2.2)) = true ∧ l.todo.all (fun j => l.stopped.contains (l.ce j)) = true ∧
    settleLaunch i s = .ok () u ∧ lookup i u.launches = some k ∧ k.src = .page) ∧
  (∃ (s : State) (u : State) (l : Launch) (k : Launch) (j : Nat) (r : Run) (b : _) (x : _),
    let i := s.argN 0
    let c := s.ce i
    let here := fun (r : Run) => r.launch == i
    lookup i s.launches = some l ∧ l.cancelled = false ∧ (s.ctx l.ctx).serves = true ∧
    s.ces.all (fun c => !c.2.run.any here && !c.2.slots.any (fun x => here x.2.2)) = true ∧ l.todo.all (fun j => l.stopped.contains (l.ce j)) = true ∧
    settleLaunch i s = .ok () u ∧ lookup i u.launches = some k ∧ k.src = .bucket b ∧ u.bucket b = some x) ∧
  (∃ (s : State) (u : State) (l : Launch) (k : Launch) (j : Nat) (r : Run) (m : _) (h : _),
    let i := s.argN 0
    let c := s.ce i
    let here := fun (r : Run) => r.launch == i
    lookup i s.launches = some l ∧ l.cancelled = false ∧ (s.ctx l.ctx).serves = true ∧
    s.ces.all (fun c => !c.2.run.any here && !c.2.slots.any (fun x => here x.2.2)) = true ∧ l.todo.all (fun j => l.stopped.contains (l.ce j)) = true ∧
    settleLaunch i s = .ok () u ∧ lookup i u.launches = some k ∧ k.src = .card m ∧ u.hubCard m = some h ∧ h.node = none) :=
  ⟨⟨sk [0] [{ ctx := 7, src := .page, handle := 0x8001, param := 0x400 }] [] {}, _, { ctx := 7, src := .page, handle := 0x8001, param := 0x400 },
    default, la, _, 3, by and_intros <;> first | decide +kernel | rfl⟩,
   ⟨sk [0] [{ ctx := 7, src := .page, handle := 0x8000, param := 0x400 }] [] {}, _, _, { ctx := 7, src := .page, handle := 0x8000, param := 0x400 }, _,
    _, _, 3, by and_intros <;> first | decide +kernel | rfl⟩,
   ⟨{ sk [0] [{ ctx := 7, src := .bucket 4, handle := 0x8000, param := 0 }] [] {} with buckets := [(4, { (default : Bucket) with ctx := 7, area := 0x1000, elems := 4, csz := 1, ces := [0], fps := [5] })], fps := [{ id := 5, ctx := 7, owner := .bucket 4, base := 0x1000, len := 1, mode := .rw, region := 0 }, { id := 6, ctx := 7, owner := .core 3, base := 0x1040, len := 1, mode := .w, region := 0 }] },
    _, _, { ctx := 7, src := .bucket 4, handle := 0x8000, param := 0 }, _, _, _, 3, _, by and_intros <;> first | decide +kernel | rfl⟩,
   ⟨sk [0] [] [(3, la)] { slots := [(1, 0, ru)] }, la, 3, 1, ru, by decide +kernel⟩,
   ⟨sk [0] [] [(3, la)] {}, la, 3, 0, by decide +kernel⟩,
   ⟨{ sk [] [] [(3, { la with csz := 1 })] { run := some ru } with uncorr := [0x52000 / 64], tlb := [{ cache := .base 0, ctx := 7, vbase := 0, size := 0x10000, pte := BitVec.ofNat 64 (0x1002F + 0x500 * 2 ^ 22) }] },
    _, left_ _, { ceW false with wop := .wstm, wimm := 8 }, { la with csz := 1 }, (cUNCORR, 0x52000), 0, 0, ru, none, false,
    (by (try dsimp only); (iterate 6 refine ⟨by decide +kernel, ?_⟩); exact ⟨rfl, fine_is (by decide +kernel)⟩)⟩,
   ⟨sk [] [] [(3, la)] { run := some ru }, _, _, (ceW false), la, _, _, ru, _, _, by and_intros <;> first | decide +kernel | rfl⟩,
   ⟨sk [] [] [(3, la)] { run := some ru }, _, _, _, (ceW true), la, (0, 0), _, _, ru, _, _, _, by and_intros <;> first | decide +kernel | rfl⟩,
   ⟨sk [3] [] [(3, { la with todo := [] })] {}, left_ _, { la with todo := [] }, { la with todo := [] }, 0, ru,
    (by (try dsimp only); (iterate 5 refine ⟨by decide +kernel, ?_⟩); exact ⟨fine_ok (by decide +kernel), by decide +kernel, by decide +kernel⟩)⟩,
   ⟨{ sk [3] [] [(3, { la (.bucket 4) with todo := [] })] {} with buckets := [(4, { (default : Bucket) with ctx := 7, state := 4, launch := some 3 })] },
    left_ _, { la (.bucket 4) with todo := [] }, { la (.bucket 4) with todo := [] }, 0, ru, 4,
    { (default : Bucket) with ctx := 7, state := 4, launch := some 3 },
    (by (try dsimp only); (iterate 5 refine ⟨by decide +kernel, ?_⟩); exact ⟨fine_ok (by decide +kernel), by decide +kernel, by decide +kernel, by decide +kernel⟩)⟩,
   ⟨{ sk [3] [] [(3, { la (.card 44) with todo := [] })] {} with hub := [(44, { hc 8 with st := .running })] }, left_ _,
    { la (.card 44) with todo := [] }, { la (.card 44) with todo := [] }, 0, ru, 44, { hc 8 with st := .running },
    (by (try dsimp only); (iterate 5 refine ⟨by decide +kernel, ?_⟩); exact ⟨fine_ok (by decide +kernel), by decide +kernel, by decide +kernel, by decide +kernel, by decide +kernel⟩)⟩⟩

theorem witness_StreamsAndArray :
  (∃ (s : State) (u : State) (v : State) (n : Nat) (x : Stream) (e : VecReg) (bs : List (Option Byte)) (base : Int),
    let c := s.argN 0
    let k := s.core c
    let a := s.atCore c .A
    let ps := x.desc.entry base x.next
    let next := fun (e : VecReg) => ({ x with next := x.next + 1, psn := x.psn || e.p != 0 } : Stream)
    s.argN 0 < 96 ∧ k.unitsRun = true ∧ s.argN 1 = n ∧ n < 16 ∧ k.streams[Fin.ofNat 16 n] = some x ∧ x.re = false ∧
    (x.desc.space ≠ 2 ∨ x.next < x.desc.entries) ∧ 0 < k.roomInStream x ∧ streamBase x.desc a = .ok base a ∧ x.desc.isIn = true ∧ s.argN 2 = 0 ∧
    (k.iq[x.desc.inq.toFin]).length < Nat.max x.desc.depth.toNat k.iqWant[x.desc.inq.toFin] ∧
    k.cardsBlock x.seq (pieceRanges (x.desc.space != 1) .r ps) = false ∧
    readPieces { a.pathOf c .A with early := x.early } (x.desc.space == 1) ps a = .ok bs u ∧
    advanceStream (BitVec.ofNat 4 n) { next (entryOf bs) with early := [] } (u.onMe (fun k => { k with iq := k.iq.set x.desc.inq.toFin (k.iq[x.desc.inq.toFin] ++ [entryOf bs]) })) = .ok () v) ∧
  (∃ (s : State) (u : State) (v : State) (n : Nat) (x : Stream) (e : VecReg) (es : List VecReg) (base : Int),
    let c := s.argN 0
    let k := s.core c
    let a := s.atCore c .A
    let ps := x.desc.entry base x.next
    let next := fun (e : VecReg) => ({ x with next := x.next + 1, psn := x.psn || e.p != 0 } : Stream)
    let p := if x.desc.acc then (a.pathOf c .A).bypass else a.pathOf c .A
    s.argN 0 < 96 ∧ k.unitsRun = true ∧ s.argN 1 = n ∧ n < 16 ∧ k.streams[Fin.ofNat 16 n] = some x ∧ x.re = false ∧
    (x.desc.space ≠ 2 ∨ x.next < x.desc.entries) ∧ 0 < k.roomInStream x ∧ streamBase x.desc a = .ok base a ∧ x.desc.isIn = false ∧
    k.oq[x.desc.outq.toFin] = e :: es ∧ k.cardsBlock x.seq (pieceRanges (x.desc.space != 1) x.desc.mode ps) = false ∧
    writePieces p (x.desc.space == 1) x.desc.acc false ps (leBytes 512 e.v.toNat) (a.onMe (fun k => { k with oq := k.oq.set x.desc.outq.toFin es })) = .ok none u ∧
    advanceStream (BitVec.ofNat 4 n) (next e) u = .ok () v) ∧
  (∃ (s : State) (n : Nat) (r : SpRing) (y : Subscription),
    let c := s.argN 0
    let k := s.core c
    s.argN 0 < 96 ∧ k.unitsRun = true ∧ s.argN 1 = n ∧ n < 8 ∧ k.rings[Fin.ofNat 8 n] = some r ∧ r.sub = some y ∧ y.store = false ∧ y.busy = true) ∧
  (∃ (s : State) (u : State) (v : State) (n : Nat) (r : SpRing) (y : Subscription),
    let c := s.argN 0
    let k := s.core c
    let a := s.atCore c .A
    let f := y.filled
    let len := r.tileLen y f
    let ps := r.tilePieces y f
    s.argN 0 < 96 ∧ k.unitsRun = true ∧ s.argN 1 = n ∧ n < 8 ∧ k.rings[Fin.ofNat 8 n] = some r ∧ r.sub = some y ∧ y.store = true ∧ f < y.passed ∧
    k.cardsBlock y.seq ({ sp := true, lo := r.slot f, len := len, mode := .r } :: pieceRanges false y.mode ps) = false ∧
    writePieces (a.subPath c) true y.desc.acc true ps (storerBytes k y (r.slot f) len s.freeCtr) { a with freeCtr := s.freeCtr + len } = .ok none u ∧
    keepSub (BitVec.ofNat 3 n) r { y with filled := f + 1, covered := y.covered.filter (fun p => !(decide (r.slot f ≤ p.1) && decide (p.1 < r.slot f + r.size))) } u = .ok () v) ∧
  (∃ (s : State) (o : ArrayOp),
    let c := s.argN 0
    let k := s.core c
    s.argN 0 < 96 ∧ k.stepq[s.argN 1]? = some o ∧ (k.stepq.take (s.argN 1)).all (fun p => !p.shares o) = true ∧
    (∀ q i, o = .step q i → k.unfoldBlocked q.bind = false)) ∧
  (∃ (s : State) (x : Stream) (cd : XCard),
    let c := s.argN 0
    let k := s.core c
    s.argN 0 < 96 ∧ k.cards.find? (fun x => x.ticket == s.argN 1) = some cd ∧ cd.card.chen = true ∧ cd.moved = true ∧ cd.chained = false ∧
    cd.st = .running ∧ k.chain.slot = none) ∧
  (∃ (s : State) (t : State) (w : Word32) (tk : Nat) (z : Bool) (d : BitVec 4) (koff : BitVec 6) (ft : BitVec 5),
    let c := s.argN 0
    let k := s.core c
    let m := s.atCore c .M
    let left := k.chain.remaining - 1
    let taken := m.onMe (fun k => ({ k with chain := { k.chain with slot := none, remaining := left, armed := decide (0 < left) } } : Core).chainTaken tk)
    s.argN 0 < 96 ∧ k.chain.slot = some (w, tk) ∧ k.chain.armed = true ∧ 0 < k.chain.remaining ∧ k.stepq.length < stepqDepth ∧
    chainStepOf w = some (z, d, koff, ft) ∧ enterStep z d koff ft (some k.chain.sem) taken = .ok () t) :=
  ⟨⟨units [3, 15] { streams := (Vector.replicate 16 none).set 15 (some { desc := sdesc 7 }) }, _, _, 15, { desc := sdesc 7 }, default, _, _,
    by and_intros <;> first | decide +kernel | rfl⟩,
   ⟨units [3, 15] { streams := (Vector.replicate 16 none).set 15 (some { desc := sdesc 43 }), oq := (Vector.replicate 4 []).set 3 [{}] }, left_ _,
    left_ _, 15, { desc := sdesc 43 }, {}, [], _,
    (by (try dsimp only); and_intros; all_goals (try first | (show writePieces _ _ _ _ _ _ _ = _; exact fine_is (by decide +kernel)) | (show advanceStream _ _ _ = _; exact fine_ok (by decide +kernel))); all_goals first | decide +kernel | rfl | (intro q h; first | (cases h; rfl) | cases h))⟩,
   ⟨units [3, 7] { rings := (Vector.replicate 8 none).set 7 (some (ring false)) }, 7, (ring false), (ssub false), by decide +kernel⟩,
   ⟨units [3, 7] { rings := (Vector.replicate 8 none).set 7 (some (ring true)) }, left_ _, left_ _, 7, (ring true), (ssub true),
    (by (try dsimp only); and_intros; all_goals (try first | (show writePieces _ _ _ _ _ _ _ = _; exact fine_is (by decide +kernel)) | (show keepSub _ _ _ _ = _; exact fine_ok (by decide +kernel))); all_goals first | decide +kernel | rfl | (intro q h; first | (cases h; rfl) | cases h))⟩,
   ⟨units [3, 1] { stepq := [.zero 9 1, .zero 15 5] }, .zero 15 5,
    (by (try dsimp only); and_intros; all_goals (try first | exact (fun _ _ h => nomatch h)); all_goals first | decide +kernel | rfl | (intro q h; first | (cases h; rfl) | cases h))⟩,
   ⟨units [3, 6] { cards := [ccard] }, default, ccard, by decide +kernel⟩,
   ⟨units [3] { chain := { armed := true, sem := 4, remaining := 1, slot := some (0x60103142, 6) }, cards := [ccard], ft := (Vector.replicate 16 0).set 2 17, w := (Vector.replicate 2 { wfmt := 1 }), unfold := some { rows := 4, cols := 128, pitch := 128, kpp := 1, mlvl := 4, klvl := 4, sfmt := 1 } },
    _, 0x60103142, 6, false, 3, 5, 2, by and_intros <;> first | decide +kernel | rfl⟩⟩

theorem witness_RegisterWordsKeepTheRest :
  (∃ (s : State) (t : State) (a : BitVec 6) (imm : BitVec 6) (imm12 : BitVec 12) (f : BitVec 3) (p : BitVec 18) (n : BitVec 2) (w : _),
    w ∈ [Instr.nop, .nopA, .nopV, .nopM, .nopX, .nopB, .extS p, .extA p, .extV p, .extM p, .extX p, .extB p, .pb n imm12, .br n f, .brn n f, .call n,
        .ret, .loop n a imm, .loopi n a imm, .breakl n f] ∧ exec w s = .next t) ∧
  (∃ (s : State) (t : State),
    exec .sync s = .next t) ∧
  (∃ (s : State) (t : State) (c : _),
    exec .sync s = .next t ∧ c ≠ s.cur.core) ∧
  (∃ (s : State) (t : State),
    exec .endW s = .next t ∧ s.cur.eng ≠ .S ∧ s.cur.eng ≠ .A) ∧
  (∃ (s : State) (t : State),
    exec .endW s = .next t ∧ s.cur.eng = .S) ∧
  (∃ (s : State) (t : State),
    exec .endW s = .next t ∧ s.cur.eng = .A) ∧
  (∃ (s : State) (t : State) (d : BitVec 6) (a : BitVec 6) (b : BitVec 6) (imm : BitVec 6) (imm12 : BitVec 12) (f : BitVec 3) (w : _),
    w ∈ [Instr.add d a b, .sub d a b, .mul d a b, .mulh d a b, .mulhn d a b, .div d a b, .divn d a b, .rem d a b, .remn d a b, .and d a b, .or d a b,
        .xor d a b, .shl d a b, .shr d a b, .sra d a b, .min d a b, .max d a b, .minn d a b, .maxn d a b, .clz d a, .popc d a, .addi d a imm, .andi d a imm,
        .ori d a imm, .xori d a imm, .shli d a imm, .shri d a imm, .srai d a imm, .ldi d imm12, .ftos d f, .cmov d a f, .fadd32 d a b, .fsub32 d a b,
        .fmul32 d a b, .ffma32 d a b, .fdiv32 d a b, .fsqrt32 d a, .fmin32 d a b, .fmax32 d a b, .fcmp32 d a b, .fcvt d a imm, .semrd d imm12, .csrr d imm12] ∧ exec w s = .next t ∧ d = 0) ∧
  (∃ (s : State) (t : State) (a : BitVec 6) (b : BitVec 6) (fd : BitVec 3) (f : BitVec 3) (g : BitVec 3) (w : _),
    w ∈ [Instr.ceq fd a b, .cne fd a b, .clt fd a b, .cle fd a b, .cltn fd a b, .clen fd a b, .fand fd f g, .forF fd f g, .fnot fd f] ∧
    exec w s = .next t ∧ fd = 0) ∧
  (∃ (s : State) (t : State) (imm : BitVec 6) (imm12 : BitVec 12) (da : BitVec 5) (aa : BitVec 5) (ab : BitVec 5) (i : BitVec 4) (w : _),
    w ∈ [Instr.aadd da aa ab, .asub da aa ab, .amul da aa ab, .aand da aa ab, .aor da aa ab, .ashl da aa ab, .ashr da aa ab, .amin da aa ab,
        .amax da aa ab, .aaddi da aa imm, .aldi da imm12, .sstat da i] ∧ exec w s = .next t ∧ da = 0) ∧
  (∃ (s : State) (t : State) (imm : BitVec 6) (imm12 : BitVec 12) (m : BitVec 3) (i : BitVec 4) (j : BitVec 4) (k : BitVec 4) (w : _),
    w ∈ [Instr.kadd i j k, .kaddi i j imm, .kldi i imm12, .kmov i j, .mpop i m, .mfirst i m] ∧ exec w s = .next t ∧ i = 0) ∧
  (∃ (s : State) (t : State) (imm : BitVec 6) (imm12 : BitVec 12) (i : BitVec 4) (j : BitVec 4) (k : BitVec 4) (w : _),
    w ∈ [Instr.xadd i j k, .xaddi i j imm, .xldi i imm12, .xstat i j] ∧ exec w s = .next t) ∧
  (∃ (s : State) (t : State) (h : BitVec 3) (hx : BitVec 3) (hy : BitVec 3) (w : _),
    w ∈ [Instr.mhadd h hx hy] ∧ exec w s = .next t) :=
  ⟨⟨base .S, after _, 63, 63, 0, 0, 0, 3, .nop,
    (by (try dsimp only); and_intros; all_goals (try first | exact answers_next (by decide +kernel)); all_goals first | decide +kernel | rfl | (intro q h; first | (cases h; rfl) | cases h))⟩,
   ⟨base .S, after _,
    (by (try dsimp only); and_intros; all_goals (try first | exact answers_next (by decide +kernel)); all_goals first | decide +kernel | rfl | (intro q h; first | (cases h; rfl) | cases h))⟩,
   ⟨base .S, after _, 5,
    (by (try dsimp only); and_intros; all_goals (try first | exact answers_next (by decide +kernel)); all_goals first | decide +kernel | rfl | (intro q h; first | (cases h; rfl) | cases h))⟩,
   ⟨base .V, after _,
    (by (try dsimp only); and_intros; all_goals (try first | exact answers_next (by decide +kernel)); all_goals first | decide +kernel | rfl | (intro q h; first | (cases h; rfl) | cases h))⟩,
   ⟨base .S, after _,
    (by (try dsimp only); and_intros; all_goals (try first | exact answers_next (by decide +kernel)); all_goals first | decide +kernel | rfl | (intro q h; first | (cases h; rfl) | cases h))⟩,
   ⟨base .A, after _,
    (by (try dsimp only); and_intros; all_goals (try first | exact answers_next (by decide +kernel)); all_goals first | decide +kernel | rfl | (intro q h; first | (cases h; rfl) | cases h))⟩,
   ⟨base .S, after _, 0, 63, 63, 63, 0, 0, .add 0 63 63,
    (by (try dsimp only); and_intros; all_goals (try first | exact answers_next (by decide +kernel)); all_goals first | decide +kernel | rfl | (intro q h; first | (cases h; rfl) | cases h))⟩,
   ⟨base .S, after _, 63, 63, 0, 0, 7, .ceq 0 63 63,
    (by (try dsimp only); and_intros; all_goals (try first | exact answers_next (by decide +kernel)); all_goals first | decide +kernel | rfl | (intro q h; first | (cases h; rfl) | cases h))⟩,
   ⟨base .A, after _, 63, 0, 0, 31, 31, 0, .aadd 0 31 31,
    (by (try dsimp only); and_intros; all_goals (try first | exact answers_next (by decide +kernel)); all_goals first | decide +kernel | rfl | (intro q h; first | (cases h; rfl) | cases h))⟩,
   ⟨base .V, after _, 63, 0, 7, 0, 15, 15, .kadd 0 15 15,
    (by (try dsimp only); and_intros; all_goals (try first | exact answers_next (by decide +kernel)); all_goals first | decide +kernel | rfl | (intro q h; first | (cases h; rfl) | cases h))⟩,
   ⟨base .X, after _, 63, 0, 0, 15, 15, .xadd 0 15 15,
    (by (try dsimp only); and_intros; all_goals (try first | exact answers_next (by decide +kernel)); all_goals first | decide +kernel | rfl | (intro q h; first | (cases h; rfl) | cases h))⟩,
   ⟨base .M, after _, 7, 7, 7, .mhadd 7 7 7,
    (by (try dsimp only); and_intros; all_goals (try first | exact answers_next (by decide +kernel)); all_goals first | decide +kernel | rfl | (intro q h; first | (cases h; rfl) | cases h))⟩⟩

theorem witness_VectorWordsKeepTheRest :
  (∃ (s : State) (t : State) (d : VDst) (a : VSrc) (b : VSrc) (w : _),
    w ∈ [Instr.vadd d a b, .vsub d a b, .vmul d a b, .vmin d a b, .vmax d a b, .vdiv d a b, .vadds d a b, .vmulh d a b, .vand d a b, .vor d a b, .vxor d a b,
        .vshl d a b, .vshr d a b, .vsra d a b, .vsel d a b, .vperm d a b] ∧ exec w s = .next t) ∧
  (∃ (s : State) (t : State) (d : VDst) (a : VSrc) (k : BitVec 4) (w : _),
    w ∈ [Instr.vabs d a, .vneg d a, .vsqrt d a, .vrcp d a, .vrsq d a, .vexp2 d a, .vlog2 d a, .vclass d a, .vmov d a, .vbcast d a, .vcomp d a, .vexpd d a,
        .vslup d a k, .vsldn d a k, .vxpose d a k, .vrsum d a, .vrmax d a, .vrmin d a, .vscan d a, .vcvt d a k] ∧ exec w s = .next t) ∧
  (∃ (s : State) (t : State) (d : VDst) (n5 : BitVec 5) (c : VIn) (n6 : BitVec 6) (w : _),
    w ∈ [Instr.vnarrow d c n5, .vcvtq d c n6] ∧ exec w s = .next t) ∧
  (∃ (s : State) (t : State) (d : VDst) (c : VIn) (k : BitVec 4),
    exec (.vwiden d c k) s = .next t) ∧
  (∃ (s : State) (t : State) (d : VDst) (c : VIn) (m : BitVec 3) (k : BitVec 4) (j : BitVec 4) (n : BitVec 5),
    let rho := ((pairOf s.me.cfg.fmt k.toNat).map (·.1)).getD 1
    exec (.vwiden d c k) s = .next t ∧ (∀ m j, d = .v m → j < rho → n ≠ groupReg m j)) ∧
  (∃ (s : State) (t : State) (d : VDst) (c : VIn) (k : BitVec 4) (q : BitVec 2),
    exec (.vwiden d c k) s = .next t ∧ d ≠ .oq q) ∧
  (∃ (s : State) (t : State) (c : VIn) (i : BitVec 4) (j : BitVec 4),
    exec (.vtok i c j) s = .next t ∧ i = 0) ∧
  (∃ (s : State) (t : State) (v : BitVec 5) (a : VSrc) (b : VSrc),
    exec (.vfma v a b) s = .next t) ∧
  (∃ (s : State) (t : State) (d : VDst),
    exec (.viota d) s = .next t) ∧
  (∃ (s : State) (t : State) (a : VSrc) (b : VSrc) (m : BitVec 3) (w : _),
    w ∈ [Instr.vceq m a b, .vcne m a b, .vclt m a b, .vcle m a b] ∧ exec w s = .next t ∧ m = 0) ∧
  (∃ (s : State) (t : State) (m : BitVec 3) (m1 : BitVec 3) (m2 : BitVec 3) (i : BitVec 4) (j : BitVec 4) (w : _),
    w ∈ [Instr.mand m m1 m2, .mor m m1 m2, .mxor m m1 m2, .mnot m m1, .mset m i j] ∧ exec w s = .next t ∧ m = 0) :=
  ⟨⟨base .V, after _, (.v 31), (.v 30), (.v 29), .vadd (.v 31) (.v 30) (.v 29),
    (by (try dsimp only); and_intros; all_goals (try first | exact answers_next (by decide +kernel)); all_goals first | decide +kernel | rfl | (intro q h; first | (cases h; rfl) | cases h))⟩,
   ⟨base .V, after _, (.v 31), (.v 30), 15, .vabs (.v 31) (.v 30),
    (by (try dsimp only); and_intros; all_goals (try first | exact answers_next (by decide +kernel)); all_goals first | decide +kernel | rfl | (intro q h; first | (cases h; rfl) | cases h))⟩,
   ⟨(base .V).onMe (fun k => { k with iq := k.iq.set 7 [{}] }), after _, (.v 31), 30, .iq 7, 0x32, .vcvtq (.v 31) (.iq 7) 0x32,
    (by (try dsimp only); and_intros; all_goals (try first | exact answers_next (by decide +kernel)); all_goals first | decide +kernel | rfl | (intro q h; first | (cases h; rfl) | cases h))⟩,
   ⟨(base .V).onMe (fun k => { k with iq := k.iq.set 7 [{}] }), after _, (.v 31), .iq 7, 0,
    (by (try dsimp only); and_intros; all_goals (try first | exact answers_next (by decide +kernel)); all_goals first | decide +kernel | rfl | (intro q h; first | (cases h; rfl) | cases h))⟩,
   ⟨(base .V).onMe (fun k => { k with iq := k.iq.set 7 [{}] }), after _, (.oq 3), .iq 7, 0, 0, 15, 5,
    (by (try dsimp only); and_intros; all_goals (try first | exact answers_next (by decide +kernel) | exact fun _ _ h => nomatch h); all_goals first | decide +kernel | rfl | (intro q h; first | (cases h; rfl) | cases h))⟩,
   ⟨(base .V).onMe (fun k => { k with iq := k.iq.set 7 [{}] }), after _, (.v 31), .iq 7, 0, 1,
    (by (try dsimp only); and_intros; all_goals (try first | exact answers_next (by decide +kernel)); all_goals first | decide +kernel | rfl | (intro q h; first | (cases h; rfl) | cases h))⟩,
   ⟨(base .V).onMe (fun k => { k with iq := k.iq.set 7 [{}] }), after _, .iq 7, 0, 15,
    (by (try dsimp only); and_intros; all_goals (try first | exact answers_next (by decide +kernel)); all_goals first | decide +kernel | rfl | (intro q h; first | (cases h; rfl) | cases h))⟩,
   ⟨base .V, after _, 31, (.v 30), (.v 29),
    (by (try dsimp only); and_intros; all_goals (try first | exact answers_next (by decide +kernel)); all_goals first | decide +kernel | rfl | (intro q h; first | (cases h; rfl) | cases h))⟩,
   ⟨base .V, after _, (.v 31),
    (by (try dsimp only); and_intros; all_goals (try first | exact answers_next (by decide +kernel)); all_goals first | decide +kernel | rfl | (intro q h; first | (cases h; rfl) | cases h))⟩,
   ⟨base .V, after _, (.v 30), (.v 29), 0, .vceq 0 (.v 30) (.v 29),
    (by (try dsimp only); and_intros; all_goals (try first | exact answers_next (by decide +kernel)); all_goals first | decide +kernel | rfl | (intro q h; first | (cases h; rfl) | cases h))⟩,
   ⟨base .V, after _, 0, 7, 7, 15, 15, .mand 0 7 7,
    (by (try dsimp only); and_intros; all_goals (try first | exact answers_next (by decide +kernel)); all_goals first | decide +kernel | rfl | (intro q h; first | (cases h; rfl) | cases h))⟩⟩

theorem witness_MemoryWordsKeepTheRest :
  (∃ (s : State) (t : State) (d : BitVec 6) (a : BitVec 6) (imm : BitVec 6),
    s.unit.pend = [] ∧ s.dcache = [] ∧ s.repPend = [] ∧ exec (.gld d a imm) s = .next t) ∧
  (∃ (s : State) (t : State) (d : BitVec 6) (a : BitVec 6) (imm : BitVec 6),
    s.unit.pend = [] ∧ s.dcache = [] ∧ s.repPend = [] ∧ exec (.glds d a imm) s = .next t) ∧
  (∃ (s : State) (t : State) (d : BitVec 6) (a : BitVec 6) (imm : BitVec 6),
    s.unit.pend = [] ∧ s.dcache = [] ∧ s.repPend = [] ∧ exec (.gst d a imm) s = .next t) ∧
  (∃ (s : State) (t : State) (d : BitVec 6) (a : BitVec 6) (b : BitVec 6),
    s.unit.pend = [] ∧ s.dcache = [] ∧ s.repPend = [] ∧ exec (.gatom d a b) s = .next t) ∧
  (∃ (s : State) (t : State) (d : BitVec 6) (a : BitVec 6) (b : BitVec 6),
    s.unit.pend = [] ∧ s.dcache = [] ∧ s.repPend = [] ∧ exec (.gcas d a b) s = .next t) ∧
  (∃ (s : State) (t : State) (imm : BitVec 6) (da : BitVec 5) (aa : BitVec 5),
    s.unit.pend = [] ∧ s.dcache = [] ∧ s.repPend = [] ∧ exec (.ald da aa imm) s = .next t) ∧
  (∃ (s : State) (t : State) (imm : BitVec 6) (da : BitVec 5) (aa : BitVec 5),
    s.unit.pend = [] ∧ s.dcache = [] ∧ s.repPend = [] ∧ exec (.ast da aa imm) s = .next t) ∧
  (∃ (s : State) (t : State) (da : BitVec 5) (aa : BitVec 5) (ab : BitVec 5),
    s.unit.pend = [] ∧ s.dcache = [] ∧ s.repPend = [] ∧ exec (.aatom da aa ab) s = .next t) ∧
  (∃ (s : State) (t : State) (da : BitVec 5) (aa : BitVec 5) (ab : BitVec 5),
    s.unit.pend = [] ∧ s.dcache = [] ∧ s.repPend = [] ∧ exec (.acas da aa ab) s = .next t) :=
  ⟨⟨gbase .S (s1 0x10000000), after _, 2, 1, 0,
    (by (try dsimp only); and_intros; all_goals (try first | exact answers_next (by decide +kernel)); all_goals first | decide +kernel | rfl | (intro q h; first | (cases h; rfl) | cases h))⟩,
   ⟨gbase .S (s1 0x10000000), after _, 2, 1, 0,
    (by (try dsimp only); and_intros; all_goals (try first | exact answers_next (by decide +kernel)); all_goals first | decide +kernel | rfl | (intro q h; first | (cases h; rfl) | cases h))⟩,
   ⟨gbase .S (s1 0x10000000), after _, 2, 1, 0,
    (by (try dsimp only); and_intros; all_goals (try first | exact answers_next (by decide +kernel)); all_goals first | decide +kernel | rfl | (intro q h; first | (cases h; rfl) | cases h))⟩,
   ⟨gbase .S (s1 0x10000000), after _, 2, 1, 0,
    (by (try dsimp only); and_intros; all_goals (try first | exact answers_next (by decide +kernel)); all_goals first | decide +kernel | rfl | (intro q h; first | (cases h; rfl) | cases h))⟩,
   ⟨gbase .S (s1 0x10000000), after _, 2, 1, 0,
    (by (try dsimp only); and_intros; all_goals (try first | exact answers_next (by decide +kernel)); all_goals first | decide +kernel | rfl | (intro q h; first | (cases h; rfl) | cases h))⟩,
   ⟨base .A, after _, 0, 31, 1,
    (by (try dsimp only); and_intros; all_goals (try first | exact answers_next (by decide +kernel)); all_goals first | decide +kernel | rfl | (intro q h; first | (cases h; rfl) | cases h))⟩,
   ⟨base .A, after _, 0, 31, 1,
    (by (try dsimp only); and_intros; all_goals (try first | exact answers_next (by decide +kernel)); all_goals first | decide +kernel | rfl | (intro q h; first | (cases h; rfl) | cases h))⟩,
   ⟨base .A, after _, 31, 1, 0,
    (by (try dsimp only); and_intros; all_goals (try first | exact answers_next (by decide +kernel)); all_goals first | decide +kernel | rfl | (intro q h; first | (cases h; rfl) | cases h))⟩,
   ⟨base .A, after _, 31, 1, 0,
    (by (try dsimp only); and_intros; all_goals (try first | exact answers_next (by decide +kernel)); all_goals first | decide +kernel | rfl | (intro q h; first | (cases h; rfl) | cases h))⟩⟩

theorem witness_DecodeInvertsEncode :
  (∃ (r : Ring) (i : Instr) (c : _),
    i.wf = true ∧ encode r i = some c) ∧
  (∃ (r : Ring) (i : Instr) (c : _) (w : _),
    i.wf = true ∧ encode r i = some c ∧ c = .core w ∧ tagOf w ≠ 7 ∧ opOf w ≠ 0x7F) ∧
  (∃ (r : Ring) (i : Instr) (c : _) (w : _),
    i.wf = true ∧ encode r i = some c ∧ c = .core w ∧ (tagOf w = 7 ∨ opOf w = 0x7F)) ∧
  (∃ (i : Instr),
    i.wf = true ∧ isEvent i = false ∧ i ≠ .illegalWord) ∧
  (∃ (w : BitVec 32) (i : Instr),
    decode (.core w) = some i ∧ i ≠ .barvArrive ∧ i ≠ .bkarmArm ∧ i ≠ .grpgenRead) ∧
  (∃ (w : BitVec 32) (i : Instr),
    decode (.rule w) = some i) ∧
  (∃ (w : BitVec 64) (x : CeWord),
    decodeCe w = some x) :=
  ⟨⟨{ wb := true, wf := false, sb := true, sf := false }, .add 63 62 61, _, by and_intros <;> first | decide +kernel | rfl⟩,
   ⟨{ wb := true, wf := false, sb := true, sf := false }, .add 63 62 61, _, _, by and_intros <;> first | decide +kernel | rfl⟩,
   ⟨Ring.zero, .extS 0x3FFFF, _, _, by and_intros <;> first | decide +kernel | rfl⟩,
   ⟨.add 63 62 61, by decide +kernel⟩,
   ⟨0x00000000, _,
    (by (try dsimp only); and_intros; all_goals (try first | exact (rfl : decode _ = _)); all_goals first | decide +kernel | rfl | (intro q h; first | (cases h; rfl) | cases h))⟩,
   ⟨603979776, _, by and_intros <;> first | decide +kernel | rfl⟩,
   ⟨0, _, by and_intros <;> first | decide +kernel | rfl⟩⟩

theorem witness_StepRunsTheDecodedInstruction :
  (∃ (s : State) (r : List Action) (c : Nat) (e : Engine) (g : Nat) (i : Instr),
    let k := s.core c
    let pc := (k.eng e).pc.toNat
    s.agenda = .engine c e :: r ∧ c < 96 ∧ k.acts e = true ∧ s.dstate ≠ .safe ∧
    (k.gang.bind s.gang).all (fun g => g.state != .stopping && (g.state != .monitor || k.mode != .running)) = true ∧ k.stopReq = false ∧ pc < 65536 ∧
    k.slips e = true ∧ isFor (k.word pc) e = true ∧ decodeWord (k.word pc) = i ∧ opsOf i = none) ∧
  (∃ (s : State) (r : List Action) (c : Nat) (e : Engine) (g : Nat),
    let k := s.core c
    let pc := (k.eng e).pc.toNat
    s.agenda = .engine c e :: r ∧ c < 96 ∧ k.acts e = true ∧ s.dstate ≠ .safe ∧
    (k.gang.bind s.gang).all (fun g => g.state != .stopping && (g.state != .monitor || k.mode != .running)) = true ∧ k.stopReq = false ∧ pc < 65536 ∧
    k.slips e = true ∧ isFor (k.word pc) e = false) ∧
  (∃ (s : State) (r : List Action) (g : Nat) (n : Nat) (run : Run) (l : Launch) (w : CeWord),
    s.agenda = .ce g n :: r ∧ g < 384 ∧ (s.ce g).run = some run ∧ lookup run.launch s.launches = some l ∧ l.words[run.pc]?.bind decodeCe = some w ∧
    s.dstate ≠ .safe) ∧
  (∃ (s : State) (r : List Action) (g : Nat) (n : Nat) (id : Nat) (x : Walk) (i : Instr) (args : EvArgs) (early : Nat),
    let at_ := { s with agenda := r }
    let rule := { at_ with cur := { stack := g, slot := n, args := { n := [0, early] } } }
    s.agenda = .caddie g n early :: r ∧ g < 12 ∧ n < caddieSlots ∧ rule.walkHere = some (id, x) ∧ (x.rules[x.pc]?).bind decodeRule = some i ∧
    s.dstate ≠ .safe) ∧
  (∃ (s : State) (r : List Action) (i : Instr) (args : EvArgs),
    s.agenda = .event i args :: r ∧ isEvent i = true) ∧
  (∃ (s : State) (r : List Action) (pa : Nat),
    s.agenda = .upset pa :: r) :=
  ⟨⟨{ (State.reset.onCore 95 (fun k => ({ k with mode := .running, slip := 16, textLen := 65536, text := sset 0 65535 0x80000000 [] } : Core).setEng .X { pc := 65535 })) with dstate := .ready, agenda := [.engine 95 .X] },
    [], 95, .X, 0, _, by and_intros <;> first | decide +kernel | rfl⟩,
   ⟨{ (State.reset.onCore 95 (fun k => ({ k with mode := .running, slip := 16, textLen := 65536, text := sset 0 65535 0 [] } : Core).setEng .X { pc := 65535 })) with dstate := .ready, agenda := [.engine 95 .X] },
    [], 95, .X, 0, by decide +kernel⟩,
   ⟨{ sk [] [] [(3, la)] { run := some ru } with dstate := .ready, agenda := [.ce 0 5] }, [], 0, 5, _, _, _,
    by and_intros <;> first | decide +kernel | rfl⟩,
   ⟨{ walking { wk0 with rules := [335544323, 0] } 0 0 with dstate := .ready, agenda := [.caddie 2 3 1] }, [], 2, 3, _, _, _, {}, 1,
    by and_intros <;> first | decide +kernel | rfl⟩,
   ⟨{ State.reset with agenda := [.event .powerLoss {}] }, [], .powerLoss, {}, by decide +kernel⟩,
   ⟨{ State.reset with agenda := [.upset 0x40] }, [], 0x40, by decide +kernel⟩⟩

theorem witness_StepAnswers :
  ∃ (s : State) (a : Action) (r : List Action),
    s.agenda = a :: r :=
  ⟨{ State.reset with agenda := [.engine 96 .S] }, .engine 96 .S, [], by decide +kernel⟩

theorem witness_ResetState :
  (∃ (c : _),
    c < 96) ∧
  (∃ (c : _),
    c < 96) ∧
  (∃ (c : _) (n : _),
    c < 96 ∧ n ∈ [0, 1, 2, 4, 5, 6, 0x18, 0x19, 0x20, 0x21, 0x22, 0x23, 0x24, 0x25, 0x26, 0x28, 0x29]) ∧
  (∃ (c : _),
    c < 96) :=
  ⟨⟨95, by decide +kernel⟩,
   ⟨95, by decide +kernel⟩,
   ⟨95, 0x29, by decide +kernel⟩,
   ⟨95, by decide +kernel⟩⟩

theorem witness_EveryStepKeepsMemoryCanonical :
  ∃ (s : State) (t : State),
    s.inv = true ∧ step s = .next t :=
  ⟨{ State.reset with agenda := [.event .powerLoss {}] }, after _, ⟨by decide +kernel, answers_next (by decide +kernel)⟩⟩

end Sys2Proof.Machine.Tests
end

section
/-!
PROOF. O6: the branch words PB, BR, BRN, CALL, RET and END. Each word's body is run once on the state after its ring part;
the statement follows by `runWord_ok`, or `runWord_traps` where the word traps.
-/
namespace Sys2Proof.Machine

/-! ## Words that end with a trap -/

/-- A word that may issue and whose body ends with a trap before it has changed anything: the trap is taken from the state
after the ring part (R82). -/
theorem runWord_traps {s : State} {x : Bool} {body : W Flow} {c : BitVec 8} {d : BitVec 64} (h : s.issues = true)
    (hp : if x then s.extends = true else s.bare = true) (hb : body s.rung = .error (.trap c d) s.rung) :
    runWord x body s = .next (s.rung.traps c d) := by
  unfold runWord
  rw [run_issue h]
  simp only []
  rw [run_bind_ok (run_checkPrefix x (State.issues_core h) hp), run_bind, hb]
  rfl

/-- A B word's trap is S's to raise (R63). -/
theorem run_trapB_S {α : Type} {s : State} (hS : s.cur.eng = .S) (c : BitVec 8) (d : BitVec 64) :
    (trapB c d : W α) s = .error (.trap c d) s := by
  unfold trapB
  rw [run_bind_ok (run_get s), hS]
  rfl

/-- Outside the monitor every B word may run (R120). -/
theorem run_notInMonitor {s : State} (h : s.cur.core < 96) (hm : s.me.mon = false) : notInMonitor s.rung = .ok () s.rung := by
  unfold notInMonitor
  rw [run_bind_ok (run_getC _), State.rung_me_mon s h, hm]
  rfl

/-! ## PB (R146) -/

theorem run_pbBody {s : State} (h : s.cur.core < 96) (n : BitVec 2) (imm : BitVec 12)
    (lo : 0 ≤ (s.unit.pc.toNat : Int) + (s.immS imm).toInt) (hi : (s.unit.pc.toNat : Int) + (s.immS imm).toInt ≤ 65535) :
    pbBody n imm s.rung = .ok (.seq 1) (s.rung.onUnit (fun t =>
      { t with b := t.b.set n.toFin (BitVec.ofInt 16 (s.unit.pc.toNat + (s.immS imm).toInt)) })) := by
  have hpc : getPc s.rung = .ok s.unit.pc s.rung := by
    unfold getPc
    rw [run_bind_ok (run_getE _), State.rung_pc s h]; rfl
  unfold pbBody
  rw [run_bind_ok (run_immS imm h), run_bind_ok hpc]
  simp only [Int.not_lt.mpr lo, Int.not_lt.mpr hi, decide_false, Bool.or_self, Bool.false_eq_true, if_false]
  rfl

/-! ## BR and BRN (R142, R147) -/

/-- S decides by its flag and pushes what it decided. -/
theorem run_decideFlag_S {s : State} (h : s.issues = true) (hS : s.cur.eng = .S) (f : BitVec 3) (hp : (s.rF f).p = false)
    (hr : s.room = true) : decideFlag f s.rung = .ok (s.rF f).v (s.rung.pushes (.branch (s.rF f).v)) := by
  unfold decideFlag
  rw [run_bind_ok (run_get _), if_pos (by rw [State.rung_cur, hS]), run_bind_ok (rung_rdF h f), hp]
  exact run_bind_ok (run_pushDecision h hr _)

/-- Another engine takes the oldest decision of its FIFO. -/
theorem run_decideFlag_follower {s : State} (h : s.cur.core < 96) (hS : s.cur.eng ≠ .S) (f : BitVec 3) {v : Bool} {r : List Decision}
    (hd : s.unit.decs = .branch v :: r) : decideFlag f s.rung = .ok v s.rung.pops := by
  unfold decideFlag
  rw [run_bind_ok (run_get _), if_neg (by rw [State.rung_cur]; exact hS),
    run_bind_ok (run_popDecision (.branch v) r (by rw [rung_decs s h, hd]))]
  rfl

/-- How the body of a branch word ends, from the state in which its decision `v` is made: it leaves for its target when `v` is what
it waits for, and goes on to the next word when not. -/
def branchEnds (want v : Bool) (target : BitVec 16) (t : State) : EStateM.Result Stop State Flow :=
  if v = want then .ok (.goto (target.setWidth 17)) (t.leaves target) else .ok (.seq 1) t

theorem run_branchEnds (want v : Bool) (target : BitVec 16) (t : State) :
    (if v == want then do
        let u ← getE
        putE (u.closeWhere (fun l => decide (target.toNat < l.start.toNat) || decide (l.stop.toNat < target.toNat)))
        return .goto (target.setWidth 17)
      else return .seq 1 : W Flow) t = branchEnds want v target t := by
  unfold branchEnds
  by_cases hv : v = want
  · rw [if_pos hv, if_pos (beq_iff_eq.mpr hv)]; rfl
  · rw [if_neg hv, if_neg (mt beq_iff_eq.mp hv)]; rfl

/-- S, whose flag carries no poison and whose target, if it goes there, is no bitmap word (R72). -/
theorem run_branchBody_S {s : State} (h : s.issues = true) (hS : s.cur.eng = .S) (n : BitVec 2) (f : BitVec 3) (want : Bool)
    (hp : (s.rF f).p = false) (hr : s.room = true)
    (ht : (s.rF f).v = want → isBitmap s.me s.unit.b[n.toFin].toNat = false) :
    branchBody n f want s.rung = branchEnds want (s.rF f).v s.unit.b[n.toFin] (s.rung.pushes (.branch (s.rF f).v)) := by
  have hc := State.issues_core h
  have hdec := run_decideFlag_S h hS f hp hr
  unfold branchBody
  rw [run_bind_ok (run_getE _), rung_b s hc]
  simp only []
  rw [run_bind_ok (run_get _), if_pos (by rw [State.rung_cur, hS]), run_bind_ok (rung_rdF h f), hp, if_neg Bool.false_ne_true]
  by_cases hv : (s.rF f).v = want
  · rw [if_pos (beq_iff_eq.mpr hv), run_bind_ok (run_checkTarget hc _ (ht hv)), run_bind_ok hdec]
    exact run_branchEnds ..
  · rw [if_neg (mt beq_iff_eq.mp hv), run_bind_ok hdec]
    exact run_branchEnds ..

/-- Another engine, which makes no check: S has made it. -/
theorem run_branchBody_follower {s : State} (h : s.cur.core < 96) (hS : s.cur.eng ≠ .S) (n : BitVec 2) (f : BitVec 3) (want : Bool)
    {v : Bool} {r : List Decision} (hd : s.unit.decs = .branch v :: r) :
    branchBody n f want s.rung = branchEnds want v s.unit.b[n.toFin] s.rung.pops := by
  unfold branchBody
  rw [run_bind_ok (run_getE _), rung_b s h]
  simp only []
  rw [run_bind_ok (run_get _), if_neg (by rw [State.rung_cur]; exact hS), run_bind_ok (run_decideFlag_follower h hS f hd)]
  exact run_branchEnds ..

/-- A branch word that may issue moves its engine as its body ends. -/
theorem exec_branch {s t : State} {n : BitVec 2} {f : BitVec 3} {want v : Bool} {target : BitVec 16} (h : s.issues = true) (hb : s.bare = true)
    (he : branchBody n f want s.rung = branchEnds want v target t) :
    exec (if want then .br n f else .brn n f) s =
      .next (if v = want then (t.leaves target).wordDone (.goto (target.setWidth 17)) else t.wordDone) := by
  have hx : exec (if want then .br n f else .brn n f) s = runWord false (branchBody n f want) s := by cases want <;> rfl
  rw [hx]
  unfold branchEnds at he
  by_cases hv : v = want
  · rw [if_pos hv] at he
    rw [if_pos hv, runWord_ok (x := false) h hb he]
  · rw [if_neg hv] at he
    rw [if_neg hv, runWord_ok (x := false) h hb he]

/-! ## CALL and RET (R144, R148) -/

theorem run_callBody {s : State} (h : s.cur.core < 96) (n : BitVec 2) (hd : s.unit.rets.length < 16)
    (ht : isBitmap s.me s.unit.b[n.toFin].toNat = false) :
    callBody n s.rung = .ok (.goto (s.unit.b[n.toFin].setWidth 17)) (s.rung.onUnit (fun t => { t with rets := (t.pc + 1) :: t.rets })) := by
  have hroom : ¬ returnDepth ≤ s.rung.unit.rets.length := by rw [rung_rets s h]; exact Nat.not_le.mpr hd
  rw [← rung_b s h] at ht ⊢
  unfold callBody
  rw [run_bind_ok (run_getE _), if_neg hroom]
  exact run_bind_ok (run_checkTarget h _ ht)

theorem run_callBody_full {s : State} (h : s.cur.core < 96) (hS : s.cur.eng = .S) (n : BitVec 2) (hd : 16 ≤ s.unit.rets.length) :
    callBody n s.rung = .error (.trap cSTACK 16) s.rung := by
  have hfull : returnDepth ≤ s.rung.unit.rets.length := by rw [rung_rets s h]; exact hd
  unfold callBody
  rw [run_bind_ok (run_getE _), if_pos hfull, run_bind, run_trapB_S (by rw [State.rung_cur, hS])]

theorem run_retBody {s : State} (h : s.cur.core < 96) {a : BitVec 17} {r : List (BitVec 17)} (hr : s.unit.rets = a :: r) :
    retBody s.rung = .ok (.goto a) (s.rung.onUnit (fun t => { t.closeWhere (fun _ => true) with rets := r })) := by
  unfold retBody
  rw [run_bind_ok (run_getE _), rung_rets s h, hr]
  rfl

theorem run_retBody_empty {s : State} (h : s.cur.core < 96) (hS : s.cur.eng = .S) (hr : s.unit.rets = []) :
    retBody s.rung = .error (.trap cSTACK 0) s.rung := by
  unfold retBody
  rw [run_bind_ok (run_getE _), rung_rets s h, hr]
  exact run_trapB_S (by rw [State.rung_cur, hS]) _ _

/-! ## END (R154, R196, R335, R388) -/

/-- What END releases of what an engine holds for the kernel. -/
def endRelease (e : Engine) : W Unit :=
  match e with
  | .A => endA
  | .S => endS
  | _ => pure ()

theorem endRelease_other {e : Engine} (hS : e ≠ .S) (hA : e ≠ .A) : endRelease e = pure () := by
  cases e with
  | S => exact absurd rfl hS
  | A => exact absurd rfl hA
  | M | V | X => rfl

/-- END outside the monitor: its engine's release, then the engine stops without levels and return-stack entries. -/
theorem exec_endW {s u : State} (h : s.issues = true) (hb : s.bare = true) (hm : s.me.mon = false)
    (hu : endRelease s.cur.eng s.rung = .ok () u) :
    exec .endW s = .next ((u.onUnit (fun t => { t with rets := [], loops := Vector.replicate 4 {} })).wordDone .halt) := by
  refine runWord_ok (x := false) h hb ?_
  unfold endBody
  rw [run_bind_ok (run_notInMonitor (State.issues_core h) hm), run_bind_ok (run_get _), State.rung_cur]
  cases he : s.cur.eng with
  | S | A => rw [he] at hu; exact run_bind_ok hu
  | M | V | X => rw [he] at hu; cases hu; rfl

theorem run_releaseLater (s : State) (e : Engine) (ids : List Nat) : releaseLater s.cur.core e ids s = .ok () (s.releases e ids) := rfl

/-- S's END when its accesses, and the core's reads without a footprint, are complete. -/
theorem run_endS {s : State} (h1 : s.flights.any (fun f => f.core == s.cur.core && f.eng == .S && !f.rel) = false)
    (h2 : s.flights.any (fun f => f.core == s.cur.core && f.mode == .r && f.fp.isNone) = false) :
    endS s = .ok () { ((s.releases .S (s.me.claims.map (·.2))).onMe (fun k => { k with claims := [] })) with
                      pins := s.pins.filter (fun p => p.owner != .core s.cur.core) } := by
  have hpins : ((s.releases .S (s.me.claims.map (·.2))).onMe (fun k => { k with claims := [] })).pins = s.pins := State.setCore_pins ..
  unfold endS
  rw [run_bind_ok (run_get _)]
  simp only [h1, h2, Bool.not_false, Bool.and_self]
  rw [run_bind_ok (run_waitFor_true _), ← hpins]
  exact run_bind_ok (run_releaseLater s .S (s.me.claims.map (·.2)))

/-- A loop whose every round leaves the state as it is. -/
theorem run_forIn_skip {α : Type} (f : α → PUnit → W (ForInStep PUnit)) (s : State) (l : List α)
    (hf : ∀ a ∈ l, f a ⟨⟩ s = .ok (.yield ⟨⟩) s) : (forIn l ⟨⟩ f : W PUnit) s = .ok ⟨⟩ s := by
  induction l with
  | nil => rfl
  | cons a r ih =>
    rw [List.forIn_cons, run_bind_ok (hf a List.mem_cons_self)]
    exact ih (fun b hb => hf b (List.mem_cons_of_mem a hb))

theorem run_endRing_none {s : State} {n : BitVec 3} (h : s.me.rings[n.toFin] = none) : endRing n s = .ok () s := by
  unfold endRing
  rw [run_bind_ok (run_getC s), h]
  rfl

/-- A's END when it holds neither a stream nor a ring. -/
theorem run_endA_idle {s : State} (hs : s.me.streams = Vector.replicate 16 none) (hr : s.me.rings = Vector.replicate 8 none) :
    endA s = .ok () (s.onMe (fun k => { k with unfold := none })) := by
  unfold endA
  rw [run_bind_ok (run_forIn_skip _ s _ (fun n _ => ?_)), run_bind_ok (run_forIn_skip _ s _ (fun n _ => ?_))]
  · rfl
  · rw [run_bind_ok (run_endRing_none (by simp [hr]))]
    rfl
  · rw [run_bind_ok (run_getC s), hs]
    simp only [Vector.getElem_replicate, Fin.getElem_fin]
    rfl

/-! ## The words together -/

/-- Settles O6: each clause is the run of its word's body, the END clauses that of their engine's release. -/
theorem branchWords : Obligations.BranchWords := by
  unfold Obligations.BranchWords
  intro s n f imm want h
  have hc := State.issues_core h
  refine ⟨fun hx lo hi => runWord_ok (x := true) h hx (run_pbBody hc n imm lo hi),
    fun hb => ⟨?br_S, ?br_follower, ?call, ?ret, ?call_full, ?ret_empty, ?endW⟩⟩
  case br_S => exact fun hS hp hr ht => exec_branch h hb (run_branchBody_S h hS n f want hp hr ht)
  case br_follower => exact fun hS v r hd => exec_branch h hb (run_branchBody_follower hc hS n f want hd)
  case call => exact fun hd ht => runWord_ok (x := false) h hb (run_callBody hc n hd ht)
  case ret => exact fun a r hr => runWord_ok (x := false) h hb (run_retBody hc hr)
  case call_full => exact fun hS hd => runWord_traps (x := false) h hb (run_callBody_full hc hS n hd)
  case ret_empty => exact fun hS hr => runWord_traps (x := false) h hb (run_retBody_empty hc hS hr)
  case endW =>
    intro ended c hm
    refine ⟨fun hS hA => exec_endW h hb hm ?other, fun hS h1 h2 => exec_endW h hb hm ?S, fun hA hs hr => exec_endW h hb hm ?A_idle,
      fun hA u hu => exec_endW h hb hm ?A⟩
    case other => rw [endRelease_other hS hA]; rfl
    case S =>
      have hend := run_endS (s := s.rung) (by rw [State.rung_flights, State.rung_cur]; exact h1)
        (by rw [State.rung_flights, State.rung_cur]; exact h2)
      rw [State.rung_me_claims s hc, State.rung_pins, State.rung_cur] at hend
      rw [hS]
      exact hend
    case A_idle => rw [hA]; exact run_endA_idle (by rw [State.rung_me_streams s hc, hs]) (by rw [State.rung_me_rings s hc, hr])
    case A => rw [hA]; exact hu

end Sys2Proof.Machine
end

section
/-!
PROOF. O1 and O5: the integer words of S with register operands, and its fp32 words. Each body that words share is run once
on the state after the ring part; a word is then its body with the function of its table.
-/
namespace Sys2Proof.Machine

/-! ## Integer words (Table 6.1) -/

/-- A word that may issue reads its two operands as the registers hold them. -/
theorem run_operands {α : Type} {s : State} (h : s.issues = true) (a b : BitVec 6) (k : Reg → Reg → W α) :
    (do let x ← rdS a; let y ← rdS b; k x y : W α) s.rung = k (s.rS a) (s.rS b) s.rung := by
  rw [run_bind_ok (rung_rdS h a), run_bind_ok (rung_rdS h b)]

/-- A word of two operands writes its function of them, poisoned as they are (R139, R168). -/
theorem run_sBin {s : State} (h : s.issues = true) (g : BitVec 64 → BitVec 64 → BitVec 64) (bound : Nat) (d a b : BitVec 6) :
    sBin g bound d a b s.rung = .ok () (s.rung.setS d (bin g (s.rS a) (s.rS b)) bound) :=
  (run_operands h a b _).trans (run_wrS ..)

/-- A word of one operand. -/
theorem run_sUn {s : State} (h : s.issues = true) (g : BitVec 64 → BitVec 64) (bound : Nat) (d a : BitVec 6) :
    sUn g bound d a s.rung = .ok () (s.rung.setS d { v := g (s.rS a).v, p := (s.rS a).p } bound) :=
  (run_bind_ok (rung_rdS h a)).trans (run_wrS ..)

/-- Settles O1: each word's function, named by its Table 6.1 form, in the run of its body. -/
theorem scalarIntegerResults : Obligations.ScalarIntegerResults := by
  unfold Obligations.ScalarIntegerResults
  intro s d a b h hb
  have binary (g : BitVec 64 → BitVec 64 → BitVec 64) (bound : Nat) := plain_ok h hb (run_sBin h g bound d a b)
  have unary (g : BitVec 64 → BitVec 64) := plain_ok h hb (run_sUn h g 2 d a)
  refine ⟨?add, ?sub, ?mul, ?mulh, ?mulhn, ?div, ?divn, ?rem, ?remn, ?and, ?or, ?xor, ?shl, ?shr, ?sra, ?min, ?max, ?minn, ?maxn,
    ?clz, ?popc⟩
  case add => exact binary (· + ·) 1
  case sub => exact binary (· - ·) 1
  case mul => exact binary (· * ·) 3
  case mulh => exact binary mulhS 3
  case mulhn => exact binary mulhU 3
  case div => exact binary divS 20
  case divn => exact binary divU 20
  case rem => exact binary remS 20
  case remn => exact binary remU 20
  case and => exact binary (· &&& ·) 1
  case or => exact binary (· ||| ·) 1
  case xor => exact binary (· ^^^ ·) 1
  case shl => exact binary (fun x y => x <<< amt y) 1
  case shr => exact binary (fun x y => x >>> amt y) 1
  case sra => exact binary (fun x y => x.sshiftRight (amt y)) 1
  case min => exact binary minS 1
  case max => exact binary maxS 1
  case minn => exact binary minU 1
  case maxn => exact binary maxU 1
  case clz => exact unary clz64
  case popc => exact unary popc64

/-! ## Fp32 results (R170): the flags join FSTAT.S, then the value is written -/

/-- The state once an fp32 word has delivered `r`: a poisoned result raises no flag (R170). -/
def State.deliversF32 (s : State) (d : BitVec 6) (r : F32R) (p : Bool) (bound : Nat) : State :=
  (s.flagged (if p then {} else r.f)).setS d { v := r.v.setWidth 64, p := p } bound

theorem run_wrF32 (d : BitVec 6) (r : F32R) (p : Bool) (bound : Nat) (s : State) :
    wrF32 d r p bound s = .ok () (s.deliversF32 d r p bound) := by
  unfold wrF32
  rw [run_bind_ok (run_addFlags _ s)]
  exact run_wrS ..

/-! ## The arithmetic words (Table 6.3) -/

/-- FADD32, FSUB32 and FMUL32: the exact value, rounded once. -/
theorem run_fpBin {s : State} (h : s.issues = true) (g : FP → FP → Val) (bound : Nat) (d a b : BitVec 6) :
    fpBin g bound d a b s.rung =
      .ok () (s.rung.deliversF32 d (g (low32 (s.rS a)) (low32 (s.rS b))).toF32 ((s.rS a).p || (s.rS b).p) bound) :=
  (run_operands h a b _).trans (run_wrF32 ..)

theorem run_ffmaBody {s : State} (h : s.issues = true) (d a b : BitVec 6) :
    ffmaBody d a b s.rung =
      .ok () (s.rung.deliversF32 d (FP.fma (low32 (s.rS a)) (low32 (s.rS b)) (low32 (s.rS d))).toF32
        ((s.rS a).p || (s.rS b).p || (s.rS d).p) 4) := by
  unfold ffmaBody
  rw [run_operands h, run_bind_ok (rung_rdS h d)]
  exact run_wrF32 ..

/-- A correctly rounded function delivers its one rounding of the quotient or root. -/
theorem run_wrFunc (d : BitVec 6) (r : Res × Flags) (p : Bool) (s : State) :
    wrFunc d r p s = .ok () (s.deliversF32 d
      { v := BitVec.ofNat 32 (roundSpecial 0 false .rne {} r).code, f := (roundSpecial 0 false .rne {} r).f } p 12) :=
  run_wrF32 ..

/-! ## FMIN32, FMAX32 and FCMP32 (R171) -/

/-- FMIN32 and FMAX32 write the code of the operand they pick, and join no flag. -/
theorem run_fpPick {s : State} (h : s.issues = true) (g : FP → FP → FP) (d a b : BitVec 6) :
    fpPick g d a b s.rung =
      .ok () (s.rung.setS d { v := (pickF32 (g (low32 (s.rS a)) (low32 (s.rS b)))).setWidth 64, p := (s.rS a).p || (s.rS b).p } 2) :=
  (run_operands h a b _).trans (run_wrS ..)

/-! ## FCVT (R172) -/

theorem mode_ofCode_eq_sr (c : BitVec 2) : Mode.ofCode c = .sr ↔ c.toNat = 2 := by
  revert c; decide

/-- The selectors that FCVT takes: up to 63, no mode SR, and mode 0 alone for the exact conversions. -/
theorem fcvt_selector_ok {sel : Nat} (hsel : sel ≤ 63) (hsr : sel % 4 ≠ 2) (hexact : sel % 4 = 0 ∨ (sel / 4 ≠ 5 ∧ sel / 4 ≠ 7)) :
    (decide (63 < sel) || Mode.ofCode (BitVec.ofNat 2 sel) == .sr || (sel % 4 != 0 && (sel / 4 == 5 || sel / 4 == 7))) = false := by
  have hmode : Mode.ofCode (BitVec.ofNat 2 sel) ≠ .sr := fun hm => hsr (by simpa using (mode_ofCode_eq_sr _).mp hm)
  have hmode' : (Mode.ofCode (BitVec.ofNat 2 sel) == .sr) = false := beq_eq_false_iff_ne.mpr hmode
  rcases hexact with hzero | ⟨h5, h7⟩
  · simp [hmode', hsel, hzero]
  · simp [hmode', hsel, h5, h7]

theorem run_fcvtBody {s : State} (h : s.issues = true) (d a imm : BitVec 6) (hsel : s.immU imm ≤ 63) (hsr : s.immU imm % 4 ≠ 2)
    (hexact : s.immU imm % 4 = 0 ∨ (s.immU imm / 4 ≠ 5 ∧ s.immU imm / 4 ≠ 7)) {v : BitVec 64} {f : Flags}
    (hv : fcvt (s.immU imm / 4) (Mode.ofCode (BitVec.ofNat 2 (s.immU imm))) (s.rS a).v = some (v, f)) :
    fcvtBody d a imm s.rung =
      .ok () ((s.rung.flagged (if (s.rS a).p then {} else f)).setS d { v := v, p := (s.rS a).p } 4) := by
  unfold fcvtBody
  rw [run_bind_ok (run_immU imm (State.issues_core h))]
  simp only [fcvt_selector_ok hsel hsr hexact, Bool.false_eq_true, if_false]
  rw [run_bind_ok (rung_rdS h a), hv]
  simp only []
  rw [run_bind_ok (run_addFlags _ _)]
  exact run_wrS ..

/-! ## The fp32 words together -/

/-- Settles O5: each clause is the run of its word's body. -/
theorem scalarFloatResults : Obligations.ScalarFloatResults := by
  unfold Obligations.ScalarFloatResults
  intro s d a b imm h x y z p gives special
  refine ⟨fun hb => ⟨?fadd32, ?fsub32, ?fmul32, ?ffma32, ?fdiv32, ?fsqrt32, ?fmin32, ?fmax32, ?fcmp32⟩, ?fcvt⟩
  case fadd32 => exact plain_ok h hb (run_fpBin h FP.add 4 d a b)
  case fsub32 => exact plain_ok h hb (run_fpBin h FP.sub 4 d a b)
  case fmul32 => exact plain_ok h hb (run_fpBin h FP.mul 4 d a b)
  case ffma32 => exact plain_ok h hb (run_ffmaBody h d a b)
  case fdiv32 => exact plain_ok h hb ((run_operands h a b _).trans (run_wrFunc ..))
  case fsqrt32 => exact plain_ok h hb ((run_bind_ok (rung_rdS h a)).trans (run_wrFunc ..))
  case fmin32 => exact plain_ok h hb (run_fpPick h FP.minNum d a b)
  case fmax32 => exact plain_ok h hb (run_fpPick h FP.maxNum d a b)
  case fcmp32 => exact plain_ok h hb ((run_operands h a b _).trans (run_wrS ..))
  case fcvt => exact fun hx hsel hsr hexact v f hv => withImm_ok h hx (run_fcvtBody h d a imm hsel hsr hexact hv)

end Sys2Proof.Machine
end
